-- ==== Sys2Proof/Word.lean ====
section
/-!
DEFINITION. The word types of the Stavven S8 and the plainest operations on them: fields of a word (R8) and
little-endian bytes (R9).
-/
namespace Sys2Proof

/-- One byte of memory. -/
abbrev Byte := BitVec 8
/-- A 32-bit register or instruction word (R133, R161). -/
abbrev Word := BitVec 32
/-- A 64-bit register, pair or record word. -/
abbrev DWord := BitVec 64
/-- Four lanes of a slice: bit i stands for lane position i (R173). -/
abbrev Mask := BitVec 4

/-- Bits [hi:lo] of a number, as a number (R8). -/
def bits (x hi lo : Nat) : Nat := (x >>> lo) % 2 ^ (hi + 1 - lo)

/-- Bit i of a number. -/
def bitAt (x i : Nat) : Bool := (x >>> i) % 2 == 1

/-- A number with its bits [hi:lo] replaced by v. -/
def setBits (x hi lo v : Nat) : Nat :=
  (x >>> (hi + 1)) <<< (hi + 1) + (v % 2 ^ (hi + 1 - lo)) <<< lo + x % 2 ^ lo

/-- The number that little-endian bytes spell (R9). -/
def ofBytes : List Byte → Nat
  | [] => 0
  | b :: bs => b.toNat + 256 * ofBytes bs

/-- The n little-endian bytes of a number (R9). -/
def toBytes : Nat → Nat → List Byte
  | 0, _ => []
  | n + 1, x => BitVec.ofNat 8 x :: toBytes n (x / 256)

/-- The number x read as a w-bit two's-complement integer. -/
def sintOf (w x : Nat) : Int :=
  if x % 2 ^ w < 2 ^ (w - 1) then (x % 2 ^ w : Nat) else ((x % 2 ^ w : Nat) : Int) - (2 ^ w : Nat)

/-- v mod 2^w as a number (R199's Wrap). -/
def wrapTo (w : Nat) (v : Int) : Nat := (v % ((2 ^ w : Nat) : Int)).toNat

/-- The base-2 logarithm, rounded down; 0 for 0. -/
def log2 (n : Nat) : Nat := Nat.log2 n

/-- Ceiling division. -/
def ceilDiv (a b : Nat) : Nat := (a + b - 1) / b

/-- A boolean as a bit. -/
def bit01 (b : Bool) : Nat := if b then 1 else 0

end Sys2Proof
end

