-- ==== Sys2Proof/Machine/Flags.lean ====
section
/-!
DEFINITION. Number formats (R216 to R222), the sticky flags (R238), exact values, and RoundTo, through which every
rounding of the machine goes (R227 to R230).
-/
namespace Sys2Proof.Machine

/-! ## Flags -/

/-- The six sticky flags in the places of FSTK[5:0] (R238): QSAT, NV, DZ, OF, UF, NX from the top. -/
abbrev Flags := BitVec 6

def Flags.none : Flags := 0
def Flags.nx : Flags := 1
def Flags.uf : Flags := 2
def Flags.ov : Flags := 4
def Flags.dz : Flags := 8
def Flags.nv : Flags := 16
def Flags.qsat : Flags := 32

/-- The flag f when b holds. -/
def Flags.when (b : Bool) (f : Flags) : Flags := if b then f else 0

/-! ## Rounding modes -/

/-- The modes RoundTo accepts (R226). -/
inductive RMode where
  | rne | rtz | rdn | rup | rna | sr
deriving DecidableEq, Repr, Inhabited

/-- The mode of an RM code; CTR gives the contract's RFM (R60). Code 7 is reserved and never reaches a meaning. -/
def RMode.ofCode (rfm : RMode) (c : Nat) : RMode :=
  match c with
  | 0 => .rne | 1 => .rtz | 2 => .rdn | 3 => .rup | 4 => .rna | 5 => .sr | _ => rfm

/-! ## Exact values -/

/-- An exact value that a format or a computation holds: a NaN with its sign, whether it signals, and its payload
below the quiet bit with the payload's width; an infinity; or (-1)^neg * m * 2^e, where m = 0 is a signed zero. -/
inductive Num where
  | nan (neg sig : Bool) (payload width : Nat)
  | inf (neg : Bool)
  | fin (neg : Bool) (m : Nat) (e : Int)
deriving DecidableEq, Repr

def Num.zero (neg : Bool) : Num := .fin neg 0 0
def Num.one : Num := .fin false 1 0
/-- The positive quiet NaN with no payload, from which every canonical NaN is made (R218). -/
def Num.qnan : Num := .nan false false 0 0

def Num.isNaN : Num → Bool
  | .nan _ _ _ _ => true
  | _ => false

def Num.isSNaN : Num → Bool
  | .nan _ s _ _ => s
  | _ => false

def Num.isInf : Num → Bool
  | .inf _ => true
  | _ => false

def Num.isZero : Num → Bool
  | .fin _ 0 _ => true
  | _ => false

def Num.isFinite : Num → Bool
  | .fin _ _ _ => true
  | _ => false

def Num.neg : Num → Bool
  | .nan n _ _ _ => n
  | .inf n => n
  | .fin n _ _ => n

def Num.withNeg (n : Bool) : Num → Num
  | .nan _ s p w => .nan n s p w
  | .inf _ => .inf n
  | .fin _ m e => .fin n m e

def Num.abs (x : Num) : Num := x.withNeg false
def Num.flip (x : Num) : Num := x.withNeg (!x.neg)

/-- An integer as an exact value. -/
def Num.ofInt (v : Int) : Num := .fin (decide (v < 0)) v.natAbs 0

/-- The signed significand of a finite value at the scale 2^s, for s at most its exponent; other values give 0. -/
def Num.scaled (s : Int) : Num → Int
  | .fin n m e => if n then -((m <<< (e - s).toNat : Nat) : Int) else ((m <<< (e - s).toNat : Nat) : Int)
  | _ => 0

/-- The exponent of a finite nonzero value; none otherwise. -/
def Num.exp? : Num → Option Int
  | .fin _ 0 _ => none
  | .fin _ _ e => some e
  | _ => none

/-- Exp(v) = floor(log2 |v|) of a nonzero finite value (R50). -/
def Num.log2? : Num → Option Int
  | .fin _ 0 _ => none
  | .fin _ m e => some (e + (Nat.log2 m : Int))
  | _ => none

def minInt? : List Int → Option Int
  | [] => none
  | x :: xs => match minInt? xs with | none => some x | some y => some (if x ≤ y then x else y)

def maxInt? : List Int → Option Int
  | [] => none
  | x :: xs => match maxInt? xs with | none => some x | some y => some (if x ≤ y then y else x)

/-- Sum of a list of integers. -/
def sumInt : List Int → Int
  | [] => 0
  | x :: xs => x + sumInt xs

/-- The sign of an exact sum that is zero (R52): -0 when every addend is -0, or when the mode is RDN and the addends
are not all +0. -/
def zeroSumNeg (xs : List Num) (rm : RMode) : Bool :=
  xs.all (fun x => x.isZero && x.neg) && !xs.isEmpty ||
    (rm == .rdn && !xs.all (fun x => x.isZero && !x.neg))

/-- The exact sum of finite values, a zero sum signed by R52 for the mode that the sum undergoes. -/
def sumFin (xs : List Num) (rm : RMode) : Num :=
  let s := (minInt? (xs.filterMap Num.exp?)).getD 0
  let v := sumInt (xs.map (Num.scaled s))
  if v = 0 then .zero (zeroSumNeg xs rm) else .fin (decide (v < 0)) v.natAbs s

/-- IEEE addition of values that are not NaN, with a flag for opposite infinities (R52, R240). A NaN operand is
returned unchanged. -/
def addNum (a b : Num) (rm : RMode) : Num × Bool :=
  match a, b with
  | .nan _ _ _ _, _ => (a, false)
  | _, .nan _ _ _ _ => (b, false)
  | .inf n, .inf n' => if n == n' then (.inf n, false) else (.qnan, true)
  | .inf n, _ => (.inf n, false)
  | _, .inf n => (.inf n, false)
  | _, _ => (sumFin [a, b] rm, false)

/-- IEEE multiplication of values that are not NaN, exact, with a flag for infinity times zero (R55, R240). A NaN
operand is returned unchanged. -/
def mulNum (a b : Num) : Num × Bool :=
  match a, b with
  | .nan _ _ _ _, _ => (a, false)
  | _, .nan _ _ _ _ => (b, false)
  | .inf n, y => if y.isZero then (.qnan, true) else (.inf (n ^^ y.neg), false)
  | x, .inf n => if x.isZero then (.qnan, true) else (.inf (x.neg ^^ n), false)
  | .fin n m e, .fin n' m' e' => (.fin (n ^^ n') (m * m') (e + e'), false)

/-- Three-way comparison of values that are not NaN: the sign of a - b, with -0 equal to +0. -/
def cmpNum (a b : Num) : Int :=
  match a, b with
  | .inf n, .inf n' => if n == n' then 0 else if n then -1 else 1
  | .inf n, _ => if n then -1 else 1
  | _, .inf n => if n then 1 else -1
  | _, _ => (match sumFin [a, b.flip] .rne with
    | .fin _ 0 _ => 0
    | .fin n _ _ => if n then -1 else 1
    | _ => 0)

/-! ## Formats -/

/-- A binary format (R217): exponent and fraction widths, whether the all-ones exponent encodes finite values, whether
it has NaNs, and the low bits of its container that hold 0 (R221). -/
structure Fmt where
  e : Nat
  f : Nat
  top : Bool := false
  hasNaN : Bool := true
  pad : Nat := 0
deriving DecidableEq, Repr

def fp64 : Fmt := { e := 11, f := 52 }
def fp32 : Fmt := { e := 8, f := 23 }
def fp19 : Fmt := { e := 8, f := 10, pad := 13 }
def bf16 : Fmt := { e := 8, f := 7 }
def fp16 : Fmt := { e := 5, f := 10 }
def e5m2 : Fmt := { e := 5, f := 2 }
def e4m3 : Fmt := { e := 4, f := 3, top := true }
def e3m2 : Fmt := { e := 3, f := 2, top := true, hasNaN := false }
def e2m3 : Fmt := { e := 2, f := 3, top := true, hasNaN := false }
def e2m1 : Fmt := { e := 2, f := 1, top := true, hasNaN := false }
def fp26 : Fmt := { e := 8, f := 17, pad := 6 }
def fp40 : Fmt := { e := 8, f := 31, pad := 24 }

def Fmt.bias (f : Fmt) : Nat := 2 ^ (f.e - 1) - 1
def Fmt.emin (f : Fmt) : Int := 1 - (f.bias : Int)
def Fmt.width (f : Fmt) : Nat := f.e + f.f + 1

/-- f.max: the largest finite magnitude (R217). -/
def Fmt.max (f : Fmt) : Num :=
  if f.top then .fin false (if f.hasNaN then 2 ^ (f.f + 1) - 2 else 2 ^ (f.f + 1) - 1) ((f.bias : Int) + 1 - f.f)
  else .fin false (2 ^ (f.f + 1) - 1) ((f.bias : Int) - f.f)

/-- The value that a container's bits hold in format f (R217, R221). -/
def Fmt.decode (f : Fmt) (c : Nat) : Num :=
  let x := c >>> f.pad
  let fr := x % 2 ^ f.f
  let ex := (x >>> f.f) % 2 ^ f.e
  let s := bitAt x (f.e + f.f)
  if ex = 2 ^ f.e - 1 ∧ !f.top then
    if fr = 0 then .inf s else .nan s (!bitAt fr (f.f - 1)) (fr % 2 ^ (f.f - 1)) (f.f - 1)
  else if ex = 2 ^ f.e - 1 ∧ f.hasNaN ∧ fr = 2 ^ f.f - 1 then .nan s false (2 ^ (f.f - 1) - 1) (f.f - 1)
  else if ex = 0 then .fin s fr (f.emin - f.f)
  else .fin s (2 ^ f.f + fr) ((ex : Int) - f.bias - f.f)

/-- A payload of one width at another: the high bits kept, zeros below (R228). -/
def fitPayload (p w w' : Nat) : Nat := if w' ≤ w then p >>> (w - w') else p <<< (w' - w)

/-- The container bits of a value of format f. A finite value is one that f holds. -/
def Fmt.encode (f : Fmt) (x : Num) : Nat :=
  let sgn (n : Bool) := if n then 2 ^ (f.e + f.f) else 0
  let top := (2 ^ f.e - 1) * 2 ^ f.f
  let b := match x with
    | .nan n _ p w => sgn n + top + (if f.top then 2 ^ f.f - 1 else 2 ^ (f.f - 1) + fitPayload p w (f.f - 1))
    | .inf n => sgn n + top
    | .fin n 0 _ => sgn n
    | .fin n m e =>
      let k := (Nat.log2 m : Int) + e
      let q := (if k < f.emin then f.emin else k) - f.f
      let a := if q ≤ e then m <<< (e - q).toNat else m >>> (q - e).toNat
      if k < f.emin then sgn n + a else sgn n + ((k + f.bias).toNat * 2 ^ f.f + (a - 2 ^ f.f))
  b <<< f.pad

/-- CanonNaN(f) as a value of f (R218). A format without NaNs gives +f.max. -/
def Fmt.canonNaN (f : Fmt) : Num := if f.hasNaN then .qnan else f.max

/-- The flag that a rule sets by writing a canonical NaN to f: NV where f has no NaNs (R218). -/
def Fmt.canonFlags (f : Fmt) : Flags := Flags.when (!f.hasNaN) .nv

/-- NaNTo(f, x) (R228). -/
def nanTo (f : Fmt) (x : Num) : Num × Flags :=
  match x with
  | .nan n s p w =>
    if !f.hasNaN then (f.max.withNeg n, .nv)
    else if f.top then (.nan n false (2 ^ (f.f - 1) - 1) (f.f - 1), Flags.when s .nv)
    else (.nan n false (fitPayload p w (f.f - 1)) (f.f - 1), Flags.when s .nv)
  | _ => (x, .none)

/-- FlushSub(v, f) (R50): a zero of v's sign for a nonzero v below the smallest normal magnitude of f; UF and NX when
it changes v (R56). -/
def flushSub (f : Fmt) (x : Num) : Num × Flags :=
  match x.log2? with
  | some k => if k < f.emin then (.zero x.neg, .uf ||| .nx) else (x, .none)
  | none => (x, .none)

/-- A magnitude between m * 2^e and (m + 1) * 2^e: exactly m * 2^e when `sticky` is false, strictly between otherwise.
Callers of a sticky value give at least 34 bits below the last bit of the rounding's destination. -/
structure Mag where
  m : Nat
  e : Int
  sticky : Bool := false
deriving DecidableEq, Repr

/-- The multiple of 2^q that R227 chooses for a magnitude, as (multiplier, inexact), given the sign, the mode and the
draw of SR. -/
def roundAt (q : Int) (neg : Bool) (a : Mag) (rm : RMode) (r : Nat) : Nat × Bool :=
  if q ≤ a.e then (a.m <<< (a.e - q).toNat, a.sticky)
  else
    let sh := (q - a.e).toNat
    let lo := a.m >>> sh
    let rem := a.m % 2 ^ sh
    if rem = 0 ∧ !a.sticky then (lo, false)
    else
      let half := 2 ^ (sh - 1)
      let up := match rm with
        | .rtz => false
        | .rdn => neg
        | .rup => !neg
        | .sr => decide ((if 32 ≤ sh then rem >>> (sh - 32) else rem <<< (32 - sh)) + r ≥ 2 ^ 32)
        | .rna => decide (half ≤ rem)
        | .rne => decide (half < rem) || (rem == half && (a.sticky || lo % 2 == 1))
      (if up then lo + 1 else lo, true)

/-- Overflow(f, s, rm) (R228) with the sign put on. -/
def overflowTo (f : Fmt) (neg : Bool) (rm : RMode) : Num :=
  if f.top then f.max.withNeg neg
  else match rm with
    | .rtz => f.max.withNeg neg
    | .rdn => if neg then .inf neg else f.max.withNeg neg
    | .rup => if neg then f.max.withNeg neg else .inf neg
    | _ => .inf neg

/-- RoundTo(f, x, rm) of a nonzero finite magnitude (R227). r is the draw of SR. -/
def roundMag (f : Fmt) (neg : Bool) (a : Mag) (rm : RMode) (r : Nat) : Num × Flags :=
  let k := a.e + (Nat.log2 a.m : Int)
  let q := (if k < f.emin then f.emin else k) - f.f
  let (n, inexact) := roundAt q neg a rm r
  let fl := Flags.when (inexact && decide (k < f.emin)) .uf ||| Flags.when inexact .nx
  let v := Num.fin neg n q
  if cmpNum v.abs f.max > 0 then (overflowTo f neg rm, fl ||| .ov ||| .nx) else (v, fl)

/-- RoundTo(f, x, rm) (R227) of an exact value. -/
def roundTo (f : Fmt) (x : Num) (rm : RMode) (r : Nat) : Num × Flags :=
  match x with
  | .nan _ _ _ _ => nanTo f x
  | .inf n => if f.top then (f.max.withNeg n, .nv) else (x, .none)
  | .fin _ 0 _ => (x, .none)
  | .fin n m e => roundMag f n { m := m, e := e } rm r

/-- The integer formats (R220): width and signedness. -/
structure IFmt where
  signed : Bool
  w : Nat
deriving DecidableEq, Repr

def IFmt.lo (t : IFmt) : Int := if t.signed then -((2 ^ (t.w - 1) : Nat) : Int) else 0
def IFmt.hi (t : IFmt) : Int := if t.signed then (2 ^ (t.w - 1) : Nat) - 1 else (2 ^ t.w : Nat) - 1

/-- Sat(v, t) (R199). -/
def IFmt.sat (t : IFmt) (v : Int) : Int := if v < t.lo then t.lo else if t.hi < v then t.hi else v

/-- RoundTo to an integer format (R229). -/
def roundInt (t : IFmt) (x : Num) (rm : RMode) (r : Nat) : Int × Flags :=
  match x with
  | .nan _ _ _ _ => (0, .nv)
  | .inf n => (if n then t.lo else t.hi, .nv)
  | .fin _ 0 _ => (0, .none)
  | .fin n m e =>
    let (k, inexact) := roundAt 0 n { m := m, e := e } rm r
    let v : Int := if n then -(k : Int) else k
    (t.sat v, Flags.when inexact .nx ||| Flags.when (decide (t.sat v ≠ v)) .nv)

/-! ## Exact magnitudes of quotients and roots -/

/-- The floor of the square root of n, from its k low bits down. -/
def isqrtGo (n : Nat) : Nat → Nat → Nat
  | 0, r => r
  | k + 1, r => isqrtGo n k (if (r + 2 ^ k) * (r + 2 ^ k) ≤ n then r + 2 ^ k else r)

/-- The floor of the square root. -/
def isqrt (n : Nat) : Nat := isqrtGo n (Nat.log2 n / 2 + 1) 0

/-- |a| / |b| for finite nonzero a and b, to at least 140 bits. -/
def divMag (m : Nat) (e : Int) (m' : Nat) (e' : Int) : Mag :=
  let s := 140 + Nat.log2 m'
  { m := (m <<< s) / m', e := e - e' - s, sticky := decide ((m <<< s) % m' ≠ 0) }

/-- The square root of m * 2^e for m > 0, to at least 140 bits. -/
def sqrtMag (m : Nat) (e : Int) : Mag :=
  let s := if e % 2 = 0 then 280 else 281
  let n := m <<< s
  let r := isqrt n
  { m := r, e := (e - s) / 2, sticky := decide (r * r ≠ n) }

/-! ## Histograms -/

/-- The counters of an exponent histogram by byte offset in its 272-byte layout (R234): HistBin(x) (R235). -/
def histOffset (x : Num) : Nat :=
  match x with
  | .nan _ _ _ _ => 0x10C
  | .inf _ => 0x108
  | .fin _ 0 _ => 0x100
  | .fin _ m e =>
    let b := (Nat.log2 m : Int) + e + 127
    if b < 1 then 0x104 else if b > 254 then 4 * 63 else 4 * (b.toNat / 4)

/-! ## The stochastic generator -/

/-- Mix (R231). -/
def mix (x : DWord) : DWord :=
  let x := x ^^^ (x >>> 30)
  let x := x * 0xBF58476D1CE4E5B9#64
  let x := x ^^^ (x >>> 27)
  let x := x * 0x94D049BB133111EB#64
  x ^^^ (x >>> 31)

/-- SRDraw (R231). -/
def srDraw (v : Nat) (seed tag j n : DWord) : Nat :=
  let c := mix (mix (mix (seed ^^^ tag) ^^^ j) ^^^ n)
  if v = 1 then c.toNat % 2 ^ 32
  else if v = 2 then c.toNat / 2 ^ 32
  else (mix (c ^^^ 0x9E3779B97F4A7C15#64)).toNat / 2 ^ 32

/-- The lane stream's j (R232). -/
def laneStreamId (team lane : Nat) : DWord := BitVec.ofNat 64 ((team % 2 ^ 24) * 1024 + lane % 1024)

end Sys2Proof.Machine
end

