-- ==== Sys2Proof/Config.lean ====
section
/-!
DEFINITION. What one machine fixes: the contract catalogue (R58), the capability classes (R62), and the values that
the spec leaves open, which have no body.
-/
namespace Sys2Proof

/-- The accumulator kinds of ACCW (R49). -/
inductive AccKind where
  | fp26 | fp32 | fp40 | exact
deriving DecidableEq, Repr, Inhabited

/-- A contract table entry (R49). pexp = 0 means exact products; group is the group size 2^g. -/
structure Contract where
  num : Nat
  pexp : Nat
  pfrac : Nat
  accw : AccKind
  prom : Nat
  align : Nat
  groupLog : Nat
  tree : Bool
  subnIn : Bool
  subnProd : Bool
  subnRes : Bool
  gr : Bool
  rim : Machine.RMode
  rfm : Machine.RMode
  ftab : Nat
  nan : Bool
  srv : Nat
deriving DecidableEq, Repr, Inhabited

/-- The catalogue of R58. -/
def Config.catalogue : List Contract :=
  [ { num := 1, pexp := 8, pfrac := 23, accw := .fp32, prom := 0, align := 0, groupLog := 0, tree := false,
      subnIn := true, subnProd := true, subnRes := true, gr := false, rim := .rne, rfm := .rne, ftab := 1,
      nan := false, srv := 1 },
    { num := 2, pexp := 0, pfrac := 0, accw := .fp32, prom := 0, align := 0, groupLog := 0, tree := false,
      subnIn := false, subnProd := false, subnRes := false, gr := false, rim := .rne, rfm := .rne, ftab := 1,
      nan := true, srv := 1 },
    { num := 3, pexp := 6, pfrac := 21, accw := .fp26, prom := 4, align := 26, groupLog := 2, tree := false,
      subnIn := false, subnProd := true, subnRes := false, gr := true, rim := .rtz, rfm := .rne, ftab := 1,
      nan := false, srv := 1 },
    { num := 20, pexp := 8, pfrac := 23, accw := .fp32, prom := 0, align := 27, groupLog := 3, tree := false,
      subnIn := true, subnProd := true, subnRes := false, gr := true, rim := .rtz, rfm := .rne, ftab := 2,
      nan := false, srv := 1 },
    { num := 21, pexp := 8, pfrac := 23, accw := .fp26, prom := 8, align := 26, groupLog := 4, tree := false,
      subnIn := false, subnProd := true, subnRes := false, gr := true, rim := .rtz, rfm := .rne, ftab := 2,
      nan := false, srv := 2 },
    { num := 22, pexp := 0, pfrac := 0, accw := .fp32, prom := 0, align := 27, groupLog := 4, tree := true,
      subnIn := false, subnProd := false, subnRes := false, gr := false, rim := .rne, rfm := .rne, ftab := 2,
      nan := false, srv := 2 },
    { num := 40, pexp := 0, pfrac := 0, accw := .fp32, prom := 0, align := 30, groupLog := 5, tree := true,
      subnIn := false, subnProd := false, subnRes := false, gr := false, rim := .rne, rfm := .rne, ftab := 3,
      nan := false, srv := 3 },
    { num := 41, pexp := 0, pfrac := 0, accw := .fp40, prom := 0, align := 0, groupLog := 5, tree := true,
      subnIn := false, subnProd := false, subnRes := false, gr := false, rim := .rne, rfm := .rne, ftab := 3,
      nan := true, srv := 3 },
    { num := 42, pexp := 0, pfrac := 0, accw := .fp32, prom := 0, align := 30, groupLog := 4, tree := false,
      subnIn := false, subnProd := false, subnRes := false, gr := false, rim := .rne, rfm := .sr, ftab := 3,
      nan := false, srv := 3 },
    { num := 43, pexp := 0, pfrac := 0, accw := .exact, prom := 0, align := 0, groupLog := 5, tree := true,
      subnIn := false, subnProd := false, subnRes := false, gr := false, rim := .rne, rfm := .rne, ftab := 3,
      nan := true, srv := 3 } ]

/-- The entry of a contract number, if the S8 carries it (R47). -/
def Config.contract? (n : Nat) : Option Contract := Config.catalogue.find? (fun c => c.num == n)

/-- A value the spec leaves open, drawn fresh for each use: the counter State.opens of the use. It has no body, so
nothing can be proved of any value of it. -/
opaque Config.freeWord : Nat → DWord

/-- AES-256-GCM on a payload under the key of a domain, which the host complex changes with each re-keying of a flow, and the count
of a cell, and its inverse (R386 to R388): the spec names the cipher and gives no value of it. -/
opaque Config.gcmSeal : (domain flow rekeys count : Nat) → BitVec 1024 → BitVec 1024
opaque Config.gcmOpen : (domain flow rekeys count : Nat) → BitVec 1024 → BitVec 1024

/-- GTAG of a cell: the first 64 bits of the authentication tag over the clear tag bits and the payload (R386, R387). -/
opaque Config.gcmTag : (domain flow rekeys count : Nat) → (clear : BitVec 64) → BitVec 1024 → BitVec 64

/-- The L2 or RDC set of a die that a 128-byte line falls in (R455): the spec gives no index. -/
opaque Config.cacheSetOf : (line : Nat) → BitVec 16
/-- R455 counts errors by the register file entry and by the 4 KiB block of a core's SRAM, and the spec places neither a name's entry, nor
an L1 line, nor a 4 KiB block of a scratchpad (log 133). -/
opaque Config.regEntryOf : (team slice name : Nat) → BitVec 12
opaque Config.sramOfLine : (line : Nat) → BitVec 7
opaque Config.sramOfScratch : (team block : Nat) → BitVec 7

/-- The bits of a cell payload whose layout the spec does not give: a pod request, a barrier word, the rest of a short cell. -/
opaque Config.openPayload : Nat → BitVec 1024

/-- The number of a flow that the package itself keeps: of a core to a pool node (R391), of the splices or of the pod barriers of a domain
on a link; the domain of the first, and the link of a flow. The spec gives none of these. -/
opaque Config.flowNumber : Nat → BitVec 20
opaque Config.flowDomain : Nat → BitVec 16
opaque Config.flowLink : (domain flow : Nat) → BitVec 6

/-- The payload of an SPDM response (R390), which SPDM 1.3 gives and the spec does not repeat. -/
opaque Config.spdmPayload : (request : Nat) → (counter : Nat) → DWord

end Sys2Proof
end

