-- ==== Sys2Proof/Machine/Fields.lean ====
section
/-!
DEFINITION. The fields of an instruction word (R132 to R135) and the operands of the events that the opcode table lists
beside the instructions.
-/
namespace Sys2Proof

/-- The fields of a base word (R133), L = 0b00. -/
structure Base where
  d : BitVec 7
  a : BitVec 7
  b : BitVec 7
  la : Bool
  lb : Bool
deriving DecidableEq, Repr

/-- The three extended lengths (R132): extended words, literal, both. -/
inductive Form where
  | x01 | x10 | x11
deriving DecidableEq, Repr

/-- The operand classes (R138). -/
inductive Cls where
  | v | k | special | lit
deriving DecidableEq, Repr

/-- The extended fields that stand with one operand (R135): class, half-select, swizzle. -/
structure Sel where
  cls : Cls
  half : Bool
  sw : BitVec 3
deriving DecidableEq, Repr

/-- The fields of an instruction with L = 0b01, 0b10 or 0b11 (R133 to R137). Under L = 0b10 the extended words are
those R136 gives. rsv is word 3 bits [1:0]. -/
structure Ext where
  form : Form
  d : BitVec 7
  a : BitVec 7
  b : BitVec 7
  la : Bool
  lb : Bool
  c : BitVec 8
  pneg : Bool
  pidx : BitVec 3
  rm : BitVec 3
  ty : BitVec 5
  scope : BitVec 4
  imm : BitVec 11
  lc : Bool
  selC : Sel
  selB : Sel
  selA : Sel
  rsv : BitVec 2
  lit : DWord
deriving DecidableEq, Repr

/-- Class v, half-select 0, swizzle 0 (R136). -/
def Sel.plain : Sel := { cls := .v, half := false, sw := 0 }

/-- R136: the L = 0b01 instruction that a base-form instruction acts as. -/
def Base.ext (x : Base) : Ext :=
  { form := .x01, d := x.d, a := x.a, b := x.b, la := x.la, lb := x.lb, c := 0, pneg := false, pidx := 7, rm := 0,
    ty := 0, scope := 0, imm := 0, lc := false, selC := .plain, selB := .plain, selA := .plain, rsv := 0, lit := 0 }

/-- A SIMT core by die, quad and core (R23). -/
structure CoreId where
  die : Nat
  quad : Nat
  core : Nat
deriving DecidableEq, Repr

/-- Keys of a core and of its quad. -/
def CoreId.key (c : CoreId) : Nat := c.die * 128 + c.quad * 4 + c.core
def CoreId.quadKey (c : CoreId) : Nat := c.die * 32 + c.quad

/-- The agent that executes instructions: slices of one team issuing as a gang (R21), or a sequencer context, matrix
or copy, of a core (R315). Teams go by the model's own number. -/
inductive Agent where
  | idle
  | gang (team : Nat) (slices : List Nat)
  | ctx (matrix : Bool) (core : CoreId)
deriving DecidableEq, Repr

/-- A launch packet as a port receives it (R86 to R89): the transport endpoint in the layout of EP, whether the
transport's integrity check passed, the eight header words and the 32 card words. -/
structure LaunchPkt where
  ep : DWord
  xport : Bool
  intact : Bool
  head : List DWord
  card : List DWord
deriving DecidableEq, Repr

/-- A fabric cell as a link delivers it (R386): tag, payload, and whether the link CRC passed (R388). -/
structure Cell where
  tag : BitVec 128
  payload : BitVec 1024
  crcOk : Bool
deriving DecidableEq, Repr

/-- A partial record of a splice (R399): the value's bits in the accumulator container, or the EXACT cell. `pos` is the
model's own: every addend below it is +0, which an EXACT cell does not say and the sign of an exact zero needs (R52). -/
structure Partial where
  val : Nat
  pos : Bool
  fnan : Nat
  sp : BitVec 5
  fl : BitVec 5
deriving DecidableEq, Repr

/-- Where a combining step is formed (R395): a pool node or the endpoint reducers of a package. -/
inductive SpliceLoc where
  | node (n : Nat)
  | endpoint (pkg : Nat)
deriving DecidableEq, Repr

/-- Where a splice message is bound: a combining location, or, for a result, a member (R395, R401). -/
inductive SpliceDest where
  | at (l : SpliceLoc)
  | member (m : Nat)
deriving DecidableEq, Repr

/-- A splice message (R398): header fields and, by kind, raw elements (leaf, result) or partial records. -/
structure SpliceMsg where
  dest : SpliceDest
  kind : BitVec 3
  ty : BitVec 5
  comm : Nat
  seq : Nat
  plan : Nat
  slot : Nat
  lo : Nat
  hi : Nat
  route : List DWord
  elems : List Nat
  recs : List Partial
  rm : BitVec 3
  epsteps : Nat
  ndsteps : Nat
  flags : BitVec 6
  /-- The index of the message's first element (R398). -/
  first : Nat := 0
deriving DecidableEq, Repr

/-- A hitch contribution reaching its unit (R408): one this package's HCONTRIB issued, by number, or one another
package's member sends. -/
inductive Contribution where
  | own (id : Nat)
  | other (obj member tag : Nat) (elems : List Nat)
deriving DecidableEq, Repr

/-- A location of a storage error (R455, R434). `regEntry` and the last six name the data that an uncorrectable error affects (R456): a
vector register of a slice, a line of an L1, a byte of a scratchpad, a line of the L2 or of the die's RDC, and a slice's predicates or
stacks. -/
inductive ErrLoc where
  | regFile (c : CoreId) (entry : Nat)
  | regEntry (team slice name : Nat)
  | sram (c : CoreId) (block : Nat)
  | cacheSet (set : Nat)
  | hbm (pa : Nat)
  | seqWord (c : CoreId) (matrix : Bool)
  | l1Line (c : CoreId) (line : Nat)
  | scratch (team off : Nat)
  | l2Line (pa : Nat)
  | rdcLine (line : Nat)
  | preds (team slice : Nat)
  | stacks (team slice : Nat)
deriving DecidableEq, Repr

/-- A bubble pattern (R107, R491). -/
structure Throttle where
  plog : BitVec 5
  bcnt : BitVec 16
  estart : DWord
deriving DecidableEq, Repr

/-- A firmware image as the management controller meets it (R493, R490): its signature is right, and it is a test image (R494). -/
structure Firmware where
  signatureOk : Bool
  test : Bool
  measurement : DWord
  features : DWord
deriving DecidableEq, Repr

/-- A host core's access to device or pod memory (R279). -/
inductive HostAccess where
  | read (pa n : Nat)
  | write (pa : Nat) (data : List Byte)
deriving DecidableEq, Repr

/-- The mnemonics of R149 and R150. -/
inductive Op where
  | nop | bra | brx | call | callx | ret | exit | kill | yield | enter
  | leave | plop | smov | sset | trap | rett | drainst | gkill | bkpt | rrchk
  | trigger | seqend | mov | kmov | iadd | isub | iaddc | isubb | iadd64 | imul
  | imulh | imad | imad64 | imin | imax | iabs | and | or | xor | andn
  | shl | shr | sar | shf | rot | bfx | bfi | popc | clz | brev
  | perm | icmp | isel | lea | fence | bar | bara | barw | barinit | splice
  | fork | rdv | fadd | fsub | fmul | ffma | fmin | fmax | fcmp | fclass
  | fscale | frcp | frsq | fsqrt | fdiv | fexp2 | flog2 | fsin | fcos | dadd
  | dmul | dfma | dcmp | hadd2 | hmul2 | hfma2 | hmin2 | hmax2 | fdot | cvt
  | cvtpk | qblk | dqblk | vqdec | exphist | srseed | xshf | xbcast | xred | xscan
  | xdot | xvote | xmatch | ld | st | ldk | atom | red | pref | cflush
  | cinv | acp16 | tcopy | tdump | awinit | awexp | await | awtest | launch | nwait
  | hinit | hjoin | hcontrib | hwait | hquery | tcfg | tld | tst | tzero | mma
  | mmav | cbld | olapply | aprom | aout | asav | arst | ahist | stest
deriving DecidableEq, Repr

/-- The engines (R149): a SIMT core, a matrix and a copy sequencer context. -/
inductive Engine where
  | g | m | c
deriving DecidableEq, Repr

/-- The length code L (R132). -/
inductive Len where
  | l00 | l01 | l10 | l11
deriving DecidableEq, Repr

/-- An instruction as its operation, its length and its fields, the base form's fields completed by R136. -/
structure Raw where
  op : Op
  len : Len
  x : Ext
deriving DecidableEq, Repr

/-- The length code of a form. -/
def Form.len : Form → Len
  | .x01 => .l01
  | .x10 => .l10
  | .x11 => .l11

/-- The length of an instruction in bytes (R132). -/
def Len.bytes : Len → Nat
  | .l00 => 4
  | .l01 => 12
  | .l10 => 12
  | .l11 => 20

end Sys2Proof
end

