-- ==== Sys2Proof/Syntax.lean ====
section
/-!
DEFINITION. The syntax of the machine: Instr, one constructor for each row of the opcode table.
-/
namespace Sys2Proof

/-- The steps of the S8: one constructor for each row of the opcode table. A base row carries the base word's fields,
an extended row the extended ones, an event row the operands of the event. -/
inductive Instr where
  /-- R189. Base form: changes nothing but the PC. -/
  | nop (b : Base)
  /-- R189. Extended form of NOP with a predicate. -/
  | nopExt (x : Ext)
  /-- R183. Base form: branches the acting lanes by a 21-bit word offset, with the join at the target. -/
  | bra (b : Base)
  /-- R183. Extended or literal form of BRA, with a predicate, an explicit join or an absolute target. -/
  | braExt (x : Ext)
  /-- R184. Base form: branches the lanes that agree with the lowest acting lane's target pair. -/
  | brx (b : Base)
  /-- R184. Extended form of BRX with a predicate. -/
  | brxExt (x : Ext)
  /-- R185. Base form: branches as BRA and writes the return address to the link pair. -/
  | call (b : Base)
  /-- R185. Extended or literal form of CALL. -/
  | callExt (x : Ext)
  /-- R185. Base form: calls the per-lane target shared with the lowest acting lane and sets a predicate. -/
  | callx (b : Base)
  /-- R185. Extended form of CALLX with a predicate. -/
  | callxExt (x : Ext)
  /-- R186. Base form: branches the acting lanes to the address in the link pair. -/
  | ret (b : Base)
  /-- R186. Extended form of RET with a predicate. -/
  | retExt (x : Ext)
  /-- R188. Base form: ends the acting lanes once their earlier stores have translated. -/
  | exit (b : Base)
  /-- R188. Extended form of EXIT with a predicate. -/
  | exitExt (x : Ext)
  /-- R188. Base form: ends the acting lanes at issue. -/
  | kill (b : Base)
  /-- R188. Extended form of KILL with a predicate. -/
  | killExt (x : Ext)
  /-- R190. Base form: makes the slice not ready for 64 cycles. -/
  | yield (b : Base)
  /-- R190. Extended form of YIELD with a predicate. -/
  | yieldExt (x : Ext)
  /-- R191. Base form: pushes a region identifier onto the slice's region stack. -/
  | enter (b : Base)
  /-- R191. Extended form of ENTER, legal only with default extended words. -/
  | enterExt (x : Ext)
  /-- R191. Base form: pops the region stack, checking the identifier when it is nonzero. -/
  | leave (b : Base)
  /-- R191. Extended form of LEAVE, legal only with default extended words. -/
  | leaveExt (x : Ext)
  /-- R192. Base form: computes any truth-table function of two predicates. -/
  | plop (b : Base)
  /-- R192. Extended form of PLOP with a predicate. -/
  | plopExt (x : Ext)
  /-- R194. Base form: copies a special register to a v register. -/
  | smov (b : Base)
  /-- R194. Extended form of SMOV, with a type or an index operand for CAPC. -/
  | smovExt (x : Ext)
  /-- R195. Base form: privileged copy of a v register to TRAPBASE or TRAPMASK. -/
  | sset (b : Base)
  /-- R195. Extended form of SSET with a type or a predicate. -/
  | ssetExt (x : Ext)
  /-- R451. Base form: takes TRAPI with a 14-bit code when a lane acts. -/
  | trap (b : Base)
  /-- R451. Extended form of TRAP with a predicate. -/
  | trapExt (x : Ext)
  /-- R453. Base form: waits until the slice's earlier stores have translated, taking SFAULT with no skid. -/
  | drainst (b : Base)
  /-- R453. Extended form of DRAINST with a predicate. -/
  | drainstExt (x : Ext)
  /-- R454. Base form: ends every lane of the issuing slice's home gang. -/
  | gkill (b : Base)
  /-- R454. Extended form of GKILL with a predicate. -/
  | gkillExt (x : Ext)
  /-- R465. Base form: takes BKPT with a code at a region edge. -/
  | bkpt (b : Base)
  /-- R465. Extended form of BKPT with a predicate. -/
  | bkptExt (x : Ext)
  /-- R477. Base form: forms the store hash, records or checks it against the replay log. -/
  | rrchk (b : Base)
  /-- R477. Extended form of RRCHK with a predicate. -/
  | rrchkExt (x : Ext)
  /-- R488. Base form: starts a .pkg release and drain that marks the lane as triggered. -/
  | trigger (b : Base)
  /-- R488. Extended form of TRIGGER with a predicate. -/
  | triggerExt (x : Ext)
  /-- R329. Base form: waits for the context's issued work, releases at .core, records the exit code and stops the context. -/
  | seqend (b : Base)
  /-- R329. Extended form of SEQEND with a predicate. -/
  | seqendExt (x : Ext)
  /-- R202. Base form: copies a 32-bit register source to vD. -/
  | mov (b : Base)
  /-- R202. Extended or literal form of MOV. -/
  | movExt (x : Ext)
  /-- R202. Base form: writes a source to a k register of the home gang from the highest acting lane. -/
  | kmov (b : Base)
  /-- R202. Extended or literal form of KMOV. -/
  | kmovExt (x : Ext)
  /-- R203. Base form: 32-bit integer addition. -/
  | iadd (b : Base)
  /-- R203. Extended or literal form of IADD, with packed types or saturation. -/
  | iaddExt (x : Ext)
  /-- R203. Base form: 32-bit integer subtraction. -/
  | isub (b : Base)
  /-- R203. Extended or literal form of ISUB. -/
  | isubExt (x : Ext)
  /-- R203. Base form: add with carry in and out through q0. -/
  | iaddc (b : Base)
  /-- R203. Extended or literal form of IADDC with chosen carry predicates. -/
  | iaddcExt (x : Ext)
  /-- R203. Base form: subtract with borrow through q0. -/
  | isubb (b : Base)
  /-- R203. Extended or literal form of ISUBB. -/
  | isubbExt (x : Ext)
  /-- R203. Base form: 64-bit integer addition on register pairs. -/
  | iadd64 (b : Base)
  /-- R203. Extended or literal form of IADD64. -/
  | iadd64Ext (x : Ext)
  /-- R204. Base form: low 32 bits of an integer product. -/
  | imul (b : Base)
  /-- R204. Extended or literal form of IMUL. -/
  | imulExt (x : Ext)
  /-- R204. Base form: high 32 bits of a 64-bit integer product. -/
  | imulh (b : Base)
  /-- R204. Extended or literal form of IMULH. -/
  | imulhExt (x : Ext)
  /-- R204. 32-bit integer multiply-add of three sources. -/
  | imad (x : Ext)
  /-- R204. 32 by 32 multiply added to a 64-bit value. -/
  | imad64 (x : Ext)
  /-- R205. Base form: elementwise integer minimum. -/
  | imin (b : Base)
  /-- R205. Extended or literal form of IMIN. -/
  | iminExt (x : Ext)
  /-- R205. Base form: elementwise integer maximum. -/
  | imax (b : Base)
  /-- R205. Extended or literal form of IMAX. -/
  | imaxExt (x : Ext)
  /-- R205. Base form: elementwise integer absolute value. -/
  | iabs (b : Base)
  /-- R205. Extended form of IABS with type or saturation. -/
  | iabsExt (x : Ext)
  /-- R206. Base form: bitwise AND. -/
  | and (b : Base)
  /-- R206. Extended or literal form of AND. -/
  | andExt (x : Ext)
  /-- R206. Base form: bitwise OR. -/
  | or (b : Base)
  /-- R206. Extended or literal form of OR. -/
  | orExt (x : Ext)
  /-- R206. Base form: bitwise XOR. -/
  | xor (b : Base)
  /-- R206. Extended or literal form of XOR. -/
  | xorExt (x : Ext)
  /-- R206. Base form: A AND NOT B. -/
  | andn (b : Base)
  /-- R206. Extended or literal form of ANDN. -/
  | andnExt (x : Ext)
  /-- R207. Base form: logical left shift. -/
  | shl (b : Base)
  /-- R207. Extended or literal form of SHL. -/
  | shlExt (x : Ext)
  /-- R207. Base form: logical right shift. -/
  | shr (b : Base)
  /-- R207. Extended or literal form of SHR. -/
  | shrExt (x : Ext)
  /-- R207. Base form: arithmetic right shift. -/
  | sar (b : Base)
  /-- R207. Extended or literal form of SAR. -/
  | sarExt (x : Ext)
  /-- R208. Shifts a 64-bit funnel of two registers. -/
  | shf (x : Ext)
  /-- R208. Base form: rotates A left by B modulo the width. -/
  | rot (b : Base)
  /-- R208. Extended or literal form of ROT with direction or width. -/
  | rotExt (x : Ext)
  /-- R209. Base form: extracts a bit field. -/
  | bfx (b : Base)
  /-- R209. Extended or literal form of BFX. -/
  | bfxExt (x : Ext)
  /-- R209. Inserts the low bits of B into a field of A. -/
  | bfi (x : Ext)
  /-- R210. Base form: population count. -/
  | popc (b : Base)
  /-- R210. Extended form of POPC. -/
  | popcExt (x : Ext)
  /-- R210. Base form: count of leading zeros. -/
  | clz (b : Base)
  /-- R210. Extended form of CLZ. -/
  | clzExt (x : Ext)
  /-- R210. Base form: bit reversal. -/
  | brev (b : Base)
  /-- R210. Extended form of BREV. -/
  | brevExt (x : Ext)
  /-- R211. Builds each byte of D from the bytes of B and A under nibble control. -/
  | perm (x : Ext)
  /-- R212. Base form: integer comparison writing a predicate. -/
  | icmp (b : Base)
  /-- R212. Extended or literal form of ICMP, with type or combination. -/
  | icmpExt (x : Ext)
  /-- R213. Base form: selects A or B per lane by q0. -/
  | isel (b : Base)
  /-- R213. Extended or literal form of ISEL with a chosen predicate. -/
  | iselExt (x : Ext)
  /-- R214. Computes a 64-bit address without accessing memory. -/
  | lea (x : Ext)
  /-- R374. Base form: fence of a kind at .pkg, optionally publishing cross-path. -/
  | fence (b : Base)
  /-- R374. Extended form of FENCE with scope or predicate. -/
  | fenceExt (x : Ext)
  /-- R377. Base form: arrives at a named barrier and waits for the phase to change. -/
  | bar (b : Base)
  /-- R377. Extended form of BAR with .x, a level scope or a predicate. -/
  | barExt (x : Ext)
  /-- R377. Base form: arrives at a barrier and returns the phase token without waiting. -/
  | bara (b : Base)
  /-- R377. Extended form of BARA. -/
  | baraExt (x : Ext)
  /-- R377. Base form: waits until the barrier phase differs from the token, then acquires. -/
  | barw (b : Base)
  /-- R377. Extended form of BARW. -/
  | barwExt (x : Ext)
  /-- R375. Base form: sets the barrier's expected count. -/
  | barinit (b : Base)
  /-- R375. Extended or literal form of BARINIT. -/
  | barinitExt (x : Ext)
  /-- R400. Base form: starts one splice per acting lane from a scratchpad descriptor. -/
  | splice (b : Base)
  /-- R400. Extended or literal form of SPLICE with rounding or a predicate. -/
  | spliceExt (x : Ext)
  /-- R328. Starts a program on the paired MSQ or CSQ context, or waits while another team holds it. -/
  | fork (x : Ext)
  /-- R330. Waits for named contexts' SEQEND, ends the hold, acquires, merges flags and returns exit codes. -/
  | rdv (x : Ext)
  /-- R240. Base form: FP32 addition rounded once. -/
  | fadd (b : Base)
  /-- R240. Extended or literal form of FADD. -/
  | faddExt (x : Ext)
  /-- R240. Base form: FP32 subtraction. -/
  | fsub (b : Base)
  /-- R240. Extended or literal form of FSUB. -/
  | fsubExt (x : Ext)
  /-- R240. Base form: FP32 multiplication. -/
  | fmul (b : Base)
  /-- R240. Extended or literal form of FMUL. -/
  | fmulExt (x : Ext)
  /-- R240. FP32 fused multiply-add rounded once. -/
  | ffma (x : Ext)
  /-- R242. Base form: FP32 minimum. -/
  | fmin (b : Base)
  /-- R242. Extended or literal form of FMIN. -/
  | fminExt (x : Ext)
  /-- R242. Base form: FP32 maximum. -/
  | fmax (b : Base)
  /-- R242. Extended or literal form of FMAX. -/
  | fmaxExt (x : Ext)
  /-- R243. Base form: floating comparison writing a predicate. -/
  | fcmp (b : Base)
  /-- R243. Extended or literal form of FCMP. -/
  | fcmpExt (x : Ext)
  /-- R244. Base form: writes a one-hot class mask of A. -/
  | fclass (b : Base)
  /-- R244. Extended form of FCLASS with a type. -/
  | fclassExt (x : Ext)
  /-- R245. Reads the lane's sticky flags and optionally clears them. -/
  | fclassRdfl (x : Ext)
  /-- R241. Base form: multiplies by a power of two. -/
  | fscale (b : Base)
  /-- R241. Extended or literal form of FSCALE. -/
  | fscaleExt (x : Ext)
  /-- R247. Base form: reciprocal under the function-table revision. -/
  | frcp (b : Base)
  /-- R247. Extended form of FRCP. -/
  | frcpExt (x : Ext)
  /-- R247. Base form: reciprocal square root. -/
  | frsq (b : Base)
  /-- R247. Extended form of FRSQ. -/
  | frsqExt (x : Ext)
  /-- R246. Base form: correctly rounded square root. -/
  | fsqrt (b : Base)
  /-- R246. Extended form of FSQRT. -/
  | fsqrtExt (x : Ext)
  /-- R246. Base form: correctly rounded division. -/
  | fdiv (b : Base)
  /-- R246. Extended or literal form of FDIV. -/
  | fdivExt (x : Ext)
  /-- R247. Base form: base-2 exponential. -/
  | fexp2 (b : Base)
  /-- R247. Extended form of FEXP2. -/
  | fexp2Ext (x : Ext)
  /-- R247. Base form: base-2 logarithm. -/
  | flog2 (b : Base)
  /-- R247. Extended form of FLOG2. -/
  | flog2Ext (x : Ext)
  /-- R247. Base form: sine. -/
  | fsin (b : Base)
  /-- R247. Extended form of FSIN. -/
  | fsinExt (x : Ext)
  /-- R247. Base form: cosine. -/
  | fcos (b : Base)
  /-- R247. Extended form of FCOS. -/
  | fcosExt (x : Ext)
  /-- R250. Base form: FP64 addition. -/
  | dadd (b : Base)
  /-- R250. Extended or literal form of DADD. -/
  | daddExt (x : Ext)
  /-- R250. Base form: FP64 multiplication. -/
  | dmul (b : Base)
  /-- R250. Extended or literal form of DMUL. -/
  | dmulExt (x : Ext)
  /-- R250. FP64 fused multiply-add. -/
  | dfma (x : Ext)
  /-- R250. Base form: FP64 comparison writing a predicate. -/
  | dcmp (b : Base)
  /-- R250. Extended or literal form of DCMP. -/
  | dcmpExt (x : Ext)
  /-- R251. Base form: packed FP16 addition. -/
  | hadd2 (b : Base)
  /-- R251. Extended or literal form of HADD2. -/
  | hadd2Ext (x : Ext)
  /-- R251. Base form: packed FP16 multiplication. -/
  | hmul2 (b : Base)
  /-- R251. Extended or literal form of HMUL2. -/
  | hmul2Ext (x : Ext)
  /-- R251. Packed 16-bit fused multiply-add. -/
  | hfma2 (x : Ext)
  /-- R251. Base form: packed 16-bit minimum. -/
  | hmin2 (b : Base)
  /-- R251. Extended or literal form of HMIN2. -/
  | hmin2Ext (x : Ext)
  /-- R251. Base form: packed 16-bit maximum. -/
  | hmax2 (b : Base)
  /-- R251. Extended or literal form of HMAX2. -/
  | hmax2Ext (x : Ext)
  /-- R252. Contracted dot product of packed elements onto an FP32 value. -/
  | fdot (x : Ext)
  /-- R257. Converts one value between element types. -/
  | cvt (x : Ext)
  /-- R258. Base form: rounds two FP32 sources into adjacent FP16 elements. -/
  | cvtpk (b : Base)
  /-- R258. Extended or literal form of CVTPK. -/
  | cvtpkExt (x : Ext)
  /-- R259. Encodes one FP32 value per lane into a block format across the home gang. -/
  | qblk (x : Ext)
  /-- R260. Decodes a block-format element and scale to FP32. -/
  | dqblk (x : Ext)
  /-- R261. Base form: decodes two weights of a VQ2 index through the codebook. -/
  | vqdec (b : Base)
  /-- R261. Extended or literal form of VQDEC. -/
  | vqdecExt (x : Ext)
  /-- R262. Base form: adds the values of A to an exponent histogram in memory. -/
  | exphist (b : Base)
  /-- R262. Extended or literal form of EXPHIST. -/
  | exphistExt (x : Ext)
  /-- R263. Base form: sets the lane's SR seed and zeroes its count. -/
  | srseed (b : Base)
  /-- R263. Extended or literal form of SRSEED. -/
  | srseedExt (x : Ext)
  /-- R265. Base form: gives each lane the A value of an indexed position. -/
  | xshf (b : Base)
  /-- R265. Extended or literal form of XSHF with mode or segment. -/
  | xshfExt (x : Ext)
  /-- R266. Base form: broadcasts one A value to every participating lane. -/
  | xbcast (b : Base)
  /-- R266. Extended or literal form of XBCAST. -/
  | xbcastExt (x : Ext)
  /-- R267. Base form: integer add reduction over the home gang. -/
  | xred (b : Base)
  /-- R267. Extended form of XRED with operation, type or segment. -/
  | xredExt (x : Ext)
  /-- R268. Base form: inclusive integer add scan over the home gang. -/
  | xscan (b : Base)
  /-- R268. Extended form of XSCAN. -/
  | xscanExt (x : Ext)
  /-- R269. One contracted dot product per segment across lanes. -/
  | xdot (x : Ext)
  /-- R270. Base form: all-vote of a predicate over participating lanes. -/
  | xvote (b : Base)
  /-- R270. Extended form of XVOTE with mode or negation. -/
  | xvoteExt (x : Ext)
  /-- R271. Base form: mask of participating lanes whose A equals the lane's own. -/
  | xmatch (b : Base)
  /-- R271. Extended form of XMATCH. -/
  | xmatchExt (x : Ext)
  /-- R293. Base form: loads a 32-bit value from the base address. -/
  | ld (b : Base)
  /-- R293. Extended form of LD with index, offset, type or vector count. -/
  | ldExt (x : Ext)
  /-- R293. Base form: stores a 32-bit register to the base address. -/
  | st (b : Base)
  /-- R293. Extended form of ST. -/
  | stExt (x : Ext)
  /-- R294. Base form: loads k registers of the home gang from one address. -/
  | ldk (b : Base)
  /-- R294. Extended form of LDK, including .arg. -/
  | ldkExt (x : Ext)
  /-- R296. Base form: relaxed .pkg atomic add returning the old value. -/
  | atom (b : Base)
  /-- R296. Extended or literal form of ATOM with operation, order and scope. -/
  | atomExt (x : Ext)
  /-- R296. Base form: relaxed .pkg atomic add returning nothing. -/
  | red (b : Base)
  /-- R296. Extended or literal form of RED. -/
  | redExt (x : Ext)
  /-- R297. Base form: prefetches a line into L1 or L2. -/
  | pref (b : Base)
  /-- R297. Extended form of PREF. -/
  | prefExt (x : Ext)
  /-- R297. Base form: writes back a line from the L1 or drains its write-combining entry. -/
  | cflush (b : Base)
  /-- R297. Extended form of CFLUSH. -/
  | cflushExt (x : Ext)
  /-- R297. Base form: writes back and invalidates a line in the L1 and RDC. -/
  | cinv (b : Base)
  /-- R297. Extended form of CINV. -/
  | cinvExt (x : Ext)
  /-- R302. Copies 16 bytes per lane into scratchpad and delivers to an arrival word. -/
  | acp16 (x : Ext)
  /-- R303. Base form: starts a tile copy into scratchpad from a descriptor. -/
  | tcopy (b : Base)
  /-- R303. Extended or literal form of TCOPY. -/
  | tcopyExt (x : Ext)
  /-- R303. Base form: starts a tile copy out of scratchpad. -/
  | tdump (b : Base)
  /-- R303. Extended or literal form of TDUMP. -/
  | tdumpExt (x : Ext)
  /-- R300. Base form: zeroes an arrival word. -/
  | awinit (b : Base)
  /-- R300. Extended or literal form of AWINIT. -/
  | awinitExt (x : Ext)
  /-- R300. Base form: declares expected bytes on an arrival word and returns its generation. -/
  | awexp (b : Base)
  /-- R300. Extended or literal form of AWEXP. -/
  | awexpExt (x : Ext)
  /-- R300. Base form: waits until the arrival word's generation changes, then acquires. -/
  | await (b : Base)
  /-- R300. Extended or literal form of AWAIT. -/
  | awaitExt (x : Ext)
  /-- R300. Base form: sets a predicate when the arrival word's generation has changed. -/
  | awtest (b : Base)
  /-- R300. Extended or literal form of AWTEST. -/
  | awtestExt (x : Ext)
  /-- R82. Base form: releases at .pkg and submits one card per acting lane. -/
  | launch (b : Base)
  /-- R82. Extended form of LAUNCH with a predicate. -/
  | launchExt (x : Ext)
  /-- R84. Base form: blocks until each lane's named task has ended. -/
  | nwait (b : Base)
  /-- R84. Tests without waiting whether each lane's named task has ended. -/
  | nwaitT (b : Base)
  /-- R84. Extended form of NWAIT or NWAIT.t with a predicate. -/
  | nwaitExt (x : Ext)
  /-- R418. Validates and activates a hitch object. -/
  | hinit (x : Ext)
  /-- R418. Binds the team as a hitch member and adds a join-table entry. -/
  | hjoin (x : Ext)
  /-- R419. Reads a vector and delivers it to the hitch unit as a tagged contribution. -/
  | hcontrib (x : Ext)
  /-- R420. Waits until a hitch round has closed and returns its status. -/
  | hwait (x : Ext)
  /-- R421. Reads a selected item of the hitch unit's state. -/
  | hquery (x : Ext)
  /-- R333. Writes a tile config. -/
  | tcfg (x : Ext)
  /-- R334. Loads a tile register, its scales and outliers from memory. -/
  | tld (x : Ext)
  /-- R334. Stores a tile register and its scales to memory. -/
  | tst (x : Ext)
  /-- R335. Zeroes a tile register, its scale store and outlier count. -/
  | tzero (x : Ext)
  /-- R335. Clears an accumulator and gives it a shape word. -/
  | tzeroA (x : Ext)
  /-- R336. Multiplies two tiles into an accumulator, one ContractSum per cell. -/
  | mma (x : Ext)
  /-- R336. Multiplies a tile by a VQ2 weight tile, leaving the sum open for VQ2-64X. -/
  | mmav (x : Ext)
  /-- R339. Loads all 256 codebook rows of the context. -/
  | cbld (x : Ext)
  /-- R338. Appends the outlier group and finishes the open MMAV sum. -/
  | olapply (x : Ext)
  /-- R341. Widens an accumulator's cell kind in place. -/
  | aprom (x : Ext)
  /-- R342. Converts accumulator rows into a tile register. -/
  | aout (x : Ext)
  /-- R344. Writes an accumulator image to memory. -/
  | asav (x : Ext)
  /-- R345. Restores an accumulator from an image. -/
  | arst (x : Ext)
  /-- R343. Adds every accumulator cell to an exponent histogram. -/
  | ahist (x : Ext)
  /-- R346. Injects a self-test and returns the quad's MXSTAT. -/
  | stest (x : Ext)
  /-- R452. Returns from the trap frame at the current depth and resumes. -/
  | rett
  /-- R452. Parks the slice from its HALT frame after its earlier stores have translated. -/
  | rettH
  /-- R80. A host core's write of a card address to its submission register starts acceptance unless busy. -/
  | subaddrWrite (host : Nat) (addr : DWord)
  /-- R77. A host core writes a handle to report one call of a host task complete. -/
  | hostdone (host : Nat) (handle : DWord)
  /-- R89. A launch packet reaches a launch port and is checked for sequence and header. -/
  | launchPacket (p : LaunchPkt)
  /-- R87. Setting V from 0 to 1 configures a launch port and clears LASTSEQ. -/
  | launchPortConfigure (port : Nat) (val : DWord)
  /-- R87. Clearing V unconfigures a launch port. -/
  | launchPortUnconfigure (port : Nat) (val : DWord)
  /-- R70. The graph engine reads and checks a submitted card and accepts or refuses it. -/
  | taskAccept
  /-- R100. A dispatch pass walks the ready order and offers unplaced teams to placement. -/
  | dispatchPass
  /-- R106. A write to PLCTL changes AGELIM or PRE and starts a dispatch pass. -/
  | plctlWrite (val : DWord)
  /-- R107. A die's count reaches E and it begins to apply the bubble pattern. -/
  | throttleStart (die : Nat)
  /-- R125. A TSCOPE write of 0b00 starts an invalidation of every address space. -/
  | invalidateAll
  /-- R125. A TSCOPE write of 0b01 starts an invalidation of one ASID. -/
  | invalidateAsid (asid : BitVec 16)
  /-- R125. A TSCOPE write of 0b10 starts an invalidation of an ASID and page range. -/
  | invalidateRange (asid : BitVec 16) (npg : Word)
  /-- R125. Every TLB and walker cache has dropped the scope and accesses have completed; TBUSY clears. -/
  | invalidationComplete
  /-- R126. A FACT write of RETRY answers every access waiting on a fault entry. -/
  | faultRetry (die idx : Nat)
  /-- R126. A FACT write of FAIL delivers the fault to every access waiting on an entry. -/
  | faultFail (die idx : Nat)
  /-- R126. A replayable fault is written to the die's ring, or merged, once an entry is free. -/
  | faultQueueWrite (die : Nat)
  /-- R130. A freed walker takes a waiting walk request and ends with a translation or a fault. -/
  | walk (die : Nat)
  /-- R170. When every runnable slice is blocked on allocation the core grants from the reserve or pre-empts. -/
  | reserveGrant (c : CoreId)
  /-- R309. A load, LDK or atomic reply returns and writes its destination. -/
  | loadReply (id : Nat)
  /-- R442. A retired store's translation completes, performing it or recording a fault. -/
  | storeTranslate (id : Nat)
  /-- R296. An ATOM or RED is performed at its home slice, pool node or SRAM. -/
  | atomicPerform (id : Nat)
  /-- R286. A write-combining entry 4,096 cycles old drains. -/
  | wcAgeDrain (c : CoreId)
  /-- R286. A pool node acknowledges a drained write and the entry frees. -/
  | wcDrainAck (c : CoreId) (entry : Nat)
  /-- R306. A copy cell's bytes are read from the source, updating the source arrival word. -/
  | copyCellRead (id : Nat)
  /-- R306. A copy cell's bytes are written in a receiver's SRAM and counted. -/
  | copyCellWrite (id : Nat)
  /-- R306. A home slice or pool node acknowledges a TDUMP cell and DAW is delivered. -/
  | copyCellAck (id : Nat)
  /-- R340. A matrix operation finishes in the array and opseq rises. -/
  | matrixOpComplete (c : CoreId)
  /-- R324. After STPER operations the MSQ injects a self-test of every sub-array. -/
  | selfTest (die quad : Nat) (fail : BitVec 5)
  /-- R383. A barrier waiter's count reaches the limit and traps with BARX TIMEOUT. -/
  | barrierWatchdog (team slice : Nat)
  /-- R380. A pool node's completion word for a .pod barrier reaches the package. -/
  | podBarrierComplete (binding : Nat) (phase : Word)
  /-- R387. A link delivers a cell, which is authenticated and accepted or discarded. -/
  | cellReceive (link : Nat) (cell : Cell)
  /-- R390. Link training completes and UP reads 1. -/
  | linkUp (link : Nat)
  /-- R390. A link is lost, UP falls to 0 and the node becomes OPAQUE. -/
  | linkDown (link : Nat)
  /-- R391. A pool node performs a pod load, atomic or write request in flow order. -/
  | podRequest (id : Nat)
  /-- R391. A response cell for a pod load or atomic reaches the issuing core. -/
  | podResponse (id : Nat)
  /-- R395. A splice message reaches a combining location and is combined when its node is covered. -/
  | spliceMessage (m : SpliceMsg)
  /-- R397. A tree node not formed within the step timer aborts the splice. -/
  | spliceStepTimeout (loc : SpliceLoc) (comm seq lo hi : Nat)
  /-- R408. A contribution reaches the hitch unit and is folded, held or refused. -/
  | hitchContribution (c : Contribution)
  /-- R423. An HWAIT waiter's count reaches HWDLIM and traps with HITCHX TIMEOUT. -/
  | hitchWatchdog (team slice : Nat)
  /-- R488. A TRIGGER release and drain complete and the lane is marked triggered. -/
  | triggerMark (team lane : Nat)
  /-- R489. An unmarked lane's EXIT release completes and the lane counts towards triggering. -/
  | exitReleaseComplete (team lane : Nat)
  /-- R445. A halt request reaches a team and its slices take HALT at their boundaries. -/
  | haltRequest (team : Nat)
  /-- R445. A slice in a handler 4,000 cycles after the request takes HALT with NEST set. -/
  | haltNestTimeout (team slice : Nat)
  /-- R447. All slices are parked and state is written; the team's resources are released. -/
  | contextSaveComplete (team : Nat)
  /-- R484. A team's last slice ends, its work completes and its resources are released. -/
  | teamEnd (team : Nat)
  /-- R485. Every team has ended; the engine releases, reports and satisfies edges. -/
  | taskEnd (handle : DWord)
  /-- R487. A write of a handle to TKILL kills the task. -/
  | tkill (handle : DWord)
  /-- R471. A core's sample period expires and one slice's state is sampled. -/
  | stallSample (c : CoreId)
  /-- R469. Writing CLR sets every lane-cycle counter to 0. -/
  | laneCycleClear
  /-- R475. An atomic held 2^24 cycles at the order gate issues out of turn and raises RPLY. -/
  | replayGateTimeout (a : Agent)
  /-- R455. A corrected error is entered in the die's table. -/
  | correctedError (die : Nat) (loc : ErrLoc)
  /-- R456. An uncorrectable error poisons data and ECC reaches the engine that meets it. -/
  | uncorrectableError (die : Nat) (loc : ErrLoc)
  /-- R491. The driver writes the accepted features once before the first acceptance. -/
  | featdrvWrite (val : DWord)
  /-- R492. The management plane writes ESTART, offering a bubble pattern to every die. -/
  | throttleOffer (t : Throttle)
  /-- R495. A die above its throttle temperature receives a bubble pattern. -/
  | throttleTemperature (die : Nat) (t : Throttle)
  /-- R495. A die above its critical temperature resets the package. -/
  | criticalTemperature (die : Nat)
  /-- R494. A reset wipes all storage and keys and loses every task. -/
  | packageReset
  /-- R493. The management controller loads and measures the firmware image. -/
  | firmwareLoad (image : Firmware)
  /-- R494. Life-cycle transition from BLANK to PROVISIONED. -/
  | toProvisioned
  /-- R494. Life-cycle transition from PROVISIONED to DEPLOYED. -/
  | toDeployed
  /-- R494. Life-cycle transition to RETURNED, destroying the identity key. -/
  | toReturned
  /-- R390. SPDM 1.3 request answered by the package as responder. -/
  | getVersion
  /-- R390. SPDM 1.3 request answered by the package as responder. -/
  | getCapabilities
  /-- R390. SPDM 1.3 request answered by the package as responder. -/
  | negotiateAlgorithms
  /-- R390. SPDM 1.3 request answered by the package as responder. -/
  | getDigests
  /-- R390. SPDM 1.3 request answered by the package as responder. -/
  | getCertificate
  /-- R390. SPDM 1.3 request answered by the package as responder. -/
  | challenge
  /-- R493. SPDM 1.3 request returning the firmware measurement. -/
  | getMeasurements
  /-- R390. SPDM 1.3 request answered by the package as responder. -/
  | keyExchange
  /-- R390. SPDM 1.3 request answered by the package as responder. -/
  | finish
  /-- R390. SPDM 1.3 request answered by the package as responder. -/
  | keyUpdate
  /-- R10. A host write to a register with no behaviour of its own sets or clears its fields. -/
  | registerWrite (pa : Nat) (val : DWord)
  /-- R279. A host core reads or writes device or pod memory through the home slice or pool node, for example page table entries, hitch objects, member maps and completion words. -/
  | hostMemoryAccess (a : HostAccess)
  /-- R388. The host complex re-keys a closed flow, which retries the accesses that wait on it. -/
  | flowRekey (domain flow : Nat)
  /-- R334. The memory data of a sequencer context's TLD, TST, CBLD, ASAV, ARST or AHIST returns or is written, completing the transfer that later instructions and SEQEND wait on. -/
  | tileTransferComplete (c : CoreId) (mseq : Bool)
deriving DecidableEq, Repr

end Sys2Proof
end

