-- ==== Sys2Proof/Machine/State.lean ====
section
/-!
DEFINITION. The state of the machine: one package of the pod, the pool nodes it reaches, and the schedule still to come.
Every field is plain data. Collections by key are association lists; memory is a list of cells in canonical form.
-/
namespace Sys2Proof.Machine

/-! ## Containers -/

/-- A finite map: pairs of key and value, in rising key order when built by `mset`. -/
abbrev Map (α : Type) := List (Nat × α)

/-- Memory: address and byte, strictly rising addresses, no zero byte listed. An unlisted address reads as 0. -/
abbrev Mem := List Host.Cell

/-- Four like things: the lanes of a slice by position (R18). -/
structure Four (α : Type) where
  p0 : α
  p1 : α
  p2 : α
  p3 : α
deriving DecidableEq, Repr

/-! ## Publishing (R366) -/

/-- A write of a SIMT lane to a byte that the matrix and copy path does not see yet: who made it, by the number of its
operation, its value, and whether it is published while its write-combining entry still holds it. -/
structure Unpub where
  task : Nat
  team : Nat
  core : CoreId
  slice : Nat
  lane : Nat
  op : Nat
  val : Byte := 0
  pub : Bool := false
deriving DecidableEq, Repr

/-- A byte with such writes: what the matrix and copy path sees, and the writes, oldest first. -/
structure Hid where
  seen : Byte
  later : List Unpub
deriving DecidableEq, Repr

/-! ## Slices and teams -/

/-- A rejoin entry (R173). -/
structure Rejoin where
  jpc : Nat
  rpc : Nat
  wmask : Mask
  pmask : Mask
deriving DecidableEq, Repr

/-- The outcome of a walk that ended in a fault, kept for the access that asked for it (R117, R129): address space, page
number, trap kind, cause, whether the fault is replayable, and whether it is the answer FAIL (R126). -/
structure WalkFault where
  asid : Nat
  page : Nat
  kind : Nat
  cause : Nat
  replay : Bool
  final : Bool := false
deriving DecidableEq, Repr

/-- What a slice waits for (R25 to R29). BARW keeps the phase it met. `stores` is EXIT, DRAINST, RETT.h or a fence held by earlier stores, which no
watchdog treats as waiting (R188); `walk` a translation; `entry` a free copy entry or register entry; `replay` a
replayable fault (R122). `hitch` has HWAIT's tag plus 1, and 0 for a hitch's answer. -/
inductive Wait where
  | none
  | bar (scope index : Nat)
  | barw (scope index : Nat) (phase : Word)
  | nwait
  | await
  | hitch (obj round : Nat)
  | rdv
  | fork (ctx : Nat)
  | stores
  | fence
  | walk
  | entry
  | replay
deriving DecidableEq, Repr

/-- A trap that is due at a slice's next boundary (R438). `fpc` is the PC of the instruction that caused it where that is
not the one at the boundary (R464, R466). -/
structure PTrap where
  kind : Nat
  cause : Nat
  va : Nat := 0
  amask : Mask := 0
  aux : Nat := 0
  fpc : Option Nat := .none
deriving DecidableEq, Repr

/-- A slice (R20, R161 to R175, R437, R441). -/
structure Slice where
  pc : Nat := 0
  act : Mask := 0xF
  live : Mask := 0xF
  rejoin : List Rejoin := []
  region : List (BitVec 16) := []
  names : Map (Four Word) := []
  preds : Four (BitVec 8) := ⟨0x80, 0x80, 0x80, 0x80⟩
  fstk : Four Word := ⟨0, 0, 0, 0⟩
  seed : Four DWord := ⟨0, 0, 0, 0⟩
  srcnt : Four DWord := ⟨0, 0, 0, 0⟩
  depth : Nat := 0
  sseq : Word := 0
  /-- Depths at which a HALT frame stands, and whether the slice has parked (R447). -/
  haltFrames : List Nat := []
  parked : Bool := false
  restoring : Bool := false
  wait : Wait := .none
  /-- WKIND 1 with WTOKEN: the phase at the BAR arrival (R377, R441). -/
  barTok : Option Word := .none
  /-- The lanes that act in the BAR, BARW or HWAIT at which the slice waits (R383, R423, R441). -/
  waitMask : Mask := 0
  /-- WKIND 2: an NWAIT has issued, with the lanes whose handle named a task then (R84). -/
  nwTok : Option Mask := .none
  /-- The handles that an NWAIT waits on (R84, R85). -/
  nwOn : List DWord := []
  /-- That mask by the depth of the frame that holds an NWAIT (R441). -/
  nwKept : Map Mask := []
  waitCyc : Nat := 0
  yieldEnd : Nat := 0
  /-- The die's open count at which the slice was last not ready, or issued (R25, R108). -/
  readySince : Nat := 0
  /-- The slice is blocked on allocation, and the returned entries set aside for it (R169). -/
  starved : Bool := false
  due : Nat := 0
  /-- Traps not of the instruction that are due: ECC, BKPT, WATCH, RPLY, replay answers (R438). -/
  pend : List PTrap := []
  /-- Store-fault records pushed since the previous SFAULT, the lanes that acted in their stores, the first VA, and whether one of
  them raises SFAULT (R442). -/
  sfDue : Bool := false
  sfCount : Nat := 0
  sfMask : Mask := 0
  sfVa : Nat := 0
  icount : Nat := 0
  xf : List WalkFault := []
  /-- An RRCHK has issued: the number of the next operation at that moment (R477). -/
  rrTok : Option Nat := .none
  /-- The die's count at which an atomic began to wait at the order gate (R475). -/
  gateSince : Option Nat := .none
  /-- The wait has lasted 2^24 cycles: the atomics issue out of turn (R475). -/
  gateOut : Bool := false
  /-- The core reserve lends this slice the entries of its next instruction (R170). -/
  grant : Bool := false
  /-- The die's count at the slice's last issue, and the PC issued (R471). -/
  issued : Option (Nat × Nat) := .none
deriving DecidableEq, Repr

/-- A named barrier (R375). Under an explicit count a lane may arrive again in a phase: `again` lists those arrivals. -/
structure Bar where
  phase : Word := 0
  expect : Nat := 0
  arrived : BitVec 1024 := 0
  count : Nat := 0
  again : List Nat := []
deriving DecidableEq, Repr

/-- A join-table entry of a team (R416): the object's virtual and physical address, the member, and the entry's two
words. -/
structure Join where
  obj : Nat
  pa : Nat
  member : Nat
  words : List DWord := []
deriving DecidableEq, Repr

/-! ## Sequencer contexts -/

/-- The resolved place of an access: a physical address of HBM or pod memory with the CACHE field of its page, or an
offset of a team's scratchpad. -/
inductive Place where
  | phys (pa cache : Nat)
  | scr (team off : Nat)
deriving DecidableEq, Repr

/-- The tile and accumulator transfers of a context (R334, R339, R343 to R345). -/
inductive XferKind where
  | tld | tst | cbld | asav | arst | ahist
deriving DecidableEq, Repr

/-- What a context has in flight: a matrix operation (MMA, MMAV or OLAPPLY with its accumulator, tiles and RM); a transfer
with its register, its config or shape word, its outlier count, and its memory in order, cut at pages, each run of bytes by
segment (for AHIST the counters and what each rises by); or a self-test whose MXSTAT goes to an m register. -/
inductive Flight where
  | op (kind : Op) (d a b rm : Nat)
  | xfer (kind : XferKind) (d cfg count : Nat) (segs : List (List (Place × Nat)))
  | test (m : Nat)
deriving DecidableEq, Repr

/-- An accumulator (R320, R335): its cells, and its shape word when it has one. -/
structure Acc where
  cells : BitVec 524288 := 0
  shape : Option Word := .none
deriving DecidableEq, Repr

/-- The state of a tile register (R318, R319): its config, its bits, its scale store, and its outlier store with the count of the
entries in force. -/
structure Tile where
  cfg : Word := 0
  bits : BitVec 131072 := 0
  scales : BitVec 32768 := 0
  outliers : BitVec 8192 := 0
  count : Nat := 0
deriving DecidableEq, Repr

/-- The run state of a context (R316, R446). -/
inductive Run where
  | idle
  | running
  | ended
  | stopped
deriving DecidableEq, Repr

/-- A sequencer context (R316, R317). The MSQ-only state stands unused in a CSQ context. -/
structure Ctx where
  holder : Option Nat := .none
  owner : Option Nat := .none
  run : Run := .idle
  exit : Nat := 0
  pc : Nat := 0
  regs : Map DWord := []
  preds : BitVec 8 := 0x80
  region : List (BitVec 16) := []
  contract : Nat := 0
  seed : DWord := 0
  opseq : DWord := 0
  fstk : Word := 0
  tiles : Map Tile := []
  accs : Map Acc := []
  codebook : BitVec 8192 := 0
  /-- Operations completed since the quad's last passed test (R325), and the trap when stopped, with the die's count then (R446, R449). -/
  ops : Nat := 0
  trap : Option (PTrap × Nat) := .none
  pend : List PTrap := []
  wait : Wait := .none
  yieldEnd : Nat := 0
  /-- The die's open count at which the context was last not ready, or issued (R27, R108). -/
  readySince : Nat := 0
  xf : List WalkFault := []
  gateSince : Option Nat := .none
  gateOut : Bool := false
  /-- The operation, transfer or self-test in flight. -/
  flight : Option Flight := .none
  /-- The accumulator, tiles and RM of the MMAV whose sum is open (R338). -/
  opened : Option (Nat × Nat × Nat × Nat) := .none
  /-- Of a restored operation that was interrupted: the groups summed and the partial array; the cells hold the running totals (R344, R349). -/
  part : Option (Nat × List Nat) := .none
deriving DecidableEq, Repr

/-! ## Teams -/

/-- Where a team stands: resident on its core, halting, saved, or ended and completing its work (R445 to R448, R484). -/
inductive TeamState where
  | resident
  | saved
  | ending
deriving DecidableEq, Repr

/-- A team (R17 to R22, R435, R436). `index` is %team. A copy team has no slices. -/
structure Team where
  task : Nat
  index : Nat
  core : CoreId
  age : Nat
  status : TeamState := .resident
  /-- It ends without having been restored: it stands on no core (R485). -/
  away : Bool := false
  lanes : Nat
  slices : Map Slice
  kfile : Map Word := []
  scratch : Mem := []
  /-- Poisoned bytes of the scratchpad (R456). -/
  scrBad : List Nat := []
  /-- Bytes of the scratchpad with unpublished writes, by offset (R366). -/
  hid : Map Hid := []
  bars : Map Bar := []
  joins : List Join := []
  trapBase : DWord := 0
  trapMask : Word := 0
  tslot : Option Nat := .none
  csa : Option Nat := .none
  sthash : DWord := 0
  /-- Contributions to STHASH by operation number, kept while an RRCHK of the team waits (R477). -/
  late : List (Nat × DWord) := []
  copyCnt : DWord := 0
  /-- Lanes marked by TRIGGER, and lanes that count towards R489 (marked or ended). -/
  marked : BitVec 1024 := 0
  counted : BitVec 1024 := 0
  /-- TRIGGERs and EXITs whose release has not completed: slice, lanes, and the number of the operation before which the
  slice's stores must be done (R488, R489). -/
  marking : List (Nat × Mask × Nat) := []
  exiting : List (Nat × Mask × Nat) := []
  /-- The die's count when a halt request arrived (R445). -/
  halt : Option Nat := .none
  /-- The number of the next operation at that moment (R308). -/
  haltAt : Nat := 0
  /-- The number of the next operation when the team was last restored (R308). -/
  restoreAt : Nat := 0
  /-- Level barriers at which this team's lanes have arrived in the open phase: key, lanes. -/
  lvl : Map (BitVec 1024) := []
  trapped : Bool := false
  /-- The graph engine wants the team pre-empted (R104, R170, R455). -/
  wanted : Bool := false
  /-- Halted while every live slice waited in a blocking NWAIT: the handles of each NWAIT (R85). -/
  nwHold : List (List DWord) := []
  /-- The contexts held at the save, the MSQ marked true (R348, R349). -/
  held : List (Bool × Ctx) := []
deriving DecidableEq, Repr

/-! ## Memory system -/

/-- A line of an L1 (R275): its bytes, those it holds, and those that are dirty. -/
structure Line where
  data : BitVec 1024 := 0
  held : BitVec 128 := 0
  dirty : BitVec 128 := 0
  /-- The location class of its poison (R434, R456), or 0. -/
  bad : Nat := 0
  /-- The bytes stored since the line met its poison. -/
  fresh : BitVec 128 := 0
deriving DecidableEq, Repr

/-- A line of an RDC with its fill stamp (R282), and the location class of its poison or 0. -/
structure RLine where
  data : BitVec 1024
  stamp : Nat
  bad : Nat := 0
deriving DecidableEq, Repr

/-- Who issued an operation in flight. -/
inductive Issuer where
  | slice (team slice : Nat)
  | ctx (key : Nat)
deriving DecidableEq, Repr

/-- A write-combining entry (R285). -/
structure WcEntry where
  id : Nat
  line : Nat
  data : BitVec 1024
  mask : BitVec 128
  teams : List Nat
  since : Nat
  /-- The lowest number of the operations whose stores it holds. -/
  first : Nat := 0
  /-- A drain has begun (R286); the number that the next operation would then take. -/
  draining : Bool := false
  trig : Nat := 0
  /-- The agents whose CFLUSH began or met the drain (R297). -/
  flush : List Issuer := []
  /-- The pool node has performed the write (R391). -/
  performed : Bool := false
deriving DecidableEq, Repr

/-- A TLB entry (R119, R129): address space, first address, log2 of the page size, frame, and attributes. -/
structure Tlb where
  asid : Nat
  base : Nat
  log : Nat
  frame : Nat
  stamp : Nat
  cache : Nat
  spill : Bool
  owner : Bool
  x : Bool
  w : Bool
deriving DecidableEq, Repr

/-- The state of a core outside its teams: L1, the words its instruction cache holds by task and physical address (R153), its
TLB, write-combining buffer, acquire stamp (R282), fence by error (R455), cycles counted of the sample period (R471). -/
structure Core where
  l1 : Map Line := []
  icache : Map Word := []
  tlb : List Tlb := []
  wc : List WcEntry := []
  acq : Nat := 0
  fenced : Bool := false
  sampled : Nat := 0
  /-- Age of the team and number of the slice sampled last (R471). -/
  lastSample : Option (Nat × Nat) := .none
  /-- The records of the samples taken at expiries and not yet written (R471). -/
  samples : List (List Byte) := []
  /-- The vector pipe's last issue and the first cycle in which the pipe is free again (R176). -/
  vBusy : Nat × Nat := (0, 0)
  /-- The die's count at which the default schedule last wrote back the L1. -/
  cleaned : Nat := 0
  /-- The pointers of the memory-and-control pipe and the vector pipe: a team's age and a home gang (R178). -/
  ptrM : Nat × Nat := (0, 0)
  ptrV : Nat × Nat := (0, 0)
deriving DecidableEq, Repr

/-- An answer that a fault entry gave (R126). -/
inductive Answer where
  | retry
  | fail
deriving DecidableEq, Repr

/-- What an access by the graph engine's path is for: a submission, the argument block or the completion word of a task, the restore of a
team, a hitch unit at an address, or the issue of a slice. A fault answered FAIL is met by that alone. -/
inductive GeUser where
  | accept
  | args (task : Nat)
  | done (task : Nat)
  | restore (team : Nat)
  | unit (pa : Nat)
  | slice (team slice : Nat)
deriving DecidableEq, Repr

/-- Who waits on a replayable fault or a walk (R122, R129): a slice, a context, an operation in flight, a trap frame or a context
save, another write of the S8 to a context save area by its number (R496), an access to the record-and-replay log of a task
(R46), or an access that the graph engine, a hitch unit or an issuing slice makes as the graph engine does. -/
inductive Waiter where
  | log (task : Nat)
  | slice (team slice : Nat)
  | ctx (key : Nat)
  | op (id : Nat)
  | cell (copy cell : Nat)
  | frame (team slice kind cause : Nat)
  | area (id : Nat)
  | engine (g : GeUser)
deriving DecidableEq, Repr

/-- A pending replayable fault (R126). `ring` is its ring index once written. -/
structure FaultEntry where
  ring : Option Nat
  asid : Nat
  va : Nat
  kind : Nat
  cause : Nat
  acc : Nat
  eng : Nat
  core : CoreId
  slice : Nat
  merged : Nat
  cyc : Nat
  waiters : List Waiter
deriving DecidableEq, Repr

/-- A walk request of a die (R129, R130): whether a walker has taken it, and who waits for its result. -/
structure WalkReq where
  asid : Nat
  va : Nat
  prio : Nat
  since : Nat
  busy : Bool := false
  waiters : List Waiter
deriving DecidableEq, Repr

/-- A write of the S8 to a team's context save area that a replayable fault holds (R122, R496): its bytes, put there or, where
`merge`, ORed into what stands there. -/
structure Owed where
  team : Nat
  off : Nat
  bytes : List Byte
  merge : Bool
deriving DecidableEq, Repr

/-- A location's corrected errors (R455). -/
structure ErrEntry where
  loc : ErrLoc
  count : Nat
  first : Nat
deriving DecidableEq, Repr

/-- A bubble pattern (R107). -/
structure Bubble where
  plog : Nat
  bcnt : Nat
  estart : Nat
deriving DecidableEq, Repr

/-- The state of a die: %cyc, fill epoch, RDC, faults, walks, corrected errors, the pattern it applies. -/
structure Die where
  cyc : Nat := 0
  /-- The cycles of %cyc that were no bubbles (R108). -/
  open_ : Nat := 0
  epoch : Nat := 1
  rdc : Map RLine := []
  faults : List FaultEntry := []
  fqHead : Nat := 0
  walks : List WalkReq := []
  errors : List ErrEntry := []
  bubble : Option Bubble := .none
  /-- Committed patterns whose start count the die has not reached (R107, R492). -/
  pending : List Bubble := []
  /-- The L2 and RDC sets of the die that are lasting (R455). -/
  lostSets : List Nat := []
deriving DecidableEq, Repr

/-- The state of a quad: its TLB (R129) and its array (R314, R324 to R326). -/
structure Quad where
  tlb : List Tlb := []
  fenced : BitVec 4 := 0
  olf : Bool := false
  absent : Bool := false
  tests : Nat := 0
  since : Nat := 0
  /-- A package reset has made a test of every sub-array due (R325). -/
  retest : Bool := false
  /-- The context whose turn is next in the round robin of the MSQ and of the CSQ (R27, R315). -/
  ptrM : Nat := 0
  ptrC : Nat := 0
deriving DecidableEq, Repr

/-! ## Operations in flight -/

/-- The kinds of memory operation in flight. `hist` is EXPHIST; `hitch` an HCONTRIB whose answer is still to come (R419). -/
inductive MemKind where
  | ld | ldk | st | red | atom | hist | hitch
deriving DecidableEq, Repr

/-- One element of a memory operation in flight: the lane position and element, the virtual address, its place once
translated, the data to store or the operand, the comparand and the SR draw of an atomic, the address to translate with its
window code (R111), whether a replayable fault holds it, the fault it ended with whose record is still to be pushed, and
whether that record is lost for good. -/
structure El where
  lane : Nat
  elem : Nat := 0
  va : Nat
  place : Option Place := .none
  data : Nat := 0
  cmp : Nat := 0
  draw : Nat := 0
  tva : Nat := 0
  win : Nat := 0
  held : Bool := false
  failed : Bool := false
  flt : Option (Nat × Nat) := .none
  xf : List WalkFault := []
  len : Nat := 1
deriving DecidableEq, Repr

/-- A memory operation of one slice or context that has issued (R292 to R296, R309). `todo` are the elements not yet
performed, `got` the values to return by lane and element, `mask` the lanes whose result is still wanted, `skip` the names and lanes that
later writes have taken over (R171), `killed` the lanes ended by KILL or GKILL (R188). -/
structure MemOp where
  kind : MemKind
  by_ : Issuer
  asid : Nat
  pc : Nat
  ty : Nat
  size : Nat
  dst : Nat
  wide : Bool
  mask : Mask
  skip : List (Nat × Nat) := []
  opc : Nat := 0
  order : Nat := 0
  scope : Nat := 5
  rm : Nat := 0
  contract : Nat := 0
  seq : Word := 0
  icount : Nat := 0
  priv : Bool := false
  killed : Mask := 0
  byp : Bool := false
  fl : Four Word := ⟨0, 0, 0, 0⟩
  todo : List El
  got : List (Nat × Nat × Nat) := []
  /-- The address of each lane's atomic, for its hash (R476). -/
  vas : Map Nat := []
  /-- A pool node has performed the request, and the response cell of a pod request has reached the core (R391). -/
  pod : Bool := false
  answered : Bool := false
  /-- The die's count at its issue (R163). -/
  since : Nat := 0
  /-- The traps that its slice took since its issue: the depth of each frame, and the names and lanes taken over before it (R172,
  R441). -/
  frames : List (Nat × List (Nat × Nat)) := []
  /-- The lanes that acted in it (R441). -/
  acted : Mask := 0
deriving DecidableEq, Repr

/-- Where a copy cell's bytes come from: a scratchpad, or an address to translate. -/
inductive CopySrc where
  | scr (team off : Nat)
  | va (addr : Nat)
deriving DecidableEq, Repr

/-- A receiver of a copy cell: a team, an offset of its scratchpad, and the offset there of the arrival word. -/
structure CopyDst where
  team : Nat
  off : Nat
  aw : Option Nat
deriving DecidableEq, Repr

/-- A cell of a copy (R306): its event number, source, bytes read and zero bytes appended, receivers still to write, or for
TDUMP a destination address, the source-side and destination-side arrival words (team, offset), the bytes once read, the
FCAUSE of the fault it met, and whether a replayable fault holds it. -/
structure CopyCell where
  id : Nat
  src : CopySrc
  n : Nat
  zero : Nat := 0
  dsts : List CopyDst := []
  dva : Option Nat := .none
  saw : Option (Nat × Nat) := .none
  daw : Option (Nat × Nat) := .none
  data : Option (List Byte) := .none
  written : Bool := false
  fault : Nat := 0
  held : Bool := false
  /-- The fault a FAIL has decided: kind and cause. -/
  failed : Option (Nat × Nat) := .none
deriving DecidableEq, Repr

/-- The kinds of copy. -/
inductive CopyKind where
  | acp16 | tcopy | multicast | tdump
deriving DecidableEq, Repr

/-- A copy in flight (R301 to R308): the issuer with its team, task, core, address space, privilege and contract, and its cells. -/
structure Copy where
  kind : CopyKind
  by_ : Issuer
  team : Nat
  task : Nat := 0
  core : CoreId
  asid : Nat
  priv : Bool := false
  contract : Nat
  cells : List CopyCell
deriving DecidableEq, Repr

/-! ## Splices and hitches -/

/-- A splice that a team has issued and that has not ended (R400 to R402): communicator, sequence, record slot, member, the
issuing team, and the scratchpad offsets and shape of its descriptor. -/
structure Splice where
  comm : Nat
  seq : Nat
  slot : Nat
  member : Nat
  team : Nat
  dst : Nat
  stat : Nat
  hist : Option Nat
  daw : Nat
  ty : Nat
  count : Nat
  route : List DWord
  /-- The results that its DST has received, each with the index of its first element, and their flags. -/
  got : List (Nat × List Nat) := []
  fl : BitVec 5 := 0
  /-- Results, and the notice of an end without one, that the package holds for a team that halts (R402). -/
  words : List SpliceMsg := []
deriving DecidableEq, Repr

/-- A tree node being formed at a combining location (R395, R397), with the messages that have come and the location's
cycle at the first. -/
structure Forming where
  loc : SpliceLoc
  comm : Nat
  seq : Nat
  lo : Nat
  hi : Nat
  since : Nat
  msgs : List SpliceMsg
  /-- The index of the first element of its messages. -/
  first : Nat := 0
deriving DecidableEq, Repr

/-- A flow of a domain (R387, R388): the last count accepted and the last sent, whether it is closed, how often it was re-keyed,
and the payloads of the message that is coming in. -/
structure Flow where
  last : Nat := 0
  sent : Nat := 0
  closed : Bool := false
  rekeys : Nat := 0
  part : List (BitVec 1024) := []
  /-- The link and class of the cell that closed it. -/
  link : Nat := 0
  cls : Nat := 0
deriving DecidableEq, Repr

/-- The sending direction of a link (R389): the slot that comes next, the flows that the present frame reserves its data slots for, and
the flow served last. -/
structure Frame where
  slot : Nat := 0
  table : List (Option Nat) := []
  last : Nat := 0
deriving DecidableEq, Repr

/-- A contribution that a hitch unit has not yet answered, under the number of its operation (R419): `fault` when the
source could not be read. -/
structure Contrib where
  pa : Nat
  member : Nat
  tag : Nat
  elems : List Nat
  fault : Bool := false
deriving DecidableEq, Repr

/-- A contribution at a hitch unit: its tag and elements, and the HCONTRIB that waits for the answer (R408). -/
structure Given where
  tag : Nat
  elems : List Nat
  op : Option Nat
deriving DecidableEq, Repr

/-- What a hitch unit keeps of a member (R406, R407): its entry, LAST, the team that joined (some none for one of another
package), whether it has departed, and its held contributions. -/
structure Member where
  pkg : Nat
  team : Nat
  tag : Nat
  lag : Nat
  last : Nat := 0
  joined : Option (Option Nat) := .none
  departed : Bool := false
  /-- Another package has reported that its team does not run (R423). -/
  halted : Bool := false
  held : List Given := []
deriving DecidableEq, Repr

/-- A term of the open round (R408): member, tag, elements, weight index. -/
structure HTerm where
  member : Nat
  tag : Nat
  elems : List Nat
  j : Nat
deriving DecidableEq, Repr

/-- An event that reaches a unit while a Close is held: a contribution of a member, or its departure. -/
inductive UnitEvent where
  | give (m : Nat) (g : Given)
  | depart (m : Nat)
deriving DecidableEq, Repr

/-- The working state of a hitch object that is active (R404 to R414): its own copy of the object, the address space its
addresses belong to, the contract, the round, M, the terms of the open round, LOGPOS, the status words of closed rounds,
the records still to replay, whether the log is full, and what reached it while a Close was held, in order. -/
structure Hitch where
  asid : Nat
  words : List DWord
  contract : Nat
  round : Nat := 1
  members : List Member
  mand : List Nat
  terms : List HTerm := []
  logpos : Nat := 0
  status : Map Nat := []
  records : List (List (Nat × Nat)) := []
  full : Bool := false
  closing : Bool := false
  backlog : List UnitEvent := []
deriving DecidableEq, Repr

/-! ## Tasks -/

/-- A footprint (R38, R39). -/
structure Foot where
  base : Nat
  rowBytes : Nat
  rows : Nat
  pitch : Nat
  acc : Nat
deriving DecidableEq, Repr

/-- A reservation (R103): a core, or a quad for a cohort. -/
structure Resv where
  die : Nat
  quad : Nat
  core : Option Nat
deriving DecidableEq, Repr

/-- What a pod barrier unit is told (R380, R383, R384): an arrival, the withdrawal of one in a phase, the end of a team with whether it
had arrived, an explicit count. -/
inductive PodCell where
  | arrive
  | withdraw (phase : Word)
  | leave (arrived : Bool)
  | init (count : Nat)
deriving DecidableEq, Repr

/-- A slot of a pool node's pod barrier unit (R378, R380): its phase, the explicit count or 0, the default party count and the teams of
it that have ended, and the arrivals of the open phase. -/
structure PodSlot where
  phase : Word := 0
  expect : Nat := 0
  count : Nat := 0
  gone : Nat := 0
  arrived : Nat := 0
  /-- A count written while arrivals stand, and the parties gone by then: it holds from the next phase (R381). -/
  later : Option (Nat × Nat) := .none
deriving DecidableEq, Repr

/-- The binding by which a task reached its slot in the open phase (R381), and the slot's phase then. -/
structure PodBind where
  binding : Nat
  node : Nat
  slot : Nat
  domain : Nat
  phase : Word
deriving DecidableEq, Repr

/-- A message that the package sends: link, class, flow with its domain above bit 20, payloads, and what a pod barrier slot is told by
it for a team: the binding's node, slot, domain and party count. -/
structure Sending where
  link : Nat
  cls : Nat
  flow : Nat
  body : List (BitVec 1024)
  pod : Option (PodBind × Nat × Nat × PodCell) := .none
  /-- A splice message for another package, which has it once its cells have set out. -/
  splice : Option SpliceMsg := .none
deriving DecidableEq, Repr

/-- A level barrier instance of a task (R378): its phase, its count in teams, the teams that have arrived, and for `.pod` the binding
of the open phase and the slot's phase that the task has followed to (R380). -/
structure Level where
  phase : Word := 0
  expect : Nat := 0
  arrived : List Nat := []
  bound : Option PodBind := .none
  seen : Option PodBind := .none
deriving DecidableEq, Repr

/-- Where a submission came from (R41, R90): the host registers, a running task, a launch port with its cookie. `skip` are names that later writes have taken over (R171), `frames` are the depths
of the frames of traps taken since, with the names taken over before each (R172, R441). -/
inductive Source where
  | host (core : Nat)
  | launch (team slice lane : Nat) (task : Nat) (dst : Nat) (skip : List Nat) (frames : List (Nat × List Nat))
  | port (p : Nat) (cookie : DWord) (pseq : Nat)
deriving DecidableEq, Repr

/-- A submission the graph engine has not yet answered. A packet carries its header and card (R89). -/
structure Submission where
  src : Source
  asid : Nat
  addr : Nat
  card : Option (List DWord) := .none
  head : List DWord := []
deriving DecidableEq, Repr

/-- A task in the ready pool (R72 to R78, R100 to R106, R485 to R489). `next` is the lowest %team never admitted;
`left` the teams, or host calls, not yet ended. -/
structure Task where
  serial : Nat
  slot : Nat
  card : List DWord
  asid : Nat
  src : Source
  foots : List Foot := []
  edges : List Nat := []
  started : Bool := false
  passes : Nat := 0
  resv : Option Resv := .none
  next : Nat := 0
  left : Nat
  levels : Map Level := []
  anyMark : Bool := false
  released : Bool := false
  killed : Bool := false
  /-- Refused at dispatch for its contract (R75). -/
  capx : Bool := false
  /-- Level barrier instances it takes (R94): the scope and the quad, die or package. -/
  insts : List (Nat × Nat) := []
  argFault : Option Nat := .none
  listFault : Bool := false
  trapTeam : Option Nat := .none
  ntrap : Nat := 0
  /-- Step of R485 reached once the task's end has begun. -/
  ending : Option Nat := .none
  /-- Replay: records consumed by key (R475). -/
  consumed : Map Nat := []
  /-- Record: the streams that log nothing more, NCHUNK and NEXT, and of each stream with a chunk its last one, USED and the last
  entry's first word (R473, R474). -/
  stopped : List Nat := []
  nchunk : Nat := 0
  nextChunk : Nat := 0
  tails : Map (Nat × Nat × Nat) := []
  /-- Memory as the task's fetches see it: what was visible when it started, and its own writes since (R153). -/
  image : Mem := []
deriving DecidableEq, Repr

/-- What a set-up makes (R68, R392, R405): a communicator record by slot, or a hitch object by physical address. -/
inductive SetUpFor where
  | communicator (slot : Nat)
  | hitch (pa : Nat)
deriving DecidableEq, Repr

/-- A set-up of a communicator or hitch by the host complex (R68): the requested contract, the pool nodes on the paths, the contracts
absent in another member package's SPLICE field, and the words of the record or object. -/
structure SetUp where
  request : Nat
  nodes : List Nat
  absent : List Nat
  what : SetUpFor
  words : List DWord
deriving DecidableEq, Repr

/-- A record or packet the graph engine has sent (R88): to a port's return endpoint. -/
structure ReportPkt where
  ep : DWord
  port : Nat
  pseq : Nat
  cookie : DWord
  report : List DWord
deriving DecidableEq, Repr

/-! ## Host, management plane and schedule -/

/-- The life-cycle states (R494). -/
inductive LifeCycle where
  | blank | provisioned | deployed | returned
deriving DecidableEq, Repr

/-- What the management plane is told (R492): lasting locations, uncorrectable errors, fenced units, link failures,
throttle refusals, critical temperature. -/
inductive MgmtReport where
  | lasting (die : Nat) (loc : ErrLoc) (cyc : Nat)
  | uncorrectable (die : Nat) (loc : ErrLoc) (cyc : Nat)
  | fencedArray (die quad : Nat) (mask : BitVec 5) (cyc : Nat)
  | linkFailure (node : Nat) (cyc : Nat)
  | throttleRefused
  | critical (die : Nat)
deriving DecidableEq, Repr

/-- The management plane's own state as the spec names it (R390, R492 to R494). -/
structure Mgmt where
  life : LifeCycle := .deployed
  identity : Bool := true
  started : Bool := false
  measurement : DWord := 0
  session : Nat := 0
  keys : List Nat := []
  responses : List (Nat × DWord) := []
  reports : List MgmtReport := []
deriving DecidableEq, Repr

/-- What the package has sent into the fabric: a cell to a pod barrier slot for a team (R380), a splice message, and the abort of a
splice with its cause (R398, R401). -/
inductive Outgoing where
  | pod (node slot domain team : Nat) (c : PodCell)
  | splice (m : SpliceMsg)
  | abort (comm seq cause : Nat)
deriving DecidableEq, Repr

/-- What happens next: an event with its operands, an agent's next instruction, a cycle of a core, cycles of a die or of the I/O die,
the drop of a clean or dirty cache line, what another package tells a pod barrier slot, a set-up of the host complex, a key that a pool
node gets or loses, its splice class for a contract, another package's path table, what a member in another package does at a `.pod` hitch unit (R404: HINIT, HJOIN, its departure, and the
report whether its team runs), or the package index of fabric set-up. -/
inductive Input where
  | event (i : Instr)
  | issue (a : Agent)
  | cycle (c : CoreId)
  | tick (die n : Nat)
  | ioTick (n : Nat)
  | evictL1 (c : CoreId) (line : Nat)
  | evictRdc (die line : Nat)
  | evictCode (c : CoreId) (pa : Nat)
  | fetchCode (c : CoreId) (pa : Nat)
  | farPod (node slot : Nat) (c : PodCell)
  | setUp (q : SetUp)
  | nodeKey (node domain : Nat) (holds : Bool)
  | nodeClass (node contract cls : Nat)
  | farPath (pkg node : Nat) (marked : Bool)
  | farInit (asid obj : Nat)
  | farJoin (pa m : Nat)
  | farDepart (pa m : Nat)
  | farRuns (pa m : Nat) (runs : Bool)
  | slot (link : Nat)
  | package (n : Nat)
deriving DecidableEq, Repr

/-! ## The whole state -/

/-- The state of the machine. Map keys: teams and operations by the model's own number; contexts by `ctxKey`; cores and
quads by `coreKey` and `quadKey`; tasks by serial; registers by physical address. -/
structure State where
  mem : Mem := []
  /-- Bytes of device and pod memory with unpublished writes, by physical address (R366). -/
  hid : Map Hid := []
  teams : Map Team := []
  ctxs : Map Ctx := []
  cores : Map Core := []
  quads : Map Quad := []
  dies : Map Die := []
  mops : Map MemOp := []
  copies : Map Copy := []
  /-- Writes of the S8 that replayable faults hold, by number. -/
  owed : Map Owed := []
  tasks : Map Task := []
  subs : List Submission := []
  serial : Nat := 1
  everAccepted : Bool := false
  hostCalls : List (Nat × Nat) := []
  packets : List ReportPkt := []
  passDue : Bool := false
  regs : Map DWord := []
  /-- Faults answered FAIL of the graph engine's own accesses. -/
  geXf : List (GeUser × WalkFault) := []
  /-- The faults of which dies have signalled the host complex: die and ring index (R126). -/
  faultSignals : List (Nat × Nat) := []
  pkgId : Nat := 0
  ioCyc : Nat := 0
  inval : Option (Nat × Nat × Nat × Nat) := .none
  /-- Of the invalidation in progress (R125): the number that the next operation took at its start, and the contexts that then
  had a transfer in flight. -/
  invalOp : Nat := 0
  invalCtxs : List Nat := []
  poison : Map Nat := []
  outbox : List Outgoing := []
  /-- Splices (R395 to R402): those issued and not ended, the contributions ever made (communicator, sequence, member), the
  tree nodes being formed, and the messages on their way. -/
  splices : List Splice := []
  spliceSeen : List (Nat × Nat × Nat) := []
  forming : List Forming := []
  flying : List SpliceMsg := []
  /-- Flows by domain and number, the closed ones of which the host complex was signalled, the messages that wait for their link or
  flow, the cells ready at a link and those that it has carried, the frames by link, and the messages accepted from links: link, class,
  payloads (R386 to R389). -/
  flows : Map Flow := []
  signals : List Nat := []
  toSend : List Sending := []
  ready : List (Nat × Cell) := []
  sent : List (Nat × Cell) := []
  frames : Map Frame := []
  /-- Slots of the pod barrier units by node and number (R380). -/
  slots : Map PodSlot := []
  rx : List (Nat × Nat × List (BitVec 1024)) := []
  /-- Pool nodes: whether one holds the key of a domain, where an input says, the splice classes that differ from R62 by node and contract; the
  nodes that another package's path table does not mark; the set-ups with the contract negotiated (R62, R68, R396, R412). -/
  nodeKeys : Map Bool := []
  nodeClasses : Map Nat := []
  farOff : List (Nat × Nat) := []
  setUps : List (SetUp × Option Nat) := []
  /-- Active hitches by the physical address of their objects, and the contributions still unanswered by operation. -/
  hitches : Map Hitch := []
  contribs : Map Contrib := []
  mgmt : Mgmt := {}
  /-- The model's own fields: the schedule to come, the agent that executes, fresh names and the counter of free values,
  the age counter of admissions, and the position of the default schedule. -/
  inbox : List Input := []
  cur : Agent := .idle
  nextId : Nat := 0
  opens : Nat := 0
  nextAge : Nat := 0
  rotor : Nat := 0
deriving DecidableEq, Repr

/-- Why the machine stops. -/
inductive Fault where
  /-- Raised by every instruction's meaning when `cur` names no agent of the state: no agent executes, so the
  instruction is not issued. Safe: the machine never issues an instruction without an agent, and `step` never does. -/
  | noAgent
deriving DecidableEq, Repr

/-- Why an instruction has no meaning. -/
inductive Refusal where
  /-- Raised by `exec` for an instruction whose meaning is not yet written. Safe: the run stops. -/
  | notModelled (mnemonic : String)
deriving DecidableEq, Repr

/-- The machine right after reset (R494): everything wiped, no task, every register at its reset value. -/
def State.reset : State := {}

end Sys2Proof.Machine
end

