-- ==== Sys2Proof/Machine/Base.lean ====
section
/-!
DEFINITION. Plain reads and updates of the state: maps, memory bytes, the components of State by key, task card fields,
and the registers of the I/O die's register regions.
-/
namespace Sys2Proof.Machine

/-- What becomes of a package that an event reaches: one whose firmware has not started stays in reset, and only the management port
reaches it (R493). -/
def State.awake (s t : State) : State := if s.mgmt.started then t else s

/-! ## Maps -/

/-- The value at a key. -/
def mget {α : Type} : Map α → Nat → Option α
  | [], _ => none
  | (k', v) :: m, k => if k' = k then some v else mget m k

/-- The map with a value put at a key. -/
def mset {α : Type} : Map α → Nat → α → Map α
  | [], k, v => [(k, v)]
  | (k', v') :: m, k, v =>
    if k' = k then (k, v) :: m else if k < k' then (k, v) :: (k', v') :: m else (k', v') :: mset m k v

/-- The map without a key. -/
def mdel {α : Type} (m : Map α) (k : Nat) : Map α := m.filter (fun p => p.1 != k)

/-- The map with the value at a key changed, when there is one. -/
def mupd {α : Type} (m : Map α) (k : Nat) (f : α → α) : Map α :=
  m.map (fun p => if p.1 = k then (p.1, f p.2) else p)

def Four.get {α : Type} (x : Four α) (i : Nat) : α :=
  match i with
  | 0 => x.p0
  | 1 => x.p1
  | 2 => x.p2
  | _ => x.p3

/-- A value at each lane position. -/
def Four.ofFn {α : Type} (f : Nat → α) : Four α := ⟨f 0, f 1, f 2, f 3⟩

def Four.map {α β : Type} (f : α → β) (x : Four α) : Four β := ⟨f x.p0, f x.p1, f x.p2, f x.p3⟩

/-- The value of `f i` in the positions of a mask, the old value elsewhere. -/
def Four.upd {α : Type} (x : Four α) (m : Mask) (f : Nat → α) : Four α :=
  .ofFn (fun i => if m.getLsbD i then f i else x.get i)

/-- The positions of a mask in rising order. -/
def maskList (m : Mask) : List Nat := [0, 1, 2, 3].filter (fun i => m.getLsbD i)

/-- The mask of the positions for which p holds. -/
def maskOf (p : Nat → Bool) : Mask :=
  BitVec.ofBool (p 3) ++ BitVec.ofBool (p 2) ++ BitVec.ofBool (p 1) ++ BitVec.ofBool (p 0)

/-! ## Memory -/

/-- The byte at an address: 0 where none is listed. -/
def Mem.get : Mem → Nat → Byte
  | [], _ => 0
  | (a', b) :: m, a => if a' = a then b else Mem.get m a

/-- Memory without the byte at an address. -/
def Mem.del : Mem → Nat → Mem
  | [], _ => []
  | (a', b) :: m, a => if a' = a then m else (a', b) :: Mem.del m a

/-- Memory with a nonzero byte put at an address. -/
def Mem.put : Mem → Nat → Byte → Mem
  | [], a, b => [(a, b)]
  | (a', b') :: m, a, b =>
    if a' = a then (a, b) :: m else if a < a' then (a, b) :: (a', b') :: m else (a', b') :: Mem.put m a b

/-- Memory with a byte written, in canonical form. -/
def Mem.set (m : Mem) (a : Nat) (b : Byte) : Mem := if b = 0 then Mem.del m a else Mem.put m a b

/-- Addresses strictly rising from a bound, and no zero byte. -/
def Mem.wfFrom : Mem → Nat → Bool
  | [], _ => true
  | (a, b) :: m, lo => decide (lo ≤ a) && b != 0 && Mem.wfFrom m (a + 1)

/-- The canonical form of memory. -/
def Mem.wf (m : Mem) : Bool := Mem.wfFrom m 0

/-- n bytes from an address up. -/
def Mem.read (m : Mem) (a : Nat) : Nat → List Byte
  | 0 => []
  | n + 1 => Mem.get m a :: Mem.read m (a + 1) n

/-- Memory with bytes written from an address up. -/
def Mem.write (m : Mem) (a : Nat) : List Byte → Mem
  | [] => m
  | b :: bs => Mem.write (Mem.set m a b) (a + 1) bs

/-- Memory with the bytes of another one from `lo` on below `hi`. -/
def Mem.patch (m src : Mem) (lo hi : Nat) : Mem :=
  m.filter (fun p => decide (p.1 < lo)) ++ src.filter (fun p => decide (lo ≤ p.1) && decide (p.1 < hi)) ++ m.filter (fun p => decide (hi ≤ p.1))

/-! ## Components by key -/

/-- The core with a key. -/
def coreOf (k : Nat) : CoreId := { die := k / 128, quad := k / 4 % 32, core := k % 4 }
/-- The key of a context: its core, and 1 for the MSQ. -/
def ctxKey (c : CoreId) (matrix : Bool) : Nat := c.key * 2 + bit01 matrix
/-- The core a context is paired with (R315). -/
def ctxCore (k : Nat) : CoreId := coreOf (k / 2)

def State.team (s : State) (u : Nat) : Option Team := mget s.teams u
def State.slice (s : State) (u i : Nat) : Option Slice := (s.team u).bind (fun t => mget t.slices i)
def State.ctx (s : State) (k : Nat) : Ctx := (mget s.ctxs k).getD {}
def State.core (s : State) (c : CoreId) : Core := (mget s.cores c.key).getD {}
def State.quad (s : State) (c : CoreId) : Quad := (mget s.quads c.quadKey).getD {}
def State.die (s : State) (d : Nat) : Die := (mget s.dies d).getD {}
def State.task (s : State) (n : Nat) : Option Task := mget s.tasks n

def State.setTeam (s : State) (u : Nat) (t : Team) : State := { s with teams := mset s.teams u t }
def State.modTeam (s : State) (u : Nat) (f : Team → Team) : State := { s with teams := mupd s.teams u f }
def Team.modSlice (t : Team) (i : Nat) (f : Slice → Slice) : Team := { t with slices := mupd t.slices i f }
def State.modSlice (s : State) (u i : Nat) (f : Slice → Slice) : State := s.modTeam u (fun t => t.modSlice i f)
def State.setCtx (s : State) (k : Nat) (x : Ctx) : State := { s with ctxs := mset s.ctxs k x }
def State.modCtx (s : State) (k : Nat) (f : Ctx → Ctx) : State := s.setCtx k (f (s.ctx k))
def State.modCore (s : State) (c : CoreId) (f : Core → Core) : State :=
  { s with cores := mset s.cores c.key (f (s.core c)) }
def State.modQuad (s : State) (c : CoreId) (f : Quad → Quad) : State :=
  { s with quads := mset s.quads c.quadKey (f (s.quad c)) }
def State.modDie (s : State) (d : Nat) (f : Die → Die) : State := { s with dies := mset s.dies d (f (s.die d)) }
def State.modTask (s : State) (n : Nat) (f : Task → Task) : State := { s with tasks := mupd s.tasks n f }
def State.modOp (s : State) (id : Nat) (f : MemOp → MemOp) : State := { s with mops := mupd s.mops id f }
/-- A new operation in flight, under a fresh number. -/
def State.addOp (s : State) (m : MemOp) : State :=
  { s with mops := mset s.mops s.nextId m, nextId := s.nextId + 1 }
def State.modMgmt (s : State) (f : Mgmt → Mgmt) : State := { s with mgmt := f s.mgmt }
def State.tell (s : State) (r : MgmtReport) : State := s.modMgmt (fun m => { m with reports := m.reports ++ [r] })
/-- The count of a die (R5). -/
def State.cyc (s : State) (d : Nat) : Nat := (s.die d).cyc

/-- A state change for each element of a list, in order. -/
def foldS {α : Type} (f : α → State → State) : List α → State → State
  | [], s => s
  | a :: as, s => foldS f as (f a s)

/-! ## Task cards (R32) -/

/-- Word at a byte offset of a card. -/
def cardWord (card : List DWord) (off : Nat) : Nat := (card.getD (off / 8) 0).toNat
def Task.w (t : Task) (off : Nat) : Nat := cardWord t.card off
def Task.tag (t : Task) : Nat := bits (t.w 0) 31 0
def Task.lvlbar (t : Task) : Nat := bits (t.w 0) 35 32
def Task.contract (t : Task) : Nat := bits (t.w 0) 47 36
def Task.rrmode (t : Task) : Nat := bits (t.w 0) 49 48
def Task.prio (t : Task) : Nat := bits (t.w 0) 52 50
def Task.cohort (t : Task) : Bool := bitAt (t.w 0) 53
def Task.cls (t : Task) : Nat := bits (t.w 0) 55 54
def Task.cgidx (t : Task) : Nat := bits (t.w 8) 4 0
def Task.cgv (t : Task) : Bool := bitAt (t.w 8) 5
def Task.nbar (t : Task) : Nat := bits (t.w 8) 12 8
def Task.ceil (t : Task) : Nat := bits (t.w 8) 20 13
def Task.floor (t : Task) : Nat := bits (t.w 8) 28 21
def Task.lanes (t : Task) : Nat := bits (t.w 8) 39 29
def Task.nteam (t : Task) : Nat := bits (t.w 8) 63 40
def Task.npred (t : Task) : Nat := bits (t.w 0x10) 15 8
def Task.nfoot (t : Task) : Nat := bits (t.w 0x10) 31 16
def Task.stream (t : Task) : Nat := bits (t.w 0x10) 47 32
def Task.scratch (t : Task) : Nat := bits (t.w 0x10) 63 55
def Task.seed (t : Task) : DWord := t.card.getD 3 0
def Task.code (t : Task) : Nat := t.w 0x20
def Task.argAddr (t : Task) : Nat := t.w 0x28
def Task.argSz (t : Task) : Nat := t.w 0x30
def Task.doneAddr (t : Task) : Nat := t.w 0x48
def Task.rrlog (t : Task) : Nat := t.w 0x50
/-- The handle of a task (R72). -/
def Task.handle (t : Task) : Nat := t.serial * 65536 + t.slot
/-- The task that a handle names, if the graph engine holds it (R72). -/
def State.byHandle (s : State) (h : Nat) : Option Task :=
  (s.task (h / 65536)).bind (fun t => if t.handle = h then some t else none)
/-- The task of a team. -/
def State.taskOf (s : State) (u : Nat) : Option Task := (s.team u).bind (fun t => s.task t.task)
/-- Scratchpad bytes of a team's task (R32). -/
def State.scrBytes (s : State) (u : Nat) : Nat := match s.taskOf u with | some t => 1024 * t.scratch | none => 0
/-- The address space of a team's task. -/
def State.asidOf (s : State) (u : Nat) : Nat := match s.taskOf u with | some t => t.asid | none => 0
/-- A team that is on its core: resident, or completing its end (R445, R484). -/
def Team.onCore (t : Team) : Bool := t.status != .saved && !t.away

/-! ## Register regions (R79, R87, R93, R106, R125, R326, R383, R390, R423, R435, R463 to R469, R491) -/

def geBase : Nat := 0x10000000000
def ctBase : Nat := 0x10000100000
def tcBase : Nat := 0x10000200000

/-- The reset value of a register of these regions that does not reset to 0. -/
def regReset (pa : Nat) : DWord :=
  if pa = geBase + 0x20040 then 0x04000000#64
  else if pa = geBase + 0x20080 then 0x10000000#64
  else if pa = geBase + 0x34200 then 0x10000#64
  else 0

/-- A 64-bit register by physical address. -/
def State.reg (s : State) (pa : Nat) : DWord := (mget s.regs pa).getD (regReset pa)
def State.setReg (s : State) (pa : Nat) (v : DWord) : State := { s with regs := mset s.regs pa v }
/-- A graph engine register by offset, as a number. -/
def State.ge (s : State) (off : Nat) : Nat := (s.reg (geBase + off)).toNat
def State.setGe (s : State) (off v : Nat) : State := s.setReg (geBase + off) (BitVec.ofNat 64 v)
def State.tc (s : State) (off : Nat) : Nat := (s.reg (tcBase + off)).toNat
def State.setTc (s : State) (off v : Nat) : State := s.setReg (tcBase + off) (BitVec.ofNat 64 v)
/-- v + 1 in a saturating counter of w bits. -/
def satInc (w v : Nat) : Nat := if v + 1 < 2 ^ w then v + 1 else 2 ^ w - 1
/-- FEATDRV bit i (R490). -/
def State.feature (s : State) (i : Nat) : Bool := bitAt (s.ge 0x20050) i

/-! ## Fresh values -/

/-- The next free value, and the state that has drawn it. -/
def State.free (s : State) : DWord × State := (Config.freeWord s.opens, { s with opens := s.opens + 1 })

end Sys2Proof.Machine
end

