-- ==== Sys2Proof/Machine/Cells.lean ====
section
/-!
DEFINITION. Links, flows and cells (R386 to R391): what the package sends and in which order, and the traffic of a pod access.
-/
namespace Sys2Proof.Machine

/-- UP of the link to a pool node (R390). -/
def State.nodeUp (s : State) (n : Nat) : Bool := bitAt (s.ge (0x34000 + 8 * n)) 3

/-- The key of a flow. -/
def flowKey (domain flow : Nat) : Nat := domain * 2 ^ 20 + flow
def State.flow (s : State) (k : Nat) : Flow := (mget s.flows k).getD {}

/-- The model's own keys of the flows that the package keeps: of a core to a pool node, and of the splices and pod barriers of a domain on
a link. -/
def podKey (c : CoreId) (node : Nat) : Nat := 2 ^ 36 + c.key * 64 + node
def spliceKey (domain link : Nat) : Nat := 2 ^ 37 + domain * 64 + link
def barrierKey (domain link : Nat) : Nat := 2 ^ 38 + domain * 64 + link
/-- The domain and number of a flow on the wire: a splice's and a barrier's domain are those of its record or binding (R381, R392). -/
def wireKey (k : Nat) : Nat :=
  if k < 2 ^ 36 then k
  else flowKey (if k < 2 ^ 37 then (Config.flowDomain k).toNat else k % 2 ^ 37 / 64) (Config.flowNumber k).toNat

/-- A flow is closed (R388). -/
def State.flowClosed (s : State) (k : Nat) : Bool := s.flows.any (fun p => p.2.closed && p.1 == wireKey k)

/-- The smallest count above the last accepted whose low 24 bits are those given (R387). -/
def nextCount (last low : Nat) : Nat :=
  let c := (last + 1) / 2 ^ 24 * 2 ^ 24 + low
  if last < c then c else c + 2 ^ 24

/-- The half of a tag that travels in clear (R386). -/
def clearTag (cls : Nat) (last : Bool) (k count : Nat) : BitVec 64 :=
  BitVec.ofNat 64 (cls % 8 * 2 ^ 61 + bit01 last * 2 ^ 60 + k % 2 ^ 36 * 2 ^ 24 + count % 2 ^ 24)

/-- A payload as a cell carries it: encrypted, but for the management class (R386, R387). -/
def sealed (cls k rekeys count : Nat) (p : BitVec 1024) : BitVec 1024 :=
  if cls = 4 then p else Config.gcmSeal (k / 2 ^ 20) (k % 2 ^ 20) rekeys count p

/-- The payload that a cell carries. -/
def opened (cls k rekeys count : Nat) (p : BitVec 1024) : BitVec 1024 :=
  if cls = 4 then p else Config.gcmOpen (k / 2 ^ 20) (k % 2 ^ 20) rekeys count p

/-- GTAG of a cell. -/
def gtag (k rekeys count : Nat) (clear : BitVec 64) (p : BitVec 1024) : BitVec 64 := Config.gcmTag (k / 2 ^ 20) (k % 2 ^ 20) rekeys count clear p

/-- One cell is formed under the flow's next count (R387), and is ready at its link. -/
def State.sendCell (s : State) (link cls k : Nat) (last : Bool) (p : BitVec 1024) : State :=
  let w := wireKey k
  let f := s.flow w
  let n := f.sent + 1
  let body := sealed cls w f.rekeys n p
  let clear := clearTag cls last w n
  { s with flows := mset s.flows w { f with sent := n }
           ready := s.ready ++ [(link, { tag := gtag w f.rekeys n clear body ++ clear, payload := body, crcOk := true })] }

/-- The cells of a message, the last one marked LAST. -/
def State.sendCells (s : State) (link cls k : Nat) : List (BitVec 1024) → State
  | [] => s
  | [p] => s.sendCell link cls k true p
  | p :: q :: ps => State.sendCells (s.sendCell link cls k false p) link cls k (q :: ps)

/-- The domain and flow of a cell. -/
def Cell.flow (c : Cell) : Nat := bits c.tag.toNat 59 24

/-- The flows that the slot reservation table of a link reserves its data slots for (R390). -/
def State.slotTable (s : State) (link : Nat) : List (Option Nat) :=
  (List.range 64).map (fun i =>
    let e := s.ge (0x30000 + 0x100 * link + 8 * (i / 2)) / 2 ^ (32 * (i % 2))
    if bitAt e 31 then some (bits e 19 0) else none)

/-- The flow that a data slot serves of those with a cell ready: the one that its entry names, else the one after the flow served last,
round robin in the order of domain and number (R389; DESIGN CHOICE, log 126: that order). -/
def Frame.serves (f : Frame) (flows : List Nat) : Option Nat :=
  let least (l : List Nat) : Option Nat := l.foldl (fun a k => match a with | some b => some (min b k) | none => some k) none
  match ((f.table[f.slot]?).getD none).bind (fun n => flows.find? (fun k => k % 2 ^ 20 == n)) with
  | some k => some k
  | none => (least (flows.filter (fun k => decide (f.last < k)))).or (least flows)

/-- A slot of a link passes (R389): a data slot carries a ready cell while the link is up, and the sync slot none. The reservation table
is read as a frame starts. -/
def State.slot (s : State) (link : Nat) : State :=
  let f := (mget s.frames link).getD {}
  let f := if f.slot = 0 then { f with table := s.slotTable link } else f
  let mine := s.ready.filter (fun x => x.1 == link)
  let served := if f.slot = 64 ∨ !s.nodeUp link then none else f.serves (mine.map (fun x => Cell.flow x.2))
  let s := { s with frames := mset s.frames link { f with slot := (f.slot + 1) % 65, last := served.getD f.last } }
  match served.bind (fun k => mine.find? (fun x => Cell.flow x.2 == k)) with
  | some x => { s with ready := s.ready.erase x, sent := s.sent ++ [x] }
  | none => s

/-- Bytes in cells; what the last one holds beyond them is open. -/
def payloadsOf (n : Nat) : Nat → List Byte → List (BitVec 1024)
  | 0, _ => []
  | fuel + 1, bs =>
    if bs.isEmpty then [] else
      let k := (bs.take 128).length
      let m : BitVec 1024 := BitVec.ofNat 1024 (2 ^ (8 * k) - 1)
      ((Config.openPayload n &&& ~~~m) ||| BitVec.ofNat 1024 (ofBytes (bs.take 128))) :: payloadsOf n fuel (bs.drop 128)

/-! ## Pod barrier slots (R378, R380) -/

/-- The key of a slot of a node's pod barrier unit. -/
def slotKey (node slot : Nat) : Nat := node * 1024 + slot
/-- A pod barrier slot. One that no binding has configured takes a default party count. -/
def State.podSlot (s : State) (node slot count : Nat) : PodSlot := (mget s.slots (slotKey node slot)).getD { count := count }

/-- A count that the host complex has written holds once no arrival stands: it changes no open phase (R381). -/
def PodSlot.renew (p : PodSlot) : PodSlot :=
  match p.later with
  | some (n, gone) => if p.arrived = 0 then { p with count := n, gone := p.gone - gone, expect := 0, later := none } else p
  | none => p

/-- The phase of a slot completes once its parties have arrived (R378, R380). -/
def PodSlot.settle (p : PodSlot) : PodSlot :=
  PodSlot.renew (if (p.expect = 0 ∧ p.arrived ≠ 0 ∧ p.count ≤ p.arrived + p.gone) ∨ (p.expect ≠ 0 ∧ p.expect ≤ p.arrived) then { p with phase := p.phase + 1, arrived := 0 } else p)

/-- A slot takes a cell. A withdrawal counts in the open phase only (R383); a default party that ends leaves with its arrival (R384). -/
def PodSlot.take (p : PodSlot) (c : PodCell) : PodSlot :=
  PodSlot.settle (match c with
    | .arrive => { p with arrived := p.arrived + 1 }
    | .withdraw ph => if ph = p.phase then { p with arrived := p.arrived - 1 } else p
    | .leave a => { p with gone := p.gone + 1, arrived := if a ∧ p.expect = 0 then p.arrived - 1 else p.arrived }
    | .init n => { p with expect := n })

/-- A slot has got a team's cell. -/
def State.podTold (s : State) : Option (PodBind × Nat × Nat × PodCell) → State
  | some (b, count, u, c) => { s with slots := mset s.slots (slotKey b.node b.slot) ((s.podSlot b.node b.slot count).take c)
                                      outbox := s.outbox ++ [.pod b.node b.slot b.domain u c] }
  | none => s

/-- A splice message to another package has set out. -/
def State.spliceTold (s : State) (m : Option SpliceMsg) : State := { s with outbox := s.outbox ++ (m.map Outgoing.splice).toList }

/-! ## Messages that set out (R387, R388, R390) -/

/-- A message can set out: its link is up, its flow is open and has counts left. -/
def State.canSend (s : State) (m : Sending) : Bool :=
  s.nodeUp m.link && !s.flowClosed m.flow && decide ((s.flow (wireKey m.flow)).sent + m.body.length < 2 ^ 56)

/-- A message sets out, behind those of its flow and link that wait; one that cannot waits too. -/
def State.send (s : State) (m : Sending) : State :=
  if s.canSend m && !s.toSend.any (fun x => x.link == m.link && x.flow == m.flow) then ((s.sendCells m.link m.cls m.flow m.body).podTold m.pod).spliceTold m.splice
  else { s with toSend := s.toSend ++ [m] }

/-- The messages that wait set out, as far as they can. -/
def State.flushSends (s : State) : State := s.toSend.foldl (fun s m => s.send m) { s with toSend := [] }

/-- The open payload of the next cell of a flow. -/
def State.openCell (s : State) (k : Nat) : BitVec 1024 := Config.openPayload (2 * (k * 2 ^ 56 + (s.flow (wireKey k)).sent))

/-- A message whose cells hold open bits sets out. -/
def State.sendOpen (s : State) (m : Nat → Sending) : State := ({ s with opens := s.opens + 1 } : State).send (m (2 * s.opens + 1))

/-! ## Pod accesses (R391) -/

/-- A core reaches a pool node: the link is up and the core's flow to it is open. -/
def State.podOpen (s : State) (c : CoreId) (node : Nat) : Bool := s.nodeUp node && !s.flowClosed (podKey c node)

/-- The request cell of a read or an atomic. -/
def State.podAsk (s : State) (c : CoreId) (node : Nat) : State :=
  let k := podKey c node
  s.sendCell node 0 k true (s.openCell k)

/-- The two request cells of a write: a header with the byte mask, and the data. -/
def State.podPut (s : State) (c : CoreId) (node : Nat) (data : BitVec 1024) : State :=
  let k := podKey c node
  (s.sendCell node 0 k false (s.openCell k)).sendCell node 0 k true data

end Sys2Proof.Machine
end

