-- ==== Sys2Proof/Machine/Memory.lean ====
section
/-!
DEFINITION. The memory hierarchy (chapter 14): home slices, RDC, L1, write-combining buffers, releases and acquires of a
core. Every byte of device and pod memory is written by `homeWrite` alone.
-/
namespace Sys2Proof.Machine

/-! ## Physical addresses (R120) -/

/-- The die whose HBM holds a physical address. -/
def hbmDie (pa : Nat) : Option Nat := if pa < 8 * 2 ^ 37 ∧ pa % 2 ^ 37 < 96 * 2 ^ 30 then some (pa / 2 ^ 37) else none

/-- The pool node whose memory holds a physical address. -/
def podNode (pa : Nat) : Option Nat :=
  if 2 ^ 47 ≤ pa ∧ pa < 2 ^ 47 + 36 * 2 ^ 45 then some ((pa - 2 ^ 47) / 2 ^ 45) else none

/-- n bytes from pa lie in the HBM of one die. -/
def inHbm (pa n : Nat) : Bool := (hbmDie pa).isSome && (n == 0 || (hbmDie (pa + n - 1)) == hbmDie pa)

/-- The spans (address, length) of n bytes cut at line boundaries. -/
def spans : Nat → Nat → Nat → List (Nat × Nat)
  | 0, _, _ => []
  | fuel + 1, a, n =>
    if n = 0 then [] else
      let k := min n (128 - a % 128)
      (a, k) :: spans fuel (a + k) (n - k)

/-! ## Publishing (R366) -/

/-- A core's write-combining buffer holds a byte of a physical address that no node has performed. -/
def Core.combines (k : Core) (pa : Nat) : Bool := k.wc.any (fun e => e.line == pa / 128 && !e.performed && e.mask.getLsbD (pa % 128))

/-- A core's L1 or write-combining buffer holds a byte of a physical address that its home does not have yet. -/
def Core.owesByte (k : Core) (pa : Nat) : Bool :=
  (match mget k.l1 (pa / 128) with | some l => l.dirty.getLsbD (pa % 128) | none => false) || k.combines pa

/-- A further write of a lane, over that lane's earlier one. -/
def Hid.add (h : Hid) (w : Unpub) : Hid :=
  { h with later := h.later.filter (fun x => !(x.team == w.team && x.slice == w.slice && x.lane == w.lane && !x.pub)) ++ [w] }

/-- A published write that is not held back becomes what the path sees, with all before it but those that another core owes the home
yet: they come after it in the order of the byte, and stay hidden as wholes (R357). -/
def Hid.show (held owed : Unpub → Bool) (h : Hid) (w : Unpub) : Hid :=
  if w.pub && !held w then { seen := w.val, later := h.later.filter (fun x => x.core != w.core && owed x) } else { h with later := h.later ++ [w] }

/-- The published writes shown in their order. none: nothing is hidden any more. -/
def Hid.settle (held owed : Unpub → Bool) (h : Hid) : Option Hid :=
  let g := h.later.foldl (Hid.show held owed) { h with later := [] }
  if g.later.isEmpty then none else some g

/-- The writes that satisfy p are published. -/
def Hid.mark (p : Unpub → Bool) (h : Hid) : Hid := { h with later := h.later.map (fun w => if p w then { w with pub := true } else w) }

/-- A byte's unpublished writes, settled: a write-combining entry holds one back until the pool node performs it. -/
def State.settleAt (s : State) (pa : Nat) (h : Hid) : Option Hid :=
  h.settle (fun w => (s.core w.core).combines pa) (fun w => (s.core w.core).owesByte pa)

/-- The bytes with unpublished writes after some n bytes change at their home. -/
def State.settled (s : State) (pa n : Nat) : Map Hid :=
  s.hid.filterMap (fun e => if decide (pa ≤ e.1) && decide (e.1 < pa + n) then (s.settleAt e.1 e.2).map (fun h => (e.1, h)) else some e)

/-- The writes that satisfy p are published, to every agent at once; those that a write-combining entry holds, as the pool node performs
it. R366 shows them to the reads that a publishing event happens before; the model orders no reads but by its steps (log 114). -/
def State.publish (s : State) (p : Unpub → Bool) : State :=
  { s with
    hid := s.hid.filterMap (fun e => (s.settleAt e.1 (e.2.mark p)).map (fun h => (e.1, h)))
    teams := s.teams.map (fun (t : Nat × Team) =>
      (t.1, { t.2 with hid := t.2.hid.filterMap (fun e => ((e.2.mark p).settle (fun _ => false) (fun _ => false)).map (fun h => (e.1, h))) })) }

/-- A slice publishes its lanes' writes. -/
def State.publishSlice (s : State) (u i : Nat) : State := s.publish (fun w => w.team == u && w.slice == i)
/-- A task publishes its writes. -/
def State.publishTask (s : State) (serial : Nat) : State := s.publish (fun w => w.task == serial)

/-- The bytes with unpublished writes after another agent writes bytes at their home: what a core has still to bring there stays
hidden. -/
def State.overwritten (s : State) (pa : Nat) (bs : List Byte) : Map Hid :=
  s.hid.filterMap (fun e =>
    if decide (pa ≤ e.1) && decide (e.1 < pa + bs.length) then
      let keep := (e.2.later.filter (fun w => (s.core w.core).owesByte e.1)).foldl (fun ws w => ws.filter (fun x => x.core != w.core) ++ [w]) []
      if keep.isEmpty then none else some (e.1, { seen := bs.getD (e.1 - pa) 0, later := keep })
    else some e)

/-- Bytes as the matrix and copy path sees them. -/
def unpublished (hid : Map Hid) (a : Nat) (bs : List Byte) : List Byte :=
  if hid.isEmpty then bs else (bs.zip (List.range bs.length)).map (fun p => match mget hid (a + p.2) with | some h => h.seen | none => p.1)

/-! ## The home (R279) -/

/-- Bytes as their home holds them. -/
def State.homeRead (s : State) (pa n : Nat) : List Byte := Mem.read s.mem pa n

/-- Bytes written at their home. A whole line written cures its poison (R456). -/
def State.homeWrite (s : State) (pa : Nat) (bs : List Byte) : State :=
  { s with
    mem := Mem.write s.mem pa bs
    hid := s.overwritten pa bs
    poison := if pa % 128 = 0 ∧ bs.length = 128 then mdel s.poison (pa / 128) else s.poison }

/-- The location class of a line's poison at its home, or 0 (R434, R456). -/
def State.homeBad (s : State) (line : Nat) : Nat := (mget s.poison line).getD 0

/-- The 64-bit word at a physical address. -/
def State.home64 (s : State) (pa : Nat) : Nat := ofBytes (s.homeRead pa 8)

/-- The bytes of a line as one word, and back. -/
def lineWord (bs : List Byte) : BitVec 1024 := BitVec.ofNat 1024 (ofBytes bs)
def lineBytes (w : BitVec 1024) (off n : Nat) : List Byte := toBytes n (w.toNat >>> (8 * off))
/-- A line with bytes put at an offset. -/
def linePut (w : BitVec 1024) (off : Nat) (bs : List Byte) : BitVec 1024 :=
  let m : BitVec 1024 := BitVec.ofNat 1024 ((2 ^ (8 * bs.length) - 1) <<< (8 * off))
  (w &&& ~~~m) ||| BitVec.ofNat 1024 (ofBytes bs <<< (8 * off))
/-- The mask of n bytes at an offset of a line. -/
def byteMask (off n : Nat) : BitVec 128 := BitVec.ofNat 128 ((2 ^ n - 1) <<< off)

/-! ## The RDC (R281 to R283) -/

/-- A die's write of part of a line: at the home, and in the die's RDC copy when the line is remote. -/
def State.dieWrite (s : State) (die pa : Nat) (bs : List Byte) : State :=
  let s := s.homeWrite pa bs
  if hbmDie pa = some die then s
  else s.modDie die (fun d => { d with rdc := mupd d.rdc (pa / 128) (fun l => { l with data := linePut l.data (pa % 128) bs }) })

/-- A write that may cross lines. -/
def State.dieWrites (s : State) (die pa : Nat) (bs : List Byte) : State :=
  foldS (fun (p : Nat × Nat) s => s.dieWrite die p.1 ((bs.drop (p.1 - pa)).take p.2)) (spans (bs.length + 1) pa bs.length) s

/-- A line enters a die's RDC, which holds 32 MiB (R2); when it is full another line leaves it. -/
def Die.rdcFill (d : Die) (line : Nat) (l : RLine) : Die :=
  { d with rdc := mset (if d.rdc.length < 262144 ∨ (mget d.rdc line).isSome then d.rdc else d.rdc.drop 1) line l }

/-- A line leaves a die's RDC, which holds no bytes that its home lacks. -/
def State.rdcDrop (s : State) (die line : Nat) : State := s.modDie die (fun d => { d with rdc := mdel d.rdc line })

/-- A core's read of bytes of one line behind its L1: the home slice, or the RDC for a remote line of CACHE 0b00. A read through a page of
another CACHE code takes the line out of the die's RDC, so that no later read of its agent by a second alias meets an older copy (R359). -/
def State.rdcRead (s : State) (c : CoreId) (pa cache n : Nat) : List Byte × State :=
  if hbmDie pa = some c.die ∨ (hbmDie pa).isNone then (s.homeRead pa n, s)
  else if cache ≠ 0 then (s.homeRead pa n, s.rdcDrop c.die (pa / 128))
  else
    let d := s.die c.die
    let fill := lineWord (s.homeRead (pa / 128 * 128) 128)
    match mget d.rdc (pa / 128) with
    | some l =>
      if (s.core c).acq < l.stamp then (lineBytes l.data (pa % 128) n, s)
      else (lineBytes fill (pa % 128) n,
        s.modDie c.die (fun d => d.rdcFill (pa / 128) { data := fill, stamp := d.epoch, bad := s.homeBad (pa / 128) }))
    | none => (lineBytes fill (pa % 128) n,
        s.modDie c.die (fun d => d.rdcFill (pa / 128) { data := fill, stamp := d.epoch, bad := s.homeBad (pa / 128) }))

/-- A read behind the L1 that may cross lines. -/
def State.rdcReads (s : State) (c : CoreId) (cache : Nat) : List (Nat × Nat) → List Byte × State
  | [] => ([], s)
  | (a, k) :: r =>
    let (bs, s) := s.rdcRead c a cache k
    let (rest, s) := State.rdcReads s c cache r
    (bs ++ rest, s)

/-- The location class of the poison that a read behind the L1 would meet in the line of pa, or 0 (R456). -/
def State.rdcBad (s : State) (c : CoreId) (pa cache : Nat) : Nat :=
  if hbmDie pa = some c.die ∨ cache ≠ 0 ∨ (hbmDie pa).isNone then s.homeBad (pa / 128)
  else match mget (s.die c.die).rdc (pa / 128) with
    | some l => if (s.core c).acq < l.stamp then l.bad else s.homeBad (pa / 128)
    | none => s.homeBad (pa / 128)

/-- The first poison that an engine's read of n bytes meets. -/
def State.engineBad (s : State) (c : CoreId) (pa cache n : Nat) : Nat :=
  (((spans (n + 1) pa n).map (fun p => s.rdcBad c p.1 cache)).find? (· != 0)).getD 0

/-- A read by a copy or matrix engine or a context (R277, R287). -/
def State.engineRead (s : State) (c : CoreId) (pa cache n : Nat) : List Byte × State :=
  let (bs, s) := s.rdcReads c cache (spans (n + 1) pa n)
  (unpublished s.hid pa bs, s)

/-! ## Pod accesses of engines and contexts (R284, R391) -/

/-- A core reaches the pool nodes of a span. -/
def State.spanOpen (s : State) (c : CoreId) (pa n : Nat) : Bool :=
  (spans (n + 1) pa n).all (fun p => match podNode p.1 with | some k => s.podOpen c k | none => true)

/-- A core's read of pod memory: a request cell for each line. -/
def State.podRead (s : State) (c : CoreId) (pa n : Nat) : List Byte × State :=
  (unpublished s.hid pa (s.homeRead pa n),
    foldS (fun (p : Nat × Nat) s => match podNode p.1 with | some k => s.podAsk c k | none => s) (spans (n + 1) pa n) s)

/-- A core's write of pod memory that no write-combining entry holds: two request cells for each line. -/
def State.podWrite (s : State) (c : CoreId) (pa : Nat) (bs : List Byte) : State :=
  let put (p : Nat × Nat) (s : State) : State := match podNode p.1 with
    | some k => s.podPut c k (linePut (s.openCell (podKey c k)) (p.1 % 128) ((bs.drop (p.1 - pa)).take p.2))
    | none => s
  (foldS put (spans (bs.length + 1) pa bs.length) s).homeWrite pa bs

/-! ## The L1 (R275, R276) -/

/-- Write the bytes of a mask of a line at the home. They are writes already made: what is hidden of them stays so (R366). -/
def State.maskedWrite (s : State) (die line : Nat) (data : BitVec 1024) (mask : BitVec 128) : State :=
  let t := if mask = BitVec.allOnes 128 then s.dieWrite die (128 * line) (lineBytes data 0 128)
    else foldS (fun i s => s.dieWrite die (128 * line + i) (lineBytes data i 1))
      ((List.range 128).filter (fun i => mask.getLsbD i)) s
  { t with hid := s.hid }

/-- Write back a line of a core's L1. A line of which it holds only what was written leaves with that (R357). Dirty bytes that have met the poison of a line poison the line at its home (R456). -/
def State.l1Back (s : State) (c : CoreId) (line : Nat) : State :=
  match mget (s.core c).l1 line with
  | none => s
  | some l =>
    let s := s.maskedWrite c.die line l.data l.dirty
    let s := { s with poison := if l.bad ≠ 0 ∧ l.dirty &&& ~~~l.fresh ≠ 0 then mset s.poison line 3 else s.poison }
    s.modCore c (fun k => { k with l1 := if l.held = BitVec.allOnes 128 then mset k.l1 line { l with dirty := 0 } else mdel k.l1 line })

/-- Write back every line of a core's L1. -/
def State.l1BackAll (s : State) (c : CoreId) : State := foldS (fun p s => s.l1Back c p.1) (s.core c).l1 s

/-- Write back and invalidate a line of a core's L1. -/
def State.l1Drop (s : State) (c : CoreId) (line : Nat) : State :=
  (s.l1Back c line).modCore c (fun k => { k with l1 := mdel k.l1 line })

/-- Scratchpad KiB of the teams on a core (R97). -/
def State.scratchOn (s : State) (c : CoreId) : Nat :=
  ((s.teams.filter (fun p => p.2.core == c && p.2.onCore)).map (fun p => s.scrBytes p.1 / 1024)).sum

/-- Lines the L1 of a core can hold (R97). -/
def State.l1Lines (s : State) (c : CoreId) : Nat := (512 - 64 * ceilDiv (s.scratchOn c) 64) * 8

/-- Make room in an L1 for a further line. -/
def State.l1Room (s : State) (c : CoreId) : State :=
  match (s.core c).l1 with
  | [] => s
  | (v, _) :: _ => if s.l1Lines c ≤ (s.core c).l1.length then s.l1Drop c v else s

/-- A slice's load of bytes of one global line (R275). `byp` allocates nothing. An access through a page of another CACHE code
takes the line that the core's L1 holds under a second alias out of it, so that a lane meets its own writes (R359). -/
def State.l1Read (s : State) (c : CoreId) (pa cache n : Nat) (byp : Bool) : List Byte × State :=
  let ln := pa / 128
  let l? := mget (s.core c).l1 ln
  if cache ≠ 0 then (s.l1Drop c ln).rdcRead c pa cache n
  else if byp ∧ l?.isNone then s.rdcRead c pa cache n
  else
    let l := l?.getD {}
    if l.held &&& byteMask (pa % 128) n = byteMask (pa % 128) n then (lineBytes l.data (pa % 128) n, s)
    else
      let (bs, s) := s.rdcRead c (128 * ln) cache 128
      let full := foldS' bs l 0
      let s := if l?.isNone then s.l1Room c else s
      (lineBytes full (pa % 128) n,
        s.modCore c (fun k => { k with l1 := mset k.l1 ln { data := full, held := BitVec.allOnes 128, dirty := l.dirty, bad := max l.bad (s.rdcBad c (128 * ln) cache), fresh := if l.bad = 0 then l.dirty else l.fresh } }))
where
  /-- The fetched line with the bytes the L1 already holds put over it. -/
  foldS' (bs : List Byte) (l : Line) (i : Nat) : BitVec 1024 :=
    match bs with
    | [] => 0
    | b :: bs =>
      let rest := foldS' bs l (i + 1)
      let byte := if l.held.getLsbD i then lineBytes l.data i 1 else [b]
      rest ||| BitVec.ofNat 1024 (ofBytes byte <<< (8 * i))

/-- Bytes stored into a line of an L1. Stores over the whole of a poisoned line cure it (R456). -/
def Line.put (l : Line) (off : Nat) (bs : List Byte) : Line :=
  let m := byteMask off bs.length
  { data := linePut l.data off bs, held := l.held ||| m, dirty := l.dirty ||| m, fresh := l.fresh ||| m
    bad := if l.fresh ||| m = BitVec.allOnes 128 then 0 else l.bad }

/-- A slice's store of bytes of one global line (R275). -/
def State.l1Write (s : State) (c : CoreId) (pa cache : Nat) (bs : List Byte) (byp : Bool) : State :=
  let ln := pa / 128
  let l? := mget (s.core c).l1 ln
  if cache ≠ 0 then (s.l1Drop c ln).dieWrite c.die pa bs
  else if byp ∧ l?.isNone then s.dieWrite c.die pa bs
  else
    let s := if l?.isNone then s.l1Room c else s
    s.modCore c (fun k => { k with l1 := mset k.l1 ln ((l?.getD {}).put (pa % 128) bs) })

/-- A slice's load of bytes that may cross lines. -/
def State.l1Reads (s : State) (c : CoreId) (cache : Nat) : List (Nat × Nat) → List Byte × State
  | [] => ([], s)
  | (a, k) :: r =>
    let (bs, s) := s.l1Read c a cache k false
    let (rest, s) := State.l1Reads s c cache r
    (bs ++ rest, s)

/-- A slice's store of bytes that may cross lines. -/
def State.l1Writes (s : State) (c : CoreId) (pa cache : Nat) (bs : List Byte) : State :=
  foldS (fun (p : Nat × Nat) s => s.l1Write c p.1 cache ((bs.drop (p.1 - pa)).take p.2) false)
    (spans (bs.length + 1) pa bs.length) s

/-- A write by a copy or matrix engine or a context: the L1 of the issuing core gives up its lines (R277). -/
def State.engineWrite (s : State) (c : CoreId) (pa : Nat) (bs : List Byte) : State :=
  let sp := spans (bs.length + 1) pa bs.length
  let s := foldS (fun (p : Nat × Nat) s => s.l1Back c (p.1 / 128)) sp s
  let s := s.dieWrites c.die pa bs
  foldS (fun (p : Nat × Nat) s => s.modCore c (fun k => { k with l1 := mdel k.l1 (p.1 / 128) })) sp s

/-! ## The write-combining buffer (R284 to R286) -/

/-- Entries of which those that satisfy p begin to drain: the draining ones stand first, in the order of their triggers and
of allocation for one trigger (R286). n is the number that the next operation takes. -/
def drainEntries (n : Nat) (p : WcEntry → Bool) (es : List WcEntry) : List WcEntry :=
  es.filter (·.draining) ++ (es.filter (fun e => !e.draining && p e)).map (fun e => { e with draining := true, trig := n }) ++
    es.filter (fun e => !e.draining && !p e)

/-- Begin to drain the entries of a core that satisfy p. -/
def State.wcDrain (s : State) (c : CoreId) (p : WcEntry → Bool) : State :=
  s.modCore c (fun k => { k with wc := drainEntries s.nextId p k.wc })

/-- An entry whose mask bits are all set drains (R286). -/
def State.wcFull (s : State) (c : CoreId) : State := s.wcDrain c (fun e => e.mask == BitVec.allOnes 128)

/-- A pod store of bytes of one line by an operation of a team. none: the store waits for an entry to free. -/
def State.wcStore (s : State) (c : CoreId) (team op pa : Nat) (bs : List Byte) : Option State :=
  let ln := pa / 128
  let m := byteMask (pa % 128) bs.length
  let k := s.core c
  if k.wc.any (fun e => e.line == ln && !e.draining) then
    some ((s.modCore c (fun k => { k with wc := k.wc.map (fun e =>
      if e.line == ln && !e.draining then
        { e with data := linePut e.data (pa % 128) bs, mask := e.mask ||| m, first := min e.first op, teams := if e.teams.contains team then e.teams else e.teams ++ [team] }
      else e) })).wcFull c)
  else if k.wc.length < 64 then
    let e : WcEntry := { id := s.nextId, line := ln, data := linePut 0 (pa % 128) bs, mask := m, teams := [team], since := s.cyc c.die, first := op }
    some ((({ s with nextId := s.nextId + 1 } : State).modCore c (fun k => { k with wc := k.wc ++ [e] })).wcFull c)
  else none

/-- The store of R286's fourth row: the oldest entry begins to drain. -/
def State.wcOldest (s : State) (c : CoreId) : State :=
  match (s.core c).wc with
  | [] => s
  | e :: es =>
    let n := es.foldl (fun n e => min n e.id) e.id
    s.wcDrain c (fun e => e.id == n)

/-- The draining entry is the first of its core's flow to its pool node that the node has not performed (R286, R391). -/
def Core.wcTurn (k : Core) (e : WcEntry) : Bool :=
  (k.wc.find? (fun x => x.draining && !x.performed && podNode (128 * x.line) == podNode (128 * e.line))).map (·.id) == some e.id

/-- The pool node performs a drained write (R391). -/
def State.wcPerform (s : State) (c : CoreId) (id : Nat) : State :=
  match (s.core c).wc.find? (fun e => e.id == id && e.draining && !e.performed && (s.core c).wcTurn e) with
  | none => s
  | some e =>
    let s := match podNode (128 * e.line) with | some n => s.podPut c n e.data | none => s
    let s := (s.maskedWrite c.die e.line e.data e.mask).modCore c (fun k =>
      { k with wc := k.wc.map (fun e' => if e'.id == id then { e' with performed := true } else e') })
    { s with hid := s.settled (128 * e.line) 128 }

/-- The pool node acknowledges a drained entry: its bytes are written and it frees. -/
def State.wcAck (s : State) (c : CoreId) (id : Nat) : State :=
  if (s.core c).wc.any (fun e => e.id == id && e.draining && (e.performed || (s.core c).wcTurn e)) then
    (s.wcPerform c id).modCore c (fun k => { k with wc := k.wc.filter (fun e => e.id != id) })
  else s

/-- No entry of the core is held. -/
def State.wcEmpty (s : State) (c : CoreId) : Bool := (s.core c).wc.isEmpty

/-! ## Releases and acquires of a core (R276, R282, R283). Scope codes are those of R148. -/

/-- The L1 action of a release at a scope. -/
def State.releaseL1 (s : State) (c : CoreId) (scope : Nat) : State := if 2 ≤ scope then s.l1BackAll c else s

/-- The fill epoch of an acquire at `.quad` or wider (R282, R283). -/
def State.acqStamp (s : State) (c : CoreId) : State :=
  if (s.die c.die).epoch + 1 < 2 ^ 48 then
    (s.modCore c (fun k => { k with acq := (s.die c.die).epoch })).modDie c.die (fun d => { d with epoch := d.epoch + 1 })
  else
    let clear : Nat × Core → Nat × Core := fun p => if p.1 / 128 = c.die then (p.1, { p.2 with acq := 0 }) else p
    ({ s with cores := s.cores.map clear } : State).modDie c.die (fun d => { d with epoch := 1, rdc := [] })

/-- The L1 and RDC actions of an acquire by a slice at a scope. -/
def State.acquire (s : State) (c : CoreId) (scope : Nat) : State :=
  if 3 ≤ scope then ((s.l1BackAll c).modCore c (fun k => { k with l1 := [] })).acqStamp c else s

/-! ## Scratchpads (R99, R278) -/

def State.scrRead (s : State) (u off n : Nat) : List Byte :=
  match s.team u with | some t => Mem.read t.scratch off n | none => List.replicate n 0

def State.scrWrite (s : State) (u off : Nat) (bs : List Byte) : State :=
  s.modTeam u (fun t => { t with scratch := Mem.write t.scratch off bs
                                 hid := t.hid.filter (fun e => !(decide (off ≤ e.1) && decide (e.1 < off + bs.length)))
                                 scrBad := t.scrBad.filter (fun b => !(decide (off ≤ b) && decide (b < off + bs.length))) })

/-- What the matrix and copy path sees of a scratchpad (R366). -/
def State.scrSeen (s : State) (u off n : Nat) : List Byte :=
  match s.team u with | some t => unpublished t.hid off (Mem.read t.scratch off n) | none => List.replicate n 0

/-- A byte that a lane has written over what stood there before is hidden (R366). -/
def hideByte (old : Map Hid) (a : Nat) (before : Byte) (w : Unpub) : Hid := ((mget old a).getD { seen := before, later := [] }).add w

/-- Bytes that a SIMT lane has written at a place are hidden from the matrix and copy path until it publishes them; `old` is the
state before the write (R366). -/
def State.hide (s old : State) (w : Unpub) (p : Place) (bs : List Byte) : State :=
  let bytes := bs.zip (List.range bs.length)
  match p with
  | .phys pa _ =>
    { s with hid := bytes.foldl (fun h b => mset h (pa + b.2) (hideByte old.hid (pa + b.2) (Mem.get old.mem (pa + b.2)) { w with val := b.1 })) s.hid }
  | .scr u off =>
    match old.team u with
    | some o => s.modTeam u (fun t => { t with hid := bytes.foldl (fun h b =>
        mset h (off + b.2) (hideByte o.hid (off + b.2) (Mem.get o.scratch (off + b.2)) { w with val := b.1 })) t.hid })
    | none => s

/-- Some of n bytes of a scratchpad are poisoned (R456). -/
def State.scrPoison (s : State) (u off n : Nat) : Bool :=
  match s.team u with | some t => t.scrBad.any (fun b => decide (off ≤ b) && decide (b < off + n)) | none => false

end Sys2Proof.Machine
end

