-- ==== Sys2Proof/Machine/Translate.lean ====
section
/-!
DEFINITION. Address spaces and translation (chapter 6): windows, address-space descriptors, the page-table walk, TLBs,
and the fault rings. Trap kinds are those of R433, cause codes those of R128.
-/
namespace Sys2Proof.Machine

def kXlate : Nat := 5
def kProt : Nat := 6
def kOwn : Nat := 7

/-! ## Address-space descriptors (R127) -/

/-- A valid descriptor's fields. -/
structure Asd where
  demand : Bool
  root : Nat
  priv : Nat
  spill : Nat
  plog : Nat
  slog : Nat
  ntslot : Nat
deriving DecidableEq, Repr

/-- A log field of a descriptor is 0 or 4 to 16. -/
def logOk (n : Nat) : Bool := n == 0 || (decide (4 ≤ n) && decide (n ≤ 16))

/-- The descriptor of an address space, when it is valid. -/
def State.asd (s : State) (asid : Nat) : Option Asd :=
  let p := bits (s.tc 0x8000) 51 6 * 64 + 64 * asid
  let w0 := s.home64 p
  let w1 := s.home64 (p + 8)
  let w2 := s.home64 (p + 16)
  let w3 := s.home64 (p + 24)
  let rest := ofBytes (s.homeRead (p + 32) 32)
  if inHbm p 64 && bitAt w0 63 && bits w0 61 52 == 0 && bits w0 17 0 == 0 && decide (w1 < 2 ^ 56) && w1 % 4096 == 0 &&
      decide (w2 < 2 ^ 56) && w2 % 4096 == 0 && bits w3 47 16 == 0 && logOk (bits w3 15 8) && logOk (bits w3 7 0) && rest == 0 then
    some { demand := bitAt w0 62, root := bits w0 51 18 * 2 ^ 18, priv := w1, spill := w2, plog := bits w3 15 8, slog := bits w3 7 0,
           ntslot := bits w3 63 48 }
  else none

/-! ## The walk (R115 to R119) -/

/-- A level of the tables: low index bit, index width, log2 of the next table's size, and of the leaf's page size
without and with CONTIG (0 where not allowed). -/
structure Lvl where
  lo : Nat
  width : Nat
  next : Nat
  leaf : Nat
  contig : Nat
deriving DecidableEq, Repr

def levels : List Lvl :=
  [ { lo := 42, width := 15, next := 14, leaf := 0, contig := 0 }, { lo := 31, width := 11, next := 13, leaf := 31, contig := 0 },
    { lo := 21, width := 10, next := 12, leaf := 21, contig := 26 }, { lo := 12, width := 9, next := 0, leaf := 12, contig := 16 } ]

/-- A leaf entry as a TLB entry. -/
def leafOf (asid va e log : Nat) : Tlb :=
  { asid := asid, base := va / 2 ^ log * 2 ^ log, log := log, frame := bits e 51 12 * 4096 / 2 ^ log * 2 ^ log, stamp := bits e 63 52,
    cache := bits e 9 8, spill := bitAt e 10, owner := bitAt e 5, x := bitAt e 4, w := bitAt e 3 }

/-- The walk from a table on: a leaf, or a cause of XLATE. -/
def State.walkFrom (s : State) (asid va : Nat) : List Lvl → Nat → Except Nat Tlb
  | [], _ => .error 2
  | l :: ls, table =>
    let p := table + 8 * bits va (l.lo + l.width - 1) l.lo
    let e := s.home64 p
    let leaf := bitAt e 6
    let contig := bitAt e 7
    let log := if contig then l.contig else l.leaf
    if !inHbm p 8 then .error 2
    else if !bitAt e 0 then .error 1
    else if bits e 2 1 != 0 || bits e 9 8 == 3 || (leaf && l.leaf == 0) || (!leaf && l.next == 0) || (contig && (!leaf || l.contig == 0)) then
      .error 2
    else if leaf then
      let t := leafOf asid va e log
      if (if va < 2 ^ 56 then inHbm t.frame (2 ^ log) else (podNode t.frame).isSome) then .ok t else .error 3
    else if bits e 63 52 != 0 || bits e 11 7 != 0 || bits e 5 1 != 0 || (bits e 51 12 * 4096) % 2 ^ l.next != 0 then .error 2
    else State.walkFrom s asid va ls (bits e 51 12 * 4096)

/-- The walk of an address of the global or pod window. -/
def State.walk (s : State) (asid va : Nat) : Except Nat Tlb :=
  match s.asd asid with
  | none => .error 2
  | some a => s.walkFrom asid va levels a.root

/-! ## Accesses -/

/-- Access kinds in the places of ACC (R126). -/
def accRead : Nat := 1
def accWrite : Nat := 2
def accAtomic : Nat := 4
def accFetch : Nat := 8

/-- Who translates: address space, place, engine code and slice of R126, priority, privilege, waiter; `tlb` for agents
that go through a TLB. `xf` are the walk faults kept for this access. -/
structure Req where
  asid : Nat
  core : CoreId
  eng : Nat := 0
  slice : Nat := 0
  prio : Nat := 0
  priv : Bool := false
  tlb : Bool := false
  xf : List WalkFault := []
deriving DecidableEq, Repr

/-- What a translation gives: a place, a walk to wait for, or a fault (trap kind, cause, replayable). -/
inductive Tr where
  | ok (pa cache stamp : Nat)
  | miss
  | fault (kind cause : Nat) (replay : Bool)
deriving DecidableEq, Repr

/-- The checks of R117 on a translation. `win` is 0 for the global and pod windows, 1 private, 2 spill. -/
def checkLeaf (t : Tlb) (va acc win : Nat) (priv demand : Bool) : Tr :=
  if acc = accFetch ∧ !t.x then .fault kProt 6 demand
  else if acc &&& 6 ≠ 0 ∧ !t.w then .fault kProt 5 demand
  else if (win = 0 ∧ t.spill ∧ !priv) ∨ (win = 2 ∧ !t.spill) ∨ (win = 1 ∧ t.spill) then .fault kProt 7 demand
  else if t.owner then .fault kOwn 9 true
  else .ok (t.frame + va % 2 ^ t.log) t.cache t.stamp

/-- Whether XLATE and PROT are replayable in an address space (R128). -/
def State.demand (s : State) (asid : Nat) : Bool := match s.asd asid with | some a => a.demand | none => false

def tlbFind (l : List Tlb) (asid va : Nat) : Option Tlb := l.find? (fun t => t.asid == asid && t.base == va / 2 ^ t.log * 2 ^ t.log)

/-- The translation a core or quad holds (R129). -/
def State.tlbHit (s : State) (r : Req) (va : Nat) : Option Tlb :=
  match tlbFind (s.core r.core).tlb r.asid va with
  | some t => some t
  | none => tlbFind (s.quad r.core).tlb r.asid va

/-- The line of a physical address falls in a lasting set of its home die's L2 or of the accessing die's RDC (R455). -/
def State.setLost (s : State) (die pa : Nat) : Bool :=
  match hbmDie pa with
  | none => false
  | some h => (((s.die h).lostSets ++ (s.die die).lostSets).map (fun n => BitVec.ofNat 16 n)).contains (Config.cacheSetOf (pa / 128))

/-- The checks of R117, with CACHE as it acts: the lines of a lasting set are held in no cache (R455). -/
def State.leafTr (s : State) (r : Req) (t : Tlb) (va acc win : Nat) : Tr :=
  match checkLeaf t va acc win r.priv (s.demand r.asid) with
  | .ok pa cache stamp => .ok pa (if s.setLost r.core.die pa then 2 else cache) stamp
  | x => x

/-- Translate an address; one outside the global and pod windows lies in a reserved range (R109). -/
def State.translate (s : State) (r : Req) (va acc win : Nat) : Tr :=
  if va ≥ 0x180 * 2 ^ 48 ∨ (va ≥ 2 ^ 56 ∧ !s.feature 5) then .fault kXlate 4 false
  else match r.xf.find? (fun f => f.asid == r.asid && f.page == va / 4096) with
  | some f => .fault f.kind f.cause f.replay
  | none =>
  if r.tlb then
    match s.tlbHit r va with
    | some t => s.leafTr r t va acc win
    | none => .miss
  else
    match s.walk r.asid va with
    | .ok t => s.leafTr r t va acc win
    | .error c => .fault kXlate c (s.demand r.asid)

/-- The waiting request that a free walker takes (R130): one that has waited 65,536 cycles, else one of the highest waiting priority
while 8 walks of lower priority are in progress, else the oldest. -/
def Die.nextWalk (d : Die) : Option WalkReq :=
  let waiting := d.walks.filter (fun q => !q.busy)
  let top := waiting.foldl (fun n q => max n q.prio) 0
  match waiting.find? (fun q => decide (q.since + 65536 ≤ d.cyc)) with
  | some q => some q
  | none => if 8 ≤ (d.walks.filter (fun q => q.busy && decide (q.prio < top))).length then waiting.find? (fun q => q.prio == top) else waiting.head?

/-- One of the 128 walkers of a die, when one is free, takes a request (R129). -/
def Die.startWalk (d : Die) : Die :=
  if 128 ≤ (d.walks.filter (·.busy)).length then d
  else match d.nextWalk with
    | some q => { d with walks := d.walks.map (fun x => if x == q then { q with busy := true } else x) }
    | none => d

/-- The leaf entry that a walk reads, by the page it maps; for a walk that faults, its 4 KiB page. -/
def State.leafKey (s : State) (asid va : Nat) : Nat × Nat := match s.walk asid va with | .ok t => (t.base, t.log) | .error _ => (va / 4096, 0)

/-- Ask the die's walkers for a translation (R129). Requests for one leaf entry of one address space coalesce. DESIGN CHOICE (log 30): a
walk keeps the priority of the request that asked first (R130). -/
def State.askWalk (s : State) (r : Req) (va : Nat) (w : Waiter) : State :=
  let same (q : WalkReq) : Bool := q.asid == r.asid && s.leafKey q.asid q.va == s.leafKey r.asid va
  s.modDie r.core.die (fun d =>
    if d.walks.any same then { d with walks := d.walks.map (fun q => if same q && !q.waiters.contains w then { q with waiters := q.waiters ++ [w] } else q) }
    else Die.startWalk { d with walks := d.walks ++ [{ asid := r.asid, va := va, prio := r.prio, since := d.cyc, waiters := [w] }] })

/-- Keep a translation in the core's and the quad's TLB (R129). -/
def State.tlbFill (s : State) (c : CoreId) (t : Tlb) : State :=
  (s.modCore c (fun k => { k with tlb := (t :: k.tlb.filter (· != t)).take 128 })).modQuad c
    (fun q => { q with tlb := (t :: q.tlb.filter (· != t)).take 4096 })

/-! ## Windows (R109 to R113, R291) -/

/-- The windows an instruction may reach (R291). -/
structure Wins where
  glob : Bool := true
  scr : Bool := true
  priv : Bool := true
  spill : Bool := true

/-- An address after its window checks: a scratchpad byte, an address to translate, the fault that its translation meets, or a
precise trap. -/
inductive Res where
  | scr (team off : Nat)
  | virt (va win : Nat)
  | fault (kind cause : Nat)
  | trap (kind cause : Nat)
deriving DecidableEq, Repr

/-- The team of a task with an index, when it has not ended; it stands on its core, since a cohort halts whole (R110, R278). -/
def State.teamAt (s : State) (task index : Nat) : Option Nat :=
  (s.teams.find? (fun p => p.2.task == task && p.2.index == index && p.2.status == .resident)).map (·.1)

/-- A scratchpad window offset of a team, for an access of z bytes (R110). -/
def State.resScr (s : State) (u off z : Nat) : Res :=
  if off + z ≤ s.scrBytes u then .scr u off
  else if off < 0x200000 then .trap kProt 8
  else
    let j := (off - 0x200000) / 0x80000
    let o := (off - 0x200000) % 0x80000
    match s.team u, s.taskOf u with
    | some t, some k =>
      if k.cohort && decide (j < 4) && decide (o + z ≤ 1024 * k.scratch) then
        match s.teamAt t.task (t.index / 4 * 4 + j) with
        | some m => .scr m o
        | none => .trap kProt 8
      else .trap kProt 8
    | _, _ => .trap kProt 8

/-- The alias of z bytes at a private or spill offset (R111): the base, the log2 size, the lane and the window code. -/
def aliasOf (base log slot lane o z win : Nat) : Res :=
  if log = 0 ∨ 2 ^ log < o + z then .trap kProt 8
  else
    let va := base + (slot * 1024 + lane) * 2 ^ log + o
    if 2 ^ 56 < va + z then .trap kXlate 4 else .virt va win

/-- The window checks of an effective address (R109 to R111, R291): an access of z bytes in elements of `align` bytes by a
lane of a team. An access that runs past the pod window meets the reserved range (log 105). DESIGN CHOICE (log 129): a team that
was admitted without a slot uses slot 0 (R114). A private or spill access in a space
whose descriptor is not valid meets that fault in its translation (R117, R127). -/
def State.resolve (s : State) (u lane ea z align : Nat) (w : Wins) : Res :=
  let off := ea % 2 ^ 48
  let win := ea / 2 ^ 48
  let bad := Res.trap kProt 8
  if ea ≥ 2 ^ 57 ∨ (0x180 ≤ win ∧ win < 0x1FC) ∨ win = 0x1FF ∨ (win = 0x1FC ∧ 0x400000 ≤ off) ∨
      ((win = 0x1FD ∨ win = 0x1FE) ∧ 0x10000 ≤ off) ∨ (0x100 ≤ win ∧ win < 0x180 ∧ !s.feature 5) ∨
      (win < 0x180 ∧ 0x180 * 2 ^ 48 < ea + z) then .trap kXlate 4
  else if ea % align ≠ 0 then .trap 4 0
  else if win < 0x180 then if w.glob then .virt ea 0 else bad
  else if win = 0x1FC then if w.scr then s.resScr u off z else bad
  else
    let slot := match s.team u with | some t => t.tslot.getD 0 | none => 0
    if (win = 0x1FD ∧ !w.priv) ∨ (win = 0x1FE ∧ !w.spill) then bad
    else match s.asd (s.asidOf u) with
      | none => .fault kXlate 2
      | some a => if win = 0x1FD then aliasOf a.priv a.plog slot lane off z 1 else aliasOf a.spill a.slog slot lane off z 2

/-! ## The fault rings (R122, R126) -/

/-- A replayable fault raised by an access: it waits with its waiter until the ring takes it. DESIGN CHOICE (log 130): the lanes and
elements of one waiter that fault on one page are one fault, and count once in MERGED (R126). -/
def State.raiseFault (s : State) (r : Req) (va kind cause acc : Nat) (w : Waiter) : State :=
  s.modDie r.core.die (fun d =>
    if d.faults.any (fun f => f.waiters.contains w && f.asid == r.asid && f.va / 4096 == va / 4096 && f.kind == kind) then d
    else { d with faults := d.faults ++ [{ ring := none, asid := r.asid, va := va, kind := kind, cause := cause, acc := acc, eng := r.eng,
                                           core := r.core, slice := r.slice, merged := 0, cyc := d.cyc, waiters := [w] }] })

/-- The fault on a page that has not been answered to a waiter (R122): before its answer the access is not translated anew. -/
def State.waitsOn (s : State) (w : Waiter) (asid va : Nat) : Option FaultEntry :=
  s.dies.findSome? (fun p => p.2.faults.find? (fun f => f.waiters.contains w && f.asid == asid && f.va / 4096 == va / 4096))

/-- Translate for the graph engine's own accesses, on whose behalf a waiter waits (R117). -/
def State.engineTr (s : State) (w : Waiter) (r : Req) (va acc : Nat) : Tr :=
  match s.waitsOn w r.asid va with
  | some f => .fault f.kind f.cause true
  | none => s.translate r va acc 0

/-- The words of a fault record. -/
def faultWords (f : FaultEntry) : List Byte :=
  toBytes 8 f.va ++
  toBytes 8 (f.asid * 2 ^ 48 + min f.merged 65535 * 2 ^ 32 + (f.kind - 4) * 2 ^ 24 + f.acc * 2 ^ 20 + f.cause * 2 ^ 16) ++
  toBytes 8 (f.core.die * 2 ^ 37 + f.core.quad * 2 ^ 32 + f.core.core * 2 ^ 30 + f.eng * 2 ^ 28 + f.slice % 256 * 2 ^ 20) ++
  toBytes 8 f.cyc

/-- Write n bytes that are not translated, when they lie in device HBM. -/
def State.rawWrite (s : State) (pa : Nat) (bs : List Byte) : State := if inHbm pa bs.length then s.homeWrite pa bs else s

/-- The first ring index from h on, modulo 1024, that no pending entry holds. -/
def freeIndex (fs : List FaultEntry) (h : Nat) : Nat → Option Nat
  | 0 => none
  | n + 1 => if fs.any (fun f => f.ring == some (h % 1024)) then freeIndex fs (h + 1) n else some (h % 1024)

/-- The pending entry that a fault joins (R126). -/
def Die.joins (d : Die) (f : FaultEntry) : Option FaultEntry :=
  d.faults.find? (fun g => g.ring.isSome && g.asid == f.asid && g.va / 4096 == f.va / 4096 && g.kind == f.kind)

/-- FAULT_QUEUE_WRITE: the oldest unwritten fault of a die that can joins a pending entry or takes a ring entry (R126). -/
def State.queueFault (s : State) (die : Nat) : State :=
  let d := s.die die
  let base := bits (s.tc (0x1000 * die)) 51 15 * 2 ^ 15
  match (d.faults.filter (fun f => f.ring.isNone)).find? (fun f => (d.joins f).isSome || (freeIndex d.faults d.fqHead 1024).isSome) with
  | none => s
  | some f =>
    match d.joins f with
    | some g =>
      let g' := { g with merged := min (g.merged + 1) 65535, waiters := g.waiters ++ f.waiters }
      let s := s.modDie die (fun d => { d with faults := (d.faults.erase f).map (fun x => if x.ring == g.ring then g' else x) })
      s.rawWrite (base + 32 * g.ring.getD 0 + 12) (toBytes 2 g'.merged)
    | none =>
      match freeIndex d.faults d.fqHead 1024 with
      | none => s
      | some i =>
        let fs := d.faults.map (fun x => if x == f then { f with ring := some i } else x)
        let next := (freeIndex fs (i + 1) 1024).getD i
        let s := { s.modDie die (fun d => { d with faults := fs, fqHead := next }) with faultSignals := s.faultSignals ++ [(die, i)] }
        let s := s.rawWrite (base + 32 * i) (faultWords f)
        (s.setTc (0x1000 * die + 8) next).setTc (0x1000 * die + 0x10) ((fs.filter (fun x => x.ring.isSome)).length)

end Sys2Proof.Machine
end

