-- ==== Sys2Proof/Machine/Debug.lean ====
section
/-!
DEFINITION. Rings of records (R93, R467), trace records (R468), region edges (R464), watches (R466) and the lane-cycle
record (R469, R470).
-/
namespace Sys2Proof.Machine

def State.sliceOr (s : State) (u i : Nat) : Slice := (s.slice u i).getD {}

/-! ## Rings -/

/-- The registers of a ring by offset, and the bytes of its records. -/
structure Ring where
  base : Nat
  log : Nat
  head : Nat
  tail : Nat
  lost : Nat
  size : Nat
deriving DecidableEq, Repr

/-- The package report ring (R93). -/
def reportRing : Ring := { base := 0x20000, log := 0x20008, head := 0x20010, tail := 0x20018, lost := 0x20028, size := 32 }
/-- The trace ring and the sample ring (R467). -/
def traceRing : Ring := { base := 0x22100, log := 0x22108, head := 0x22110, tail := 0x22118, lost := 0x22120, size := 32 }
def sampleRing : Ring := { base := 0x22200, log := 0x22208, head := 0x22210, tail := 0x22218, lost := 0x22220, size := 32 }

/-- Write a record at HEAD and advance, or lose it. LOST counts the records that a full ring discards (R467), and in the
report ring those that a disabled ring discards too (R93). -/
def State.ringWrite (s : State) (r : Ring) (rec : List Byte) : State :=
  let base := bits (s.ge r.base) 51 12 * 4096
  let log := bits (s.ge r.log) 4 0
  let n := 2 ^ log
  let head := bits (s.ge r.head) 19 0
  let tail := bits (s.ge r.tail) 19 0
  let on : Bool := decide (4 ≤ log) && decide (log ≤ 20) && inHbm base (n * r.size)
  if on ∧ (head + 1) % n ≠ tail then
    (s.homeWrite (base + head * r.size) rec).setGe r.head ((head + 1) % n)
  else if !on ∧ r != reportRing then s
  else s.setGe r.lost (satInc 32 (bits (s.ge r.lost) 31 0))

/-! ## Trace and samples (R467, R468, R471) -/

/-- The place of a slice in a trace or sample record, bits [51:10] there. -/
def placeBits (t : Team) (i : Nat) : Nat :=
  t.core.die * 2 ^ 39 + t.core.quad * 2 ^ 34 + t.core.core * 2 ^ 32 + i * 2 ^ 24 + t.index % 2 ^ 24

/-- Words 0x08 to 0x18 of a record. -/
def State.recordTail (s : State) (t : Team) (x : Slice) (pc : Nat) : List Byte :=
  let tag := match s.task t.task with | some k => k.tag | none => 0
  let reg := (x.region.getD 0 0).toNat + (x.region.getD 1 0).toNat * 2 ^ 16
  List.flatten [toBytes 8 (pc % 2 ^ 57), toBytes 8 (tag * 2 ^ 32 + reg), toBytes 8 (s.cyc t.core.die)]

/-- A trace record of a slice at depth 0 in the ring's address space, when its kind is enabled (R468). -/
def State.trace (s : State) (u i kind pc : Nat) (ma mb : Mask) (scope aux : Nat) : State :=
  match s.team u with
  | none => s
  | some t =>
    let x := s.sliceOr u i
    let cfg := s.ge 0x22128
    if s.feature 7 ∧ x.depth = 0 ∧ bitAt cfg (44 + kind - 1) ∧ bits cfg 63 48 = s.asidOf u then
      let w0 := kind * 2 ^ 60 + ma.toNat * 2 ^ 56 + mb.toNat * 2 ^ 52 + placeBits t i * 2 ^ 10 + scope * 2 ^ 6 + aux % 64
      s.ringWrite traceRing (toBytes 8 w0 ++ s.recordTail t x pc)
    else s

/-- The stall sample of a slice (R471). -/
def State.sampleRecord (s : State) (u i reason : Nat) (iss : Bool) (pc : Nat) : Option (List Byte) :=
  (s.team u).map (fun t => toBytes 8 (reason * 2 ^ 60 + bit01 iss * 2 ^ 59 + placeBits t i * 2 ^ 10) ++ s.recordTail t (s.sliceOr u i) pc)

/-! ## Region edges (R464) -/

/-- The lowest breakpoint that matches an edge. -/
def State.breakpoint (s : State) (asid id : Nat) (leave : Bool) : Option Nat :=
  (List.range 8).find? (fun i =>
    let v := s.ge (0x22000 + 8 * i)
    bitAt v 63 && bits v 47 32 == asid && bitAt v (if leave then 62 else 61) && (bits v 15 0 == 0 || bits v 15 0 == id))

/-- A completed ENTER or LEAVE makes BKPT due where a breakpoint or a step matches (R464). -/
def State.regionEdge (s : State) (u i pc id : Nat) (leave : Bool) : State :=
  let asid := s.asidOf u
  let masked : Bool := match s.team u with | some t => t.trapMask.getLsbD 18 | none => true
  if masked ∨ (s.sliceOr u i).depth ≠ 0 then s
  else
    let aux := id * 2 ^ 16 + bit01 leave * 2 ^ 15
    let step := bitAt (s.ge 0x22040) 0 && bits (s.ge 0x22040) 47 32 == asid
    match s.breakpoint asid id leave with
    | some b => s.modSlice u i (fun x => { x with pend := x.pend ++ [{ kind := 18, cause := 2, aux := aux + b, amask := x.act, fpc := some pc }] })
    | none => if step then s.modSlice u i (fun x => { x with pend := x.pend ++ [{ kind := 18, cause := 3, aux := aux, amask := x.act, fpc := some pc }] }) else s

/-! ## Watches (R466) -/

/-- The lowest watch that matches an address; `kinds` are the bits of WR (2) and WW (1) that the access satisfies. -/
def State.watchHit (s : State) (asid ea kinds : Nat) : Option Nat :=
  (List.range 4).find? (fun i =>
    let base := bits (s.ge (0x22080 + 16 * i)) 56 0
    let c := s.ge (0x22088 + 16 * i)
    let log := bits c 5 0
    bitAt c 63 && bits c 47 32 == asid && bits c 62 61 &&& kinds != 0 && decide (3 ≤ log) && decide (log ≤ 32) && decide (base ≤ ea) && decide (ea < base + 2 ^ log))

/-- Make WATCH due after an access (R466): the addresses of the acting lanes in rising order. -/
def State.watch (s : State) (u i pc kinds : Nat) (amask : Mask) (eas : List Nat) : State :=
  let asid := s.asidOf u
  let masked : Bool := match s.team u with | some t => t.trapMask.getLsbD 13 | none => true
  if masked ∨ (s.sliceOr u i).depth ≠ 0 then s
  else
    let hits := eas.filterMap (fun ea => (s.watchHit asid ea kinds).map (fun w => (w, ea)))
    match hits with
    | [] => s
    | _ =>
      let w := (hits.map (·.1)).foldl min 3
      let ea := ((hits.filter (fun p => p.1 == w)).map (·.2)).getD 0 0
      s.modSlice u i (fun x => { x with pend := x.pend ++ [{ kind := 13, cause := w, va := ea, amask := amask, fpc := some pc }] })

/-! ## The lane-cycle record (R469, R470) -/

/-- Add lane slots of a class at a PC. -/
def State.countSlots (s : State) (pc cls n : Nat) : State :=
  match (List.range 16).find? (fun i => decide (bits (s.ge (0x22400 + 16 * i)) 56 0 ≤ pc) && decide (pc < bits (s.ge (0x22408 + 16 * i)) 56 0)) with
  | none => s
  | some i => let a := 0x22500 + 40 * i + 8 * cls; s.setGe a (min (s.ge a + n) (2 ^ 64 - 1))

/-- Counting is on for an address space. -/
def State.counting (s : State) (asid : Nat) : Bool := s.feature 7 && bitAt (s.ge 0x22780) 0 && bits (s.ge 0x22780) 63 48 == asid

/-- The slots of a gang that issues, by class: active, masked, predicated off, dead, and positions without a slice (R470).
`acts` is each slice's acting mask. -/
def State.gangSlots (s : State) (u : Nat) (acts : List (Nat × Mask)) : List Nat :=
  let n (f : Slice → Mask → Nat → Bool) : Nat :=
    (acts.map (fun p => ((List.range 4).filter (fun l => f (s.sliceOr u p.1) p.2 l)).length)).sum
  [ n (fun x m l => x.live.getLsbD l && x.act.getLsbD l && m.getLsbD l), n (fun x _ l => x.live.getLsbD l && !x.act.getLsbD l),
    n (fun x m l => x.live.getLsbD l && x.act.getLsbD l && !m.getLsbD l), n (fun x _ l => !x.live.getLsbD l), 32 - 4 * acts.length ]

/-- Add the slots of each class at a PC. -/
def State.addSlots (s : State) (pc : Nat) (ns : List Nat) : State :=
  foldS (fun (p : Nat × Nat) s => s.countSlots pc p.2 p.1) (ns.zip (List.range 5)) s

/-- A pipe of a core that issues nothing for n cycles counts them idle at the PC of the oldest slice of LASID (R470). -/
def State.countIdle (s : State) (c : CoreId) (n : Nat) : State :=
  let ts := s.teams.filter (fun p => p.2.core == c && p.2.status == .resident && !p.2.slices.isEmpty && s.counting (s.asidOf p.1))
  match ts with
  | [] => s
  | t :: rest =>
    let o := rest.foldl (fun (a : Nat × Team) b => if b.2.age < a.2.age then b else a) t
    match o.2.slices with
    | (_, x) :: _ => s.countSlots x.pc 4 (32 * n)
    | [] => s

end Sys2Proof.Machine
end

