-- ==== Sys2Proof/Machine/Shape.lean ====
section
/-!
DEFINITION. What each instruction's entry permits and reads: its forms, types, flags and modes, and the kind of its
destination and of each source (R181, R197, R236, R255, R288, R327, R331, R372, R400, R415, R450). The checks of
WellFormed.lean, the operand reads and the register renaming all go by this one table.
-/
namespace Sys2Proof

/-- How the value of a source is formed (R140, R143): a 32-bit or 64-bit value, one 16-bit value taken by its
half-select, one element of n taken after the swizzle, or n packed elements. -/
inductive SrcW where
  | w32 | w64 | half | elem (n : Nat) | packed (n : Nat)
deriving DecidableEq, Repr

/-- A source of an instruction: absent (field 0); a bare field of the entry's own, whose last-read bit is free when
`last`; a literal that the form requires; a v register only (R181); or an operand, with whether it may be special, a
short immediate (R141), and the literal (R137). -/
inductive Src where
  | none
  | field
  | litOnly
  | vreg (w : SrcW)
  | opnd (w : SrcW) (spec imm lit : Bool)
deriving DecidableEq, Repr

/-- The destination: none (D = 0), a field of the entry's own, n registers of 32 or 64 bits (R140, R290), or n k
registers. A `v` destination that is read as data (ST) has `read`. -/
inductive Dst where
  | none
  | field
  | v (wide : Bool) (n : Nat) (read : Bool)
  | k (wide : Bool) (n : Nat)
deriving DecidableEq, Repr

/-- What an entry permits. `ok` gathers the conditions on TYPE, FLAGS, IMM11, RM and the entry's own fields. -/
structure Shape where
  forms : List Len
  ok : Bool
  d : Dst
  a : Src
  b : Src
  c : Src := .none
deriving DecidableEq, Repr

/-- An ordinary operand of a type: any class; a short immediate only where R141 gives it a value. -/
def anyOp (w : SrcW) : Src := .opnd w true true true

/-- An operand to which R141 gives no short immediate. -/
def noImm (w : SrcW) : Src := .opnd w true false true

/-- A base address (R289): a register pair or the literal. -/
def baseOp : Src := .opnd .w64 false false true

/-- A 32-bit operand of class v, k, short immediate or literal (R289, R415). -/
def offsOp : Src := .opnd .w32 false true true

/-- The type in force: TYPE, or the base type for 0 (R147). -/
def tyOf (base : Nat) (x : Ext) : Nat := if x.ty.toNat = 0 then base else x.ty.toNat

/-- The element width of a type code (R147, R221): 8 for .e3m2 and .e2m3, 4 for .e2m1, 32 for .f19. -/
def tyBits (t : Nat) : Nat :=
  match t with
  | 1 | 5 | 9 | 18 | 19 | 20 | 21 => 8
  | 2 | 6 | 10 | 16 | 17 => 16
  | 4 | 8 | 12 | 13 => 64
  | 22 => 4
  | _ => 32

/-- The source form of an integer type: packed for 8 and 16 bits (R199). -/
def intW (t : Nat) : SrcW :=
  match tyBits t with
  | 8 => .packed 4
  | 16 => .packed 2
  | 64 => .w64
  | _ => .w32

/-- One value of a type (R143, R256). -/
def oneW (t : Nat) : SrcW :=
  match tyBits t with
  | 4 => .elem 8
  | 8 => .elem 4
  | 16 => .half
  | 64 => .w64
  | _ => .w32

/-- Whether R141 gives a short immediate of this type a value. -/
def immTy (t : Nat) : Bool := t ≤ 14 || t == 16 || t == 17

/-- An operand of a type read by a form. -/
def tyOp (w : SrcW) (t : Nat) : Src := .opnd w true (immTy t) true

def allForms : List Len := [.l00, .l01, .l10, .l11]
def shortForms : List Len := [.l00, .l01]
def extForms : List Len := [.l01, .l11]

/-- TYPE is 0 or in the list. -/
def tyIn (x : Ext) (l : List Nat) : Bool := x.ty.toNat == 0 || l.contains x.ty.toNat

/-- Only the bits of a mask are set. -/
def onlyBits (v mask : Nat) : Bool := v % 2048 == v &&& mask

/-- RM = 0b000 (R146). -/
def rm0 (x : Ext) : Bool := x.rm == 0

/-- RM any code but the reserved one (R146). -/
def rmAll (x : Ext) : Bool := x.rm != 7

/-- No flags, no IMM11. -/
def noFl (x : Ext) : Bool := x.scope == 0 && x.imm == 0

/-- TYPE, RM, SCOPE and IMM11 all 0. -/
def bare (x : Ext) : Bool := x.ty == 0 && rm0 x && noFl x

/-- The destination of a value of a type: one register or a pair. -/
def vDst (t : Nat) : Dst := .v (tyBits t == 64) 1 false

/-- The combination field of ICMP, FCMP and DCMP (R212): bits [4:0], and qC 0 where nothing is combined. -/
def combineOk (x : Ext) : Bool := onlyBits x.imm.toNat 0x1F && (bits x.imm.toNat 4 3 != 0 || bits x.imm.toNat 2 0 == 0)

/-- The element count of R290's VN. -/
def vnCount (x : Ext) : Nat := match bits x.imm.toNat 7 6 with | 0 => 1 | 1 => 2 | _ => 4

/-- The address fields of R290: reserved bits, and IUN and SC only with an index. -/
def addrOk (x : Ext) : Bool :=
  let i := x.imm.toNat
  onlyBits i 0xFF && bits i 7 6 != 3 && decide (bits i 2 0 ≤ 4) && (bitAt i 3 || (!bitAt i 4 && bits i 2 0 == 0))

/-- The index of R290. -/
def idxSrc (x : Ext) : Src := if bitAt x.imm.toNat 3 then .opnd .w32 false true false else .none

/-- The offset of R290 (IMM11[5]) and R295 (IMM11[6]). -/
def offSrc (x : Ext) (bit : Nat) : Src := if bitAt x.imm.toNat bit then offsOp else .none

/-- The types of an atomic operation (R296). -/
def atomTypes (opc : Nat) : List Nat :=
  match opc with
  | 0 | 1 | 2 => [7, 11, 8, 12, 14]
  | 3 | 4 | 5 | 6 | 7 => [3, 4]
  | 8 | 9 => [11]
  | _ => []

/-- The shape common to ATOM and RED (R288, R295). -/
def atomShape (x : Ext) (red : Bool) : Shape :=
  let i := x.imm.toNat
  let t := tyOf 11 x
  let opc := bits i 3 0
  { forms := allForms
    ok := onlyBits i 0x7F && (atomTypes opc).contains t && x.scope != 1 && decide (x.scope.toNat ≤ 6) &&
      (if t = 14 then rmAll x else rm0 x) &&
      (!red || (opc != 6 && opc != 7 && (bits i 5 4 == 0 || bits i 5 4 == 2)))
    d := if red then .none else vDst t
    a := baseOp, b := anyOp (if tyBits t = 64 then .w64 else .w32), c := offSrc x 6 }

/-- The types of XRED and XSCAN's operations (R267). -/
def redTypes (op : Nat) : List Nat :=
  match op with
  | 0 | 1 | 2 => [7, 11]
  | 3 | 4 | 5 => [3]
  | 8 | 9 | 10 => [14]
  | _ => []

def redOk (x : Ext) (immMask : Nat) : Bool :=
  (redTypes x.scope.toNat).contains (tyOf 7 x) && (if x.scope = 8 then rmAll x else rm0 x) &&
    onlyBits x.imm.toNat immMask && decide (bits x.imm.toNat 2 0 ≤ 5)

/-- A two-source or one-source integer or float instruction: types, FLAGS mask, RM rule, one operand form. -/
def arith (forms : List Len) (x : Ext) (tys : List Nat) (flags : Nat) (rm : Bool) (d : Dst) (a b : Src)
    (c : Src := .none) : Shape :=
  { forms := forms, ok := tyIn x tys && onlyBits x.scope.toNat flags && x.imm == 0 && rm, d := d, a := a, b := b, c := c }

/-- The scope codes a barrier instruction permits, and the index rule (R372). -/
def barScopeOk (x : Ext) : Bool :=
  x.ty == 0 && rm0 x && x.scope != 1 && decide (x.scope.toNat ≤ 6) &&
    (if x.scope = 0 || x.scope = 2 then decide (x.b.toNat ≤ 15) else x.b == 0)

/-- The permitted types and operand widths of the number formats that FDOT and XDOT take. -/
def dotN (t : Nat) : Nat := if tyBits t = 16 then 2 else 4

/-- The entry of each operation, given its length and its fields. -/
def shapeOf (op : Op) (l : Len) (x : Ext) : Shape :=
  let i := x.imm.toNat
  let fl := x.scope.toNat
  let isLit := l == .l10 || l == .l11
  match op with
  -- control (R181)
  | .nop | .exit | .kill | .yield | .drainst | .gkill | .trigger | .seqend =>
    { forms := shortForms, ok := bare x, d := .none, a := .none, b := .none }
  | .bra =>
    { forms := allForms, ok := x.ty == 0 && rm0 x && x.scope == 0, d := if isLit then .none else .field,
      a := if isLit then .none else .field, b := if isLit then .litOnly else .field }
  | .brx => { forms := shortForms, ok := bare x, d := .field, a := .vreg .w64, b := .field }
  | .call =>
    { forms := allForms, ok := bare x, d := .v true 1 false, a := if isLit then .none else .field,
      b := if isLit then .litOnly else .field }
  | .callx => { forms := shortForms, ok := bare x && decide (x.b.toNat ≤ 7), d := .v true 1 false, a := .vreg .w64, b := .field }
  | .ret => { forms := shortForms, ok := bare x, d := .none, a := .vreg .w64, b := .none }
  | .enter | .leave =>
    { forms := shortForms, ok := bare x && x.pidx == 7 && !x.pneg && decide (x.d.toNat ≤ 3), d := .field, a := .field, b := .field }
  | .plop =>
    { forms := shortForms, ok := bare x && decide (x.a.toNat ≤ 7) && decide (x.b.toNat ≤ 7), d := .field, a := .field, b := .field }
  | .smov =>
    { forms := shortForms
      ok := tyIn x [3, 4] && rm0 x && noFl x && (decide (x.a.toNat ≤ 0x0D) || (decide (0x20 ≤ x.a.toNat) && decide (x.a.toNat ≤ 0x24)))
      d := vDst (tyOf 3 x), a := .field, b := if x.a = 0x22 then .opnd .w32 false true false else .none }
  | .sset =>
    { forms := shortForms
      ok := rm0 x && noFl x && ((x.d == 0x20 && x.ty == 4) || (x.d == 0x21 && (x.ty == 0 || x.ty == 3)))
      d := .field, a := .vreg (if x.ty = 4 then .w64 else .w32), b := .none }
  | .trap | .bkpt => { forms := shortForms, ok := bare x, d := .none, a := .field, b := .field }
  | .rett => { forms := [.l00], ok := decide (x.d.toNat ≤ 1), d := .field, a := .none, b := .none }
  | .rrchk => { forms := shortForms, ok := bare x, d := .v true 1 false, a := .none, b := .none }
  -- integer (R197)
  | .mov => arith allForms x [3, 4] 0 (rm0 x) (vDst (tyOf 3 x)) .none (anyOp (intW (tyOf 3 x)))
  | .kmov => arith allForms x [3, 4] 0 (rm0 x) (.k (x.ty == 4) 1) .none (anyOp (intW (tyOf 3 x)))
  | .iadd | .isub =>
    let t := tyOf 7 x
    let s := arith allForms x [7, 11, 3, 6, 10, 2, 5, 9, 1] 1 (rm0 x) (vDst t) (anyOp (intW t)) (anyOp (intW t))
    { s with ok := s.ok && !(bitAt fl 0 && decide (t ≤ 4)) }
  | .iaddc | .isubb =>
    { forms := allForms
      ok := tyIn x [11, 3] && rm0 x && x.scope == 0 && onlyBits i 0x7F && (!bitAt i 6 || bits i 2 0 == 0)
      d := .v false 1 false, a := anyOp .w32, b := anyOp .w32 }
  | .iadd64 =>
    let s := arith allForms x [8, 12, 4] 1 (rm0 x) (.v true 1 false) (anyOp .w64) (anyOp .w64)
    { s with ok := s.ok && !(bitAt fl 0 && x.ty == 4) }
  | .imul => arith allForms x [7, 11, 3, 6, 10, 2] 0 (rm0 x) (vDst (tyOf 7 x)) (anyOp (intW (tyOf 7 x))) (anyOp (intW (tyOf 7 x)))
  | .imulh => arith allForms x [7, 11] 0 (rm0 x) (.v false 1 false) (anyOp .w32) (anyOp .w32)
  | .imad => arith extForms x [7, 11, 3] 0 (rm0 x) (.v false 1 false) (anyOp .w32) (anyOp .w32) (anyOp .w32)
  | .imad64 => arith extForms x [7, 11] 0 (rm0 x) (.v true 1 false) (anyOp .w32) (anyOp .w32) (anyOp .w64)
  | .imin | .imax =>
    arith allForms x [7, 11, 6, 10, 5, 9, 8, 12] 0 (rm0 x) (vDst (tyOf 7 x)) (anyOp (intW (tyOf 7 x))) (anyOp (intW (tyOf 7 x)))
  | .iabs => arith shortForms x [7, 6, 5, 8] 1 (rm0 x) (vDst (tyOf 7 x)) (anyOp (intW (tyOf 7 x))) .none
  | .and | .or | .xor | .andn =>
    arith allForms x [3, 4] 0 (rm0 x) (vDst (tyOf 3 x)) (anyOp (intW (tyOf 3 x))) (anyOp (intW (tyOf 3 x)))
  | .shl | .shr | .sar =>
    let t := if op = .sar then tyOf 7 x else tyOf 3 x
    arith allForms x (if op = .sar then [7, 6, 5, 8] else [3, 2, 1, 4]) 0 (rm0 x) (vDst t) (anyOp (intW t))
      (anyOp (if tyBits t = 64 then .w32 else intW t))
  | .shf => arith extForms x [3] 1 (rm0 x) (.v false 1 false) (anyOp .w32) (anyOp .w32) (anyOp .w32)
  | .rot => arith allForms x [3, 4] 1 (rm0 x) (vDst (tyOf 3 x)) (anyOp (intW (tyOf 3 x))) (anyOp .w32)
  | .bfx => arith allForms x [11, 7, 12, 8] 0 (rm0 x) (vDst (tyOf 11 x)) (anyOp (intW (tyOf 11 x))) (anyOp .w32)
  | .bfi =>
    arith extForms x [3, 4] 0 (rm0 x) (vDst (tyOf 3 x)) (anyOp (intW (tyOf 3 x))) (anyOp (intW (tyOf 3 x))) (anyOp .w32)
  | .popc | .clz => arith shortForms x [3, 4] 0 (rm0 x) (.v false 1 false) (anyOp (intW (tyOf 3 x))) .none
  | .brev => arith shortForms x [3, 4] 0 (rm0 x) (vDst (tyOf 3 x)) (anyOp (intW (tyOf 3 x))) .none
  | .perm => arith extForms x [3] 0 (rm0 x) (.v false 1 false) (anyOp .w32) (anyOp .w32) (anyOp .w32)
  | .icmp =>
    let t := tyOf 7 x
    let cond := x.d.toNat / 8
    { forms := allForms
      ok := tyIn x [7, 11, 3, 8, 12, 4] && rm0 x && x.scope == 0 && combineOk x && decide (cond ≤ 7) &&
        !(decide (2 ≤ cond) && decide (cond ≤ 5) && decide (t ≤ 4))
      d := .field, a := anyOp (intW t), b := anyOp (intW t) }
  | .isel =>
    { forms := allForms, ok := tyIn x [3, 4] && rm0 x && x.scope == 0 && onlyBits i 7, d := vDst (tyOf 3 x),
      a := anyOp (intW (tyOf 3 x)), b := anyOp (intW (tyOf 3 x)) }
  | .lea =>
    { forms := extForms
      ok := tyIn x [7, 11] && rm0 x && x.scope == 0 && onlyBits i 0xF && decide (bits i 2 0 ≤ 4) && (!bitAt i 3 || bits i 2 0 == 0)
      d := .v true 1 false, a := .opnd .w64 false false false
      b := if bitAt i 3 then .none else .opnd .w32 false true false, c := offsOp }
  -- fences and barriers (R372)
  | .fence =>
    { forms := shortForms, ok := x.ty == 0 && rm0 x && x.imm == 0 && decide (fl ≤ 6) && decide (x.d.toNat ≤ 7), d := .field,
      a := .none, b := .none }
  | .bar => { forms := shortForms, ok := barScopeOk x && onlyBits i 1, d := .none, a := .none, b := .field }
  | .bara => { forms := shortForms, ok := barScopeOk x && onlyBits i 1, d := .v false 1 false, a := .none, b := .field }
  | .barw => { forms := shortForms, ok := barScopeOk x && x.imm == 0, d := .none, a := .opnd .w32 false true false, b := .field }
  | .barinit => { forms := [.l00, .l01, .l11], ok := barScopeOk x && x.imm == 0, d := .none, a := offsOp, b := .field }
  | .splice => { forms := [.l00, .l01, .l11], ok := x.ty == 0 && rmAll x && noFl x && !x.la, d := .none, a := offsOp, b := .none }
  | .fork => { forms := extForms, ok := x.ty == 0 && rm0 x && x.imm == 0 && decide (fl ≤ 1), d := .none, a := offsOp, b := .none }
  | .rdv =>
    { forms := [.l01], ok := x.ty == 0 && rm0 x && x.imm == 0 && decide (1 ≤ fl) && decide (fl ≤ 3), d := .v false 1 false,
      a := .none, b := .none }
  -- floating point (R236)
  | .fadd | .fsub | .fmul => arith allForms x [14, 15] 0 (rmAll x) (.v false 1 false) (tyOp .w32 (tyOf 14 x)) (tyOp .w32 (tyOf 14 x))
  | .ffma =>
    arith extForms x [14, 15] 0 (rmAll x) (.v false 1 false) (tyOp .w32 (tyOf 14 x)) (tyOp .w32 (tyOf 14 x)) (tyOp .w32 (tyOf 14 x))
  | .fmin | .fmax => arith allForms x [14] 0 (rm0 x) (.v false 1 false) (anyOp .w32) (anyOp .w32)
  | .fcmp =>
    { forms := allForms, ok := tyIn x [14, 17, 16] && rm0 x && x.scope == 0 && combineOk x && decide (x.d.toNat / 8 ≤ 13),
      d := .field, a := anyOp (oneW (tyOf 14 x)), b := anyOp (oneW (tyOf 14 x)) }
  | .fclass =>
    { forms := shortForms
      ok := tyIn x [14, 13, 17, 16] && rm0 x && x.imm == 0 && decide (fl ≤ 3) && fl != 2 && (!bitAt fl 0 || x.ty == 0)
      d := .v false 1 false, a := if bitAt fl 0 then .none else anyOp (oneW (tyOf 14 x)), b := .none }
  | .fscale => arith allForms x [14] 0 (rmAll x) (.v false 1 false) (anyOp .w32) (anyOp .w32)
  | .frcp | .frsq | .fexp2 | .flog2 | .fsin | .fcos =>
    arith shortForms x [14] 0 (rm0 x) (.v false 1 false) (anyOp .w32) .none
  | .fsqrt => arith shortForms x [14, 13] 0 (rmAll x) (vDst (tyOf 14 x)) (anyOp (oneW (tyOf 14 x))) .none
  | .fdiv => arith allForms x [14, 13] 0 (rmAll x) (vDst (tyOf 14 x)) (anyOp (oneW (tyOf 14 x))) (anyOp (oneW (tyOf 14 x)))
  | .dadd | .dmul => arith allForms x [13] 0 (rmAll x) (.v true 1 false) (anyOp .w64) (anyOp .w64)
  | .dfma => arith extForms x [13] 0 (rmAll x) (.v true 1 false) (anyOp .w64) (anyOp .w64) (anyOp .w64)
  | .dcmp =>
    { forms := allForms, ok := tyIn x [13] && rm0 x && x.scope == 0 && combineOk x && decide (x.d.toNat / 8 ≤ 13), d := .field,
      a := anyOp .w64, b := anyOp .w64 }
  | .hadd2 | .hmul2 => arith allForms x [17, 16] 0 (rmAll x) (.v false 1 false) (anyOp (.packed 2)) (anyOp (.packed 2))
  | .hfma2 => arith extForms x [17, 16] 0 (rmAll x) (.v false 1 false) (anyOp (.packed 2)) (anyOp (.packed 2)) (anyOp (.packed 2))
  | .hmin2 | .hmax2 => arith allForms x [17, 16] 0 (rm0 x) (.v false 1 false) (anyOp (.packed 2)) (anyOp (.packed 2))
  | .fdot =>
    let t := tyOf 17 x
    arith extForms x [17, 16, 18, 19] 0 (rmAll x) (.v false 1 false) (tyOp (.packed (dotN t)) t) (tyOp (.packed (dotN t)) t) (anyOp .w32)
  -- conversion and cross-lane (R255)
  | .cvt =>
    let t := tyOf 14 x
    let s := bits i 4 0
    { forms := extForms
      ok := (x.ty == 0 || (decide (5 ≤ t) && decide (t ≤ 22))) && rmAll x && x.scope == 0 && onlyBits i 0x1FF && decide (5 ≤ s) &&
        decide (s ≤ 22) && (if tyBits t < 32 then decide (bits i 7 5 < 32 / tyBits t) else bits i 7 5 == 0)
      d := vDst t, a := tyOp (oneW s) s, b := .none }
  | .cvtpk =>
    let t := tyOf 17 x
    { forms := allForms
      ok := tyIn x [17, 16, 18, 19, 20, 21, 22] && rmAll x && x.scope == 0 && onlyBits i 0xF && decide (bits i 2 0 < 16 / tyBits t)
      d := .v false 1 false, a := anyOp .w32, b := anyOp .w32 }
  | .qblk =>
    { forms := [.l01], ok := decide (0x11 ≤ x.ty.toNat) && decide (x.ty.toNat ≤ 0x18) && rmAll x && noFl x, d := .v false 1 false,
      a := anyOp .w32, b := .none }
  | .dqblk =>
    { forms := extForms, ok := decide (0x11 ≤ x.ty.toNat) && decide (x.ty.toNat ≤ 0x18) && rmAll x && noFl x, d := .v false 1 false,
      a := anyOp .w32, b := .none }
  | .vqdec =>
    { forms := allForms
      ok := tyIn x [17, 16, 14] && rmAll x && x.scope == 0 && onlyBits i (if tyOf 17 x = 14 then 7 else 3)
      d := .v false 1 false, a := anyOp .half, b := anyOp .half }
  | .exphist =>
    let t := tyOf 14 x
    arith allForms x [14, 13, 17, 16] 0 (rm0 x) .none (anyOp (match tyBits t with | 16 => .packed 2 | 64 => .w64 | _ => .w32))
      (.opnd .w64 false true true)
  | .srseed => arith allForms x [4] 0 (rm0 x) .none .none (.opnd .w64 false false true)
  | .xshf =>
    { forms := allForms, ok := tyIn x [3, 4] && rm0 x && decide (fl ≤ 3) && decide (i ≤ 5), d := vDst (tyOf 3 x),
      a := anyOp (intW (tyOf 3 x)), b := anyOp .w32 }
  | .xbcast =>
    { forms := allForms, ok := tyIn x [3, 4] && rm0 x && decide (fl ≤ 1) && x.imm == 0, d := vDst (tyOf 3 x),
      a := anyOp (intW (tyOf 3 x)), b := if fl = 1 then .none else anyOp .w32 }
  | .xred => { forms := shortForms, ok := redOk x 7, d := .v false 1 false, a := anyOp .w32, b := .none }
  | .xscan => { forms := shortForms, ok := redOk x 0xF, d := .v false 1 false, a := anyOp .w32, b := .none }
  | .xdot =>
    let t := tyOf 17 x
    { forms := extForms, ok := tyIn x [17, 16, 18, 19] && rmAll x && x.scope == 0 && decide (i ≤ 5), d := .v false 1 false,
      a := tyOp (.packed (dotN t)) t, b := tyOp (.packed (dotN t)) t, c := anyOp .w32 }
  | .xvote =>
    { forms := shortForms
      ok := x.ty == 0 && rm0 x && x.imm == 0 && decide (fl ≤ 7) && decide (x.a.toNat ≤ 7) && (fl % 4 == 3 || decide (x.d.toNat ≤ 7))
      d := if fl % 4 = 3 then .v false 1 false else .field, a := .field, b := .none }
  | .xmatch => arith shortForms x [3, 4] 0 (rm0 x) (.v false 1 false) (anyOp (intW (tyOf 3 x))) .none
  -- memory (R288)
  | .ld =>
    { forms := [.l00, .l01, .l11]
      ok := tyIn x [1, 2, 3, 4, 5, 6, 9, 10] && rm0 x && decide (fl ≤ 1) && addrOk x &&
        (vnCount x == 1 || tyOf 3 x == 3 || (tyOf 3 x == 4 && vnCount x == 2))
      d := .v (tyOf 3 x == 4) (vnCount x) false, a := baseOp, b := idxSrc x, c := offSrc x 5 }
  | .st =>
    { forms := [.l00, .l01, .l11]
      ok := tyIn x [1, 2, 3, 4] && rm0 x && decide (fl ≤ 1) && addrOk x &&
        (vnCount x == 1 || tyOf 3 x == 3 || (tyOf 3 x == 4 && vnCount x == 2))
      d := .v (tyOf 3 x == 4) (vnCount x) true, a := baseOp, b := idxSrc x, c := offSrc x 5 }
  | .ldk =>
    { forms := [.l00, .l01, .l11]
      ok := tyIn x [3, 4] && rm0 x && decide (fl ≤ 1) && addrOk x && !(tyOf 3 x == 4 && vnCount x == 4)
      d := .k (tyOf 3 x == 4) (vnCount x), a := if fl = 1 then .none else baseOp, b := idxSrc x, c := offSrc x 5 }
  | .atom => atomShape x false
  | .red => atomShape x true
  | .pref =>
    { forms := [.l00, .l01, .l11]
      ok := x.ty == 0 && rm0 x && x.scope == 0 && addrOk x && vnCount x == 1 && decide (x.d.toNat ≤ 1)
      d := .field, a := baseOp, b := idxSrc x, c := offSrc x 5 }
  | .cflush | .cinv =>
    { forms := [.l00, .l01, .l11], ok := x.ty == 0 && rm0 x && x.scope == 0 && addrOk x && vnCount x == 1, d := .none, a := baseOp,
      b := idxSrc x, c := offSrc x 5 }
  | .acp16 =>
    { forms := extForms, ok := x.ty == 0 && rm0 x && x.scope == 0 && decide (i ≤ 16), d := .none, a := baseOp, b := offsOp, c := offsOp }
  | .tcopy | .tdump | .awinit => { forms := [.l00, .l01, .l11], ok := bare x, d := .none, a := offsOp, b := .none }
  | .awexp | .await => { forms := allForms, ok := bare x, d := .v false 1 false, a := offsOp, b := anyOp .w32 }
  | .awtest => { forms := allForms, ok := bare x && decide (x.d.toNat ≤ 7), d := .field, a := offsOp, b := anyOp .w32 }
  -- launching (R81)
  | .launch => { forms := shortForms, ok := bare x, d := .v true 1 false, a := .vreg .w64, b := .none }
  | .nwait => { forms := shortForms, ok := bare x && decide (x.b.toNat ≤ 1), d := .v false 1 false, a := .vreg .w64, b := .field }
  -- hitches (R415)
  | .hinit => { forms := extForms, ok := bare x, d := .v true 1 false, a := baseOp, b := .none }
  | .hjoin => { forms := extForms, ok := bare x, d := .v true 1 false, a := baseOp, b := offsOp }
  | .hcontrib => { forms := extForms, ok := bare x, d := .v true 1 false, a := baseOp, b := baseOp, c := offsOp }
  | .hwait => { forms := extForms, ok := bare x, d := .v false 1 false, a := baseOp, b := offsOp }
  | .hquery =>
    { forms := extForms, ok := x.ty == 0 && rm0 x && x.scope == 0 && decide (i ≤ 4), d := .v false 1 false, a := baseOp, b := offsOp }
  -- the matrix group (R331)
  | .tcfg => { forms := extForms, ok := bare x && decide (x.d.toNat ≤ 15), d := .field, a := .opnd .w32 false true true, b := .none }
  | .tld =>
    { forms := extForms, ok := x.ty == 0 && rm0 x && decide (fl ≤ 1) && decide (i ≤ 256) && decide (x.d.toNat ≤ 15) && decide (x.c.toNat ≤ 31),
      d := .field, a := baseOp, b := .opnd .w64 false true true, c := .field }
  | .tst =>
    { forms := extForms, ok := bare x && decide (x.d.toNat ≤ 15) && decide (x.c.toNat ≤ 31), d := .field, a := baseOp,
      b := .opnd .w64 false true true, c := .field }
  | .tzero =>
    { forms := extForms
      ok := x.ty == 0 && rm0 x && x.imm == 0 && decide (fl ≤ 1) && decide (x.d.toNat ≤ (if fl = 1 then 3 else 15)), d := .field
      a := if fl = 1 then .opnd .w32 false true true else .none, b := .none }
  | .mma | .mmav | .olapply =>
    { forms := extForms
      ok := x.ty == 0 && rmAll x && noFl x && decide (x.d.toNat ≤ 3) && decide (x.a.toNat ≤ 15) && decide (x.b.toNat ≤ 15)
      d := .field, a := .field, b := .field }
  | .cbld => { forms := extForms, ok := bare x, d := .none, a := baseOp, b := .none }
  | .aprom =>
    { forms := extForms, ok := x.ty == 0 && rm0 x && x.imm == 0 && decide (fl ≤ 3) && decide (x.d.toNat ≤ 3), d := .field, a := .none, b := .none }
  | .aout =>
    { forms := extForms, ok := x.ty == 0 && rmAll x && noFl x && decide (x.d.toNat ≤ 15) && decide (x.a.toNat ≤ 3), d := .field, a := .field,
      b := .opnd .w32 false true true }
  | .asav | .arst | .ahist => { forms := extForms, ok := bare x && decide (x.d.toNat ≤ 3), d := .field, a := baseOp, b := .none }
  | .stest => { forms := extForms, ok := bare x, d := .v false 1 false, a := .none, b := .none }

end Sys2Proof
end

