-- ==== Sys2Proof/WellFormed.lean ====
section
/-!
DEFINITION. Which instructions are legal on which engine: steps 4 and 5 of R151 with the operand rules R137 to R148,
read off the shape table; and the well-formedness of an instruction.
-/
namespace Sys2Proof

/-- The primary opcode, secondary opcode and engines (G, M, C) of a mnemonic (R149, R150). -/
def Op.enc : Op → Nat × Nat × Bool × Bool × Bool
  | .nop => (0x0, 0, true, true, true)
  | .bra => (0x1, 0, true, true, true)
  | .brx => (0x2, 0, true, true, true)
  | .call => (0x3, 0, true, true, true)
  | .callx => (0x4, 0, true, true, true)
  | .ret => (0x5, 0, true, true, true)
  | .exit => (0x6, 0, true, true, true)
  | .kill => (0x7, 0, true, true, true)
  | .yield => (0x8, 0, true, true, true)
  | .enter => (0x9, 0, true, true, true)
  | .leave => (0xa, 0, true, true, true)
  | .plop => (0xb, 0, true, true, true)
  | .smov => (0xc, 0, true, true, true)
  | .sset => (0xd, 0, true, true, true)
  | .trap => (0xe, 0, true, false, false)
  | .rett => (0xf, 0, true, false, false)
  | .drainst => (0x10, 0, true, false, false)
  | .gkill => (0x11, 0, true, false, false)
  | .bkpt => (0x12, 0, true, false, false)
  | .rrchk => (0x13, 0, true, false, false)
  | .trigger => (0x14, 0, true, false, false)
  | .seqend => (0x15, 0, false, true, true)
  | .mov => (0x18, 0, true, true, true)
  | .kmov => (0x19, 0, true, false, false)
  | .iadd => (0x1a, 0, true, true, true)
  | .isub => (0x1b, 0, true, true, true)
  | .iaddc => (0x1c, 0, true, true, true)
  | .isubb => (0x1d, 0, true, true, true)
  | .iadd64 => (0x1e, 0, true, true, true)
  | .imul => (0x1f, 0, true, true, true)
  | .imulh => (0x20, 0, true, true, true)
  | .imad => (0x21, 0, true, true, true)
  | .imad64 => (0x22, 0, true, true, true)
  | .imin => (0x23, 0, true, true, true)
  | .imax => (0x24, 0, true, true, true)
  | .iabs => (0x25, 0, true, true, true)
  | .and => (0x26, 0, true, true, true)
  | .or => (0x27, 0, true, true, true)
  | .xor => (0x28, 0, true, true, true)
  | .andn => (0x29, 0, true, true, true)
  | .shl => (0x2a, 0, true, true, true)
  | .shr => (0x2b, 0, true, true, true)
  | .sar => (0x2c, 0, true, true, true)
  | .shf => (0x2d, 0, true, true, true)
  | .rot => (0x2e, 0, true, true, true)
  | .bfx => (0x2f, 0, true, true, true)
  | .bfi => (0x30, 0, true, true, true)
  | .popc => (0x31, 0, true, true, true)
  | .clz => (0x32, 0, true, true, true)
  | .brev => (0x33, 0, true, true, true)
  | .perm => (0x34, 0, true, true, true)
  | .icmp => (0x35, 0, true, true, true)
  | .isel => (0x36, 0, true, true, true)
  | .lea => (0x37, 0, true, true, true)
  | .fence => (0x38, 0, true, true, true)
  | .bar => (0x39, 0, true, false, false)
  | .bara => (0x3a, 0, true, false, false)
  | .barw => (0x3b, 0, true, false, false)
  | .barinit => (0x3c, 0, true, false, false)
  | .splice => (0x3d, 0, true, false, false)
  | .fork => (0x3e, 0, true, false, false)
  | .rdv => (0x3f, 0, true, false, false)
  | .fadd => (0x40, 0, true, false, false)
  | .fsub => (0x41, 0, true, false, false)
  | .fmul => (0x42, 0, true, false, false)
  | .ffma => (0x43, 0, true, false, false)
  | .fmin => (0x44, 0, true, false, false)
  | .fmax => (0x45, 0, true, false, false)
  | .fcmp => (0x46, 0, true, false, false)
  | .fclass => (0x47, 0, true, false, false)
  | .fscale => (0x48, 0, true, false, false)
  | .frcp => (0x49, 0, true, false, false)
  | .frsq => (0x4a, 0, true, false, false)
  | .fsqrt => (0x4b, 0, true, false, false)
  | .fdiv => (0x4c, 0, true, false, false)
  | .fexp2 => (0x4d, 0, true, false, false)
  | .flog2 => (0x4e, 0, true, false, false)
  | .fsin => (0x4f, 0, true, false, false)
  | .fcos => (0x50, 0, true, false, false)
  | .dadd => (0x51, 0, true, false, false)
  | .dmul => (0x52, 0, true, false, false)
  | .dfma => (0x53, 0, true, false, false)
  | .dcmp => (0x54, 0, true, false, false)
  | .hadd2 => (0x55, 0, true, false, false)
  | .hmul2 => (0x56, 0, true, false, false)
  | .hfma2 => (0x57, 0, true, false, false)
  | .hmin2 => (0x58, 0, true, false, false)
  | .hmax2 => (0x59, 0, true, false, false)
  | .fdot => (0x5a, 0, true, false, false)
  | .cvt => (0x5c, 0, true, false, false)
  | .cvtpk => (0x5d, 0, true, false, false)
  | .qblk => (0x5e, 0, true, false, false)
  | .dqblk => (0x5f, 0, true, false, false)
  | .vqdec => (0x60, 0, true, false, false)
  | .exphist => (0x61, 0, true, false, false)
  | .srseed => (0x62, 0, true, false, false)
  | .xshf => (0x63, 0, true, false, false)
  | .xbcast => (0x64, 0, true, false, false)
  | .xred => (0x65, 0, true, false, false)
  | .xscan => (0x66, 0, true, false, false)
  | .xdot => (0x67, 0, true, false, false)
  | .xvote => (0x68, 0, true, false, false)
  | .xmatch => (0x69, 0, true, false, false)
  | .ld => (0x6a, 0, true, true, true)
  | .st => (0x6b, 0, true, true, true)
  | .ldk => (0x6c, 0, true, false, false)
  | .atom => (0x6d, 0, true, false, true)
  | .red => (0x6e, 0, true, false, true)
  | .pref => (0x6f, 0, true, false, true)
  | .cflush => (0x70, 0, true, false, true)
  | .cinv => (0x71, 0, true, false, true)
  | .acp16 => (0x72, 0, true, false, false)
  | .tcopy => (0x73, 0, true, false, true)
  | .tdump => (0x74, 0, true, false, true)
  | .awinit => (0x75, 0, true, false, true)
  | .awexp => (0x76, 0, true, false, true)
  | .await => (0x77, 0, true, false, true)
  | .awtest => (0x78, 0, true, false, true)
  | .launch => (0x7c, 0, true, false, false)
  | .nwait => (0x7d, 0, true, false, false)
  | .hinit => (0x7e, 1, true, false, false)
  | .hjoin => (0x7e, 2, true, false, false)
  | .hcontrib => (0x7e, 3, true, false, false)
  | .hwait => (0x7e, 4, true, false, false)
  | .hquery => (0x7e, 5, true, false, false)
  | .tcfg => (0x7f, 1, false, true, false)
  | .tld => (0x7f, 2, false, true, false)
  | .tst => (0x7f, 3, false, true, false)
  | .tzero => (0x7f, 4, false, true, false)
  | .mma => (0x7f, 5, false, true, false)
  | .mmav => (0x7f, 6, false, true, false)
  | .cbld => (0x7f, 7, false, true, false)
  | .olapply => (0x7f, 8, false, true, false)
  | .aprom => (0x7f, 9, false, true, false)
  | .aout => (0x7f, 10, false, true, false)
  | .asav => (0x7f, 11, false, true, false)
  | .arst => (0x7f, 12, false, true, false)
  | .ahist => (0x7f, 13, false, true, false)
  | .stest => (0x7f, 14, false, true, false)

/-- Every mnemonic, in the order of the grid. -/
def Op.all : List Op :=
  List.flatten [
   [.nop, .bra, .brx, .call, .callx, .ret, .exit, .kill, .yield, .enter],
   [.leave, .plop, .smov, .sset, .trap, .rett, .drainst, .gkill, .bkpt, .rrchk],
   [.trigger, .seqend, .mov, .kmov, .iadd, .isub, .iaddc, .isubb, .iadd64, .imul],
   [.imulh, .imad, .imad64, .imin, .imax, .iabs, .and, .or, .xor, .andn],
   [.shl, .shr, .sar, .shf, .rot, .bfx, .bfi, .popc, .clz, .brev],
   [.perm, .icmp, .isel, .lea, .fence, .bar, .bara, .barw, .barinit, .splice],
   [.fork, .rdv, .fadd, .fsub, .fmul, .ffma, .fmin, .fmax, .fcmp, .fclass],
   [.fscale, .frcp, .frsq, .fsqrt, .fdiv, .fexp2, .flog2, .fsin, .fcos, .dadd],
   [.dmul, .dfma, .dcmp, .hadd2, .hmul2, .hfma2, .hmin2, .hmax2, .fdot, .cvt],
   [.cvtpk, .qblk, .dqblk, .vqdec, .exphist, .srseed, .xshf, .xbcast, .xred, .xscan],
   [.xdot, .xvote, .xmatch, .ld, .st, .ldk, .atom, .red, .pref, .cflush],
   [.cinv, .acp16, .tcopy, .tdump, .awinit, .awexp, .await, .awtest, .launch, .nwait],
   [.hinit, .hjoin, .hcontrib, .hwait, .hquery, .tcfg, .tld, .tst, .tzero, .mma],
   [.mmav, .cbld, .olapply, .aprom, .aout, .asav, .arst, .ahist, .stest]]

/-- Whether a mnemonic is legal on an engine (R149, R150). -/
def Op.legalOn (op : Op) (e : Engine) : Bool :=
  match e with
  | .g => op.enc.2.2.1
  | .m => op.enc.2.2.2.1
  | .c => op.enc.2.2.2.2

/-- A base word whose only nonzero field is D. -/
def Base.withD (d : BitVec 7) : Base := { d := d, a := 0, b := 0, la := false, lb := false }

/-- A base-form instruction's raw reading (R136). -/
def Raw.base (op : Op) (b : Base) : Raw := { op := op, len := .l00, x := b.ext }

/-- An extended instruction's raw reading. -/
def Raw.ext (op : Op) (x : Ext) : Raw := { op := op, len := x.form.len, x := x }

/-- The operation, length and fields of an instruction; none for an event. -/
def Instr.raw : Instr → Option Raw
  | .nop b => some (Raw.base .nop b)
  | .nopExt x => some (Raw.ext .nop x)
  | .bra b => some (Raw.base .bra b)
  | .braExt x => some (Raw.ext .bra x)
  | .brx b => some (Raw.base .brx b)
  | .brxExt x => some (Raw.ext .brx x)
  | .call b => some (Raw.base .call b)
  | .callExt x => some (Raw.ext .call x)
  | .callx b => some (Raw.base .callx b)
  | .callxExt x => some (Raw.ext .callx x)
  | .ret b => some (Raw.base .ret b)
  | .retExt x => some (Raw.ext .ret x)
  | .exit b => some (Raw.base .exit b)
  | .exitExt x => some (Raw.ext .exit x)
  | .kill b => some (Raw.base .kill b)
  | .killExt x => some (Raw.ext .kill x)
  | .yield b => some (Raw.base .yield b)
  | .yieldExt x => some (Raw.ext .yield x)
  | .enter b => some (Raw.base .enter b)
  | .enterExt x => some (Raw.ext .enter x)
  | .leave b => some (Raw.base .leave b)
  | .leaveExt x => some (Raw.ext .leave x)
  | .plop b => some (Raw.base .plop b)
  | .plopExt x => some (Raw.ext .plop x)
  | .smov b => some (Raw.base .smov b)
  | .smovExt x => some (Raw.ext .smov x)
  | .sset b => some (Raw.base .sset b)
  | .ssetExt x => some (Raw.ext .sset x)
  | .trap b => some (Raw.base .trap b)
  | .trapExt x => some (Raw.ext .trap x)
  | .rett => some (Raw.base .rett (Base.withD 0))
  | .rettH => some (Raw.base .rett (Base.withD 1))
  | .drainst b => some (Raw.base .drainst b)
  | .drainstExt x => some (Raw.ext .drainst x)
  | .gkill b => some (Raw.base .gkill b)
  | .gkillExt x => some (Raw.ext .gkill x)
  | .bkpt b => some (Raw.base .bkpt b)
  | .bkptExt x => some (Raw.ext .bkpt x)
  | .rrchk b => some (Raw.base .rrchk b)
  | .rrchkExt x => some (Raw.ext .rrchk x)
  | .trigger b => some (Raw.base .trigger b)
  | .triggerExt x => some (Raw.ext .trigger x)
  | .seqend b => some (Raw.base .seqend b)
  | .seqendExt x => some (Raw.ext .seqend x)
  | .mov b => some (Raw.base .mov b)
  | .movExt x => some (Raw.ext .mov x)
  | .kmov b => some (Raw.base .kmov b)
  | .kmovExt x => some (Raw.ext .kmov x)
  | .iadd b => some (Raw.base .iadd b)
  | .iaddExt x => some (Raw.ext .iadd x)
  | .isub b => some (Raw.base .isub b)
  | .isubExt x => some (Raw.ext .isub x)
  | .iaddc b => some (Raw.base .iaddc b)
  | .iaddcExt x => some (Raw.ext .iaddc x)
  | .isubb b => some (Raw.base .isubb b)
  | .isubbExt x => some (Raw.ext .isubb x)
  | .iadd64 b => some (Raw.base .iadd64 b)
  | .iadd64Ext x => some (Raw.ext .iadd64 x)
  | .imul b => some (Raw.base .imul b)
  | .imulExt x => some (Raw.ext .imul x)
  | .imulh b => some (Raw.base .imulh b)
  | .imulhExt x => some (Raw.ext .imulh x)
  | .imad x => some (Raw.ext .imad x)
  | .imad64 x => some (Raw.ext .imad64 x)
  | .imin b => some (Raw.base .imin b)
  | .iminExt x => some (Raw.ext .imin x)
  | .imax b => some (Raw.base .imax b)
  | .imaxExt x => some (Raw.ext .imax x)
  | .iabs b => some (Raw.base .iabs b)
  | .iabsExt x => some (Raw.ext .iabs x)
  | .and b => some (Raw.base .and b)
  | .andExt x => some (Raw.ext .and x)
  | .or b => some (Raw.base .or b)
  | .orExt x => some (Raw.ext .or x)
  | .xor b => some (Raw.base .xor b)
  | .xorExt x => some (Raw.ext .xor x)
  | .andn b => some (Raw.base .andn b)
  | .andnExt x => some (Raw.ext .andn x)
  | .shl b => some (Raw.base .shl b)
  | .shlExt x => some (Raw.ext .shl x)
  | .shr b => some (Raw.base .shr b)
  | .shrExt x => some (Raw.ext .shr x)
  | .sar b => some (Raw.base .sar b)
  | .sarExt x => some (Raw.ext .sar x)
  | .shf x => some (Raw.ext .shf x)
  | .rot b => some (Raw.base .rot b)
  | .rotExt x => some (Raw.ext .rot x)
  | .bfx b => some (Raw.base .bfx b)
  | .bfxExt x => some (Raw.ext .bfx x)
  | .bfi x => some (Raw.ext .bfi x)
  | .popc b => some (Raw.base .popc b)
  | .popcExt x => some (Raw.ext .popc x)
  | .clz b => some (Raw.base .clz b)
  | .clzExt x => some (Raw.ext .clz x)
  | .brev b => some (Raw.base .brev b)
  | .brevExt x => some (Raw.ext .brev x)
  | .perm x => some (Raw.ext .perm x)
  | .icmp b => some (Raw.base .icmp b)
  | .icmpExt x => some (Raw.ext .icmp x)
  | .isel b => some (Raw.base .isel b)
  | .iselExt x => some (Raw.ext .isel x)
  | .lea x => some (Raw.ext .lea x)
  | .fence b => some (Raw.base .fence b)
  | .fenceExt x => some (Raw.ext .fence x)
  | .bar b => some (Raw.base .bar b)
  | .barExt x => some (Raw.ext .bar x)
  | .bara b => some (Raw.base .bara b)
  | .baraExt x => some (Raw.ext .bara x)
  | .barw b => some (Raw.base .barw b)
  | .barwExt x => some (Raw.ext .barw x)
  | .barinit b => some (Raw.base .barinit b)
  | .barinitExt x => some (Raw.ext .barinit x)
  | .splice b => some (Raw.base .splice b)
  | .spliceExt x => some (Raw.ext .splice x)
  | .fork x => some (Raw.ext .fork x)
  | .rdv x => some (Raw.ext .rdv x)
  | .fadd b => some (Raw.base .fadd b)
  | .faddExt x => some (Raw.ext .fadd x)
  | .fsub b => some (Raw.base .fsub b)
  | .fsubExt x => some (Raw.ext .fsub x)
  | .fmul b => some (Raw.base .fmul b)
  | .fmulExt x => some (Raw.ext .fmul x)
  | .ffma x => some (Raw.ext .ffma x)
  | .fmin b => some (Raw.base .fmin b)
  | .fminExt x => some (Raw.ext .fmin x)
  | .fmax b => some (Raw.base .fmax b)
  | .fmaxExt x => some (Raw.ext .fmax x)
  | .fcmp b => some (Raw.base .fcmp b)
  | .fcmpExt x => some (Raw.ext .fcmp x)
  | .fclass b => some (Raw.base .fclass b)
  | .fclassExt x => some (Raw.ext .fclass x)
  | .fclassRdfl x => some (Raw.ext .fclass x)
  | .fscale b => some (Raw.base .fscale b)
  | .fscaleExt x => some (Raw.ext .fscale x)
  | .frcp b => some (Raw.base .frcp b)
  | .frcpExt x => some (Raw.ext .frcp x)
  | .frsq b => some (Raw.base .frsq b)
  | .frsqExt x => some (Raw.ext .frsq x)
  | .fsqrt b => some (Raw.base .fsqrt b)
  | .fsqrtExt x => some (Raw.ext .fsqrt x)
  | .fdiv b => some (Raw.base .fdiv b)
  | .fdivExt x => some (Raw.ext .fdiv x)
  | .fexp2 b => some (Raw.base .fexp2 b)
  | .fexp2Ext x => some (Raw.ext .fexp2 x)
  | .flog2 b => some (Raw.base .flog2 b)
  | .flog2Ext x => some (Raw.ext .flog2 x)
  | .fsin b => some (Raw.base .fsin b)
  | .fsinExt x => some (Raw.ext .fsin x)
  | .fcos b => some (Raw.base .fcos b)
  | .fcosExt x => some (Raw.ext .fcos x)
  | .dadd b => some (Raw.base .dadd b)
  | .daddExt x => some (Raw.ext .dadd x)
  | .dmul b => some (Raw.base .dmul b)
  | .dmulExt x => some (Raw.ext .dmul x)
  | .dfma x => some (Raw.ext .dfma x)
  | .dcmp b => some (Raw.base .dcmp b)
  | .dcmpExt x => some (Raw.ext .dcmp x)
  | .hadd2 b => some (Raw.base .hadd2 b)
  | .hadd2Ext x => some (Raw.ext .hadd2 x)
  | .hmul2 b => some (Raw.base .hmul2 b)
  | .hmul2Ext x => some (Raw.ext .hmul2 x)
  | .hfma2 x => some (Raw.ext .hfma2 x)
  | .hmin2 b => some (Raw.base .hmin2 b)
  | .hmin2Ext x => some (Raw.ext .hmin2 x)
  | .hmax2 b => some (Raw.base .hmax2 b)
  | .hmax2Ext x => some (Raw.ext .hmax2 x)
  | .fdot x => some (Raw.ext .fdot x)
  | .cvt x => some (Raw.ext .cvt x)
  | .cvtpk b => some (Raw.base .cvtpk b)
  | .cvtpkExt x => some (Raw.ext .cvtpk x)
  | .qblk x => some (Raw.ext .qblk x)
  | .dqblk x => some (Raw.ext .dqblk x)
  | .vqdec b => some (Raw.base .vqdec b)
  | .vqdecExt x => some (Raw.ext .vqdec x)
  | .exphist b => some (Raw.base .exphist b)
  | .exphistExt x => some (Raw.ext .exphist x)
  | .srseed b => some (Raw.base .srseed b)
  | .srseedExt x => some (Raw.ext .srseed x)
  | .xshf b => some (Raw.base .xshf b)
  | .xshfExt x => some (Raw.ext .xshf x)
  | .xbcast b => some (Raw.base .xbcast b)
  | .xbcastExt x => some (Raw.ext .xbcast x)
  | .xred b => some (Raw.base .xred b)
  | .xredExt x => some (Raw.ext .xred x)
  | .xscan b => some (Raw.base .xscan b)
  | .xscanExt x => some (Raw.ext .xscan x)
  | .xdot x => some (Raw.ext .xdot x)
  | .xvote b => some (Raw.base .xvote b)
  | .xvoteExt x => some (Raw.ext .xvote x)
  | .xmatch b => some (Raw.base .xmatch b)
  | .xmatchExt x => some (Raw.ext .xmatch x)
  | .ld b => some (Raw.base .ld b)
  | .ldExt x => some (Raw.ext .ld x)
  | .st b => some (Raw.base .st b)
  | .stExt x => some (Raw.ext .st x)
  | .ldk b => some (Raw.base .ldk b)
  | .ldkExt x => some (Raw.ext .ldk x)
  | .atom b => some (Raw.base .atom b)
  | .atomExt x => some (Raw.ext .atom x)
  | .red b => some (Raw.base .red b)
  | .redExt x => some (Raw.ext .red x)
  | .pref b => some (Raw.base .pref b)
  | .prefExt x => some (Raw.ext .pref x)
  | .cflush b => some (Raw.base .cflush b)
  | .cflushExt x => some (Raw.ext .cflush x)
  | .cinv b => some (Raw.base .cinv b)
  | .cinvExt x => some (Raw.ext .cinv x)
  | .acp16 x => some (Raw.ext .acp16 x)
  | .tcopy b => some (Raw.base .tcopy b)
  | .tcopyExt x => some (Raw.ext .tcopy x)
  | .tdump b => some (Raw.base .tdump b)
  | .tdumpExt x => some (Raw.ext .tdump x)
  | .awinit b => some (Raw.base .awinit b)
  | .awinitExt x => some (Raw.ext .awinit x)
  | .awexp b => some (Raw.base .awexp b)
  | .awexpExt x => some (Raw.ext .awexp x)
  | .await b => some (Raw.base .await b)
  | .awaitExt x => some (Raw.ext .await x)
  | .awtest b => some (Raw.base .awtest b)
  | .awtestExt x => some (Raw.ext .awtest x)
  | .launch b => some (Raw.base .launch b)
  | .launchExt x => some (Raw.ext .launch x)
  | .nwait b => some (Raw.base .nwait b)
  | .nwaitT b => some (Raw.base .nwait b)
  | .nwaitExt x => some (Raw.ext .nwait x)
  | .hinit x => some (Raw.ext .hinit x)
  | .hjoin x => some (Raw.ext .hjoin x)
  | .hcontrib x => some (Raw.ext .hcontrib x)
  | .hwait x => some (Raw.ext .hwait x)
  | .hquery x => some (Raw.ext .hquery x)
  | .tcfg x => some (Raw.ext .tcfg x)
  | .tld x => some (Raw.ext .tld x)
  | .tst x => some (Raw.ext .tst x)
  | .tzero x => some (Raw.ext .tzero x)
  | .tzeroA x => some (Raw.ext .tzero x)
  | .mma x => some (Raw.ext .mma x)
  | .mmav x => some (Raw.ext .mmav x)
  | .cbld x => some (Raw.ext .cbld x)
  | .olapply x => some (Raw.ext .olapply x)
  | .aprom x => some (Raw.ext .aprom x)
  | .aout x => some (Raw.ext .aout x)
  | .asav x => some (Raw.ext .asav x)
  | .arst x => some (Raw.ext .arst x)
  | .ahist x => some (Raw.ext .ahist x)
  | .stest x => some (Raw.ext .stest x)
  | .subaddrWrite _ _ => none
  | .hostdone _ _ => none
  | .launchPacket _ => none
  | .launchPortConfigure _ _ => none
  | .launchPortUnconfigure _ _ => none
  | .taskAccept => none
  | .dispatchPass => none
  | .plctlWrite _ => none
  | .throttleStart _ => none
  | .invalidateAll => none
  | .invalidateAsid _ => none
  | .invalidateRange _ _ => none
  | .invalidationComplete => none
  | .faultRetry _ _ => none
  | .faultFail _ _ => none
  | .faultQueueWrite _ => none
  | .walk _ => none
  | .reserveGrant _ => none
  | .loadReply _ => none
  | .storeTranslate _ => none
  | .atomicPerform _ => none
  | .wcAgeDrain _ => none
  | .wcDrainAck _ _ => none
  | .copyCellRead _ => none
  | .copyCellWrite _ => none
  | .copyCellAck _ => none
  | .matrixOpComplete _ => none
  | .selfTest _ _ _ => none
  | .barrierWatchdog _ _ => none
  | .podBarrierComplete _ _ => none
  | .cellReceive _ _ => none
  | .linkUp _ => none
  | .linkDown _ => none
  | .podRequest _ => none
  | .podResponse _ => none
  | .spliceMessage _ => none
  | .spliceStepTimeout _ _ _ _ _ => none
  | .hitchContribution _ => none
  | .hitchWatchdog _ _ => none
  | .triggerMark _ _ => none
  | .exitReleaseComplete _ _ => none
  | .haltRequest _ => none
  | .haltNestTimeout _ _ => none
  | .contextSaveComplete _ => none
  | .teamEnd _ => none
  | .taskEnd _ => none
  | .tkill _ => none
  | .stallSample _ => none
  | .laneCycleClear => none
  | .replayGateTimeout _ => none
  | .correctedError _ _ => none
  | .uncorrectableError _ _ => none
  | .featdrvWrite _ => none
  | .throttleOffer _ => none
  | .throttleTemperature _ _ => none
  | .criticalTemperature _ => none
  | .packageReset => none
  | .firmwareLoad _ => none
  | .toProvisioned => none
  | .toDeployed => none
  | .toReturned => none
  | .getVersion => none
  | .getCapabilities => none
  | .negotiateAlgorithms => none
  | .getDigests => none
  | .getCertificate => none
  | .challenge => none
  | .getMeasurements => none
  | .keyExchange => none
  | .finish => none
  | .keyUpdate => none
  | .registerWrite _ _ => none
  | .hostMemoryAccess _ => none
  | .flowRekey _ _ => none
  | .tileTransferComplete _ _ => none


/-- The swizzles legal for n elements (R143). -/
def swOk (n : Nat) (sw : BitVec 3) : Bool := n != 2 || decide (sw.toNat < 4)

/-- Half-select and swizzle of a register operand (R143). -/
def selOk (w : SrcW) (s : Sel) : Bool :=
  match w with
  | .w32 => !s.half && s.sw == 0
  | .w64 => !s.half && s.sw == 0
  | .half => s.sw == 0
  | .elem n => !s.half && swOk n s.sw
  | .packed n => !s.half && swOk n s.sw

/-- A register index on an engine: v0 to v127, pairs even; m0 to m31 (R139, R140). -/
def regOk (e : Engine) (w : SrcW) (f : Nat) : Bool :=
  if e = .g then decide (f < 128) && (w != .w64 || f % 2 == 0) else decide (f < 32)

/-- A source field under its entry's rule (R137 to R144). -/
def srcOk (e : Engine) (l : Len) (src : Src) (f : Nat) (last : Bool) (s : Sel) : Bool :=
  match src with
  | .none => f == 0 && !last && s == .plain
  | .field => !last && s == .plain
  | .litOnly => f == 0 && !last && s == { Sel.plain with cls := .lit }
  | .vreg w => s == .plain && regOk e w f && (!last || e == .g)
  | .opnd w spec imm lit =>
    match s.cls with
    | .v => selOk w s && regOk e w f && (!last || e == .g)
    | .k => selOk w s && e == .g && decide (f < 64) && (w != .w64 || f % 2 == 0) && !last
    | .special => spec && decide (f ≤ 0x0D) && !last && !s.half && s.sw == 0
    | .lit => !last && !s.half && s.sw == 0 && (if l = .l01 then imm else lit && f == 0)

/-- The destination field under its entry's rule (R138 to R140, R290, R294). -/
def dstOk (e : Engine) (d : Dst) (f : Nat) : Bool :=
  match d with
  | .none => f == 0
  | .field => true
  | .v wide n _ =>
    if e = .g then
      let k := if wide then 2 * n else n
      f % k == 0 && decide (f + k ≤ 128)
    else f % n == 0 && decide (f + n ≤ 32)
  | .k wide n =>
    let k := if wide then 2 * n else n
    e == .g && f % k == 0 && decide (f + k ≤ 64)

/-- Some operand reads the literal (R137). -/
def litRead (x : Ext) : Bool := x.selA.cls == .lit || x.selB.cls == .lit || x.selC.cls == .lit

/-- Step 5 of R151. -/
def legalFields (e : Engine) (r : Raw) : Bool :=
  let s := shapeOf r.op r.len r.x
  let x := r.x
  s.forms.contains r.len && s.ok && x.rsv == 0 && !(x.pidx == 7 && x.pneg) && dstOk e s.d x.d.toNat &&
    srcOk e r.len s.a x.a.toNat x.la x.selA && srcOk e r.len s.b x.b.toNat x.lb x.selB &&
    srcOk e r.len s.c x.c.toNat x.lc x.selC && ((r.len == .l00 || r.len == .l01) || litRead x) &&
    !(r.op == .fence && e != .g && x.d.getLsbD 2)

/-- The privileged instructions (R195, R450). -/
def Op.privileged : Op → Bool
  | .sset => true
  | .rett => true
  | _ => false

/-- The extended fields of a literal-only instruction (R136, R137). -/
def Ext.litForm (x : Ext) : Ext :=
  { form := .x10, d := x.d, a := x.a, b := 0, la := x.la, lb := false, c := 0, pneg := false, pidx := 7, rm := 0, ty := 0,
    scope := 0, imm := 0, lc := false, selC := .plain, selB := { Sel.plain with cls := .lit }, selA := .plain, rsv := 0,
    lit := x.lit }

/-- The fields that a form does not encode hold what R136 gives them. -/
def Ext.canonical (x : Ext) : Bool :=
  match x.form with
  | .x01 => x.lit == 0
  | .x10 => x == x.litForm
  | .x11 => true

/-- Core indices within the package (R15). -/
def CoreId.ok (c : CoreId) : Bool := decide (c.die < 8) && decide (c.quad < 32) && decide (c.core < 4)

/-- The operands of an event name agents and fields that exist. -/
def eventOk : Instr → Bool
  | .launchPortConfigure port _ => decide (port < 16)
  | .launchPortUnconfigure port _ => decide (port < 16)
  | .throttleStart die => decide (die < 8)
  | .faultRetry die idx => decide (die < 8) && decide (idx < 1024)
  | .faultFail die idx => decide (die < 8) && decide (idx < 1024)
  | .faultQueueWrite die => decide (die < 8)
  | .walk die => decide (die < 8)
  | .reserveGrant c => c.ok
  | .wcAgeDrain c => c.ok
  | .wcDrainAck c _ => c.ok
  | .matrixOpComplete c => c.ok
  | .selfTest die quad _ => decide (die < 8) && decide (quad < 32)
  | .stallSample c => c.ok
  | .tileTransferComplete c _ => c.ok
  | .cellReceive link _ => decide (link < 36)
  | .linkUp link => decide (link < 36)
  | .linkDown link => decide (link < 36)
  | .correctedError die _ => decide (die < 8)
  | .uncorrectableError die _ => decide (die < 8)
  | .throttleTemperature die _ => decide (die < 8)
  | .criticalTemperature die => decide (die < 8)
  | _ => true

/-- Rows that share an encoding are told apart by the field that the row fixes (R84, R244, R335). -/
def rowOk : Instr → Bool
  | .nwait b => b.b != 1
  | .nwaitT b => b.b == 1
  | .fclassExt x => !x.scope.getLsbD 0
  | .fclassRdfl x => x.scope.getLsbD 0
  | .tzero x => !x.scope.getLsbD 0
  | .tzeroA x => x.scope.getLsbD 0
  | _ => true

/-- An instruction is well formed when its encoding holds exactly its fields and some engine on which it is legal
accepts them; an event, when its operands name things that exist. -/
def WellFormed (i : Instr) : Bool :=
  match i.raw with
  | some r =>
    (if r.len = .l00 then true else r.x.canonical) && rowOk i &&
      [Engine.g, Engine.m, Engine.c].any (fun e => r.op.legalOn e && legalFields e r)
  | none => eventOk i

end Sys2Proof
end

