-- ==== Sys2Proof/Machine/Ops.lean ====
section
/-!
DEFINITION. The named operations on slices and teams: lanes that end and rejoin (R173 to R175), barriers' completions
(R376), taking a trap (R437) and the return from it (R452), the end of a team by a trap (R439), the stop of a sequencer
context (R449), and the checks at issue (R151).
-/
namespace Sys2Proof.Machine

/-! ## Trap kinds (R433) and the causes of ILLEGAL (R434) -/

def kIllegal : Nat := 1
def kEngine : Nat := 2
def kPriv : Nat := 3
def kAlign : Nat := 4
def kSfault : Nat := 8
def kCmix : Nat := 9
def kCapx : Nat := 10
def kBarx : Nat := 11
def kHitchx : Nat := 12
def kWatch : Nat := 13
def kMxf : Nat := 14
def kEcc : Nat := 15
def kHalt : Nat := 16
def kTrapi : Nat := 17
def kBkpt : Nat := 18
def kRply : Nat := 19
def cRegspace : Nat := 1
def cRejoin : Nat := 2
def cTarget : Nat := 3
def cRegion : Nat := 4
def cDesc : Nat := 5
def cShape : Nat := 6
def cFormat : Nat := 7
def cAcckind : Nat := 8
def cOpensum : Nat := 9
def cImage : Nat := 10
def cForkheld : Nat := 11
def cNotcomm : Nat := 12
def cFrame : Nat := 13
def cNothalt : Nat := 14

/-! ## Agents -/

/-- The slices and contexts that issue together as the current agent. -/
def State.agents (s : State) : List Issuer :=
  match s.cur with
  | .idle => []
  | .gang u is => is.map (fun i => .slice u i)
  | .ctx m c => [.ctx (ctxKey c m)]

/-- The current agent names live slices of a team that is resident, or a context. -/
def State.curOk (s : State) : Bool :=
  match s.cur with
  | .idle => false
  | .gang u is => !is.isEmpty && (s.team u).isSome && is.all (fun i => (s.slice u i).isSome)
  | .ctx _ c => c.ok

/-- The engine of the current agent (R149). -/
def State.engine (s : State) : Engine :=
  match s.cur with
  | .ctx true _ => .m
  | .ctx false _ => .c
  | _ => .g

def State.sl (s : State) (u i : Nat) : Slice := (s.slice u i).getD {}
/-- The team of an agent: of its slice, or the holder of its context. -/
def State.teamOf (s : State) (a : Issuer) : Nat :=
  match a with | .slice u _ => u | .ctx k => (s.ctx k).holder.getD 0
def State.coreOf (s : State) (a : Issuer) : CoreId :=
  match a with
  | .slice u _ => match s.team u with | some t => t.core | none => { die := 0, quad := 0, core := 0 }
  | .ctx k => ctxCore k
def State.pcOf (s : State) (a : Issuer) : Nat :=
  match a with | .slice u i => (s.sl u i).pc | .ctx k => (s.ctx k).pc
def State.setPc (s : State) (a : Issuer) (pc : Nat) : State :=
  match a with
  | .slice u i => s.modSlice u i (fun x => { x with pc := pc })
  | .ctx k => s.modCtx k (fun x => { x with pc := pc })
def State.setWait (s : State) (a : Issuer) (w : Wait) : State :=
  match a with
  | .slice u i => s.modSlice u i (fun x => { x with wait := w })
  | .ctx k => s.modCtx k (fun x => { x with wait := w })
/-- The same, with the lanes that act in the instruction. -/
def State.setWaitAt (s : State) (a : Issuer) (w : Wait) (m : Mask) : State :=
  match a with
  | .slice u i => s.modSlice u i (fun x => { x with wait := w, waitMask := m })
  | .ctx _ => s.setWait a w
def State.actOf (s : State) (a : Issuer) : Mask :=
  match a with | .slice u i => (s.sl u i).act | .ctx _ => 1
def State.predsOf (s : State) (a : Issuer) (lane : Nat) : BitVec 8 :=
  match a with | .slice u i => (s.sl u i).preds.get lane | .ctx k => (s.ctx k).preds
/-- A predicate of a lane; q7 reads 1 (R164). -/
def State.pred (s : State) (a : Issuer) (lane q : Nat) : Bool := q == 7 || (s.predsOf a lane).getLsbD q
/-- The slice is in privileged mode (R437). -/
def State.privOf (s : State) (a : Issuer) : Bool :=
  match a with | .slice u i => decide (1 ≤ (s.sl u i).depth) | .ctx _ => false
/-- R145's condition in a lane. -/
def State.predOk (s : State) (a : Issuer) (x : Ext) (lane : Nat) : Bool := s.pred a lane x.pidx.toNat != x.pneg
/-- Acts(i) of an instruction, as a mask. -/
def State.acts (s : State) (a : Issuer) (x : Ext) : Mask := s.actOf a &&& maskOf (s.predOk a x)
/-- %lane of a lane position. -/
def laneNo (a : Issuer) (lane : Nat) : Nat := match a with | .slice _ i => 4 * i + lane | .ctx _ => 0
/-- How an agent's accesses translate (R117, R126). -/
def State.req (s : State) (a : Issuer) : Req :=
  let u := s.teamOf a
  match a with
  | .slice _ i => { asid := s.asidOf u, core := s.coreOf a, eng := 0, slice := i, prio := ((s.taskOf u).map Task.prio).getD 0, priv := s.privOf a, tlb := true, xf := (s.sl u i).xf }
  | .ctx k => { asid := s.asidOf u, core := ctxCore k, eng := if k % 2 = 1 then 1 else 2, prio := ((s.taskOf u).map Task.prio).getD 0, tlb := true, xf := (s.ctx k).xf }
/-- The waiter of an agent. -/
def waiterOf (a : Issuer) : Waiter := match a with | .slice u i => .slice u i | .ctx k => .ctx k
/-- Drop the walk faults kept for an agent. -/
def State.clearXf (s : State) (a : Issuer) : State :=
  match a with
  | .slice u i => s.modSlice u i (fun x => { x with xf := [] })
  | .ctx k => s.modCtx k (fun x => { x with xf := [] })

/-- The instruction is done: the PC moves past it and the agent waits for nothing. -/
def State.advance (s : State) (a : Issuer) (len : Nat) : State :=
  match a with
  | .slice u i => s.modSlice u i (fun x => { x with pc := x.pc + len, wait := .none, waitCyc := 0, barTok := .none, nwTok := .none, rrTok := .none, gateSince := .none, gateOut := false, xf := [] })
  | .ctx k => s.modCtx k (fun x => { x with pc := x.pc + len, wait := .none, gateSince := .none, gateOut := false, xf := [] })

/-- Live lanes of a team by %lane. -/
def Team.liveSet (t : Team) : BitVec 1024 :=
  BitVec.ofNat 1024 ((t.slices.map (fun p => p.2.live.toNat <<< (4 * p.1))).sum)
/-- Lanes of a slice's mask by %lane. -/
def laneSet (i : Nat) (m : Mask) : BitVec 1024 := BitVec.ofNat 1024 (m.toNat <<< (4 * i))

/-! ## Edges and early release (R41, R44, R489) -/

/-- Satisfy every edge from a task. -/
def State.satisfyEdges (s : State) (serial : Nat) : State :=
  { s with tasks := s.tasks.map (fun p => (p.1, { p.2 with edges := p.2.edges.filter (· != serial) })), passDue := true }

/-- All lanes of a team: ceil of its lane count. -/
def Team.allSet (t : Team) : BitVec 1024 := BitVec.ofNat 1024 (2 ^ t.lanes - 1)
/-- R489: the team has triggered, or ended. -/
def Team.hasTriggered (t : Team) : Bool := t.counted &&& t.allSet == t.allSet

/-- Satisfy a task's edges once a lane was marked and every team has triggered or ended (R489). -/
def State.earlyRelease (s : State) (serial : Nat) : State :=
  match s.task serial with
  | none => s
  | some k =>
    let ts := s.teams.filter (fun p => p.2.task == serial)
    let done := k.left - ts.length
    if k.anyMark && !k.released && k.next == k.nteam && done == 0 && ts.all (fun p => p.2.hasTriggered) then
      (s.modTask serial (fun k => { k with released := true })).satisfyEdges serial
    else s

/-! ## Barriers (R376, R378, R384) -/

/-- The phase of a barrier completes (R376). -/
def Bar.complete (b : Bar) : Bar := { b with phase := b.phase + 1, arrived := 0, count := 0, again := [] }

/-- A barrier after an event: completed when its condition holds (R375, R376). -/
def Bar.settle (b : Bar) (live : BitVec 1024) : Bar :=
  if (b.expect = 0 ∧ b.count ≠ 0 ∧ live &&& ~~~b.arrived = 0) ∨ (b.expect ≠ 0 ∧ b.expect ≤ b.count) then b.complete else b

/-- Settle a team's named barriers after its live set changed. -/
def State.settleBars (s : State) (u : Nat) : State :=
  s.modTeam u (fun t => { t with bars := t.bars.map (fun p => (p.1, if p.2.expect = 0 then p.2.settle t.liveSet else p.2)) })

/-- Keys of level barrier instances of a task: the scope and the cohort, die, or nothing (R378, R379). -/
def levelKey (scope inst : Nat) : Nat := scope * 2 ^ 24 + inst
/-- The instance of a scope that contains a team. -/
def Team.levelInst (t : Team) (scope : Nat) : Nat := levelKey scope (if scope = 3 then t.index / 4 else if scope = 4 then t.core.die else 0)

/-- The default parties of a level barrier that have not ended (R378). -/
def State.parties (s : State) (serial key : Nat) : List Nat :=
  (s.teams.filter (fun p => p.2.task == serial && p.2.status != .ending && p.2.levelInst (key / 2 ^ 24) == key)).map (·.1)

/-- Settle a level barrier other than `.pod`: complete it when its party set has arrived (R378, R384). Teams never
placed count as parties of `.pkg` under R379, which admits such a task whole. -/
def State.settleLevel (s : State) (serial key : Nat) : State :=
  match s.task serial with
  | none => s
  | some k =>
    let l := (mget k.levels key).getD {}
    let ps := s.parties serial key
    let done := if l.expect = 0 then !l.arrived.isEmpty && ps.all (fun u => l.arrived.contains u) else decide (l.expect ≤ l.arrived.length)
    if done && key / 2 ^ 24 != 6 then
      let s := s.modTask serial (fun k => { k with levels := mset k.levels key { l with phase := l.phase + 1, arrived := [] } })
      { s with teams := s.teams.map (fun p => if p.2.task = serial then (p.1, { p.2 with lvl := mdel p.2.lvl key }) else p) }
    else s

/-- The pod binding of a task: the lowest binding with V = 1 that holds its TAG (R381). -/
def State.podBinding (s : State) (tag : Nat) : Option Nat :=
  (List.range 256).find? (fun i => bitAt (s.ge (0x3C000 + 16 * i)) 63 && bits (s.ge (0x3C008 + 16 * i)) 63 32 == tag)
/-- The slot that a binding names. -/
def State.bindAt (s : State) (i : Nat) : PodBind :=
  let w := s.ge (0x3C000 + 16 * i)
  { binding := i, node := bits w 55 50, slot := bits w 49 40, domain := bits w 31 16,
    phase := (s.podSlot (bits w 55 50) (bits w 49 40) 0).phase }

/-- The binding of a task at a barrier instruction: that of the open phase, which no write to a binding changes, else its pod binding
(R381). -/
def State.podNow (s : State) (k : Task) : Option PodBind :=
  match (mget k.levels (levelKey 6 0)).bind (·.bound) with
  | some b => some b
  | none => (s.podBinding k.tag).map s.bindAt

/-- The slot that a task's cells go to: that of the open phase, else that of its last barrier instruction, else its pod binding (R381). -/
def State.podBind (s : State) (k : Task) : Option PodBind :=
  let l := (mget k.levels (levelKey 6 0)).getD {}
  match l.bound, l.seen with
  | some b, _ => some b
  | none, some c => some { c with phase := (s.podSlot c.node c.slot 0).phase }
  | none, none => s.podNow k

/-- A management cell for a team of a task goes to the slot of the task's pod barrier (R380). -/
def State.podSend (s : State) (k : Task) (u : Nat) (c : PodCell) : State :=
  match s.podBind k with
  | some b =>
    let flow := barrierKey b.domain b.node
    let told := (b, bits (s.ge (0x3C008 + 16 * b.binding)) 23 0, u, c)
    s.sendOpen (fun n => { link := b.node, cls := 4, flow := flow, body := [Config.openPayload n], pod := some told })
  | none => s

/-- A team of a task ends: its pod barrier loses a party (R384). -/
def State.podLeave (s : State) (u : Nat) (k : Task) : State :=
  if !bitAt k.lvlbar 3 then s
  else
    let here : Bool := match mget k.levels (levelKey 6 0) with
      | some l => l.arrived.contains u && (match l.bound with | some b => (s.podSlot b.node b.slot 0).phase == b.phase | none => false)
      | none => false
    s.podSend k u (.leave here)

/-- A team arrives at a level barrier once all its live lanes have (R378). The release of the arrival acts for every lane
that arrived (R382). -/
def State.levelArrive (s : State) (u key : Nat) : State :=
  match s.team u with
  | none => s
  | some t =>
    match mget t.lvl key, s.task t.task with
    | some a, some k =>
      let l := (mget k.levels key).getD {}
      if t.liveSet &&& ~~~a = 0 ∧ t.liveSet ≠ 0 ∧ !l.arrived.contains u then
        let pod : Bool := key / 2 ^ 24 == 6
        let l := { l with arrived := l.arrived ++ [u], bound := if pod then s.podBind k else none }
        ((if pod then s.podSend k u .arrive else s).modTask t.task (fun k => { k with levels := mset k.levels key l })).settleLevel t.task key
      else s
    | _, _ => s

/-- Settle every level barrier a team may have completed by losing lanes. -/
def State.settleLevels (s : State) (u : Nat) : State :=
  match s.team u with
  | none => s
  | some t => foldS (fun p s => s.levelArrive u p.1) t.lvl s

/-! ## Lanes and slices that end (R173 to R175, R483) -/

/-- Push of a divergent branch (R173). none: the stack is full. -/
def Slice.diverge (x : Slice) (t : Mask) (target join len : Nat) : Option Slice :=
  if x.rejoin.length = 32 then none
  else some { x with rejoin := { jpc := join, rpc := x.pc + len, wmask := x.act &&& ~~~t, pmask := x.act } :: x.rejoin, act := t, pc := target }

/-- A pop of R174: JPC, ACT after and before, the depth after (R468). -/
structure Pop where
  jpc : Nat
  after : Mask
  before : Mask
  depth : Nat

/-- The loop of R174, for a stack of at most n / 2 entries, with its pops. -/
def Slice.rejoinGo (x : Slice) (ps : List Pop) : Nat → Slice × List Pop
  | 0 => (x, ps)
  | n + 1 =>
    match x.rejoin with
    | [] => (x, ps)
    | e :: r =>
      if x.pc = e.jpc ∨ x.act = 0 then
        if e.wmask ≠ 0 then Slice.rejoinGo { x with act := e.wmask, pc := e.rpc, rejoin := { e with wmask := 0 } :: r } ps n
        else Slice.rejoinGo { x with act := e.pmask, rejoin := r } (ps ++ [{ jpc := e.jpc, after := e.pmask, before := x.act, depth := r.length }]) n
      else (x, ps)

/-- R174 without the slice's end. -/
def Slice.normal (x : Slice) : Slice × List Pop := x.rejoinGo [] (2 * x.rejoin.length + 1)

/-- A slice without the lanes of a mask (R175). -/
def Slice.without (x : Slice) (m : Mask) : Slice :=
  { x with act := x.act &&& ~~~m, live := x.live &&& ~~~m,
           rejoin := x.rejoin.map (fun e => { e with wmask := e.wmask &&& ~~~m, pmask := e.pmask &&& ~~~m }) }

/-- A slice ends (R483): its names free, it leaves the live sets, and a team without slices begins to end (R484). -/
def State.sliceEnd (s : State) (u i : Nat) : State :=
  s.modTeam u (fun t =>
    let t := { t with slices := mdel t.slices i }
    if t.slices.isEmpty then { t with status := .ending } else t)

/-- R174 before an issue or after lanes ended: rejoin, and end the slice when no lane is left. -/
def State.normalize (s : State) (u i : Nat) : State :=
  match s.slice u i with
  | none => s
  | some x =>
    let (x, ps) := x.normal
    let s := s.modSlice u i (fun _ => x)
    let s := foldS (fun (p : Pop) s => s.trace u i 2 p.jpc p.after p.before 0 p.depth) ps s
    if x.act = 0 ∧ x.rejoin = [] then s.sliceEnd u i else s

/-- Register writes in flight of ended lanes are discarded, the results of LAUNCH among them; the stores of lanes ended without EXIT raise no SFAULT
(R188). -/
def State.dropWrites (s : State) (u i : Nat) (m : Mask) (exit : Bool) : State :=
  { s with mops := s.mops.map (fun p =>
      if p.2.by_ = .slice u i then (p.1, { p.2 with mask := p.2.mask &&& ~~~m, killed := if exit then p.2.killed else p.2.killed ||| m }) else p)
           subs := s.subs.map (fun b => match b.src with
      | .launch v j l t _ sk fs => if v = u ∧ j = i ∧ m.getLsbD l then { b with src := .launch v j l t 256 sk fs } else b
      | _ => b) }

/-- End lanes of a slice (R175, R188, R489). `exit` is EXIT; otherwise the lanes count towards triggering at once. -/
def State.endLanes (s : State) (u i : Nat) (m : Mask) (exit : Bool) : State :=
  let s := s.dropWrites u i m exit
  let s := s.modTeam u (fun t =>
    let t := t.modSlice i (fun x => x.without m)
    if exit then { t with exiting := t.exiting ++ [(i, m, s.nextId)] } else { t with counted := t.counted ||| laneSet i m })
  let s := s.normalize u i
  let s := (s.settleBars u).settleLevels u
  match s.team u with
  | some t => if exit then s else s.earlyRelease t.task
  | none => s

/-- Every lane of a slice ends without EXIT, and the slice with them. -/
def State.killSlice (s : State) (u i : Nat) : State :=
  let s := s.dropWrites u i 0xF false
  let s := s.modTeam u (fun t => { t with counted := t.counted ||| laneSet i 0xF })
  let s := s.sliceEnd u i
  let s := (s.settleBars u).settleLevels u
  match s.team u with
  | some t => s.earlyRelease t.task
  | none => s

/-- Every slice of a team ends (R439, R487). -/
def State.killTeam (s : State) (u : Nat) : State :=
  match s.team u with
  | none => s
  | some t => foldS (fun p s => s.killSlice u p.1) t.slices (s.modTeam u (fun t => if t.slices.isEmpty then { t with status := .ending } else t))

/-! ## Writes to the context save area (R440, R496) -/

/-- What a write of the S8 to a context save area came to. -/
inductive CsaRes where
  | done (s : State)
  | hold (kind cause va : Nat)
  | fail (kind cause : Nat)

/-- A write of at most one page at an offset of a team's area, as a device write under R117. -/
def State.csaWrite (s : State) (u off : Nat) (bs : List Byte) : CsaRes :=
  match s.team u with
  | none => .fail 0 0
  | some t =>
    match t.csa with
    | none => .fail 0 0
    | some base =>
      match s.translate { asid := s.asidOf u, core := t.core, priv := true } (base + off) accWrite 0 with
      | .ok pa _ _ => .done (s.engineWrite t.core pa bs)
      | .fault k c true => .hold k c (base + off)
      | .fault k c false => .fail k c
      | .miss => .fail 0 0

/-- Bytes of a team's area as its slices see them, when they can be read. -/
def State.csaRead (s : State) (u off n : Nat) : Option (List Byte) :=
  match s.team u with
  | none => none
  | some t =>
    match t.csa with
    | none => none
    | some base =>
      match s.translate { asid := s.asidOf u, core := t.core, priv := true } (base + off) accRead 0 with
      | .ok pa cache _ => some (s.l1Reads t.core cache (spans (n + 1) pa n)).1
      | _ => none

/-- A write of the S8 to a team's area beside its frames (R496): one that meets a replayable fault is owed until the fault is
answered (R122), and of one that cannot be made nothing is reported. -/
def State.areaWrite (s : State) (w : Owed) : State :=
  let old := (s.csaRead w.team w.off w.bytes.length).getD []
  match s.csaWrite w.team w.off (if w.merge ∧ old.length = w.bytes.length then (old.zip w.bytes).map (fun p => p.1 ||| p.2) else w.bytes) with
  | .done s => s
  | .fail _ _ => s
  | .hold k c va =>
    let r : Req := { asid := s.asidOf w.team, core := match s.team w.team with | some t => t.core | none => { die := 0, quad := 0, core := 0 } }
    { s.raiseFault r va k c accWrite (.area s.nextId) with owed := mset s.owed s.nextId w, nextId := s.nextId + 1 }

/-- A result that comes for a name of a slice's frame at a depth, while the frame stands (R172, R441): VREG has v0 to v7. -/
def State.frameReg (s : State) (u i d n lane w : Nat) : State :=
  if n < 8 then s.areaWrite { team := u, off := 0x10000 + 0x40000 * (d - 1) + 0x400 * i + 0xE0 + 16 * n + 4 * lane, bytes := toBytes 4 w, merge := false } else s

/-- A write of the S8 to a team's area is owed. -/
def State.owes (s : State) (u : Nat) : Bool := s.owed.any (fun p => p.2.team == u)

/-- The number at an offset of a team's area, 0 when it cannot be read. -/
def State.csaWord (s : State) (u off n : Nat) : Nat := ofBytes ((s.csaRead u off n).getD [])

/-! ## Slice frames (R441) -/

/-- The offset of the frame of a slice at a depth. -/
def frameOff (d i : Nat) : Nat := 0x10000 + 0x40000 * (d - 1) + 0x400 * i

/-- The trap record of R441, offsets 0x000 to 0x038. -/
def trapRecord (p : PTrap) (d fpc rpc cyc : Nat) (nest restore : Bool) (live : Mask) : List Nat :=
  [ p.kind * 2 ^ 56 + p.cause * 2 ^ 48 + p.amask.toNat * 2 ^ 44 + d * 2 ^ 42 + bit01 nest * 2 ^ 41 + bit01 restore * 2 ^ 40 +
      live.toNat * 2 ^ 36 + p.aux % 2 ^ 32,
    rpc % 2 ^ 57, fpc % 2 ^ 57, p.va % 2 ^ 57, cyc, 0, 0, 0 ]

/-- Two words as one double word. -/
def two (lo hi : Word) : Nat := lo.toNat + hi.toNat * 2 ^ 32

/-- The 7 predicates of each lane (R441, PRED). -/
def predBits (p : Four (BitVec 8)) : Nat :=
  p.p0.toNat % 128 + p.p1.toNat % 128 * 2 ^ 7 + p.p2.toNat % 128 * 2 ^ 14 + p.p3.toNat % 128 * 2 ^ 21

/-- The names of a slice as a 128-bit mask. -/
def Slice.mapped (x : Slice) : Nat := (x.names.map (fun p => 2 ^ p.1)).sum

/-- A register of a lane: 0 where the name is not mapped (R161). -/
def Slice.reg (x : Slice) (name lane : Nat) : Word := match mget x.names name with | some e => e.get lane | none => 0

/-- The stack entries of R441 from the bottom up, padded with zeros to n. -/
def padTo (n : Nat) (l : List Nat) : List Nat := l ++ List.replicate (n - l.length) 0

/-- The slice state of R441 from offset 0x040 on, as 64-bit words. -/
def Slice.frameBody (x : Slice) : List Nat :=
  let wk := if x.barTok.isSome then 1 else if x.nwTok.isSome then 2 else 0
  let rg := padTo 16 (x.region.reverse.map (·.toNat))
  List.flatten
    [ [ x.act.toNat * 2 ^ 60 + x.rejoin.length * 2 ^ 54 + x.region.length * 2 ^ 49 + wk * 2 ^ 47 + (x.barTok.getD 0).toNat,
        predBits x.preds, x.sseq.toNat, two x.fstk.p0 x.fstk.p1, two x.fstk.p2 x.fstk.p3, x.mapped % 2 ^ 64, x.mapped / 2 ^ 64, 0,
        x.srcnt.p0.toNat, x.srcnt.p1.toNat, x.srcnt.p2.toNat, x.srcnt.p3.toNat,
        x.seed.p0.toNat, x.seed.p1.toNat, x.seed.p2.toNat, x.seed.p3.toNat ],
      (List.range 4).map (fun j => rg.getD (4 * j) 0 + rg.getD (4 * j + 1) 0 * 2 ^ 16 + rg.getD (4 * j + 2) 0 * 2 ^ 32 + rg.getD (4 * j + 3) 0 * 2 ^ 48),
      (List.range 16).map (fun j => two (x.reg (j / 2) (2 * (j % 2))) (x.reg (j / 2) (2 * (j % 2) + 1))),
      List.replicate 20 0,
      padTo 64 (x.rejoin.reverse.flatMap (fun e => [e.wmask.toNat * 2 ^ 60 + e.jpc % 2 ^ 57, e.pmask.toNat * 2 ^ 60 + e.rpc % 2 ^ 57])) ]

/-- Little-endian bytes of 64-bit words. -/
def wordsToBytes (ws : List Nat) : List Byte := ws.flatMap (toBytes 8)
/-- 64-bit words of bytes. -/
def bytesToWords (bs : List Byte) : List Nat := (List.range (bs.length / 8)).map (fun i => ofBytes ((bs.drop (8 * i)).take 8))

/-! ## Taking a trap (R437, R439) -/

/-- TeamEnd(TRAPEND): every slice ends, the header keeps the trap, and the task counts it (R439, R485, R486). -/
def State.trapEnd (s : State) (u kind cause pc : Nat) : State :=
  let s := s.areaWrite { team := u, off := 0x30, bytes := wordsToBytes [pc % 2 ^ 57, kind * 2 ^ 56 + cause * 2 ^ 48], merge := false }
  match s.team u with
  | none => s
  | some t =>
    let s := if t.trapped then s else s.modTask t.task (fun k =>
      { k with ntrap := satInc 24 k.ntrap, trapTeam := match k.trapTeam with | none => some t.index | some i => some i })
    (s.modTeam u (fun t => { t with trapped := true })).killTeam u

/-- The handler's base (R436). -/
def Team.vbase (t : Team) : Nat := bits t.trapBase.toNat 56 12 * 4096

/-- An operation brings a register result of a slice; an LDK's goes to the k file. -/
def MemOp.brings (op : MemOp) (u i : Nat) : Bool := op.by_ == .slice u i && (op.kind == .ld || op.kind == .atom || op.kind == .hitch)

/-- A slice enters a frame: the results of it that are in flight belong to that frame's VREG too (R172, R441). -/
def State.frameResults (s : State) (u i d : Nat) : State :=
  { s with
    mops := s.mops.map (fun p => if p.2.brings u i then (p.1, { p.2 with frames := (d, p.2.skip) :: p.2.frames }) else p)
    subs := s.subs.map (fun b => match b.src with
      | .launch v j l t n sk fs => if v = u ∧ j = i then { b with src := .launch v j l t n sk ((d, sk) :: fs) } else b
      | _ => b) }

/-- A result of a slice is still owed to its frame at a depth. -/
def State.frameOwes (s : State) (u i d : Nat) : Bool :=
  s.mops.any (fun p => p.2.by_ == .slice u i && p.2.frames.any (fun f => f.1 == d)) ||
    s.subs.any (fun b => match b.src with | .launch v j _ _ _ _ fs => v == u && j == i && fs.any (fun f => f.1 == d) | _ => false)

/-- TakeTrap of R437 with the program counters of the record. A replayable fault on the frame holds the slice (R122). -/
def State.takeTrapAt (s : State) (u i : Nat) (p : PTrap) (fpc rpc : Nat) (nest restore : Bool) : State :=
  match s.team u, s.slice u i with
  | some t, some x =>
    let d := x.depth + 1
    if t.vbase = 0 ∨ t.csa = none ∨ d = 4 ∨ (d = 3 ∧ p.kind ≠ kHalt) then s.trapEnd u p.kind p.cause x.pc
    else
      let fr := trapRecord p d fpc rpc (s.cyc t.core.die) nest restore x.live ++ x.frameBody
      match s.csaWrite u (frameOff d i) (wordsToBytes fr) with
      | .fail _ _ => s.trapEnd u p.kind p.cause x.pc
      | .hold k c va =>
        let r : Req := { asid := s.asidOf u, core := t.core, slice := i }
        (s.raiseFault r va k c accWrite (.frame u i p.kind p.cause)).setWait (.slice u i) .replay
      | .done s =>
        (s.frameResults u i d).modSlice u i (fun x =>
          { x with depth := d, act := x.live, rejoin := [], region := [], pc := t.vbase + 64 * p.kind, wait := .none, barTok := .none,
                   nwTok := .none, nwKept := match x.nwTok with | some m => mset x.nwKept d m | none => mdel x.nwKept d,
                   rrTok := .none, gateSince := .none, waitCyc := 0, xf := [], starved := false, due := 0, yieldEnd := if p.kind = kHalt then 0 else x.yieldEnd,
                   pend := x.pend.filter (· != p),
                   haltFrames := if p.kind = kHalt then d :: x.haltFrames else x.haltFrames,
                   restoring := if p.kind = kHalt then false else x.restoring,
                   sfDue := if p.kind = kSfault then false else x.sfDue, sfCount := if p.kind = kSfault then 0 else x.sfCount, sfMask := if p.kind = kSfault then 0 else x.sfMask,
                   sfVa := if p.kind = kSfault then 0 else x.sfVa })
  | _, _ => s

/-- A load or atomic of an agent is still in flight: it completes before a trap is taken (R172, R445). The answers of LAUNCH and
HCONTRIB come when the graph engine and the hitch unit give them; a trap does not wait for them, and they reach its frame. -/
def State.awaits (s : State) (a : Issuer) : Bool :=
  s.mops.any (fun p => p.2.by_ == a && (p.2.kind == .ld || p.2.kind == .ldk || p.2.kind == .atom))

/-- A precise trap: FPC and RPC are the instruction's own PC. -/
def State.takeTrap (s : State) (u i : Nat) (p : PTrap) : State := s.takeTrapAt u i p (s.sl u i).pc (s.sl u i).pc false false

/-! ## Sequencer contexts stopped (R446, R449) -/

/-- The context header of R446 as 64-bit words, 0x000 to 0x17F. `state` is STATE; p the trap when one stopped it, and cyc the die's count
then. -/
def State.ctxHeader (s : State) (k state : Nat) (p : PTrap) (cyc : Nat) : List Nat :=
  let x := s.ctx k
  let rg := padTo 16 (x.region.reverse.map (·.toNat))
  List.flatten
    [ trapRecord p 0 (p.fpc.getD x.pc) x.pc cyc false false 1,
      [ x.pc % 2 ^ 57,
        x.contract * 2 ^ 46 + x.region.length * 2 ^ 41 + x.preds.toNat % 128 * 2 ^ 34 + state * 2 ^ 32 + x.fstk.toNat,
        x.seed.toNat, if k % 2 = 1 then x.opseq.toNat else 0 ],
      (List.range 4).map (fun j => rg.getD (4 * j) 0 + rg.getD (4 * j + 1) 0 * 2 ^ 16 + rg.getD (4 * j + 2) 0 * 2 ^ 32 + rg.getD (4 * j + 3) 0 * 2 ^ 48),
      (List.range 32).map (fun i => ((mget x.regs i).getD 0).toNat) ]

/-- The offset of a context's header. -/
def ctxOff (k : Nat) : Nat := if k % 2 = 1 then 0xD0000 else 0xD0400

/-- A context has executed SEQEND, or counts as having: a copy team that holds it ends (R78, R95). -/
def State.ctxDone (s : State) (k : Nat) : State :=
  match (s.ctx k).holder with
  | none => s
  | some u => match s.taskOf u with
    | some t => if t.cls = 2 then s.modTeam u (fun t => { t with status := .ending }) else s
    | none => s

/-- A trap stops a context: its header gets STATE 2 and the record, and it counts as having executed SEQEND with exit code
0xFFFF (R449). An MXF still due stays with the context (R325). -/
def State.stopCtx (s : State) (k : Nat) (p : PTrap) : State :=
  let cyc := s.cyc (ctxCore k).die
  let s := s.areaWrite { team := s.teamOf (.ctx k), off := ctxOff k, bytes := wordsToBytes (s.ctxHeader k 2 p cyc), merge := false }
  (s.modCtx k (fun x => { x with run := .stopped, exit := 0xFFFF, wait := .none, trap := some (p, cyc), pend := (x.pend.erase p).filter (·.kind == kMxf),
                                 xf := [], opened := none })).ctxDone k

/-- A context has a transfer in flight. -/
def Ctx.transfers (x : Ctx) : Bool := match x.flight with | some (.xfer ..) => true | _ => false

/-- A context has a matrix operation, a transfer, a test or an access to memory in flight. -/
def State.ctxFlies (s : State) (k : Nat) : Bool := (s.ctx k).flight.isSome || s.mops.any (fun p => p.2.by_ == .ctx k)

/-- A trap of an agent at its boundary, once what it has in flight has arrived (R172, R449). -/
def State.trapOne (s : State) (a : Issuer) (kind cause va aux : Nat) (amask : Mask) : State :=
  let p : PTrap := { kind := kind, cause := cause, va := va, amask := amask, aux := aux }
  match a with
  | .slice u i => if s.awaits a then s.setWait a .stores else s.takeTrap u i p
  | .ctx k => if s.ctxFlies k then s.setWait a .stores else s.stopCtx k p

/-- A trap that every slice of the gang takes (R180), or that stops the context. The frames hold every earlier result, so
the gang waits for results in flight first (R441). -/
def State.trapAll (s : State) (x : Ext) (kind cause va : Nat) : State :=
  if s.agents.any s.awaits ∧ s.engine = .g then foldS (fun a s => s.setWait a .stores) s.agents s
  else foldS (fun a t => t.trapOne a kind cause va 0 (s.acts a x)) s.agents s

/-- A sticky trap bit of a masked kind (R436, R440, R67). -/
def State.sticky (s : State) (u kind : Nat) : State :=
  s.areaWrite { team := u, off := 0, bytes := toBytes 4 (2 ^ kind), merge := true }

/-- The team masks a kind (R436). -/
def State.masks (s : State) (u kind : Nat) : Bool := match s.team u with | some t => t.trapMask.getLsbD kind | none => false

/-! ## The checks at issue (R151 steps 4 to 6) -/

/-- The feature an instruction needs is accepted (R490). -/
def State.featured (s : State) (op : Op) : Bool :=
  match op with
  | .rrchk => s.feature 0
  | .hinit => s.feature 1
  | .hjoin => s.feature 1
  | .hcontrib => s.feature 1
  | .hwait => s.feature 1
  | .hquery => s.feature 1
  | .splice => s.feature 2
  | .cbld => s.feature 4
  | .mmav => s.feature 4
  | .olapply => s.feature 4
  | .vqdec => s.feature 4
  | _ => true

/-- The open sum of a context: the operands of the MMAV on a VQ2-64X tile that opened it or is in flight to do so (R338). -/
def Ctx.openSum (x : Ctx) : Option (Nat × Nat × Nat × Nat) :=
  match x.opened, x.flight with
  | some o, _ => some o
  | none, some (.op .mmav d a b rm) => if bits ((mget x.tiles b).getD {}).cfg.toNat 4 0 = 0x1A then some (d, a, b, rm) else none
  | none, _ => none

/-- An open sum stands, and this instruction is not the OLAPPLY that finishes it (R338). -/
def State.leavesOpen (s : State) (r : Raw) : Bool :=
  match s.cur with
  | .ctx true c =>
    match (s.ctx (ctxKey c true)).openSum with
    | some o => !(r.op == .olapply && s.acts (.ctx (ctxKey c true)) r.x != 0 && o == (r.x.d.toNat, r.x.a.toNat, r.x.b.toNat, r.x.rm.toNat))
    | none => false
  | _ => false

/-- An instruction meets the machine: ENGINE, ILLEGAL, PRIV and OPENSUM in this order, each taken by every slice of the gang
(R151, R180), and otherwise its effect. -/
def issue (r : Raw) (s : State) (body : State → State) : Host.Outcome State Fault Refusal :=
  if !s.curOk then .fault .noAgent
  else if !r.op.legalOn s.engine then .next (s.trapAll r.x kEngine 0 0)
  else if !(legalFields s.engine r && s.featured r.op) then .next (s.trapAll r.x kIllegal 0 0)
  else if r.op.privileged ∧ s.agents.any (fun a => !s.privOf a) then .next (s.trapAll r.x kPriv 0 0)
  else if s.leavesOpen r then .next (s.trapAll r.x kIllegal cOpensum 0)
  else .next (body s)

/-- The condition under which an instruction passes R151 and has its own effect in every slice of the gang. -/
def Issues (r : Raw) (s : State) : Bool :=
  s.curOk && r.op.legalOn s.engine && legalFields s.engine r && s.featured r.op && !(r.op.privileged && s.agents.any (fun a => !s.privOf a)) &&
    !s.leavesOpen r

end Sys2Proof.Machine
end

