-- ==== Sys2Proof/Machine/Operands.lean ====
section
/-!
DEFINITION. Operand forms (R137 to R144): reading a source of every class and width, special registers (R23, R165), and
writing the result of an instruction with renaming, last-read frees and predicates (R144, R145, R161 to R171).
-/
namespace Sys2Proof.Machine

/-! ## Registers -/

/-- A 32-bit or 64-bit v register, or an m register (R139, R140, R161). -/
def State.readV (s : State) (a : Issuer) (wide : Bool) (n lane : Nat) : Nat :=
  match a with
  | .slice u i =>
    let x := s.sl u i
    if wide then two (x.reg n lane) (x.reg (n + 1) lane) else (x.reg n lane).toNat
  | .ctx k =>
    let v := ((mget (s.ctx k).regs n).getD 0).toNat
    if wide then v else v % 2 ^ 32

/-- The key of a k register in a team's files (R162). -/
def kKey (i n : Nat) : Nat := i / 8 * 64 + n
def Team.k (t : Team) (i n : Nat) : Word := (mget t.kfile (kKey i n)).getD 0
/-- A k register of a slice's home gang. -/
def State.readK (s : State) (a : Issuer) (wide : Bool) (n : Nat) : Nat :=
  match a with
  | .slice u i =>
    match s.team u with
    | some t => if wide then two (t.k i n) (t.k i (n + 1)) else (t.k i n).toNat
    | none => 0
  | .ctx _ => 0

/-- %region of a region stack, top first (R166). -/
def regionWord (r : List (BitVec 16)) : Nat := (r.getD 0 0).toNat + (r.getD 1 0).toNat * 2 ^ 16

/-- A special register below 0x20 as a lane sees it (R23, R142, R165). -/
def State.special (s : State) (a : Issuer) (lane n : Nat) : Nat :=
  let c := s.coreOf a
  let u := s.teamOf a
  let t := s.taskOf u
  match n with
  | 0x00 => laneNo a lane
  | 0x01 => match a with | .slice _ i => i | .ctx _ => 0
  | 0x02 => match a with | .slice _ i => i / 8 | .ctx _ => 0
  | 0x03 => match s.team u with | some t => t.index | none => 0
  | 0x04 => match t with | some t => t.nteam | none => 0
  | 0x05 => match t with | some t => t.tag | none => 0
  | 0x06 => c.core
  | 0x07 => c.quad
  | 0x08 => c.die
  | 0x09 => s.pkgId
  | 0x0A => s.cyc c.die
  | 0x0B => match a with | .slice u i => ((s.sl u i).seed.get lane).toNat | .ctx k => (s.ctx k).seed.toNat
  | 0x0C => match a with | .slice _ _ => (match t with | some t => t.contract | none => 0) | .ctx k => (s.ctx k).contract
  | 0x0D => match a with | .slice u i => regionWord (s.sl u i).region | .ctx k => regionWord (s.ctx k).region
  | _ => 0

/-! ## Element types -/

/-- The float format of a type code (R147). -/
def fmtOfTy (t : Nat) : Option Fmt :=
  match t with
  | 13 => some fp64 | 14 => some fp32 | 15 => some fp19 | 16 => some bf16 | 17 => some fp16
  | 18 => some e5m2 | 19 => some e4m3 | 20 => some e3m2 | 21 => some e2m3 | 22 => some e2m1
  | _ => none

/-- A short immediate as one element of w bits of a type (R141). -/
def immElem (ty w : Nat) (v : Int) : Nat :=
  match ty, fmtOfTy ty with
  | 13, some f => f.encode (Num.ofInt v)
  | 14, some f => f.encode (Num.ofInt v)
  | 16, some f => f.encode (Num.ofInt v)
  | 17, some f => f.encode (Num.ofInt v)
  | _, _ => wrapTo w v

/-- The bits of a source form. -/
def srcWidth : SrcW → Nat
  | .w64 => 64
  | .half => 16
  | .elem n => 32 / n
  | _ => 32

/-- n copies of a w-bit element. -/
def replicateElem (w v : Nat) : Nat → Nat
  | 0 => 0
  | n + 1 => v + replicateElem w v n * 2 ^ w

/-- src(i) of a swizzle over n elements (R143). -/
def swIndex (n sw i : Nat) : Nat :=
  match sw with
  | 0 => i
  | 1 => i ^^^ 1
  | 2 => 0
  | 3 => 1
  | 4 => 2
  | 5 => 3
  | 6 => i ^^^ (n / 2)
  | _ => n - 1 - i

/-- Element i of w bits of a register value. -/
def elemOf (w v i : Nat) : Nat := (v >>> (w * i)) % 2 ^ w

/-- A packed value from its elements, element 0 first. -/
def packElems (w : Nat) : List Nat → Nat
  | [] => 0
  | e :: es => e % 2 ^ w + packElems w es * 2 ^ w

/-- The n elements of a value. -/
def elemsOf (w n v : Nat) : List Nat := (List.range n).map (elemOf w v)

/-- The value of a register operand after half-select and swizzle (R143). -/
def selectValue (w : SrcW) (sel : Sel) (v : Nat) : Nat :=
  match w with
  | .w32 => v
  | .w64 => v
  | .half => if sel.half then elemOf 16 v 1 else elemOf 16 v 0
  | .elem n => elemOf (32 / n) v (swIndex n sel.sw.toNat 0)
  | .packed n => packElems (32 / n) ((List.range n).map (fun i => elemOf (32 / n) v (swIndex n sel.sw.toNat i)))

/-- The signed value of a short immediate field of 7 or 8 bits (R141). -/
def shortImm (bits7 : Nat) (f : Nat) : Int := sintOf bits7 f

/-- An operand's value (R137 to R143). `fw` is the width of its field, 7 or 8; `ty` the operand's type for a short
immediate. -/
def State.operand (s : State) (a : Issuer) (lane : Nat) (x : Ext) (w : SrcW) (ty fw fld : Nat) (sel : Sel) : Nat :=
  let wide := w == .w64
  match sel.cls with
  | .v => selectValue w sel (s.readV a wide fld lane)
  | .k => selectValue w sel (s.readK a wide fld)
  | .special => s.special a lane fld % 2 ^ srcWidth w
  | .lit =>
    if x.form = .x01 then
      let v := shortImm fw fld
      match w with
      | .packed n => replicateElem (32 / n) (immElem ty (32 / n) v) n
      | _ => immElem ty (srcWidth w) v
    else x.lit.toNat % 2 ^ srcWidth w

/-- A source under its entry (Shape). -/
def State.source (s : State) (a : Issuer) (lane : Nat) (x : Ext) (src : Src) (ty fw fld : Nat) (sel : Sel) : Nat :=
  match src with
  | .none => 0
  | .field => fld
  | .litOnly => x.lit.toNat
  | .vreg w => selectValue w sel (s.readV a (w == .w64) fld lane)
  | .opnd w _ _ _ => s.operand a lane x w ty fw fld sel

/-- The sources of an instruction in a lane. `ty` is the operand's type, 0 where a short immediate is an integer. -/
def State.srcA (s : State) (a : Issuer) (r : Raw) (ty lane : Nat) : Nat :=
  s.source a lane r.x (shapeOf r.op r.len r.x).a ty 7 r.x.a.toNat r.x.selA
def State.srcB (s : State) (a : Issuer) (r : Raw) (ty lane : Nat) : Nat :=
  s.source a lane r.x (shapeOf r.op r.len r.x).b ty 7 r.x.b.toNat r.x.selB
def State.srcC (s : State) (a : Issuer) (r : Raw) (ty lane : Nat) : Nat :=
  s.source a lane r.x (shapeOf r.op r.len r.x).c ty 8 r.x.c.toNat r.x.selC

/-! ## Names -/

/-- The names that a v-class source marked last-read frees (R144). -/
def lastNames (src : Src) (fld : Nat) (last : Bool) (sel : Sel) : List Nat :=
  if !last then []
  else match src with
    | .vreg w => if w == .w64 then [fld, fld + 1] else [fld]
    | .opnd w _ _ _ => if sel.cls == .v then (if w == .w64 then [fld, fld + 1] else [fld]) else []
    | _ => []

/-- Every name an instruction frees (R144). -/
def rawFrees (r : Raw) : List Nat :=
  let sh := shapeOf r.op r.len r.x
  List.flatten [lastNames sh.a r.x.a.toNat r.x.la r.x.selA, lastNames sh.b r.x.b.toNat r.x.lb r.x.selB, lastNames sh.c r.x.c.toNat r.x.lc r.x.selC]

/-- The v names, or m registers, an instruction writes. -/
def rawDests (r : Raw) : List Nat :=
  match (shapeOf r.op r.len r.x).d with
  | .v wide n false => (List.range (if wide then 2 * n else n)).map (r.x.d.toNat + ·)
  | _ => []

/-- What an instruction writes as an agent names it: an m register holds 64 bits. -/
def destsOn (a : Issuer) (r : Raw) : List Nat :=
  match a, (shapeOf r.op r.len r.x).d with
  | .ctx _, .v _ n false => (List.range n).map (r.x.d.toNat + ·)
  | .ctx _, _ => []
  | .slice _ _, _ => rawDests r

/-- Names without those freed. -/
def Slice.free (x : Slice) (ns : List Nat) : Slice := { x with names := x.names.filter (fun p => !ns.contains p.1) }

/-- Held count of a slice after an instruction frees and maps (R144, R167, R168). -/
def Slice.heldAfter (x : Slice) (frees dests : List Nat) : Nat :=
  let y := x.free frees
  y.names.length + (dests.filter (fun n => (mget y.names n).isNone)).length

/-- A name written in the lanes of a mask; a fresh mapping holds 0 elsewhere (R168). -/
def Slice.putReg (x : Slice) (n : Nat) (m : Mask) (f : Nat → Word) : Slice :=
  { x with names := mset x.names n (((mget x.names n).getD ⟨0, 0, 0, 0⟩).upd m f) }

/-- CEIL of a slice's task (R32). -/
def State.ceilOf (s : State) (u : Nat) : Nat := match s.taskOf u with | some t => t.ceil | none => 128

/-- The instruction's frees and mappings stay within CEIL for an agent (R167). Nothing is mapped when no lane acts. -/
def State.room (s : State) (a : Issuer) (r : Raw) : Bool :=
  match a with
  | .slice u i => s.acts a r.x == 0 || decide ((s.sl u i).heldAfter (rawFrees r) (rawDests r) ≤ s.ceilOf u)
  | .ctx _ => true

/-- A later write to v names or m registers takes the lanes where it acts from earlier writes in flight (R171). -/
def State.takeOver (s : State) (a : Issuer) (ns : List Nat) (m : Mask) : State :=
  { s with
    mops := s.mops.map (fun p =>
      if p.2.by_ = a ∧ p.2.kind ≠ .ldk ∧ ns ≠ [] then (p.1, { p.2 with skip := p.2.skip ++ ns.flatMap (fun n => (maskList m).map (fun l => (n, l))) }) else p)
    subs := s.subs.map (fun b => match b.src, a with
      | .launch u i l t d sk fs, .slice u' i' => if u = u' ∧ i = i' ∧ m.getLsbD l then { b with src := .launch u i l t d (sk ++ ns) fs } else b
      | _, _ => b) }

/-- The registers an operation in flight will write. -/
def MemOp.dests (op : MemOp) : List Nat :=
  let es := (op.todo.map (·.elem) ++ op.got.map (fun g => g.2.1)).eraseDups
  match op.kind with
  | .st => []
  | .red => []
  | .hist => []
  | .hitch => [op.dst, op.dst + 1]
  | _ => match op.by_ with
    | .ctx _ => es.map (op.dst + ·)
    | .slice _ _ => if op.wide then es.flatMap (fun e => [op.dst + 2 * e, op.dst + 2 * e + 1]) else es.map (op.dst + ·)

/-- The operation is an LDK of the home gang of a slice, whose k registers that gang's slices share (R162, R294). -/
def MemOp.ldkOf (op : MemOp) (u i : Nat) : Bool :=
  op.kind == .ldk && (match op.by_ with | .slice v j => v == u && j / 8 == i / 8 | .ctx _ => false)

/-- A later write to k registers of a home gang stands against its LDKs in flight (R163); an LDK of the same cycle, which the
memory-and-control pipe issued, writes later. An LDK lists the names it has lost under lane 0. -/
def State.takeOverK (s : State) (u i : Nat) (ns : List Nat) : State :=
  { s with mops := s.mops.map (fun p => if p.2.ldkOf u i && p.2.since != s.cyc (s.coreOf (.slice u i)).die then (p.1, { p.2 with skip := p.2.skip ++ ns.map (fun n => (n, 0)) }) else p) }

/-! ## Results -/

/-- What an instruction gives in a lane: the value of its destination, a predicate, sticky flags, SR draws made. -/
structure Out where
  val : Nat := 0
  q : Bool := false
  fl : Flags := 0
  draws : Nat := 0
deriving DecidableEq, Repr

/-- Where a result goes: nowhere, the D register or pair, the predicate D[2:0], or the D register and a predicate. -/
inductive ODst where
  | none | reg | pred
  | regPred (q : Nat)
deriving DecidableEq, Repr

/-- A predicate written in the lanes of a mask; q7 keeps reading 1 (R164). -/
def setPred (p : Four (BitVec 8)) (q : Nat) (m : Mask) (f : Nat → Bool) : Four (BitVec 8) :=
  if q = 7 then p
  else p.upd m (fun i => let b := p.get i; let bit : BitVec 8 := BitVec.ofNat 8 (2 ^ q); if f i then b ||| bit else b &&& ~~~bit)

/-- The result goes to the D register. -/
def ODst.isReg : ODst → Bool
  | .reg => true
  | .regPred _ => true
  | _ => false

/-- The predicate a result goes to. -/
def ODst.pred? (d : ODst) (r : Raw) : Option Nat :=
  match d with
  | .pred => some (r.x.d.toNat % 8)
  | .regPred q => some q
  | _ => Option.none

/-- A slice after a result without a trap: frees, destination, predicate, flags and draw counts. -/
def Slice.result (x : Slice) (r : Raw) (m : Mask) (dst : ODst) (f : Nat → Out) : Slice :=
  let x := x.free (rawFrees r)
  let d := r.x.d.toNat
  let x :=
    if !dst.isReg ∨ m = 0 then x
    else match (rawDests r) with
      | [_, _] => (x.putReg d m (fun l => BitVec.ofNat 32 (f l).val)).putReg (d + 1) m (fun l => BitVec.ofNat 32 ((f l).val / 2 ^ 32))
      | _ => x.putReg d m (fun l => BitVec.ofNat 32 (f l).val)
  let x := match dst.pred? r with
    | some q => { x with preds := setPred x.preds q m (fun l => (f l).q) }
    | Option.none => x
  { x with fstk := x.fstk.upd m (fun l => x.fstk.get l ||| ((f l).fl).setWidth 32)
           srcnt := x.srcnt.upd m (fun l => x.srcnt.get l + BitVec.ofNat 64 (f l).draws) }

/-- A context after a result: an m register takes 64 bits, a 32-bit result zero-extended (R140). -/
def Ctx.result (x : Ctx) (r : Raw) (m : Mask) (dst : ODst) (f : Nat → Out) : Ctx :=
  let d := r.x.d.toNat
  if m = 0 then x
  else
    let wide := match (shapeOf r.op r.len r.x).d with | .v w _ _ => w | _ => false
    let x := if dst.isReg then { x with regs := mset x.regs d (BitVec.ofNat 64 (if wide then (f 0).val else (f 0).val % 2 ^ 32)) } else x
    let x := match dst.pred? r with
      | some q => { x with preds := (setPred ⟨x.preds, 0, 0, 0⟩ q 1 (fun l => (f l).q)).p0 }
      | Option.none => x
    { x with fstk := x.fstk ||| ((f 0).fl).setWidth 32 }

/-- An agent's part of an instruction: its result in the lanes of a mask and the PC past it, or REGSPACE (R167), which
changes nothing else. -/
def State.commit (s : State) (r : Raw) (a : Issuer) (m : Mask) (dst : ODst) (f : Nat → Out) : State :=
  if !s.room a r then s.trapOne a kIllegal cRegspace 0 0 m
  else
    let t := match a with
      | .slice u i => (s.takeOver a (if dst.isReg then (destsOn a r) else []) m).modSlice u i (fun x => x.result r m dst f)
      | .ctx k => (s.takeOver a (if dst.isReg then (destsOn a r) else []) m).modCtx k (fun x => x.result r m dst f)
    t.advance a r.len.bytes

/-- An instruction that acts lane by lane: in each acting lane its result from the state at issue. -/
def perLane (r : Raw) (dst : ODst) (f : State → Issuer → Nat → Out) (s : State) : State :=
  foldS (fun a t => t.commit r a (s.acts a r.x) dst (f s a)) s.agents s

/-- The acting lanes of the current gang as (agent, lane) in ascending %lane order. -/
def State.actingLanes (s : State) (x : Ext) : List (Issuer × Nat) :=
  let insert (p : Issuer × Nat) (l : List (Issuer × Nat)) := (l.takeWhile (fun q => laneNo q.1 q.2 < laneNo p.1 p.2)) ++ p :: (l.dropWhile (fun q => laneNo q.1 q.2 < laneNo p.1 p.2))
  (s.agents.flatMap (fun a => (maskList (s.acts a x)).map (fun l => (a, l)))).foldr insert []

/-- The contract in force for an agent (R59). -/
def State.contractOf (s : State) (a : Issuer) : Contract := (Config.contract? (s.special a 0 0x0C)).getD default

/-- The k-th draw of a lane's stream after its count (R230 to R232): tag, seed and lane as R232 gives them. -/
def State.laneDraw (s : State) (a : Issuer) (lane k : Nat) : Nat :=
  match a with
  | .slice u i =>
    let x := s.sl u i
    let srv := (s.contractOf a).srv
    srDraw srv (x.seed.get lane) (BitVec.ofNat 64 (s.special a lane 5)) (laneStreamId (s.special a lane 3) (4 * i + lane)) (x.srcnt.get lane + BitVec.ofNat 64 k)
  | .ctx _ => 0

end Sys2Proof.Machine
end

