-- ==== Sys2Proof/Machine/Control.lean ====
section
/-!
DEFINITION. Control-flow instructions (chapter 9): branches, calls, returns, the end of lanes, YIELD, regions, predicate
logic, and the special registers.
-/
namespace Sys2Proof.Machine

/-! ## Branching (R182 to R187) -/

/-- (PC + 4 × offset) mod 2^57 (R182). -/
def target (pc : Nat) (off : Int) : Nat := wrapTo 57 ((pc : Int) + 4 * off)

/-- Branch(T, tgt, J, len) on a slice (R173, R183). none: REJOIN. -/
def Slice.branch (x : Slice) (t : Mask) (tgt join len : Nat) : Option Slice :=
  if t = x.act then some { x with pc := tgt }
  else if t = 0 then some { x with pc := x.pc + len }
  else x.diverge t tgt join len

/-- A slice with q set in the lanes of t and cleared in the other lanes of m (R185); nothing without a q. -/
def Slice.callPred (x : Slice) (q : Option Nat) (m t : Mask) : Slice :=
  match q with | some q => { x with preds := setPred x.preds q m (fun l => t.getLsbD l) } | none => x

/-- An agent's branch with what it writes: the result in the lanes of m, the predicate of CALLX, then Branch. REJOIN and
REGSPACE change nothing else. DESIGN CHOICE (log 128): where a divergent CALL or CALLX meets both, REGSPACE comes first; the spec orders
R167 and R173 nowhere. -/
def State.branchOne (s : State) (r : Raw) (a : Issuer) (q : Option Nat) (dst : ODst) (f : Nat → Out) (t : Mask) (tgt join : Nat) : State :=
  let acts := s.acts a r.x
  match a with
  | .slice u i =>
    let x := s.sl u i
    if !s.room a r then s.trapOne a kIllegal cRegspace 0 0 acts
    else match ((x.result r t dst f).callPred q acts t).branch t tgt join r.len.bytes with
      | none => s.trapOne a kIllegal cRejoin 0 0 acts
      | some y =>
        let s := (s.takeOver a (if dst.isReg then (destsOn a r) else []) t).modSlice u i
          (fun _ => { y with wait := .none, waitCyc := 0, barTok := .none, nwTok := .none, rrTok := .none, gateSince := .none, gateOut := false, xf := [] })
        if y.rejoin.length = x.rejoin.length then s
        else s.trace u i 1 x.pc t (x.act &&& ~~~t) 0 y.rejoin.length
  | .ctx k =>
    (s.takeOver a (if dst.isReg then (destsOn a r) else []) t).modCtx k (fun c =>
      let c := c.result r t dst f
      let preds := match q with | some q => (setPred ⟨c.preds, 0, 0, 0⟩ q acts (fun l => t.getLsbD l)).p0 | none => c.preds
      { c with pc := if t = 0 then c.pc + r.len.bytes else tgt, preds := preds, wait := .none, gateSince := .none, gateOut := false, xf := [] })

/-- The offset of BRA: 21 bits of D, A, B (R183). -/
def braOff (x : Ext) : Int := sintOf 21 (x.d.toNat * 2 ^ 14 + x.a.toNat * 2 ^ 7 + x.b.toNat)
/-- The offset of CALL: 14 bits of A, B (R185). -/
def callOff (x : Ext) : Int := sintOf 14 (x.a.toNat * 2 ^ 7 + x.b.toNat)
/-- The join offset of BRX: 14 bits of D, B (R184). -/
def brxOff (x : Ext) : Int := sintOf 14 (x.d.toNat * 2 ^ 7 + x.b.toNat)
/-- The instruction's target is its literal (R181). -/
def litTarget (r : Raw) : Bool := r.len == .l10 || r.len == .l11

/-- BRA (R183). -/
def bodyBra (r : Raw) (s : State) : State :=
  foldS (fun a t =>
    let pc := s.pcOf a
    let tgt := if litTarget r then r.x.lit.toNat else target pc (braOff r.x)
    let join := if r.len == .l00 || r.len == .l10 || r.x.imm == 0 then tgt else target pc (sintOf 11 r.x.imm.toNat)
    t.branchOne r a none .none (fun _ => {}) (s.acts a r.x) tgt join) s.agents s

/-- The lowest position of a mask. -/
def lowest (m : Mask) : Nat := (maskList m).headD 0

/-- The acting lanes whose A pair equals the lowest acting lane's, and that value (R184). -/
def State.agreeing (s : State) (r : Raw) (a : Issuer) : Mask × Nat :=
  let m := s.acts a r.x
  let tgt := s.srcA a r 0 (lowest m)
  (m &&& maskOf (fun l => s.srcA a r 0 l == tgt), tgt)

/-- BRX (R184). -/
def bodyBrx (r : Raw) (s : State) : State :=
  foldS (fun a t =>
    let (m, tgt) := s.agreeing r a
    t.branchOne r a none .none (fun _ => {}) m tgt (target (s.pcOf a) (brxOff r.x))) s.agents s

/-- CALL (R185). -/
def bodyCall (r : Raw) (s : State) : State :=
  foldS (fun a t =>
    let pc := s.pcOf a
    let ret := pc + r.len.bytes
    let tgt := if litTarget r then r.x.lit.toNat else target pc (callOff r.x)
    let m := s.acts a r.x
    t.branchOne r a none .reg (fun _ => { val := ret }) m tgt ret) s.agents s

/-- CALLX (R185). -/
def bodyCallx (r : Raw) (s : State) : State :=
  foldS (fun a t =>
    let (m, tgt) := s.agreeing r a
    let ret := s.pcOf a + r.len.bytes
    t.branchOne r a (some r.x.b.toNat) .reg (fun _ => { val := ret }) m tgt ret) s.agents s

/-- RET (R186). -/
def bodyRet (r : Raw) (s : State) : State :=
  foldS (fun a t =>
    let (m, tgt) := s.agreeing r a
    if m = s.acts a r.x then t.branchOne r a none .none (fun _ => {}) m tgt tgt
    else t.trapOne a kIllegal cTarget 0 0 (s.acts a r.x)) s.agents s

/-! ## NOP, YIELD, regions, PLOP (R189 to R192) -/

/-- NOP (R189). -/
def bodyNop (r : Raw) (s : State) : State := foldS (fun a t => t.advance a r.len.bytes) s.agents s

/-- YIELD: not ready for the next 64 cycles (R190). -/
def bodyYield (r : Raw) (s : State) : State :=
  foldS (fun a t =>
    let t := t.advance a r.len.bytes
    if s.acts a r.x = 0 then t
    else
      let e := s.cyc (s.coreOf a).die + 65
      match a with
      | .slice u i => t.modSlice u i (fun x => { x with yieldEnd := e })
      | .ctx k => t.modCtx k (fun x => { x with yieldEnd := e })) s.agents s

/-- The region identifier of ENTER and LEAVE (R191). -/
def regionId (x : Ext) : Nat := bits x.d.toNat 1 0 * 2 ^ 14 + x.a.toNat * 2 ^ 7 + x.b.toNat

def State.regionOf (s : State) (a : Issuer) : List (BitVec 16) :=
  match a with | .slice u i => (s.sl u i).region | .ctx k => (s.ctx k).region
def State.setRegion (s : State) (a : Issuer) (g : List (BitVec 16)) : State :=
  match a with
  | .slice u i => s.modSlice u i (fun x => { x with region := g })
  | .ctx k => s.modCtx k (fun x => { x with region := g })
/-- The region edge of a slice; contexts never stop (R464). -/
def State.edge (s : State) (a : Issuer) (pc id : Nat) (leave : Bool) : State :=
  match a with | .slice u i => s.regionEdge u i pc id leave | .ctx _ => s

/-- ENTER (R191). -/
def bodyEnter (r : Raw) (s : State) : State :=
  let id := regionId r.x
  foldS (fun a t =>
    if id = 0 ∨ (s.regionOf a).length = 16 then t.trapOne a kIllegal cRegion 0 0 (s.actOf a)
    else ((t.setRegion a (BitVec.ofNat 16 id :: s.regionOf a)).advance a r.len.bytes).edge a (s.pcOf a) id false) s.agents s

/-- LEAVE (R191). -/
def bodyLeave (r : Raw) (s : State) : State :=
  let id := regionId r.x
  foldS (fun a t =>
    match s.regionOf a with
    | [] => t.trapOne a kIllegal cRegion 0 0 (s.actOf a)
    | g :: gs =>
      if id ≠ 0 ∧ g.toNat ≠ id then t.trapOne a kIllegal cRegion 0 0 (s.actOf a)
      else ((t.setRegion a gs).advance a r.len.bytes).edge a (s.pcOf a) g.toNat true) s.agents s

/-- PLOP (R192): FN[2 × q[A] + q[B]]. -/
def plopValue (fn : Nat) (a b : Bool) : Bool := bitAt fn (2 * bit01 a + bit01 b)
def bodyPlop (r : Raw) (s : State) : State :=
  perLane r .pred (fun s a l => { q := plopValue (r.x.d.toNat / 8) (s.pred a l r.x.a.toNat) (s.pred a l r.x.b.toNat) }) s

/-! ## Special registers (R193 to R195) -/

/-- Capability classes (R61 to R63): 0 absent, 1 full, 2 half, 3 quarter. -/
def vectorClass (n : Nat) : Nat := if (Config.contract? n).isSome then 1 else 0
def spliceClass (n : Nat) : Nat := if (Config.contract? n).isSome then 1 else 0
/-- The MATRIX class with no fenced sub-array (R62). -/
def matrixFull (n : Nat) : Nat :=
  if (Config.contract? n).isNone then 0 else if n = 1 ∨ n = 2 ∨ n = 43 then 2 else if n = 3 then 3 else 1
/-- MXSTAT.MODE of a quad (R314): 0 FULL4, 1 HALF2, 2 QTR1, 3 NONE. -/
def Quad.mode (q : Quad) : Nat :=
  match 4 - ((List.range 4).filter (fun i => q.fenced.getLsbD i)).length with
  | 4 => 0
  | 3 => 1
  | 2 => 1
  | 1 => 2
  | _ => 3
/-- A class stepped down by the fusing mode (R63). -/
def stepDown (cls mode : Nat) : Nat := if cls = 0 ∨ mode = 3 ∨ 3 < cls + mode then 0 else cls + mode
def matrixClass (q : Quad) (n : Nat) : Nat := if q.absent then 0 else stepDown (matrixFull n) q.mode
/-- CAPC of a contract number seen from a quad (R61). -/
def capc (q : Quad) (n : Nat) : Nat := spliceClass n * 16 + matrixClass q n * 4 + vectorClass n

/-- The splice class of a pool node for a contract: that of R62 for Vaneku's nodes, unless its capability record says otherwise. -/
def State.nodeClass (s : State) (node n : Nat) : Nat := (mget s.nodeClasses (node * 4096 + n)).getD (spliceClass n)
/-- The SPDM-measured capability record of a pool node: its splice class for each contract (R62). -/
def State.nodeRecord (s : State) (node : Nat) : List (Nat × Nat) := Config.catalogue.map (fun c => (c.num, s.nodeClass node c.num))

/-- The value SMOV reads (R193, R194). -/
def State.smovValue (s : State) (r : Raw) (a : Issuer) (l : Nat) : Nat :=
  let n := r.x.a.toNat
  let t := s.team (s.teamOf a)
  let v :=
    if n < 0x20 then s.special a l n
    else match n with
      | 0x20 => match t with | some t => t.trapBase.toNat | none => 0
      | 0x21 => match t with | some t => t.trapMask.toNat | none => 0
      | 0x22 => capc (s.quad (s.coreOf a)) (bits (s.srcB a r 0 l) 11 0)
      | 0x23 => s.ge 0x20048
      | _ => s.ge 0x20050
  if tyOf 3 r.x = 4 then v else v % 2 ^ 32

/-- SMOV (R194). -/
def bodySmov (r : Raw) (s : State) : State := perLane r .reg (fun s a l => { val := s.smovValue r a l }) s

/-- TRAPBASE and TRAPMASK as a write leaves them: RSV bits are ignored (R10, R436). -/
def trapBaseOf (v : Nat) : DWord := BitVec.ofNat 64 (bits v 56 12 * 4096)
def trapMaskOf (v : Nat) : Word := BitVec.ofNat 32 v &&& 0xC6200#32

/-- SSET (R195): the value of the acting lane with the highest %lane. -/
def bodySset (r : Raw) (s : State) : State :=
  let t := match (s.actingLanes r.x).getLast? with
    | none => s
    | some (a, l) =>
      let v := s.srcA a r 0 l
      s.modTeam (s.teamOf a) (fun t => if r.x.d = 0x20 then { t with trapBase := trapBaseOf v } else { t with trapMask := trapMaskOf v })
  perLane r .none (fun _ _ _ => {}) t

/-! ## Ending lanes (R188) -/

/-- A store or RED of an agent that has not been translated and whose lanes meet a mask (R188, R453). -/
def State.storesOf (s : State) (a : Issuer) (m : Mask) (before : Nat) : Bool :=
  s.mops.any (fun p => decide (p.1 < before) && p.2.by_ == a && (p.2.kind == .st || p.2.kind == .red) &&
    p.2.todo.any (fun e => m.getLsbD e.lane && e.place.isNone))

/-- A context has matrix operations, transfers, accesses or copies that have not completed (R329). -/
def State.ctxBusy (s : State) (k : Nat) : Bool := s.ctxFlies k || s.copies.any (fun p => p.2.by_ == .ctx k)

/-- SEQEND (R329): once all has completed, the release at `.core`, the exit code m0[15:0], and the stop. The writes of a
context are at the home or in the SRAM already (R277, R278), so the release moves nothing. -/
def State.seqEnd (s : State) (k len : Nat) : State :=
  if s.ctxBusy k then s.setWait (.ctx k) .stores
  else
    (s.modCtx k (fun x => { x with run := .ended, exit := ((mget x.regs 0).getD 0).toNat % 2 ^ 16, wait := .none, pc := x.pc + len })).ctxDone k

/-- EXIT (R188): a slice waits at it until the acting lanes' earlier stores have translated. -/
def bodyExit (r : Raw) (s : State) : State :=
  foldS (fun a t =>
    let m := s.acts a r.x
    match a with
    | .slice u i =>
      if m = 0 then t.advance a r.len.bytes
      else if s.storesOf a m s.nextId then t.setWait a .stores
      else (t.advance a r.len.bytes).endLanes u i m true
    | .ctx k => if m = 0 then t.advance a r.len.bytes else t.seqEnd k r.len.bytes) s.agents s

/-- KILL (R188). -/
def bodyKill (r : Raw) (s : State) : State :=
  foldS (fun a t =>
    let m := s.acts a r.x
    match a with
    | .slice u i => if m = 0 then t.advance a r.len.bytes else (t.advance a r.len.bytes).endLanes u i m false
    | .ctx k => if m = 0 then t.advance a r.len.bytes else t.seqEnd k r.len.bytes) s.agents s

/-! ## The meanings -/

def execNop (b : Base) (s : State) : Host.Outcome State Fault Refusal := issue (.base .nop b) s (bodyNop (.base .nop b))
def execNopExt (x : Ext) (s : State) : Host.Outcome State Fault Refusal := issue (.ext .nop x) s (bodyNop (.ext .nop x))
def execBra (b : Base) (s : State) : Host.Outcome State Fault Refusal := issue (.base .bra b) s (bodyBra (.base .bra b))
def execBraExt (x : Ext) (s : State) : Host.Outcome State Fault Refusal := issue (.ext .bra x) s (bodyBra (.ext .bra x))
def execBrx (b : Base) (s : State) : Host.Outcome State Fault Refusal := issue (.base .brx b) s (bodyBrx (.base .brx b))
def execBrxExt (x : Ext) (s : State) : Host.Outcome State Fault Refusal := issue (.ext .brx x) s (bodyBrx (.ext .brx x))
def execCall (b : Base) (s : State) : Host.Outcome State Fault Refusal := issue (.base .call b) s (bodyCall (.base .call b))
def execCallExt (x : Ext) (s : State) : Host.Outcome State Fault Refusal := issue (.ext .call x) s (bodyCall (.ext .call x))
def execCallx (b : Base) (s : State) : Host.Outcome State Fault Refusal := issue (.base .callx b) s (bodyCallx (.base .callx b))
def execCallxExt (x : Ext) (s : State) : Host.Outcome State Fault Refusal := issue (.ext .callx x) s (bodyCallx (.ext .callx x))
def execRet (b : Base) (s : State) : Host.Outcome State Fault Refusal := issue (.base .ret b) s (bodyRet (.base .ret b))
def execRetExt (x : Ext) (s : State) : Host.Outcome State Fault Refusal := issue (.ext .ret x) s (bodyRet (.ext .ret x))
def execExit (b : Base) (s : State) : Host.Outcome State Fault Refusal := issue (.base .exit b) s (bodyExit (.base .exit b))
def execExitExt (x : Ext) (s : State) : Host.Outcome State Fault Refusal := issue (.ext .exit x) s (bodyExit (.ext .exit x))
def execKill (b : Base) (s : State) : Host.Outcome State Fault Refusal := issue (.base .kill b) s (bodyKill (.base .kill b))
def execKillExt (x : Ext) (s : State) : Host.Outcome State Fault Refusal := issue (.ext .kill x) s (bodyKill (.ext .kill x))
def execYield (b : Base) (s : State) : Host.Outcome State Fault Refusal := issue (.base .yield b) s (bodyYield (.base .yield b))
def execYieldExt (x : Ext) (s : State) : Host.Outcome State Fault Refusal := issue (.ext .yield x) s (bodyYield (.ext .yield x))
def execEnter (b : Base) (s : State) : Host.Outcome State Fault Refusal := issue (.base .enter b) s (bodyEnter (.base .enter b))
def execEnterExt (x : Ext) (s : State) : Host.Outcome State Fault Refusal := issue (.ext .enter x) s (bodyEnter (.ext .enter x))
def execLeave (b : Base) (s : State) : Host.Outcome State Fault Refusal := issue (.base .leave b) s (bodyLeave (.base .leave b))
def execLeaveExt (x : Ext) (s : State) : Host.Outcome State Fault Refusal := issue (.ext .leave x) s (bodyLeave (.ext .leave x))
def execPlop (b : Base) (s : State) : Host.Outcome State Fault Refusal := issue (.base .plop b) s (bodyPlop (.base .plop b))
def execPlopExt (x : Ext) (s : State) : Host.Outcome State Fault Refusal := issue (.ext .plop x) s (bodyPlop (.ext .plop x))
def execSmov (b : Base) (s : State) : Host.Outcome State Fault Refusal := issue (.base .smov b) s (bodySmov (.base .smov b))
def execSmovExt (x : Ext) (s : State) : Host.Outcome State Fault Refusal := issue (.ext .smov x) s (bodySmov (.ext .smov x))
def execSset (b : Base) (s : State) : Host.Outcome State Fault Refusal := issue (.base .sset b) s (bodySset (.base .sset b))
def execSsetExt (x : Ext) (s : State) : Host.Outcome State Fault Refusal := issue (.ext .sset x) s (bodySset (.ext .sset x))

end Sys2Proof.Machine
end

