-- ==== Sys2Proof/Machine/Contract.lean ====
section
/-!
DEFINITION. The accumulation procedure (R50 to R57) and the common rounding step of the float instructions (R239).
-/
namespace Sys2Proof.Machine

/-- The mode in force for an RM code under a contract (R60). -/
def Contract.mode (c : Contract) (code : Nat) : RMode := RMode.ofCode c.rfm code

/-- PF(c), when products are rounded (R51). -/
def Contract.pf (c : Contract) : Fmt := { e := c.pexp, f := c.pfrac }

/-- A term of ContractSum: x, and y unless it is ONE, each with the format that its input flush uses; none where the
element was flushed before scaling (R223). -/
structure Term where
  x : Num
  xf : Option Fmt
  y : Option Num := none
  yf : Option Fmt := none
deriving DecidableEq, Repr

/-- Where a sum ends: a format, or an EXACT cell (R55, R321). -/
inductive SumDst where
  | fmt (f : Fmt)
  | exact
deriving DecidableEq, Repr

/-- The input flush of R50. -/
def flushIn (c : Contract) (f : Option Fmt) (x : Num) : Num × Flags :=
  match f with
  | some f => if c.subnIn then flushSub f x else (x, .none)
  | none => (x, .none)

/-- One product of R50: its value, whether it is infinity times zero, and its flags. -/
def product (c : Contract) (x : Num) : Option Num → Num × Bool × Flags
  | none => (x, false, .none)
  | some y =>
    if x.isNaN || y.isNaN then (.qnan, false, .none)
    else
      let (v, bad) := mulNum x y
      if bad || v.isInf then (v, bad, .none)
      else
        let (v, f1) := if c.pexp ≠ 0 then roundTo (Contract.pf c) v c.rim 0 else (v, .none)
        let (v, f2) := if c.subnProd then flushSub (if c.pexp ≠ 0 then Contract.pf c else fp32) v else (v, .none)
        (v, false, f1 ||| f2)

/-- A term after its input flush and product. -/
structure Prepared where
  inputs : List Num
  p : Num
  bad : Bool
  fl : Flags
deriving DecidableEq, Repr

def prepare (c : Contract) (t : Term) : Prepared :=
  let (x, f1) := flushIn c t.xf t.x
  match t.y with
  | none => { inputs := [x], p := x, bad := false, fl := f1 }
  | some y =>
    let (y, f2) := flushIn c t.yf y
    let (p, bad, f3) := product c x (some y)
    { inputs := [x, y], p := p, bad := bad, fl := f1 ||| f2 ||| f3 }

/-- OR of a list of flags. -/
def orFlags : List Flags → Flags
  | [] => .none
  | f :: fs => f ||| orFlags fs

/-- SpecialResult (R55). -/
def specialResult (c : Contract) (init : Num) (ts : List Prepared) (dst : SumDst) : Num × Flags :=
  let f := match dst with | .fmt f => f | .exact => fp32
  let infs := (init :: ts.map (·.p)).filter Num.isInf
  let nans := (init :: (ts.map (·.inputs)).flatten).filter Num.isNaN
  if ts.any (·.bad) || (infs.any Num.neg && infs.any (fun x => !x.neg)) then (f.canonNaN, .nv)
  else match nans with
    | n :: _ => if c.nan then nanTo f n else (f.canonNaN, Flags.when (nans.any Num.isSNaN) .nv ||| f.canonFlags)
    | [] => (match infs with | x :: _ => x | [] => .zero false, .none)

/-- TruncTo(v, 2^q) (R50) with the part discarded reported; a zero keeps the term's sign. -/
def truncTo (q : Int) (x : Num) : Num × Bool :=
  match x with
  | .fin n m e =>
    if q ≤ e then (x, false)
    else
      let sh := (q - e).toNat
      (.fin n (m >>> sh) q, decide (m % 2 ^ sh ≠ 0))
  | _ => (x, false)

/-- A group sum (R50): the terms aligned against MaxExp and added exactly. -/
def groupSum (c : Contract) (g : List Num) (zm : RMode) : Num × Flags :=
  match (if c.align = 0 then none else maxInt? (g.filterMap Num.log2?)) with
  | none => (sumFin g zm, .none)
  | some mx =>
    let ts := g.map (truncTo (mx - c.align + 1))
    (sumFin (ts.map (·.1)) zm, Flags.when (ts.any (·.2)) .nx)

/-- An addition rounded once to f (R52). -/
def addRound (f : Fmt) (a b : Num) (rm : RMode) : Num × Flags :=
  let (x, bad) := addNum a b rm
  if bad then (f.canonNaN, .nv) else roundTo f x rm 0

/-- Tree(f, s, m) (R50); fuel is at least the length of s. -/
def sumTree (f : Fmt) (rm : RMode) : Nat → List Num → Num × Flags
  | 0, s => (s.headD (.zero false), .none)
  | k + 1, s =>
    match s with
    | [] => (.zero false, .none)
    | [x] => (x, .none)
    | _ =>
      let h := 2 ^ Nat.log2 (s.length - 1)
      let (l, f1) := sumTree f rm k (s.take h)
      let (r, f2) := sumTree f rm k (s.drop h)
      let (v, f3) := addRound f l r rm
      (v, f1 ||| f2 ||| f3)

/-- Consecutive runs of n values; fuel is at least the length of the list (R50 Groups). -/
def chunks {α : Type} (n : Nat) : Nat → List α → List (List α)
  | 0, _ => []
  | k + 1, l => if l.isEmpty then [] else l.take n :: chunks n k (l.drop n)

/-- Sequential combination of the group sums in a format (R50). -/
def seqSum (f : Fmt) (rm : RMode) : List Num → Num × Flags → Num × Flags
  | [], acc => acc
  | g :: gs, (a, fl) =>
    let (v, f1) := addRound f a g rm
    seqSum f rm gs (v, fl ||| f1)

/-- The partial sum `a` of FP26 accumulation with the first group after a promotion: its 0 is not an addend (R51). -/
def startOrAdd (f : Fmt) (rm : RMode) (a : Option Num) (g : Num) : Num × Flags :=
  match a with
  | none => roundTo f g rm 0
  | some a => addRound f a g rm

/-- The FP32 total after a partial sum enters it (R50). -/
def promote (rm : RMode) (t : Num) (a : Option Num) : Num × Flags :=
  match a with
  | none => roundTo fp32 t rm 0
  | some a => addRound fp32 t a rm

/-- FP26 accumulation with promotion into FP32 every PROM groups (R50). R51 says of the partial's 0 after each promotion that it is no
addend; DESIGN CHOICE (log 132): the 0 before any promotion is none either, which decides the sign of a sum of zeros. -/
def promSum (c : Contract) : List Num → Num → Option Num → Nat → Flags → Num × Flags
  | [], t, a, _, fl =>
    let (v, f) := promote c.rim t a
    (v, fl ||| f)
  | g :: gs, t, a, n, fl =>
    let (a, f1) := startOrAdd fp26 c.rim a g
    if n + 1 = c.prom then
      let (t, f2) := promote c.rim t (some a)
      promSum c gs t none 0 (fl ||| f1 ||| f2)
    else promSum c gs t (some a) (n + 1) (fl ||| f1)

/-- The accumulator format (R51); none stands for exact-then-round. -/
def accFormat (c : Contract) (is64 : Bool) : Option Fmt :=
  if is64 then some fp64
  else match c.accw with
    | .fp26 => some fp26
    | .fp32 => some fp32
    | .fp40 => some fp40
    | .exact => none

/-- The combination of init with the group sums (R50). fm is the final mode. -/
def combineGroups (c : Contract) (af : Option Fmt) (init : Num) (s : List Num) (fm : RMode) : Num × Flags :=
  match s, af with
  | [], _ => (init, .none)
  | _, none => (sumFin [init, sumFin s fm] fm, .none)
  | _, some f =>
    if c.tree then
      let (t, f1) := sumTree f c.rim s.length s
      let (v, f2) := addRound f init t c.rim
      (v, f1 ||| f2)
    else if f = fp26 then promSum c s init none 0 .none
    else seqSum f c.rim s (init, .none)

/-- The final rounding of R50. -/
def finishSum (c : Contract) (dst : SumDst) (acc : Num) (fm : RMode) (r : Nat) : Num × Flags :=
  match dst with
  | .exact => (acc, .none)
  | .fmt f =>
    let (d, f1) := roundTo f acc fm r
    if c.subnRes then
      let (d, f2) := flushSub f d
      (d, f1 ||| f2)
    else (d, f1)

/-- A value, a product or init is special (R55). -/
def anySpecial (init : Num) (ts : List Prepared) : Bool :=
  !init.isFinite || ts.any (fun t => t.bad || !t.p.isFinite || t.inputs.any (fun x => !x.isFinite))

/-- The group sums of R50 with their flags; `xs` is the extra group of R53. -/
def groupSums (c : Contract) (af : Option Fmt) (zm : RMode) (ts xs : List Prepared) : List (Num × Flags) :=
  (chunks (2 ^ c.groupLog) ts.length (ts.map (·.p)) ++ (if xs.isEmpty then [] else [xs.map (·.p)])).map (fun g =>
    let (v, f) := groupSum c g zm
    match af with
    | some af => if c.gr then (let (v, f2) := roundTo af v c.rim 0; (v, f ||| f2)) else (v, f)
    | none => (v, f))

/-- ContractSum (R50 to R57), with the extra outlier group of R53. is64 tells whether any x or y is FP64, fm is the
final mode after R60, r the one draw that SR uses. -/
def contractSum (c : Contract) (init : Num) (terms extra : List Term) (is64 : Bool) (dst : SumDst) (fm : RMode)
    (r : Nat) : Num × Flags :=
  let af := accFormat c is64
  let ts := terms.map (prepare c)
  let xs := extra.map (prepare c)
  let fl := orFlags ((ts ++ xs).map (·.fl))
  if anySpecial init (ts ++ xs) then
    let (v, f) := specialResult c init (ts ++ xs) dst
    (v, fl ||| f)
  else
    let sums := groupSums c af (match af with | none => fm | some _ => c.rim) ts xs
    let (acc, f1) := combineGroups c af init (sums.map (·.1)) fm
    let (d, f2) := finishSum c dst acc fm r
    (d, fl ||| orFlags (sums.map (·.2)) ||| f1 ||| f2)

/-! ## Sums interrupted at a group boundary (R344, R348, R349) -/

/-- Where a sum stands: the groups summed, the running total, and for FP26 accumulation the partial sum, if it has begun, with its group
count. -/
structure SumPart where
  groups : Nat
  total : Num
  part : Option Num := none
  count : Nat := 0
deriving DecidableEq, Repr

/-- The FP26 loop of R50 without its end: the total, the partial sum, its group count and the flags. -/
def promPart (c : Contract) : List Num → Num → Option Num → Nat → Flags → Num × Option Num × Nat × Flags
  | [], t, a, n, fl => (t, a, n, fl)
  | g :: gs, t, a, n, fl =>
    let (a, f1) := startOrAdd fp26 c.rim a g
    if n + 1 = c.prom then
      let (t, f2) := promote c.rim t (some a)
      promPart c gs t none 0 (fl ||| f1 ||| f2)
    else promPart c gs t (some a) (n + 1) (fl ||| f1)

/-- ContractSum goes on to a group boundary (R348), with the flags of the groups that it sums. A sum with a special operand stays as it
stood, since R50 reaches no group of it. -/
def contractPart (c : Contract) (p : SumPart) (terms : List Term) (is64 : Bool) (groups : Nat) : SumPart × Flags :=
  let ts := terms.map (prepare c)
  match accFormat c is64 with
  | none => (p, .none)
  | some af =>
    if anySpecial p.total ts then ({ p with groups := groups }, .none)
    else
      let sums := ((groupSums c (some af) c.rim ts []).drop p.groups).take (groups - p.groups)
      let fl := orFlags (sums.map (·.2))
      if af = fp26 then
        let (t, a, n, f) := promPart c (sums.map (·.1)) p.total p.part p.count .none
        ({ groups := groups, total := t, part := a, count := n }, fl ||| f)
      else
        let (t, f) := seqSum af c.rim (sums.map (·.1)) (p.total, .none)
        ({ groups := groups, total := t }, fl ||| f)

/-- ContractSum from where an interruption left it to its end (R349). -/
def contractRest (c : Contract) (p : SumPart) (terms : List Term) (is64 : Bool) (dst : SumDst) (fm : RMode) (r : Nat) : Num × Flags :=
  let ts := terms.map (prepare c)
  let fl := orFlags (ts.map (·.fl))
  match accFormat c is64 with
  | none => contractSum c p.total terms [] is64 dst fm r
  | some af =>
    if anySpecial p.total ts then
      let (v, f) := specialResult c p.total ts dst
      (v, fl ||| f)
    else
      let sums := (groupSums c (some af) c.rim ts []).drop p.groups
      let (acc, f1) := if af = fp26 then promSum c (sums.map (·.1)) p.total p.part p.count .none else seqSum af c.rim (sums.map (·.1)) (p.total, .none)
      let (d, f2) := finishSum c dst acc fm r
      (d, fl ||| orFlags (sums.map (·.2)) ||| f1 ||| f2)

/-- The entry of the partial array of an image (R344). -/
def SumPart.entry (p : SumPart) : Nat := p.count * 2 ^ 32 + fp26.encode (p.part.getD (.zero false))
/-- A sum as an image holds it: the running total of its cell, and its entry of the partial array. -/
def SumPart.ofImage (groups : Nat) (total : Num) (entry : Nat) : SumPart :=
  { groups := groups, total := total, count := bits entry 36 32, part := if bits entry 36 32 = 0 then none else some (fp26.decode (entry % 2 ^ 32)) }

/-- An operation under the contract stops at a group boundary when its team halts (R348). -/
def Contract.interruptible (c : Contract) : Bool := !c.tree && c.accw != .exact

/-- ContractTree's contract (R50). -/
def Contract.treeForm (c : Contract) : Contract := { c with groupLog := 0, tree := true, align := 0 }

/-- ContractTree (R50), as Finish of R394 gives it: beside a special result stand the flags of R55 alone (log 13). -/
def contractTree (c : Contract) (terms : List Term) (is64 : Bool) (dst : SumDst) (fm : RMode) (r : Nat) :
    Num × Flags :=
  let c := Contract.treeForm c
  let ts := terms.map (prepare c)
  if anySpecial (.zero false) ts then specialResult c (.zero false) ts dst else contractSum c (.zero false) terms [] is64 dst fm r

/-! ## The common rounding step of the float instructions (R239) -/

/-- FIn(x, f). -/
def fIn (c : Contract) (f : Fmt) (x : Num) : Num × Flags := if c.subnIn then flushSub f x else (x, .none)

/-- The result flush of R239. -/
def fRes (c : Contract) (f : Fmt) (x : Num × Flags) : Num × Flags :=
  if c.subnRes then (let (d, g) := flushSub f x.1; (d, x.2 ||| g)) else x

/-- An exact value as a computation delivers it: a value, or a magnitude with its sign. -/
inductive XVal where
  | num (x : Num)
  | mag (neg : Bool) (a : Mag)
deriving DecidableEq, Repr

/-- RoundTo of such a value. -/
def roundX (f : Fmt) (x : XVal) (rm : RMode) (r : Nat) : Num × Flags :=
  match x with
  | .num x => roundTo f x rm r
  | .mag n a => roundMag f n a rm r

/-- FOut's NaN rule (R239). -/
def fNaN (c : Contract) (f : Fmt) (ops : List Num) (inv : Bool) : Num × Flags :=
  let fl := Flags.when (inv || ops.any Num.isSNaN) .nv
  if inv || !c.nan then (f.canonNaN, fl ||| f.canonFlags)
  else match ops.filter Num.isNaN with
    | n :: _ => (let (d, g) := nanTo f n; (d, fl ||| g))
    | [] => (f.canonNaN, fl)

/-- FOut(f, x, ops, invalid, rm) (R239), rm after R60. The draw of SR is counted by the caller whatever the path. -/
def fOut (c : Contract) (f : Fmt) (x : XVal) (ops : List Num) (inv : Bool) (rm : RMode) (r : Nat) : Num × Flags :=
  if inv || ops.any Num.isNaN then fNaN c f ops inv
  else fRes c f (roundX f x rm r)

/-- R240: FADD, FMUL and FFMA as one operation. -/
inductive ArithOp where
  | add | sub | mul | fma
deriving DecidableEq, Repr

/-- The R240 result for containers of format f. -/
def floatArith (c : Contract) (f : Fmt) (op : ArithOp) (a b c3 : Nat) (rm : RMode) (r : Nat) : Num × Flags :=
  let (a, f1) := fIn c f (f.decode a)
  let (b, f2) := fIn c f (f.decode b)
  match op with
  | .add =>
    let (x, bad) := addNum a b rm
    let (d, f3) := fOut c f (.num x) [a, b] bad rm r
    (d, f1 ||| f2 ||| f3)
  | .sub =>
    let (x, bad) := addNum a b.flip rm
    let (d, f3) := fOut c f (.num x) [a, b] bad rm r
    (d, f1 ||| f2 ||| f3)
  | .mul =>
    let (x, bad) := mulNum a b
    let (d, f3) := fOut c f (.num x) [a, b] bad rm r
    (d, f1 ||| f2 ||| f3)
  | .fma =>
    let (c3, f3) := fIn c f (f.decode c3)
    let (x, bad) := mulNum a b
    let (y, bad') := addNum x c3 rm
    let (d, f4) := fOut c f (.num y) [a, b, c3] (bad || bad') rm r
    (d, f1 ||| f2 ||| f3 ||| f4)

/-- R241: FSCALE. -/
def floatScale (c : Contract) (a b : Nat) (rm : RMode) (r : Nat) : Num × Flags :=
  let (a, f1) := fIn c fp32 (fp32.decode a)
  let n := sintOf 32 b
  let x := match a with
    | .fin s m e => .fin s m (e + (if n < -100000 then -100000 else if 100000 < n then 100000 else n))
    | y => y
  let (d, f2) := fOut c fp32 (.num x) [a] false rm r
  (d, f1 ||| f2)

/-- R242: minimum or maximum of two values of format f. -/
def floatMinMax (c : Contract) (f : Fmt) (isMax : Bool) (a b : Num) : Num × Flags :=
  if a.isNaN && b.isNaN then fNaN c f [a, b] false
  else if a.isNaN then (b, Flags.when a.isSNaN .nv)
  else if b.isNaN then (a, Flags.when b.isSNaN .nv)
  else
    let k := cmpNum a b
    let aLess := decide (k < 0) || (decide (k = 0) && a.neg && !b.neg)
    let aMore := decide (k > 0) || (decide (k = 0) && !a.neg && b.neg)
    (if isMax then (if aMore then a else b) else (if aLess then a else b), .none)

/-- R243: the relation of two values: 0 LT, 1 EQ, 2 GT, 3 UN. -/
def relation (a b : Num) : Nat :=
  if a.isNaN || b.isNaN then 3 else
    let k := cmpNum a b
    if k < 0 then 0 else if k = 0 then 1 else 2

/-- R243: the condition table, a mask over the relations for each code, and whether a quiet NaN sets NV. -/
def fcmpCond (cond rel : Nat) : Bool :=
  match cond with
  | 0 => rel == 1
  | 1 => rel == 0 || rel == 2
  | 2 => rel == 0
  | 3 => rel == 0 || rel == 1
  | 4 => rel == 2
  | 5 => rel == 2 || rel == 1
  | 6 => rel != 3
  | 7 => rel == 3
  | 8 => rel == 3 || rel == 1
  | 9 => rel != 1
  | 10 => rel == 3 || rel == 0
  | 11 => rel == 3 || rel == 0 || rel == 1
  | 12 => rel == 3 || rel == 2
  | _ => rel == 3 || rel == 2 || rel == 1

/-- R243: FCMP's truth and flags. -/
def floatCompare (cond : Nat) (a b : Num) : Bool × Flags :=
  (fcmpCond cond (relation a b),
    Flags.when (a.isSNaN || b.isSNaN || ((a.isNaN || b.isNaN) && decide (2 ≤ cond) && decide (cond ≤ 5))) .nv)

/-- R244: the class mask of a value of format f. -/
def floatClass (f : Fmt) (x : Num) : Nat :=
  match x with
  | .nan _ s _ _ => if s then 2 ^ 8 else 2 ^ 9
  | .inf n => if n then 2 ^ 0 else 2 ^ 7
  | .fin n 0 _ => if n then 2 ^ 3 else 2 ^ 4
  | .fin n m e =>
    if (Nat.log2 m : Int) + e < f.emin then (if n then 2 ^ 2 else 2 ^ 5) else (if n then 2 ^ 1 else 2 ^ 6)

/-- R246: FDIV. -/
def floatDiv (c : Contract) (f : Fmt) (a b : Nat) (rm : RMode) (r : Nat) : Num × Flags :=
  let (a, f1) := fIn c f (f.decode a)
  let (b, f2) := fIn c f (f.decode b)
  let s := a.neg ^^ b.neg
  let inv := (a.isZero && b.isZero) || (a.isInf && b.isInf)
  let dz := a.isFinite && !a.isZero && b.isZero
  let x : XVal := match a, b with
    | .fin _ 0 _, _ => .num (.zero s)
    | .fin _ _ _, .fin _ 0 _ => .num (.inf s)
    | .fin _ m e, .fin _ m' e' => .mag s (divMag m e m' e')
    | .inf _, _ => .num (.inf s)
    | _, _ => .num (.zero s)
  let (d, f3) := fOut c f x [a, b] inv rm r
  (d, f1 ||| f2 ||| Flags.when dz .dz ||| f3)

/-- R246: FSQRT. -/
def floatSqrt (c : Contract) (f : Fmt) (a : Nat) (rm : RMode) (r : Nat) : Num × Flags :=
  let (a, f1) := fIn c f (f.decode a)
  let inv := !a.isNaN && a.neg && !a.isZero
  let x : XVal := match a with
    | .fin _ 0 _ => .num a
    | .fin _ m e => .mag false (sqrtMag m e)
    | y => .num y
  let (d, f2) := fOut c f x [a] inv rm r
  (d, f1 ||| f2)

end Sys2Proof.Machine
end

