-- ==== Sys2Proof/Machine/Blocks.lean ====
section
/-!
DEFINITION. Matrix operand formats (R216): elements, block scales, codebook weights and their decoding (R219 to R225).
-/
namespace Sys2Proof.Machine

/-- The element of a matrix operand format: a float, an integer, an MXINT8 value, or a VQ2 weight. -/
inductive ElemFmt where
  | flt (f : Fmt)
  | int (t : IFmt)
  | mxint
  | vq
deriving DecidableEq, Repr

/-- The scale formats (R219, R223). -/
inductive ScaleFmt where
  | e8m0 | e4m3 | fp16
deriving DecidableEq, Repr

/-- A row of R216: the element, its width in a packed array, the tile bits, and the block of a scaled format. -/
structure MatFmt where
  elem : ElemFmt
  w : Nat
  tileBits : Nat
  block : Option (Nat × ScaleFmt) := none
deriving DecidableEq, Repr

def int8 : IFmt := { signed := true, w := 8 }
def int4 : IFmt := { signed := true, w := 4 }

/-- The format of a matrix operand code; none for a reserved code (R216). -/
def matFmt (code : Nat) : Option MatFmt :=
  match code with
  | 0x01 => some { elem := .flt fp64, w := 64, tileBits := 64 }
  | 0x02 => some { elem := .flt fp32, w := 32, tileBits := 32 }
  | 0x03 => some { elem := .flt fp19, w := 32, tileBits := 32 }
  | 0x04 => some { elem := .flt bf16, w := 16, tileBits := 16 }
  | 0x05 => some { elem := .flt fp16, w := 16, tileBits := 16 }
  | 0x06 => some { elem := .flt e5m2, w := 8, tileBits := 8 }
  | 0x07 => some { elem := .flt e4m3, w := 8, tileBits := 8 }
  | 0x08 => some { elem := .flt e3m2, w := 6, tileBits := 6 }
  | 0x09 => some { elem := .flt e2m3, w := 6, tileBits := 6 }
  | 0x0A => some { elem := .flt e2m1, w := 4, tileBits := 4 }
  | 0x0B => some { elem := .int { signed := true, w := 16 }, w := 16, tileBits := 16 }
  | 0x0C => some { elem := .int int8, w := 8, tileBits := 8 }
  | 0x0D => some { elem := .int { signed := false, w := 8 }, w := 8, tileBits := 8 }
  | 0x0E => some { elem := .int int4, w := 4, tileBits := 4 }
  | 0x0F => some { elem := .int { signed := false, w := 4 }, w := 4, tileBits := 4 }
  | 0x10 => some { elem := .int { signed := true, w := 2 }, w := 2, tileBits := 2 }
  | 0x11 => some { elem := .flt e5m2, w := 8, tileBits := 8, block := some (32, .e8m0) }
  | 0x12 => some { elem := .flt e4m3, w := 8, tileBits := 8, block := some (32, .e8m0) }
  | 0x13 => some { elem := .flt e3m2, w := 6, tileBits := 6, block := some (32, .e8m0) }
  | 0x14 => some { elem := .flt e2m3, w := 6, tileBits := 6, block := some (32, .e8m0) }
  | 0x15 => some { elem := .flt e2m1, w := 4, tileBits := 4, block := some (32, .e8m0) }
  | 0x16 => some { elem := .mxint, w := 8, tileBits := 8, block := some (32, .e8m0) }
  | 0x17 => some { elem := .flt e2m1, w := 4, tileBits := 4, block := some (16, .e4m3) }
  | 0x18 => some { elem := .int int4, w := 4, tileBits := 4, block := some (16, .fp16) }
  | 0x19 => some { elem := .vq, w := 2, tileBits := 2, block := some (64, .fp16) }
  | 0x1A => some { elem := .vq, w := 2, tileBits := 2, block := some (64, .fp16) }
  | _ => none

/-- The value of an element code; VQ2 weights come from `vqWeight`. -/
def ElemFmt.decode (e : ElemFmt) (v : Nat) : Num :=
  match e with
  | .flt f => f.decode v
  | .int t => Num.ofInt (if t.signed then sintOf t.w v else ((v % 2 ^ t.w : Nat) : Int))
  | .mxint => match Num.ofInt (sintOf 8 v) with | .fin s m k => .fin s m (k - 6) | x => x
  | .vq => .zero false

/-- The float format of an element, on which the input flush acts (R50, R223). -/
def ElemFmt.fmt? (e : ElemFmt) : Option Fmt := match e with | .flt f => some f | _ => none

/-- The width of a scale code in bits. -/
def ScaleFmt.w (f : ScaleFmt) : Nat := match f with | .fp16 => 16 | _ => 8

/-- The value of a scale code (R219, R223). -/
def ScaleFmt.decode (f : ScaleFmt) (v : Nat) : Num :=
  match f with
  | .e8m0 => if v % 256 = 255 then .qnan else .fin false 1 ((v % 256 : Nat) - 127)
  | .e4m3 => Fmt.decode Machine.e4m3 v
  | .fp16 => Fmt.decode Machine.fp16 v

/-- VQ2Weight (R224) from the row of the codebook that the index selects. -/
def vqWeight (row i j : Nat) : Num :=
  let m := elemOf4 row j
  let s := if j < 7 then bitAt i (8 + j) else ((List.range 7).filter (fun b => bitAt i (8 + b))).length % 2 == 1
  .fin s (2 * m + bit01 (bitAt i 15)) (-3)
where
  elemOf4 (v j : Nat) : Nat := (v >>> (4 * j)) % 16

/-- A product of R223 with its quiet NaN, and whether it is infinity times zero. -/
def scaleProduct (e sc : Num) : Num × Bool :=
  if e.isNaN || sc.isNaN then (.qnan, false)
  else let (v, bad) := mulNum e sc; (if bad || v.isNaN then .qnan else v, bad)

/-- Decode (R223) of an element under the input flush of a contract: the value, infinity times zero, and the flags of the
flush. -/
def decodeScaled (c : Contract) (e : ElemFmt) (elem sc : Num) : Num × Bool × Flags :=
  let (x, fl) := match e.fmt? with
    | some f => if c.subnIn then flushSub f elem else (elem, .none)
    | none => (elem, .none)
  let (v, bad) := scaleProduct x sc
  (v, bad, fl)

end Sys2Proof.Machine
end

