-- ==== Sys2Proof/Machine/Functab.lean ====
section
/-!
DEFINITION. The function-table instructions (R247 to R249). The tables' coefficients and the correctly rounded values
are computed from the functions themselves in fixed point with 384 fraction bits; DEDUCED (log 11): that many bits
decide every rounding that the rules ask for, as no FP32 argument brings an irrational value of these functions within
2^-250 of a rounding boundary.
-/
namespace Sys2Proof.Machine

/-- The six functions of R247. -/
inductive FtFn where
  | rcp | rsq | exp2 | log2 | sin | cos
deriving DecidableEq, Repr

/-- Fraction bits of the fixed-point values below. -/
def fxW : Nat := 384

/-- floor(pi * 2^768). -/
def piFx : Nat := 0x3243f6a8885a308d313198a2e03707344a4093822299f31d0082efa98ec4e6c89452821e638d01377be5466cf34e90c6cc0ac29b7c97c50dd3f84d5b5b54709179216d5d98979fb1bd1310ba698dfb5ac2ffd72dbd01adfb7b8e1afed6a267e96

/-- floor(ln 2 * 2^384). -/
def ln2Fx : Nat := 0xb17217f7d1cf79abc9e3b39803f2f6af40f343267298b62d8a0d175b8baafa2be7b876206debac98559552fb4afa1b10

/-- Product of two fixed-point values. -/
def fxMul (a b : Int) : Int := (a * b) / (2 ^ fxW : Nat)

/-- 1.0 in fixed point. -/
def fxOne : Int := (2 ^ fxW : Nat)

/-- pi / 2 in fixed point. -/
def halfPiFx : Int := (piFx >>> (768 - fxW + 1) : Nat)

/-- The sum of x^k / k! from a term on (the exponential series), by the number of terms left. -/
def expSeries (x : Int) : Nat → Nat → Int → Int
  | 0, _, _ => 0
  | n + 1, k, t => t + expSeries x n (k + 1) (fxMul t x / (k + 1 : Nat))

/-- 2^u for u in [0, 1], in fixed point. -/
def exp2Fx (u : Int) : Int := expSeries (fxMul u ln2Fx) 96 0 fxOne

/-- The alternating series of sine (from k = 1) and cosine (from k = 0), by terms left; x2 = x^2. -/
def trigSeries (x2 : Int) : Nat → Nat → Int → Int
  | 0, _, _ => 0
  | n + 1, k, t => t + trigSeries x2 n (k + 2) (-(fxMul t x2 / ((k + 1) * (k + 2) : Nat)))

def sinFx (x : Int) : Int := trigSeries (fxMul x x) 64 1 x
def cosFx (x : Int) : Int := trigSeries (fxMul x x) 64 0 fxOne

/-- The series of the inverse hyperbolic tangent, by terms left. -/
def atanhSeries (y2 : Int) : Nat → Nat → Int → Int
  | 0, _, _ => 0
  | n + 1, k, p => p / (k : Nat) + atanhSeries y2 n (k + 2) (fxMul p y2)

/-- log2 of u in [1, 2], in fixed point. -/
def log2Fx (u : Int) : Int :=
  let y := (u - fxOne) * fxOne / (u + fxOne)
  2 * atanhSeries (fxMul y y) 130 1 y * fxOne / (ln2Fx : Int)

/-- 1 / u. -/
def rcpFx (u : Int) : Int := fxOne * fxOne / u

/-- 1 / sqrt(u). -/
def rsqFx (u : Int) : Int := (isqrt (fxOne * fxOne * fxOne / u).toNat : Nat)

/-- The tables of R248: reciprocal, the two of FRSQ, 2^u, log2, S and C. -/
inductive FtTab where
  | rcp | rsq0 | rsq1 | exp2 | log2 | s | c
deriving DecidableEq, Repr

/-- Bs of R248. -/
def FtTab.base : FtTab → Int
  | .exp2 | .s | .c => 0
  | _ => 1

/-- g(u) of R248. -/
def FtTab.g (t : FtTab) (u : Int) : Int :=
  match t with
  | .rcp => rcpFx u
  | .rsq0 => rsqFx u
  | .rsq1 => rsqFx (2 * u)
  | .exp2 => exp2Fx u
  | .log2 => log2Fx u
  | .s => sinFx (fxMul halfPiFx u)
  | .c => cosFx (fxMul halfPiFx u)

/-- g'(u). -/
def FtTab.g1 (t : FtTab) (u : Int) : Int :=
  let r := rcpFx u
  match t with
  | .rcp => -(fxMul r r)
  | .rsq0 => -(fxMul (t.g u) r / 2)
  | .rsq1 => -(fxMul (t.g u) r / 2)
  | .exp2 => fxMul (exp2Fx u) ln2Fx
  | .log2 => r * fxOne / (ln2Fx : Int)
  | .s => fxMul halfPiFx (cosFx (fxMul halfPiFx u))
  | .c => -(fxMul halfPiFx (sinFx (fxMul halfPiFx u)))

/-- g''(u) / 2. -/
def FtTab.g2 (t : FtTab) (u : Int) : Int :=
  let r := rcpFx u
  match t with
  | .rcp => fxMul r (fxMul r r)
  | .rsq0 => fxMul (t.g u) (fxMul r r) * 3 / 8
  | .rsq1 => fxMul (t.g u) (fxMul r r) * 3 / 8
  | .exp2 => fxMul (exp2Fx u) (fxMul ln2Fx ln2Fx) / 2
  | .log2 => -(fxMul r r * fxOne / (2 * (ln2Fx : Int)))
  | .s => -(fxMul (fxMul halfPiFx halfPiFx) (sinFx (fxMul halfPiFx u)) / 2)
  | .c => -(fxMul (fxMul halfPiFx halfPiFx) (cosFx (fxMul halfPiFx u)) / 2)

/-- Fix(v, 2^-b) of R248, in units of 2^-b. No value it is applied to lies at a tie. -/
def fixTo (b : Nat) (v : Int) : Int := (v + (2 ^ (fxW - b - 1) : Nat)) / (2 ^ (fxW - b) : Nat)

/-- The coefficients c0, c1, c2 of interval i, in units of 2^-30, 2^-26, 2^-20 (R248). -/
def ftCoeffs (t : FtTab) (ftab i : Nat) : Int × Int × Int :=
  let x := t.base * fxOne + (i : Int) * (2 ^ (fxW - 6) : Nat)
  let (k0, k1, k2) :=
    if ftab = 1 then (t.g x, t.g1 x, t.g2 x)
    else
      let g0 := t.g x
      let g1 := t.g (x + (2 ^ (fxW - 7) : Nat))
      let g2 := t.g (x + (2 ^ (fxW - 6) : Nat))
      (g0, 64 * (4 * g1 - 3 * g0 - g2), 8192 * (g0 - 2 * g1 + g2))
  (fixTo 30 k0, fixTo 26 k1, fixTo 20 k2)

/-- TruncTo of an integer by a right shift: toward zero. -/
def tShift (v : Int) (k : Nat) : Int := if v < 0 then -((v.natAbs >>> k : Nat) : Int) else (v.natAbs >>> k : Nat)

/-- The table polynomial P of R248 at u (fixed point), in units of 2^-30. -/
def ftPoly (t : FtTab) (ftab : Nat) (u : Int) : Int :=
  let d := (u - t.base * fxOne).toNat
  let i := d >>> (fxW - 6)
  let tt : Int := ((d - i <<< (fxW - 6)) >>> (fxW - 29) : Nat)
  let (c0, c1, c2) := ftCoeffs t ftab i
  c0 + tShift (c1 * tt) 25 + tShift (c2 * tt * tt) 48

/-- |a| * 2 / pi in fixed point, for |a| = m * 2^e below 2^128. -/
def quarterTurns (m : Nat) (e : Int) : Nat :=
  let t := 2 ^ 1537 / piFx
  if 0 ≤ e then ((m <<< e.toNat) * t) >>> (768 - fxW) else (m * t) >>> (768 - fxW + (-e).toNat)

/-- a in fixed point for a = s * m * 2^e, rounded down. -/
def fxOf (neg : Bool) (m : Nat) (e : Int) : Int :=
  let k := e + (fxW : Int)
  let v : Int := if 0 ≤ k then (m <<< k.toNat : Nat) else (m >>> (-k).toNat : Nat)
  if neg then -v else v

/-- An integer multiple of 2^e as an exact value. -/
def numAt (v : Int) (e : Int) : Num := .fin (decide (v < 0)) v.natAbs e

/-- The bound put on an exponent before it scales a value that overflows or underflows either way. -/
def clampExp (k : Int) : Int := if k < -2000 then -2000 else if 2000 < k then 2000 else k

/-- V of R248 for a finite nonzero operand that no special case takes. DESIGN CHOICE (log 12): where the polynomial is exactly 0, the
negations of R248 give +0, not -0. -/
def ftTable (f : FtFn) (ftab : Nat) (neg : Bool) (m : Nat) (e : Int) : Num :=
  let k : Int := (Nat.log2 m : Int) + e
  let u : Int := (m <<< (fxW - Nat.log2 m) : Nat)
  match f with
  | .rcp => (numAt (ftPoly .rcp ftab u) (-30 - k)).withNeg neg
  | .rsq => numAt (ftPoly (if k % 2 = 0 then .rsq0 else .rsq1) ftab u) (-30 - k / 2)
  | .exp2 =>
    let a := fxOf neg m e
    let n := a / fxOne
    numAt (ftPoly .exp2 ftab (a - n * fxOne)) (clampExp n - 30)
  | .log2 => numAt (k * (2 ^ 30 : Nat) + ftPoly .log2 ftab u) (-30)
  | .sin | .cos =>
    let y : Int := if neg then -(quarterTurns m e : Int) - 1 else quarterTurns m e
    let n := y / fxOne
    let v := y - n * fxOne
    let p (t : FtTab) := ftPoly t ftab v
    match f == .cos, (n % 4).toNat with
    | false, 0 => numAt (p .s) (-30)
    | false, 1 => numAt (p .c) (-30)
    | false, 2 => numAt (-(p .s)) (-30)
    | false, _ => numAt (-(p .c)) (-30)
    | true, 0 => numAt (p .c) (-30)
    | true, 1 => numAt (-(p .s)) (-30)
    | true, 2 => numAt (-(p .c)) (-30)
    | true, _ => numAt (p .s) (-30)

/-- A value known in fixed point that is not a rational: strictly above its fixed-point floor. -/
def irrational (v : Int) (e : Int) : XVal := .mag (decide (v < 0)) { m := v.natAbs, e := e - fxW, sticky := true }

/-- g(a) of R249 for a finite nonzero operand that no special case takes. -/
def ftExact (f : FtFn) (neg : Bool) (m : Nat) (e : Int) : XVal :=
  let k : Int := (Nat.log2 m : Int) + e
  match f with
  | .rcp => .mag neg (divMag 1 0 m e)
  | .rsq =>
    let (m', e') := if e % 2 = 0 then (m, e) else (2 * m, e - 1)
    let n := 2 ^ 400
    let r := isqrt (n / m')
    .mag false { m := r, e := -200 - e' / 2, sticky := decide (r * r * m' ≠ n) }
  | .exp2 =>
    if 20 < k then .num (.fin false 1 (if neg then -2000 else 2000))
    else
      let a := fxOf neg m e
      let n := a / fxOne
      if a = n * fxOne then .num (.fin false 1 n) else irrational (exp2Fx (a - n * fxOne)) n
  | .log2 =>
    if m = 2 ^ Nat.log2 m then .num (.ofInt k)
    else irrational (k * fxOne + log2Fx (m <<< (fxW - Nat.log2 m) : Nat)) 0
  | .sin | .cos =>
    if k < -60 then
      (if f == .cos then .mag false { m := 2 ^ 100 - 1, e := -100, sticky := true }
       else .mag neg { m := (m <<< 60) - 1, e := e - 60, sticky := true })
    else
      let y : Int := quarterTurns m e
      let n := y / fxOne
      let x := fxMul halfPiFx (y - n * fxOne)
      match f == .cos, (n % 4).toNat with
      | false, 0 => irrational (if neg then -(sinFx x) else sinFx x) 0
      | false, 1 => irrational (if neg then -(cosFx x) else cosFx x) 0
      | false, 2 => irrational (if neg then sinFx x else -(sinFx x)) 0
      | false, _ => irrational (if neg then cosFx x else -(cosFx x)) 0
      | true, 0 => irrational (cosFx x) 0
      | true, 1 => irrational (-(sinFx x)) 0
      | true, 2 => irrational (-(cosFx x)) 0
      | true, _ => irrational (sinFx x) 0

/-- The special cases of R247; none where the operand reaches R248 or R249. -/
def ftSpecial (f : FtFn) (a : Num) : Option (Num × Flags) :=
  match f, a with
  | _, .nan _ _ _ _ => none
  | .rcp, .inf n => some (.zero n, .none)
  | .rcp, .fin n 0 _ => some (.inf n, .dz)
  | .rsq, .inf n => some (if n then (.qnan, .nv) else (.zero false, .none))
  | .rsq, .fin n 0 _ => some (.inf n, .dz)
  | .rsq, .fin n _ _ => if n then some (.qnan, .nv) else none
  | .exp2, .inf n => some (if n then .zero false else .inf false, .none)
  | .exp2, .fin _ 0 _ => some (.one, .none)
  | .log2, .inf n => some (if n then (.qnan, .nv) else (.inf false, .none))
  | .log2, .fin _ 0 _ => some (.inf true, .dz)
  | .log2, .fin n _ _ => if n then some (.qnan, .nv) else none
  | .sin, .inf _ => some (.qnan, .nv)
  | .sin, .fin n 0 _ => some (.zero n, .none)
  | .cos, .inf _ => some (.qnan, .nv)
  | .cos, .fin _ 0 _ => some (.one, .none)
  | _, _ => none

/-- A function-table instruction (R247 to R249) on an FP32 container, under RNE. -/
def floatTable (c : Contract) (f : FtFn) (a : Nat) : Num × Flags :=
  let (a, f1) := fIn c fp32 (fp32.decode a)
  match ftSpecial f a, a with
  | some (d, f2), _ => (d, f1 ||| f2)
  | none, .fin n m e =>
    let x := if c.ftab = 3 then ftExact f n m e else .num (ftTable f c.ftab n m e)
    let (d, f2) := fOut c fp32 x [a] false .rne 0
    (d, f1 ||| f2)
  | none, _ =>
    let (d, f2) := fOut c fp32 (.num a) [a] false .rne 0
    (d, f1 ||| f2)

end Sys2Proof.Machine
end

