-- ==== Sys2Proof/Machine/Integer.lean ====
section
/-!
DEFINITION. Integer instructions (chapter 10).
-/
namespace Sys2Proof.Machine

/-! ## Element arithmetic (R199) -/

/-- The type code is signed, .iN. -/
def tySigned (t : Nat) : Bool := decide (5 ≤ t) && decide (t ≤ 8)
/-- Elements of a type in a source: packed for 8 and 16 bits. -/
def tyCount (t : Nat) : Nat := match tyBits t with | 8 => 4 | 16 => 2 | _ => 1
/-- Val(x, t). -/
def valTy (t v : Nat) : Int := if tySigned t then sintOf (tyBits t) v else ((v % 2 ^ tyBits t : Nat) : Int)
/-- Sat(v, t) or Wrap(v, E(t)) as bits. -/
def fitTy (t : Nat) (sat : Bool) (v : Int) : Nat :=
  wrapTo (tyBits t) (if sat then IFmt.sat { signed := tySigned t, w := tyBits t } v else v)
/-- An operation on each element of one or two packed values. -/
def map1 (t : Nat) (f : Nat → Nat) (a : Nat) : Nat := packElems (tyBits t) ((elemsOf (tyBits t) (tyCount t) a).map f)
def map2 (t : Nat) (f : Nat → Nat → Nat) (a b : Nat) : Nat :=
  packElems (tyBits t) (List.zipWith f (elemsOf (tyBits t) (tyCount t) a) (elemsOf (tyBits t) (tyCount t) b))

/-- IADD, ISUB, IADD64 (R203). -/
def addSub (t : Nat) (sub sat : Bool) (a b : Nat) : Nat :=
  map2 t (fun x y => fitTy t sat (if sub then valTy t x - valTy t y else valTy t x + valTy t y)) a b

/-- IADDC and ISUBB: the word and the carry or borrow (R203). -/
def addCarry (a b c : Nat) : Nat × Bool := ((a + b + c) % 2 ^ 32, decide (2 ^ 32 ≤ a + b + c))
def subBorrow (a b c : Nat) : Nat × Bool := (wrapTo 32 ((a : Int) - b - c), decide (a < b + c))

/-- IMUL, IMULH, IMAD, IMAD64 (R204). -/
def imul (t a b : Nat) : Nat := map2 t (fun x y => fitTy t false (valTy t x * valTy t y)) a b
def imulh (t a b : Nat) : Nat := wrapTo 64 (valTy t a * valTy t b) / 2 ^ 32
def imad (t a b c : Nat) : Nat := wrapTo 32 (valTy t a * valTy t b + valTy t c)
def imad64 (t a b c : Nat) : Nat := wrapTo 64 (valTy t a * valTy t b + (c : Int))

/-- IMIN, IMAX, IABS (R205). -/
def iminmax (t : Nat) (isMax : Bool) (a b : Nat) : Nat :=
  map2 t (fun x y => if (valTy t x < valTy t y) != isMax then x else y) a b
def iabs (t : Nat) (sat : Bool) (a : Nat) : Nat := map1 t (fun x => fitTy t sat ((valTy t x).natAbs : Nat)) a

/-- AND, OR, XOR, ANDN on w bits (R206). -/
def logic (op : Op) (w a b : Nat) : Nat :=
  match op with
  | .and => a &&& b
  | .or => a ||| b
  | .xor => a ^^^ b
  | _ => a &&& (b ^^^ (2 ^ w - 1))

/-- SHL, SHR, SAR of one element by an amount (R207). -/
def shiftElem (op : Op) (w x s : Nat) : Nat :=
  let s := min s w
  match op with
  | .shl => (x <<< s) % 2 ^ w
  | .shr => x >>> s
  | _ => wrapTo w (sintOf w x / (2 ^ s : Nat))
/-- The amounts come per element for packed types, and once for the others. -/
def shift (op : Op) (t a b : Nat) : Nat :=
  if tyCount t = 1 then shiftElem op (tyBits t) a b else map2 t (fun x s => shiftElem op (tyBits t) x s) a b

/-- SHF and ROT (R208). -/
def funnel (right : Bool) (a b c : Nat) : Nat :=
  let s := min c 32
  let f := a * 2 ^ 32 + b
  if right then (f >>> s) % 2 ^ 32 else ((f <<< s) % 2 ^ 64) / 2 ^ 32
def rotate (right : Bool) (w a b : Nat) : Nat :=
  let s := b % w
  let f := a * 2 ^ w + a
  if right then (f >>> s) % 2 ^ w else (f >>> (w - s)) % 2 ^ w

/-- BFX and BFI (R209): position p = bits [7:0], length q = bits [15:8]. -/
def bfx (t a c : Nat) : Nat :=
  let p := bits c 7 0
  let q := bits c 15 8
  if q = 0 then 0
  else
    let f := ((valTy t a / (2 ^ p : Nat)) % (2 ^ q : Nat)).toNat
    wrapTo (tyBits t) (if tySigned t then sintOf q f else (f : Int))
def bfi (w a b c : Nat) : Nat :=
  let p := bits c 7 0
  let q := bits c 15 8
  let m := (2 ^ min q w - 1) <<< p
  let all := 2 ^ (w + 256) - 1
  ((a &&& (all ^^^ m)) ||| ((b <<< p) &&& m)) % 2 ^ w

/-- POPC, CLZ, BREV on w bits (R210). -/
def popc (w a : Nat) : Nat := ((List.range w).filter (bitAt a)).length
def clz (w a : Nat) : Nat := if a = 0 then w else w - 1 - Nat.log2 a
def brev (w a : Nat) : Nat := ((List.range w).map (fun j => if bitAt a j then 2 ^ (w - 1 - j) else 0)).sum

/-- PERM (R211). -/
def perm (a b c : Nat) : Nat :=
  packElems 8 ((List.range 4).map (fun i =>
    let s := elemOf 4 c i
    let x := elemOf 8 (b * 2 ^ 32 + a) (s % 8)
    if 8 ≤ s then (if 128 ≤ x then 0xFF else 0) else x))

/-- The condition of ICMP on values of a type (R212). -/
def icmpCond (cond t a b : Nat) : Bool :=
  match cond with
  | 0 => a == b
  | 1 => a != b
  | 2 => decide (valTy t a < valTy t b)
  | 3 => decide (valTy t a ≤ valTy t b)
  | 4 => decide (valTy t b < valTy t a)
  | 5 => decide (valTy t b ≤ valTy t a)
  | 6 => a &&& b != 0
  | _ => a &&& b == 0
/-- The combining of ICMP, FCMP and DCMP with q[C] (R212). -/
def combinePred (op : Nat) (v q : Bool) : Bool :=
  match op with
  | 1 => v && q
  | 2 => v || q
  | 3 => v != q
  | _ => v
/-- A comparison's result in a lane after combining. -/
def State.combined (s : State) (a : Issuer) (x : Ext) (l : Nat) (v : Bool) : Bool :=
  combinePred (bits x.imm.toNat 4 3) v (s.pred a l (bits x.imm.toNat 2 0))

/-- The offset of LEA and of memory addresses as an integer modulo 2^64 (R214). -/
def State.leaOff (s : State) (a : Issuer) (r : Raw) (l : Nat) : Int :=
  if r.x.selC.cls = .lit then (if r.x.form = .x01 then shortImm 8 r.x.c.toNat else (r.x.lit.toNat : Int))
  else sintOf 32 (s.srcC a r 0 l)

/-- LEA (R214). -/
def lea (base : Nat) (idx : Int) (sc : Nat) (off : Int) : Nat := wrapTo 64 ((base : Int) + idx * (2 ^ sc : Nat) + off)

/-! ## Lane results -/

/-- The 64-bit or 32-bit result of a two-source integer instruction in a lane. -/
def int2 (r : Raw) (f : Nat → Nat → Nat) (s : State) (a : Issuer) (l : Nat) : Out := { val := f (s.srcA a r 0 l) (s.srcB a r 0 l) }
def int1 (r : Raw) (f : Nat → Nat) (s : State) (a : Issuer) (l : Nat) : Out := { val := f (s.srcA a r 0 l) }
def int3 (r : Raw) (f : Nat → Nat → Nat → Nat) (s : State) (a : Issuer) (l : Nat) : Out :=
  { val := f (s.srcA a r 0 l) (s.srcB a r 0 l) (s.srcC a r 0 l) }

/-- FLAGS[0]. -/
def flag0 (r : Raw) : Bool := bitAt r.x.scope.toNat 0
/-- The type in force with its base type. -/
def rty (r : Raw) (base : Nat) : Nat := tyOf base r.x

def bodyMov (r : Raw) : State → State := perLane r .reg (fun s a l => { val := s.srcB a r 0 l })
def bodyAddSub (r : Raw) (base : Nat) (sub : Bool) : State → State := perLane r .reg (int2 r (addSub (rty r base) sub (flag0 r)))
def bodyCarry (r : Raw) (sub : Bool) : State → State :=
  let i := r.x.imm.toNat
  perLane r (.regPred (bits i 5 3)) (fun s a l =>
    let c := if bitAt i 6 then 0 else bit01 (s.pred a l (bits i 2 0))
    let v := if sub then subBorrow (s.srcA a r 0 l) (s.srcB a r 0 l) c else addCarry (s.srcA a r 0 l) (s.srcB a r 0 l) c
    { val := v.1, q := v.2 })
def bodyImul (r : Raw) : State → State := perLane r .reg (int2 r (imul (rty r 7)))
def bodyImulh (r : Raw) : State → State := perLane r .reg (int2 r (imulh (rty r 7)))
def bodyImad (r : Raw) : State → State := perLane r .reg (int3 r (imad (rty r 7)))
def bodyImad64 (r : Raw) : State → State := perLane r .reg (int3 r (imad64 (rty r 7)))
def bodyMinMax (r : Raw) (isMax : Bool) : State → State := perLane r .reg (int2 r (iminmax (rty r 7) isMax))
def bodyIabs (r : Raw) : State → State := perLane r .reg (int1 r (iabs (rty r 7) (flag0 r)))
def bodyLogic (r : Raw) : State → State := perLane r .reg (int2 r (logic r.op (tyBits (rty r 3))))
def bodyShift (r : Raw) : State → State := perLane r .reg (int2 r (shift r.op (rty r (if r.op = .sar then 7 else 3))))
def bodyShf (r : Raw) : State → State := perLane r .reg (int3 r (funnel (flag0 r)))
def bodyRot (r : Raw) : State → State := perLane r .reg (int2 r (rotate (flag0 r) (tyBits (rty r 3))))
def bodyBfx (r : Raw) : State → State := perLane r .reg (int2 r (bfx (rty r 11)))
def bodyBfi (r : Raw) : State → State := perLane r .reg (int3 r (bfi (tyBits (rty r 3))))
def bodyPopc (r : Raw) : State → State := perLane r .reg (int1 r (popc (tyBits (rty r 3))))
def bodyClz (r : Raw) : State → State := perLane r .reg (int1 r (clz (tyBits (rty r 3))))
def bodyBrev (r : Raw) : State → State := perLane r .reg (int1 r (brev (tyBits (rty r 3))))
def bodyPerm (r : Raw) : State → State := perLane r .reg (int3 r perm)
def bodyIcmp (r : Raw) : State → State :=
  perLane r .pred (fun s a l => { q := s.combined a r.x l (icmpCond (r.x.d.toNat / 8) (rty r 7) (s.srcA a r 0 l) (s.srcB a r 0 l)) })
def bodyIsel (r : Raw) : State → State :=
  perLane r .reg (fun s a l => { val := if s.pred a l (bits r.x.imm.toNat 2 0) then s.srcA a r 0 l else s.srcB a r 0 l })
def bodyLea (r : Raw) : State → State :=
  perLane r .reg (fun s a l =>
    let i := r.x.imm.toNat
    let idx : Int := if bitAt i 3 then 0 else valTy (rty r 7) (s.srcB a r 0 l)
    { val := lea (s.srcA a r 0 l) idx (bits i 2 0) (s.leaOff a r l) })

/-- Write a k register or pair of a slice's home gang. -/
def State.putK (s : State) (u i n : Nat) (wide : Bool) (v : Nat) : State :=
  s.modTeam u (fun t =>
    let f := mset t.kfile (kKey i n) (BitVec.ofNat 32 v)
    { t with kfile := if wide then mset f (kKey i (n + 1)) (BitVec.ofNat 32 (v / 2 ^ 32)) else f })

/-- KMOV (R202): lanes in ascending %lane order, so that each home gang keeps the value of its highest acting lane. -/
def bodyKmov (r : Raw) (s : State) : State :=
  let t := foldS (fun (p : Issuer × Nat) t =>
    match p.1 with
    | .slice u i =>
      (t.takeOverK u i (List.range (if rty r 3 == 4 then 2 else 1) |>.map (r.x.d.toNat + ·))).putK u i r.x.d.toNat (rty r 3 == 4) (s.srcB p.1 r 0 p.2)
    | .ctx _ => t) (s.actingLanes r.x) s
  perLane r .none (fun _ _ _ => {}) t

/-! ## The meanings -/

def execMov (b : Base) (s : State) : Host.Outcome State Fault Refusal := issue (.base .mov b) s (bodyMov (.base .mov b))
def execMovExt (x : Ext) (s : State) : Host.Outcome State Fault Refusal := issue (.ext .mov x) s (bodyMov (.ext .mov x))
def execKmov (b : Base) (s : State) : Host.Outcome State Fault Refusal := issue (.base .kmov b) s (bodyKmov (.base .kmov b))
def execKmovExt (x : Ext) (s : State) : Host.Outcome State Fault Refusal := issue (.ext .kmov x) s (bodyKmov (.ext .kmov x))
def execIadd (b : Base) (s : State) : Host.Outcome State Fault Refusal := issue (.base .iadd b) s (bodyAddSub (.base .iadd b) 7 false)
def execIaddExt (x : Ext) (s : State) : Host.Outcome State Fault Refusal := issue (.ext .iadd x) s (bodyAddSub (.ext .iadd x) 7 false)
def execIsub (b : Base) (s : State) : Host.Outcome State Fault Refusal := issue (.base .isub b) s (bodyAddSub (.base .isub b) 7 true)
def execIsubExt (x : Ext) (s : State) : Host.Outcome State Fault Refusal := issue (.ext .isub x) s (bodyAddSub (.ext .isub x) 7 true)
def execIaddc (b : Base) (s : State) : Host.Outcome State Fault Refusal := issue (.base .iaddc b) s (bodyCarry (.base .iaddc b) false)
def execIaddcExt (x : Ext) (s : State) : Host.Outcome State Fault Refusal := issue (.ext .iaddc x) s (bodyCarry (.ext .iaddc x) false)
def execIsubb (b : Base) (s : State) : Host.Outcome State Fault Refusal := issue (.base .isubb b) s (bodyCarry (.base .isubb b) true)
def execIsubbExt (x : Ext) (s : State) : Host.Outcome State Fault Refusal := issue (.ext .isubb x) s (bodyCarry (.ext .isubb x) true)
def execIadd64 (b : Base) (s : State) : Host.Outcome State Fault Refusal := issue (.base .iadd64 b) s (bodyAddSub (.base .iadd64 b) 8 false)
def execIadd64Ext (x : Ext) (s : State) : Host.Outcome State Fault Refusal := issue (.ext .iadd64 x) s (bodyAddSub (.ext .iadd64 x) 8 false)
def execImul (b : Base) (s : State) : Host.Outcome State Fault Refusal := issue (.base .imul b) s (bodyImul (.base .imul b))
def execImulExt (x : Ext) (s : State) : Host.Outcome State Fault Refusal := issue (.ext .imul x) s (bodyImul (.ext .imul x))
def execImulh (b : Base) (s : State) : Host.Outcome State Fault Refusal := issue (.base .imulh b) s (bodyImulh (.base .imulh b))
def execImulhExt (x : Ext) (s : State) : Host.Outcome State Fault Refusal := issue (.ext .imulh x) s (bodyImulh (.ext .imulh x))
def execImad (x : Ext) (s : State) : Host.Outcome State Fault Refusal := issue (.ext .imad x) s (bodyImad (.ext .imad x))
def execImad64 (x : Ext) (s : State) : Host.Outcome State Fault Refusal := issue (.ext .imad64 x) s (bodyImad64 (.ext .imad64 x))
def execImin (b : Base) (s : State) : Host.Outcome State Fault Refusal := issue (.base .imin b) s (bodyMinMax (.base .imin b) false)
def execIminExt (x : Ext) (s : State) : Host.Outcome State Fault Refusal := issue (.ext .imin x) s (bodyMinMax (.ext .imin x) false)
def execImax (b : Base) (s : State) : Host.Outcome State Fault Refusal := issue (.base .imax b) s (bodyMinMax (.base .imax b) true)
def execImaxExt (x : Ext) (s : State) : Host.Outcome State Fault Refusal := issue (.ext .imax x) s (bodyMinMax (.ext .imax x) true)
def execIabs (b : Base) (s : State) : Host.Outcome State Fault Refusal := issue (.base .iabs b) s (bodyIabs (.base .iabs b))
def execIabsExt (x : Ext) (s : State) : Host.Outcome State Fault Refusal := issue (.ext .iabs x) s (bodyIabs (.ext .iabs x))
def execAnd (b : Base) (s : State) : Host.Outcome State Fault Refusal := issue (.base .and b) s (bodyLogic (.base .and b))
def execAndExt (x : Ext) (s : State) : Host.Outcome State Fault Refusal := issue (.ext .and x) s (bodyLogic (.ext .and x))
def execOr (b : Base) (s : State) : Host.Outcome State Fault Refusal := issue (.base .or b) s (bodyLogic (.base .or b))
def execOrExt (x : Ext) (s : State) : Host.Outcome State Fault Refusal := issue (.ext .or x) s (bodyLogic (.ext .or x))
def execXor (b : Base) (s : State) : Host.Outcome State Fault Refusal := issue (.base .xor b) s (bodyLogic (.base .xor b))
def execXorExt (x : Ext) (s : State) : Host.Outcome State Fault Refusal := issue (.ext .xor x) s (bodyLogic (.ext .xor x))
def execAndn (b : Base) (s : State) : Host.Outcome State Fault Refusal := issue (.base .andn b) s (bodyLogic (.base .andn b))
def execAndnExt (x : Ext) (s : State) : Host.Outcome State Fault Refusal := issue (.ext .andn x) s (bodyLogic (.ext .andn x))
def execShl (b : Base) (s : State) : Host.Outcome State Fault Refusal := issue (.base .shl b) s (bodyShift (.base .shl b))
def execShlExt (x : Ext) (s : State) : Host.Outcome State Fault Refusal := issue (.ext .shl x) s (bodyShift (.ext .shl x))
def execShr (b : Base) (s : State) : Host.Outcome State Fault Refusal := issue (.base .shr b) s (bodyShift (.base .shr b))
def execShrExt (x : Ext) (s : State) : Host.Outcome State Fault Refusal := issue (.ext .shr x) s (bodyShift (.ext .shr x))
def execSar (b : Base) (s : State) : Host.Outcome State Fault Refusal := issue (.base .sar b) s (bodyShift (.base .sar b))
def execSarExt (x : Ext) (s : State) : Host.Outcome State Fault Refusal := issue (.ext .sar x) s (bodyShift (.ext .sar x))
def execShf (x : Ext) (s : State) : Host.Outcome State Fault Refusal := issue (.ext .shf x) s (bodyShf (.ext .shf x))
def execRot (b : Base) (s : State) : Host.Outcome State Fault Refusal := issue (.base .rot b) s (bodyRot (.base .rot b))
def execRotExt (x : Ext) (s : State) : Host.Outcome State Fault Refusal := issue (.ext .rot x) s (bodyRot (.ext .rot x))
def execBfx (b : Base) (s : State) : Host.Outcome State Fault Refusal := issue (.base .bfx b) s (bodyBfx (.base .bfx b))
def execBfxExt (x : Ext) (s : State) : Host.Outcome State Fault Refusal := issue (.ext .bfx x) s (bodyBfx (.ext .bfx x))
def execBfi (x : Ext) (s : State) : Host.Outcome State Fault Refusal := issue (.ext .bfi x) s (bodyBfi (.ext .bfi x))
def execPopc (b : Base) (s : State) : Host.Outcome State Fault Refusal := issue (.base .popc b) s (bodyPopc (.base .popc b))
def execPopcExt (x : Ext) (s : State) : Host.Outcome State Fault Refusal := issue (.ext .popc x) s (bodyPopc (.ext .popc x))
def execClz (b : Base) (s : State) : Host.Outcome State Fault Refusal := issue (.base .clz b) s (bodyClz (.base .clz b))
def execClzExt (x : Ext) (s : State) : Host.Outcome State Fault Refusal := issue (.ext .clz x) s (bodyClz (.ext .clz x))
def execBrev (b : Base) (s : State) : Host.Outcome State Fault Refusal := issue (.base .brev b) s (bodyBrev (.base .brev b))
def execBrevExt (x : Ext) (s : State) : Host.Outcome State Fault Refusal := issue (.ext .brev x) s (bodyBrev (.ext .brev x))
def execPerm (x : Ext) (s : State) : Host.Outcome State Fault Refusal := issue (.ext .perm x) s (bodyPerm (.ext .perm x))
def execIcmp (b : Base) (s : State) : Host.Outcome State Fault Refusal := issue (.base .icmp b) s (bodyIcmp (.base .icmp b))
def execIcmpExt (x : Ext) (s : State) : Host.Outcome State Fault Refusal := issue (.ext .icmp x) s (bodyIcmp (.ext .icmp x))
def execIsel (b : Base) (s : State) : Host.Outcome State Fault Refusal := issue (.base .isel b) s (bodyIsel (.base .isel b))
def execIselExt (x : Ext) (s : State) : Host.Outcome State Fault Refusal := issue (.ext .isel x) s (bodyIsel (.ext .isel x))
def execLea (x : Ext) (s : State) : Host.Outcome State Fault Refusal := issue (.ext .lea x) s (bodyLea (.ext .lea x))

end Sys2Proof.Machine
end

