-- ==== Sys2Proof/Machine/Float.lean ====
section
/-!
DEFINITION. Floating-point instructions (chapter 12).
-/
namespace Sys2Proof.Machine

/-- The float format of a type code, FP32 where it is none. -/
def fmtTy (t : Nat) : Fmt := (fmtOfTy t).getD fp32

/-- A floating-point result in a lane: `f` gets the contract, the mode in force and the lane's draws, and makes n of them
under SR (R57, R230, R239). -/
def floatLane (r : Raw) (n : Nat) (f : Contract → RMode → (Nat → Nat) → Nat × Flags) (s : State) (a : Issuer) (l : Nat) : Out :=
  let c := s.contractOf a
  let fm := Contract.mode c r.x.rm.toNat
  let (v, fl) := f c fm (s.laneDraw a l)
  { val := v, fl := fl, draws := if fm = .sr then n else 0 }

/-- The bits and flags of a rounded value of a format. -/
def encOut (f : Fmt) (x : Num × Flags) : Nat × Flags := (f.encode x.1, x.2)

/-- Two packed 16-bit results, element 0 first. -/
def pack2 (x y : Nat × Flags) : Nat × Flags := (x.1 + y.1 * 2 ^ 16, x.2 ||| y.2)

/-- The elements of a dot product (R252). -/
def dotTerms (f : Fmt) (n a b : Nat) : List Term :=
  (List.range n).map (fun i =>
    let w := 32 / n
    { x := f.decode (elemOf w a i), xf := some f, y := some (f.decode (elemOf w b i)), yf := some f })

/-- FADD, FSUB, FMUL, FFMA and the D forms (R240, R250). -/
def bodyArith (r : Raw) (base : Nat) (op : ArithOp) : State → State :=
  let t := rty r base
  let f := fmtTy t
  perLane r .reg (fun s a l => floatLane r 1 (fun c fm d =>
    encOut f (floatArith c f op (s.srcA a r t l) (s.srcB a r t l) (if op = .fma then s.srcC a r t l else 0) fm (d 0))) s a l)

/-- HADD2, HMUL2, HFMA2 (R251). -/
def bodyPacked (r : Raw) (op : ArithOp) : State → State :=
  let t := rty r 17
  let f := fmtTy t
  perLane r .reg (fun s a l => floatLane r 2 (fun c fm d =>
    let e (i : Nat) := encOut f (floatArith c f op (elemOf 16 (s.srcA a r t l) i) (elemOf 16 (s.srcB a r t l) i)
      (if op = .fma then elemOf 16 (s.srcC a r t l) i else 0) fm (d i))
    pack2 (e 0) (e 1)) s a l)

/-- FMIN, FMAX (R242). -/
def bodyFmin (r : Raw) (isMax : Bool) : State → State :=
  perLane r .reg (fun s a l => floatLane r 0 (fun c _ _ =>
    encOut fp32 (floatMinMax c fp32 isMax (fp32.decode (s.srcA a r 14 l)) (fp32.decode (s.srcB a r 14 l)))) s a l)

/-- HMIN2, HMAX2 (R242, R251). -/
def bodyHmin (r : Raw) (isMax : Bool) : State → State :=
  let t := rty r 17
  let f := fmtTy t
  perLane r .reg (fun s a l => floatLane r 0 (fun c _ _ =>
    let e (i : Nat) := encOut f (floatMinMax c f isMax (f.decode (elemOf 16 (s.srcA a r t l) i)) (f.decode (elemOf 16 (s.srcB a r t l) i)))
    pack2 (e 0) (e 1)) s a l)

/-- FCMP, DCMP (R243). -/
def bodyFcmp (r : Raw) (base : Nat) : State → State :=
  let t := rty r base
  let f := fmtTy t
  perLane r .pred (fun s a l =>
    let (v, fl) := floatCompare (r.x.d.toNat / 8) (f.decode (s.srcA a r t l)) (f.decode (s.srcB a r t l))
    { q := s.combined a r.x l v, fl := fl })

/-- FCLASS (R244), and FCLASS.rdfl, which reads the flags and with .clr clears them (R245). -/
def bodyFclass (r : Raw) (s : State) : State :=
  if flag0 r then
    let fl (a : Issuer) (l : Nat) : Nat := match a with | .slice u i => ((s.sl u i).fstk.get l).toNat | .ctx _ => 0
    foldS (fun a t =>
      let m := s.acts a r.x
      let t := t.commit r a m .reg (fun l => { val := fl a l })
      match a with
      | .slice u i => if bitAt r.x.scope.toNat 1 ∧ s.room a r then t.modSlice u i (fun x => { x with fstk := x.fstk.upd m (fun _ => 0) }) else t
      | .ctx _ => t) s.agents s
  else
    let t := rty r 14
    let f := fmtTy t
    perLane r .reg (fun s a l => { val := floatClass f (f.decode (s.srcA a r t l)) }) s

/-- FSCALE (R241): B is a 32-bit integer. -/
def bodyFscale (r : Raw) : State → State :=
  perLane r .reg (fun s a l => floatLane r 1 (fun c fm d => encOut fp32 (floatScale c (s.srcA a r 14 l) (s.srcB a r 0 l) fm (d 0))) s a l)

/-- FDIV, FSQRT (R246). -/
def bodyFdiv (r : Raw) : State → State :=
  let t := rty r 14
  let f := fmtTy t
  perLane r .reg (fun s a l => floatLane r 1 (fun c fm d => encOut f (floatDiv c f (s.srcA a r t l) (s.srcB a r t l) fm (d 0))) s a l)
def bodyFsqrt (r : Raw) : State → State :=
  let t := rty r 14
  let f := fmtTy t
  perLane r .reg (fun s a l => floatLane r 1 (fun c fm d => encOut f (floatSqrt c f (s.srcA a r t l) fm (d 0))) s a l)

/-- The function-table instructions (R247 to R249), which round under RNE. -/
def bodyTable (r : Raw) (g : FtFn) : State → State :=
  perLane r .reg (fun s a l => floatLane r 0 (fun c _ _ => encOut fp32 (floatTable c g (s.srcA a r 14 l))) s a l)

/-- The element format and count of FDOT and XDOT. -/
def dotFmt (t : Nat) : Fmt × Nat := (fmtTy t, dotN t)

/-- FDOT (R252). -/
def bodyFdot (r : Raw) : State → State :=
  let t := rty r 17
  let (f, n) := dotFmt t
  perLane r .reg (fun s a l => floatLane r 1 (fun c fm d =>
    encOut fp32 (contractSum c (fp32.decode (s.srcC a r 14 l)) (dotTerms f n (s.srcA a r t l) (s.srcB a r t l)) [] false (.fmt fp32) fm (d 0))) s a l)

/-! ## The meanings -/

def execFadd (b : Base) (s : State) : Host.Outcome State Fault Refusal := issue (.base .fadd b) s (bodyArith (.base .fadd b) 14 .add)
def execFaddExt (x : Ext) (s : State) : Host.Outcome State Fault Refusal := issue (.ext .fadd x) s (bodyArith (.ext .fadd x) 14 .add)
def execFsub (b : Base) (s : State) : Host.Outcome State Fault Refusal := issue (.base .fsub b) s (bodyArith (.base .fsub b) 14 .sub)
def execFsubExt (x : Ext) (s : State) : Host.Outcome State Fault Refusal := issue (.ext .fsub x) s (bodyArith (.ext .fsub x) 14 .sub)
def execFmul (b : Base) (s : State) : Host.Outcome State Fault Refusal := issue (.base .fmul b) s (bodyArith (.base .fmul b) 14 .mul)
def execFmulExt (x : Ext) (s : State) : Host.Outcome State Fault Refusal := issue (.ext .fmul x) s (bodyArith (.ext .fmul x) 14 .mul)
def execFfma (x : Ext) (s : State) : Host.Outcome State Fault Refusal := issue (.ext .ffma x) s (bodyArith (.ext .ffma x) 14 .fma)
def execFmin (b : Base) (s : State) : Host.Outcome State Fault Refusal := issue (.base .fmin b) s (bodyFmin (.base .fmin b) false)
def execFminExt (x : Ext) (s : State) : Host.Outcome State Fault Refusal := issue (.ext .fmin x) s (bodyFmin (.ext .fmin x) false)
def execFmax (b : Base) (s : State) : Host.Outcome State Fault Refusal := issue (.base .fmax b) s (bodyFmin (.base .fmax b) true)
def execFmaxExt (x : Ext) (s : State) : Host.Outcome State Fault Refusal := issue (.ext .fmax x) s (bodyFmin (.ext .fmax x) true)
def execFcmp (b : Base) (s : State) : Host.Outcome State Fault Refusal := issue (.base .fcmp b) s (bodyFcmp (.base .fcmp b) 14)
def execFcmpExt (x : Ext) (s : State) : Host.Outcome State Fault Refusal := issue (.ext .fcmp x) s (bodyFcmp (.ext .fcmp x) 14)
def execFclass (b : Base) (s : State) : Host.Outcome State Fault Refusal := issue (.base .fclass b) s (bodyFclass (.base .fclass b))
def execFclassExt (x : Ext) (s : State) : Host.Outcome State Fault Refusal := issue (.ext .fclass x) s (bodyFclass (.ext .fclass x))
def execFscale (b : Base) (s : State) : Host.Outcome State Fault Refusal := issue (.base .fscale b) s (bodyFscale (.base .fscale b))
def execFscaleExt (x : Ext) (s : State) : Host.Outcome State Fault Refusal := issue (.ext .fscale x) s (bodyFscale (.ext .fscale x))
def execFrcp (b : Base) (s : State) : Host.Outcome State Fault Refusal := issue (.base .frcp b) s (bodyTable (.base .frcp b) .rcp)
def execFrcpExt (x : Ext) (s : State) : Host.Outcome State Fault Refusal := issue (.ext .frcp x) s (bodyTable (.ext .frcp x) .rcp)
def execFrsq (b : Base) (s : State) : Host.Outcome State Fault Refusal := issue (.base .frsq b) s (bodyTable (.base .frsq b) .rsq)
def execFrsqExt (x : Ext) (s : State) : Host.Outcome State Fault Refusal := issue (.ext .frsq x) s (bodyTable (.ext .frsq x) .rsq)
def execFsqrt (b : Base) (s : State) : Host.Outcome State Fault Refusal := issue (.base .fsqrt b) s (bodyFsqrt (.base .fsqrt b))
def execFsqrtExt (x : Ext) (s : State) : Host.Outcome State Fault Refusal := issue (.ext .fsqrt x) s (bodyFsqrt (.ext .fsqrt x))
def execFdiv (b : Base) (s : State) : Host.Outcome State Fault Refusal := issue (.base .fdiv b) s (bodyFdiv (.base .fdiv b))
def execFdivExt (x : Ext) (s : State) : Host.Outcome State Fault Refusal := issue (.ext .fdiv x) s (bodyFdiv (.ext .fdiv x))
def execFexp2 (b : Base) (s : State) : Host.Outcome State Fault Refusal := issue (.base .fexp2 b) s (bodyTable (.base .fexp2 b) .exp2)
def execFexp2Ext (x : Ext) (s : State) : Host.Outcome State Fault Refusal := issue (.ext .fexp2 x) s (bodyTable (.ext .fexp2 x) .exp2)
def execFlog2 (b : Base) (s : State) : Host.Outcome State Fault Refusal := issue (.base .flog2 b) s (bodyTable (.base .flog2 b) .log2)
def execFlog2Ext (x : Ext) (s : State) : Host.Outcome State Fault Refusal := issue (.ext .flog2 x) s (bodyTable (.ext .flog2 x) .log2)
def execFsin (b : Base) (s : State) : Host.Outcome State Fault Refusal := issue (.base .fsin b) s (bodyTable (.base .fsin b) .sin)
def execFsinExt (x : Ext) (s : State) : Host.Outcome State Fault Refusal := issue (.ext .fsin x) s (bodyTable (.ext .fsin x) .sin)
def execFcos (b : Base) (s : State) : Host.Outcome State Fault Refusal := issue (.base .fcos b) s (bodyTable (.base .fcos b) .cos)
def execFcosExt (x : Ext) (s : State) : Host.Outcome State Fault Refusal := issue (.ext .fcos x) s (bodyTable (.ext .fcos x) .cos)
def execDadd (b : Base) (s : State) : Host.Outcome State Fault Refusal := issue (.base .dadd b) s (bodyArith (.base .dadd b) 13 .add)
def execDaddExt (x : Ext) (s : State) : Host.Outcome State Fault Refusal := issue (.ext .dadd x) s (bodyArith (.ext .dadd x) 13 .add)
def execDmul (b : Base) (s : State) : Host.Outcome State Fault Refusal := issue (.base .dmul b) s (bodyArith (.base .dmul b) 13 .mul)
def execDmulExt (x : Ext) (s : State) : Host.Outcome State Fault Refusal := issue (.ext .dmul x) s (bodyArith (.ext .dmul x) 13 .mul)
def execDfma (x : Ext) (s : State) : Host.Outcome State Fault Refusal := issue (.ext .dfma x) s (bodyArith (.ext .dfma x) 13 .fma)
def execDcmp (b : Base) (s : State) : Host.Outcome State Fault Refusal := issue (.base .dcmp b) s (bodyFcmp (.base .dcmp b) 13)
def execDcmpExt (x : Ext) (s : State) : Host.Outcome State Fault Refusal := issue (.ext .dcmp x) s (bodyFcmp (.ext .dcmp x) 13)
def execHadd2 (b : Base) (s : State) : Host.Outcome State Fault Refusal := issue (.base .hadd2 b) s (bodyPacked (.base .hadd2 b) .add)
def execHadd2Ext (x : Ext) (s : State) : Host.Outcome State Fault Refusal := issue (.ext .hadd2 x) s (bodyPacked (.ext .hadd2 x) .add)
def execHmul2 (b : Base) (s : State) : Host.Outcome State Fault Refusal := issue (.base .hmul2 b) s (bodyPacked (.base .hmul2 b) .mul)
def execHmul2Ext (x : Ext) (s : State) : Host.Outcome State Fault Refusal := issue (.ext .hmul2 x) s (bodyPacked (.ext .hmul2 x) .mul)
def execHfma2 (x : Ext) (s : State) : Host.Outcome State Fault Refusal := issue (.ext .hfma2 x) s (bodyPacked (.ext .hfma2 x) .fma)
def execHmin2 (b : Base) (s : State) : Host.Outcome State Fault Refusal := issue (.base .hmin2 b) s (bodyHmin (.base .hmin2 b) false)
def execHmin2Ext (x : Ext) (s : State) : Host.Outcome State Fault Refusal := issue (.ext .hmin2 x) s (bodyHmin (.ext .hmin2 x) false)
def execHmax2 (b : Base) (s : State) : Host.Outcome State Fault Refusal := issue (.base .hmax2 b) s (bodyHmin (.base .hmax2 b) true)
def execHmax2Ext (x : Ext) (s : State) : Host.Outcome State Fault Refusal := issue (.ext .hmax2 x) s (bodyHmin (.ext .hmax2 x) true)
def execFdot (x : Ext) (s : State) : Host.Outcome State Fault Refusal := issue (.ext .fdot x) s (bodyFdot (.ext .fdot x))
def execFclassRdfl (x : Ext) (s : State) : Host.Outcome State Fault Refusal := issue (.ext .fclass x) s (bodyFclass (.ext .fclass x))

end Sys2Proof.Machine
end

