-- ==== Sys2Proof/Machine/Convert.lean ====
section
/-!
DEFINITION. Conversion, quantisation and cross-lane instructions (chapter 13), apart from EXPHIST, which stands with the
memory instructions.
-/
namespace Sys2Proof.Machine

/-! ## Conversion (R257, R258) -/

/-- The type code is a floating type (R147). -/
def tyFloat (t : Nat) : Bool := (fmtOfTy t).isSome

/-- RoundTo to a floating type as CVT does, with .sat and the result flush. -/
def cvtFloat (c : Contract) (t : Fmt) (sat : Bool) (x : Num) (fm : RMode) (r : Nat) : Num × Flags :=
  let (d, fl) := roundTo t x fm r
  let (d, fl) := if sat && x.isFinite && d.isInf then (t.max.withNeg x.neg, fl &&& ~~~Flags.ov) else (d, fl)
  if c.subnRes then (let (d, g) := flushSub t d; (d, fl ||| g)) else (d, fl)

/-- CVT of one value from type s to type t (R257): the bits of t, and the flags. -/
def cvtValue (c : Contract) (t s : Nat) (sat : Bool) (v : Nat) (fm : RMode) (r : Nat) : Nat × Flags :=
  match fmtOfTy s, fmtOfTy t with
  | some fs, some ft =>
    let (x, f1) := fIn c fs (fs.decode v)
    let (d, f2) := cvtFloat c ft sat x fm r
    (ft.encode d, f1 ||| f2)
  | some fs, none =>
    let (x, f1) := fIn c fs (fs.decode v)
    let (d, f2) := roundInt { signed := tySigned t, w := tyBits t } x fm r
    (wrapTo (tyBits t) d, f1 ||| f2)
  | none, some ft => encOut ft (cvtFloat c ft sat (Num.ofInt (valTy s v)) fm r)
  | none, none => (fitTy t sat (valTy s v), .none)

/-- An element of w bits put into a word. -/
def putElem (w i old v : Nat) : Nat := setBits old (w * i + w - 1) (w * i) v

/-- The value of D that a narrow result is written into: 0 where the instruction maps D afresh (R168). -/
def State.oldD (s : State) (a : Issuer) (r : Raw) (l : Nat) : Nat :=
  if (rawFrees r).contains r.x.d.toNat then 0 else s.readV a false r.x.d.toNat l

/-- CVT (R257). -/
def bodyCvt (r : Raw) : State → State :=
  let t := rty r 14
  let i := r.x.imm.toNat
  let st := bits i 4 0
  perLane r .reg (fun s a l =>
    let o := floatLane r 1 (fun c fm d => cvtValue c t st (bitAt i 8) (s.srcA a r st l) fm (d 0)) s a l
    if tyBits t < 32 then { o with val := putElem (tyBits t) (bits i 7 5) (s.oldD a r l) o.val } else o)

/-- CVTPK (R258): A first, then B. -/
def bodyCvtpk (r : Raw) : State → State :=
  let t := rty r 17
  let w := tyBits t
  let i := r.x.imm.toNat
  let p := bits i 2 0
  perLane r .reg (fun s a l =>
    floatLane r 2 (fun c fm d =>
      let x := cvtValue c t 14 (bitAt i 3) (s.srcA a r 14 l) fm (d 0)
      let y := cvtValue c t 14 (bitAt i 3) (s.srcB a r 14 l) fm (d 1)
      (putElem w (2 * p + 1) (putElem w (2 * p) (s.oldD a r l) x.1) y.1, x.2 ||| y.2)) s a l)

/-! ## The home gang (R264) -/

/-- The home gang of an agent, and the agent at a position of it. -/
def homeGang (a : Issuer) : Nat := match a with | .slice _ i => i / 8 | .ctx _ => 0
def atPos (a : Issuer) (p : Nat) : Issuer := match a with | .slice u i => .slice u (i / 8 * 8 + p / 4) | .ctx k => .ctx k
/-- A lane's position. -/
def posOf (a : Issuer) (l : Nat) : Nat := laneNo a l % 32

/-- The lane at a position is live. -/
def State.livePos (s : State) (a : Issuer) (p : Nat) : Bool :=
  match atPos a p with
  | .slice u i => match s.slice u i with | some x => x.live.getLsbD (p % 4) | none => false
  | .ctx _ => false

/-- The lane at a position participates. -/
def State.takesPart (s : State) (x : Ext) (a : Issuer) (p : Nat) : Bool :=
  s.livePos a p && s.agents.contains (atPos a p) && (s.acts (atPos a p) x).getLsbD (p % 4)

/-- Source A at a position: 0 when the lane is dead or absent. -/
def State.posA (s : State) (r : Raw) (ty : Nat) (a : Issuer) (p : Nat) : Nat :=
  if s.livePos a p then s.srcA (atPos a p) r ty (p % 4) else 0

/-- The participating positions, in rising order, of the segment of w positions that holds p. -/
def State.segment (s : State) (r : Raw) (a : Issuer) (w p : Nat) : List Nat :=
  ((List.range w).map (fun i => p / w * w + i)).filter (s.takesPart r.x a)

/-- The segment width of WC. -/
def segWidth (wc : Nat) : Nat := 32 / 2 ^ wc

/-! ## Block quantisation (R259, R260) -/

/-- The positions of a block format's block that holds p. -/
def blockWidth (f : MatFmt) : Nat := match f.block with | some (16, _) => 16 | _ => 32

/-- emax of R259's MX rows. -/
def mxEmax (code : Nat) : Int := match code with | 0x11 => 15 | 0x12 => 8 | 0x13 => 4 | 0x14 => 2 | 0x15 => 2 | _ => 0

/-- The largest magnitude of finite values, none when every one is zero or none is finite. -/
def amaxOf (vs : List Num) : Option (Nat × Int) :=
  vs.foldl (fun b v => match v, b with
    | .fin _ 0 _, _ => b
    | .fin _ m e, none => some (m, e)
    | .fin _ m e, some (m', e') => if cmpNum (.fin false m' e') (.fin false m e) < 0 then some (m, e) else b
    | _, _ => b) none

/-- The scale of a block without a NaN: its code and value. -/
def blockScale (code : Nat) (sf : ScaleFmt) (vs : List Num) : Nat × Num :=
  let quot (f : Fmt) (d : Nat) : Nat × Num :=
    match amaxOf vs with
    | none => (0, .zero false)
    | some (m, e) =>
      let x := (roundMag f false (divMag m e d 0) .rup 0).1
      let x := if x.isInf then f.max else x
      (f.encode x, x)
  match sf with
  | .e8m0 =>
    let x : Int := match amaxOf vs with
      | none => -127
      | some (m, e) => let k := (Nat.log2 m : Int) + e - mxEmax code; if k < -127 then -127 else if 127 < k then 127 else k
    ((x + 127).toNat, .fin false 1 x)
  | .e4m3 => quot e4m3 6
  | .fp16 => quot fp16 7

/-- v / sv for finite v and finite nonzero sv. -/
def quotBy (v sv : Num) : XVal :=
  match v, sv with
  | .fin n 0 _, _ => .num (.zero n)
  | .fin n m e, .fin _ m' e' => .mag n (divMag m e m' e')
  | x, _ => .num x

/-- An exact value times 2^6, for MXINT8. -/
def times64 (x : XVal) : XVal :=
  match x with
  | .mag n a => .mag n { a with e := a.e + 6 }
  | .num (.fin n m e) => .num (.fin n m (e + 6))
  | y => y

/-- RoundTo an integer format of such a value. -/
def roundXInt (t : IFmt) (x : XVal) (rm : RMode) (r : Nat) : Int × Flags :=
  match x with
  | .num y => roundInt t y rm r
  | .mag n a =>
    let (k, inexact) := roundAt 0 n a rm r
    let v : Int := if n then -(k : Int) else k
    (t.sat v, Flags.when inexact .nx ||| Flags.when (decide (t.sat v ≠ v)) .nv)

/-- The end of an element format's range of a sign, as a code. -/
def elemEnd (e : ElemFmt) (neg : Bool) : Nat :=
  match e with
  | .flt f => f.encode (f.max.withNeg neg)
  | .int t => wrapTo t.w (if neg then t.lo else t.hi)
  | _ => if neg then 0x80 else 0x7F

/-- QRound (R259): NX, and no OF or NV, beyond the range. -/
def qRound (e : ElemFmt) (x : XVal) (fm : RMode) (r : Nat) : Nat × Flags :=
  match e with
  | .flt f =>
    let (d, fl) := roundX f x fm r
    if fl &&& Flags.ov ≠ 0 then (f.encode (f.max.withNeg d.neg), Flags.nx) else (f.encode d, fl)
  | .int t => let (d, fl) := roundXInt t x fm r; (wrapTo t.w d, if fl &&& Flags.nv ≠ 0 then Flags.nx else fl)
  | _ => let (d, fl) := roundXInt int8 (times64 x) fm r; (wrapTo 8 d, if fl &&& Flags.nv ≠ 0 then Flags.nx else fl)

/-- The element and scale of a NaN block (R259). -/
def nanElem (e : ElemFmt) : Nat := match e with | .flt f => f.encode f.canonNaN | .int t => 2 ^ (t.w - 1) - 1 | _ => 0x7F
def nanScale (s : ScaleFmt) : Nat := match s with | .e8m0 => 0xFF | .e4m3 => 0x7F | .fp16 => 0x7E00

/-- SCALE at its place in the layout of R259. -/
def scaleBits (sf : ScaleFmt) (code : Nat) : Nat := code % 2 ^ sf.w * 2 ^ 16

/-- QBLK of one lane of a block (R259): its value, the block's values and the lane's draw. -/
def qblkLane (c : Contract) (code : Nat) (f : MatFmt) (sf : ScaleFmt) (raw : Nat) (raws : List Nat) (fm : RMode) (r : Nat) : Nat × Flags :=
  let v0 := fp32.decode raw
  let (v, f1) := fIn c fp32 v0
  let vs := raws.map (fun x => (fIn c fp32 (fp32.decode x)).1)
  let fl := f1 ||| Flags.when v0.isSNaN .nv
  if vs.any Num.isNaN then (nanElem f.elem + scaleBits sf (nanScale sf), fl)
  else
    let (sc, sv) := blockScale code sf vs
    if v.isInf then (elemEnd f.elem v.neg + scaleBits sf sc, fl ||| Flags.qsat)
    else if sv.isZero then (scaleBits sf sc, fl)
    else let (q, g) := qRound f.elem (quotBy v sv) fm r; (q + scaleBits sf sc, fl ||| g)

/-- QBLK (R259). -/
def bodyQblk (r : Raw) : State → State :=
  let code := r.x.ty.toNat
  perLane r .reg (fun s a l =>
    match matFmt code with
    | some f => match f.block with
      | some (_, sf) => floatLane r 1 (fun c fm d => qblkLane c code f sf (s.srcA a r 14 l) ((s.segment r a (blockWidth f) (posOf a l)).map (s.posA r 14 a)) fm (d 0)) s a l
      | none => {}
    | none => {})

/-- DQBLK (R260). -/
def bodyDqblk (r : Raw) : State → State :=
  perLane r .reg (fun s a l =>
    match matFmt r.x.ty.toNat with
    | some f => match f.block with
      | some (_, sf) => floatLane r 1 (fun c fm d =>
          let v := s.srcA a r 0 l
          let (x, inv, f1) := decodeScaled c f.elem (f.elem.decode (v % 2 ^ f.w)) (sf.decode (v / 2 ^ 16))
          let (o, f2) := fOut c fp32 (.num x) [x] inv fm (d 0)
          (fp32.encode o, f1 ||| f2)) s a l
      | none => {}
    | none => {})

/-! ## VQDEC (R261) -/

/-- A row of the codebook a slice reads: 0 unless its team owns the state of the core's MSQ context. -/
def State.codebookRow (s : State) (a : Issuer) (row : Nat) : Nat :=
  let x := s.ctx (ctxKey (s.coreOf a) true)
  if x.owner = some (s.teamOf a) then (x.codebook.toNat >>> (32 * row)) % 2 ^ 32 else 0

/-- One decoded weight of VQDEC in a type. -/
def vqdecOne (c : Contract) (t : Fmt) (row i j : Nat) (sc : Num) (fm : RMode) (r : Nat) : Nat × Flags :=
  let (x, inv) := mulNum (vqWeight row i j) sc
  encOut t (fOut c t (.num x) [sc] inv fm r)

/-- VQDEC. -/
def bodyVqdec (r : Raw) : State → State :=
  let t := rty r 17
  let sel := r.x.imm.toNat
  perLane r .reg (fun s a l =>
    let i := s.srcA a r 0 l
    let sc := fp16.decode (s.srcB a r 17 l)
    let row := s.codebookRow a (i % 256)
    if t = 14 then floatLane r 1 (fun c fm d => vqdecOne c fp32 row i (sel % 8) sc fm (d 0)) s a l
    else floatLane r 2 (fun c fm d =>
      pack2 (vqdecOne c (fmtTy t) row i (2 * (sel % 4)) sc fm (d 0)) (vqdecOne c (fmtTy t) row i (2 * (sel % 4) + 1) sc fm (d 1))) s a l)

/-! ## SRSEED (R263) -/

def bodySrseed (r : Raw) (s : State) : State :=
  foldS (fun a t =>
    let m := s.acts a r.x
    let t := t.commit r a m .none (fun _ => {})
    match a with
    | .slice u i => t.modSlice u i (fun x =>
        { x with seed := x.seed.upd m (fun l => BitVec.ofNat 64 (s.srcB a r 0 l)), srcnt := x.srcnt.upd m (fun _ => 0) })
    | .ctx _ => t) s.agents s

/-! ## Cross-lane instructions (R265 to R271) -/

/-- The source position of XSHF for a lane at p with its B. -/
def xshfPos (mode w p b : Nat) : Nat :=
  let sb := p / w * w
  match mode with
  | 0 => sb + b % w
  | 1 => if b < w ∧ sb + b ≤ p then p - b else p
  | 2 => if b < w ∧ p + b < sb + w then p + b else p
  | _ => sb + ((p - sb) ^^^ (b % w))

/-- XSHF (R265). -/
def bodyXshf (r : Raw) : State → State :=
  perLane r .reg (fun s a l => { val := s.posA r 0 a (xshfPos (r.x.scope.toNat % 4) (segWidth r.x.imm.toNat) (posOf a l) (s.srcB a r 0 l)) })

/-- XBCAST (R266). -/
def bodyXbcast (r : Raw) : State → State :=
  perLane r .reg (fun s a _ =>
    match s.segment r a 32 0 with
    | [] => {}
    | p :: _ => { val := s.posA r 0 a (if flag0 r then p else s.srcB (atPos a p) r 0 (p % 4) % 32) })

/-- A fold of FMIN or FMAX with the flags of every step (R267). -/
def foldMinMax (c : Contract) (isMax : Bool) : List Num → Num × Flags
  | [] => (.inf (isMax), .none)
  | v :: vs => vs.foldl (fun (a : Num × Flags) x => let (d, f) := floatMinMax c fp32 isMax a.1 x; (d, a.2 ||| f)) (v, .none)

/-- The combination of R267 over values in ascending position, and R268's identity for none. -/
def reduce (c : Contract) (op t : Nat) (vs : List Nat) (fm : RMode) (d : Nat) : Nat × Flags :=
  let least (isMax : Bool) : Nat := vs.foldl (fun a x => if (valTy t x < valTy t a) != isMax then x else a)
    (match vs with | [] => fitTy t true (if isMax then -(2 ^ 40 : Nat) else (2 ^ 40 : Nat)) | v :: _ => v)
  match op with
  | 0 => (vs.sum % 2 ^ 32, .none)
  | 1 => (least false, .none)
  | 2 => (least true, .none)
  | 3 => (vs.foldl (· &&& ·) 0xFFFFFFFF, .none)
  | 4 => (vs.foldl (· ||| ·) 0, .none)
  | 5 => (vs.foldl (· ^^^ ·) 0, .none)
  | 8 => encOut fp32 (contractSum c (.zero false) (vs.map (fun v => { x := fp32.decode v, xf := some fp32 })) [] false (.fmt fp32) fm d)
  | _ => match vs with
    | [v] => (v, .none)
    | _ => encOut fp32 (foldMinMax c (op != 9) (vs.map fp32.decode))

/-- A value computed once per segment: the one draw of SR comes from its lowest participating lane, whose count alone
rises. -/
def segmentLane (r : Raw) (w : Nat) (draws : Bool) (f : Contract → RMode → Nat → List Nat → Nat × Flags) (s : State) (a : Issuer) (l : Nat) : Out :=
  let ps := s.segment r a w (posOf a l)
  let p := ps.headD 0
  let c := s.contractOf a
  let fm := Contract.mode c r.x.rm.toNat
  let (v, fl) := f c fm (s.laneDraw (atPos a p) (p % 4) 0) ps
  { val := v, fl := fl, draws := if draws ∧ fm = .sr ∧ p = posOf a l then 1 else 0 }

/-- XRED (R267). -/
def bodyXred (r : Raw) : State → State :=
  let op := r.x.scope.toNat
  perLane r .reg (fun s a l => segmentLane r (segWidth (bits r.x.imm.toNat 2 0)) (op == 8) (fun c fm d ps => reduce c op (rty r 7) (ps.map (s.posA r (rty r 7) a)) fm d) s a l)

/-- XSCAN (R268). -/
def bodyXscan (r : Raw) : State → State :=
  let op := r.x.scope.toNat
  let w := segWidth (bits r.x.imm.toNat 2 0)
  let excl := bitAt r.x.imm.toNat 3
  perLane r .reg (fun s a l =>
    let p := posOf a l
    let ps := (s.segment r a w p).filter (fun q => if excl then decide (q < p) else decide (q ≤ p))
    floatLane r (if op = 8 then 1 else 0) (fun c fm d =>
      if ps.isEmpty ∧ op = 8 then (0, .none) else reduce c op (rty r 7) (ps.map (s.posA r (rty r 7) a)) fm (d 0)) s a l)

/-- XDOT (R269). -/
def bodyXdot (r : Raw) : State → State :=
  let t := rty r 17
  let (f, n) := dotFmt t
  perLane r .reg (fun s a l => segmentLane r (segWidth r.x.imm.toNat) true (fun c fm d ps =>
    let src (p : Nat) := (s.srcA (atPos a p) r t (p % 4), s.srcB (atPos a p) r t (p % 4))
    let init := match ps with | p :: _ => s.srcC (atPos a p) r 14 (p % 4) | [] => 0
    encOut fp32 (contractSum c (fp32.decode init) (ps.flatMap (fun p => dotTerms f n (src p).1 (src p).2)) [] false (.fmt fp32) fm d)) s a l)

/-- XVOTE (R270). -/
def bodyXvote (r : Raw) : State → State :=
  let mode := r.x.scope.toNat % 4
  perLane r (if mode = 3 then .reg else .pred) (fun s a _ =>
    let ps := s.segment r a 32 0
    let q (p : Nat) : Bool := s.pred (atPos a p) (p % 4) (r.x.a.toNat % 8) != bitAt r.x.scope.toNat 2
    match mode with
    | 0 => { q := ps.all q }
    | 1 => { q := ps.any q }
    | 2 => { q := ps.all q || !ps.any q }
    | _ => { val := ((ps.filter q).map (2 ^ ·)).sum })

/-- XMATCH (R271). -/
def bodyXmatch (r : Raw) : State → State :=
  perLane r .reg (fun s a l =>
    { val := (((s.segment r a 32 0).filter (fun p => s.posA r 0 a p == s.srcA a r 0 l)).map (2 ^ ·)).sum })

/-! ## The meanings -/

def execCvt (x : Ext) (s : State) : Host.Outcome State Fault Refusal := issue (.ext .cvt x) s (bodyCvt (.ext .cvt x))
def execCvtpk (b : Base) (s : State) : Host.Outcome State Fault Refusal := issue (.base .cvtpk b) s (bodyCvtpk (.base .cvtpk b))
def execCvtpkExt (x : Ext) (s : State) : Host.Outcome State Fault Refusal := issue (.ext .cvtpk x) s (bodyCvtpk (.ext .cvtpk x))
def execQblk (x : Ext) (s : State) : Host.Outcome State Fault Refusal := issue (.ext .qblk x) s (bodyQblk (.ext .qblk x))
def execDqblk (x : Ext) (s : State) : Host.Outcome State Fault Refusal := issue (.ext .dqblk x) s (bodyDqblk (.ext .dqblk x))
def execVqdec (b : Base) (s : State) : Host.Outcome State Fault Refusal := issue (.base .vqdec b) s (bodyVqdec (.base .vqdec b))
def execVqdecExt (x : Ext) (s : State) : Host.Outcome State Fault Refusal := issue (.ext .vqdec x) s (bodyVqdec (.ext .vqdec x))
def execSrseed (b : Base) (s : State) : Host.Outcome State Fault Refusal := issue (.base .srseed b) s (bodySrseed (.base .srseed b))
def execSrseedExt (x : Ext) (s : State) : Host.Outcome State Fault Refusal := issue (.ext .srseed x) s (bodySrseed (.ext .srseed x))
def execXshf (b : Base) (s : State) : Host.Outcome State Fault Refusal := issue (.base .xshf b) s (bodyXshf (.base .xshf b))
def execXshfExt (x : Ext) (s : State) : Host.Outcome State Fault Refusal := issue (.ext .xshf x) s (bodyXshf (.ext .xshf x))
def execXbcast (b : Base) (s : State) : Host.Outcome State Fault Refusal := issue (.base .xbcast b) s (bodyXbcast (.base .xbcast b))
def execXbcastExt (x : Ext) (s : State) : Host.Outcome State Fault Refusal := issue (.ext .xbcast x) s (bodyXbcast (.ext .xbcast x))
def execXred (b : Base) (s : State) : Host.Outcome State Fault Refusal := issue (.base .xred b) s (bodyXred (.base .xred b))
def execXredExt (x : Ext) (s : State) : Host.Outcome State Fault Refusal := issue (.ext .xred x) s (bodyXred (.ext .xred x))
def execXscan (b : Base) (s : State) : Host.Outcome State Fault Refusal := issue (.base .xscan b) s (bodyXscan (.base .xscan b))
def execXscanExt (x : Ext) (s : State) : Host.Outcome State Fault Refusal := issue (.ext .xscan x) s (bodyXscan (.ext .xscan x))
def execXdot (x : Ext) (s : State) : Host.Outcome State Fault Refusal := issue (.ext .xdot x) s (bodyXdot (.ext .xdot x))
def execXvote (b : Base) (s : State) : Host.Outcome State Fault Refusal := issue (.base .xvote b) s (bodyXvote (.base .xvote b))
def execXvoteExt (x : Ext) (s : State) : Host.Outcome State Fault Refusal := issue (.ext .xvote x) s (bodyXvote (.ext .xvote x))
def execXmatch (b : Base) (s : State) : Host.Outcome State Fault Refusal := issue (.base .xmatch b) s (bodyXmatch (.base .xmatch b))
def execXmatchExt (x : Ext) (s : State) : Host.Outcome State Fault Refusal := issue (.ext .xmatch x) s (bodyXmatch (.ext .xmatch x))

end Sys2Proof.Machine
end

