-- ==== Sys2Proof/Machine/Replay.lean ====
section
/-!
DEFINITION. The end of a task by force (R485, R487), store hashes (R476, R477), and the record-and-replay log (R46, R472
to R475).
-/
namespace Sys2Proof.Machine

/-! ## Ending a task by force (R485, R487) -/

/-- A context that a forced end stops: STATE 2 and exit code 0xFFFF. -/
def State.stopHeld (s : State) (k : Nat) : State :=
  if (s.ctx k).run = .running then s.stopCtx k { kind := 0, cause := 0 } else s

/-- DESIGN CHOICE (log 140): the reservations of its discarded teams stand until its pool entry is freed (R103 says not when they end).
Unplaced teams are discarded, every placed team ends as under GKILL, a halted one without being restored, and every
context the task holds stops. -/
def State.abortTask (s : State) (serial : Nat) (f : Task → Task) : State :=
  let s := s.modTask serial (fun k =>
    let k := f k
    { k with left := k.left - (k.nteam - k.next), next := k.nteam })
  let us := (s.teams.filter (fun p => p.2.task == serial)).map (·.1)
  let ks := (s.ctxs.filter (fun p => match p.2.holder with | some u => us.contains u | none => false)).map (·.1)
  let s := foldS (fun k s => s.stopHeld k) ks s
  foldS (fun (u : Nat) s => ((s.modTeam u (fun t => { t with away := t.away || t.status == .saved })).killTeam u).modTeam u (fun t => { t with status := .ending, halt := none })) us s

/-! ## Store hashes (R476) -/

/-- The contribution of one access. -/
def hashOf (va kind size value : Nat) : DWord :=
  mix (mix (mix (BitVec.ofNat 64 va ^^^ BitVec.ofNat 64 (kind * 2 ^ 60)) ^^^ BitVec.ofNat 64 size) ^^^ BitVec.ofNat 64 value)

/-- A slice of a team waits at RRCHK. -/
def Team.checking (t : Team) : Bool := t.slices.any (fun p => p.2.rrTok.isSome)

/-- A performed access of operation `id` enters its team's hash; it is kept apart while an RRCHK waits (R477). -/
def State.contribute (s : State) (u id : Nat) (h : DWord) : State :=
  s.modTeam u (fun t => { t with sthash := t.sthash + h, late := if t.checking then t.late ++ [(id, h)] else [] })

/-! ## The log (R473) -/

/-- The log being read and written: the state so far, and the fault that ended the work (replayable, kind, cause, ACC, VA). -/
structure Log where
  s : State
  err : Option (Bool × Nat × Nat × Nat × Nat) := .none

/-- How the machine reaches a task's log: as the graph engine of the team's die. -/
def State.logReq (s : State) (serial : Nat) (c : CoreId) : Req :=
  { asid := match s.task serial with | some k => k.asid | none => 0, core := c, eng := 3, priv := true }

/-- The address of an offset of the log area. -/
def State.logVa (s : State) (serial off : Nat) : Nat := (match s.task serial with | some k => k.rrlog | none => 0) + off

/-- Read n bytes of the log, at most 8 and aligned. -/
def Log.get (L : Log) (serial : Nat) (c : CoreId) (off n : Nat) : Nat × Log :=
  match L.err with
  | some _ => (0, L)
  | none =>
    let va := L.s.logVa serial off
    match L.s.engineTr (.log serial) (L.s.logReq serial c) va accRead with
    | .ok pa _ _ => (ofBytes (L.s.homeRead pa n), L)
    | .fault k cs r => (0, { L with err := some (r, k, cs, accRead, va) })
    | .miss => (0, L)

/-- Write n bytes of the log. -/
def Log.put (L : Log) (serial : Nat) (c : CoreId) (off n v : Nat) : Log :=
  match L.err with
  | some _ => L
  | none =>
    let va := L.s.logVa serial off
    match L.s.engineTr (.log serial) (L.s.logReq serial c) va accWrite with
    | .ok pa _ _ => { L with s := L.s.homeWrite pa (toBytes n v) }
    | .fault k cs r => { L with err := some (r, k, cs, accWrite, va) }
    | .miss => L

def noChunk : Nat := 0xFFFFFFFF
/-- The offset of HEADS for a stream and of a chunk. -/
def headOff (st : Nat) : Nat := 0x400 + 4 * st
def chunkOff (j : Nat) : Nat := 4096 * (1 + j)

/-- The chunks of a stream from one on, with their USED, at most n of them. -/
def Log.chain (L : Log) (serial : Nat) (c : CoreId) : Nat → Nat → List (Nat × Nat) × Log
  | 0, _ => ([], L)
  | n + 1, j =>
    if j = noChunk then ([], L)
    else
      let (w, L) := L.get serial c (chunkOff j) 8
      if L.err.isSome then ([], L)
      else
        let (r, L) := Log.chain L serial c n (w / 2 ^ 32)
        ((j, bits w 8 0) :: r, L)

/-- The chunks of a stream, at most 2^20 of them (R473). -/
def Log.stream (L : Log) (serial : Nat) (c : CoreId) (st : Nat) : List (Nat × Nat) × Log :=
  let (h, L) := L.get serial c (headOff st) 4
  L.chain serial c (2 ^ 20) h

/-- Initialise the header at dispatch of a record task (R473); NCHUNK as found. -/
def Log.init (L : Log) (serial : Nat) (c : CoreId) : Log :=
  let L := L.put serial c 8 8 0
  (List.range 513).foldl (fun (L : Log) st => L.put serial c (headOff st) 4 noChunk) L

/-- Append an entry of 8-byte words to a stream of a task: in its last chunk, or in a new one at NEXT linked behind it; a stream that gets
none sets FULL and logs nothing more (R474). What the log holds is known from what was written, so that only its writes can fault
(R46). -/
def Log.append (L : Log) (serial : Nat) (c : CoreId) (st base cap : Nat) (ws : List Nat) : Log :=
  match L.s.task serial with
  | none => L
  | some k =>
    let size := 8 * ws.length
    let write (L : Log) (j n : Nat) : Log :=
      let L := ((List.range ws.length).zip ws).foldl (fun (L : Log) p => L.put serial c (chunkOff j + base + size * n + 8 * p.1) 8 p.2) L
      L.put serial c (chunkOff j) 8 (noChunk * 2 ^ 32 + st * 2 ^ 16 + (n + 1))
    let keep (L : Log) (f : Task → Task) : Log := { L with s := L.s.modTask serial f }
    let last := mget k.tails st
    if k.stopped.contains st then L
    else match last.bind (fun t => if t.2.1 < cap then some t else none) with
      | some (j, used, _) => keep (write L j used) (fun k => { k with tails := mset k.tails st (j, used + 1, ws.headD 0) })
      | none =>
        let j := k.nextChunk
        if j = k.nchunk then keep (L.put serial c 8 8 (2 ^ 63 + j)) (fun k => { k with stopped := st :: k.stopped })
        else
          let L := write L j 0
          let L := match last with
            | some (i, used, _) => L.put serial c (chunkOff i) 8 (j * 2 ^ 32 + st * 2 ^ 16 + used)
            | none => L.put serial c (headOff st) 4 j
          keep (L.put serial c 8 8 (j + 1)) (fun k => { k with nextChunk := j + 1, tails := mset k.tails st (j, 1, ws.headD 0) })

/-- Append an atomic to its stream, or raise RUN of the last entry (R474). -/
def Log.atomic (L : Log) (serial : Nat) (c : CoreId) (st team tag : Nat) : Log :=
  let entry (run : Nat) : Nat := team % 2 ^ 16 * 2 ^ 48 + run * 2 ^ 32 + tag
  match L.s.task serial with
  | none => L
  | some k => match mget k.tails st with
    | some (j, used, w) =>
      if !k.stopped.contains st ∧ w / 2 ^ 48 = team % 2 ^ 16 ∧ w % 2 ^ 32 = tag ∧ bits w 47 32 < 65535 then
        let e := entry (bits w 47 32 + 1)
        let L := L.put serial c (chunkOff j + 8 * used) 8 e
        { L with s := L.s.modTask serial (fun k => { k with tails := mset k.tails st (j, used, e) }) }
      else L.append serial c st 8 511 [entry 1]
    | none => L.append serial c st 8 511 [entry 1]

/-- The entries of a stream in order: a key of each, and its words. -/
def Log.entries (L : Log) (serial : Nat) (c : CoreId) (st base size : Nat) : List (Nat × Nat × Nat) × Log :=
  let (ch, L) := L.stream serial c st
  let ks := ch.flatMap (fun p => (List.range p.2).map (fun i => (p.1, i)))
  ks.foldl (fun (a : List (Nat × Nat × Nat) × Log) p =>
    let off := chunkOff p.1 + base + size * p.2
    let (w, L) := a.2.get serial c off 8
    let (w2, L) := if size = 16 then L.get serial c (off + 8) 8 else (0, L)
    (a.1 ++ [(p.1 * 512 + p.2, w, w2)], L)) ([], L)

/-- The stream of a line: 64 × die + home slice (R280, R472). -/
def streamOf (pa : Nat) : Nat :=
  let d := pa / 2 ^ 37
  let o := pa % 2 ^ 37
  let i := bits o 14 8 ^^^ bits o 21 15 ^^^ bits o 28 22 ^^^ bits o 35 29 ^^^ bits o 36 36
  64 * d + bits i 6 1

/-- The line tag of an address (R472). -/
def lineTag (va : Nat) : Nat := bits va 38 7

/-- One turn in replay (R475): the key to consume, none when the atomic is ungated, or not its turn. -/
inductive Turn where
  | free
  | take (key : Nat)
  | wait
deriving DecidableEq, Repr

/-- The turn of a team's atomic to a tag, given what has been consumed. -/
def turnOf (es : List (Nat × Nat × Nat)) (used : Map Nat) (team tag : Nat) : Turn :=
  match es.find? (fun e => e.2.1 % 2 ^ 32 == tag && decide ((mget used e.1).getD 0 < bits e.2.1 47 32)) with
  | none => .free
  | some e => if e.2.1 / 2 ^ 48 = team % 2 ^ 16 then .take e.1 else .wait

/-- A key of Task.consumed: the stream and the entry in it. -/
def usedKey (st key : Nat) : Nat := st * 2 ^ 32 + key

/-- The outcome of the gate for one instruction: what the task has consumed after all its atomics, or a wait. -/
def Log.gate (L : Log) (serial : Nat) (c : CoreId) (team : Nat) : List (Nat × Nat) → Map Nat → Option (Map Nat) × Log
  | [], used => (some used, L)
  | (st, tag) :: r, used =>
    let (es, L) := L.entries serial c st 8 8
    let es := es.map (fun e => (usedKey st e.1, e.2))
    match turnOf es used team tag with
    | .free => Log.gate L serial c team r used
    | .take k => Log.gate L serial c team r (mset used k ((mget used k).getD 0 + 1))
    | .wait => (none, L)

/-- What a log fault does (R46): a replayable one enters the fault ring, any other ends the task. -/
def State.logFault (s : State) (serial : Nat) (c : CoreId) (e : Bool × Nat × Nat × Nat × Nat) : State :=
  let (replay, k, cs, acc, va) := e
  if replay then s.raiseFault (s.logReq serial c) va k cs acc (.log serial)
  else s.abortTask serial (fun k => { k with listFault := true })

end Sys2Proof.Machine
end

