-- ==== Sys2Proof/Machine/Access.lean ====
section
/-!
DEFINITION. Loads, stores, atomics, histograms and cache control (R288 to R297, R262), and the events that complete them:
LOAD_REPLY, STORE_TRANSLATE, ATOMIC_PERFORM and the events of the write-combining buffer.
-/
namespace Sys2Proof.Machine

/-! ## Addresses (R290, R295) -/

/-- The effective address of an instruction with the fields of R290. -/
def State.ea (s : State) (a : Issuer) (r : Raw) (l : Nat) : Nat :=
  let i := r.x.imm.toNat
  let idx : Int := if bitAt i 3 then valTy (if bitAt i 4 then 11 else 7) (s.srcB a r 0 l) else 0
  lea (s.srcA a r 0 l) idx (bits i 2 0) (if bitAt i 5 then s.leaOff a r l else 0)

/-- The effective address of ATOM and RED: base and offset (R295). -/
def State.atomEa (s : State) (a : Issuer) (r : Raw) (l : Nat) : Nat :=
  lea (s.srcA a r 0 l) 0 0 (if bitAt r.x.imm.toNat 6 then s.leaOff a r l else 0)

/-- What a lane asks for, or its trap: kind, cause and address. -/
abbrev Want := Except (Nat × Nat × Nat) (List El)

/-- The elements of a lane's access after the checks of R291: `count` elements of `size` bytes. -/
def State.laneEls (s : State) (a : Issuer) (l ea size count align : Nat) (w : Wins) : Want :=
  let w := match a with | .ctx _ => { w with priv := false, spill := false } | .slice _ _ => w
  let mk (p : Nat → Option Place) (base win : Nat) : List El :=
    (List.range count).map (fun e => { lane := l, elem := e, va := ea + e * size, place := p e, tva := base + e * size, win := win, len := size })
  match s.resolve (s.teamOf a) (laneNo a l) ea (size * count) align w with
  | .trap k c => .error (k, c, ea)
  | .scr u off => .ok (mk (fun e => some (.scr u (off + e * size))) ea 0)
  | .virt va win => .ok (mk (fun _ => none) va win)
  | .fault k c => .ok ((mk (fun _ => none) ea 0).map (fun e => { e with flt := some (k, c) }))

/-- The location class of the poison that an agent's read at a place meets, or 0 (R434, R456). -/
def State.meetsPoison (s : State) (a : Issuer) (pa cache : Nat) : Nat :=
  let c := s.coreOf a
  match a, mget (s.core c).l1 (pa / 128) with
  | .slice _ _, some l => if cache ≠ 0 then s.rdcBad c pa cache else if l.bad ≠ 0 ∨ l.held = BitVec.allOnes 128 then l.bad else s.rdcBad c pa cache
  | _, _ => s.rdcBad c pa cache

/-- An element after translation. -/
inductive ElTr where
  | ok (e : El)
  | miss (va : Nat)
  | hold (va kind cause : Nat)
  | bad (kind cause va : Nat)
deriving DecidableEq, Repr

/-- Translate an element as its agent (R117, R292). -/
def State.elTr (s : State) (a : Issuer) (acc : Nat) (e : El) : ElTr :=
  match e.place with
  | some (.scr u off) => if acc ≠ accWrite ∧ s.scrPoison u off e.len then .bad kEcc 2 e.va else .ok e
  | some _ => .ok e
  | none => match e.flt with
   | some (k, c) => .bad k c e.va
   | none =>
    match s.translate (s.req a) e.tva acc e.win with
    | .ok pa cache _ => if acc ≠ accWrite ∧ s.meetsPoison a pa cache ≠ 0 then .bad kEcc (s.meetsPoison a pa cache) e.va else .ok { e with place := some (.phys pa cache) }
    | .miss => .miss e.tva
    | .fault k c true => .hold e.tva k c
    | .fault k c false => .bad k c e.va

/-- What a gang's precise access comes to (R291, R292): the first trap in %lane order, translations to wait for, or the
elements of each agent with the agents that a replayable fault holds. -/
inductive Fate where
  | trap (kind cause va : Nat)
  | walk (ms : List (Issuer × Nat))
  | go (rows : List (Issuer × El)) (held : List (Issuer × Nat × Nat × Nat))

/-- The elements wanted by the acting lanes in %lane order, or the first trap. -/
def wants : List (Issuer × Want) → Except (Nat × Nat × Nat) (List (Issuer × El))
  | [] => .ok []
  | (_, .error e) :: _ => .error e
  | (a, .ok es) :: r => match wants r with | .error e => .error e | .ok fs => .ok (es.map (fun e => (a, e)) ++ fs)

/-- The checks of R291 and R292 on the lanes given. -/
def State.precise (s : State) (acc : Nat) (lanes : List (Issuer × Want)) : Fate :=
  match wants lanes with
  | .error (k, c, va) => .trap k c va
  | .ok es =>
    let ts := es.map (fun p => (p.1, s.elTr p.1 acc p.2))
    match ts.findSome? (fun p => match p.2 with | .bad k c va => some (k, c, va) | _ => none) with
    | some (k, c, va) => .trap k c va
    | none =>
      let ms := ts.filterMap (fun p => match p.2 with | .miss va => some (p.1, va) | _ => none)
      if ms.isEmpty then
        .go (ts.filterMap (fun p => match p.2 with | .ok e => some (p.1, e) | _ => none))
          (ts.filterMap (fun p => match p.2 with | .hold va k c => some (p.1, va, k, c) | _ => none))
      else .walk ms

/-- Ask for the walks that a gang waits for. -/
def State.waitWalks (s : State) (ms : List (Issuer × Nat)) : State :=
  foldS (fun (p : Issuer × Nat) s => (s.askWalk (s.req p.1) p.2 (waiterOf p.1)).setWait p.1 .walk) ms s

/-- Hold agents on replayable faults (R122). -/
def State.holdAgents (s : State) (acc : Nat) (hs : List (Issuer × Nat × Nat × Nat)) : State :=
  foldS (fun (p : Issuer × Nat × Nat × Nat) s => (s.raiseFault (s.req p.1) p.2.1 p.2.2.1 p.2.2.2 acc (waiterOf p.1)).setWait p.1 .replay) hs s

/-- The body of a precise access: traps and waits, and else `f` for each agent that is not held, with its elements. -/
def State.access (s : State) (r : Raw) (acc : Nat) (lanes : List (Issuer × Want)) (f : Issuer → List El → State → State) : State :=
  match s.precise acc lanes with
  | .trap k c va => s.trapAll r.x k c va
  | .walk ms => s.waitWalks ms
  | .go rows held =>
    let t := s.holdAgents acc held
    foldS (fun a t =>
      if held.any (fun h => h.1 == a) then t
      else f a ((rows.filter (fun p => p.1 == a)).map (·.2)) t) s.agents t

/-- Every acting lane of the gang with what it wants. -/
def State.laneWants (s : State) (r : Raw) (f : Issuer → Nat → Want) : List (Issuer × Want) :=
  (s.actingLanes r.x).map (fun p => (p.1, f p.1 p.2))

/-! ## Issue -/

/-- The names of an instruction freed, its destinations mapped, with 0 in a fresh mapping (R168). -/
def State.mapDests (s : State) (a : Issuer) (r : Raw) (m : Mask) : State :=
  match a with
  | .slice u i => (s.takeOver a (rawDests r) m).modSlice u i (fun x =>
      let x := x.free (rawFrees r)
      if m = 0 then x else { x with names := (rawDests r).foldl (fun ns n => match mget ns n with | some _ => ns | none => mset ns n ⟨0, 0, 0, 0⟩) x.names })
  | .ctx _ => s.takeOver a (destsOn a r) m

/-- An agent's memory instruction enters flight: REGSPACE, or its operation and the PC past it. -/
def State.launchOp (s : State) (a : Issuer) (r : Raw) (m : Mask) (op : MemOp) : State :=
  if !s.room a r then s.trapOne a kIllegal cRegspace 0 0 m
  else
    let s := s.mapDests a r m
    let s := if op.todo.isEmpty ∧ op.got.isEmpty then s else s.addOp op
    s.advance a r.len.bytes

/-- Make WATCH due for a slice (R466). -/
def State.watchAgent (s : State) (a : Issuer) (kinds : Nat) (m : Mask) (pc : Nat) (eas : List Nat) : State :=
  match a with | .slice u i => s.watch u i pc kinds m eas | .ctx _ => s

/-- The same for an access that watches see: one that meets REGSPACE has not been made (R12, R466). -/
def State.launchSeen (s : State) (a : Issuer) (r : Raw) (m : Mask) (op : MemOp) (kinds pc : Nat) (eas : List Nat) : State :=
  if s.room a r then (s.launchOp a r m op).watchAgent a kinds m pc eas else s.launchOp a r m op

/-- The fields of an operation that its agent gives. -/
def State.opOf (s : State) (a : Issuer) (r : Raw) (kind : MemKind) (ty n : Nat) (m : Mask) (els : List El) : MemOp :=
  { kind := kind, by_ := a, asid := s.asidOf (s.teamOf a), pc := s.pcOf a, ty := ty, size := tyBits ty / 8, dst := r.x.d.toNat,
    wide := tyBits ty == 64 && n != 0, mask := m, acted := m, since := s.cyc (s.coreOf a).die, contract := s.special a 0 0x0C, rm := r.x.rm.toNat, priv := s.privOf a,
    icount := match a with | .slice u i => (s.sl u i).icount | .ctx _ => 0, todo := els }

/-- LD (R293). -/
def bodyLd (r : Raw) (s : State) : State :=
  let t := rty r 3
  let n := vnCount r.x
  let size := tyBits t / 8
  s.access r accRead (s.laneWants r (fun a l => s.laneEls a l (s.ea a r l) size n size {})) (fun a els t' =>
    let m := s.acts a r.x
    let op := { s.opOf a r .ld t n m els with byp := bitAt r.x.scope.toNat 0 }
    t'.launchSeen a r m op 2 (s.pcOf a) ((maskList m).map (s.ea a r)))

/-! ## Memory at a place -/

/-- Read n bytes as an agent at the place of an element (R287). -/
def State.placeRead (s : State) (a : Issuer) (p : Place) (n : Nat) (byp : Bool) : Nat × State :=
  match p with
  | .scr u off => (ofBytes (match a with | .slice _ _ => s.scrRead u off n | .ctx _ => s.scrSeen u off n), s)
  | .phys pa cache =>
    if 2 ^ 47 ≤ pa then (match a with
      | .slice _ _ => (ofBytes (s.homeRead pa n), (s.podRead (s.coreOf a) pa n).2)
      | .ctx _ => let (bs, s) := s.podRead (s.coreOf a) pa n; (ofBytes bs, s))
    else match a with
      | .slice _ _ => let (bs, s) := s.l1Read (s.coreOf a) pa cache n byp; (ofBytes bs, s)
      | .ctx _ => let (bs, s) := s.engineRead (s.coreOf a) pa cache n; (ofBytes bs, s)

/-- A write of a lane of a slice, for publishing (R366). -/
def State.unpub (s : State) (u i lane op : Nat) : Unpub :=
  { task := match s.team u with | some t => t.task | none => 0, team := u, core := s.coreOf (.slice u i), slice := i, lane := lane, op := op }

/-- A task's own write is among the words that it may fetch (R153). -/
def State.ownWrite (s : State) (task : Nat) (p : Place) (bs : List Byte) : State :=
  match p with | .phys pa _ => s.modTask task (fun k => { k with image := Mem.write k.image pa bs }) | .scr _ _ => s

/-- The same of an agent. -/
def State.wrote (s : State) (a : Issuer) (p : Place) (bs : List Byte) : State :=
  match s.team (s.teamOf a) with | some t => s.ownWrite t.task p bs | none => s

/-- The bytes an agent has written in a lane: its task may fetch them, and they are hidden where the agent is a slice (R153, R366). -/
def State.hideBy (s old : State) (a : Issuer) (lane op : Nat) (p : Place) (bs : List Byte) : State :=
  match a with | .slice u i => (s.wrote a p bs).hide old (old.unpub u i lane op) p bs | .ctx _ => s.wrote a p bs

/-- Write bytes as an agent (R287). none: a pod store waits for a write-combining entry. -/
def State.placeWrite (s : State) (a : Issuer) (op : Nat) (p : Place) (bs : List Byte) (byp : Bool) : Option State :=
  match p with
  | .scr u off => some (s.scrWrite u off bs)
  | .phys pa cache =>
    match a with
    | .slice u _ => if 2 ^ 47 ≤ pa then s.wcStore (s.coreOf a) u op pa bs else some (s.l1Write (s.coreOf a) pa cache bs byp)
    | .ctx _ => some (if 2 ^ 47 ≤ pa then s.podWrite (s.coreOf a) pa bs else s.engineWrite (s.coreOf a) pa bs)

/-- Read-modify-write n bytes at the performing point (R276, R279, R281, R295). none writes nothing. It is atomic on the bytes
themselves, a context's too: R366 speaks of reads, and R356 makes a read-modify-write an event of its own (log 114). -/
def State.placeUpdate (s : State) (a : Issuer) (p : Place) (n : Nat) (f : Nat → Option Nat) : Nat × State :=
  match p with
  | .scr u off =>
    let old := ofBytes (s.scrRead u off n)
    (old, match f old with | some v => s.scrWrite u off (toBytes n v) | none => s)
  | .phys pa _ =>
    let c := s.coreOf a
    let s := if 2 ^ 47 ≤ pa then (s.podRead c pa n).2 else
      let s := s.l1Drop c (pa / 128)
      if hbmDie pa = some c.die then s else s.rdcDrop c.die (pa / 128)
    let old := ofBytes (s.homeRead pa n)
    (old, match f old with | some v => s.homeWrite pa (toBytes n v) | none => s)

/-- The line of a pod place. -/
def Place.podLine? (p : Place) : Option Nat := match p with | .phys pa _ => if 2 ^ 47 ≤ pa then some (pa / 128) else none | .scr _ _ => none
def El.podLine? (e : El) : Option Nat := e.place.bind Place.podLine?

/-! ## Order among the operations of one agent (R359) -/

def overlaps (a n b m : Nat) : Bool := decide (a < b + m) && decide (b < a + n)

/-- An older element of an address space meets a younger one, or may where it is not translated. -/
def El.meets (x : El) (n : Nat) (y : El) (m : Nat) : Bool :=
  overlaps x.tva n y.tva m ||
    match x.place, y.place with
    | some (.phys p _), some (.phys q _) => overlaps p n q m
    | some (.scr t o), some (.scr t' o') => t == t' && overlaps o n o' m
    | none, _ => !x.held
    | _, _ => false

/-- An element that is not translated, held by a fault or not, may turn out to lie where another does: a page keeps the low 12 bits. -/
def El.mayMeet (x : El) (n : Nat) (y : El) (m : Nat) : Bool :=
  x.meets n y m || x.place.isNone && x.flt.isNone && overlaps (x.tva % 4096) n (y.tva % 4096) m

/-- An older element keeps a younger one of the same lane waiting. -/
def El.tied (x : El) (n : Nat) (y : El) (m : Nat) : Bool := x.lane == y.lane && x.meets n y m

/-- An element waits for older operations of its agent. -/
def State.mustWait (s : State) (id : Nat) (op : MemOp) (e : El) : Bool :=
  s.mops.any (fun p => decide (p.1 < id) && p.2.by_ == op.by_ &&
    ((p.2.kind == .atom && p.2.order % 2 == 1) || p.2.todo.any (fun x => x.tied p.2.size e op.size)))

/-! ## Releases (R276, R286, R360) -/

/-- The scope in force of a SCOPE field with base `.pkg`. -/
def scopeOf (f : Nat) : Nat := if f = 0 then 5 else f

/-- A CFLUSH of an agent on a pod line has not completed (R297). -/
def State.flushing (s : State) (a : Issuer) : Bool := (s.core (s.coreOf a)).wc.any (fun e => e.flush.contains a)

/-- A tile or accumulator transfer of a context is in flight. -/
def State.transfers (s : State) (a : Issuer) : Bool :=
  match a with | .ctx k => (s.ctx k).transfers | .slice _ _ => false

/-- A read of an agent is still in flight: an acquire of it waits, since it orders its earlier reads before its later accesses
(R361, R374). -/
def State.readsOut (s : State) (a : Issuer) : Bool :=
  s.mops.any (fun p => p.2.by_ == a && (p.2.kind == .ld || p.2.kind == .ldk || p.2.kind == .atom)) || s.transfers a

/-- An operation with an element that is not performed, or an atomic whose acquire has not acted. -/
def MemOp.open_ (op : MemOp) : Bool := !op.todo.isEmpty || (op.kind == .atom && op.order % 2 == 1)

/-- Some access of an agent, of those numbered below a bound, is not performed, or a CFLUSH of it has not completed. -/
def State.unperformed (s : State) (a : Issuer) (before : Nat) : Bool :=
  s.mops.any (fun p => decide (p.1 < before) && p.2.by_ == a && p.2.open_) || s.flushing a || s.transfers a

/-- A release by an agent at a scope: whether it has completed, and the state with what it has begun. One of a context drains the
buffer of its paired core, which may hold writes that come before it (R361). -/
def State.release (s : State) (a : Issuer) (scope : Nat) : Bool × State :=
  if s.unperformed a s.nextId then (false, s)
  else
    let c := s.coreOf a
    let s := match a with | .slice _ _ => s.releaseL1 c scope | .ctx _ => s
    if scope = 6 ∧ !s.wcEmpty c then (false, s.wcDrain c (fun _ => true)) else (true, s)

/-! ## Stores (R292, R293, R442 to R444) -/

/-- ST, RED and EXPHIST data of a lane's element. -/
def State.storeData (s : State) (a : Issuer) (r : Raw) (size e l : Nat) : Nat :=
  let d := r.x.d.toNat
  match a with
  | .slice _ _ => (if size = 8 then s.readV a true (d + 2 * e) l else s.readV a false (d + e) l) % 2 ^ (8 * size)
  | .ctx _ => s.readV a true (d + e) l % 2 ^ (8 * size)

/-- SSEQ after an ST or RED in which a lane acts (R441). -/
def State.countStore (s : State) (a : Issuer) (m : Mask) : State :=
  match a with | .slice u i => if m = 0 then s else s.modSlice u i (fun x => { x with sseq := x.sseq + 1 }) | .ctx _ => s
def State.sseqOf (s : State) (a : Issuer) : Word := match a with | .slice u i => (s.sl u i).sseq | .ctx _ => 0

/-- The window checks alone, in every acting lane (R291); translation comes later. -/
def State.checked (s : State) (r : Raw) (lanes : List (Issuer × Want)) (f : Issuer → List El → State → State) : State :=
  match wants lanes with
  | .error (k, c, va) => s.trapAll r.x k c va
  | .ok es => foldS (fun a t => f a ((es.filter (fun p => p.1 == a)).map (·.2)) t) s.agents s

/-- The core of an agent reaches the pool nodes of elements (R388, R390). -/
def State.elsOpen (s : State) (a : Issuer) (size : Nat) (els : List El) : Bool :=
  els.all (fun e => match e.place with | some (.phys pa _) => s.spanOpen (s.coreOf a) pa size | _ => true)

/-- Perform the stores of a context at once (R292). -/
def State.storeNow (s : State) (a : Issuer) (size : Nat) (els : List El) : State :=
  foldS (fun (e : El) s => match e.place with
    | some p => ((s.placeWrite a 0 p (toBytes size e.data) false).getD s).wrote a p (toBytes size e.data)
    | none => s) els s

/-- ST (R293). -/
def bodySt (r : Raw) (s : State) : State :=
  let t := rty r 3
  let n := vnCount r.x
  let size := tyBits t / 8
  let lanes := s.laneWants r (fun a l => match s.laneEls a l (s.ea a r l) size n size {} with
    | .ok es => .ok (es.map (fun e => { e with data := s.storeData a r size e.elem l }))
    | .error e => .error e)
  match s.engine with
  | .g => s.checked r lanes (fun a els t' =>
      let m := s.acts a r.x
      let t' := t'.countStore a m
      let op := { s.opOf a r .st t n m els with byp := bitAt r.x.scope.toNat 0, seq := t'.sseqOf a }
      t'.launchSeen a r m op 1 (s.pcOf a) ((maskList m).map (s.ea a r)))
  | _ => s.access r accWrite lanes (fun a els t' =>
      if s.unperformed a s.nextId || !s.elsOpen a size els then t'.setWait a .stores else (t'.storeNow a size els).advance a r.len.bytes)

/-- The fault kind code of store-fault records and arrival words (R298, R444): OWN answered FAIL is 3. -/
def fkindOf (kind cause : Nat) : Nat := if kind = kOwn ∨ (kind = kProt ∧ cause = 9) then 3 else if kind = kProt then 2 else 1

/-- The words of a store-fault record (R444). -/
def storeRecord (op : MemOp) (e : El) (kind cause : Nat) : List Nat :=
  let slice := match op.by_ with | .slice _ i => i | .ctx _ => 0
  let rtyp := match op.ty with | 11 => 0 | 12 => 0 | 7 => 1 | 8 => 1 | 14 => 3 | _ => 2
  let red := op.kind == .red
  [ e.va % 2 ^ 57, e.data, (if red then op.opc * 2 ^ 60 + rtyp * 2 ^ 57 else 0) + op.pc % 2 ^ 57,
    op.seq.toNat * 2 ^ 32 + slice * 2 ^ 24 + e.lane * 2 ^ 22 + e.elem * 2 ^ 19 + log2 op.size * 2 ^ 16 + bit01 red * 2 ^ 12 +
      fkindOf kind cause * 2 ^ 8 + cause * 2 ^ 4 ]

/-- Count a record for the slice's next SFAULT; one of a lane that KILL or GKILL ended raises none (R442). -/
def State.countFault (s : State) (op : MemOp) (e : El) (lost : Bool) : State :=
  match op.by_ with
  | .slice u i =>
    s.modSlice u i (fun x => { x with sfDue := x.sfDue || !op.killed.getLsbD e.lane, sfCount := x.sfCount + 1, sfMask := x.sfMask ||| op.acted,
                                      sfVa := if x.sfCount = 0 then (if lost then 0 else e.va) else x.sfVa })
  | .ctx _ => s

/-- An address lies in a team's context save area (R435). -/
def State.inArea (s : State) (u va : Nat) : Bool :=
  match (s.team u).bind (·.csa) with | some base => decide (base ≤ va) && decide (va < base + 0x400000) | none => false

/-- What pushing a record came to. -/
inductive Push where
  | done (s : State)
  | hold (s : State)

/-- Push the record of an element (R443, R496). `failed`: its write can never be made. -/
def State.pushRecord (s : State) (id : Nat) (op : MemOp) (e : El) (kind cause : Nat) : Push :=
  let u := s.teamOf op.by_
  if e.failed then .done (s.countFault op e true)
  else if s.dies.any (fun p => p.2.faults.any (fun f => f.waiters.contains (.op id) && s.inArea u f.va)) then .hold s
  else
    let hd := s.csaWord u 0x18 8
    let head := bits hd 5 0
    let full := (head + 64 - bits hd 13 8) % 64 = 32
    let res :=
      if full then s.csaWrite u 0x18 (toBytes 8 (setBits (setBits hd 15 15 1) 63 32 (min (hd / 2 ^ 32 + 1) (2 ^ 32 - 1))))
      else match s.csaWrite u (0x400 + 32 * (head % 32)) (wordsToBytes (storeRecord op e kind cause)) with
        | .done s => s.csaWrite u 0x18 (toBytes 1 ((head + 1) % 64))
        | r => r
    match res with
    | .done s => .done (s.countFault op e full)
    | .fail _ _ => .done (s.countFault op e true)
    | .hold k c va => .hold (s.raiseFault { asid := s.asidOf u, core := s.coreOf op.by_ } va k c accWrite (.op id))

/-- The hash contribution of a performed element of a slice (R476). -/
def State.hashEl (s : State) (id : Nat) (op : MemOp) (e : El) (kind size value : Nat) : State :=
  match op.by_ with | .slice u _ => s.contribute u id (hashOf e.va kind size value) | .ctx _ => s

/-- A pod store waits for older stores of its core that meet it, or may: they merge in the order of issue (R285). -/
def State.podWaits (s : State) (id : Nat) (op : MemOp) (e : El) (pa : Nat) : Bool :=
  decide (2 ^ 47 ≤ pa) && s.mops.any (fun p => decide (p.1 < id) && p.2.kind == .st && s.coreOf p.2.by_ == s.coreOf op.by_ &&
    p.2.todo.any (fun x => match x.place with
      | some (.phys q _) => overlaps q p.2.size pa op.size
      | some (.scr _ _) => false
      | none => if x.held then p.2.asid == op.asid && overlaps x.tva p.2.size e.tva op.size else x.flt.isNone))

/-- One element of a store or RED at STORE_TRANSLATE: the state, and the element when it stays. `before` are the elements of the store
that stay before it; where one of them meets it, or may once a fault that holds it is answered, it waits, so that the byte ends with the
highest lane's value (R293). -/
def State.storeStep (s : State) (id : Nat) (op : MemOp) (before : List El) (e : El) : State × Option El :=
  let push (s : State) (e : El) (k c : Nat) : State × Option El :=
    match s.pushRecord id op e k c with
    | .done s => (s, none)
    | .hold s => (s, some { e with flt := some (k, c), held := true })
  let perform (s : State) (e : El) (p : Place) : State × Option El :=
    let wait : Bool := s.mustWait id op e || before.any (fun x => x.mayMeet op.size e op.size) ||
      match p with | .phys pa _ => s.podWaits id op e pa | .scr _ _ => false
    if op.kind != .st || wait then (s, some e)
    else match s.placeWrite op.by_ id p (toBytes op.size e.data) op.byp with
      | some t => ((t.hideBy s op.by_ e.lane id p (toBytes op.size e.data)).hashEl id op e 1 op.size e.data, none)
      | none => (s.wcOldest (s.coreOf op.by_), some e)
  if e.held then (s, some e)
  else match e.flt with
    | some (k, c) => push s e k c
    | none => match e.place with
      | some p => perform s e p
      | none =>
        let rq := { s.req op.by_ with xf := e.xf, priv := op.priv, asid := op.asid }
        let acc := if op.kind = .red then accAtomic else accWrite
        match s.translate rq e.tva acc e.win with
        | .ok pa cache _ => perform s { e with place := some (.phys pa cache) } (.phys pa cache)
        | .miss => (s.askWalk rq e.tva (.op id), some e)
        | .fault k c true => (s.raiseFault rq e.tva k c acc (.op id), some { e with held := true })
        | .fault k c false => push s e k c

/-- The elements of an operation through a step, in order; the step sees those that stay before its own. -/
def stepEls (f : State → List El → El → State × Option El) : List El → List El → State → State × List El
  | kept, [], s => (s, kept)
  | kept, e :: es, s =>
    let (s, x) := f s kept e
    stepEls f (match x with | some e => kept ++ [e] | none => kept) es s

/-- An operation with the elements that remain; a store, RED or histogram update with none is gone. -/
def State.keepEls (s : State) (id : Nat) (op : MemOp) (els : List El) : State :=
  if els.isEmpty ∧ (op.kind = .st ∨ op.kind = .red ∨ op.kind = .hist) then { s with mops := mdel s.mops id }
  else s.modOp id (fun o => { o with todo := els })

/-- STORE_TRANSLATE (R442): the translation of a retired store or RED completes. -/
def State.storeTranslate (s : State) (id : Nat) : State :=
  match mget s.mops id with
  | none => s
  | some op =>
    if op.kind = .st ∨ op.kind = .red then
      let (s, els) := stepEls (fun s kept e => s.storeStep id op kept e) [] op.todo s
      s.keepEls id op els
    else s

/-! ## Atomics (R295, R296) -/

/-- New value and flags of an atomic operation; none writes nothing. -/
def atomOp (c : Contract) (opc ty old b cmp : Nat) (fm : RMode) (draw : Nat) : Option Nat × Flags :=
  let w := tyBits ty
  match opc with
  | 0 =>
    if ty = 14 then
      let (v, f) := encOut fp32 (contractSum c (fp32.decode old) [{ x := fp32.decode b, xf := some fp32 }] [] false (.fmt fp32) fm draw)
      (some v, f)
    else (some ((old + b) % 2 ^ w), .none)
  | 1 => if ty = 14 then (let (v, f) := encOut fp32 (floatMinMax c fp32 false (fp32.decode old) (fp32.decode b)); (some v, f)) else (some (iminmax ty false old b), .none)
  | 2 => if ty = 14 then (let (v, f) := encOut fp32 (floatMinMax c fp32 true (fp32.decode old) (fp32.decode b)); (some v, f)) else (some (iminmax ty true old b), .none)
  | 3 => (some (old &&& b), .none)
  | 4 => (some (old ||| b), .none)
  | 5 => (some (old ^^^ b), .none)
  | 6 => (some b, .none)
  | 7 => (if old = cmp then some b else none, .none)
  | 8 => (some (if b ≤ old then 0 else old + 1), .none)
  | _ => (some (if old = 0 ∨ b < old then b else old - 1), .none)

/-- The draw of an atomic made at issue, from the lane's stream or the copy stream (R232, R296). -/
def State.atomDraw (s : State) (a : Issuer) (l : Nat) : Nat :=
  match a with
  | .slice _ _ => s.laneDraw a l 0
  | .ctx k =>
    let u := s.teamOf a
    let j : DWord := BitVec.ofNat 64 (2 ^ 63 + 2 ^ 61 + s.special a 0 3 * 1024)
    srDraw (s.contractOf a).srv (s.ctx k).seed (BitVec.ofNat 64 (s.special a 0 5)) j (match s.team u with | some t => t.copyCnt | none => 0)

/-- Count the draws of an atomic in the lanes of a mask. -/
def State.countDraws (s : State) (a : Issuer) (m : Mask) : State :=
  match a with
  | .slice u i => s.modSlice u i (fun x => { x with srcnt := x.srcnt.upd m (fun l => x.srcnt.get l + 1) })
  | .ctx _ => if m = 0 then s else s.modTeam (s.teamOf a) (fun t => { t with copyCnt := t.copyCnt + 1 })

/-- RRMODE of an agent's task. -/
def State.rrmodeOf (s : State) (a : Issuer) : Nat := match s.taskOf (s.teamOf a) with | some k => k.rrmode | none => 0

/-- The stream and tag of an element that the log covers (R472): a global-window line in device HBM. -/
def State.logKey (s : State) (a : Issuer) (e : El) : Option (Nat × Nat) :=
  if 2 ^ 56 ≤ e.tva then none
  else match e.place with
    | some (.scr _ _) => none
    | some (.phys pa _) => if (hbmDie pa).isSome then some (streamOf pa, lineTag e.va) else none
    | none => match s.translate { s.req a with tlb := false } e.tva accAtomic e.win with
      | .ok pa _ _ => if (hbmDie pa).isSome then some (streamOf pa, lineTag e.va) else none
      | _ => none

/-- What the order gate says to an agent (R475): pass with what the task has then consumed, wait, or a log fault. -/
inductive Gate where
  | pass (used : Option (Map Nat))
  | wait
  | fault (e : Bool × Nat × Nat × Nat × Nat)

def State.gateOf (s : State) (a : Issuer) (els : List El) : Gate :=
  let u := s.teamOf a
  match s.team u, s.taskOf u with
  | some t, some k =>
    if k.rrmode ≠ 2 ∨ els.isEmpty then .pass none
    else
      let (res, L) := Log.gate { s := s } t.task (s.coreOf a) t.index (els.filterMap (s.logKey a)) k.consumed
      match L.err, res with
      | some e, _ => .fault e
      | none, some used => .pass (some used)
      | none, none => .wait
  | _, _ => .pass none

/-- The agent has waited at the gate for 2^24 cycles. -/
def State.gateOutOf (s : State) (a : Issuer) : Bool := match a with | .slice u i => (s.sl u i).gateOut | .ctx k => (s.ctx k).gateOut
/-- Begin or go on waiting at the gate. -/
def State.gateWait (s : State) (a : Issuer) : State :=
  let c := s.cyc (s.coreOf a).die
  match a with
  | .slice u i => s.modSlice u i (fun x => { x with gateSince := some (x.gateSince.getD c), wait := .entry })
  | .ctx k => s.modCtx k (fun x => { x with gateSince := some (x.gateSince.getD c), wait := .entry })
/-- RPLY cause GATE after atomics issued out of turn: at the next boundary, or the sticky bit when masked (R475). -/
def State.gateTrap (s : State) (a : Issuer) (pc : Nat) (m : Mask) : State :=
  let u := s.teamOf a
  if s.masks u kRply then s.sticky u kRply
  else
    let p : PTrap := { kind := kRply, cause := 2, amask := m, fpc := some pc }
    match a with
    | .slice u i => s.modSlice u i (fun x => { x with pend := x.pend ++ [p] })
    | .ctx k => s.modCtx k (fun x => { x with pend := x.pend ++ [p] })

/-- An atomic of an agent past its checks: the release of ORD, the gate, and the issue. -/
def State.atomIssue (s : State) (r : Raw) (kind : MemKind) (a : Issuer) (els : List El) (t : State) : State :=
  let m := s.acts a r.x
  let ty := rty r 11
  let ord := bits r.x.imm.toNat 5 4
  let scope := scopeOf r.x.scope.toNat
  let c := s.contractOf a
  let fm := Contract.mode c r.x.rm.toNat
  let draws := ty = 14 ∧ bits r.x.imm.toNat 3 0 = 0 ∧ fm = .sr
  let (ready, t) := if ord / 2 = 1 ∧ m ≠ 0 ∧ t.room a r then t.release a scope else (true, t)
  if !t.room a r then t.trapOne a kIllegal cRegspace 0 0 m
  else if !ready then t.setWait a .stores
  else
    let go (t : State) : State :=
      let t := if kind = .red then t.countStore a m else t
      let t := if draws then t.countDraws a m else t
      let op := { s.opOf a r kind ty 1 m els with opc := bits r.x.imm.toNat 3 0, order := ord, scope := scope, seq := t.sseqOf a, vas := els.map (fun e => (e.lane, e.va)) }
      t.launchSeen a r m op (if kind = .red then 1 else 3) (s.pcOf a) ((maskList m).map (s.atomEa a r))
    if t.gateOutOf a then (go t).gateTrap a (s.pcOf a) m
    else match t.gateOf a els with
      | .pass none => go t
      | .pass (some used) => go (match t.team (t.teamOf a) with
        | some v => t.modTask v.task (fun k => { k with consumed := used })
        | none => t)
      | .wait => t.gateWait a
      | .fault e => match t.team (t.teamOf a) with | some v => (t.logFault v.task (t.coreOf a) e).setWait a .replay | none => t

/-- ATOM, and RED on a context, are precise; RED on a SIMT core translates after it retires (R292). -/
def bodyAtom (r : Raw) (kind : MemKind) (s : State) : State :=
  let ty := rty r 11
  let size := tyBits ty / 8
  let lanes := s.laneWants r (fun a l => match s.laneEls a l (s.atomEa a r l) size 1 size { priv := false, spill := false } with
    | .ok es => .ok (es.map (fun e => { e with data := s.srcB a r ty l, cmp := s.readV a (size == 8) r.x.d.toNat l, draw := s.atomDraw a l }))
    | .error e => .error e)
  match kind, s.engine with
  | .red, .g => s.checked r lanes (s.atomIssue r kind)
  | _, _ => s.access r accAtomic lanes (s.atomIssue r kind)

/-- Append a performed atomic to the log in record mode (R474). A task that ends with LISTFAULT logs nothing more (R46). -/
def State.logAtomic (s : State) (op : MemOp) (e : El) : Except (Bool × Nat × Nat × Nat × Nat) State :=
  let u := s.teamOf op.by_
  match s.team u with
  | none => .ok s
  | some t =>
    match (if (s.task t.task).any (·.listFault) then 0 else s.rrmodeOf op.by_), s.logKey op.by_ e with
    | 1, some (st, tag) =>
      let L := Log.atomic { s := s } t.task (s.coreOf op.by_) st t.index tag
      match L.err with
      | some er => .error er
      | none => .ok L.s
    | _, _ => .ok s

/-- Perform one element of an atomic, RED or histogram update at its point. -/
def State.atomPerform (s : State) (id : Nat) (op : MemOp) (e : El) (p : Place) : State :=
  let c := (Config.contract? op.contract).getD default
  let fm := Contract.mode c op.rm
  let hist := op.kind == .hist
  let f (old : Nat) : Option Nat × Flags :=
    if hist then (some (min (old + e.data) 0xFFFFFFFF), .none) else atomOp c op.opc op.ty old e.data e.cmp fm e.draw
  match (if hist then .ok s else s.logAtomic op e) with
  | .error er => match s.team (s.teamOf op.by_) with
    | some t => (s.logFault t.task (s.coreOf op.by_) er).modOp id (fun o => { o with todo := o.todo.map (fun x => if x == e then { x with held := er.1 } else x) })
    | none => s
  | .ok s =>
    let s0 := s
    let (old, s) := s.placeUpdate op.by_ p op.size (fun o => (f o).1)
    let s := match (f old).1 with | some v => s.hideBy s0 op.by_ e.lane id p (toBytes op.size v) | none => s
    let s := if op.kind = .red then s.hashEl id op e 2 (op.size + 16 * op.opc) e.data else s
    let op' := { op with
      todo := op.todo.filter (· != e)
      got := if op.kind = .atom then op.got ++ [(e.lane, 0, old)] else op.got
      pod := op.pod || e.podLine?.isSome
      fl := if op.kind = .atom then op.fl.upd (BitVec.ofNat 4 (2 ^ e.lane)) (fun l => op.fl.get l ||| ((f old).2).setWidth 32) else op.fl }
    if op'.todo.isEmpty ∧ (op.kind = .red ∨ hist) then { s with mops := mdel s.mops id } else s.modOp id (fun _ => op')

/-- A pod element waits while the core's write-combining buffer holds its line, until the pool node acknowledges the drain that it
begins (R286). A context's line may stand in the buffer of its paired core. -/
def State.wcHolds (s : State) (a : Issuer) (line : Nat) : Bool := (s.core (s.coreOf a)).wc.any (fun e => e.line == line)

/-- A core reaches the node of a line (R388, R390). -/
def State.lineUp (s : State) (c : CoreId) (line : Nat) : Bool := match podNode (128 * line) with | some n => s.podOpen c n | none => false

/-- The link is up, the flow open, and the request is the oldest of its core's flow to the pool node, drains that began before it among
them (R391). -/
def State.podTurn (s : State) (id : Nat) (op : MemOp) (line : Nat) : Bool :=
  s.lineUp (s.coreOf op.by_) line && !s.mops.any (fun p => decide (p.1 < id) && s.coreOf p.2.by_ == s.coreOf op.by_ && (p.2.kind == .ld || p.2.kind == .ldk || p.2.kind == .atom || p.2.kind == .red) &&
    p.2.todo.any (fun e => match e.podLine? with | some ln => podNode (128 * ln) == podNode (128 * line) && !e.held && !s.mustWait p.1 p.2 e | none => false)) &&
  !(s.core (s.coreOf op.by_)).wc.any (fun e => e.draining && !e.performed && decide (e.trig ≤ id) && podNode (128 * e.line) == podNode (128 * line))

/-- In replay, an atomic is performed after those of its task that took their turns on its tag before it (R475). -/
def State.turnWaits (s : State) (id : Nat) (op : MemOp) (e : El) : Bool :=
  op.kind != .hist && s.rrmodeOf op.by_ == 2 && (s.logKey op.by_ e).isSome &&
    s.mops.any (fun p => decide (p.1 < id) && (p.2.kind == .atom || p.2.kind == .red) &&
      (s.team (s.teamOf p.2.by_)).map (·.task) == (s.team (s.teamOf op.by_)).map (·.task) &&
      p.2.todo.any (fun x => lineTag x.va == lineTag e.va && (s.logKey p.2.by_ x).isSome))

/-- Something other than a bounded time keeps an operation from its completion: a replayable hold, an older operation of its agent, its
turn in replay, or the fabric (R122, R359, R391, R475). -/
def State.stuckAt (s : State) (id : Nat) (op : MemOp) : Bool :=
  op.todo.any (fun e => e.held || s.mustWait id op e || s.turnWaits id op e || match e.podLine? with | some ln => !s.podTurn id op ln | none => false)

/-- A load or atomic of an agent is in flight that completes in a bounded time: HALT waits for it (R172), and for no other (R445). -/
def State.awaitsHalt (s : State) (a : Issuer) : Bool :=
  s.mops.any (fun p => p.2.by_ == a && (p.2.kind == .ld || p.2.kind == .ldk || p.2.kind == .atom) && !s.stuckAt p.1 p.2 &&
    !(p.2.order % 2 == 1 && s.mops.any (fun q => decide (q.1 < p.1) && q.2.by_ == a && (q.2.kind == .ld || q.2.kind == .ldk || q.2.kind == .atom) && s.stuckAt q.1 q.2)))

/-- The first element that is translated, not held, and behind none that lies or may lie at its place (R296). -/
def nextOf (n : Nat) : List El → List El → Option (El × Place)
  | _, [] => none
  | before, e :: es =>
    match e.place with
    | some p => if e.held || before.any (fun x => x.mayMeet n e n) then nextOf n (before ++ [e]) es else some (e, p)
    | none => nextOf n (before ++ [e]) es

/-- The next element of an atomic that can be performed. -/
def MemOp.nextAtom (op : MemOp) : Option (El × Place) := nextOf op.size [] op.todo

/-- ATOMIC_PERFORM (R296): one lane's atomic, in %lane order. -/
def State.atomicPerform (s : State) (id : Nat) : State :=
  match mget s.mops id with
  | none => s
  | some op =>
    if op.kind = .atom ∨ op.kind = .red ∨ op.kind = .hist then
      match op.nextAtom with
      | none => s
      | some (e, p) =>
        if s.mustWait id op e || s.turnWaits id op e then s
        else match p.podLine? with
          | some ln =>
            if s.wcHolds op.by_ ln then s.wcDrain (s.coreOf op.by_) (fun w => w.line == ln)
            else if s.podTurn id op ln then s.atomPerform id op e p else s
          | none => s.atomPerform id op e p
    else s

/-! ## Replies (R309) -/

/-- The value an element of a load delivers. -/
def extendTy (ty v : Nat) : Nat := if tySigned ty then wrapTo (max 32 (tyBits ty)) (sintOf (tyBits ty) v) else v

/-- The names that an element's value goes to, with their words. -/
def MemOp.parts (op : MemOp) (elem v : Nat) : List (Nat × Nat) :=
  if op.wide then [(op.dst + 2 * elem, v), (op.dst + 2 * elem + 1, v / 2 ^ 32)] else [(op.dst + elem, v)]

/-- A slice with a loaded value put where it is still wanted. -/
def Slice.deliver (x : Slice) (op : MemOp) (lane elem v : Nat) : Slice :=
  (op.parts elem v).foldl (fun x p =>
    if op.mask.getLsbD lane && !op.skip.contains (p.1, lane) && (mget x.names p.1).isSome then
      x.putReg p.1 (BitVec.ofNat 4 (2 ^ lane)) (fun _ => BitVec.ofNat 32 p.2)
    else x) x

/-- A loaded value in the frames that its slice entered since (R441). -/
def State.deliverFrames (s : State) (u i : Nat) (op : MemOp) (lane elem v : Nat) : State :=
  if !op.mask.getLsbD lane then s
  else foldS (fun (f : Nat × List (Nat × Nat)) s =>
    foldS (fun (p : Nat × Nat) s => if f.2.contains (p.1, lane) then s else s.frameReg u i f.1 p.1 lane p.2) (op.parts elem v) s) op.frames s

/-- Deliver the values of a load or atomic (R293, R294, R296). The k registers of an LDK are its home gang's: EXIT or KILL of the
lanes that issued it does not discard their write (R188 discards register writes of lanes; log 127). -/
def State.deliver (s : State) (op : MemOp) (vs : List (Nat × Nat × Nat)) : State :=
  foldS (fun (p : Nat × Nat × Nat) s =>
    let v := extendTy op.ty p.2.2
    match op.by_, op.kind with
    | .slice u i, .ldk =>
      let put (n w : Nat) (s : State) : State := if op.skip.contains (n, 0) then s else s.putK u i n false w
      if op.wide then put (op.dst + 2 * p.2.1 + 1) (v / 2 ^ 32) (put (op.dst + 2 * p.2.1) v s) else put (op.dst + p.2.1) v s
    | .slice u i, _ => (s.modSlice u i (fun x => x.deliver op p.1 p.2.1 v)).deliverFrames u i op p.1 p.2.1 v
    | .ctx k, _ => if op.skip.contains (op.dst + p.2.1, 0) then s else s.modCtx k (fun x => { x with regs := mset x.regs (op.dst + p.2.1) (BitVec.ofNat 64 v) })) vs s

/-- Read the elements of a load in order. -/
def State.readEls (s : State) (op : MemOp) : List El → List (Nat × Nat × Nat) × State
  | [] => ([], s)
  | e :: es =>
    match e.place with
    | none => State.readEls s op es
    | some p =>
      let (v, s) := s.placeRead op.by_ p op.size op.byp
      let (r, s) := State.readEls s op es
      ((e.lane, e.elem, v) :: r, s)

/-- OR an atomic's flags into the sticky flags of its lanes (R296). -/
def State.orFlags (s : State) (op : MemOp) : State :=
  match op.by_ with
  | .slice u i => s.modSlice u i (fun x => { x with fstk := x.fstk.upd op.mask (fun l => x.fstk.get l ||| op.fl.get l) })
  | .ctx k => s.modCtx k (fun x => { x with fstk := x.fstk ||| op.fl.p0 })

/-- LOAD_REPLY (R309): a load, LDK or atomic reply returns and writes its destination. An atomic that acquires returns after its
agent's earlier reads (R361). -/
def State.loadReply (s : State) (id : Nat) : State :=
  match mget s.mops id with
  | none => s
  | some op =>
    if op.pod ∧ !op.answered then s
    else match op.kind with
      | .atom =>
        if !op.todo.isEmpty then s
        else if op.order % 2 = 1 ∧ s.mops.any (fun p => decide (p.1 < id) && p.2.by_ == op.by_ && (p.2.kind == .ld || p.2.kind == .ldk || p.2.kind == .atom)) then s
        else
          let s := foldS (fun (p : Nat × Nat × Nat) s => match op.by_ with
            | .slice u _ => s.contribute u id (hashOf ((mget op.vas p.1).getD 0) 3 (op.size + 16 * op.opc) p.2.2)
            | .ctx _ => s) op.got s
          let s := ((s.deliver op op.got).orFlags op)
          let s := { s with mops := mdel s.mops id }
          if op.order % 2 = 1 then s.acquire (s.coreOf op.by_) op.scope else s
      | .st => s
      | .red => s
      | .hist => s
      | .hitch => s
      | _ =>
        if op.todo.any (s.mustWait id op) then s
        else match op.todo.findSome? El.podLine? with
          | some ln => if s.wcHolds op.by_ ln then s.wcDrain (s.coreOf op.by_) (fun w => w.line == ln) else s
          | none =>
            let (vs, s) := s.readEls op op.todo
            let s := s.deliver op (op.got ++ vs)
            { s with mops := mdel s.mops id }

/-! ## LDK (R294) -/

/-- The lanes that give LDK its address: the lowest acting lane of each home gang. -/
def State.ldkLanes (s : State) (r : Raw) : List (Issuer × Nat) :=
  let ls := s.actingLanes r.x
  ls.filter (fun p => !ls.any (fun q => homeGang q.1 == homeGang p.1 && decide (laneNo q.1 q.2 < laneNo p.1 p.2)))

/-- The words of the argument block that a lane reads, 4 bytes each; those past ARGSZ are 0 (R294). -/
def State.argEls (s : State) (a : Issuer) (r : Raw) (l size words : Nat) : Want :=
  let o := s.ea a r l
  match s.taskOf (s.teamOf a) with
  | none => .ok []
  | some k =>
    if o % size ≠ 0 then .error (kAlign, 0, o)
    else .ok ((List.range words).filterMap (fun e =>
      if o + 4 * e < k.argSz then some { lane := l, elem := e, va := k.argAddr + o + 4 * e, tva := k.argAddr + o + 4 * e } else none))

/-- LDK (R294). -/
def bodyLdk (r : Raw) (s : State) : State :=
  let t := rty r 3
  let n := vnCount r.x
  let size := tyBits t / 8
  let arg := bitAt r.x.scope.toNat 0
  let words := n * size / 4
  let lead := s.ldkLanes r
  let want (a : Issuer) (l : Nat) : Want :=
    if arg then s.argEls a r l size words else s.laneEls a l (s.ea a r l) size n size { spill := false }
  s.access r accRead (lead.map (fun p => (p.1, want p.1 p.2))) (fun a els t' =>
    let m := s.acts a r.x
    if lead.any (fun p => p.1 == a) then
      let l := lowest m
      let op := if arg then
          { s.opOf a r .ldk 3 1 m els with
            got := ((List.range words).filter (fun e => !els.any (fun x => x.elem == e))).map (fun e => (l, e, 0)) }
        else s.opOf a r .ldk t n m els
      let t' := match a with | .slice u i => t'.takeOverK u i op.dests | .ctx _ => t'
      t'.launchSeen a r m op 2 (s.pcOf a) (if arg then (els.head?.map (·.va)).toList else [s.ea a r l])
    else t'.launchOp a r m (s.opOf a r .ldk t n m []))

/-! ## EXPHIST (R262) -/

/-- The counters of a lane's histogram that rise, one element for each value. -/
def State.histEls (s : State) (a : Issuer) (r : Raw) (l : Nat) : Want :=
  let t := rty r 14
  let b := s.srcB a r 0 l
  let v := s.srcA a r t l
  let f := fmtTy t
  let vals := if f.width = 16 then [f.decode (elemOf 16 v 0), f.decode (elemOf 16 v 1)] else [f.decode v]
  let one (i off : Nat) : Want :=
    match s.resolve (s.teamOf a) (laneNo a l) (b + off) 4 4 { priv := false, spill := false } with
    | .trap k c => .error (k, c, b)
    | .scr u o => if u = s.teamOf a then .ok [{ lane := l, elem := i, va := b + off, place := some (.scr u o), data := 1, tva := b + off }] else .error (kProt, 8, b)
    | .fault k c => .error (k, c, b)
    | .virt va win => if 2 ^ 56 ≤ va then .error (kProt, 8, b) else .ok [{ lane := l, elem := i, va := b + off, data := 1, tva := va, win := win }]
  let whole := match s.resolve (s.teamOf a) (laneNo a l) b 4 16 { priv := false, spill := false } with | .trap k c => some (k, c) | _ => none
  match whole with
  | some (k, c) => .error (k, c, b)
  | none =>
    match vals.map histOffset with
    | [x] => one 0 x
    | [x, y] => (match one 0 x, one 1 y with | .ok p, .ok q => .ok (p ++ q) | .error e, _ => .error e | _, .error e => .error e)
    | _ => .ok []

/-- EXPHIST. -/
def bodyExphist (r : Raw) (s : State) : State :=
  s.access r accAtomic (s.laneWants r (s.histEls · r ·)) (fun a els t' =>
    let m := s.acts a r.x
    t'.launchSeen a r m { s.opOf a r .hist 11 0 m els with size := 4 } 1 (s.pcOf a) ((maskList m).map (s.srcB a r 0)))

/-! ## Cache control (R297) -/

/-- The translation of an access for which nothing waits: by the TLBs, else as the tables give it while the walk is asked for (R129,
R297; DESIGN CHOICE, log 30). -/
def State.cacheTr (s : State) (a : Issuer) (e : El) : Tr × State :=
  match s.translate (s.req a) e.tva accRead e.win with
  | .miss => (s.translate { s.req a with tlb := false } e.tva accRead e.win, s.askWalk (s.req a) e.tva (waiterOf a))
  | t => (t, s)

/-- The effect of PREF, CFLUSH and CINV on a lane's line. -/
def State.cacheLane (s : State) (r : Raw) (a : Issuer) (e : El) : State :=
  let c := s.coreOf a
  match e.place, e.flt with
  | some _, _ => s
  | _, some _ => s
  | none, none => match s.cacheTr a e with
    | (.ok pa cache _, s) =>
      let line := pa / 128
      if 2 ^ 47 ≤ pa then (if r.op = .cflush then (s.wcDrain c (fun w => w.line == line)).modCore c (fun k =>
        { k with wc := k.wc.map (fun w => if w.line == line then { w with flush := a :: w.flush } else w) }) else s)
      else if cache ≠ 0 then s
      else match r.op with
        | .cflush => s.l1Back c line
        | .cinv => (s.l1Drop c line).rdcDrop c.die line
        | _ => match a with
          | .slice _ _ => if r.x.d = 0 then (s.l1Read c (128 * line) 0 128 false).2 else (s.rdcRead c (128 * line) 0 128).2
          | .ctx _ => (s.rdcRead c (128 * line) 0 128).2
    | (_, s) => s

/-- PREF, CFLUSH, CINV. -/
def bodyCache (r : Raw) (s : State) : State :=
  s.checked r (s.laneWants r (fun a l => s.laneEls a l (s.ea a r l) 1 1 1 {})) (fun a els t =>
    let m := s.acts a r.x
    (foldS (fun e t => t.cacheLane r a e) els t).commit r a m .none (fun _ => {}))

/-! ## Pool nodes (R391) and the write-combining buffer (R286) -/

/-- POD_REQUEST (R391): the pool nodes perform the elements of a load that are in turn there, an atomic, or a drained write. -/
def State.podRequest (s : State) (id : Nat) : State :=
  match mget s.mops id with
  | some op =>
    if op.kind = .ld ∨ op.kind = .ldk then
        let es := op.todo.filter (fun e => e.podLine?.isSome)
        if es.isEmpty ∨ op.todo.any (s.mustWait id op) then s
        else if es.any (fun e => match e.podLine? with | some l => s.wcHolds op.by_ l | none => false) then
          s.wcDrain (s.coreOf op.by_) (fun w => es.any (fun e => e.podLine? == some w.line))
        else
          let go := es.filter (fun e => match e.podLine? with | some l => s.podTurn id op l | none => false)
          if go.isEmpty then s
          else
            let (vs, s) := s.readEls op go
            s.modOp id (fun o => { o with todo := o.todo.filter (fun e => !go.contains e), got := o.got ++ vs, pod := true })
    else if (op.nextAtom.bind (fun p => p.2.podLine?)).isSome then s.atomicPerform id else s
  | none =>
    match s.cores.find? (fun p => p.2.wc.any (fun e => e.id == id && s.lineUp (Sys2Proof.Machine.coreOf p.1) e.line)) with
    | some (k, _) => s.wcPerform (Sys2Proof.Machine.coreOf k) id
    | none => s

/-- POD_RESPONSE (R391): the response cell reaches the core once every request of the operation is performed. -/
def State.podResponse (s : State) (id : Nat) : State :=
  match mget s.mops id with
  | some op => if op.pod ∧ !op.todo.any (fun e => e.podLine?.isSome) then s.modOp id (fun o => { o with answered := true }) else s
  | none => s

/-- WC_DRAIN_ACK (R286): the pool node, over a link that is up, acknowledges a drained write and the entry frees. -/
def State.wcDrainAck (s : State) (c : CoreId) (id : Nat) : State :=
  if (s.core c).wc.any (fun e => e.id == id && s.lineUp c e.line) then s.wcAck c id else s

/-- WC_AGE_DRAIN (R286): entries 4,096 cycles old drain. -/
def State.wcAgeDrain (s : State) (c : CoreId) : State := s.wcDrain c (fun e => decide (e.since + 4096 ≤ s.cyc c.die))

/-! ## The meanings -/

def execLd (b : Base) (s : State) : Host.Outcome State Fault Refusal := issue (.base .ld b) s (bodyLd (.base .ld b))
def execLdExt (x : Ext) (s : State) : Host.Outcome State Fault Refusal := issue (.ext .ld x) s (bodyLd (.ext .ld x))
def execSt (b : Base) (s : State) : Host.Outcome State Fault Refusal := issue (.base .st b) s (bodySt (.base .st b))
def execStExt (x : Ext) (s : State) : Host.Outcome State Fault Refusal := issue (.ext .st x) s (bodySt (.ext .st x))
def execLdk (b : Base) (s : State) : Host.Outcome State Fault Refusal := issue (.base .ldk b) s (bodyLdk (.base .ldk b))
def execLdkExt (x : Ext) (s : State) : Host.Outcome State Fault Refusal := issue (.ext .ldk x) s (bodyLdk (.ext .ldk x))
def execAtom (b : Base) (s : State) : Host.Outcome State Fault Refusal := issue (.base .atom b) s (bodyAtom (.base .atom b) .atom)
def execAtomExt (x : Ext) (s : State) : Host.Outcome State Fault Refusal := issue (.ext .atom x) s (bodyAtom (.ext .atom x) .atom)
def execRed (b : Base) (s : State) : Host.Outcome State Fault Refusal := issue (.base .red b) s (bodyAtom (.base .red b) .red)
def execRedExt (x : Ext) (s : State) : Host.Outcome State Fault Refusal := issue (.ext .red x) s (bodyAtom (.ext .red x) .red)
def execExphist (b : Base) (s : State) : Host.Outcome State Fault Refusal := issue (.base .exphist b) s (bodyExphist (.base .exphist b))
def execExphistExt (x : Ext) (s : State) : Host.Outcome State Fault Refusal := issue (.ext .exphist x) s (bodyExphist (.ext .exphist x))
def execPref (b : Base) (s : State) : Host.Outcome State Fault Refusal := issue (.base .pref b) s (bodyCache (.base .pref b))
def execPrefExt (x : Ext) (s : State) : Host.Outcome State Fault Refusal := issue (.ext .pref x) s (bodyCache (.ext .pref x))
def execCflush (b : Base) (s : State) : Host.Outcome State Fault Refusal := issue (.base .cflush b) s (bodyCache (.base .cflush b))
def execCflushExt (x : Ext) (s : State) : Host.Outcome State Fault Refusal := issue (.ext .cflush x) s (bodyCache (.ext .cflush x))
def execCinv (b : Base) (s : State) : Host.Outcome State Fault Refusal := issue (.base .cinv b) s (bodyCache (.base .cinv b))
def execCinvExt (x : Ext) (s : State) : Host.Outcome State Fault Refusal := issue (.ext .cinv x) s (bodyCache (.ext .cinv x))

def execLoadReply (id : Nat) (s : State) : Host.Outcome State Fault Refusal := .next (s.loadReply id)
def execStoreTranslate (id : Nat) (s : State) : Host.Outcome State Fault Refusal := .next (s.storeTranslate id)
def execAtomicPerform (id : Nat) (s : State) : Host.Outcome State Fault Refusal := .next (s.atomicPerform id)
def execWcAgeDrain (c : CoreId) (s : State) : Host.Outcome State Fault Refusal := .next (s.wcAgeDrain c)
def execWcDrainAck (c : CoreId) (entry : Nat) (s : State) : Host.Outcome State Fault Refusal := .next (s.wcDrainAck c entry)
def execPodRequest (id : Nat) (s : State) : Host.Outcome State Fault Refusal := .next (s.podRequest id)
def execPodResponse (id : Nat) (s : State) : Host.Outcome State Fault Refusal := .next (s.podResponse id)

end Sys2Proof.Machine
end

