-- ==== Sys2Proof/Machine/Copy.lean ====
section
/-!
DEFINITION. Arrival words (R298 to R300) and copies (R301 to R308): ACP16, TCOPY, TDUMP, AWINIT, AWEXP, AWAIT, AWTEST, and
the events of copy cells.
-/
namespace Sys2Proof.Machine

/-! ## Arrival words (R298, R299) -/

/-- An arrival word: the double words at 0x00 and 0x08. -/
structure AWord where
  lo : Nat
  hi : Nat
deriving DecidableEq, Repr

def State.awGet (s : State) (u off : Nat) : AWord := { lo := ofBytes (s.scrRead u off 8), hi := ofBytes (s.scrRead u (off + 8) 8) }
def State.awPut (s : State) (u off : Nat) (w : AWord) : State := s.scrWrite u off (toBytes 8 w.lo ++ toBytes 8 w.hi)

def AWord.gen (w : AWord) : Nat := bits w.lo 63 32
def AWord.status (w : AWord) : Nat := w.lo % 2 ^ 32
def AWord.expect (w : AWord) : Nat := bits w.hi 63 32
def AWord.deliv (w : AWord) : Nat := bits w.hi 31 0
def AWord.armed (w : AWord) : Bool := bitAt w.lo 0
/-- Every update writes 0 to the reserved bits [15:2]. -/
def AWord.clean (w : AWord) : AWord := { w with lo := setBits w.lo 15 2 0 }
def AWord.overrun (w : AWord) (b : Bool) : AWord := if b then { w with lo := setBits w.lo 1 1 1 } else w

/-- Close(w) (R299). -/
def AWord.close (w : AWord) : AWord :=
  if w.armed ∧ w.expect ≤ w.deliv then
    let w := w.overrun (decide (w.expect < w.deliv))
    { lo := setBits (setBits w.lo 0 0 0) 63 32 (w.gen + 1), hi := 0 }
  else w
/-- Deliver(w, n), Expect(w, n) and Fault(w, k) (R299). -/
def AWord.deliver (w : AWord) (n : Nat) : AWord :=
  let w := w.clean.overrun (decide (2 ^ 32 - 1 < w.deliv + n))
  AWord.close { w with hi := setBits w.hi 31 0 (min (w.deliv + n) (2 ^ 32 - 1)) }
def AWord.expectMore (w : AWord) (n : Nat) : AWord :=
  let w := w.clean.overrun (decide (2 ^ 32 - 1 < w.expect + n))
  AWord.close { lo := setBits w.lo 0 0 1, hi := setBits w.hi 63 32 (min (w.expect + n) (2 ^ 32 - 1)) }
def AWord.faulted (w : AWord) (k : Nat) : AWord :=
  let w := w.clean
  let w := if bits w.lo 31 24 = 0 then { w with lo := setBits w.lo 31 24 k } else w
  { w with lo := setBits w.lo 23 16 (min (bits w.lo 23 16 + 1) 255) }

/-- An update of a word that a team holds; none is no word. -/
def State.awUpdate (s : State) (w : Option (Nat × Nat)) (f : AWord → AWord) : State :=
  match w with
  | some (u, off) => if (s.team u).isSome then s.awPut u off (f (s.awGet u off)) else s
  | none => s

/-! ## The arrival-word instructions (R300) -/

/-- The word of a lane: its team and offset, or a trap. -/
def State.awPlace (s : State) (a : Issuer) (r : Raw) (l : Nat) : Except (Nat × Nat × Nat) (Nat × Nat) :=
  let off := s.srcA a r 0 l
  let va := 0x1FC * 2 ^ 48 + off
  if off % 16 ≠ 0 then .error (kAlign, 0, va)
  else match s.resScr (s.teamOf a) off 16 with
    | .scr u o => .ok (u, o)
    | .trap k c => .error (k, c, va)
    | _ => .error (kProt, 8, va)

/-- The words of the acting lanes in %lane order, or the first trap. -/
def State.awPlaces (s : State) (r : Raw) : List (Issuer × Nat) → Except (Nat × Nat × Nat) (List (Issuer × Nat × Nat × Nat))
  | [] => .ok []
  | (a, l) :: ls =>
    match s.awPlace a r l, State.awPlaces s r ls with
    | .ok (u, o), .ok r => .ok ((a, l, u, o) :: r)
    | .error e, _ => .error e
    | _, .error e => .error e

/-- An older access of an agent to a word is not performed (R359). -/
def State.awBusy (s : State) (p : Issuer × Nat × Nat × Nat) : Bool :=
  s.mops.any (fun m => m.2.by_ == p.1 && m.2.todo.any (fun e => match e.place with | some (.scr u o) => u == p.2.2.1 && overlaps o m.2.size p.2.2.2 16 | _ => false))

/-- What an arrival-word instruction finds in a lane: GEN and status after the update, or the value AWEXP returns. -/
structure AwSeen where
  a : Issuer
  lane : Nat
  val : Nat
  q : Bool

/-- The lanes of an arrival-word instruction applied in %lane order. -/
def State.awLanes (s : State) (r : Raw) (src : State) : List (Issuer × Nat × Nat × Nat) → List AwSeen × State
  | [] => ([], s)
  | (a, l, u, o) :: ps =>
    let w := s.awGet u o
    let b := src.srcB a r 0 l % 2 ^ 32
    let (seen, s) := match r.op with
      | .awinit => (({ a := a, lane := l, val := 0, q := false } : AwSeen), s.awPut u o { lo := 0, hi := 0 })
      | .awexp => ({ a := a, lane := l, val := w.gen, q := false }, s.awPut u o (w.expectMore b))
      | _ => ({ a := a, lane := l, val := w.status, q := w.gen != b }, s)
    let (r', s) := State.awLanes s r src ps
    (seen :: r', s)

/-- The acquires of lanes that found GEN changed (R300). -/
def State.awAcquire (s : State) (ps : List (Issuer × Nat × Nat × Nat)) (seen : List AwSeen) : State :=
  foldS (fun (p : Issuer × Nat × Nat × Nat) s =>
    if seen.any (fun x => x.a == p.1 && x.lane == p.2.1 && x.q) ∧ p.2.2.1 ≠ s.teamOf p.1 then s.acquire (s.coreOf p.1) 3 else s) ps s

/-- An agent's part of an arrival-word instruction that issues in state s, with the words of its lanes among ps. -/
def State.awOne (t s : State) (r : Raw) (dst : ODst) (ps : List (Issuer × Nat × Nat × Nat)) (a : Issuer) : State :=
  let mine := ps.filter (fun p => p.1 == a)
  let m := s.acts a r.x
  if !s.room a r then t.trapOne a kIllegal cRegspace 0 0 m
  else if mine.any s.awBusy then t.setWait a .stores
  else if r.op = .await ∧ mine.any (fun p => (t.awGet p.2.2.1 p.2.2.2).gen == s.srcB a r 0 p.2.1 % 2 ^ 32) then t.setWait a .await
  else
    let (seen, t1) := t.awLanes r s mine
    let acq := (r.op = .await ∨ r.op = .awtest) ∧ seen.any (·.q)
    if acq ∧ s.readsOut a then t.setWait a .stores
    else (if acq then t1.awAcquire mine seen else t1).commit r a m dst (fun l => match seen.find? (fun x => x.lane == l) with
      | some x => { val := x.val, q := x.q }
      | none => {})

/-- AWINIT, AWEXP, AWAIT, AWTEST. -/
def bodyAw (r : Raw) (dst : ODst) (s : State) : State :=
  match s.awPlaces r (s.actingLanes r.x) with
  | .error (k, c, va) => s.trapAll r.x k c va
  | .ok ps => foldS (fun a t => t.awOne s r dst ps a) s.agents s

/-! ## Issuing copies (R301, R302, R306) -/

/-- Copies of an agent in flight: tile copies and ACP16 lanes. -/
def State.tilesOut (s : State) (a : Issuer) : Nat := (s.copies.filter (fun p => p.2.by_ == a && p.2.kind != .acp16)).length
def State.acpsOut (s : State) (a : Issuer) : Nat := (s.copies.filter (fun p => p.2.by_ == a && p.2.kind == .acp16)).length

/-- A copy enters flight with a fresh number for itself and each cell; one without cells is done at once. -/
def State.addCopy (s : State) (c : Copy) : State :=
  if c.cells.isEmpty then s
  else
    let n := s.nextId
    let cells := (c.cells.zip (List.range c.cells.length)).map (fun p => { p.1 with id := n + 1 + p.2 })
    { s with copies := mset s.copies n { c with cells := cells }, nextId := n + 1 + c.cells.length }

/-- The copy of an agent, without cells. -/
def State.newCopy (s : State) (a : Issuer) (kind : CopyKind) : Copy :=
  { kind := kind, by_ := a, team := s.teamOf a, task := (match s.team (s.teamOf a) with | some t => t.task | none => 0), core := s.coreOf a, priv := s.privOf a, asid := s.asidOf (s.teamOf a), contract := s.special a 0 0x0C, cells := [] }

/-- A lane's copies or its trap. -/
abbrev CopyWant := Except (Nat × Nat × Nat) (List Copy × List (Option (Nat × Nat)))

/-- The scratchpad place of a 16-byte aligned offset. -/
def State.scrPlace (s : State) (u off z : Nat) : Except (Nat × Nat × Nat) (Nat × Nat) :=
  let va := 0x1FC * 2 ^ 48 + off
  if off % 16 ≠ 0 then .error (kAlign, 0, va)
  else match s.resScr u off z with
    | .scr u o => .ok (u, o)
    | .trap k c => .error (k, c, va)
    | _ => .error (kProt, 8, va)

/-- ACP16 in a lane (R302). -/
def State.acpLane (s : State) (a : Issuer) (r : Raw) (l : Nat) : CopyWant :=
  let u := s.teamOf a
  let ea := s.srcA a r 0 l
  let z := r.x.imm.toNat
  match s.resolve u (laneNo a l) ea 16 16 { priv := false, spill := false } with
  | .trap k c => .error (k, c, ea)
  | p =>
    match s.scrPlace u (s.srcB a r 0 l) 16, s.scrPlace u (s.srcC a r 0 l) 16 with
    | .error e, _ => .error e
    | _, .error e => .error e
    | .ok d, .ok w =>
      let src := match p with | .scr t o => CopySrc.scr t o | .virt va _ => .va va | _ => .va ea
      let cell : CopyCell := { id := 0, src := src, n := 16 - z, zero := z, dsts := [{ team := d.1, off := d.2, aw := if w.1 = d.1 then some w.2 else none }],
                               daw := if w.1 = d.1 then none else some w }
      .ok ([{ s.newCopy a .acp16 with cells := [cell] }], [])

/-! ## Tile descriptors (R303, R304) -/

/-- The window of an address: 0 global or pod, 1 scratchpad, 2 another. -/
def winOf (va : Nat) : Nat := if va / 2 ^ 48 < 0x180 then 0 else if va / 2 ^ 48 = 0x1FC then 1 else 2

/-- The spans of a row cut at the lines of an address: address and length. -/
def rowSpans (a n : Nat) : List (Nat × Nat) := spans (n + 1) a n

/-- The scratchpad places of each row. -/
def State.rowPlaces (s : State) (u off pitch n : Nat) : Nat → Except (Nat × Nat × Nat) (List (Nat × Nat))
  | 0 => .ok []
  | k + 1 =>
    match State.rowPlaces s u off pitch n k, s.scrPlace u (off + k * pitch) n with
    | .ok l, .ok p => .ok (l ++ [p])
    | .error e, _ => .error e
    | _, .error e => .error e

/-- A word of a descriptor: an offset, none for 0xFFFF_FFFF. -/
def awOff (v : Nat) : Option Nat := if v = 0xFFFFFFFF then none else some v

/-- The teams a multicast reaches (R305), and the count of quads dropped, those whose team has a halt pending among them (R308). -/
def State.receivers (s : State) (a : Issuer) (colm rowm off bytes : Nat) (daw : Option Nat) : List Nat × Nat :=
  let c := s.coreOf a
  let serial := match s.team (s.teamOf a) with | some t => t.task | none => 0
  let quads := (List.range 32).filter (fun q => bitAt colm (q % 8) && bitAt rowm (q / 8))
  let pick (q : Nat) : Option Nat :=
    let ts := s.teams.filter (fun p => p.2.task == serial && p.2.core.die == c.die && p.2.core.quad == q && p.2.core.core == c.core && p.2.onCore)
    match ts with
    | [] => none
    | t :: ts =>
      let b := (ts.foldl (fun (x : Nat × Team) y => if y.2.index < x.2.index then y else x) t).1
      if !(match s.team b with | some t => t.halt.isSome | none => true) && decide (off + bytes ≤ s.scrBytes b) && (match daw with | some w => decide (w + 16 ≤ s.scrBytes b) | none => true) then some b else none
  let rs := quads.filterMap pick
  (rs, quads.length - rs.length)

/-- TCOPY and TDUMP in a lane: the copy, and a fault of its source-side word for each quad dropped. -/
def State.tileLane (s : State) (a : Issuer) (r : Raw) (l : Nat) : CopyWant :=
  let u := s.teamOf a
  let doff := s.srcA a r 0 l
  let dva := 0x1FC * 2 ^ 48 + doff
  let dump := r.op == .tdump
  let desc (k : Nat) : CopyWant := .error (kIllegal, k, 0)
  if doff % 64 ≠ 0 then .error (kAlign, 0, dva)
  else if s.scrBytes u < doff + 64 then .error (kProt, 8, dva)
  else
    let w (i : Nat) : Nat := ofBytes (s.scrRead u (doff + 8 * i) 8)
    let src := bits (w 0) 56 0
    let dst := bits (w 1) 56 0
    let rb := bits (w 2) 31 0
    let rows := bits (w 2) 63 32
    let sp := bits (w 3) 31 0
    let dp := bits (w 3) 63 32
    let daw := awOff (bits (w 4) 31 0)
    let saw := awOff (bits (w 4) 63 32)
    let mc := bitAt (w 5) 12
    let colm := bits (w 5) 7 0
    let rowm := bits (w 5) 11 8
    let soff := src % 2 ^ 48
    let toff := dst % 2 ^ 48
    let bad := Except.error (kProt, 8, dva)
    let n := if rb = 0 then 0 else rows
    let last := if n = 0 then 0 else (n - 1) * dp + rb
    if src % 16 ≠ 0 ∨ dst % 16 ≠ 0 ∨ sp % 16 ≠ 0 ∨ dp % 16 ≠ 0 ∨ rb % 16 ≠ 0 then .error (kAlign, 0, dva)
    else if (match daw with | some o => decide (o % 16 ≠ 0) | none => false) || (match saw with | some o => decide (o % 16 ≠ 0) | none => false) then .error (kAlign, 0, dva)
    else if (if dump then winOf src ≠ 1 ∨ winOf dst ≠ 0 else winOf src = 2 ∨ winOf dst ≠ 1) then bad
    else if w 0 / 2 ^ 57 ≠ 0 ∨ w 1 / 2 ^ 57 ≠ 0 ∨ w 5 / 2 ^ 13 ≠ 0 ∨ w 6 ≠ 0 ∨ w 7 ≠ 0 ∨ 65536 < rows ∨ 65536 < rb ∨ 2 ^ 24 < rows * rb ∨ (dp < rb ∧ 1 < rows) ∨
        (mc ∧ dump) ∨ (mc ∧ (colm = 0 ∨ rowm = 0 ∨ 0x200000 ≤ toff)) ∨ (!mc ∧ (colm ≠ 0 ∨ rowm ≠ 0)) then desc cDesc
    else if mc && ((match daw with | some o => decide (0x200000 < o + 16) | none => false) || (match saw with | some o => decide (0x200000 < o + 16) | none => false)) then desc cDesc
    else
      let own (o : Option Nat) : Bool := match o with | some o => decide (o + 16 ≤ s.scrBytes u) | none => true
      let sawAt := saw.map (fun o => (u, o))
      if !own saw ∨ (dump ∧ !own daw) then bad
      else
        let srcRows : Except (Nat × Nat × Nat) (List CopySrc) :=
          if winOf src = 1 then (match s.rowPlaces u soff sp rb n with | .ok l => .ok (l.map (fun p => CopySrc.scr p.1 p.2)) | .error e => .error e)
          else .ok ((List.range n).map (fun i => .va (src + i * sp)))
        let at_ (c : CopySrc) (k : Nat) : CopySrc := match c with | .scr t o => .scr t (o + k) | .va v => .va (v + k)
        match srcRows with
        | .error e => .error e
        | .ok srcs =>
          if dump then
            let cells := ((List.range n).zip srcs).flatMap (fun p =>
              let d := dst + p.1 * dp
              (rowSpans d rb).map (fun q => ({ id := 0, src := at_ p.2 (q.1 - d), n := q.2, dva := some q.1, saw := sawAt, daw := daw.map (fun o => (u, o)) } : CopyCell)))
            .ok ([{ s.newCopy a .tdump with cells := cells }], [])
          else
            let cut (i : Nat) : List (Nat × Nat) := let b := src + i * sp; (rowSpans b rb).map (fun q => (q.1 - b, q.2))
            if mc then
              let (rs, drops) := s.receivers a colm rowm toff last daw
              let cells := ((List.range n).zip srcs).flatMap (fun p =>
                (cut p.1).map (fun q => ({ id := 0, src := at_ p.2 q.1, n := q.2, saw := sawAt,
                                           dsts := rs.map (fun t => { team := t, off := toff + p.1 * dp + q.1, aw := daw }) } : CopyCell)))
              .ok ([{ s.newCopy a .multicast with cells := cells }], if n = 0 then [] else List.replicate drops sawAt)
            else
              let dw : Except (Nat × Nat × Nat) (Option (Nat × Nat)) := match daw with
                | some o => (match s.scrPlace u o 16 with | .ok p => .ok (some p) | .error e => .error e)
                | none => .ok none
              match s.rowPlaces u toff dp rb n, dw with
              | .error e, _ => .error e
              | _, .error e => .error e
              | .ok dl, .ok dw =>
                let cells := ((List.range n).zip (srcs.zip dl)).flatMap (fun p =>
                  (cut p.1).map (fun q => ({ id := 0, src := at_ p.2.1 q.1, n := q.2, saw := sawAt,
                                             dsts := [{ team := p.2.2.1, off := p.2.2.2 + q.1, aw := none }], daw := dw } : CopyCell)))
                .ok ([{ s.newCopy a .tcopy with cells := cells }], [])

/-- The copies of the acting lanes in %lane order, or the first trap. -/
def copyWants : List (Issuer × CopyWant) → Except (Nat × Nat × Nat) (List (Issuer × List Copy × List (Option (Nat × Nat))))
  | [] => .ok []
  | (_, .error e) :: _ => .error e
  | (a, .ok c) :: r => match copyWants r with | .error e => .error e | .ok l => .ok ((a, c) :: l)

/-- ACP16, TCOPY and TDUMP: the release, which publishes the slice's writes (R301, R366), a free entry, the checks, and the copies of each lane. -/
def bodyCopy (r : Raw) (s : State) : State :=
  let lane (a : Issuer) (l : Nat) : CopyWant := if r.op = .acp16 then s.acpLane a r l else s.tileLane a r l
  match s.agents.find? (fun a => s.unperformed a s.nextId) with
  | some _ => foldS (fun a t => if s.unperformed a s.nextId then t.setWait a .stores else t) s.agents s
  | none =>
    match copyWants ((s.actingLanes r.x).map (fun p => (p.1, lane p.1 p.2))) with
    | .error (k, c, va) => s.trapAll r.x k c va
    | .ok cs =>
      foldS (fun a t =>
        let m := s.acts a r.x
        let mine := cs.filter (fun p => p.1 == a)
        let full := if r.op = .acp16 then 256 < s.acpsOut a + mine.length else 64 < s.tilesOut a + mine.length
        if full then t.setWait a .entry
        else
          let t := match a with | .slice u i => if m = 0 then t else (t.releaseL1 (s.coreOf a) 2).publishSlice u i | .ctx _ => t
          let t := foldS (fun (p : Issuer × List Copy × List (Option (Nat × Nat))) t =>
            foldS (fun w t => t.awUpdate w (fun x => x.faulted 0x50)) p.2.2 (foldS (fun c t => t.addCopy c) p.2.1 t)) mine t
          t.commit r a m .none (fun _ => {})) s.agents s

/-! ## Copy cells (R306 to R308) -/

/-- The copy and cell with an event number. -/
def State.findCell (s : State) (id : Nat) : Option (Nat × Copy × CopyCell) :=
  s.copies.findSome? (fun p => (p.2.cells.find? (fun c => c.id == id)).map (fun c => (p.1, p.2, c)))

/-- A cell changed, or removed; a copy without cells is done. -/
def State.setCell (s : State) (k id : Nat) (f : CopyCell → Option CopyCell) : State :=
  match mget s.copies k with
  | none => s
  | some c =>
    let cells := c.cells.filterMap (fun x => if x.id = id then f x else some x)
    if cells.isEmpty then { s with copies := mdel s.copies k } else { s with copies := mset s.copies k { c with cells := cells } }

/-- How a copy translates: by a walk, as the engine of its issuer. -/
def Copy.req (c : Copy) : Req :=
  { asid := c.asid, core := c.core, eng := match c.by_ with | .ctx _ => 2 | .slice _ _ => 0, priv := c.priv, slice := match c.by_ with | .slice _ i => i | .ctx _ => 0 }

/-- What a cell's access comes to: bytes may move at a physical address, the cell faults, or it is held. -/
inductive CellTr where
  | ok (pa cache : Nat) (s : State)
  | fault (k : Nat)
  | hold (kind cause : Nat)

/-- Translate a cell's address and compare its stamp (R65, R67, R307). ACP16 compares none. -/
def State.cellTr (s : State) (c : Copy) (x : CopyCell) (va acc : Nat) : CellTr :=
  match x.failed with
  | some (_, cs) => .fault (0x30 + cs)
  | none =>
    match s.translate c.req va acc 0 with
    | .ok pa cache stamp =>
      if c.kind = .acp16 ∨ stamp = 0 ∨ stamp = c.contract then .ok pa cache s
      else if s.masks c.team kCmix then .ok pa cache (s.sticky c.team kCmix)
      else .fault 0x40
    | .fault k cs true => .hold k cs
    | .fault k cs false => .fault (fkindOf k cs * 16 + cs)
    | .miss => .fault 0x12

/-- Every slice of a team takes ECC at its next boundary (R456). -/
def State.eccTeam (s : State) (u cause : Nat) : State :=
  s.modTeam u (fun t => { t with slices := t.slices.map (fun p => (p.1, { p.2 with pend := p.2.pend ++ [{ kind := kEcc, cause := cause }] })) })

/-- COPY_CELL_READ (R306): the bytes are read, and the source-side word counts them. A pod line that the issuer's core still combines
drains first (R286). -/
def State.copyRead (s : State) (id : Nat) : State :=
  match s.findCell id with
  | none => s
  | some (k, c, x) =>
    if x.data.isSome ∨ x.held then s
    else
      let got (s : State) (bs : List Byte) (f : Nat) : State :=
        let s := s.setCell k id (fun x => some { x with data := some bs, fault := f, failed := none })
        let s := if f = 0 then s else s.awUpdate x.saw (fun w => w.faulted f)
        s.awUpdate x.saw (fun w => w.deliver x.n)
      match x.src with
      | .scr u o =>
        if (s.team u).isNone then got s [] 0x50 else if s.scrPoison u o x.n then (got s [] 0x10).eccTeam c.team 2 else got s (s.scrSeen u o x.n) 0
      | .va va =>
        if x.n = 0 then got s [] 0
        else match s.cellTr c x va accRead with
          | .ok pa cache s =>
            let bad := s.engineBad c.core pa cache x.n
            if bad ≠ 0 then (got s [] 0x10).eccTeam c.team bad
            else if 2 ^ 47 ≤ pa then
              if (s.core c.core).wc.any (fun w => w.line == pa / 128) then s.wcDrain c.core (fun w => w.line == pa / 128)
              else if !s.spanOpen c.core pa x.n then s
              else let (bs, s) := s.podRead c.core pa x.n; got s bs 0
            else let (bs, s) := s.engineRead c.core pa cache x.n; got s bs 0
          | .fault f => got s [] f
          | .hold kind cs => (s.setCell k id (fun x => some { x with held := true })).raiseFault c.req va kind cs accRead (.cell k id)

/-- A receiver that a copy cannot reach: it is not resident, or halts, and the copy was issued after the halt (R308). -/
def State.heldBack (s : State) (k u : Nat) : Bool :=
  match s.team u with
  | some t => t.status == .saved || (t.halt.isSome && decide (t.haltAt ≤ k))
  | none => false

/-- A receiver is being restored: a copy waits for its handlers' RETT (R308, R448), unless the handlers themselves issued it. -/
def State.restoresBefore (s : State) (k : Nat) (c : Copy) (u : Nat) : Bool :=
  match s.team u with
  | some t => t.slices.any (fun p => p.2.restoring) && !(decide (t.restoreAt ≤ k) && (match c.by_ with | .slice v _ => v == u | .ctx _ => false))
  | none => false

/-- A cell without further receivers or destination. -/
def State.cellDone (s : State) (k id : Nat) : State := s.setCell k id (fun _ => none)

/-- A receiver is dropped from every cell of a multicast (R305). -/
def State.dropReceiver (s : State) (k u : Nat) : State :=
  { s with copies := mupd s.copies k (fun c => { c with cells := c.cells.map (fun x => { x with dsts := x.dsts.filter (fun d => d.team != u) }) }) }

/-- COPY_CELL_WRITE (R306): the bytes are written at a receiver and counted, or at the home of a TDUMP's destination. -/
def State.copyWrite (s : State) (id : Nat) : State :=
  match s.findCell id with
  | none => s
  | some (k, c, x) =>
    match x.data with
    | none => s
    | some bs =>
      let bs := if x.fault = 0 then bs ++ List.replicate x.zero 0 else []
      match x.dva, x.dsts with
      | some va, _ =>
        if x.written ∨ x.held then s
        else
          let bad (s : State) (f : Nat) : State :=
            ((((if x.fault = 0 then s.awUpdate x.saw (fun w => w.faulted f) else s).awUpdate x.daw (fun w => w.faulted f)).awUpdate x.daw (fun w => w.deliver x.n)).cellDone k id)
          if x.fault ≠ 0 then bad s x.fault
          else match s.cellTr c x va accWrite with
            | .ok pa _ s =>
              if 2 ^ 47 ≤ pa ∧ !s.spanOpen c.core pa bs.length then s
              else
                let s := (if 2 ^ 47 ≤ pa then s.podWrite c.core pa bs else s.engineWrite c.core pa bs).ownWrite c.task (.phys pa 0) bs
                s.setCell k id (fun x => some { x with written := true, failed := none })
            | .fault f => bad s f
            | .hold kind cs => (s.setCell k id (fun x => some { x with held := true })).raiseFault c.req va kind cs accWrite (.cell k id)
      | none, [] => s.cellDone k id
      | none, d :: ds =>
        let away : Bool := s.heldBack k d.team
        if s.restoresBefore k c d.team ∨ (away ∧ c.kind ≠ .multicast) then s
        else if c.kind = .multicast ∧ ((s.team d.team).isNone ∨ away) then
          let s := (s.awUpdate x.saw (fun w => w.faulted 0x50)).dropReceiver k d.team
          if ds.all (fun e => e.team == d.team) then s.cellDone k id else s
        else
          let s :=
            if (s.team d.team).isNone then s
            else
              let s := if bs.isEmpty then s else s.scrWrite d.team d.off bs
              let w := match d.aw with | some o => some (d.team, o) | none => x.daw
              let s := if x.fault = 0 then s else s.awUpdate w (fun y => y.faulted x.fault)
              s.awUpdate w (fun y => y.deliver (x.n + x.zero))
          if ds.isEmpty then s.cellDone k id else s.setCell k id (fun x => some { x with dsts := ds })

/-- COPY_CELL_ACK (R306): the home has the cell's bytes, and the word of the TDUMP counts them. -/
def State.copyAck (s : State) (id : Nat) : State :=
  match s.findCell id with
  | some (k, _, x) => if x.written then (s.awUpdate x.daw (fun w => w.deliver x.n)).cellDone k id else s
  | none => s

/-! ## The meanings -/

def execAcp16 (x : Ext) (s : State) : Host.Outcome State Fault Refusal := issue (.ext .acp16 x) s (bodyCopy (.ext .acp16 x))
def execTcopy (b : Base) (s : State) : Host.Outcome State Fault Refusal := issue (.base .tcopy b) s (bodyCopy (.base .tcopy b))
def execTcopyExt (x : Ext) (s : State) : Host.Outcome State Fault Refusal := issue (.ext .tcopy x) s (bodyCopy (.ext .tcopy x))
def execTdump (b : Base) (s : State) : Host.Outcome State Fault Refusal := issue (.base .tdump b) s (bodyCopy (.base .tdump b))
def execTdumpExt (x : Ext) (s : State) : Host.Outcome State Fault Refusal := issue (.ext .tdump x) s (bodyCopy (.ext .tdump x))
def execAwinit (b : Base) (s : State) : Host.Outcome State Fault Refusal := issue (.base .awinit b) s (bodyAw (.base .awinit b) .none)
def execAwinitExt (x : Ext) (s : State) : Host.Outcome State Fault Refusal := issue (.ext .awinit x) s (bodyAw (.ext .awinit x) .none)
def execAwexp (b : Base) (s : State) : Host.Outcome State Fault Refusal := issue (.base .awexp b) s (bodyAw (.base .awexp b) .reg)
def execAwexpExt (x : Ext) (s : State) : Host.Outcome State Fault Refusal := issue (.ext .awexp x) s (bodyAw (.ext .awexp x) .reg)
def execAwait (b : Base) (s : State) : Host.Outcome State Fault Refusal := issue (.base .await b) s (bodyAw (.base .await b) .reg)
def execAwaitExt (x : Ext) (s : State) : Host.Outcome State Fault Refusal := issue (.ext .await x) s (bodyAw (.ext .await x) .reg)
def execAwtest (b : Base) (s : State) : Host.Outcome State Fault Refusal := issue (.base .awtest b) s (bodyAw (.base .awtest b) .pred)
def execAwtestExt (x : Ext) (s : State) : Host.Outcome State Fault Refusal := issue (.ext .awtest x) s (bodyAw (.ext .awtest x) .pred)

def execCopyCellRead (id : Nat) (s : State) : Host.Outcome State Fault Refusal := .next (s.copyRead id)
def execCopyCellWrite (id : Nat) (s : State) : Host.Outcome State Fault Refusal := .next (s.copyWrite id)
def execCopyCellAck (id : Nat) (s : State) : Host.Outcome State Fault Refusal := .next (s.copyAck id)

end Sys2Proof.Machine
end

