-- ==== Sys2Proof/Machine/Sync.lean ====
section
/-!
DEFINITION. Fences and barriers (chapter 21), the barrier watchdog, and the completion word of `.pod` barriers.
-/
namespace Sys2Proof.Machine

/-! ## FENCE (R374) -/

/-- An acquire by an agent at a scope. A context counts as its paired core (R282), whose L1 its acquire clears too: SEQEND and RDV at `.core`
carry what it has acquired to the core's lanes (R361, R362; R276 names the acquires of slices, log 134). -/
def State.acquireBy (s : State) (a : Issuer) (scope : Nat) : State := s.acquire (s.coreOf a) scope

/-- The kind of a fence: 0 .sc, 1 .acq, 2 .rel, 3 .ar; and .x. -/
def fenceKind (x : Ext) : Nat := bits x.d.toNat 1 0
def fenceX (x : Ext) : Bool := bitAt x.d.toNat 2

/-- A fence of one agent: it waits for what its kind needs, and then acts (R374). -/
def State.fenceOne (s : State) (r : Raw) (a : Issuer) : State :=
  let k := fenceKind r.x
  let scope := scopeOf r.x.scope.toNat
  let rel := k ≠ 1 ∧ scope ≠ 1
  let acq := k ≠ 2 ∧ scope ≠ 1
  let (ok1, s1) := if rel ∨ fenceX r.x then s.release a (if rel then scope else 2) else (true, s)
  if !ok1 then s1.setWait a .fence
  else if acq ∧ s1.readsOut a then s1.setWait a .fence
  else
    let s1 := match a with | .slice u i => if fenceX r.x then s1.publishSlice u i else s1 | .ctx _ => s1
    (if acq then s1.acquireBy a scope else s1).advance a r.len.bytes

/-- FENCE. -/
def bodyFence (r : Raw) (s : State) : State :=
  foldS (fun a t => if s.acts a r.x = 0 then t.advance a r.len.bytes else t.fenceOne r a) s.agents s

/-! ## Barrier objects (R375 to R382) -/

/-- Base `.core`. -/
def barScope (x : Ext) : Nat := if x.scope = 0 then 2 else x.scope.toNat

/-- Path table: pool node n is UP and ATT (R390). -/
def State.nodeAtt (s : State) (n : Nat) : Bool := s.nodeUp n && bitAt (s.ge (0x34000 + 8 * n)) 2
/-- A pool node holds a domain's key: as an input says (R396, R412), else the host complex has delivered it with ATT (R390). -/
def State.nodeHolds (s : State) (n domain : Nat) : Bool := (mget s.nodeKeys (n * 2 ^ 16 + domain)).getD (s.nodeAtt n)
/-- A pool node combines for a domain under a contract (R396, R412). -/
def State.nodeTakes (s : State) (n domain contract : Nat) : Bool := s.nodeHolds n domain && s.nodeClass n contract != 0
/-- The binding's node is UP and ATT. -/
def State.podBound (s : State) (tag : Nat) : Bool :=
  match s.podBinding tag with
  | some i => s.nodeAtt (bits (s.ge (0x3C000 + 16 * i)) 55 50)
  | none => false

/-- A barrier as an instruction of a team names it: phase, arrival present, lanes of the team that have arrived. -/
structure BarView where
  phase : Word
  busy : Bool
  mine : BitVec 1024
  expect : Nat

def State.barView (s : State) (u : Nat) (x : Ext) : BarView :=
  match s.team u with
  | none => { phase := 0, busy := false, mine := 0, expect := 0 }
  | some t =>
    if barScope x = 2 then
      let b := (mget t.bars x.b.toNat).getD {}
      { phase := b.phase, busy := decide (b.count ≠ 0), mine := b.arrived, expect := b.expect }
    else
      let key := t.levelInst (barScope x)
      let l := match s.task t.task with | some k => (mget k.levels key).getD {} | none => {}
      let far : Bool := barScope x == 6 && (match (s.task t.task).bind s.podBind with | some b => (s.podSlot b.node b.slot 0).arrived != 0 | none => false)
      { phase := l.phase, busy := !l.arrived.isEmpty || far, mine := (mget t.lvl key).getD 0, expect := 0 }

/-- The BARX cause of checks 1 and 2 (R373). -/
def State.barCheck (s : State) (u : Nat) (x : Ext) : Option Nat :=
  match s.taskOf u with
  | none => some 1
  | some k =>
    let sc := barScope x
    if sc = 2 then (if k.nbar ≤ x.b.toNat then some 1 else none)
    else if !bitAt k.lvlbar (sc - 3) then some 2
    else none

/-- A wait at a barrier: its scope and index. -/
def Wait.atBar (w : Wait) : Option (Nat × Nat) := match w with | .bar s i => some (s, i) | .barw s i _ => some (s, i) | _ => Option.none

/-- Check 3 of R373 at a slice: the task has no pod binding. A slice that waits at the barrier has issued the instruction. -/
def State.unbound (s : State) (u i : Nat) (x : Ext) : Bool :=
  barScope x == 6 && (s.sl u i).wait.atBar.isNone && (s.sl u i).barTok.isNone && (match s.taskOf u with | some k => !s.podBound k.tag | none => false)

/-- The largest count BARINIT takes (R375, R378). -/
def State.barLimit (s : State) (u : Nat) (x : Ext) : Nat :=
  match s.taskOf u with
  | none => 0
  | some k => match barScope x with
    | 2 => k.lanes
    | 3 => 4
    | 6 => match s.podBinding k.tag with | some i => bits (s.ge (0x3C008 + 16 * i)) 23 0 | none => 0
    | _ => k.nteam

/-- Lanes of a mask arrive at a named barrier one after another (R376). -/
def Bar.arrive (b : Bar) (i : Nat) (m : Mask) (live : BitVec 1024) : Bar :=
  (maskList m).foldl (fun b l => Bar.settle { b with
    arrived := b.arrived ||| laneSet i (BitVec.ofNat 4 (2 ^ l)), count := b.count + 1
    again := if (b.arrived &&& laneSet i (BitVec.ofNat 4 (2 ^ l))) = 0 then b.again else (4 * i + l) :: b.again } live) b

/-- The arrival of a slice's acting lanes at a barrier (R376, R378). -/
def State.barArrive (s : State) (u i : Nat) (m : Mask) (x : Ext) : State :=
  if barScope x = 2 then
    s.modTeam u (fun t => { t with bars := mset t.bars x.b.toNat (((mget t.bars x.b.toNat).getD {}).arrive i m t.liveSet) })
  else
    match s.team u with
    | none => s
    | some t =>
      let key := t.levelInst (barScope x)
      (s.modTeam u (fun t => { t with lvl := mset t.lvl key (((mget t.lvl key).getD 0) ||| laneSet i m) })).levelArrive u key

/-- Trace of a barrier event (R468). -/
def State.barTrace (s : State) (u i kind pc : Nat) (ma mb : Mask) (x : Ext) : State := s.trace u i kind pc ma mb (barScope x) x.b.toNat

/-- Checks 6 and 7 of R373 for a slice: TWICE, PARTIAL. -/
def State.barSliceCheck (s : State) (u i : Nat) (m : Mask) (x : Ext) (partialRule : Bool) : Option Nat :=
  let v := s.barView u x
  let y := s.sl u i
  if v.expect ≠ 0 then none
  else if v.mine &&& laneSet i m ≠ 0 then some 4
  else if partialRule ∧ laneSet i (y.live &&& ~~~m) &&& ~~~v.mine ≠ 0 then some 3
  else none

/-! ## BAR, BARA, BARW, BARINIT -/

/-- A slice leaves a barrier: the acquire, the trace record, and the PC past it. -/
def State.barLeave (s : State) (r : Raw) (u i : Nat) : State :=
  let pc := (s.sl u i).pc
  ((s.acquire (s.coreOf (.slice u i)) (barScope r.x)).barTrace u i 4 pc (s.sl u i).act 0 r.x).advance (.slice u i) r.len.bytes

/-- BAR and BARA with .x publish the slice's writes at the arrival (R366, R377). -/
def State.barPublish (s : State) (u i : Nat) (x : Ext) : State := if bitAt x.imm.toNat 0 then s.publishSlice u i else s

/-- BAR on one slice (R377). -/
def State.barOne (s : State) (r : Raw) (u i : Nat) (m : Mask) : State :=
  let a := Issuer.slice u i
  let x := s.sl u i
  match x.barTok with
  | some tok => if (s.barView u r.x).phase ≠ tok then s.barLeave r u i else s.setWaitAt a (.bar (barScope r.x) r.x.b.toNat) m
  | none =>
    match s.barSliceCheck u i m r.x true with
    | some c => s.trapOne a kBarx c 0 0 m
    | none =>
      let (ok, s) := s.release a (barScope r.x)
      if !ok then s.setWait a .stores
      else
        let v := s.barView u r.x
        let s := (s.barPublish u i r.x).barTrace u i 3 x.pc m (x.live &&& ~~~m) r.x
        let s := s.barArrive u i m r.x
        if (s.barView u r.x).phase ≠ v.phase then s.barLeave r u i
        else s.modSlice u i (fun y => { y with barTok := some v.phase, wait := .bar (barScope r.x) r.x.b.toNat, waitMask := m })

/-- Each slice of the gang. Where no lane acts the instruction only frees the names it marks (R144). -/
def eachSlice (s : State) (r : Raw) (f : Nat → Nat → Mask → State → State) : State :=
  foldS (fun a t =>
    let m := s.acts a r.x
    match a with
    | .slice u i => if m = 0 then t.commit r a 0 .none (fun _ => {}) else f u i m t
    | .ctx _ => t) s.agents s

/-- A task's `.pod` barrier follows its slot to its present phase: PHASE has advanced by the phases that the slot has completed since (R380). -/
def Level.follow (l : Level) (c : PodBind) (phase : Word) : Level :=
  { l with phase := l.phase + (phase - c.phase), seen := some { c with phase := phase } }

/-- A barrier instruction at `.pod` follows the slot that the task's binding names now: the phases that slot completed before are none of
the task's (R380, R381; DEDUCED, log 141). -/
def State.podAlign (s : State) (u : Nat) (x : Ext) : State :=
  match (if barScope x = 6 then s.taskOf u else none) with
  | none => s
  | some k =>
    let l := (mget k.levels (levelKey 6 0)).getD {}
    let l' := match l.seen, s.podNow k with
      | some c, some b =>
        if c.binding = b.binding ∧ c.node = b.node ∧ c.slot = b.slot then l else { l.follow c (s.podSlot c.node c.slot 0).phase with seen := some b }
      | none, some b => { l with seen := some b }
      | _, none => l
    if l' = l then s else s.modTask k.serial (fun k => { k with levels := mset k.levels (levelKey 6 0) l' })

/-- The team of the gang, with checks 1 and 2, which the whole gang takes; then each slice, with check 3 where a lane acts (R373). -/
def State.barGang (s : State) (r : Raw) (f : Nat → Nat → Mask → State → State) : State :=
  let u := match s.cur with | .gang u _ => u | _ => 0
  match s.barCheck u r.x with
  | some c => s.trapAll r.x kBarx c 0
  | none => eachSlice s r (fun u i m t => if t.unbound u i r.x then t.trapOne (.slice u i) kBarx 8 0 0 m else f u i m (t.podAlign u r.x))

/-- BAR. -/
def bodyBar (r : Raw) (s : State) : State := s.barGang r (fun u i m t => t.barOne r u i m)

/-- BARA (R377). -/
def bodyBara (r : Raw) (s : State) : State :=
  s.barGang r (fun u i m t =>
    let a := Issuer.slice u i
    match t.barSliceCheck u i m r.x false with
    | some c => t.trapOne a kBarx c 0 0 m
    | none =>
      if !t.room a r then t.trapOne a kIllegal cRegspace 0 0 m
      else
        let (ok, t) := t.release a (barScope r.x)
        if !ok then t.setWait a .stores
        else
          let v := t.barView u r.x
          let x := t.sl u i
          (((t.barPublish u i r.x).barTrace u i 3 x.pc m (x.live &&& ~~~m) r.x).barArrive u i m r.x).commit r a m .reg (fun _ => { val := v.phase.toNat }))

/-- BARW (R377). -/
def bodyBarw (r : Raw) (s : State) : State :=
  s.barGang r (fun u i m t =>
    let a := Issuer.slice u i
    let ph := (t.barView u r.x).phase
    if (maskList m).all (fun l => s.srcA a r 0 l % 2 ^ 32 != ph.toNat) then
     if t.readsOut a then t.setWait a .stores else
      let pc := (t.sl u i).pc
      let t := (t.acquire (t.coreOf a) (barScope r.x)).barTrace u i 4 pc (t.sl u i).act 0 r.x
      t.commit r a m .none (fun _ => {})
    else t.setWaitAt a (.barw (barScope r.x) r.x.b.toNat ph) m)

/-- BARINIT (R373, R375, R382) of each slice: the count of its acting lane with the highest %lane. -/
def bodyBarinit (r : Raw) (s : State) : State :=
  s.barGang r (fun u i m t =>
    let a := Issuer.slice u i
    let n := s.srcA a r 0 ((maskList m).getLast?.getD 0) % 2 ^ 32
    if (t.barView u r.x).busy then t.trapOne a kBarx 5 0 0 m
    else if t.barLimit u r.x < n then t.trapOne a kBarx 6 0 0 m
    else
      let t :=
        if barScope r.x = 2 then
          t.modTeam u (fun t => { t with bars := mset t.bars r.x.b.toNat { ((mget t.bars r.x.b.toNat).getD {}) with expect := n } })
        else match t.team u with
          | none => t
          | some v =>
            let key := v.levelInst (barScope r.x)
            let t := t.modTask v.task (fun k => { k with levels := mset k.levels key { ((mget k.levels key).getD {}) with expect := n } })
            if barScope r.x = 6 then (match t.task v.task with | some k => t.podSend k u (.init n) | none => t) else t
      t.commit r a m .none (fun _ => {}))

/-! ## The events of barriers (R380, R383) -/

/-- Withdraw the arrivals that the BAR of a slice's lanes made in the open phase (R383). -/
def State.barWithdraw (s : State) (u i scope idx : Nat) (m : Mask) : State :=
  match s.team u with
  | none => s
  | some t =>
    let mine := laneSet i m
    let less (b : Bar) (l : Nat) : Bar :=
      if b.again.contains (4 * i + l) then { b with again := b.again.erase (4 * i + l), count := b.count - 1 }
      else { b with arrived := b.arrived &&& ~~~(laneSet i (BitVec.ofNat 4 (2 ^ l))), count := b.count - 1 }
    if scope = 2 then s.modTeam u (fun t => { t with bars := mupd t.bars idx (fun b => (maskList m).foldl less b) })
    else
      let key := t.levelInst scope
      let s := match s.task t.task with
        | some k => (match mget k.levels key with
          | some l => if scope = 6 ∧ l.arrived.contains u then s.podSend k u (.withdraw (match l.bound with | some b => b.phase | none => 0)) else s
          | none => s)
        | none => s
      let s := s.modTask t.task (fun k => { k with levels := mupd k.levels key (fun l => { l with arrived := l.arrived.filter (· != u) }) })
      s.modTeam u (fun t => { t with lvl := mupd t.lvl key (fun m => m &&& ~~~mine) })

/-- The phase of the barrier at which a slice waits. -/
def State.barPhase (s : State) (u scope idx : Nat) : Word :=
  match s.team u with
  | none => 0
  | some t =>
    if scope = 2 then ((mget t.bars idx).getD {}).phase
    else match (s.task t.task).bind (fun k => mget k.levels (t.levelInst scope)) with | some l => l.phase | none => 0

/-- The phase of the barrier at which a slice waits has changed: its wait is over. -/
def State.barOver (s : State) (u : Nat) (x : Slice) : Bool :=
  match x.wait with
  | .bar sc idx => (match x.barTok with | some tok => s.barPhase u sc idx != tok | none => false)
  | .barw sc idx ph => s.barPhase u sc idx != ph
  | _ => false

/-- BARRIER_WATCHDOG (R383): the count has reached the limit while the phase stays, and the slice traps at its BAR or BARW. -/
def State.barrierWatchdog (s : State) (u i : Nat) : State :=
  let lim := bits (s.ge 0x200C0) 31 0
  match s.slice u i with
  | none => s
  | some x =>
    match x.wait.atBar with
    | none => s
    | some (scope, idx) =>
      if lim = 0 ∨ x.waitCyc < 1024 * lim ∨ s.barOver u x ∨ s.awaits (.slice u i) then s
      else
        let s := if x.barTok.isSome then (s.barWithdraw u i scope idx x.waitMask).modSlice u i (fun y => { y with barTok := none }) else s
        s.takeTrap u i { kind := kBarx, cause := 7, amask := x.waitMask }

/-- What the node's word of a slot's phase makes of a task's `.pod` barrier; none: it tells the task nothing new. -/
def State.podHears (s : State) (binding : Nat) (phase : Word) (k : Task) : Option Level :=
  let l := (mget k.levels (levelKey 6 0)).getD {}
  match l.seen with
  | some c =>
    if c.binding = binding ∧ (s.podSlot c.node c.slot 0).phase = phase ∧ c.phase ≠ phase then
      some (match l.bound with
        | some b => if b.phase = phase then l.follow c phase else { l.follow c phase with arrived := [], bound := none }
        | none => { l.follow c phase with arrived := [] })
    else none
  | none => none

/-- POD_BARRIER_COMPLETE (R380): the node's word of a slot's new phase reaches the package, and every task that follows the slot here. A
phase that the slot has not come to brings nothing. -/
def State.podBarrierComplete (s : State) (binding : Nat) (phase : Word) : State :=
  let key := levelKey 6 0
  let ids := (s.tasks.filter (fun p => match s.podHears binding phase p.2 with | some l => l.bound.isNone | none => false)).map (·.1)
  { s with
    tasks := s.tasks.map (fun p => match s.podHears binding phase p.2 with | some l => (p.1, { p.2 with levels := mset p.2.levels key l }) | none => p)
    teams := s.teams.map (fun p => if ids.contains p.2.task then (p.1, { p.2 with lvl := mdel p.2.lvl key }) else p) }

/-! ## The meanings -/

def execFence (b : Base) (s : State) : Host.Outcome State Fault Refusal := issue (.base .fence b) s (bodyFence (.base .fence b))
def execFenceExt (x : Ext) (s : State) : Host.Outcome State Fault Refusal := issue (.ext .fence x) s (bodyFence (.ext .fence x))
def execBar (b : Base) (s : State) : Host.Outcome State Fault Refusal := issue (.base .bar b) s (bodyBar (.base .bar b))
def execBarExt (x : Ext) (s : State) : Host.Outcome State Fault Refusal := issue (.ext .bar x) s (bodyBar (.ext .bar x))
def execBara (b : Base) (s : State) : Host.Outcome State Fault Refusal := issue (.base .bara b) s (bodyBara (.base .bara b))
def execBaraExt (x : Ext) (s : State) : Host.Outcome State Fault Refusal := issue (.ext .bara x) s (bodyBara (.ext .bara x))
def execBarw (b : Base) (s : State) : Host.Outcome State Fault Refusal := issue (.base .barw b) s (bodyBarw (.base .barw b))
def execBarwExt (x : Ext) (s : State) : Host.Outcome State Fault Refusal := issue (.ext .barw x) s (bodyBarw (.ext .barw x))
def execBarinit (b : Base) (s : State) : Host.Outcome State Fault Refusal := issue (.base .barinit b) s (bodyBarinit (.base .barinit b))
def execBarinitExt (x : Ext) (s : State) : Host.Outcome State Fault Refusal := issue (.ext .barinit x) s (bodyBarinit (.ext .barinit x))

def execBarrierWatchdog (team slice : Nat) (s : State) : Host.Outcome State Fault Refusal := .next (s.barrierWatchdog team slice)
def execPodBarrierComplete (binding : Nat) (phase : Word) (s : State) : Host.Outcome State Fault Refusal := .next (s.podBarrierComplete binding phase)

end Sys2Proof.Machine
end

