-- ==== Sys2Proof/Machine/Matrix.lean ====
section
/-!
DEFINITION. Matrix and sequencer instructions (chapters 17 and 18): FORK, RDV, SEQEND, the matrix group, and the events
MATRIX_OP_COMPLETE, TILE_TRANSFER_COMPLETE and SELF_TEST.
-/
namespace Sys2Proof.Machine

/-! ## FORK, RDV, SEQEND (R328 to R330) -/

/-- The context of an agent's core that a fork code names: 0 the MSQ, 1 the CSQ. -/
def State.pairedCtx (s : State) (a : Issuer) (csq : Bool) : Nat := ctxKey (s.coreOf a) (!csq)

/-- A slice of another team, or an older slice of this one, waits to fork a context before this slice (R25, R317). -/
def State.forkBehind (s : State) (u i key : Nat) : Bool :=
  let age := match s.team u with | some t => t.age | none => 0
  s.teams.any (fun p => p.2.slices.any (fun q => q.2.wait == .fork key && (decide (p.2.age < age) || (p.1 == u && decide (q.1 < i)))))

/-- The state that FORK gives a context (R317, R328). -/
def Ctx.started (x : Ctx) (matrix : Bool) (u contract pc : Nat) (seed : DWord) (regs : Map DWord) : Ctx :=
  let kept := x.owner == some u
  { holder := some u, owner := some u, run := .running, pc := pc, regs := regs, contract := contract, seed := seed,
    opseq := if kept && matrix then x.opseq else 0, tiles := if kept then x.tiles else [], accs := if kept then x.accs else [],
    codebook := if kept then x.codebook else 0, ops := x.ops, pend := x.pend.filter (·.kind == kMxf) }

/-- FORK on one slice. It stays the first of those that wait for the context until its release has completed (R317). -/
def State.forkOne (s : State) (r : Raw) (u i : Nat) (m : Mask) : State :=
  let a := Issuer.slice u i
  let key := s.pairedCtx a (flag0 r)
  let x := s.ctx key
  if x.holder = some u then s.trapOne a kIllegal cForkheld 0 0 m
  else if x.holder.isSome ∨ s.forkBehind u i key then s.setWait a (.fork key)
  else
    let (ok, s) := s.release a 2
    if !ok then s.setWait a (.fork key)
    else
      let l := lowest m
      let off := sintOf 32 (s.srcA a r 0 l)
      let regs : Map DWord := (List.range 8).map (fun j => (j, BitVec.ofNat 64 (s.readK a true (2 * j)))) ++ [(8, BitVec.ofNat 64 (s.special a l 3))]
      let seed := (s.sl u i).seed.get l
      ((s.publishSlice u i).setCtx key { x.started (!flag0 r) u (s.special a l 0x0C) (target (s.pcOf a) off) seed regs with readySince := (s.die (s.coreOf a).die).open_ }).commit r a m .none (fun _ => {})

/-- FORK: each slice on its own, in ascending %slice order. -/
def bodyFork (r : Raw) (s : State) : State := eachSlice s r (fun u i m t => t.forkOne r u i m)

/-- The contexts an RDV names. -/
def State.rdvKeys (s : State) (r : Raw) (a : Issuer) : List Nat :=
  (if bitAt r.x.scope.toNat 0 then [s.pairedCtx a false] else []) ++ (if bitAt r.x.scope.toNat 1 then [s.pairedCtx a true] else [])

/-- A context has executed SEQEND, or counts as having (R329). -/
def Ctx.isOver (x : Ctx) : Bool := x.run == .ended || x.run == .stopped

/-- RDV on one slice (R330). -/
def State.rdvOne (s : State) (r : Raw) (u i : Nat) (m : Mask) : State :=
  let a := Issuer.slice u i
  let held := (s.rdvKeys r a).filter (fun k => (s.ctx k).holder == some u)
  if !s.room a r then s.trapOne a kIllegal cRegspace 0 0 m
  else if held.any (fun k => !(s.ctx k).isOver) then s.setWait a .rdv
  else if !held.isEmpty ∧ s.readsOut a then s.setWait a .stores
  else
    let code (k : Nat) : Nat := if held.contains k then (s.ctx k).exit % 2 ^ 16 else 0
    let fl := held.foldl (fun (f : Word) k => f ||| (s.ctx k).fstk) 0
    let val := code (s.pairedCtx a true) * 2 ^ 16 + code (s.pairedCtx a false)
    let s := foldS (fun k s => s.modCtx k (fun x => { x with holder := none, run := .idle })) held s
    let s := s.modSlice u i (fun x => { x with fstk := x.fstk.upd m (fun l => x.fstk.get l ||| fl) })
    s.commit r a m .reg (fun _ => { val := val })

/-- RDV: it acts whether or not a lane acts. -/
def bodyRdv (r : Raw) (s : State) : State :=
  foldS (fun a t => match a with | .slice u i => t.rdvOne r u i (s.acts a r.x) | .ctx _ => t) s.agents s

/-- SEQEND (R329). -/
def bodySeqend (r : Raw) (s : State) : State :=
  foldS (fun a t => match a with
    | .ctx k => if s.acts a r.x = 0 then t.advance a r.len.bytes else t.seqEnd k r.len.bytes
    | .slice _ _ => t) s.agents s

/-! ## Tile configs and tiles (R318, R319) -/

def cfgFmt (c : Nat) : Nat := bits c 4 0
def cfgRows (c : Nat) : Nat := bits c 11 5 + 1
def cfgCols (c : Nat) : Nat := bits c 19 12 + 1
def cfgCol (c : Nat) : Bool := bitAt c 20

/-- A nonzero config that TCFG accepts (R319, R333). -/
def cfgValid (c : Nat) : Bool :=
  match matFmt (cfgFmt c) with
  | none => false
  | some f =>
    decide (c < 2 ^ 21) && decide (cfgRows c * cfgCols c * f.tileBits ≤ 131072) &&
      (match f.block with | some (b, _) => cfgCols c % b == 0 | none => true) && (f.w != 4 || cfgCols c % 2 == 0) &&
      ((f.w != 6 && f.w != 2) || cfgCols c % 4 == 0) && (!cfgCol c || (decide (8 ≤ f.w) && f.block.isNone))

def Ctx.tile (x : Ctx) (t : Nat) : Tile := (mget x.tiles t).getD {}
/-- The outlier entries in force (R225). -/
def Tile.entries (t : Tile) : List Word := (List.range t.count).map (fun i => (t.outliers >>> (32 * i)).setWidth 32)
def Ctx.acc (x : Ctx) (a : Nat) : Acc := (mget x.accs a).getD {}
def Ctx.setTile (x : Ctx) (t : Nat) (v : Tile) : Ctx := { x with tiles := mset x.tiles t v }
def Ctx.setAcc (x : Ctx) (a : Nat) (v : Acc) : Ctx := { x with accs := mset x.accs a v }

/-- Row r of a tile's bits. -/
def Tile.row (t : Tile) (w cols r : Nat) : Nat := (t.bits.toNat >>> (r * cols * w)) % 2 ^ (cols * w)

/-- A scale of a tile by its place in the row-order sequence. -/
def Tile.scale (t : Tile) (f : ScaleFmt) (j : Nat) : Num := f.decode ((t.scales.toNat >>> (f.w * j)) % 2 ^ f.w)

/-- A value with the format its input flush uses, and the flags it has set (Dec of R336). -/
structure Val where
  v : Num
  xf : Option Fmt := none
  fl : Flags := 0
deriving DecidableEq, Repr

/-- The values of a row of a tile: elements by R217 and R220, scaled elements by R223, weights by R224. -/
def Ctx.rowVals (x : Ctx) (c : Contract) (t : Tile) (f : MatFmt) (cols r : Nat) : List Val :=
  let row := t.row f.tileBits cols r
  (List.range cols).map (fun k =>
    match f.block with
    | none => { v := f.elem.decode (elemOf f.w row k), xf := f.elem.fmt? }
    | some (b, sf) =>
      let sc := t.scale sf (r * (cols / b) + k / b)
      match f.elem with
      | .vq =>
        let i := elemOf 16 row (k / 8)
        { v := (scaleProduct (vqWeight ((x.codebook.toNat >>> (32 * (i % 256))) % 2 ^ 32) i (k % 8)) sc).1 }
      | e => let (v, _, fl) := decodeScaled c e (e.decode (elemOf f.w row k)) sc; { v := v, fl := fl })

/-- The values of a configured tile, row by row. -/
def Ctx.tileVals (x : Ctx) (c : Contract) (t : Nat) : List (List Val) :=
  let y := x.tile t
  let g := y.cfg.toNat
  match matFmt (cfgFmt g) with
  | none => []
  | some f => (List.range (cfgRows g)).map (x.rowVals c y f (cfgCols g))

/-! ## Accumulators (R320, R321, R335) -/

def shapeRows (w : Nat) : Nat := bits w 6 0 + 1
def shapeCols (w : Nat) : Nat := bits w 14 8 + 1
def shapeKind (w : Nat) : Nat := bits w 17 16
/-- Cell bytes of a kind: FP32, FP40, EXACT, FP64. -/
def cellBytes (k : Nat) : Nat := match k with | 0 => 4 | 2 => 128 | _ => 8
/-- A shape word that R335 accepts. -/
def shapeValid (w : Nat) : Bool :=
  decide (w < 2 ^ 18) && !bitAt w 15 && !bitAt w 7 && decide (shapeRows w * shapeCols w * cellBytes (shapeKind w) ≤ 65536)

/-- An EXACT cell's value (R321). -/
def exactDecode (v : Nat) : Num :=
  let spec := v / 2 ^ 992 % 2 ^ 32
  if spec = 0x80000000 then .zero true
  else if spec ≠ 0 then fp32.decode spec
  else
    let n := sintOf 992 v
    .fin (decide (n < 0)) n.natAbs (-320)

/-- An EXACT cell of a value, and OF where it is stored as an infinity (R321). -/
def exactEncode (x : Num) : Nat × Flags :=
  match x with
  | .nan _ _ _ _ => (fp32.encode (nanTo fp32 x).1 * 2 ^ 992, .none)
  | .inf _ => (fp32.encode x * 2 ^ 992, .none)
  | .fin n 0 _ => (if n then 0x80000000 * 2 ^ 992 else 0, .none)
  | .fin n m e =>
    if 671 ≤ e + (Nat.log2 m : Int) then (fp32.encode (.inf n) * 2 ^ 992, .ov)
    else
      let k := e + 320
      let a : Nat := if k < 0 then m >>> (-k).toNat else m <<< k.toNat
      (wrapTo 992 (if n then -(a : Int) else (a : Int)), .none)

/-- The float format of a cell kind. -/
def cellFmt (k : Nat) : Fmt := match k with | 0 => fp32 | 1 => fp40 | _ => fp64
/-- The value of a cell, and the bits of a value. -/
def cellDecode (k v : Nat) : Num := if k = 2 then exactDecode v else (cellFmt k).decode v
def cellEncode (k : Nat) (x : Num) : Nat × Flags := if k = 2 then exactEncode x else ((cellFmt k).encode x, .none)
/-- The destination of a sum (R320). -/
def cellDst (k : Nat) : SumDst := if k = 2 then .exact else .fmt (cellFmt k)

/-- Cell n of an accumulator of a kind. -/
def Acc.cell (a : Acc) (k n : Nat) : Nat := (a.cells.toNat >>> (8 * cellBytes k * n)) % 2 ^ (8 * cellBytes k)
/-- Accumulator bits from its cells in order. -/
def packCells (k : Nat) (cs : List Nat) : BitVec 524288 := BitVec.ofNat 524288 (packElems (8 * cellBytes k) cs)

/-- The cell kind of an operation (R320). -/
def opKind (c : Contract) (is64 : Bool) : Nat :=
  if is64 then 3 else match c.accw with | .fp26 => 0 | .fp32 => 0 | .fp40 => 1 | .exact => 2

/-! ## Tile multiplication (R336, R338, R340) -/

/-- The draw of a cell (R232, R340). -/
def State.matrixDraw (s : State) (k row col : Nat) : Nat :=
  let x := s.ctx k
  let a := Issuer.ctx k
  let n := x.opseq.toNat % 2 ^ 50 * 2 ^ 14 + row % 128 * 128 + col % 128
  srDraw (s.contractOf a).srv x.seed (BitVec.ofNat 64 (s.special a 0 5)) (BitVec.ofNat 64 (2 ^ 63 + s.special a 0 3 * 1024)) (BitVec.ofNat 64 n)

/-- The outlier group of a column (R338). -/
def outlierTerms (es : List Word) (row : List Val) (kk j : Nat) : List Term :=
  es.filterMap (fun e =>
    let kidx := bits e.toNat 31 24
    if kidx < kk ∧ bits e.toNat 23 16 = j then
      some { x := (row.getD kidx { v := .zero false }).v, xf := (row.getD kidx { v := .zero false }).xf,
             y := some (fp16.decode (e.toNat % 2 ^ 16)), yf := some fp16 }
    else none)

/-- The operands of an operation: the rows of A, the columns that they meet, and how many there are. -/
structure MatOps where
  rows : List (List Val)
  cols : List (List Val)
  fl : Flags
deriving DecidableEq, Repr

/-- The operands of MMA, or of MMAV and OLAPPLY, whose B is stored by columns (R336). -/
def Ctx.matOps (x : Ctx) (c : Contract) (op : Op) (ta tb : Nat) : MatOps :=
  let gb := (x.tile tb).cfg.toNat
  let av := x.tileVals c ta
  let bv := x.tileVals c tb
  let column (j : Nat) : List Val := if op = .mma then bv.map (fun row => row.getD j { v := .zero false }) else bv.getD j []
  { rows := av, cols := (List.range (if op = .mma then cfgCols gb else cfgRows gb)).map column, fl := Sys2Proof.Machine.orFlags ((av.flatten ++ bv.flatten).map (·.fl)) }

/-- The terms of a cell in k order. -/
def MatOps.terms (o : MatOps) (i j : Nat) : List Term :=
  ((o.rows.getD i []).zip (o.cols.getD j [])).map (fun p => { x := p.1.v, xf := p.1.xf, y := some p.2.v, yf := p.2.xf })

/-- Where the sum of a cell of a restored operation stands (R349). -/
def Ctx.cellPart (x : Ctx) (kind cell n : Nat) : SumPart :=
  match x.part with
  | some (g, es) => SumPart.ofImage g (cellDecode kind cell) (es.getD n 0)
  | none => { groups := 0, total := cellDecode kind cell }

/-- The cells of an operation, in order, with its flags. One that was interrupted goes on from where it stood (R349). -/
def State.matMul (s : State) (k : Nat) (op : Op) (d ta tb rm : Nat) : List Nat × Flags :=
  let x := s.ctx k
  let c := s.contractOf (.ctx k)
  let fm := Contract.mode c rm
  let acc := x.acc d
  let shape := (acc.shape.getD 0).toNat
  let kind := shapeKind shape
  let is64 := cfgFmt (x.tile ta).cfg.toNat == 1
  let kk := cfgCols (x.tile ta).cfg.toNat
  let o := x.matOps c op ta tb
  let n := o.cols.length
  let ol := if op = .olapply then (x.tile tb).entries else []
  let skip := ol.any (fun e => decide (kk ≤ bits e.toNat 31 24) || decide (n ≤ bits e.toNat 23 16))
  let cell (i j : Nat) : Nat × Flags :=
    let draw := if fm = .sr then s.matrixDraw k i j else 0
    let old := acc.cell kind (i * n + j)
    let (v, f) := if x.part.isSome then contractRest c (x.cellPart kind old (i * n + j)) (o.terms i j) is64 (cellDst kind) fm draw
      else contractSum c (cellDecode kind old) (o.terms i j) (outlierTerms ol (o.rows.getD i []) kk j) is64 (cellDst kind) fm draw
    let (b, g) := cellEncode kind v
    (b, f ||| g)
  let out := (List.range (shapeRows shape)).flatMap (fun i => (List.range n).map (cell i))
  (out.map (·.1), Sys2Proof.Machine.orFlags (out.map (·.2)) ||| o.fl ||| Flags.when skip .nv)

/-- MATRIX_OP_COMPLETE (R340): the cells, the flags, opseq, and the count towards MXF. An MMAV on a VQ2-64X tile leaves its
sum open (R338). DESIGN CHOICE (log 131): an operation in the mode SR raises opseq whether or not a cell of it was rounded (R232). -/
def State.matrixComplete (s : State) (c : CoreId) : State :=
  let k := ctxKey c true
  match (s.ctx k).flight with
  | some (.op op d ta tb rm) =>
    let x := s.ctx k
    if op = .mmav ∧ cfgFmt (x.tile tb).cfg.toNat = 0x1A then
      s.modCtx k (fun x => { x with flight := none, opened := some (d, ta, tb, rm), ops := x.ops + 1 })
    else
      let (cs, fl) := s.matMul k op d ta tb rm
      let shape := (x.acc d).shape
      let sr := Contract.mode (s.contractOf (.ctx k)) rm = .sr
      s.modCtx k (fun x =>
        { x.setAcc d { cells := packCells (shapeKind (shape.getD 0).toNat) cs, shape := shape } with
          flight := none, opened := none, part := none, ops := x.ops + 1, fstk := x.fstk ||| fl.setWidth 32, opseq := if sr then x.opseq + 1 else x.opseq })
  | _ => s

/-- A matrix instruction of the context: nothing when its lane does not act, and a wait while something is in flight
(R347). -/
def mx (r : Raw) (s : State) (f : Nat → State → State) : State :=
  foldS (fun a t => match a with
    | .ctx k => if s.acts a r.x = 0 then t.advance a r.len.bytes else if (s.ctx k).flight.isSome then t.setWait a .stores else f k t
    | .slice _ _ => t) s.agents s

/-- A context's instruction takes ILLEGAL with a cause (R332). -/
def State.mxIll (s : State) (k cause : Nat) : State := s.trapOne (.ctx k) kIllegal cause 0 0 1

/-- The check of R336 and R338 on an operation: a trap kind and cause. A config with a code that names no format of R216 pairs with none. -/
def State.matCheck (s : State) (k : Nat) (op : Op) (d ta tb : Nat) : Option (Nat × Nat) :=
  let x := s.ctx k
  let ga := (x.tile ta).cfg.toNat
  let gb := (x.tile tb).cfg.toNat
  let c := s.contractOf (.ctx k)
  let shape := (x.acc d).shape
  let m := cfgRows ga
  let n := if op = .mma then cfgCols gb else cfgRows gb
  let kb := if op = .mma then cfgRows gb else cfgCols gb
  let vqA := cfgFmt ga = 0x19 ∨ cfgFmt ga = 0x1A
  let vqB := cfgFmt gb = 0x19 ∨ cfgFmt gb = 0x1A
  let q := s.quad (ctxCore k)
  if cfgFmt ga = 0 ∨ cfgFmt gb = 0 ∨ kb ≠ cfgCols ga then some (kIllegal, cShape)
  else if (match shape with | some w => decide (shapeRows w.toNat ≠ m ∨ shapeCols w.toNat ≠ n) | none => false) then some (kIllegal, cShape)
  else if (matFmt (cfgFmt ga)).isNone ∨ (matFmt (cfgFmt gb)).isNone then some (kIllegal, cFormat)
  else if (if op = .mma then vqA ∨ vqB ∨ (cfgFmt ga = 1) ≠ (cfgFmt gb = 1) else if op = .mmav then !vqB ∨ vqA ∨ cfgFmt ga = 1 else cfgFmt gb ≠ 0x1A ∨ vqA ∨ cfgFmt ga = 1) then
    some (kIllegal, cFormat)
  else if (match shape with | some w => decide (shapeKind w.toNat ≠ opKind c (cfgFmt ga == 1)) | none => true) then some (kIllegal, cAcckind)
  else if matrixClass q (s.ctx k).contract = 0 ∨ (op = .olapply ∧ q.olf) then some (kCapx, 0)
  else none

/-- MMA, MMAV and OLAPPLY issue (R336, R338): the operation enters the array and counts towards the self-test (R324). -/
def bodyMat (r : Raw) (s : State) : State :=
  mx r s (fun k s =>
    if r.op = .olapply ∧ (s.ctx k).opened.isNone then s.mxIll k cOpensum
    else
      match s.matCheck k r.op r.x.d.toNat r.x.a.toNat r.x.b.toNat with
      | some (kind, cause) => s.trapOne (.ctx k) kind cause 0 0 1
      | none =>
        ((s.modCtx k (fun x => { x with flight := some (.op r.op r.x.d.toNat r.x.a.toNat r.x.b.toNat r.x.rm.toNat) })).modQuad (ctxCore k)
          (fun q => { q with since := q.since + 1 })).advance (.ctx k) r.len.bytes)

/-! ## TCFG, TZERO, APROM, AOUT (R333, R335, R341, R342) -/

/-- TCFG. -/
def bodyTcfg (r : Raw) (s : State) : State :=
  mx r s (fun k s =>
    let v := s.srcA (.ctx k) r 0 0 % 2 ^ 32
    let vq := cfgFmt v = 0x19 ∨ cfgFmt v = 0x1A
    if v ≠ 0 ∧ (!cfgValid v ∨ (vq ∧ !s.feature 4)) then s.mxIll k cShape
    else
      (s.modCtx k (fun x => x.setTile r.x.d.toNat { x.tile r.x.d.toNat with cfg := BitVec.ofNat 32 v })).advance (.ctx k) r.len.bytes)

/-- TZERO of a tile: its bits, its scale store and its outlier count; the config and the outlier store stay (R335). -/
def bodyTzero (r : Raw) (s : State) : State :=
  mx r s (fun k s => (s.modCtx k (fun x => x.setTile r.x.d.toNat { x.tile r.x.d.toNat with bits := 0, scales := 0, count := 0 })).advance (.ctx k) r.len.bytes)

/-- TZERO.a. -/
def bodyTzeroA (r : Raw) (s : State) : State :=
  mx r s (fun k s =>
    let v := s.srcA (.ctx k) r 0 0 % 2 ^ 32
    if !shapeValid v then s.mxIll k cShape
    else (s.modCtx k (fun x => x.setAcc r.x.d.toNat { cells := 0, shape := some (BitVec.ofNat 32 v) })).advance (.ctx k) r.len.bytes)

/-- APROM. -/
def bodyAprom (r : Raw) (s : State) : State :=
  mx r s (fun k s =>
    let acc := (s.ctx k).acc r.x.d.toNat
    let kind := bits r.x.scope.toNat 1 0
    match acc.shape with
    | none => s.mxIll k cAcckind
    | some w =>
      let w := w.toNat
      let from_ := shapeKind w
      if !((from_ = 0 ∧ kind ≠ 0) ∨ (from_ = 1 ∧ 2 ≤ kind)) then s.mxIll k cAcckind
      else if 65536 < shapeRows w * shapeCols w * cellBytes kind then s.mxIll k cShape
      else
        let one (n : Nat) : Nat := let v := cellDecode from_ (acc.cell from_ n); (cellEncode kind (if v.isNaN ∧ kind = 3 then (nanTo fp64 v).1 else v)).1
        let cells := packCells kind ((List.range (shapeRows w * shapeCols w)).map one)
        (s.modCtx k (fun x => x.setAcc r.x.d.toNat { cells := cells, shape := some (BitVec.ofNat 32 (setBits w 17 16 kind)) })).advance (.ctx k) r.len.bytes)

/-- One element of AOUT: bits and flags. -/
def aoutElem (c : Contract) (e : ElemFmt) (v : Num) (fm : RMode) (draw : Nat) : Nat × Flags :=
  match e with
  | .flt f =>
    if v.isNaN then
      if c.nan then (let (x, fl) := nanTo f v; (f.encode x, fl)) else (f.encode f.canonNaN, f.canonFlags)
    else
      let (x, f1) := roundTo f v fm draw
      let (y, f2) := if c.subnRes then flushSub f x else (x, .none)
      (f.encode y, f1 ||| f2)
  | .int t => let (i, fl) := roundInt t v fm draw; (wrapTo t.w i, fl)
  | _ => (0, .none)

/-- AOUT. -/
def bodyAout (r : Raw) (s : State) : State :=
  mx r s (fun k s =>
    let x := s.ctx k
    let t := r.x.d.toNat
    let g := (x.tile t).cfg.toNat
    let acc := x.acc r.x.a.toNat
    let row0 := s.srcB (.ctx k) r 0 0 % 128
    match matFmt (cfgFmt g), acc.shape with
    | none, _ => s.mxIll k cFormat
    | some f, sh =>
      if 0x10 < cfgFmt g then s.mxIll k cFormat
      else match sh with
        | none => s.mxIll k cAcckind
        | some w =>
          let w := w.toNat
          let kind := shapeKind w
          let cols := cfgCols g
          let rows := cfgRows g
          if cols ≠ shapeCols w ∨ shapeRows w < row0 + rows then s.mxIll k cShape
          else
            let c := s.contractOf (.ctx k)
            let fm := Contract.mode c r.x.rm.toNat
            let es := (List.range (rows * cols)).map (fun n =>
              let i := row0 + n / cols
              let j := n % cols
              aoutElem c f.elem (cellDecode kind (acc.cell kind (i * cols + j))) fm (if fm = .sr then s.matrixDraw k i j else 0))
            let len := rows * cols * f.w
            let old := (x.tile t).bits.toNat
            let new := BitVec.ofNat 131072 (old / 2 ^ len * 2 ^ len + packElems f.w (es.map (·.1)))
            (s.modCtx k (fun x =>
              { x.setTile t { x.tile t with bits := new } with
                fstk := x.fstk ||| (orFlags (es.map (·.2))).setWidth 32, opseq := if fm = .sr then x.opseq + 1 else x.opseq })).advance (.ctx k) r.len.bytes)

/-! ## Memory of the matrix group (R334, R339, R343 to R345) -/

/-- The pieces of n bytes within pages. -/
def pagePieces : Nat → Nat → Nat → List (Nat × Nat)
  | 0, _, _ => []
  | fuel + 1, a, n =>
    if n = 0 then [] else
      let k := min n (4096 - a % 4096)
      (a, k) :: pagePieces fuel (a + k) (n - k)

/-- What a segment's checks and translations give. -/
inductive SegTr where
  | ok (p : Place) (n : Nat) (cmix : Bool)
  | miss (va : Nat)
  | hold (va kind cause : Nat)
  | bad (kind cause va : Nat)
deriving DecidableEq, Repr

/-- The window checks of a segment (R334): its pieces, or a trap. -/
def State.segWindow (s : State) (k va n : Nat) : Except (Nat × Nat × Nat) (List (Sum Place Nat × Nat)) :=
  let va := va % 2 ^ 64
  if n = 0 then .ok []
  else if va + n ≤ 0x180 * 2 ^ 48 then .ok ((pagePieces (n / 4096 + 2) va n).map (fun p => (.inr p.1, p.2)))
  else if va / 2 ^ 48 = 0x1FC ∧ (va + n - 1) / 2 ^ 48 = 0x1FC then
    match s.resScr (s.teamOf (.ctx k)) (va % 2 ^ 48) n with
    | .scr u o => .ok [(.inl (.scr u o), n)]
    | .trap kind c => .error (kind, c, va)
    | _ => .error (kProt, 8, va)
  else .error (kProt, 8, va)

/-- Translate a piece (R65, R117, R334). -/
def State.segTr (s : State) (k acc : Nat) (stamps : Bool) (p : Sum Place Nat × Nat) : SegTr :=
  match p.1 with
  | .inl (.scr u o) => if acc ≠ accWrite ∧ s.scrPoison u o p.2 then .bad kEcc 2 0 else .ok (.scr u o) p.2 false
  | .inl pl => .ok pl p.2 false
  | .inr va =>
    match s.translate (s.req (.ctx k)) va acc 0 with
    | .ok pa cache stamp =>
      let bad := s.engineBad (ctxCore k) pa cache p.2
      if acc ≠ accWrite ∧ bad ≠ 0 then .bad kEcc bad va
      else .ok (.phys pa cache) p.2 (stamps && stamp != 0 && stamp != (s.ctx k).contract)
    | .miss => .miss va
    | .fault kind c true => .hold va kind c
    | .fault kind c false => .bad kind c va

/-- Every segment's window checks. -/
def segWindows (f : Nat → Nat → Except (Nat × Nat × Nat) (List (Sum Place Nat × Nat))) :
    List (Nat × Nat) → Except (Nat × Nat × Nat) (List (List (Sum Place Nat × Nat)))
  | [] => .ok []
  | (a, n) :: r => match f a n, segWindows f r with | .ok l, .ok ls => .ok (l :: ls) | .error e, _ => .error e | _, .error e => .error e

/-- CMIX of a context (R67): masked, the sticky bit and the effect; otherwise the trap. -/
def State.cmixOr (s : State) (k : Nat) (x : Ext) (mixed : Bool) (f : State → State) : State :=
  let u := s.teamOf (.ctx k)
  if !mixed then f s
  else if s.masks u kCmix then f (s.sticky u kCmix)
  else s.trapAll x kCmix 0 0

/-- A precise access of a matrix instruction: f has the places of each segment once all have translated. -/
def State.mxAccess (s : State) (r : Raw) (k acc : Nat) (stamps : Bool) (segs : List (Nat × Nat)) (f : List (List (Place × Nat)) → State → State) : State :=
  let a := Issuer.ctx k
  if s.unperformed a s.nextId then s.setWait a .stores
  else match segWindows (s.segWindow k) segs with
    | .error (kind, c, va) => s.trapAll r.x kind c va
    | .ok ws =>
      let ts := ws.map (fun l => l.map (s.segTr k acc stamps))
      let all := ts.flatten
      match all.findSome? (fun t => match t with | .bad kind c va => some (kind, c, va) | _ => none) with
      | some (kind, c, va) => s.trapAll r.x kind c va
      | none =>
        match all.filterMap (fun t => match t with | .miss va => some (a, va) | _ => none) with
        | m :: ms => s.waitWalks (m :: ms)
        | [] =>
          match all.filterMap (fun t => match t with | .hold va kind c => some (a, va, kind, c) | _ => none) with
          | h :: hs => s.holdAgents acc (h :: hs)
          | [] =>
            let mixed := all.any (fun t => match t with | .ok _ _ b => b | _ => false)
            s.cmixOr k r.x mixed (f (ts.map (fun l => l.filterMap (fun t => match t with | .ok p n _ => some (p, n) | _ => none))))

/-- A transfer enters flight and the context goes on. -/
def State.mxStart (s : State) (r : Raw) (k : Nat) (f : Flight) : State :=
  (s.modCtx k (fun x => { x with flight := some f })).advance (.ctx k) r.len.bytes

/-- Scale bytes of a config (R334). -/
def scaleBytes (g : Nat) (f : MatFmt) : Nat := match f.block with | some (b, sf) => cfgRows g * (cfgCols g / b) * (sf.w / 8) | none => 0
/-- Stored lines of a config and the bytes of each: rows, or columns under LAYOUT 1. -/
def tileLines (g : Nat) (f : MatFmt) : Nat × Nat :=
  if cfgCol g then (cfgCols g, (cfgRows g * f.tileBits + 7) / 8) else (cfgRows g, (cfgCols g * f.tileBits + 7) / 8)

/-- TLD and TST (R334). -/
def bodyTile (r : Raw) (s : State) : State :=
  mx r s (fun k s =>
    let a := Issuer.ctx k
    let st := r.op == .tst
    let t := r.x.d.toNat
    let g := ((s.ctx k).tile t).cfg.toNat
    let count := if st then 0 else r.x.imm.toNat
    let pitch := s.srcB a r 0 0
    let base := s.srcA a r 0 0
    let cadr := s.readV a true r.x.c.toNat 0
    match matFmt (cfgFmt g) with
    | none => s.mxIll k cShape
    | some f =>
      let (lines, len) := tileLines g f
      if (!st && (bitAt r.x.scope.toNat 0 != cfgCol g)) || (count != 0 && cfgFmt g != 0x1A) || (r.x.c != 0 && f.block.isNone) ||
          (st && decide (1 < lines) && decide (pitch < len)) then s.mxIll k cShape
      else if base % 16 ≠ 0 ∨ pitch % 16 ≠ 0 ∨ (f.block.isSome ∧ cadr % 16 ≠ 0) then s.trapOne a kAlign 0 (base % 2 ^ 57) 0 1
      else
        let sb := scaleBytes g f
        let segs := (List.range lines).map (fun i => (base + i * pitch, len)) ++ [(cadr, sb), (cadr + (sb + 15) / 16 * 16, 4 * count)]
        s.mxAccess r k (if st then accWrite else accRead) true segs (fun ps s =>
          s.mxStart r k (.xfer (if st then .tst else .tld) t g count ps)))

/-- CBLD (R339). -/
def bodyCbld (r : Raw) (s : State) : State :=
  mx r s (fun k s =>
    let base := s.srcA (.ctx k) r 0 0
    if base % 16 ≠ 0 then s.trapOne (.ctx k) kAlign 0 (base % 2 ^ 57) 0 1
    else s.mxAccess r k accRead false [(base, 1024)] (fun ps s => s.mxStart r k (.xfer .cbld 0 0 0 ps)))

/-- ASAV (R344). -/
def bodyAsav (r : Raw) (s : State) : State :=
  mx r s (fun k s =>
    let base := s.srcA (.ctx k) r 0 0
    match ((s.ctx k).acc r.x.d.toNat).shape with
    | none => s.mxIll k cAcckind
    | some w =>
      if base % 64 ≠ 0 then s.trapOne (.ctx k) kAlign 0 (base % 2 ^ 57) 0 1
      else s.mxAccess r k accWrite true [(base, 64 + shapeRows w.toNat * shapeCols w.toNat * cellBytes (shapeKind w.toNat))]
        (fun ps s => s.mxStart r k (.xfer .asav r.x.d.toNat w.toNat 0 ps)))

/-- A write-combining entry holds a pod line of the places: a context's access waits for its drain (R286). -/
def WcEntry.meets (e : WcEntry) (ps : List (Place × Nat)) : Bool :=
  ps.any (fun p => match p.1 with | .phys pa _ => decide (128 * e.line < pa + p.2) && decide (pa < 128 * (e.line + 1)) | .scr _ _ => false)

/-- Bytes of a list of places, as a context reads them. -/
def State.mxRead (s : State) (k : Nat) : List (Place × Nat) → List Byte × State
  | [] => ([], s)
  | (p, n) :: r =>
    let (v, s) := s.placeRead (.ctx k) p n false
    let (bs, s) := State.mxRead s k r
    (toBytes n v ++ bs, s)
/-- Bytes written to a list of places. -/
def State.mxWrite (s : State) (k : Nat) : List (Place × Nat) → List Byte → State
  | [], _ => s
  | (p, n) :: r, bs => State.mxWrite (((s.placeWrite (.ctx k) 0 p (bs.take n) false).getD s).wrote (.ctx k) p (bs.take n)) k r (bs.drop n)

/-- The header of an image is one that ARST takes (R345). -/
def imageOk (h : List Byte) : Bool :=
  let w0 := ofBytes (h.take 8)
  let w1 := ofBytes ((h.drop 8).take 8)
  bits w0 63 56 == 1 && bits w0 55 46 == 0 && !bitAt w0 44 && decide (w1 < 2 ^ 27) && bits w1 15 9 == 0 && ofBytes (h.drop 16) == 0 && shapeValid (w0 % 2 ^ 32)

/-- A context's core reaches every pod node of a transfer (R388, R390). -/
def State.mxReach (s : State) (k : Nat) (segs : List (List (Place × Nat))) : Bool :=
  segs.flatten.all (fun p => match p.1 with | .phys pa _ => s.spanOpen (s.coreOf (.ctx k)) pa p.2 | .scr _ _ => true)

/-- ARST (R345): the header is read at issue. -/
def bodyArst (r : Raw) (s : State) : State :=
  mx r s (fun k s =>
    let base := s.srcA (.ctx k) r 0 0
    if base % 64 ≠ 0 then s.trapOne (.ctx k) kAlign 0 (base % 2 ^ 57) 0 1
    else s.mxAccess r k accRead true [(base, 64)] (fun ps s =>
     if (s.core (s.coreOf (.ctx k))).wc.any (fun e => e.meets ps.flatten) then
      (s.wcDrain (s.coreOf (.ctx k)) (fun e => e.meets ps.flatten)).setWait (.ctx k) .stores
     else if !s.mxReach k ps then s.setWait (.ctx k) .stores
     else
      let (h, s) := s.mxRead k ps.flatten
      let w0 := ofBytes (h.take 8)
      let w := w0 % 2 ^ 32
      if !imageOk h then s.mxIll k cImage
      else s.cmixOr k r.x (bits w0 43 32 != (s.ctx k).contract) (fun s =>
        s.mxAccess r k accRead true [(base + 64, shapeRows w * shapeCols w * cellBytes (shapeKind w))] (fun ps s =>
          s.mxStart r k (.xfer .arst r.x.d.toNat w 0 ps)))))

/-- The counters of AHIST with what each rises by. -/
def histCounts (os : List Nat) : List (Nat × Nat) :=
  os.foldl (fun (l : List (Nat × Nat)) o => if l.any (fun p => p.1 == o) then l.map (fun p => if p.1 = o then (o, p.2 + 1) else p) else l ++ [(o, 1)]) []

/-- AHIST (R343). -/
def bodyAhist (r : Raw) (s : State) : State :=
  mx r s (fun k s =>
    let base := s.srcA (.ctx k) r 0 0
    let acc := (s.ctx k).acc r.x.d.toNat
    match acc.shape with
    | none => s.mxIll k cAcckind
    | some w =>
      let w := w.toNat
      let kind := shapeKind w
      let cs := histCounts ((List.range (shapeRows w * shapeCols w)).map (fun n => histOffset (cellDecode kind (acc.cell kind n))))
      let inWin (n : Nat) : Bool := decide (base + n ≤ 2 ^ 56) || (decide (base / 2 ^ 48 = 0x1FC) && decide (base % 2 ^ 48 + n ≤ s.scrBytes (s.teamOf (.ctx k))))
      if base % 16 ≠ 0 then s.trapOne (.ctx k) kAlign 0 (base % 2 ^ 57) 0 1
      else if cs.any (fun p => !inWin (p.1 + 4)) then s.trapOne (.ctx k) kProt 8 (base % 2 ^ 57) 0 1
      else s.mxAccess r k accAtomic false (cs.map (fun p => (base + p.1, 4))) (fun ps s =>
        s.mxStart r k (.xfer .ahist r.x.d.toNat w 0 ((ps.zip cs).map (fun p => p.1.map (fun q => (q.1, p.2.2)))))))

/-- Elements of lines stored column by column as row-major bits, and back: `bytes` is the element's size. -/
def transpose (rows cols bytes : Nat) (lines : List (List Byte)) : List Byte :=
  (List.range rows).flatMap (fun r => (List.range cols).flatMap (fun c => ((lines.getD c []).drop (r * bytes)).take bytes))

/-- A tile after TLD's lines, scales and outliers (R334). -/
def Tile.load (t : Tile) (g count : Nat) (f : MatFmt) (parts : List (List Byte)) : Tile :=
  let (n, len) := tileLines g f
  let lines := parts.take n
  let used := cfgRows g * cfgCols g * f.tileBits
  let val := if cfgCol g then ofBytes (transpose (cfgRows g) (cfgCols g) (f.tileBits / 8) lines)
    else packElems (cfgCols g * f.tileBits) (lines.map (fun l => ofBytes l % 2 ^ (cfgCols g * f.tileBits)))
  let sb := 8 * scaleBytes g f
  let sc := ofBytes (parts.getD n [])
  let ol := parts.getD (n + 1) []
  let _ := len
  { t with bits := BitVec.ofNat 131072 (t.bits.toNat / 2 ^ used * 2 ^ used + val)
           scales := BitVec.ofNat 32768 (t.scales.toNat / 2 ^ sb * 2 ^ sb + sc)
           outliers := if cfgFmt g = 0x1A then BitVec.ofNat 8192 (t.outliers.toNat / 2 ^ (32 * count) * 2 ^ (32 * count) + ofBytes (ol.take (4 * count))) else t.outliers
           count := if cfgFmt g = 0x1A then count else t.count }

/-- The lines and scales that TST writes. -/
def Tile.lines (t : Tile) (g : Nat) (f : MatFmt) : List (List Byte) :=
  let (n, len) := tileLines g f
  let eb := f.tileBits / 8
  let line (i : Nat) : List Byte :=
    if cfgCol g then (List.range (cfgRows g)).flatMap (fun r => toBytes eb (elemOf f.tileBits (t.row f.tileBits (cfgCols g) r) i))
    else toBytes len (t.row f.tileBits (cfgCols g) i)
  (List.range n).map line ++ [toBytes (scaleBytes g f) t.scales.toNat]

/-- The image of an accumulator (R344). -/
def Acc.image (a : Acc) (contract : Nat) : List Byte :=
  let w := (a.shape.getD 0).toNat
  toBytes 8 (2 ^ 56 + contract * 2 ^ 32 + w) ++ List.replicate 56 0 ++ toBytes (shapeRows w * shapeCols w * cellBytes (shapeKind w)) a.cells.toNat

/-- What a halted team's context has in the array is interrupted at a group boundary: an MMA or MMAV that opens no sum, under a contract with
ORDER = 0 and an accumulator that is not exact (R348). -/
def State.interrupted (s : State) (k : Nat) : Option (Op × Nat × Nat × Nat × Nat) :=
  match (s.ctx k).flight with
  | some (.op op d ta tb rm) =>
    if (op = .mma ∨ op = .mmav) ∧ Contract.interruptible (s.contractOf (.ctx k)) ∧ !(op = .mmav ∧ cfgFmt ((s.ctx k).tile tb).cfg.toNat = 0x1A) then some (op, d, ta, tb, rm) else none
  | _ => none

/-- The groups summed when an interrupted operation stops: the group boundary is free, at or after the one where it went on and before the
last (R348). -/
def State.groupsDone (s : State) (k ta : Nat) : Nat :=
  let x := s.ctx k
  let c := s.contractOf (.ctx k)
  let g0 := match x.part with | some (g, _) => g | none => 0
  g0 + (Config.freeWord s.opens).toNat % ((cfgCols (x.tile ta).cfg.toNat + 2 ^ c.groupLog - 1) / 2 ^ c.groupLog - g0)

/-- The sums of the cells of an interrupted operation at the boundary where it stops, with the flags of the groups summed. -/
def State.matPart (s : State) (k : Nat) (op : Op) (d ta tb : Nat) : List (SumPart × Flags) :=
  let x := s.ctx k
  let c := s.contractOf (.ctx k)
  let w := ((x.acc d).shape.getD 0).toNat
  let kind := shapeKind w
  let o := x.matOps c op ta tb
  let n := o.cols.length
  let groups := s.groupsDone k ta
  (List.range (shapeRows w)).flatMap (fun i => (List.range n).map (fun j =>
    contractPart c (x.cellPart kind ((x.acc d).cell kind (i * n + j)) (i * n + j)) (o.terms i j) (cfgFmt (x.tile ta).cfg.toNat == 1) groups))

/-- The image of the accumulator of an interrupted operation (R344, R348). The partial entries outside FP26 accumulation are free. -/
def State.partImage (s : State) (k : Nat) (op : Op) (d ta tb rm : Nat) : List Byte :=
  let x := s.ctx k
  let c := s.contractOf (.ctx k)
  let w := ((x.acc d).shape.getD 0).toNat
  let kind := shapeKind w
  let groups := s.groupsDone k ta
  let ps := (s.matPart k op d ta tb).map (·.1)
  let g0 := match x.part with | some (g, _) => g | none => 0
  let cell (p : SumPart × Nat) : Nat := if groups = g0 then (x.acc d).cell kind p.2 else (cellEncode kind p.1.total).1
  let entry (p : SumPart × Nat) : Nat :=
    if accFormat c (cfgFmt (x.tile ta).cfg.toNat == 1) = some fp26 then p.1.entry else (Config.freeWord (s.opens + 1 + p.2)).toNat
  toBytes 8 (2 ^ 56 + bit01 (op == .mmav) * 2 ^ 45 + 2 ^ 44 + x.contract * 2 ^ 32 + w) ++
    toBytes 8 (rm * 2 ^ 24 + tb * 2 ^ 20 + ta * 2 ^ 16 + groups * 2 ^ c.groupLog) ++ List.replicate 48 0 ++
    (ps.zip (List.range ps.length)).flatMap (fun p => toBytes (cellBytes kind) (cell p)) ++ (ps.zip (List.range ps.length)).flatMap (fun p => toBytes 8 (entry p))

/-- The flags of the part of an interrupted operation that is done stand in MFSTK as the context is saved (R340; DEDUCED, log 58). -/
def State.partFlags (s : State) (k : Nat) : State :=
  match s.interrupted k with
  | some (op, d, ta, tb, _) =>
    let fl := Sys2Proof.Machine.orFlags ((s.matPart k op d ta tb).map (·.2))
    s.modCtx k (fun x => { x with fstk := x.fstk ||| fl.setWidth 32 })
  | none => s

/-- Read each segment in order. -/
def State.mxReadAll (s : State) (k : Nat) : List (List (Place × Nat)) → List (List Byte) × State
  | [] => ([], s)
  | l :: ls =>
    let (bs, s) := s.mxRead k l
    let (r, s) := State.mxReadAll s k ls
    (bs :: r, s)

/-- TILE_TRANSFER_COMPLETE (R334, R347): the memory of a transfer is read or written. -/
def State.transferComplete (s : State) (c : CoreId) (matrix : Bool) : State :=
  let k := ctxKey c matrix
  match (s.ctx k).flight with
  | some (.xfer kind d g count segs) =>
    if !s.mxReach k segs then s
    else if (s.core c).wc.any (fun e => e.meets segs.flatten) then s.wcDrain c (fun e => e.meets segs.flatten)
    else
      let done (f : Ctx → Ctx) (s : State) : State := { s.modCtx k (fun x => { f x with flight := none }) with invalCtxs := s.invalCtxs.filter (· != k) }
      match kind with
      | .tld => let (ps, s) := s.mxReadAll k segs; done (fun x => x.setTile d ((x.tile d).load g count ((matFmt (cfgFmt g)).getD { elem := .mxint, w := 8, tileBits := 8 }) ps)) s
      | .cbld => let (ps, s) := s.mxReadAll k segs; done (fun x => { x with codebook := BitVec.ofNat 8192 (ofBytes ps.flatten) }) s
      | .arst => let (ps, s) := s.mxReadAll k segs; done (fun x => x.setAcc d { cells := BitVec.ofNat 524288 (ofBytes ps.flatten), shape := some (BitVec.ofNat 32 g) }) s
      | .tst =>
        let ls := ((s.ctx k).tile d).lines g ((matFmt (cfgFmt g)).getD { elem := .mxint, w := 8, tileBits := 8 })
        done id (foldS (fun (p : List (Place × Nat) × List Byte) s => s.mxWrite k p.1 p.2) (segs.zip ls) s)
      | .asav => done id (s.mxWrite k segs.flatten (((s.ctx k).acc d).image (s.ctx k).contract))
      | .ahist =>
        done id (foldS (fun (p : Place × Nat) s =>
          let (o, s) := s.placeUpdate (.ctx k) p.1 4 (fun o => some (min (o + p.2) 0xFFFFFFFF))
          s.wrote (.ctx k) p.1 (toBytes 4 (min (o + p.2) 0xFFFFFFFF))) segs.flatten s)
  | _ => s

/-! ## Self-test (R324 to R326, R346) -/

/-- STEST: the test enters the array. -/
def bodyStest (r : Raw) (s : State) : State := mx r s (fun k s => (s.takeOver (.ctx k) [r.x.d.toNat] 1).mxStart r k (.test r.x.d.toNat))

/-- MXSTAT of a quad (R326). -/
def Quad.mxstat (q : Quad) : Nat := q.tests * 2 ^ 16 + bit01 q.olf * 2 ^ 9 + q.mode * 2 ^ 6 + q.fenced.toNat

/-- MXF becomes due at the next instruction boundary of a context (R325, R449). -/
def State.mxf (s : State) (k : Nat) : State := s.modCtx k (fun x => { x with pend := x.pend ++ [{ kind := kMxf, cause := 0, aux := x.ops }] })

/-- SELF_TEST (R324, R325): one test, which is due after a package reset, after STPER operations, or else for one STEST. `fail`
are the units whose signature fails: the sub-arrays, and bit 4 the outlier side unit. A pass follows a change of MXSTAT (R100). -/
def State.selfTest (s : State) (die quad : Nat) (fail : BitVec 5) : State :=
  let c (j : Nat) : CoreId := { die := die, quad := quad, core := j }
  let keys := [0, 1, 2, 3].map (fun j => ctxKey (c j) true)
  let q := s.quad (c 0)
  let per := bits (s.ge 0x20080) 31 16
  let counted := decide (per ≠ 0 ∧ per ≤ q.since)
  let anew := q.retest
  let counted := counted && !anew
  let asked := if counted || anew then [] else (keys.filter (fun k => match (s.ctx k).flight with | some (.test _) => true | _ => false)).take 1
  if !counted ∧ !anew ∧ asked.isEmpty then s
  else
    let s := s.modQuad (c 0) (fun q => { q with since := if counted then q.since - per else q.since, retest := false })
    let s :=
      if fail = 0 then
        foldS (fun k s => s.modCtx k (fun x => { x with ops := 0 })) keys (s.modQuad (c 0) (fun q => { q with tests := if anew then q.tests else satInc 32 q.tests }))
      else
        let s := s.modQuad (c 0) (fun q => { q with fenced := q.fenced ||| fail.setWidth 4, olf := q.olf || fail.getLsbD 4 })
        foldS (fun k s => if (s.ctx k).ops = 0 then s else s.mxf k) keys (s.tell (.fencedArray die quad fail (s.cyc die)))
    let s : State := { s with passDue := s.passDue || (s.quad (c 0)).mxstat != q.mxstat }
    foldS (fun k s => match (s.ctx k).flight with
      | some (.test m) => s.modCtx k (fun x => { x with flight := none, regs := mset x.regs m (BitVec.ofNat 64 (s.quad (c 0)).mxstat) })
      | _ => s) asked s

/-! ## The meanings -/

def execFork (x : Ext) (s : State) : Host.Outcome State Fault Refusal := issue (.ext .fork x) s (bodyFork (.ext .fork x))
def execRdv (x : Ext) (s : State) : Host.Outcome State Fault Refusal := issue (.ext .rdv x) s (bodyRdv (.ext .rdv x))
def execSeqend (b : Base) (s : State) : Host.Outcome State Fault Refusal := issue (.base .seqend b) s (bodySeqend (.base .seqend b))
def execSeqendExt (x : Ext) (s : State) : Host.Outcome State Fault Refusal := issue (.ext .seqend x) s (bodySeqend (.ext .seqend x))
def execTcfg (x : Ext) (s : State) : Host.Outcome State Fault Refusal := issue (.ext .tcfg x) s (bodyTcfg (.ext .tcfg x))
def execTld (x : Ext) (s : State) : Host.Outcome State Fault Refusal := issue (.ext .tld x) s (bodyTile (.ext .tld x))
def execTst (x : Ext) (s : State) : Host.Outcome State Fault Refusal := issue (.ext .tst x) s (bodyTile (.ext .tst x))
def execTzero (x : Ext) (s : State) : Host.Outcome State Fault Refusal := issue (.ext .tzero x) s (bodyTzero (.ext .tzero x))
def execMma (x : Ext) (s : State) : Host.Outcome State Fault Refusal := issue (.ext .mma x) s (bodyMat (.ext .mma x))
def execMmav (x : Ext) (s : State) : Host.Outcome State Fault Refusal := issue (.ext .mmav x) s (bodyMat (.ext .mmav x))
def execCbld (x : Ext) (s : State) : Host.Outcome State Fault Refusal := issue (.ext .cbld x) s (bodyCbld (.ext .cbld x))
def execOlapply (x : Ext) (s : State) : Host.Outcome State Fault Refusal := issue (.ext .olapply x) s (bodyMat (.ext .olapply x))
def execAprom (x : Ext) (s : State) : Host.Outcome State Fault Refusal := issue (.ext .aprom x) s (bodyAprom (.ext .aprom x))
def execAout (x : Ext) (s : State) : Host.Outcome State Fault Refusal := issue (.ext .aout x) s (bodyAout (.ext .aout x))
def execAsav (x : Ext) (s : State) : Host.Outcome State Fault Refusal := issue (.ext .asav x) s (bodyAsav (.ext .asav x))
def execArst (x : Ext) (s : State) : Host.Outcome State Fault Refusal := issue (.ext .arst x) s (bodyArst (.ext .arst x))
def execAhist (x : Ext) (s : State) : Host.Outcome State Fault Refusal := issue (.ext .ahist x) s (bodyAhist (.ext .ahist x))
def execStest (x : Ext) (s : State) : Host.Outcome State Fault Refusal := issue (.ext .stest x) s (bodyStest (.ext .stest x))
def execTzeroA (x : Ext) (s : State) : Host.Outcome State Fault Refusal := issue (.ext .tzero x) s (bodyTzeroA (.ext .tzero x))

def execMatrixOpComplete (c : CoreId) (s : State) : Host.Outcome State Fault Refusal := .next (s.matrixComplete c)
def execTileTransferComplete (c : CoreId) (mseq : Bool) (s : State) : Host.Outcome State Fault Refusal := .next (s.transferComplete c mseq)
def execSelfTest (die quad : Nat) (fail : BitVec 5) (s : State) : Host.Outcome State Fault Refusal := .next (s.awake (s.selfTest die quad fail))

end Sys2Proof.Machine
end

