-- ==== Sys2Proof/Machine/Trap.lean ====
section
/-!
DEFINITION. Traps at a boundary (R438), TRAP, RETT, DRAINST and GKILL (R450 to R454), BKPT (R465), RRCHK (R477), TRIGGER
(R488), and the events TRIGGER_MARK, EXIT_RELEASE_COMPLETE, HALT_NEST_TIMEOUT and REPLAY_GATE_TIMEOUT.
-/
namespace Sys2Proof.Machine

/-! ## Traps due at a boundary (R438, R442, R445) -/

/-- The slice has taken the HALT of its team's request and has not been restored since. -/
def Slice.inHalt (x : Slice) : Bool := !x.haltFrames.isEmpty && !x.restoring

/-- The kind of trap at a boundary for which a slice waits: HALT waits for no result that a hold can keep open (R445). -/
def State.boundaryWaits (s : State) (u i : Nat) (halt : Bool) : Bool := if halt then s.awaitsHalt (.slice u i) else s.awaits (.slice u i)

/-- HALT is due at depth 0 (R445). -/
def Team.haltDue (t : Team) (x : Slice) : Bool := t.halt.isSome && x.depth == 0 && !x.parked

/-- A trap of a slice that is pending; its frame has RPC at the boundary, and FPC where the trap names one. -/
def State.takePend (s : State) (u i : Nat) (p : PTrap) : State :=
  let pc := (s.sl u i).pc
  s.takeTrapAt u i p (p.fpc.getD pc) pc false false

/-- The SFAULT of the records pushed since the last one (R442). -/
def State.takeSfault (s : State) (u i : Nat) : State :=
  let x := s.sl u i
  s.takeTrap u i { kind := kSfault, cause := 0, va := x.sfVa, amask := x.sfMask, aux := x.sfCount }

/-- The first trap due at the boundary of a slice, in the order of R438. -/
def State.dueTrap (s : State) (u i : Nat) : Option (State → State) :=
  match s.team u, s.slice u i with
  | some t, some x =>
    if x.parked ∨ t.status ≠ .resident then none
    else if t.haltDue x then some (fun s => s.takeTrap u i { kind := kHalt, cause := 0 })
    else match x.pend.find? (fun p => p.kind == kEcc) with
      | some p => some (fun s => s.takePend u i p)
      | none =>
        if x.sfDue ∧ x.wait ≠ .fence then some (fun s => s.takeSfault u i)
        else match x.pend.find? (fun p => x.depth = 0 && p.kind == kBkpt) with
          | some p => some (fun s => s.takePend u i p)
          | none => match x.pend.find? (fun p => x.depth = 0 && p.kind == kWatch) with
            | some p => some (fun s => s.takePend u i p)
            | none => match x.pend.find? (fun p => p.kind != kBkpt && p.kind != kWatch) with
              | some p => some (fun s => s.takePend u i p)
              | none => none
  | _, _ => none

/-- Take the trap that is due, once the results in flight have arrived (R172); none when no trap is due. -/
def State.boundary (s : State) (u i : Nat) : Option State :=
  match s.dueTrap u i with
  | none => none
  | some f => some (if s.boundaryWaits u i (match s.team u, s.slice u i with | some t, some x => t.haltDue x | _, _ => false) then s else f s)

/-! ## TRAP and BKPT (R451, R465) -/

/-- cat(A, B) of 14 bits. -/
def trapCode (x : Ext) : Nat := x.a.toNat * 2 ^ 7 + x.b.toNat

/-- TRAP: TRAPI, with the next instruction as RPC. -/
def bodyTrap (r : Raw) (s : State) : State :=
  eachSlice s r (fun u i m t =>
    if t.awaits (.slice u i) then t.setWait (.slice u i) .stores
    else
      let pc := (t.sl u i).pc
      t.takeTrapAt u i { kind := kTrapi, cause := 0, amask := m, aux := trapCode r.x } pc (pc + r.len.bytes) false false)

/-- BKPT: ignored when masked or at depth 1 or more. Where a lane acts it is an edge, which every slice of the gang takes (R180). -/
def bodyBkpt (r : Raw) (s : State) : State :=
  let edge := s.agents.any (fun a => s.acts a r.x != 0)
  let taken (a : Issuer) : Bool := match a with | .slice u i => edge && (s.sl u i).depth == 0 && !s.masks u kBkpt | .ctx _ => false
  let waits := s.agents.any (fun a => taken a && s.awaits a)
  foldS (fun a t => match a with
    | .slice u i =>
      let x := t.sl u i
      if !taken a then t.advance a r.len.bytes
      else if waits then t.setWait a .stores
      else t.takeTrapAt u i { kind := kBkpt, cause := 1, amask := s.acts a r.x, aux := trapCode r.x } x.pc (x.pc + r.len.bytes) false false
    | .ctx _ => t) s.agents s

/-! ## RETT (R452) -/

/-- The bits of frame word n that R441 names. -/
def frameNamed (n : Nat) : Nat :=
  let m (hi lo : Nat) : Nat := 2 ^ (hi + 1) - 2 ^ lo
  if n = 0 then m 63 36 + m 31 0
  else if n ≤ 3 then m 56 0
  else if n = 4 then m 63 0
  else if n < 8 then 0
  else if n = 8 then m 63 47 + m 31 0
  else if n = 9 then m 27 0
  else if n = 10 then m 31 0
  else if n ≤ 14 then m 63 0
  else if n = 15 then 0
  else if n < 44 then m 63 0
  else if n < 64 then 0
  else m 63 60 + m 56 0

/-- RJDEPTH and RGDEPTH in range, and no reserved bit set. -/
def frameOk (ws : List Nat) : Bool :=
  decide (bits (ws.getD 8 0) 59 54 ≤ 32) && decide (bits (ws.getD 8 0) 53 49 ≤ 16) &&
    (List.range 128).all (fun n => (ws.getD n 0) &&& frameNamed n == ws.getD n 0)

/-- A byte-wise field of the frame: n bits wide, entry i from word w on. -/
def frameField (ws : List Nat) (w n i : Nat) : Nat := (ws.getD (w + n * i / 64) 0 >>> (n * i % 64)) % 2 ^ n

/-- A slice reloaded from its frame (R452); the rejoin masks and ACT keep live lanes only. -/
def Slice.reload (x : Slice) (ws : List Nat) : Slice :=
  let w8 := ws.getD 8 0
  let msk (v : Nat) : Mask := BitVec.ofNat 4 v &&& x.live
  let rj := (List.range (bits w8 59 54)).map (fun j =>
    let a := ws.getD (64 + 2 * j) 0
    let b := ws.getD (65 + 2 * j) 0
    ({ jpc := bits a 56 0, rpc := bits b 56 0, wmask := msk (bits a 63 60), pmask := msk (bits b 63 60) } : Rejoin))
  let rg := (List.range (bits w8 53 49)).map (fun j => BitVec.ofNat 16 (frameField ws 24 16 j))
  let mapped := ws.getD 13 0
  let names := (List.range 8).foldl (fun ns i =>
    if bitAt mapped i then mset ns i (Four.ofFn (fun p => BitVec.ofNat 32 (frameField ws 28 32 (4 * i + p)))) else mdel ns i) x.names
  let wk := bits w8 48 47
  let hf := x.haltFrames.filter (· != x.depth)
  { x with
    pc := bits (ws.getD 1 0) 56 0, act := msk (bits w8 63 60), rejoin := rj.reverse, region := rg.reverse, names := names
    preds := Four.ofFn (fun p => BitVec.ofNat 8 (bits (ws.getD 9 0) (7 * p + 6) (7 * p) + 128))
    fstk := Four.ofFn (fun p => BitVec.ofNat 32 (frameField ws 11 32 p % 64)), sseq := BitVec.ofNat 32 (ws.getD 10 0)
    srcnt := Four.ofFn (fun p => BitVec.ofNat 64 (ws.getD (16 + p) 0)), seed := Four.ofFn (fun p => BitVec.ofNat 64 (ws.getD (20 + p) 0))
    depth := x.depth - 1, wait := .none, waitCyc := 0, xf := [], rrTok := none, gateSince := none, gateOut := false
    barTok := if wk = 1 then some (BitVec.ofNat 32 w8) else none, nwTok := if wk = 2 then some ((mget x.nwKept x.depth).getD 0xF) else none
    haltFrames := hf, restoring := x.restoring && !hf.isEmpty }

/-- RETT on one slice; `park` is RETT.h. It reads the frame after the slice's own earlier stores, and a frame that cannot be
read faults at the RETT. -/
def State.rettOne (s : State) (u i : Nat) (park : Bool) : State :=
  let a := Issuer.slice u i
  let x := s.sl u i
  let m := x.act
  match s.team u with
  | none => s
  | some t =>
   if s.storesOf a 0xF s.nextId ∨ (!park ∧ (s.frameOwes u i x.depth ∨ s.owes u)) then s.setWait a .stores
   else
    let va := t.csa.getD 0 + frameOff x.depth i
    match s.translate { asid := s.asidOf u, core := t.core, priv := true } va accRead 0 with
    | .fault k c true => (s.raiseFault (s.req a) va k c accRead (.slice u i)).setWait a .replay
    | .fault k c false => s.trapOne a k c va 0 m
    | .miss => s
    | .ok pa cache _ =>
      let (bs, s) := s.l1Reads t.core cache (spans 1025 pa 1024)
      let ws := bytesToWords bs
      if park ∧ bits (ws.getD 0 0) 63 56 ≠ kHalt then s.trapOne a kIllegal cNothalt 0 0 m
      else if !frameOk ws then s.trapOne a kIllegal cFrame 0 0 m
      else if !park ∧ s.ceilOf u < x.heldAfter (List.range 8) ((List.range 8).filter (bitAt (ws.getD 13 0))) then s.trapOne a kIllegal cRegspace 0 0 m
      else if park then
        let (ok, s) := s.release a 5
        if ok then s.modSlice u i (fun x => { x with parked := true, wait := .none }) else s.setWait a .stores
      else
        ((s.takeOver a (List.range 8) 0xF).modSlice u i (fun x => x.reload ws)).normalize u i

/-- RETT and RETT.h. -/
def bodyRett (park : Bool) (s : State) : State :=
  foldS (fun a t => match a with | .slice u i => t.rettOne u i park | .ctx _ => t) s.agents s

/-! ## DRAINST and GKILL (R453, R454) -/

/-- DRAINST. -/
def bodyDrainst (r : Raw) (s : State) : State :=
  eachSlice s r (fun u i _ t =>
    if t.storesOf (.slice u i) 0xF t.nextId then t.setWait (.slice u i) .stores
    else if (t.sl u i).sfDue then (if t.awaits (.slice u i) then t.setWait (.slice u i) .stores else t.takeSfault u i)
    else t.advance (.slice u i) r.len.bytes)

/-- GKILL: the home gang of each slice in which a lane acts. -/
def bodyGkill (r : Raw) (s : State) : State :=
  eachSlice s r (fun u i _ t =>
    let gang := match t.team u with | some v => (v.slices.map (·.1)).filter (fun j => j / 8 == i / 8) | none => []
    foldS (fun j t => t.killSlice u j) gang t)

/-! ## RRCHK (R477) -/

/-- Accesses of a team's slices, issued before operation n, that have not contributed or faulted. -/
def State.hashBusy (s : State) (u n : Nat) : Bool :=
  s.mops.any (fun p => decide (p.1 < n) && (match p.2.by_ with | .slice v _ => v == u | .ctx _ => false) && (p.2.kind == .st || p.2.kind == .red || p.2.kind == .atom))

/-- The key of a checkpoint. -/
def checkKey (t : Team) (i : Nat) (sseq : Word) : Nat := t.index % 2 ^ 24 * 2 ^ 40 + i % 256 * 2 ^ 32 + sseq.toNat

/-- The chunk offset of checkpoint entries, and their number in a chunk. -/
def checkBase : Nat := 0x10
def checkCap : Nat := 255

/-- What the log says to a checkpoint. -/
inductive Check where
  | pass (s : State)
  | rply (cause : Nat) (s : State)
  | fault (e : Bool × Nat × Nat × Nat × Nat) (s : State)

def State.rrLog (s : State) (u i : Nat) (h : DWord) : Check :=
  match s.team u, s.taskOf u with
  | some t, some k =>
    let key := checkKey t i (s.sl u i).sseq
    if k.rrmode = 1 then
      let L := Log.append { s := s } t.task t.core 512 checkBase checkCap [key, h.toNat]
      match L.err with
      | some e => .fault e (if e.1 then s else L.s)
      | none => .pass L.s
    else if k.rrmode = 2 then
      let (es, L) := Log.entries { s := s } t.task t.core 512 checkBase 16
      match L.err with
      | some e => .fault e s
      | none =>
        match es.find? (fun e => e.2.1 == key && (mget k.consumed (usedKey 512 e.1)).isNone) with
        | none => .rply 3 s
        | some e =>
          let s := s.modTask t.task (fun k => { k with consumed := mset k.consumed (usedKey 512 e.1) 1 })
          if e.2.2 = h.toNat then .pass s else .rply 1 s
    else .pass s
  | _, _ => .pass s

/-- RRCHK on one slice. -/
def State.rrchkOne (s : State) (r : Raw) (u i : Nat) (m : Mask) : State :=
  let a := Issuer.slice u i
  if !s.room a r then s.trapOne a kIllegal cRegspace 0 0 m
  else
    let n := (s.sl u i).rrTok.getD s.nextId
    if s.hashBusy u n then s.modSlice u i (fun x => { x with rrTok := some n, wait := .stores })
    else if s.awaits a then s.modSlice u i (fun x => { x with rrTok := some n, wait := .stores })
    else
      let h : DWord := match s.team u with
        | some t => (t.late.filter (fun p => decide (n ≤ p.1))).foldl (fun h p => h - p.2) t.sthash
        | none => 0
      let done (s : State) : State := s.commit r a m .reg (fun _ => { val := h.toNat })
      match s.rrLog u i h with
      | .pass s => done s
      | .rply c s => if s.masks u kRply then done (s.sticky u kRply) else
        let hashed := (s.mapDests a r m).modSlice u i (fun x => (x.putReg r.x.d.toNat m (fun _ => h.setWidth 32)).putReg (r.x.d.toNat + 1) m (fun _ => (h >>> 32).setWidth 32))
        hashed.trapOne a kRply c 0 0 m
      | .fault e s => match s.team u with
        | some t => (s.modSlice u i (fun x => { x with rrTok := some n, wait := .replay })).logFault t.task t.core e
        | none => s

/-- RRCHK. -/
def bodyRrchk (r : Raw) (s : State) : State := eachSlice s r (fun u i m t => t.rrchkOne r u i m)

/-! ## TRIGGER and the releases of EXIT (R488, R489) -/

/-- TRIGGER: the release begins, and the slice goes on. -/
def bodyTrigger (r : Raw) (s : State) : State :=
  eachSlice s r (fun u i m t =>
    (t.modTeam u (fun v => { v with marking := v.marking ++ [(i, m, t.nextId)] })).advance (.slice u i) r.len.bytes)

/-- The first release of a list that covers a lane. -/
def releaseOf (l : List (Nat × Mask × Nat)) (lane : Nat) : Option (Nat × Mask × Nat) :=
  l.find? (fun p => p.1 == lane / 4 && p.2.1.getLsbD (lane % 4))

/-- The lane taken out of a release. -/
def dropLane (l : List (Nat × Mask × Nat)) (e : Nat × Mask × Nat) (lane : Nat) : List (Nat × Mask × Nat) :=
  (l.map (fun p => if p == e then (p.1, p.2.1 &&& ~~~(BitVec.ofNat 4 (2 ^ (lane % 4))), p.2.2) else p)).filter (fun p => p.2.1 != 0)

/-- The release at `.pkg` of a slice's accesses before operation n, and the drain of the team's write-combining entries:
whether both have completed, and the state with what they have begun. -/
def State.laneRelease (s : State) (u i n : Nat) : Bool × State :=
  let a := Issuer.slice u i
  let c := s.coreOf a
  if s.unperformed a n then (false, s)
  else
    let s := (s.releaseL1 c 5).wcDrain c (fun e => e.teams.contains u)
    (!(s.core c).wc.any (fun e => e.teams.contains u && decide (e.first < n)), s)

/-- TRIGGER_MARK (R488). -/
def State.triggerMark (s : State) (u lane : Nat) : State :=
  match s.team u with
  | none => s
  | some t =>
    match releaseOf t.marking lane with
    | none => s
    | some e =>
      let (ok, s) := s.laneRelease u (lane / 4) e.2.2
      if !ok then s
      else
        let b := laneSet (lane / 4) (BitVec.ofNat 4 (2 ^ (lane % 4)))
        let s := (s.publish (fun w => w.team == u && w.slice == lane / 4 && w.lane == lane % 4 && decide (w.op < e.2.2))).modTeam u (fun t => { t with marking := dropLane t.marking e lane, marked := t.marked ||| b, counted := t.counted ||| b })
        (s.modTask t.task (fun k => { k with anyMark := true })).earlyRelease t.task

/-- EXIT_RELEASE_COMPLETE (R489). -/
def State.exitComplete (s : State) (u lane : Nat) : State :=
  match s.team u with
  | none => s
  | some t =>
    match releaseOf t.exiting lane with
    | none => s
    | some e =>
      let (ok, s) := s.laneRelease u (lane / 4) e.2.2
      if !ok then s
      else
        let b := laneSet (lane / 4) (BitVec.ofNat 4 (2 ^ (lane % 4)))
        ((s.publish (fun w => w.team == u && w.slice == lane / 4 && w.lane == lane % 4 && decide (w.op < e.2.2))).modTeam u (fun t => { t with exiting := dropLane t.exiting e lane, counted := t.counted ||| b })).earlyRelease t.task

/-! ## HALT inside a handler, and the order gate (R445, R475) -/

/-- HALT_NEST_TIMEOUT: 4,000 cycles after the request, a slice still in a handler takes HALT with NEST set. -/
def State.haltNest (s : State) (u i : Nat) : State :=
  match s.team u, s.slice u i with
  | some t, some x =>
    match t.halt with
    | none => s
    | some c =>
      if x.depth = 0 ∨ x.inHalt ∨ x.parked ∨ s.cyc t.core.die < c + 4000 ∨ s.awaitsHalt (.slice u i) then s
      else s.takeTrapAt u i { kind := kHalt, cause := 0 } x.pc x.pc true false
  | _, _ => s

/-- REPLAY_GATE_TIMEOUT: after 2^24 cycles at the gate the atomics issue out of turn. -/
def State.gateTimeout (s : State) (a : Agent) : State :=
  let late (d : Nat) (g : Option Nat) : Bool := match g with | some c => decide (c + 2 ^ 24 ≤ s.cyc d) | none => false
  match a with
  | .idle => s
  | .gang u is =>
    match s.team u with
    | none => s
    | some t => foldS (fun i s => s.modSlice u i (fun x => if late t.core.die x.gateSince then { x with gateOut := true } else x)) is s
  | .ctx m c =>
    let halts : Bool := match s.team (s.teamOf (.ctx (ctxKey c m))) with | some t => t.halt.isSome | none => false
    s.modCtx (ctxKey c m) (fun x => if late c.die x.gateSince && !halts then { x with gateOut := true } else x)

/-! ## The meanings -/

def execTrap (b : Base) (s : State) : Host.Outcome State Fault Refusal := issue (.base .trap b) s (bodyTrap (.base .trap b))
def execTrapExt (x : Ext) (s : State) : Host.Outcome State Fault Refusal := issue (.ext .trap x) s (bodyTrap (.ext .trap x))
def execDrainst (b : Base) (s : State) : Host.Outcome State Fault Refusal := issue (.base .drainst b) s (bodyDrainst (.base .drainst b))
def execDrainstExt (x : Ext) (s : State) : Host.Outcome State Fault Refusal := issue (.ext .drainst x) s (bodyDrainst (.ext .drainst x))
def execGkill (b : Base) (s : State) : Host.Outcome State Fault Refusal := issue (.base .gkill b) s (bodyGkill (.base .gkill b))
def execGkillExt (x : Ext) (s : State) : Host.Outcome State Fault Refusal := issue (.ext .gkill x) s (bodyGkill (.ext .gkill x))
def execBkpt (b : Base) (s : State) : Host.Outcome State Fault Refusal := issue (.base .bkpt b) s (bodyBkpt (.base .bkpt b))
def execBkptExt (x : Ext) (s : State) : Host.Outcome State Fault Refusal := issue (.ext .bkpt x) s (bodyBkpt (.ext .bkpt x))
def execRrchk (b : Base) (s : State) : Host.Outcome State Fault Refusal := issue (.base .rrchk b) s (bodyRrchk (.base .rrchk b))
def execRrchkExt (x : Ext) (s : State) : Host.Outcome State Fault Refusal := issue (.ext .rrchk x) s (bodyRrchk (.ext .rrchk x))
def execTrigger (b : Base) (s : State) : Host.Outcome State Fault Refusal := issue (.base .trigger b) s (bodyTrigger (.base .trigger b))
def execTriggerExt (x : Ext) (s : State) : Host.Outcome State Fault Refusal := issue (.ext .trigger x) s (bodyTrigger (.ext .trigger x))
def execRett (s : State) : Host.Outcome State Fault Refusal := issue (.base .rett (Base.withD 0)) s (bodyRett false)
def execRettH (s : State) : Host.Outcome State Fault Refusal := issue (.base .rett (Base.withD 1)) s (bodyRett true)

def execTriggerMark (team lane : Nat) (s : State) : Host.Outcome State Fault Refusal := .next (s.triggerMark team lane)
def execExitReleaseComplete (team lane : Nat) (s : State) : Host.Outcome State Fault Refusal := .next (s.exitComplete team lane)
def execHaltNestTimeout (team slice : Nat) (s : State) : Host.Outcome State Fault Refusal := .next (s.haltNest team slice)
def execReplayGateTimeout (a : Agent) (s : State) : Host.Outcome State Fault Refusal := .next (s.gateTimeout a)

end Sys2Proof.Machine
end

