-- ==== Sys2Proof/Machine/Graph.lean ====
section
/-!
DEFINITION. The graph engine (chapters 2 and 4): reading and checking task cards, edges, acceptance, residency reports,
host submission, launch ports, LAUNCH and NWAIT, and the kill of a task.
-/
namespace Sys2Proof.Machine

/-! ## The graph engine's own accesses (R117) -/

/-- The place a graph engine access stands for in a fault record: die 0. -/
def geCore : CoreId := { die := 0, quad := 0, core := 0 }
def geReq (asid : Nat) : Req := { asid := asid, core := geCore, eng := 3, priv := true }

/-- Translate for the graph engine; a fault answered FAIL is final for the access it was made for. -/
def State.geTr (s : State) (g : GeUser) (asid va acc : Nat) : Tr :=
  match s.geXf.find? (fun f => f.1 == g && f.2.asid == asid && f.2.page == va / 4096) with
  | some f => .fault f.2.kind f.2.cause false
  | none => s.engineTr (.engine g) (geReq asid) va acc

/-- What a graph engine read comes to. -/
inductive GeRes (α : Type) where
  | ok (v : α)
  | fault
  | hold (kind cause va : Nat)

/-- Read n bytes that lie in one page. -/
def State.geBytes (s : State) (g : GeUser) (asid va n : Nat) : GeRes (List Byte) :=
  if n = 0 then .ok []
  else match s.geTr g asid va accRead with
    | .ok pa _ _ => .ok (s.homeRead pa n)
    | .fault k c true => .hold k c va
    | .fault _ _ false => .fault
    | .miss => .fault

/-- Read n 64-bit words from an address aligned to 8 (R71). -/
def State.geWords (s : State) (g : GeUser) (asid : Nat) : Nat → Nat → GeRes (List Nat)
  | _, 0 => .ok []
  | va, n + 1 =>
    match s.geBytes g asid va 8 with
    | .fault => .fault
    | .hold k c a => .hold k c a
    | .ok b =>
      match State.geWords s g asid (va + 8) n with
      | .ok ws => .ok (ofBytes b :: ws)
      | .fault => .fault
      | .hold k c a => .hold k c a

/-- A replayable fault of the graph engine enters the ring (R122). -/
def State.geHold (s : State) (g : GeUser) (asid kind cause va acc : Nat) : State := s.raiseFault (geReq asid) va kind cause acc (.engine g)

/-- Someone waits on a pending fault. -/
def State.faultWaits (s : State) (w : Waiter) : Bool := s.dies.any (fun p => p.2.faults.any (fun f => f.waiters.contains w))

/-- Forget the final faults of an access once it is over. -/
def State.geForget (s : State) (g : GeUser) : State := { s with geXf := s.geXf.filter (fun f => f.1 != g) }

/-! ## Reasons (R91) -/

def rBadcard : Nat := 0x01
def rListfault : Nat := 0x02
def rBadfoot : Nat := 0x03
def rPoolfull : Nat := 0x04
def rCapx : Nat := 0x05
def rSeqgap : Nat := 0x06
def rArgfault : Nat := 0x10
def rTrapend : Nat := 0x11
def rKilled : Nat := 0x12

/-! ## Residency reports (R90, R92) -/

/-- The SRC code of a source. -/
def Source.code : Source → Nat
  | .host _ => 0
  | .launch .. => 1
  | .port p _ _ => 2 + p

/-- The offset of a launch port's registers (R87). -/
def portOff (p : Nat) : Nat := 0x20200 + 32 * p

/-- The 96 bytes of a report packet as words: the header with PKIND = 0x02, and the report (R88). -/
def ReportPkt.words (p : ReportPkt) : List Nat :=
  [2 ^ 56 + 2 * 2 ^ 48 + p.port % 2 ^ 16 * 2 ^ 32 + p.pseq % 2 ^ 32, p.cookie.toNat] ++ List.replicate 6 0 ++ p.report.map (·.toNat)

/-- A report packet goes to the port's return endpoint: in the fabric it fills one cell of the launch class (R86, R88). -/
def State.sendReport (s : State) (p : ReportPkt) : State :=
  let s := { s with packets := s.packets ++ [p] }
  let ret := p.ep.toNat
  if bitAt ret 63 then
    let d := bits ret 51 36
    let f := bits ret 35 16
    s.sendOpen (fun n => { link := (Config.flowLink d f).toNat, cls := 3, flow := flowKey d f, body := payloadsOf n 1 (wordsToBytes p.words) })
  else s

/-- Send a report: to the package ring when enabled, or to the port's return endpoint. `place` is word 0x10 without SRC. -/
def State.report (s : State) (src : Source) (kind reason stream tag handle place : Nat) : State :=
  let ws := [kind * 2 ^ 56 + reason * 2 ^ 48 + stream * 2 ^ 32 + tag, handle, place + src.code * 2 ^ 24, s.ioCyc]
  match src with
  | .port p cookie pseq =>
    s.sendReport { ep := s.reg (geBase + portOff p + 0x10), port := p, pseq := pseq, cookie := cookie, report := ws.map (BitVec.ofNat 64) }
  | _ =>
    let on := if kind ≤ 2 then bitAt (s.ge 0x20020) (kind - 1) else if kind = 4 then bitAt (s.ge 0x20020) 2 else true
    if on then s.ringWrite reportRing (wordsToBytes ws) else s

/-! ## The checks of a card (R32 to R34) -/

/-- A card's fields, read through a task that holds nothing else. -/
def cardTask (card : List DWord) : Task := { serial := 0, slot := 0, card := card, asid := 0, src := .host 0, left := 0 }

/-- The reserved fields are 0 and VER, CLASS and RRMODE are in use; record and replay need feature 0 (R490). -/
def cardFormOk (k : Task) (rr : Bool) : Bool :=
  let hi (off : Nat) : Bool := k.w off / 2 ^ 57 == 0
  (List.range 21).all (fun i => k.w (0x58 + 8 * i) == 0) && [0x20, 0x28, 0x38, 0x40, 0x48, 0x50].all hi && bits (k.w 0x30) 63 17 == 0 &&
    bits (k.w 0x10) 54 48 == 0 && bits (k.w 0x10) 7 0 == 0 && bits (k.w 0x08) 7 6 == 0 && bits (k.w 0) 63 56 == 3 && k.cls != 3 && k.rrmode != 3 &&
    (rr || k.rrmode == 0)

/-- The ranges of R32 for every class. -/
def cardRangesOk (k : Task) : Bool :=
  k.argSz % 4 == 0 && decide (k.argSz ≤ 65536) && decide (k.scratch ≤ 448) && decide (k.nfoot ≤ 1024) && decide (k.npred ≤ 64) &&
    (k.rrmode != 0 || k.rrlog == 0)

/-- The ranges of a gang task, and R33 for the other classes. -/
def cardClassOk (k : Task) : Bool :=
  let low := bits (k.w 8) 5 0 == 0 && bits (k.w 8) 39 8 == 0 && !k.cohort
  if k.cls = 0 then
    k.lanes % 4 == 0 && decide (4 ≤ k.lanes) && decide (k.lanes ≤ 1024) && decide (1 ≤ k.floor) && decide (k.floor ≤ 128) && decide (k.floor ≤ k.ceil) &&
      decide (k.ceil ≤ 128) && decide (k.nbar ≤ 16) && (k.cgv || k.cgidx == 0)
  else if k.cls = 1 then low && k.scratch == 0 && k.lvlbar == 0 && k.rrmode == 0 && k.rrlog == 0
  else low

/-- Cohorts, communication gang and floors (R34). -/
def cardTeamsOk (k : Task) : Bool :=
  (!k.cohort || k.nteam % 4 == 0) && (!bitAt k.lvlbar 0 || k.cohort) && (!k.cgv || decide (k.cgidx < ceilDiv k.lanes 32)) &&
    decide (k.floor * k.lanes / 4 ≤ 4032)

/-- The address fields are aligned (R32). -/
def cardAlignOk (k : Task) : Bool :=
  k.rrlog % 4096 == 0 && k.doneAddr % 8 == 0 && (k.npred == 0 || k.w 0x40 % 8 == 0) && (k.nfoot == 0 || k.w 0x38 % 32 == 0) &&
    (k.argSz == 0 || k.argAddr % 64 == 0) && k.code % 4 == 0

/-- No check of R34 gives BADCARD. -/
def cardOk (k : Task) (rr : Bool) : Bool := cardFormOk k rr && cardRangesOk k && cardClassOk k && cardTeamsOk k && cardAlignOk k

/-! ## Footprints (R38 to R41) -/

/-- A footprint from its four words. -/
def footOf (w0 w1 w2 w3 : Nat) : Foot := { base := w0, rowBytes := w1 % 2 ^ 32, rows := w1 / 2 ^ 32, pitch := w2, acc := w3 % 4 }
def Foot.empty (f : Foot) : Bool := f.rows == 0 || f.rowBytes == 0
/-- The end of a nonempty footprint. -/
def Foot.top (f : Foot) : Nat := f.base + (f.rows - 1) * f.pitch + f.rowBytes
/-- R39: reserved bits, and every byte in the global or pod window. -/
def footOk (pod : Bool) (w0 w1 w2 w3 : Nat) : Bool :=
  let f := footOf w0 w1 w2 w3
  w0 / 2 ^ 57 == 0 && w3 / 4 == 0 && (f.empty || decide (f.top ≤ if pod then 0x180 * 2 ^ 48 else 2 ^ 56))

/-- The footprints of a list of words, when all are good. -/
def footList (pod : Bool) : List Nat → Option (List Foot)
  | w0 :: w1 :: w2 :: w3 :: ws =>
    if footOk pod w0 w1 w2 w3 then (footList pod ws).map (fun l => footOf w0 w1 w2 w3 :: l) else none
  | _ => some []

/-- Some row of a footprint touches a granule of bytes lo to hi. -/
def Foot.meets (f : Foot) (lo hi : Nat) : Bool :=
  let j := if f.pitch = 0 then 0 else ceilDiv (lo + 1 - (f.base + f.rowBytes)) f.pitch
  let b := f.base + j * f.pitch
  decide (j < f.rows) && decide (lo < b + f.rowBytes) && decide (b ≤ hi)

/-- Two footprints touch a common granule (R40). -/
def Foot.overlaps (f g : Foot) : Bool :=
  let (a, b) := if f.rows ≤ g.rows then (f, g) else (g, f)
  !a.empty && !b.empty && (List.range a.rows).any (fun i =>
    let lo := (a.base + i * a.pitch) / 64 * 64
    let hi := (a.base + i * a.pitch + a.rowBytes - 1) / 64 * 64 + 63
    b.meets lo hi)

/-- The accesses P and T give an edge (R41): 0 R, 1 W, 2 RW, 3 CR. -/
def accEdge (p t : Nat) : Bool := !(p == 0 && t == 0) && !(p == 3 && t == 3)

/-- Two sources build one stream (R41, R80). -/
def Source.same : Source → Source → Bool
  | .host _, .host _ => true
  | .launch _ _ _ t _ _ _, .launch _ _ _ t' _ _ _ => t == t'
  | .port p _ _, .port p' _ _ => p == p'
  | _, _ => false

/-- The edges a new task gains (R41, R43). A task that has released its dependants early gives none. -/
def State.newEdges (s : State) (src : Source) (stream : Nat) (foots : List Foot) (preds : List Nat) : List Nat :=
  (s.tasks.filter (fun p =>
    let k := p.2
    !k.released && (preds.contains k.handle || (k.src.same src && k.stream == stream &&
      k.foots.any (fun f => foots.any (fun g => accEdge f.acc g.acc && f.overlaps g)))))).map (·.1)

/-! ## Acceptance (R70 to R73) -/

/-- The answer to a submission: a refusal with what the card says of itself, a fault to wait on, or acceptance. -/
inductive Verdict where
  | refuse (reason stream tag : Nat)
  | hold (kind cause va : Nat)
  | accept (card : List DWord) (foots : List Foot) (preds : List Nat)

/-- The lists of a card that passes its own checks. -/
def State.judgeLists (s : State) (asid : Nat) (card : List DWord) : Verdict :=
  let k := cardTask card
  match s.geWords .accept asid (k.w 0x38) (4 * k.nfoot) with
  | .hold a b c => .hold a b c
  | .fault => .refuse rListfault k.stream k.tag
  | .ok fw =>
    match s.geWords .accept asid (k.w 0x40) k.npred with
    | .hold a b c => .hold a b c
    | .fault => .refuse rListfault k.stream k.tag
    | .ok ps =>
      match footList (s.feature 5) fw with
      | none => .refuse rBadfoot k.stream k.tag
      | some fs => .accept card fs ps

/-- A card as read. -/
def State.judgeCard (s : State) (asid : Nat) (card : List DWord) : Verdict :=
  let k := cardTask card
  if cardOk k (s.feature 0) then s.judgeLists asid card else .refuse rBadcard k.stream k.tag

/-- Why the header of a launch packet is refused, against the last packet answered on its port (R89). DESIGN CHOICE (log 138): of a packet
out of order with a bad header too, SEQGAP is the reason; R89 orders no cases. -/
def State.badHead (s : State) (b : Submission) : Option Nat :=
  match b.src with
  | .port n _ pseq =>
    let last := bits (s.ge (portOff n + 0x18)) 31 0
    let h0 := (b.head.getD 0 0).toNat
    if pseq = 0 ∨ pseq ≠ (if last = 2 ^ 32 - 1 then 1 else last + 1) then some rSeqgap
    else if (b.head.drop 2).any (· != 0) || bits h0 63 56 != 1 || bits h0 55 48 != 1 || bits h0 47 32 != n then some rBadcard
    else none
  | _ => none

/-- The answer to a submission, in the order of R89, R73, R80, R82 and R34. -/
def State.judge (s : State) (b : Submission) : Verdict :=
  match s.badHead b with
  | some r => .refuse r (cardTask (b.card.getD [])).stream (cardTask (b.card.getD [])).tag
  | none =>
  if 65536 ≤ s.tasks.length then .refuse rPoolfull 0 0
  else match b.card with
    | some card => s.judgeCard b.asid card
    | none =>
      if 2 ^ 57 ≤ b.addr ∨ b.addr % 256 ≠ 0 then .refuse rBadcard 0 0
      else match s.geWords .accept b.asid b.addr 32 with
        | .hold a c d => .hold a c d
        | .fault => .refuse rListfault 0 0
        | .ok ws => s.judgeCard b.asid (ws.map (BitVec.ofNat 64))

/-- Give the answer to its submitter: registers of a host page, the pair of a LAUNCH, or LASTSEQ of a port (R80, R82, R87). `none` is a
refusal. -/
def State.answer (s : State) (src : Source) (reason : Nat) (handle : Option Nat) : State :=
  match src with
  | .host h =>
    let s := s.setGe (0x1000 * h + 0x10) (handle.getD 0)
    s.setGe (0x1000 * h + 8) ((if handle.isSome then 2 else 3) * 2 ^ 62 + (if handle.isSome then 0 else reason) * 2 ^ 48)
  | .launch u i l _ d skip frames =>
    let v := handle.getD (2 ^ 63 + reason)
    let put (x : Slice) (n w : Nat) : Slice :=
      if !skip.contains n && (mget x.names n).isSome then x.putReg n (BitVec.ofNat 4 (2 ^ l)) (fun _ => BitVec.ofNat 32 w) else x
    let s := s.modSlice u i (fun x => put (put x d v) (d + 1) (v / 2 ^ 32))
    foldS (fun (f : Nat × List Nat) s =>
      foldS (fun (p : Nat × Nat) s => if f.2.contains p.1 then s else s.frameReg u i f.1 p.1 l p.2) [(d, v), (d + 1, v / 2 ^ 32)] s) frames s
  | .port p _ pseq => s.setGe (portOff p + 0x18) pseq

/-- A refusal has no effect beyond its answer and its report (R70). -/
def State.refuse (s : State) (src : Source) (reason stream tag : Nat) : State :=
  (s.answer src reason none).report src 3 reason stream tag 0 0

/-- The lowest free entry of the ready pool. -/
def freeSlot (ts : Map Task) : Nat := ((List.range 65536).find? (fun i => ts.all (fun p => p.2.slot != i))).getD 0

/-- An accepted task enters the ready pool (R70, R72). -/
def State.enter (s : State) (b : Submission) (card : List DWord) (foots : List Foot) (preds : List Nat) : State :=
  let k0 := cardTask card
  let k : Task := { serial := s.serial, slot := freeSlot s.tasks, card := card, asid := b.asid, src := b.src, foots := foots,
                    edges := s.newEdges b.src k0.stream foots preds, left := k0.nteam }
  let s := { s with tasks := mset s.tasks k.serial k, serial := s.serial + 1, everAccepted := true, passDue := true }
  (s.answer b.src 0 (some k.handle)).report b.src 1 0 k.stream k.tag k.handle 0

/-- TASK_ACCEPT: the graph engine answers the submission that reached it first. DESIGN CHOICE (log 139): it reads the card and its lists in
this one step, so no mix of old and new words is read, which R71 leaves open where software writes them during acceptance. -/
def State.taskAccept (s : State) : State :=
  match s.subs with
  | [] => s
  | b :: rest =>
    match s.judge b with
    | .hold k c va => s.geHold .accept b.asid k c va accRead
    | .refuse reason stream tag => (({ s with subs := rest }).geForget .accept).refuse b.src reason stream tag
    | .accept card foots preds => (({ s with subs := rest }).geForget .accept).enter b card foots preds

/-! ## Submission from the host complex and the ports (R77, R79, R80, R86 to R89) -/

/-- SUBADDR_WRITE (R80). -/
def State.subaddrWrite (s : State) (h : Nat) (addr : DWord) : State :=
  if 32 ≤ h ∨ !s.mgmt.started ∨ bits (s.ge (0x1000 * h + 8)) 63 62 = 1 then s
  else
    let b : Submission := { src := .host h, asid := bits (s.ge (0x1000 * h + 0x18)) 15 0, addr := bits addr.toNat 56 0 }
    ({ s with subs := s.subs ++ [b] }).setGe (0x1000 * h + 8) (2 ^ 62)

/-- HOSTDONE (R77). -/
def State.hostdone (s : State) (handle : DWord) : State :=
  match s.byHandle handle.toNat with
  | none => s
  | some k =>
    if k.cls = 1 ∧ k.started ∧ k.left ≠ 0 ∧ k.ending.isNone then
      { s with tasks := mupd s.tasks k.serial (fun k => { k with left := k.left - 1 }), hostCalls := if k.left = 1 then s.hostCalls.filter (fun c => c.1 != k.serial) else s.hostCalls }
    else s

/-- The fields of an endpoint that apply (R87). -/
def epFields (ep : Nat) : Nat × Nat × Nat := if bitAt ep 63 then (1, bits ep 51 36, bits ep 35 16) else (0, bits ep 40 40, bits ep 31 0)

/-- The port configured for an endpoint: of several the lowest (log 107). -/
def State.portOf (s : State) (ep : Nat) : Option Nat :=
  (List.range 16).find? (fun p => bitAt (s.ge (portOff p)) 63 && epFields (s.ge (portOff p + 8)) == epFields ep)

/-- Discard a packet: the counter of its port, or DISCX (R86, R87). -/
def State.discard (s : State) (port : Option Nat) : State :=
  let off := match port with | some p => portOff p | none => 0x20400
  let v := s.ge off
  s.setGe off (setBits v 31 0 (satInc 32 (bits v 31 0)))

/-- LAUNCH_PACKET: the packet reaches the graph engine, which answers it in its turn (R89). -/
def State.launchPacket (s : State) (p : LaunchPkt) : State :=
  let ep := setBits p.ep.toNat 63 63 (bit01 p.xport)
  match s.portOf ep with
  | none => s.discard none
  | some n =>
    if !p.intact ∨ !s.feature 6 ∨ s.mgmt.life ≠ .deployed then s.discard (some n)
    else
      let src := Source.port n (p.head.getD 1 0) (bits (p.head.getD 0 0).toNat 31 0)
      { s with subs := s.subs ++ [{ src := src, asid := bits (s.ge (portOff n)) 47 32, addr := 0, card := some p.card, head := p.head }] }

/-- A write to word 0x00 of a port: DISC is W1C; V from 0 to 1 clears LASTSEQ, ASID is held while V = 1 (R87). -/
def State.portWrite (s : State) (p : Nat) (val : Nat) : State :=
  let old := s.ge (portOff p)
  let disc := bits old 31 0 &&& (2 ^ 32 - 1 - bits val 31 0)
  let asid := if bitAt old 63 then bits old 47 32 else bits val 47 32
  let s := s.setGe (portOff p) (bit01 (bitAt val 63) * 2 ^ 63 + asid * 2 ^ 32 + disc)
  if bitAt val 63 && !bitAt old 63 then s.setGe (portOff p + 0x18) 0 else s

/-- LAUNCH_PORT_CONFIGURE: a write that sets V from 0 to 1. -/
def State.portConfigure (s : State) (p : Nat) (val : DWord) : State :=
  if p < 16 ∧ !bitAt (s.ge (portOff p)) 63 ∧ bitAt val.toNat 63 then s.portWrite p val.toNat else s
/-- LAUNCH_PORT_UNCONFIGURE: a write that clears V. -/
def State.portUnconfigure (s : State) (p : Nat) (val : DWord) : State :=
  if p < 16 ∧ bitAt (s.ge (portOff p)) 63 ∧ !bitAt val.toNat 63 then s.portWrite p val.toNat else s

/-! ## The kill of a task (R487) -/

/-- TKILL: ignored for no task and once the task-end release has begun. -/
def State.tkill (s : State) (handle : DWord) : State :=
  match s.byHandle handle.toNat with
  | none => s
  | some k =>
    if k.ending.isSome then s
    else
      let s := s.abortTask k.serial (fun k => { k with killed := true, left := if k.cls = 1 then k.nteam - k.next else k.left })
      { s with hostCalls := s.hostCalls.filter (fun c => c.1 != k.serial), passDue := true }

/-! ## LAUNCH (R81 to R83) -/

/-- LAUNCH: the release, and a submission of each acting lane in ascending %lane order. -/
def bodyLaunch (r : Raw) (s : State) : State :=
  let ready (a : Issuer) : Bool := s.room a r && !s.unperformed a s.nextId
  let t := eachSlice s r (fun u i m t =>
    let a := Issuer.slice u i
    if !t.room a r then t.trapOne a kIllegal cRegspace 0 0 m
    else
      let (ok, t) := t.release a 5
      if ok then ((t.publishSlice u i).mapDests a r m).advance a r.len.bytes else t.setWait a .stores)
  let new := ((s.actingLanes r.x).filter (fun p => ready p.1)).filterMap (fun p =>
    match p.1 with
    | .slice u i =>
      let task := match s.team u with | some v => v.task | none => 0
      some ({ src := .launch u i p.2 task r.x.d.toNat [] [], asid := s.asidOf u, addr := s.srcA p.1 r 0 p.2 } : Submission)
    | .ctx _ => none)
  { t with subs := t.subs ++ new }

/-! ## NWAIT (R84) -/

/-- The status of a lane: none while the named task has not ended. `early` lanes named a task when the NWAIT issued. -/
def State.nwStatus (s : State) (a : Issuer) (r : Raw) (early : Option Mask) (l : Nat) : Option Nat :=
  let h := s.srcA a r 0 l
  let own := match s.taskOf (s.teamOf a) with | some k => k.handle == h | none => false
  if own then some 3
  else match early with
    | some m => if !m.getLsbD l then some 1 else if (s.byHandle h).isSome then none else some 0
    | none => if (s.byHandle h).isSome then none else some 1

/-- NWAIT and NWAIT.t on one slice. -/
def State.nwaitOne (s : State) (r : Raw) (u i : Nat) (m : Mask) : State :=
  let a := Issuer.slice u i
  let early := (s.sl u i).nwTok
  let st := s.nwStatus a r early
  let open_ := m &&& maskOf (fun l => (st l).isNone)
  if !s.room a r then s.trapOne a kIllegal cRegspace 0 0 m
  else if r.x.b = 0 ∧ open_ ≠ 0 then
    let on := (maskList open_).map (fun l => BitVec.ofNat 64 (s.srcA a r 0 l))
    s.modSlice u i (fun x => { x with nwTok := some (early.getD open_), wait := .nwait, nwOn := on })
  else if open_ ≠ m ∧ s.readsOut a then
    (s.modSlice u i (fun x => { x with nwTok := some (early.getD open_) })).setWait a .stores
  else
    let t := if open_ = m then s else s.acquire (s.coreOf a) 5
    t.commit r a m .reg (fun l => { val := (st l).getD 2 })

/-- NWAIT. -/
def bodyNwait (r : Raw) (s : State) : State := eachSlice s r (fun u i m t => t.nwaitOne r u i m)

/-! ## The meanings -/

def execLaunch (b : Base) (s : State) : Host.Outcome State Fault Refusal := issue (.base .launch b) s (bodyLaunch (.base .launch b))
def execLaunchExt (x : Ext) (s : State) : Host.Outcome State Fault Refusal := issue (.ext .launch x) s (bodyLaunch (.ext .launch x))
def execNwait (b : Base) (s : State) : Host.Outcome State Fault Refusal := issue (.base .nwait b) s (bodyNwait (.base .nwait b))
def execNwaitT (b : Base) (s : State) : Host.Outcome State Fault Refusal := issue (.base .nwait b) s (bodyNwait (.base .nwait b))
def execNwaitExt (x : Ext) (s : State) : Host.Outcome State Fault Refusal := issue (.ext .nwait x) s (bodyNwait (.ext .nwait x))

def execTaskAccept (s : State) : Host.Outcome State Fault Refusal := .next s.taskAccept
def execSubaddrWrite (host : Nat) (addr : DWord) (s : State) : Host.Outcome State Fault Refusal := .next (s.subaddrWrite host addr)
def execHostdone (_host : Nat) (handle : DWord) (s : State) : Host.Outcome State Fault Refusal := .next (s.awake (s.hostdone handle))
def execLaunchPacket (p : LaunchPkt) (s : State) : Host.Outcome State Fault Refusal := .next (s.awake (s.launchPacket p))
def execLaunchPortConfigure (port : Nat) (val : DWord) (s : State) : Host.Outcome State Fault Refusal := .next (s.awake (s.portConfigure port val))
def execLaunchPortUnconfigure (port : Nat) (val : DWord) (s : State) : Host.Outcome State Fault Refusal := .next (s.awake (s.portUnconfigure port val))
def execTkill (handle : DWord) (s : State) : Host.Outcome State Fault Refusal := .next (s.awake (s.tkill handle))

end Sys2Proof.Machine
end

