-- ==== Sys2Proof/Machine/Reduce.lean ====
section
/-!
DEFINITION. The steps of a reduction tree over members (R394): Leaf, Combine and Finish, their draws (R232, R403), and the
results that splices and hitches share.
-/
namespace Sys2Proof.Machine

/-- The bits of SP (R399): PINF, NINF, NAN, SNAN, INV. -/
def spOf (x : Num) : BitVec 5 :=
  BitVec.ofNat 5 (bit01 (x.isInf && !x.neg) + 2 * bit01 (x.isInf && x.neg) + 4 * bit01 x.isNaN + 8 * bit01 x.isSNaN)

/-- A value in the container of the accumulator: of a format, or an EXACT cell. -/
def afEncode (af : Option Fmt) (x : Num) : Nat × Flags := match af with | some f => (f.encode x, .none) | none => exactEncode x
def afDecode (af : Option Fmt) (v : Nat) : Num := match af with | some f => f.decode v | none => exactDecode v

/-- Leaf with y = ONE (R394). -/
def leafOne (c : Contract) (f : Fmt) (is64 : Bool) (e : Nat) : Partial :=
  let af := accFormat c is64
  let (x, f1) := flushIn c (some f) (f.decode e)
  let v := if x.isFinite then x else .zero false
  let (v, f2) := match af with | some g => if c.gr then roundTo g v c.rim 0 else (v, .none) | none => (v, .none)
  let (w, f3) := afEncode af v
  { val := w, pos := v.isZero && !v.neg, fnan := if x.isNaN then e else 0, sp := spOf x, fl := (f1 ||| f2 ||| f3).setWidth 5 }

/-- Combine (R394, R52): l covers the lower members. -/
def combineParts (c : Contract) (is64 : Bool) (l r : Partial) : Partial :=
  let af := accFormat c is64
  let a := afDecode af l.val
  let b := afDecode af r.val
  let (v, f1) := match af with | some f => addRound f a b c.rim | none => (sumFin [a, b] .rne, Flags.none)
  let (w, f2) := match af with | some f => (f.encode v, Flags.none) | none => exactEncode v
  { val := w, pos := l.pos && r.pos, fnan := if l.sp.getLsbD 2 then l.fnan else r.fnan, sp := l.sp ||| r.sp,
    fl := l.fl ||| r.fl ||| (f1 ||| f2).setWidth 5 }

/-- Finish at the root (R394). The value enters as ContractTree's sum with its initial +0 does (R50, R54). A special result has the
flags of R55 alone: the roundings of Leaf and Combine are none that R55 performs (log 13). -/
def finishPart (c : Contract) (f : Fmt) (is64 : Bool) (p : Partial) (rm draw : Nat) : Nat × Flags :=
  let af := accFormat c is64
  let fm := Contract.mode c rm
  if p.sp ≠ 0 then
    let (v, fl) :=
      if p.sp.getLsbD 4 || (p.sp.getLsbD 0 && p.sp.getLsbD 1) then (f.canonNaN, Flags.nv)
      else if p.sp.getLsbD 2 then
        (if c.nan then nanTo f (f.decode p.fnan) else (f.canonNaN, Flags.when (p.sp.getLsbD 3) .nv ||| f.canonFlags))
      else (.inf (p.sp.getLsbD 1), .none)
    (f.encode v, fl)
  else
    let v := afDecode af p.val
    let (v, f1) := match af with
      | some g => addRound g (.zero false) v c.rim
      | none => (if v.isZero then .zero (decide (fm = .rdn) && !p.pos) else v, Flags.none)
    let (d, f2) := finishSum c (.fmt f) v fm draw
    (f.encode d, f1 ||| f2 ||| p.fl.setWidth 6)

/-- The draw of an element of a reduction stream (R232). -/
def reduceDraw (c : Contract) (seed : DWord) (obj seq e : Nat) : Nat :=
  srDraw c.srv seed 0 (BitVec.ofNat 64 (2 ^ 62 + obj)) (BitVec.ofNat 64 (seq % 2 ^ 40 * 2 ^ 24 + e % 2 ^ 24))

/-- The exponent histogram of elements of a format (R234, R235): 68 counters. -/
def histBytes (f : Fmt) (es : List Nat) : List Byte :=
  let offs := es.map (fun e => histOffset (f.decode e))
  (List.range 68).flatMap (fun i => toBytes 4 (min ((offs.filter (· == 4 * i)).length) (2 ^ 32 - 1)))

/-- Elements packed little-endian, and back. -/
def elemBytes (n : Nat) (es : List Nat) : List Byte := es.flatMap (toBytes n)
def bytesElems (n : Nat) (bs : List Byte) (count : Nat) : List Nat := (List.range count).map (fun i => ofBytes ((bs.drop (n * i)).take n))

/-- The pieces of a range in pages, from any address. -/
def rangePages (a n : Nat) : List (Nat × Nat) := pagePieces (n / 4096 + 2) a n

end Sys2Proof.Machine
end

