-- ==== Sys2Proof/Machine/Splice.lean ====
section
/-!
DEFINITION. The fabric and splices (chapter 22): SPLICE, the combining steps at pool nodes and endpoint reducers, the ends of
a splice, cells and flows, and links.
-/
namespace Sys2Proof.Machine

/-! ## Communicator records and route entries (R392 to R396) -/

/-- A register of a communicator record. -/
def State.comm (s : State) (slot off : Nat) : Nat := s.ge (0x38000 + 64 * slot + off)
def State.commContract (s : State) (slot : Nat) : Option Contract := Config.contract? (bits (s.comm slot 8) 11 0)
def State.commMembers (s : State) (slot : Nat) : Nat := bits (s.comm slot 0) 9 0 + 1

/-- The plan in force for a sequence number (R396): its number, pool-node mask and member map. -/
def State.planOf (s : State) (slot seq : Nat) : Nat × Nat × Nat :=
  if bits (s.comm slot 0x30) 63 24 ≤ seq then (bits (s.comm slot 0x30) 15 0, bits (s.comm slot 0x28) 35 0, bits (s.comm slot 0x38) 56 0)
  else (bits (s.comm slot 0x18) 15 0, bits (s.comm slot 0x18) 51 16, bits (s.comm slot 0x20) 56 0)

def entryOpc (e : DWord) : Nat := bits e.toNat 63 60
def entryNode (e : DWord) : Nat := bits e.toNat 59 54
def entryPkg (e : DWord) : Nat := bits e.toNat 53 45
def entryLo (e : DWord) : Nat := bits e.toNat 44 35
def entryHi (e : DWord) : Nat := bits e.toNat 34 25
/-- The location a route entry names. -/
def entryLoc (e : DWord) : SpliceLoc := if entryOpc e = 1 then .node (entryNode e) else .endpoint (entryPkg e)

/-- R69, R396, R490: an entry whose node may not combine, or whose splice class lacks the contract, goes to the endpoint. -/
def State.rewrite (s : State) (contract mask : Nat) (e : DWord) : DWord :=
  if entryOpc e = 1 ∧ (!bitAt mask (entryNode e) || !s.nodeAtt (entryNode e) || s.nodeClass (entryNode e) contract == 0 || !s.feature 3) then
    BitVec.ofNat 64 (setBits e.toNat 63 60 2)
  else e

/-- The members' contribution format of a TYPE code. -/
def spliceFmt (ty : Nat) : Fmt := (fmtOfTy ty).getD fp32
def spliceBytes (ty : Nat) : Nat := (spliceFmt ty).width / 8

/-! ## The ends of a splice (R401) -/

/-- Bytes that a splice's completion counts. -/
def Splice.bytes (p : Splice) : Nat := p.count * spliceBytes p.ty + 16 + (if p.hist.isSome then 272 else 0)

/-- The completion record. -/
def statBytes (seq ep nd err cause : Nat) (fl : Nat) : List Byte :=
  wordsToBytes [err % 2 ^ 16 * 2 ^ 16 + cause * 2 ^ 8 + fl % 32, seq % 2 ^ 40 * 2 ^ 24 + ep % 256 * 2 ^ 8 + nd % 256]

/-- Results for a team that halts, is away, or is restored are held (R402). -/
def State.spliceHeld (s : State) (u : Nat) : Bool :=
  match s.team u with
  | some t => t.status == .saved || t.halt.isSome || t.slices.any (fun p => p.2.restoring)
  | none => false

/-- Every splice but one issued. -/
def State.dropSplice (s : State) (p : Splice) : State := { s with splices := s.splices.filter (· != p) }

/-- The ends without result: a second contribution, which is dropped, and a source that is poisoned (R401, R456). The others are the causes
of R401. -/
def endDrop : Nat := 0
def endPoison : Nat := 7

/-- The bytes that a splice's end without result counts: a drop writes STAT alone, and the results that have come are counted already. -/
def Splice.rest (p : Splice) (cause : Nat) : Nat :=
  if cause = endDrop then 16 else p.bytes - (p.got.map (fun (g : Nat × List Nat) => g.2.length)).sum * spliceBytes p.ty

/-- An end without result: STAT receives ERR, and the arrival word faults and counts what it still expected. A poisoned source is the fault
of a cell that moves nothing, not STAT's included (R307, R456). -/
def State.spliceFail (s : State) (p : Splice) (cause : Nat) : State :=
  let s := if cause = endPoison then s else s.scrWrite p.team p.stat (statBytes p.seq 0 0 (if cause = endDrop then 2 else 1) cause 0)
  (s.awUpdate (some (p.team, p.daw)) (fun w => w.faulted (if cause = endPoison then 0x10 else 0x50))).awUpdate (some (p.team, p.daw)) (fun w => w.deliver (p.rest cause))

/-- A splice whose end the package has: a notice is held for it, or all its results are (R402). -/
def Splice.ended (p : Splice) : Bool :=
  p.words.any (fun w => w.kind != 3) ||
    decide (p.count ≤ (p.got.map (fun (g : Nat × List Nat) => g.2.length)).sum + (p.words.map (fun (w : SpliceMsg) => w.elems.length)).sum)

/-- The notice of an end without result, to the member itself. -/
def Splice.notice (p : Splice) (cause : Nat) : SpliceMsg :=
  { dest := .member p.member, kind := 0, ty := BitVec.ofNat 5 p.ty, comm := p.comm, seq := p.seq, plan := 0, slot := p.slot, lo := p.member,
    hi := p.member, route := [], elems := [], recs := [], rm := 0, epsteps := 0, ndsteps := 0, flags := BitVec.ofNat 6 cause }

/-- A splice ends without result at a member of this package; the word of it to a team that halts is held, and the first stands (R401, R402). -/
def State.spliceStop (s : State) (cause : Nat) (p : Splice) : State :=
  if p.ended then s
  else if s.spliceHeld p.team then { s with splices := s.splices.map (fun x => if x == p then { x with words := [x.notice cause] } else x) }
  else (s.dropSplice p).spliceFail p cause

/-- A contribution that starts no splice: the word of it to a team that halts is held (R401, R402). -/
def State.spliceShut (s : State) (cause : Nat) (p : Splice) : State :=
  if s.spliceHeld p.team then { s with splices := s.splices ++ [{ p with words := [p.notice cause] }] } else s.spliceFail p cause

/-- A splice is aborted: every location drops it, other packages are told, and the members here end (R401). -/
def State.spliceAbort (s : State) (comm seq cause : Nat) : State :=
  let mine := s.splices.filter (fun p => p.comm == comm && p.seq == seq)
  let s := { s with forming := s.forming.filter (fun f => !(f.comm == comm && f.seq == seq)),
                    flying := s.flying.filter (fun m => !(m.comm == comm && m.seq == seq)), outbox := s.outbox ++ [.abort comm seq cause] }
  foldS (fun p s => s.spliceStop cause p) mine s

/-- A splice with a further part of its result; of one index the first part stands. -/
def Splice.take (p : Splice) (m : SpliceMsg) : Splice :=
  if p.got.any (fun g => g.1 == m.first) ∨ p.count ≤ m.first then p
  else { p with got := p.got ++ [(m.first, m.elems.take (p.count - m.first))], fl := p.fl ||| m.flags.setWidth 5 }

/-- A result reaches its member: DST receives its elements, and with the last of them the splice completes (R398, R401). -/
def State.spliceDone (s : State) (p : Splice) (m : SpliceMsg) : State :=
  let eb := spliceBytes p.ty
  let q := p.take m
  let sum : Nat := (q.got.map (fun (g : Nat × List Nat) => g.2.length)).sum
  let es := m.elems.take (p.count - m.first)
  if q = p then s
  else
   let s := s.scrWrite p.team (p.dst + eb * m.first) (elemBytes eb es)
   if sum < p.count then
    ({ s with splices := s.splices.map (fun x => if x == p then q else x) } : State).awUpdate (some (p.team, p.daw)) (fun w => w.deliver (eb * es.length))
   else
    let s := (s.dropSplice p).scrWrite p.team p.stat (statBytes p.seq m.epsteps m.ndsteps 0 0 q.fl.toNat)
    let s := match p.hist with | some h => s.scrWrite p.team h (histBytes (spliceFmt p.ty) (q.got.flatMap (fun (g : Nat × List Nat) => g.2))) | none => s
    s.awUpdate (some (p.team, p.daw)) (fun w => w.deliver (p.rest 1))

/-! ## Messages (R395, R398) -/

/-- The contract of a communicator accumulates exactly, so that its partial records hold EXACT cells (R399). -/
def State.exactParts (s : State) (m : SpliceMsg) : Bool := match s.commContract m.slot with | some c => (accFormat c (m.ty == 13)).isNone | none => false

/-- A partial record, and back (R399). What a record does not say is open: the container field of an EXACT record, and whether an exact
zero has only +0 addends. -/
def partBytes (exact : Bool) (n : Nat) (p : Partial) : List Byte :=
  (if exact then toBytes 128 (p.val % 2 ^ 992) ++ lineBytes (Config.openPayload n) 0 8 else toBytes 8 p.val) ++
    toBytes 8 p.fnan ++ toBytes 8 (p.sp.toNat * 2 ^ 8 + p.fl.toNat) ++ toBytes 8 0
def partOf (exact : Bool) (n : Nat) (bs : List Byte) : Partial :=
  let b := if exact then 128 else 0
  let w (o : Nat) : Nat := ofBytes ((bs.drop o).take 8)
  { val := if exact then ofBytes (bs.take 128) else w 0, pos := (Config.openPayload n).getLsbD 0, fnan := w (b + 8),
    sp := BitVec.ofNat 5 (bits (w (b + 16)) 12 8), fl := BitVec.ofNat 5 (bits (w (b + 16)) 4 0) }

/-- The header of a splice message (R398). -/
def headWords (m : SpliceMsg) : List Nat :=
  let route := (m.route.take 8).map (·.toNat)
  let n := if m.kind = 2 then m.recs.length else m.elems.length
  [ m.comm % 2 ^ 32 * 2 ^ 32 + m.kind.toNat * 2 ^ 5 + m.ty.toNat, m.seq % 2 ^ 40 * 2 ^ 24 + m.first % 2 ^ 24,
    m.lo % 2 ^ 10 * 2 ^ 54 + m.hi % 2 ^ 10 * 2 ^ 44 + route.length * 2 ^ 40 + m.plan % 2 ^ 16 * 2 ^ 24 + n % 2 ^ 24, 0 ] ++
    route ++ List.replicate (12 - route.length) 0

/-- The payloads of a splice message: the header cell, then its elements or records (R398). -/
def State.splicePayloads (s : State) (m : SpliceMsg) (n : Nat) : List (BitVec 1024) :=
  let bs := if m.kind = 2 then m.recs.flatMap (partBytes (s.exactParts m) n) else elemBytes (spliceBytes m.ty.toNat) m.elems
  payloadsOf n 1 (wordsToBytes (headWords m)) ++ payloadsOf n (bs.length / 128 + 1) bs

/-- The flow of a splice's messages on a link. -/
def State.spliceKey (s : State) (slot link : Nat) : Nat :=
  Sys2Proof.Machine.spliceKey (bits (s.comm slot 8) 31 16) link

/-- The flow of a link that a splice's messages use is closed: it carries that number, or a cell of the splice class in the domain closed it
there (R388; log 71). -/
def State.spliceClosed (s : State) (slot link : Nat) : Bool :=
  s.flowClosed (s.spliceKey slot link) ||
    s.flows.any (fun p => p.2.closed && p.2.cls == 2 && p.2.link == link && p.1 / 2 ^ 20 == bits (s.comm slot 8) 31 16)

/-- A message is bound for this package: its endpoint reducers, or a member of it that waits. -/
def State.spliceHere (s : State) (m : SpliceMsg) : Bool := match m.dest with
  | .at (.node _) => false
  | .at (.endpoint k) => k == s.pkgId
  | .member i => s.splices.any (fun p => p.comm == m.comm && p.seq == m.seq && p.member == i)

/-- A message sets out from where it was formed: to a place that the model holds, or to another package. What this package sends
elsewhere goes in cells over the link of pool node `via` (R395, R398). -/
def State.sendSplice (s : State) (src : SpliceLoc) (via : Nat) (m : SpliceMsg) : State :=
  let here := s.spliceHere m
  let held : Bool := match m.dest with | .at (.node _) => true | _ => here
  let fly (s : State) : State := if held then { s with flying := s.flying ++ [m] } else s
  match src with
  | .node k =>
    if here ∧ !s.nodeUp k then s.spliceAbort m.comm m.seq 1
    else if here ∧ s.spliceClosed m.slot k then s.spliceAbort m.comm m.seq 3
    else if held then fly s else s.spliceTold (some m)
  | .endpoint _ =>
    if here then fly s
    else if s.spliceClosed m.slot via then s.spliceAbort m.comm m.seq 3
    else (fly s).sendOpen (fun n => { link := via, cls := 2, flow := s.spliceKey m.slot via, body := s.splicePayloads m n, splice := if held then none else some m })

/-- The records of a message: a leaf's elements become Leaf records. -/
def msgParts (m : SpliceMsg) (c : Contract) : List Partial :=
  if m.kind = 1 then m.elems.map (leafOne c (spliceFmt m.ty.toNat) (m.ty == 13)) else m.recs

/-- Two vectors of records, element by element. -/
def combineAll (c : Contract) (is64 : Bool) : List Partial → List Partial → List Partial
  | a :: as, b :: bs => combineParts c is64 a b :: combineAll c is64 as bs
  | _, _ => []

/-- The records of a tree node from the messages that cover it, bottom-up in the splits of R394; none when they do not
tile it. -/
def formNode (c : Contract) (is64 : Bool) (ms : List SpliceMsg) : Nat → Nat → Nat → Option (List Partial)
  | 0, _, _ => none
  | n + 1, lo, hi =>
    match ms.find? (fun m => m.lo == lo && m.hi == hi) with
    | some m => some (msgParts m c)
    | none =>
      if hi ≤ lo then none
      else
        let h := 2 ^ Nat.log2 (hi - lo)
        match formNode c is64 ms n lo (lo + h - 1), formNode c is64 ms n (lo + h) hi with
        | some l, some r => some (combineAll c is64 l r)
        | _, _ => none

/-- [lo, hi] is a tree node below [a, b]. -/
def isTreeNode (lo hi : Nat) : Nat → Nat → Nat → Bool
  | 0, _, _ => false
  | n + 1, a, b =>
    (a == lo && b == hi) || (decide (a < b) && (
      let h := 2 ^ Nat.log2 (b - a)
      if hi < a + h then isTreeNode lo hi n a (a + h - 1) else isTreeNode lo hi n (a + h) b))

/-- The results of the root, and their flags. -/
def rootResults (c : Contract) (seed : DWord) (m : SpliceMsg) (ps : List Partial) : List (Nat × Flags) :=
  (ps.zip (List.range ps.length)).map (fun p =>
    finishPart c (spliceFmt m.ty.toNat) (m.ty == 13) p.1 m.rm.toNat (reduceDraw c seed m.comm m.seq (m.first + p.2)))

/-- A location has formed a tree node from its messages: the root finishes and answers every member, another node sends the
partial on. -/
def State.stepFormed (s : State) (c : Contract) (f : Forming) (via : Nat) (m : SpliceMsg) (ps : List Partial) : State :=
  let node := match f.loc with | .node _ => true | .endpoint _ => false
  let ep := (f.msgs.map (·.epsteps)).sum + bit01 (!node)
  let nd := (f.msgs.map (·.ndsteps)).sum + bit01 node
  let n := s.commMembers m.slot
  if f.lo = 0 ∧ f.hi = n - 1 then
    let rs := rootResults c (s.reg (geBase + 0x38000 + 64 * m.slot + 0x10)) m ps
    let out : SpliceMsg := { m with kind := 3, lo := f.lo, hi := f.hi, route := [], elems := rs.map (·.1), recs := [], epsteps := ep, ndsteps := nd,
                                    flags := Sys2Proof.Machine.orFlags (rs.map (·.2)) }
    foldS (fun i s => s.sendSplice f.loc via { out with dest := .member i }) (List.range n) s
  else match m.route with
    | [] => s.spliceAbort m.comm m.seq 4
    | e :: _ => s.sendSplice f.loc (entryNode e) { m with dest := .at (entryLoc e), kind := 2, lo := f.lo, hi := f.hi, elems := [], recs := ps, epsteps := ep, ndsteps := nd }

/-- A location takes a combine: a pool node needs the domain's key and a splice class for the contract (R396). -/
def State.spliceTakes (s : State) (l : SpliceLoc) (slot : Nat) : Bool := match l with
  | .node n => s.nodeTakes n (bits (s.comm slot 8) 31 16) (bits (s.comm slot 8) 11 0)
  | .endpoint _ => true

/-- A message reaches a combining location (R395, R396, R401). -/
def State.spliceArrive (s : State) (l : SpliceLoc) (m : SpliceMsg) : State :=
  match s.commContract m.slot, m.route with
  | none, _ => s.spliceAbort m.comm m.seq 2
  | _, [] => s.spliceAbort m.comm m.seq 4
  | some c, e :: rest =>
    if !s.spliceTakes l m.slot then s.spliceAbort m.comm m.seq 2 else
    let lo := entryLo e
    let hi := entryHi e
    let m := { m with route := rest }
    let old := (s.forming.find? (fun f => f.loc == l && f.comm == m.comm && f.seq == m.seq && f.lo == lo && f.hi == hi && f.first == m.first)).getD
      { loc := l, comm := m.comm, seq := m.seq, lo := lo, hi := hi, since := s.ioCyc, msgs := [], first := m.first }
    if old.msgs.any (fun x => x.lo == m.lo && x.hi == m.hi) then s
    else if !isTreeNode m.lo m.hi 11 lo hi || old.msgs.any (fun x => x.plan != m.plan || x.ty != m.ty || (msgParts x c).length != (msgParts m c).length || (decide (x.lo ≤ m.hi) && decide (m.lo ≤ x.hi))) then
      s.spliceAbort m.comm m.seq 4
    else
      let f := { old with msgs := old.msgs ++ [m] }
      let others := s.forming.filter (· != old)
      match formNode c (m.ty == 13) f.msgs 11 lo hi with
      | none => { s with forming := others ++ [f] }
      | some ps =>
        let first := f.msgs.foldl (fun a x => if x.lo < a.lo then x else a) m
        ({ s with forming := others }).stepFormed c f (entryNode e) first ps

/-- A message can arrive: its cells have set out, or the link that brings one from outside is up (R390). A message from another package
to a pool node uses no link of this one. -/
def State.spliceWay (s : State) (m : SpliceMsg) : Bool :=
  match s.flying.contains m, m.dest with
  | true, .at (.node n) => !s.toSend.any (fun x => x.link == n && x.flow == s.spliceKey m.slot n)
  | false, .at (.endpoint _) => (match m.route with | e :: _ => s.nodeUp (entryNode e) | [] => true)
  | false, .member _ => (List.range 36).any s.nodeUp
  | _, _ => true

/-- A word that the package holds for a splice's member is delivered, once its team no longer halts (R402). -/
def State.spliceWord (s : State) (p : Splice) (m : SpliceMsg) : State :=
  if s.spliceHeld p.team then s
  else
    let q := { p with words := p.words.erase m }
    if m.kind = 3 then ({ s with splices := s.splices.map (fun x => if x == p then q else x) } : State).spliceDone q m
    else (s.dropSplice p).spliceFail q m.flags.toNat

/-- SPLICE_MESSAGE: a message reaches a location, or a result or the notice of an abort its member. One that cannot arrive
now stays on its way, and a result for a member that halts is held (R402). -/
def State.spliceMessage (s : State) (m : SpliceMsg) : State :=
  match s.splices.find? (fun p => p.words.contains m) with
  | some p => s.spliceWord p m
  | none =>
    let rest := { s with flying := s.flying.erase m }
    if !s.spliceWay m then s
    else match m.dest with
      | .at l => if (match l with | .endpoint k => k == s.pkgId | .node _ => true) then rest.spliceArrive l m else rest
      | .member i =>
        match s.splices.find? (fun p => p.comm == m.comm && p.seq == m.seq && p.member == i && !p.ended) with
        | none => rest
        | some p =>
          if m.kind ≠ 3 then rest.spliceAbort m.comm m.seq m.flags.toNat
          else if s.spliceHeld p.team then { rest with splices := rest.splices.map (fun x => if x == p then { x with words := x.words ++ [m] } else x) }
          else rest.spliceDone p m

/-- SPLICE_STEP_TIMEOUT (R397). -/
def State.spliceTimeout (s : State) (l : SpliceLoc) (comm seq lo hi : Nat) : State :=
  let lim := bits (s.ge 0x34200) 31 0
  match s.forming.find? (fun f => f.loc == l && f.comm == comm && f.seq == seq && f.lo == lo && f.hi == hi) with
  | none => s
  | some f => if lim = 0 ∨ s.ioCyc < f.since + 1024 * lim then s else s.spliceAbort comm seq 5

/-! ## SPLICE (R400) -/

/-- What the issue of a lane comes to: a trap, a fault to wait on, or its splice with its contribution and plan. -/
inductive SpliceWant where
  | trap (kind cause va : Nat)
  | hold (kind cause va : Nat)
  | go (p : Splice) (plan : Nat) (elems : List Nat)

/-- The member entry of a team in a map (R393). -/
def State.memberEntry (s : State) (g : GeUser) (asid map tag team pkg : Nat) : Nat → Nat → GeRes (Option Nat)
  | 0, _ => .ok none
  | n + 1, m =>
    match s.geWords g asid (map + 128 * m) 2 with
    | .fault => .fault
    | .hold a b c => .hold a b c
    | .ok ws =>
      let w0 := ws.getD 0 0
      if bits w0 31 0 = tag ∧ bits w0 63 55 = pkg ∧ bits (ws.getD 1 0) 23 0 = team then .ok (some m)
      else State.memberEntry s g asid map tag team pkg n (m + 1)

/-- The 64 bytes of a descriptor as fields. -/
def State.spliceDesc (s : State) (u off : Nat) : List Nat := bytesToWords (s.scrRead u off 64)

/-- The checks of R400 for a lane, in order. The contribution is read as a TDUMP issued here reads it (R366, R402). -/
def State.spliceLane (s : State) (a : Issuer) (r : Raw) (l : Nat) : SpliceWant :=
  let u := s.teamOf a
  let off := s.srcA a r 0 l % 2 ^ 32
  let va := 0x1FC * 2 ^ 48 + off
  let size := s.scrBytes u
  match a, s.team u, s.taskOf u with
  | .slice _ i, some t, some k =>
    if !k.cgv ∨ i / 8 ≠ k.cgidx then .trap kIllegal cNotcomm 0
    else if off % 64 ≠ 0 then .trap kAlign 0 va
    else if size < off + 64 then .trap kProt 8 va
    else
      let w := s.spliceDesc u off
      let g (n hi lo : Nat) : Nat := bits (w.getD n 0) hi lo
      let src := g 3 31 0
      let dst := g 4 31 0
      let daw := g 4 63 32
      let stat := g 5 63 32
      let hist := awOff (g 5 31 0)
      let ty := g 2 28 24
      let count := g 2 23 0
      let slot := g 2 39 32
      let seq := g 6 39 0
      let n := count * spliceBytes ty
      let out (o z : Nat) : Bool := decide (size < o + z)
      if src % 16 ≠ 0 ∨ dst % 16 ≠ 0 ∨ stat % 16 ≠ 0 ∨ daw % 16 ≠ 0 ∨ (hist.getD 0) % 16 ≠ 0 then .trap kAlign 0 va
      else if out src n || out dst n || out stat 16 || out daw 16 || (match hist with | some h => out h 272 | none => false) then .trap kProt 8 va
      else
        let rsv := w.getD 0 0 ≠ 0 ∨ w.getD 1 0 ≠ 0 ∨ w.getD 7 0 ≠ 0 ∨ g 2 63 40 ≠ 0 ∨ g 2 31 29 ≠ 0 ∨ g 3 63 32 ≠ 0 ∨ g 6 63 40 ≠ 0
        if rsv ∨ count = 0 ∨ !([13, 14, 16, 17].contains ty) ∨ !bitAt (s.comm slot 0) 63 then .trap kIllegal cDesc 0
        else
          let (plan, mask, map) := s.planOf slot seq
          match s.memberEntry (.slice u i) k.asid map k.tag t.index s.pkgId (s.commMembers slot) 0 with
          | .hold x y z => .hold x y z
          | .fault => .trap kIllegal cDesc 0
          | .ok none => .trap kIllegal cDesc 0
          | .ok (some m) =>
            match s.geWords (.slice u i) k.asid (map + 128 * m) 16 with
            | .hold x y z => .hold x y z
            | .fault => .trap kIllegal cDesc 0
            | .ok e =>
              let route := ((e.drop 8).take (bits (e.getD 1 0) 63 60)).map (fun x => s.rewrite (bits (s.comm slot 8) 11 0) mask (BitVec.ofNat 64 x))
              .go { comm := bits (s.comm slot 8) 63 32, seq := seq, slot := slot, member := m, team := u, dst := dst, stat := stat, hist := hist, daw := daw,
                    ty := ty, count := count, route := route } plan (bytesElems (spliceBytes ty) ((s.publishSlice u i).scrSeen u src n) count)
  | _, _, _ => .trap kIllegal cNotcomm 0

/-- A splice starts: one whose source is poisoned moves nothing, a second contribution is dropped, and any other sends its leaf, unless a
flow of its route is closed (R388, R401, R456). The model sends the elements of a contribution in one message (log 135). -/
def State.spliceStart (s : State) (r : Raw) (poisoned : Bool) (p : Splice) (plan : Nat) (elems : List Nat) : State :=
  if poisoned then s.spliceShut endPoison p
  else if s.spliceSeen.contains (p.comm, p.seq, p.member) then s.spliceShut endDrop p
  else
    let s := { s with splices := s.splices ++ [p], spliceSeen := s.spliceSeen ++ [(p.comm, p.seq, p.member)] }
    match p.route with
    | [] => s.spliceAbort p.comm p.seq 4
    | e :: _ => if p.route.any (fun e => s.spliceClosed p.slot (entryNode e)) then s.spliceAbort p.comm p.seq 3 else s.sendSplice (.endpoint s.pkgId) (entryNode e) {
                               dest := .at (entryLoc e), kind := 1, ty := BitVec.ofNat 5 p.ty, comm := p.comm, seq := p.seq, plan := plan, slot := p.slot,
                               lo := p.member, hi := p.member, route := p.route, elems := elems, recs := [], rm := r.x.rm, epsteps := 0, ndsteps := 0, flags := 0 }

/-- The splices of a slice's lanes, or the first trap or hold. -/
def spliceWants : List SpliceWant → Except SpliceWant (List (Splice × Nat × List Nat))
  | [] => .ok []
  | .go p n es :: r => match spliceWants r with | .ok l => .ok ((p, n, es) :: l) | .error e => .error e
  | w :: _ => .error w

/-- The source of a lane's splice is poisoned (R456). -/
def State.splicePoison (s : State) (a : Issuer) (r : Raw) (l : Nat) : Bool :=
  let u := s.teamOf a
  let w := s.spliceDesc u (s.srcA a r 0 l % 2 ^ 32)
  s.scrPoison u (bits (w.getD 3 0) 31 0) (bits (w.getD 2 0) 23 0 * spliceBytes (bits (w.getD 2 0) 28 24))

/-- SPLICE on one slice. -/
def State.spliceOne (s : State) (r : Raw) (u i : Nat) (m : Mask) : State :=
  let a := Issuer.slice u i
  match spliceWants ((maskList m).map (s.spliceLane a r)) with
  | .error (.trap k c va) => (s.geForget (.slice u i)).trapOne a k c va 0 m
  | .error (.hold k c va) => (s.geHold (.slice u i) (s.asidOf u) k c va accRead).setWait a .replay
  | .error (.go _ _ _) => s
  | .ok ps =>
    let (ok, s) := s.release a 2
    if !ok then s.setWait a .stores
    else
      let t := (foldS (fun (p : Nat × Splice × Nat × List Nat) t => t.spliceStart r (s.splicePoison a r p.1) p.2.1 p.2.2.1 p.2.2.2)
        ((maskList m).zip ps) (s.publishSlice u i)).commit r a m .none (fun _ => {})
      if (maskList m).any (s.splicePoison a r) then t.eccTeam u 2 else t

/-- SPLICE. -/
def bodySplice (r : Raw) (s : State) : State := eachSlice s r (fun u i m t => t.spliceOne r u i m)

/-! ## Links, cells and flows (R386 to R390) -/

/-- A link is trained and up, and what waited for it sets out (R390). -/
def State.linkUp (s : State) (l : Nat) : State :=
  if l < 36 then (s.setGe (0x34000 + 8 * l) (setBits (s.ge (0x34000 + 8 * l)) 3 3 1)).flushSends else s

/-- A message passes through a pool node: it is bound for it, or a step still before it stands there. -/
def msgThrough (m : SpliceMsg) (l : Nat) : Bool := m.dest == .at (.node l) || m.route.any (fun e => entryNode e == l)

/-- A link is lost: its splices are aborted, and the failure is reported (R390, R401, R492). -/
def State.linkDown (s : State) (l : Nat) : State :=
  if l < 36 ∧ s.nodeUp l then
    let s := (s.setGe (0x34000 + 8 * l) (setBits (s.ge (0x34000 + 8 * l)) 3 3 0)).tell (.linkFailure l s.ioCyc)
    let hit := List.flatten
      [ (s.flying.filter (fun m => msgThrough m l)).map (fun m => (m.comm, m.seq)),
        (s.forming.filter (fun f => f.loc == .node l || f.msgs.any (fun m => msgThrough m l))).map (fun f => (f.comm, f.seq)),
        (s.splices.filter (fun p => p.route.any (fun e => entryNode e == l))).map (fun p => (p.comm, p.seq)) ]
    foldS (fun (x : Nat × Nat) s => s.spliceAbort x.1 x.2 1) hit.eraseDups s
  else s

/-- A flow closes: the host complex is signalled, and the splices on the flow are aborted (R388, R401). -/
def State.closeFlow (s : State) (link cls k : Nat) : State :=
  let s := { s with flows := mset s.flows k { s.flow k with closed := true, part := [], link := link, cls := cls }, signals := s.signals ++ [k] }
  let hit := (s.splices.filter (fun p => bits (s.comm p.slot 8) 31 16 == k / 2 ^ 20 && p.route.any (fun e => s.spliceClosed p.slot (entryNode e)))).map (fun p => (p.comm, p.seq))
  foldS (fun (x : Nat × Nat) s => s.spliceAbort x.1 x.2 3) hit.eraseDups s

/-- The endpoint of a launch flow (R87). -/
def launchEp (k : Nat) : Nat := 2 ^ 63 + k / 2 ^ 20 * 2 ^ 36 + k % 2 ^ 20 * 2 ^ 16

/-- A message of the launch class as a packet (R88): three cells, of which the last 64 bytes are 0. One of another form is not intact, and is
discarded as one that fails the transport's check (DESIGN CHOICE, log 138: R88 says nothing of it). -/
def packetOf (k : Nat) (ps : List (BitVec 1024)) : LaunchPkt :=
  let ws := bytesToWords (ps.flatMap (fun p => lineBytes p 0 128))
  { ep := BitVec.ofNat 64 (launchEp k), xport := true, intact := ps.length == 3 && (ws.drop 40).all (· == 0),
    head := (ws.take 8).map (BitVec.ofNat 64), card := ((ws.drop 8).take 32).map (BitVec.ofNat 64) }

/-- The communicator record of a commid in a domain. -/
def State.commSlot (s : State) (comm domain : Nat) : Option Nat :=
  (List.range 256).find? (fun i => bitAt (s.comm i 0) 63 && bits (s.comm i 8) 63 32 == comm && bits (s.comm i 8) 31 16 == domain)

/-- A message of the splice class that reaches this package (R398, R399): a step for its endpoint reducers, or a result for its member
that waits. The header carries neither the rounding mode nor the counts and flags that a result reports, so those are open. -/
def State.spliceOf (s : State) (domain : Nat) (ps : List (BitVec 1024)) : Option SpliceMsg :=
  let bs := ps.flatMap (fun p => lineBytes p 0 128)
  let ws := bytesToWords (bs.take 128)
  let g (i hi lo : Nat) : Nat := bits (ws.getD i 0) hi lo
  let kind := g 0 7 5
  let comm := g 0 63 32
  let seq := g 1 63 24
  let n := g 2 23 0
  let open_ := (Config.freeWord s.opens).toNat
  match s.commSlot comm domain with
  | none => none
  | some slot =>
    let route := ((ws.drop 4).take (min 8 (g 2 43 40))).map (BitVec.ofNat 64)
    let dest : Option SpliceDest := match route with
      | e :: _ => if kind ≠ 3 ∧ entryLoc e = .endpoint s.pkgId then some (.at (.endpoint s.pkgId)) else none
      | [] => if kind = 3 then (s.splices.find? (fun p => p.comm == comm && p.seq == seq && !p.ended)).map (fun p => .member p.member) else none
    match dest with
    | none => none
    | some d =>
      if kind = 0 ∨ 3 < kind then none
      else
        let m : SpliceMsg :=
          { dest := d, kind := BitVec.ofNat 3 kind, ty := BitVec.ofNat 5 (g 0 4 0), comm := comm, seq := seq, plan := g 2 39 24, slot := slot, lo := g 2 63 54,
            hi := g 2 53 44, route := route, elems := [], recs := [], rm := BitVec.ofNat 3 open_, epsteps := bits open_ 15 8, ndsteps := bits open_ 23 16,
            flags := BitVec.ofNat 6 (bits open_ 28 24), first := g 1 23 0 }
        let body := bs.drop 128
        let ex := s.exactParts m
        let size := if ex then 160 else 32
        some (if kind = 2 then { m with recs := (List.range n).map (fun i => partOf ex (2 * s.opens + 1) ((body.drop (size * i)).take size)) }
          else { m with elems := bytesElems (spliceBytes m.ty.toNat) body n })

/-- A whole message off a link: a launch packet goes to its port, a splice message on its way, any other is kept. -/
def State.received (s : State) (link cls k : Nat) (ps : List (BitVec 1024)) : State :=
  let kept : State := { s with rx := s.rx ++ [(link, cls, ps)] }
  if cls = 3 then s.launchPacket (packetOf k ps)
  else if cls = 2 then (match s.spliceOf (k / 2 ^ 20) ps with
    | some m => { s with flying := s.flying ++ [m], opens := s.opens + 1 }
    | none => kept)
  else kept

/-- CELL_RECEIVE: a cell comes off a link (R386 to R388). A cell that fails the CRC comes again; one whose GTAG does not match is
discarded and closes its flow, and one of a launch flow is counted (R86); the last cell of a message completes it. -/
def State.cellReceive (s : State) (link : Nat) (c : Cell) : State :=
  if !c.crcOk ∨ !s.nodeUp link then s
  else
    let t := c.tag.toNat
    let cls := bits t 63 61
    let k := flowKey (bits t 59 44) (bits t 43 24)
    let f := s.flow k
    let cnt := nextCount f.last (bits t 23 0)
    if f.closed then s
    else if 2 ^ 56 ≤ cnt ∨ gtag k f.rekeys cnt (c.tag.setWidth 64) c.payload ≠ (c.tag >>> 64).setWidth 64 then
      (if cls = 3 then s.discard (s.portOf (launchEp k)) else s).closeFlow link cls k
    else
      let ps := f.part ++ [opened cls k f.rekeys cnt c.payload]
      let s := { s with flows := mset s.flows k { f with last := cnt, part := if bitAt t 60 then [] else ps } }
      if bitAt t 60 then s.received link cls k ps else s

/-- FLOW_REKEY: the host complex re-keys a closed flow, and what waited for it sets out (R388). -/
def State.flowRekey (s : State) (domain flow : Nat) : State :=
  let k := flowKey domain flow
  let f := s.flow k
  if f.closed then ({ s with flows := mset s.flows k { f with closed := false, rekeys := f.rekeys + 1 } } : State).flushSends else s

/-! ## The meanings -/

def execSplice (b : Base) (s : State) : Host.Outcome State Fault Refusal := issue (.base .splice b) s (bodySplice (.base .splice b))
def execSpliceExt (x : Ext) (s : State) : Host.Outcome State Fault Refusal := issue (.ext .splice x) s (bodySplice (.ext .splice x))

def execCellReceive (link : Nat) (cell : Cell) (s : State) : Host.Outcome State Fault Refusal := .next (s.awake (s.cellReceive link cell))
def execLinkUp (link : Nat) (s : State) : Host.Outcome State Fault Refusal := .next (s.awake (s.linkUp link))
def execLinkDown (link : Nat) (s : State) : Host.Outcome State Fault Refusal := .next (s.awake (s.linkDown link))
def execSpliceMessage (m : SpliceMsg) (s : State) : Host.Outcome State Fault Refusal := .next (s.awake (s.spliceMessage m))
def execSpliceStepTimeout (loc : SpliceLoc) (comm seq lo hi : Nat) (s : State) : Host.Outcome State Fault Refusal := .next (s.spliceTimeout loc comm seq lo hi)
def execFlowRekey (domain flow : Nat) (s : State) : Host.Outcome State Fault Refusal := .next (s.awake (s.flowRekey domain flow))

end Sys2Proof.Machine
end

