-- ==== Sys2Proof/Machine/Hitch.lean ====
section
/-!
DEFINITION. Quorum meetings (chapter 23): the hitch unit, HINIT, HJOIN, HCONTRIB, HWAIT, HQUERY, and the events
HITCH_CONTRIBUTION and HITCH_WATCHDOG. A unit's own accesses are those of an endpoint reducer.
-/
namespace Sys2Proof.Machine

/-! ## The hitch object (R405, R406) -/

/-- Word of an object at a byte offset. -/
def Hitch.w (h : Hitch) (off : Nat) : Nat := cardWord h.words off
def objCount (w0 : Nat) : Nat := bits w0 23 0
def objQuor (w0 : Nat) : Nat := bits w0 39 30 + 1
def objMem (w0 : Nat) : Nat := bits w0 49 40 + 1
def objType (w0 : Nat) : Nat := bits w0 54 50
def objRm (w0 : Nat) : Nat := bits w0 57 55
def objScope (w0 : Nat) : Nat := bits w0 60 58
def objMode (w0 : Nat) : Nat := bits w0 62 61
def Hitch.rdepth (h : Hitch) : Nat := bits (h.w 8) 51 48
def Hitch.seed (h : Hitch) : DWord := h.words.getD 6 0
def Hitch.hid (h : Hitch) : Nat := bits (h.w 8) 31 0
/-- The weights W0 to W7. -/
def Hitch.weight (h : Hitch) (j : Nat) : Nat := bits (h.w (0x40 + 8 * (j / 2))) (32 * (j % 2) + 31) (32 * (j % 2))
def Hitch.entry (h : Hitch) : Contract := (Config.contract? h.contract).getD default

/-- An address field in the window for a scope, aligned. -/
def objAddr (pod : Bool) (w align : Nat) : Bool :=
  w % align == 0 && (if pod then decide (2 ^ 56 ≤ w) && decide (w < 0x180 * 2 ^ 48) else decide (w < 2 ^ 56))

/-- R405: no reserved bit, every field in range, aligned and in its window; k ≤ n; a contract at `.pod`. -/
def objOk (va : Nat) (ws : List Nat) : Bool :=
  let w (off : Nat) : Nat := ws.getD (off / 8) 0
  let pod := objScope (w 0) == 6
  bits (w 0) 29 24 == 0 && bits (w 0x38) 48 32 == 0 && bits (w 0x68) 63 11 == 0 && w 0x70 == 0 && w 0x78 == 0 &&
    decide (3 ≤ objScope (w 0)) && decide (objScope (w 0) ≤ 6) && decide (objRm (w 0) ≤ 6) && [14, 16, 17].contains (objType (w 0)) &&
    objMode (w 0) != 3 && decide (objQuor (w 0) ≤ objMem (w 0)) && objCount (w 0) != 0 && decide (bits (w 8) 51 48 ≤ 4) &&
    objAddr pod (w 0x10) 256 && (w 0x18 == 0 || objAddr pod (w 0x18) 16) && objAddr pod (w 0x20) 16 &&
    (if w 0x28 = 0 then objMode (w 0) == 0 else objAddr pod (w 0x28) 4096) && (decide (2 ^ 56 ≤ va) == pod) &&
    (!pod || (bits (w 8) 63 52 != 0 && decide (bits (w 0x38) 63 58 ≤ 35) && decide (bits (w 0x38) 57 49 ≤ 287)))

/-- A member table entry (R406); none when a reserved bit is set. -/
def memberOf (w0 w1 : Nat) : Option Member :=
  if bits w1 63 32 ≠ 0 ∨ bits w0 54 48 ≠ 0 ∨ bits w0 23 16 ≠ 0 then none
  else some { pkg := bits w0 63 55, team := bits w0 47 24, tag := w1, lag := bits w0 15 0 }

/-- The member table of words. -/
def membersOf : List Nat → Option (List Member)
  | w0 :: w1 :: ws => match memberOf w0 w1, membersOf ws with | some m, some l => some (m :: l) | _, _ => none
  | _ => some []

/-! ## The unit's memory (R410, R413) -/

/-- A range translated page by page for writing: places with lengths, the first fault, or a hold; and whether some page's
stamp is neither 0 nor the contract. -/
def State.unitRange (s : State) (g : GeUser) (asid contract : Nat) : List (Nat × Nat) → GeRes (List (Nat × Nat) × Bool)
  | [] => .ok ([], false)
  | (va, n) :: r =>
    match s.geTr g asid va accWrite with
    | .miss => .fault
    | .fault k c true => .hold k c va
    | .fault _ _ false => .fault
    | .ok pa _ stamp =>
      match State.unitRange s g asid contract r with
      | .ok (l, b) => .ok ((pa, n) :: l, b || (stamp != 0 && stamp != contract))
      | .fault => .fault
      | .hold k c a => .hold k c a

/-- Bytes written over a translated range. -/
def State.unitWrite (s : State) : List (Nat × Nat) → List Byte → State
  | [], _ => s
  | (pa, n) :: r, bs => State.unitWrite (s.homeWrite pa (bs.take n)) r (bs.drop n)

/-- The records of a replay log, from round 1 on: the log ends at the first header that is not the next round's, or that cannot be read. A
replayable fault holds the read (R122, R414). -/
def State.logRecords (s : State) (g : GeUser) (asid base size : Nat) : Nat → Nat → Nat → GeRes (List (List (Nat × Nat)))
  | 0, _, _ => .ok []
  | n + 1, pos, round =>
    if size < pos + 16 then .ok []
    else match s.geWords g asid (base + pos) 2 with
      | .hold a b c => .hold a b c
      | .fault => .ok []
      | .ok ws =>
        let nt := bits (ws.getD 0 0) 47 32
        if bits (ws.getD 0 0) 31 0 ≠ round ∨ nt = 0 ∨ size < pos + 16 + 8 * nt then .ok []
        else match s.geWords g asid (base + pos + 16) nt with
          | .hold a b c => .hold a b c
          | .fault => .ok []
          | .ok es => match State.logRecords s g asid base size n (pos + 16 + 8 * nt) (round + 1) with
            | .ok l => .ok (es.map (fun e => (bits e 9 0, e / 2 ^ 32)) :: l)
            | e => e

/-! ## Rounds (R407 to R414) -/

def Hitch.member (h : Hitch) (m : Nat) : Option Member := h.members[m]?
def Hitch.modMember (h : Hitch) (m : Nat) (f : Member → Member) : Hitch := { h with members := h.members.modify m f }

/-- M of a round as it opens (R407). -/
def Hitch.mandatory (h : Hitch) : List Nat :=
  (List.range h.members.length).filter (fun m => match h.member m with | some x => !x.departed && decide (x.lag ≤ h.round - x.last) | none => false)

/-- The members that have arrived in the open round. -/
def Hitch.arrived (h : Hitch) : List Nat := (h.terms.map (·.member)).eraseDups

/-- The term list: by member, then by tag (R409). -/
def Hitch.termList (h : Hitch) : List HTerm :=
  let before (a b : HTerm) : Bool := decide (a.member < b.member) || (a.member == b.member && decide (a.tag < b.tag))
  h.terms.foldl (fun l t => l.takeWhile (fun x => before x t) ++ t :: l.dropWhile (fun x => before x t)) []

/-- Replay: a record is current (R414). -/
def Hitch.record (h : Hitch) : Option (List (Nat × Nat)) := if objMode (h.w 0) = 2 then h.records.head? else none

/-- How often a member and tag are folded in the open round, and listed in a record. -/
def Hitch.folded (h : Hitch) (e : Nat × Nat) : Nat := (h.terms.filter (fun t => t.member == e.1 && t.tag == e.2)).length
def listed (es : List (Nat × Nat)) (e : Nat × Nat) : Nat := (es.filter (· == e)).length

/-- The round is to close (R408, R414). -/
def Hitch.closes (h : Hitch) : Bool :=
  match h.record with
  | some es => es.all (fun e => decide (listed es e ≤ h.folded e))
  | none => decide (objQuor (h.w 0) ≤ h.arrived.length) && h.mand.all (fun m => h.arrived.contains m)

/-- The result elements of the round with their flags (R409). -/
def Hitch.results (h : Hitch) : List (Nat × Flags) :=
  let c := h.entry
  let f := spliceFmt (objType (h.w 0))
  let ts := h.termList
  (List.range (objCount (h.w 0))).map (fun e =>
    let terms : List Term := ts.map (fun t => { x := f.decode (t.elems.getD e 0), xf := some f, y := some (fp32.decode (h.weight t.j)), yf := some fp32 })
    let (v, fl) := contractTree c terms false (.fmt f) (Contract.mode c (objRm (h.w 0))) (reduceDraw c h.seed h.hid h.round e)
    (f.encode v, fl))

/-- WSUM and its flags. -/
def Hitch.wsum (h : Hitch) : Nat × Flags :=
  let (v, fl) := contractTree h.entry (h.termList.map (fun t => ({ x := fp32.decode (h.weight t.j), xf := some fp32 } : Term))) false (.fmt fp32) .rne 0
  (fp32.encode v, fl)

/-- The bits of the status word that do not depend on memory (R411, R412). -/
def State.hitchStatus (s : State) (h : Hitch) (fl : Flags) : Nat :=
  let pod := objScope (h.w 0) == 6
  let host := bits (h.w 0x38) 63 58
  let fallback := pod && !(s.nodeAtt host && !s.farOff.any (fun p => p.2 == host && h.members.any (fun m => m.pkg == p.1)) &&
    s.nodeTakes host (bits (h.w 8) 47 32) h.contract && s.feature 3)
  bit01 (objMode (h.w 0) == 2 && h.record.isNone) * 2 ^ 10 + bit01 h.record.isSome * 2 ^ 9 + bit01 fallback * 2 ^ 8 + fl.toNat % 32

/-- The round block (R410). -/
def Hitch.block (h : Hitch) (status : Nat) (es : List Nat) (wsum : Nat) : List Byte :=
  let eb := spliceBytes (objType (h.w 0))
  let mask := (h.arrived.map (fun m => 2 ^ m)).sum
  let res := elemBytes eb es
  List.flatten
    [ toBytes 8 (status * 2 ^ 32 + h.round % 2 ^ 32), toBytes 8 (h.terms.length % 2 ^ 16 * 2 ^ 48 + h.arrived.length * 2 ^ 32 + wsum), toBytes 128 mask,
      List.replicate 112 0, res ]

/-- A log record (R413). -/
def Hitch.logRecord (h : Hitch) (status : Nat) : List Byte :=
  wordsToBytes ([h.contract * 2 ^ 48 + h.terms.length % 2 ^ 16 * 2 ^ 32 + h.round % 2 ^ 32, status] ++ h.termList.map (fun t => t.tag * 2 ^ 32 + t.member))

/-- The place of a log record of n bytes at LOGPOS; none when it does not fit or cannot be written. -/
def State.logPlace (s : State) (g : GeUser) (h : Hitch) (n : Nat) : GeRes (Option (List (Nat × Nat))) :=
  if h.full ∨ bits (h.w 0x38) 31 0 * 4096 < h.logpos + n then .ok none
  else match s.unitRange g h.asid 0 (rangePages (h.w 0x28 + h.logpos) n) with
    | .ok (l, _) => .ok (some l)
    | .hold k c va => .hold k c va
    | .fault => .ok none

/-- The object's RO fields as the unit rewrites them at a Close: ACT, LOGPOS, ROUND and NARR (R405). -/
def State.putObject (s : State) (pa : Nat) (h : Hitch) : State :=
  let s := s.homeWrite pa (toBytes 8 (setBits (s.home64 pa) 63 63 1))
  let s := s.homeWrite (pa + 0x60) (toBytes 8 (h.logpos % 2 ^ 32 * 2 ^ 32 + h.round % 2 ^ 32))
  s.homeWrite (pa + 0x68) (toBytes 8 (setBits (s.home64 (pa + 0x68)) 10 0 h.arrived.length))

/-- The round closed with a status word: its number advances and the next round opens. -/
def Hitch.next (h : Hitch) (status logpos : Nat) (full : Bool) : Hitch :=
  let keep := 2 ^ h.rdepth
  let h1 := { h with round := h.round + 1, terms := [], logpos := logpos, full := full, closing := false, records := h.records.drop 1,
                     status := (mset h.status h.round status).filter (fun p => decide (h.round < p.1 + keep)) }
  { h1 with mand := h1.mandatory }

/-- Close (R409, R410): the block and the histogram are translated, then written, and the round advances. none: a
replayable fault holds the Close. -/
def State.closeRound (s : State) (pa : Nat) (h : Hitch) : Hitch × State × Bool :=
  let rs := h.results
  let (wv, wf) := h.wsum
  let es := rs.map (·.1)
  let fl := Sys2Proof.Machine.orFlags (wf :: rs.map (·.2))
  let b := h.round % 2 ^ h.rdepth
  let eb := spliceBytes (objType (h.w 0))
  let bs := 256 + 256 * ceilDiv (objCount (h.w 0) * eb) 256
  let base := s.hitchStatus h fl
  let hist := h.w 0x18
  let blockLen := 256 + es.length * eb
  let at_ := (h.w 0x10) + b * bs
  let rec_ := objMode (h.w 0) == 1
  let done (s : State) (extra : Nat) (write : Nat → State → State) : Hitch × State × Bool :=
    match (if rec_ then s.logPlace (.unit pa) h (16 + 8 * h.terms.length) else .ok none) with
    | .hold k c va => ({ h with closing := true }, s.geHold (.unit pa) h.asid k c va accWrite, false)
    | place =>
      let logged := match place with | .ok l => l | _ => none
      let lost := rec_ && logged.isNone
      let status := base + extra + bit01 lost * 2 ^ 11
      let s := match logged with | some l => s.unitWrite l (h.logRecord status) | none => s
      let s := write status s
      let pos := if logged.isSome then h.logpos + 16 + 8 * h.terms.length
                 else match h.record with | some es => h.logpos + 16 + 8 * es.length | none => h.logpos
      let h' := h.next status pos (h.full || lost)
      (h', (s.geForget (.unit pa)).putObject pa h', true)
  match s.unitRange (.unit pa) h.asid h.contract (rangePages at_ blockLen), (if hist = 0 then .ok ([], false) else s.unitRange (.unit pa) h.asid h.contract (rangePages (hist + 272 * b) 272)) with
  | .hold k c va, _ => ({ h with closing := true }, s.geHold (.unit pa) h.asid k c va accWrite, false)
  | .ok _, .hold k c va => ({ h with closing := true }, s.geHold (.unit pa) h.asid k c va accWrite, false)
  | .ok (l1, m1), .ok (l2, m2) =>
    if m1 || m2 then done s (2 ^ 12) (fun _ s => s)
    else done s 0 (fun st s => (s.unitWrite l1 (h.block st es wv)).unitWrite l2 (if hist = 0 then [] else histBytes (spliceFmt (objType (h.w 0))) es))
  | _, _ => done s (2 ^ 14) (fun _ s => s)

/-! ## Answers (R417, R419) -/

def hOk : Nat := 0
def hBadobj : Nat := 1
def hNocontract : Nat := 2
def hInactive : Nat := 3
def hNotmember : Nat := 4
def hDup : Nat := 5
def hEarly : Nat := 6
def hFault : Nat := 7
def hBusy : Nat := 8
def hRogue : Nat := 9

/-- The answer of an HCONTRIB arrives. -/
def State.hitchAnswer (s : State) (op : Option Nat) (code j round : Nat) : State :=
  match op with
  | none => s
  | some id =>
    match mget s.mops id with
    | none => s
    | some m =>
      let v := j * 2 ^ 8 + code + round % 2 ^ 32 * 2 ^ 32
      let s := s.deliver m ((maskList m.mask).map (fun l => (l, 0, v)))
      { s with mops := mdel s.mops id, contribs := mdel s.contribs id }

/-- Fold (R408) without TryClose. -/
def State.foldTerm (s : State) (h : Hitch) (m : Nat) (g : Given) : Hitch × State :=
  let j := min (h.round - g.tag) 7
  let nt : HTerm := { member := m, tag := g.tag, elems := g.elems, j := j }
  let h : Hitch := { h with terms := h.terms ++ [nt] }
  (h.modMember m (fun x => { x with last := max x.last g.tag }), s.hitchAnswer g.op hOk j h.round)

/-- What the unit does with a contribution (R408, R414). -/
inductive Take where
  | fold | hold
  | answer (code : Nat)
deriving DecidableEq, Repr

/-- `held`: the contribution was held before, so that it folds without the check of R408 for DUP, and the departure of its member leaves
it standing (R424). In replay what the current record lists folds (R414). -/
def Hitch.take (h : Hitch) (m : Nat) (g : Given) (held : Bool) : Take :=
  match h.member m with
  | none => .answer hNotmember
  | some x =>
    let wait : Take := if 2 ≤ x.held.length then .answer hEarly else .hold
    if x.departed ∧ !held then .answer hDup
    else match h.record with
      | some es =>
        if h.folded (m, g.tag) < listed es (m, g.tag) then (if h.round < g.tag then wait else .fold)
        else if (h.records.drop 1).any (fun es => es.contains (m, g.tag)) then wait
        else if g.tag ≤ x.last then .answer hDup
        else .answer hRogue
      | none =>
        if g.tag ≤ x.last ∧ !held then .answer hDup
        else if h.round < g.tag then wait else .fold

/-- A held contribution is no longer to be held: its round or record has come, or none is left that lists it. -/
def Take.decided (t : Take) : Bool := match t with
  | .fold => true
  | .answer c => c != hEarly
  | .hold => false

/-- The held contribution whose turn it is: of those that are decided the lowest tag, and of one tag the lowest member, so that those of
a round come before those of the next (R408). -/
def Hitch.due (h : Hitch) : Option (Nat × Given) :=
  let all := (List.range h.members.length).flatMap (fun m => match h.member m with
    | some x => (x.held.filter (fun g => (h.take m g true).decided)).map (fun g => (m, g))
    | none => [])
  all.foldl (fun a p => match a with | some q => if p.2.tag < q.2.tag then some p else a | none => some p) none

/-- A member departs: it leaves M (R424). -/
def Hitch.leave (h : Hitch) (m : Nat) : Hitch := { h.modMember m (fun x => { x with departed := true }) with mand := h.mand.filter (· != m) }

/-- A unit acts: a round that is to close, or whose Close is tried again, closes; else a held contribution whose turn it is folds, followed by
TryClose; else the next event that reached the unit acts. `fuel` bounds the events. -/
def State.runUnit (s : State) (pa : Nat) : Nat → Hitch → Hitch × State
  | 0, h => (h, s)
  | n + 1, h =>
    if h.closing ∨ (!h.terms.isEmpty ∧ h.closes) then
      let (h, s, ok) := s.closeRound pa h
      if ok then State.runUnit s pa n h else (h, s)
    else
      match h.due with
      | some (m, g) =>
        let out := h.modMember m (fun x => { x with held := x.held.erase g })
        match h.take m g true with
        | .answer c => State.runUnit (s.hitchAnswer g.op c 0 h.round) pa n out
        | _ => let (h, s) := s.foldTerm out m g; State.runUnit s pa n h
      | none =>
        match h.backlog with
        | [] => (h, s)
        | .depart m :: r => State.runUnit s pa n ({ h with backlog := r }.leave m)
        | .give m g :: r =>
          let h := { h with backlog := r }
          match h.take m g false with
          | .fold => let (h, s) := s.foldTerm h m g; State.runUnit s pa n h
          | .hold => State.runUnit s pa n (h.modMember m (fun x => { x with held := x.held ++ [g] }))
          | .answer c => State.runUnit (s.hitchAnswer g.op c 0 h.round) pa n h

/-- Enough steps for everything a unit can do at once. -/
def Hitch.fuel (h : Hitch) : Nat := 4 * (h.backlog.length + 2 * h.members.length) + 8

/-- Every member that ever joined has departed (R424). -/
def Hitch.isOver (h : Hitch) : Bool := h.members.any (·.departed) && h.members.all (fun x => x.joined.isNone || x.departed) && !h.closing

/-- Let a unit act. An object whose members have all departed becomes inactive, which its ACT bit then says. -/
def State.actUnit (s : State) (pa : Nat) (h : Hitch) : State :=
  let (h, s) := s.runUnit pa h.fuel h
  if h.isOver then { s.homeWrite pa (toBytes 8 (setBits (s.home64 pa) 63 63 0)) with hitches := mdel s.hitches pa }
  else { s with hitches := mset s.hitches pa h }

/-- An event reaches a unit; what reaches it while a Close is held stands after the Close (R410). -/
def State.unitEvent (s : State) (pa : Nat) (e : UnitEvent) : State :=
  match mget s.hitches pa with
  | none => s
  | some h =>
    let h := { h with backlog := h.backlog ++ [e] }
    if h.closing then { s with hitches := mset s.hitches pa h } else s.actUnit pa h

/-- A contribution reaches its unit. -/
def State.giveUnit (s : State) (pa m : Nat) (g : Given) : State :=
  if (mget s.hitches pa).isSome then s.unitEvent pa (.give m g) else s.hitchAnswer g.op hInactive 0 0

/-- A member in another package has joined. -/
def State.farMember (s : State) (pa m : Nat) : Bool := match (mget s.hitches pa).bind (·.member m) with | some x => x.joined == some none | none => false

/-- HITCH_CONTRIBUTION (R408). -/
def State.hitchContribution (s : State) (c : Contribution) : State :=
  match c with
  | .own id =>
    match mget s.contribs id with
    | none => s
    | some x =>
      let s := { s with contribs := mdel s.contribs id }
      if x.fault then s.hitchAnswer (some id) hFault 0 0 else s.giveUnit x.pa x.member { tag := x.tag, elems := x.elems, op := some id }
  | .other obj m tag es => if s.farMember obj m then s.giveUnit obj m { tag := tag, elems := es, op := none } else s

/-- A unit holds a Close: what would read or change it waits (R410). -/
def State.unitBusy (s : State) (pa : Nat) : Bool := match mget s.hitches pa with | some h => h.closing | none => false

/-- A held Close is tried again once its fault has been answered (R410). -/
def State.retryClose (s : State) (pa : Nat) : State :=
  match mget s.hitches pa with
  | some h => if h.closing ∧ !s.faultWaits (.engine (.unit pa)) then s.actUnit pa h else s
  | none => s

/-- The members of a hitch that a team has joined and that have not departed. -/
def Hitch.membersOf (h : Hitch) (u : Nat) : List Nat :=
  (List.range h.members.length).filter (fun m => match h.member m with | some x => x.joined == some (some u) && !x.departed | none => false)

/-- The member of a team departs from every object it joined, after the contributions that it has issued (R419, R424). -/
def State.depart (s : State) (u : Nat) : State :=
  foldS (fun (p : Nat × Hitch) s =>
    foldS (fun m s =>
      (foldS (fun (c : Nat × Contrib) s => s.hitchContribution (.own c.1)) (s.contribs.filter (fun c => c.2.pa == p.1 && c.2.member == m)) s).unitEvent p.1 (.depart m))
      (p.2.membersOf u) s) s.hitches s

/-- A member of a hitch in another package joins (R404). -/
def State.farJoin (s : State) (pa m : Nat) : State :=
  match mget s.hitches pa with
  | some h => if h.closing ∨ !(h.member m).any (fun x => x.joined.isNone && x.pkg != s.pkgId) then s
              else { s with hitches := mset s.hitches pa (h.modMember m (fun x => { x with joined := some none })) }
  | none => s
/-- One that joined departs (R424). -/
def State.farDepart (s : State) (pa m : Nat) : State := if s.farMember pa m then s.unitEvent pa (.depart m) else s
/-- Its package reports whether its team runs (R423). -/
def State.farRuns (s : State) (pa m : Nat) (runs : Bool) : State :=
  if s.farMember pa m then { s with hitches := mupd s.hitches pa (·.modMember m (fun x => { x with halted := !runs })) } else s

/-! ## Operands and checks (R415, R416) -/

/-- The operands of a slice: those of its lowest acting lane. -/
def State.hitchA (s : State) (r : Raw) (u i : Nat) (m : Mask) : Nat := s.srcA (.slice u i) r 0 (lowest m)
def State.hitchB (s : State) (r : Raw) (u i : Nat) (m : Mask) : Nat := s.srcB (.slice u i) r 0 (lowest m)
def State.hitchC (s : State) (r : Raw) (u i : Nat) (m : Mask) : Nat := s.srcC (.slice u i) r 0 (lowest m) % 2 ^ 32

/-- The join-table entry of an object. -/
def State.joinOf (s : State) (u obj : Nat) : Option Join := (s.team u).bind (fun t => t.joins.find? (fun j => j.obj == obj))
def Join.scope (j : Join) : Nat := bits (j.words.getD 0 0).toNat 62 60
def Join.count (j : Join) : Nat := bits (j.words.getD 1 0).toNat 23 0
def Join.ty (j : Join) : Nat := bits (j.words.getD 1 0).toNat 51 47
def Join.contract (j : Join) : Nat := bits (j.words.getD 1 0).toNat 63 52

/-- The pieces of a source: places in scratchpads or addresses to translate, or the trap. -/
def State.sourcePieces (s : State) (u va n : Nat) : Except (Nat × Nat × Nat) (List (Sum Place Nat × Nat)) :=
  if n = 0 then .ok []
  else if va + n ≤ 0x180 * 2 ^ 48 then .ok ((rangePages va n).map (fun p => (.inr p.1, p.2)))
  else if va / 2 ^ 48 = 0x1FC ∧ (va + n - 1) / 2 ^ 48 = 0x1FC then
    match s.resScr u (va % 2 ^ 48) n with
    | .scr t o => .ok [(.inl (.scr t o), n)]
    | .trap k c => .error (k, c, va)
    | _ => .error (kProt, 8, va)
  else .error (kProt, 8, va)

/-- What reading a source comes to: bytes, with whether a stamp differs and the location class of poison that was met, or 0; a
precise fault; a walk or a replayable fault to wait for. -/
inductive SrcRead where
  | ok (bs : List Byte) (mixed : Bool) (poisoned : Nat)
  | miss (va : Nat)
  | hold (kind cause va : Nat)
  | bad (kind cause va : Nat)

/-- Read a source's pieces as an endpoint reducer does (R287). -/
def State.readSource (s : State) (a : Issuer) (contract : Nat) : List (Sum Place Nat × Nat) → SrcRead
  | [] => .ok [] false 0
  | (p, n) :: r =>
    let go (bs : List Byte) (mx : Bool) (po : Nat) : SrcRead :=
      match State.readSource s a contract r with
      | .ok b m q => .ok (bs ++ b) (mx || m) (if po = 0 then q else po)
      | e => e
    match p with
    | .inl (.scr u o) => go (s.scrRead u o n) false (if s.scrPoison u o n then 2 else 0)
    | .inl (.phys pa _) => go (s.homeRead pa n) false 0
    | .inr va =>
      match s.translate (s.req a) va accRead 0 with
      | .ok pa _ stamp =>
        go (s.homeRead pa n) (stamp != 0 && stamp != contract) ((((spans (n + 1) pa n).map (fun q => s.homeBad (q.1 / 128))).find? (· != 0)).getD 0)
      | .miss => .miss va
      | .fault k c true => .hold k c va
      | .fault k c false => .bad k c va

/-- The issue of HCONTRIB: its operation waits for the answer, its contribution for the unit. -/
def State.contribIssue (s : State) (r : Raw) (u i : Nat) (m : Mask) (x : Contrib) : State :=
  let a := Issuer.slice u i
  let id := s.nextId
  let op : MemOp := { kind := .hitch, by_ := a, asid := s.asidOf u, pc := s.pcOf a, ty := 4, size := 8, dst := r.x.d.toNat, wide := true, mask := m, todo := [] }
  let s := (s.mapDests a r m).addOp op
  ({ s with contribs := mset s.contribs id x }).advance a r.len.bytes

/-- Put an answer pair or a word in vD of the slice's acting lanes. -/
def State.hitchOut (s : State) (r : Raw) (u i : Nat) (m : Mask) (v : Nat) : State := s.commit r (.slice u i) m .reg (fun _ => { val := v })

/-- The checks that every hitch instruction begins with (R416), and the communication gang. none: they pass. -/
def State.hitchCheck (s : State) (u i obj : Nat) (src : Option Nat) (gang : Bool) (scope : Nat) : Option (Nat × Nat × Nat) :=
  let k := s.taskOf u
  let comm := match k with | some k => k.cgv && k.cgidx == i / 8 | none => false
  if obj % 128 ≠ 0 then some (kAlign, 0, obj)
  else if (src.getD 0) % 16 ≠ 0 then some (kAlign, 0, src.getD 0)
  else if 0x180 * 2 ^ 48 ≤ obj ∨ (2 ^ 56 ≤ obj ∧ !s.feature 5) then some (kProt, 8, obj)
  else if gang && scope == 6 && !comm then some (kIllegal, cNotcomm, 0)
  else none

/-- The unit's object at a virtual address of an address space. -/
def State.objectPa (s : State) (g : GeUser) (asid obj : Nat) : GeRes Nat :=
  match s.geTr g asid obj accRead with
  | .ok pa _ _ => .ok pa
  | .fault k c true => .hold k c obj
  | _ => .fault

/-- The same for a slice. -/
def State.hitchPa (s : State) (u i obj : Nat) : GeRes Nat := s.objectPa (.slice u i) (s.asidOf u) obj
/-- A replayable fault holds a slice's hitch instruction (R122, R418). -/
def State.hitchHold (s : State) (u i k c va : Nat) : State := (s.geHold (.slice u i) (s.asidOf u) k c va accRead).setWait (.slice u i) .replay

/-- The pool node of a `.pod` object can be reached. -/
def State.hitchWay (s : State) (pa : Nat) : Bool := match podNode pa with | some n => s.nodeUp n | none => true

/-! ## HINIT and HJOIN (R418) -/

/-- What HINIT answers: a code, with the state that follows. `con` is the issuer's %contract. -/
def State.hinitAnswer (s : State) (g : GeUser) (asid obj pa con : Nat) : GeRes (Nat × State) :=
  if (mget s.hitches pa).isSome then .ok (hBusy, s)
  else match s.geWords g asid obj 16 with
    | .hold a b c => .hold a b c
    | .fault => .ok (hFault, s)
    | .ok ws =>
      let w (off : Nat) : Nat := ws.getD (off / 8) 0
      if !objOk obj ws then .ok (hBadobj, s)
      else match s.geWords g asid (w 0x20) (2 * objMem (w 0)) with
        | .hold a b c => .hold a b c
        | .fault => .ok (hFault, s)
        | .ok ms =>
          match membersOf ms with
          | none => .ok (hBadobj, s)
          | some members =>
            let c := if bits (w 8) 63 52 = 0 then con else bits (w 8) 63 52
            if (Config.contract? c).isNone then .ok (hNocontract, s)
            else
              let size := bits (w 0x38) 31 0 * 4096
              match (if objMode (w 0) = 2 then s.logRecords g asid (w 0x28) size (size / 24 + 1) 0 1 else .ok []) with
              | .hold a b c => .hold a b c
              | .fault => .ok (hFault, s)
              | .ok recs =>
                let h : Hitch := { asid := asid, words := ws.map (BitVec.ofNat 64), contract := c, members := members, mand := [], records := recs }
                let h := { h with mand := h.mandatory }
                .ok (hOk, ({ s with hitches := mset s.hitches pa h }).putObject pa h)

/-- A HINIT from another package activates a `.pod` object (R404, R418). A fault of its reads is that package's. -/
def State.farInit (s : State) (asid obj : Nat) : State :=
  match s.objectPa (.unit obj) asid obj with
  | .ok pa => if (podNode pa).isNone then s else match s.hinitAnswer (.unit pa) asid obj pa 0 with | .ok (_, t) => t | _ => s
  | _ => s

/-- An answer pair. -/
def pairOf (code round : Nat) : Nat := code + round % 2 ^ 32 * 2 ^ 32

/-- HINIT on one slice. -/
def State.hinitOne (s : State) (r : Raw) (u i : Nat) (m : Mask) : State :=
  let a := Issuer.slice u i
  let obj := s.hitchA r u i m
  match s.hitchCheck u i obj none false 0 with
  | some (k, c, va) => s.trapOne a k c va 0 m
  | none =>
    if !s.room a r then s.trapOne a kIllegal cRegspace 0 0 m
    else
      let out (s : State) (code : Nat) : State := (s.geForget (.slice u i)).hitchOut r u i m (pairOf code 1)
      match s.hitchPa u i obj with
      | .fault => out s hFault
      | .hold k c va => s.hitchHold u i k c va
      | .ok pa =>
        if !s.hitchWay pa ∨ s.unitBusy pa then s.setWait a (.hitch obj 0)
        else match s.hinitAnswer (.slice u i) (s.asidOf u) obj pa (s.special a (lowest m) 0x0C) with
          | .fault => out s hFault
          | .hold k c va => s.hitchHold u i k c va
          | .ok (code, t) => out t code

/-- The join-table words of an object and member. -/
def joinWords (h : Hitch) (obj m : Nat) : List DWord :=
  [BitVec.ofNat 64 (2 ^ 63 + objScope (h.w 0) * 2 ^ 60 + obj), BitVec.ofNat 64 (h.contract * 2 ^ 52 + objType (h.w 0) * 2 ^ 47 + m * 2 ^ 24 + objCount (h.w 0))]

/-- What HJOIN answers, and the state that follows. -/
def State.joinAnswer (s : State) (u obj pa b : Nat) : Nat × Nat × State :=
  match mget s.hitches pa, s.team u, s.taskOf u with
  | some h, some t, some k =>
    match h.member b with
    | none => (hNotmember, h.round, s)
    | some x =>
      if x.tag ≠ k.tag ∨ x.team ≠ t.index ∨ x.pkg ≠ s.pkgId then (hNotmember, h.round, s)
      else if (match x.joined with | some (some v) => v != u && (s.team v).isSome | _ => false) then (hBusy, h.round, s)
      else
        let h' := h.modMember b (fun x => { x with joined := some (some u) })
        let j : Join := { obj := obj, pa := pa, member := b, words := joinWords h obj b }
        let s := { s with hitches := mset s.hitches pa h' }
        (hOk, h.round, s.modTeam u (fun t => { t with joins := t.joins.filter (fun e => e.obj != obj) ++ [j] }))
  | _, _, _ => (hInactive, 0, s)

/-- HJOIN on one slice. -/
def State.hjoinOne (s : State) (r : Raw) (u i : Nat) (m : Mask) : State :=
  let a := Issuer.slice u i
  let obj := s.hitchA r u i m
  let scope := if 2 ^ 56 ≤ obj then 6 else 0
  match s.hitchCheck u i obj none true scope with
  | some (k, c, va) => s.trapOne a k c va 0 m
  | none =>
    let full : Bool := match s.team u with | some t => decide (8 ≤ t.joins.length) | none => false
    if full then s.trapOne a kHitchx 3 0 0 m
    else if !s.room a r then s.trapOne a kIllegal cRegspace 0 0 m
    else match s.hitchPa u i obj with
      | .hold k c va => s.hitchHold u i k c va
      | .fault => (s.geForget (.slice u i)).hitchOut r u i m (pairOf hInactive 0)
      | .ok pa =>
        if !s.hitchWay pa ∨ s.unitBusy pa then s.setWait a (.hitch obj 0)
        else
          let (code, round, t) := s.joinAnswer u obj pa (s.hitchB r u i m % 2 ^ 32)
          t.hitchOut r u i m (pairOf code round)

/-! ## HCONTRIB, HWAIT and HQUERY (R419 to R422) -/

/-- HCONTRIB on one slice. -/
def State.hcontribOne (s : State) (r : Raw) (u i : Nat) (m : Mask) : State :=
  let a := Issuer.slice u i
  let obj := s.hitchA r u i m
  let src := s.hitchB r u i m
  let j? := s.joinOf u obj
  let scope := match j? with | some j => j.scope | none => if 2 ^ 56 ≤ obj then 6 else 0
  let n := match j? with | some j => j.count * spliceBytes j.ty | none => 0
  let trap (e : Nat × Nat × Nat) : State := s.trapOne a e.1 e.2.1 e.2.2 0 m
  match s.hitchCheck u i obj (some src) false 0, s.sourcePieces u src n with
  | some e, _ => trap e
  | none, .error e => trap e
  | none, .ok ps =>
    match s.hitchCheck u i obj none true scope, j? with
    | some e, _ => trap e
    | none, none => trap (kHitchx, 2, 0)
    | none, some j =>
      match s.readSource a j.contract ps with
      | .bad k c va => trap (k, c, va)
      | .miss va => (s.askWalk (s.req a) va (waiterOf a)).setWait a .walk
      | .hold k c va => (s.raiseFault (s.req a) va k c accRead (waiterOf a)).setWait a .replay
      | .ok _ mixed poisoned =>
        if mixed ∧ !s.masks u kCmix then trap (kCmix, 0, src)
        else if !s.room a r then s.trapOne a kIllegal cRegspace 0 0 m
        else
          let (ok, s) := s.release a scope
          if !ok then s.setWait a .stores
          else
            let s := if mixed then s.sticky u kCmix else s
            let s := if poisoned = 0 then s else s.eccTeam u poisoned
            let bs := match s.readSource a j.contract ps with | .ok bs _ _ => bs | _ => []
            s.contribIssue r u i m { pa := j.pa, member := j.member, tag := s.hitchC r u i m, elems := bytesElems (spliceBytes j.ty) bs j.count, fault := poisoned != 0 }

/-- The round tagged b has closed. -/
def roundOver (round b : Nat) : Bool := decide ((round + 2 * 2 ^ 32 - b % 2 ^ 32 - 1) % 2 ^ 32 < 2 ^ 31)

/-- An instruction that frees no name: one that traps after it has written (R144). -/
def keeping (r : Raw) : Raw := { r with x := { r.x with la := false, lb := false, lc := false } }

/-- HWAIT on one slice. -/
def State.hwaitOne (s : State) (r : Raw) (u i : Nat) (m : Mask) : State :=
  let a := Issuer.slice u i
  let obj := s.hitchA r u i m
  let b := s.hitchB r u i m % 2 ^ 32
  match s.hitchCheck u i obj none false 0, s.joinOf u obj with
  | some (k, c, va), _ => s.trapOne a k c va 0 m
  | none, none => s.trapOne a kHitchx 2 0 0 m
  | none, some j =>
    if !s.room a r then s.trapOne a kIllegal cRegspace 0 0 m
    else match mget s.hitches j.pa with
      | none => s.setWaitAt a (.hitch j.pa (b + 1)) m
      | some h =>
        if !roundOver (h.round % 2 ^ 32) b ∨ h.closing ∨ !s.hitchWay j.pa then s.setWaitAt a (.hitch j.pa (b + 1)) m
        else if s.readsOut a then s.setWait a .stores
        else
          let gone := decide (2 ^ h.rdepth < (h.round + 2 ^ 32 - b) % 2 ^ 32)
          let status := if gone then 2 ^ 13 else (mget h.status (h.round - (h.round + 2 ^ 32 - b) % 2 ^ 32)).getD 0
          let s' := s.acquire (s.coreOf a) j.scope
          if !bitAt status 12 then s'.hitchOut r u i m status
          else if s.masks u kCmix then (s'.hitchOut r u i m status).sticky u kCmix
          else ((s'.hitchOut (keeping r) u i m status).setPc a (s.pcOf a)).trapOne a kCmix 0 0 0 m

/-- What HQUERY reads (R421). -/
def Hitch.query (h : Hitch) (sel b : Nat) : Nat :=
  let none_ := 2 ^ 32 - 1
  match sel with
  | 0 => h.round % 2 ^ 32
  | 1 => h.arrived.length
  | 2 => match h.member b with | some x => x.last | none => none_
  | 3 => if h.members.length ≤ b then none_ else bit01 (h.mand.contains b)
  | _ => h.logpos % 2 ^ 32

/-- HQUERY on one slice. -/
def State.hqueryOne (s : State) (r : Raw) (u i : Nat) (m : Mask) : State :=
  let a := Issuer.slice u i
  let obj := s.hitchA r u i m
  match s.hitchCheck u i obj none false 0 with
  | some (k, c, va) => s.trapOne a k c va 0 m
  | none =>
    if !s.room a r then s.trapOne a kIllegal cRegspace 0 0 m
    else match s.hitchPa u i obj with
      | .hold k c va => s.hitchHold u i k c va
      | .fault => (s.geForget (.slice u i)).hitchOut r u i m (2 ^ 32 - 1)
      | .ok pa =>
        if !s.hitchWay pa ∨ s.unitBusy pa then s.setWait a (.hitch obj 0)
        else s.hitchOut r u i m (match mget s.hitches pa with | some h => h.query (bits r.x.imm.toNat 2 0) (s.hitchB r u i m % 2 ^ 32) | none => 2 ^ 32 - 1)

/-! ## The watchdog (R423) -/

/-- HITCH_WATCHDOG. -/
def State.hitchWatchdog (s : State) (u i : Nat) : State :=
  let lim := bits (s.ge 0x200C8) 31 0
  match s.slice u i with
  | none => s
  | some x =>
    match x.wait with
    | .hitch pa round =>
      let passed : Bool := match mget s.hitches pa with | some h => !h.closing && roundOver (h.round % 2 ^ 32) (round - 1) | none => false
      if passed ∨ lim = 0 ∨ round = 0 ∨ x.waitCyc < 1024 * lim ∨ s.awaits (.slice u i) then s else s.takeTrap u i { kind := kHitchx, cause := 1, amask := x.waitMask }
    | _ => s

/-! ## The meanings -/

def execHinit (x : Ext) (s : State) : Host.Outcome State Fault Refusal :=
  issue (.ext .hinit x) s (fun s => eachSlice s (.ext .hinit x) (fun u i m t => t.hinitOne (.ext .hinit x) u i m))
def execHjoin (x : Ext) (s : State) : Host.Outcome State Fault Refusal :=
  issue (.ext .hjoin x) s (fun s => eachSlice s (.ext .hjoin x) (fun u i m t => t.hjoinOne (.ext .hjoin x) u i m))
def execHcontrib (x : Ext) (s : State) : Host.Outcome State Fault Refusal :=
  issue (.ext .hcontrib x) s (fun s => eachSlice s (.ext .hcontrib x) (fun u i m t => t.hcontribOne (.ext .hcontrib x) u i m))
def execHwait (x : Ext) (s : State) : Host.Outcome State Fault Refusal :=
  issue (.ext .hwait x) s (fun s => eachSlice s (.ext .hwait x) (fun u i m t => t.hwaitOne (.ext .hwait x) u i m))
def execHquery (x : Ext) (s : State) : Host.Outcome State Fault Refusal :=
  issue (.ext .hquery x) s (fun s => eachSlice s (.ext .hquery x) (fun u i m t => t.hqueryOne (.ext .hquery x) u i m))

def execHitchContribution (c : Contribution) (s : State) : Host.Outcome State Fault Refusal := .next (s.hitchContribution c)
def execHitchWatchdog (team slice : Nat) (s : State) : Host.Outcome State Fault Refusal := .next (s.hitchWatchdog team slice)

end Sys2Proof.Machine
end

