-- ==== Sys2Proof/Machine/Place.lean ====
section
/-!
DEFINITION. Placement (chapter 5), the start of teams (R37, R78, R435), pre-emption and restore (R445 to R448), and the
ends of teams and tasks (R484 to R486).
-/
namespace Sys2Proof.Machine

/-! ## What a core has free (R94) -/

/-- A team with its task. -/
structure Placed where
  id : Nat
  team : Team
  task : Task

/-- The teams that count on a core, but those of a list. -/
def State.teamsOn (s : State) (c : CoreId) (gone : List Nat) : List Placed :=
  s.teams.filterMap (fun p =>
    if p.2.core == c && p.2.onCore && !gone.contains p.1 then (s.task p.2.task).map (fun k => { id := p.1, team := p.2, task := k }) else none)

/-- Floor entries of a team of a task. -/
def Task.floorShare (k : Task) : Nat := k.floor * k.lanes / 4

/-- Floor entries still free on a core. -/
def State.freeFloor (s : State) (c : CoreId) (gone : List Nat) : Nat := 4032 - ((s.teamsOn c gone).map (fun p => p.task.floorShare)).sum
/-- Resident lanes of a core. -/
def State.lanesOn (s : State) (c : CoreId) (gone : List Nat) : Nat := ((s.teamsOn c gone).map (fun p => p.task.lanes)).sum
/-- Scratchpad KiB free on a core. -/
def State.freeScratch (s : State) (c : CoreId) (gone : List Nat) : Nat := 448 - ((s.teamsOn c gone).map (fun p => p.task.scratch)).sum

/-- Level barrier instances that a gang team of the task on a core takes (R94). -/
def instsAt (k : Task) (c : CoreId) : List (Nat × Nat) :=
  if k.cls = 2 then [] else (if bitAt k.lvlbar 0 then [(3, c.quadKey)] else []) ++ (if bitAt k.lvlbar 1 then [(4, c.die)] else []) ++ (if bitAt k.lvlbar 2 then [(5, 0)] else [])
/-- The most instances a quad, die or package holds. -/
def instLimit (scope : Nat) : Nat := if scope = 3 then 4 else if scope = 4 then 16 else 64
/-- Every instance is already the task's, or one is free. -/
def State.instsFit (s : State) (k : Task) (c : CoreId) : Bool :=
  (instsAt k c).all (fun i => k.insts.contains i || decide ((s.tasks.filter (fun p => p.2.insts.contains i)).length < instLimit i.1))

/-- The teams of another task are kept from a core by a reservation (R103). -/
def State.reserved (s : State) (serial : Nat) (c : CoreId) : Bool :=
  s.tasks.any (fun p => p.1 != serial && (match p.2.resv with
    | some v => v.die == c.die && v.quad == c.quad && (match v.core with | none => true | some j => j == c.core)
    | none => false))

/-- The task's contract has the matrix class on some quad of a die (R64, R101). -/
def State.dieHas (s : State) (k : Task) (die : Nat) : Bool :=
  (List.range 32).any (fun q => matrixClass (s.quad { die := die, quad := q, core := 0 }) k.contract != 0)

/-- The row conditions of R94 for a team of a task on a core. `ctxs` are the contexts a restored team held (R349). -/
def State.fits (s : State) (k : Task) (c : CoreId) (gone : List Nat) (ctxs : List Bool) : Bool :=
  let on := s.teamsOn c gone
  let gangs := on.filter (fun p => p.task.cls == 0)
  let free (matrix : Bool) : Bool := match (s.ctx (ctxKey c matrix)).holder with | none => true | some u => gone.contains u
  !(s.core c).fenced && s.dieHas k c.die && decide (k.scratch ≤ s.freeScratch c gone) && ctxs.all free &&
    (if k.cls = 2 then free false
     else decide (gangs.length < 64) && decide (s.lanesOn c gone + k.lanes ≤ 2048) && decide (k.floorShare ≤ s.freeFloor c gone) &&
       decide ((gangs.map (fun p => p.task.nbar)).sum + k.nbar ≤ 64) && s.instsFit k c)

/-! ## Team slots and the trap table (R114, R435) -/

/-- The entry of TBTAB of an address space: TBINIT, TMINIT, CSABASE. -/
def State.trapEntry (s : State) (asid : Nat) : Nat × Nat × Nat :=
  let p := bits (s.ge 0x20100) 51 4 * 16 + 32 * asid
  if s.ge 0x20100 = 0 ∨ !inHbm p 32 then (0, 0, 0) else (s.home64 p, s.home64 (p + 8), bits (s.home64 (p + 16)) 56 22 * 2 ^ 22)

/-- The slots that n new gang teams take, the lowest free ones: none inside is no need of one, none outside is too few. -/
def State.slotsFor (s : State) (asid n : Nat) : Option (List (Option Nat)) :=
  let (_, _, csa) := s.trapEntry asid
  let need := csa != 0 || (match s.asd asid with | some a => a.plog != 0 || a.slog != 0 | none => false)
  if !need then some (List.replicate n none)
  else
    let all := match s.asd asid with | some a => a.ntslot | none => 0
    let used := s.teams.filterMap (fun p => if s.asidOf p.1 = asid then p.2.tslot else none)
    let free := ((List.range all).filter (fun i => !used.contains i)).take n
    if free.length < n then none else some (free.map some)

/-! ## Choosing a core (R101) -/

/-- Every core of the package. -/
def allCores : List CoreId := (List.range 1024).map coreOf

/-- The best of a list by more of the first measure, then less of the second, then the earlier. -/
def bestBy (f g : CoreId → Nat) : List CoreId → Option CoreId
  | [] => none
  | c :: cs => some (cs.foldl (fun b x => if f b < f x ∨ (f b = f x ∧ g x < g b) then x else b) c)

/-- The core for a single team. `die` binds a team to the die on which it stood (R379). -/
def State.chooseCore (s : State) (k : Task) (ctxs : List Bool) (die : Option Nat) : Option CoreId :=
  let ok := allCores.filter (fun c => (match die with | some d => c.die == d | none => true) && !s.reserved k.serial c && s.fits k c [] ctxs)
  bestBy (if k.cls = 2 then fun c => s.freeScratch c [] else fun c => s.freeFloor c []) (fun c => s.lanesOn c []) ok

/-- The quad for a cohort, as its core 0. `need j` says whether a team goes to core j, and with which contexts. -/
def State.chooseQuad (s : State) (k : Task) (need : Nat → Option (List Bool)) (die : Option Nat) : Option CoreId :=
  let quads := allCores.filter (fun c => c.core == 0)
  let at_ (c : CoreId) (j : Nat) : CoreId := { c with core := j }
  let sum (f : CoreId → Nat) (c : CoreId) : Nat := ((List.range 4).map (fun j => f (at_ c j))).sum
  let ok := quads.filter (fun c => (match die with | some d => c.die == d | none => true) && (List.range 4).all (fun j => match need j with
    | some ctxs => !s.reserved k.serial (at_ c j) && s.fits k (at_ c j) [] ctxs
    | none => true))
  bestBy (sum (fun c => s.freeFloor c [])) (sum (fun c => s.lanesOn c [])) ok

/-! ## Starting a team (R31, R37, R78, R97 to R99) -/

/-- Give up L1 lines beyond the capacity (R98). -/
def State.l1Fit (s : State) (c : CoreId) : Nat → State
  | 0 => s
  | n + 1 =>
    if s.l1Lines c < (s.core c).l1.length then
      match (s.core c).l1 with
      | [] => s
      | (v, _) :: _ => State.l1Fit (s.l1Drop c v) c n
    else s

/-- The bytes of the argument block that a start reads. -/
def State.argBytes (s : State) (k : Task) : GeRes (List Byte) := s.geBytes (.args k.serial) k.asid k.argAddr (min 64 k.argSz)

/-- Word i of w bytes, 0 where it does not lie wholly below ARGSZ. -/
def argWord (k : Task) (bs : List Byte) (w i : Nat) : Nat := if w * i + w ≤ k.argSz then ofBytes ((bs.drop (w * i)).take w) else 0

/-- Record an admission: a reservation ends, and with it the pass count returns to 0 and a further pass is due (R100, R103);
instances are taken, and the placed report is sent. -/
def State.admitted (s : State) (k : Task) (index : Nat) (c : CoreId) : State :=
  let freed := (s.task k.serial).any (·.resv.isSome)
  let s := s.modTask k.serial (fun k => { k with passes := if k.resv.isSome then 0 else k.passes, resv := none, next := max k.next (index + 1),
                                                 insts := k.insts ++ (instsAt k c).filter (fun i => !k.insts.contains i) })
  let s : State := { s with passDue := s.passDue || freed }
  s.report k.src 2 0 k.stream k.tag k.handle (index * 2 ^ 40 + c.die * 2 ^ 37 + c.quad * 2 ^ 32 + c.core * 2 ^ 30)

/-- A task whose first team starts fetches what memory holds at that moment (R153; DEDUCED, log 29). -/
def State.freshCode (s : State) (k : Task) (index : Nat) : State := if index = 0 then s.modTask k.serial (fun k => { k with image := s.mem }) else s

/-- A team starts on a core. -/
def State.startTeam (s : State) (k : Task) (index : Nat) (c : CoreId) (slot : Option Nat) (bs : List Byte) : State :=
  let (tb, tm, csa) := s.trapEntry k.asid
  let u := s.nextId
  let gang := k.cls == 0
  let slice : Slice := { pc := k.code, seed := ⟨k.seed, k.seed, k.seed, k.seed⟩, readySince := (s.die c.die).open_ }
  let kf : Map Word := (List.range (ceilDiv k.lanes 32)).flatMap (fun g => (List.range 16).map (fun i => (g * 64 + i, BitVec.ofNat 32 (argWord k bs 4 i))))
  let t : Team := { task := k.serial, index := index, core := c, age := s.nextAge, lanes := k.lanes,
                    slices := if gang then (List.range (k.lanes / 4)).map (fun i => (i, slice)) else [], kfile := if gang then kf else [],
                    trapBase := trapBaseOf tb, trapMask := trapMaskOf tm, tslot := slot,
                    csa := if csa ≠ 0 then slot.map (fun i => csa + 0x400000 * i) else none }
  let s := { s with teams := mset s.teams u t, nextId := u + 1, nextAge := s.nextAge + 1 }
  let s := ((s.l1Fit c 4096).acquire c 5).freshCode k index
  let s :=
    if gang then s
    else
      let key := ctxKey c false
      let regs : Map DWord := (List.range 8).map (fun j => (j, BitVec.ofNat 64 (argWord k bs 8 j)))
      s.modCtx key (fun x => { x.started false u k.contract k.code k.seed regs with readySince := (s.die c.die).open_ })
  s.admitted k index c

/-! ## Restoring a team (R448) -/

/-- A barrier as the area holds it (R440). -/
def barBytes (b : Bar) : List Byte :=
  List.flatten [toBytes 8 (b.phase.toNat + b.expect * 2 ^ 32 + b.count * 2 ^ 48), List.replicate 120 0, toBytes 128 b.arrived.toNat]
def barOf (bs : List Byte) : Bar :=
  let w := ofBytes (bs.take 8)
  { phase := BitVec.ofNat 32 w, expect := bits w 42 32, count := bits w 58 48, arrived := BitVec.ofNat 1024 (ofBytes ((bs.drop 128).take 128)) }
/-- A join-table entry (R416): its two words. -/
def joinBytes (j : Join) : List Byte := toBytes 8 (j.words.getD 0 0).toNat ++ toBytes 8 (j.words.getD 1 0).toNat ++ List.replicate 48 0

/-- An entry of the join table as the area holds it, if it is in use; its object stands where the team reached it before, or where its
address leads now. -/
def State.joinLoad (s : State) (u : Nat) (old : List Join) (e : List Byte) : Option Join :=
  let w0 := ofBytes (e.take 8)
  let w1 := ofBytes ((e.drop 8).take 8)
  let obj := bits w0 56 0
  let pa : Option Nat := match old.find? (fun j => j.obj == obj) with
    | some j => some j.pa
    | none => match s.translate { asid := s.asidOf u, core := s.coreOf (.slice u 0) } obj accRead 0 with | .ok pa _ _ => some pa | _ => none
  if bitAt w0 63 then pa.map (fun pa => { obj := obj, pa := pa, member := bits w1 33 24, words := [BitVec.ofNat 64 w0, BitVec.ofNat 64 w1] }) else none

/-- The team's state that the S8 reloads from the area, when it can be read. -/
def State.reloadTeam (s : State) (u : Nat) : State :=
  let s := match s.csaRead u 0 256 with
    | none => s
    | some h =>
      let w (off : Nat) : Nat := ofBytes ((h.drop off).take 8)
      s.modTeam u (fun t => { t with trapBase := trapBaseOf (w 8), trapMask := trapMaskOf (w 16), sthash := BitVec.ofNat 64 (w 0x20), copyCnt := BitVec.ofNat 64 (w 0x40) })
  let s := match s.csaRead u 0x1000 4096 with
    | none => s
    | some bs => s.modTeam u (fun t => { t with bars := (List.range 16).map (fun i => (i, { barOf ((bs.drop (256 * i)).take 256) with again := ((mget t.bars i).getD {}).again })) })
  match s.csaRead u 0x800 512 with
  | none => s
  | some bs => s.modTeam u (fun t => { t with joins := (List.range 8).filterMap (fun i => s.joinLoad u t.joins ((bs.drop (64 * i)).take 64)) })

/-- A parked slice enters the HALT vector at the depth of its HALT frame. -/
def State.reenter (s : State) (u i : Nat) : State :=
  match s.team u, s.slice u i with
  | some t, some x =>
    let off := frameOff x.depth i
    let act : Mask := BitVec.ofNat 4 (bits (s.csaWord u (off + 0x40) 8) 63 60) &&& x.live
    let s := s.areaWrite { team := u, off := off + 5, bytes := [1], merge := true }
    s.modSlice u i (fun x => { x with pc := t.vbase + 64 * kHalt, act := act, rejoin := [], region := [], names := [], parked := false, restoring := true,
                                      wait := .none, barTok := none, nwTok := none, waitCyc := 0, yieldEnd := 0, readySince := (s.die t.core.die).open_, starved := false, due := 0, issued := none, xf := [] })
  | _, _ => s

/-- n bytes of a team's area in pieces of a page, or the first fault (kind, cause, VA, replayable). -/
def State.areaRead (s : State) (u : Nat) : List (Nat × Nat) → Except (Nat × Nat × Nat × Bool) (List Byte)
  | [] => .ok []
  | (off, n) :: r =>
    match s.team u with
    | none => .ok []
    | some t =>
      let va := t.csa.getD 0 + off
      match s.translate { asid := s.asidOf u, core := t.core, priv := true } va accRead 0 with
      | .fault k c rp => .error (k, c, va, rp)
      | _ => match State.areaRead s u r with
        | .ok bs => .ok ((s.csaRead u off n).getD [] ++ bs)
        | .error e => .error e

/-- Bytes of the area from an offset on; none where they cannot be read. -/
def State.areaGet (s : State) (u off n : Nat) : Option (List Byte) :=
  match s.areaRead u (pagePieces (n / 4096 + 2) off n) with | .ok bs => some bs | .error _ => none

/-- The pages of the area that a restore reads. -/
def restorePages (held : List (Bool × Ctx)) : List (Nat × Nat) :=
  [(0, 4096), (0x1000, 4096)] ++ (if held.isEmpty then [] else [(0xD0000, 4096)]) ++
    (if held.any (·.1) then (List.range 84).map (fun i => (0xE0000 + 4096 * i, 4096)) ++ (List.range 256).map (fun i => (0x140000 + 4096 * i, 4096)) else [])

/-- A context from its header (R446). -/
def Ctx.fromHeader (x : Ctx) (m : Bool) (exit : Nat) (bs : List Byte) : Ctx :=
  let w (o : Nat) : Nat := ofBytes ((bs.drop o).take 8)
  let h := w 0x48
  { x with
    pc := bits (w 0x40) 56 0, contract := bits h 57 46, preds := BitVec.ofNat 8 (bits h 40 34 + 128), fstk := BitVec.ofNat 32 (h % 64)
    region := ((List.range (min 16 (bits h 45 41))).map (fun j => BitVec.ofNat 16 (w (0x60 + 2 * j)))).reverse
    run := match bits h 33 32 with | 0 => .running | 1 => .ended | _ => .stopped
    exit := exit, seed := BitVec.ofNat 64 (w 0x50), opseq := if m then BitVec.ofNat 64 (w 0x58) else 0
    regs := (List.range 32).map (fun i => (i, BitVec.ofNat 64 (w (0x80 + 8 * i)))) }

/-- An accumulator from its image (R344): one whose header is zero has no shape. -/
def Acc.ofImage (bs : List Byte) : Acc :=
  let w := ofBytes (bs.take 8) % 2 ^ 32
  if ofBytes (bs.take 8) = 0 then {} else
    { cells := BitVec.ofNat 524288 (ofBytes ((bs.drop 64).take (shapeRows w * shapeCols w * cellBytes (shapeKind w)))), shape := some (BitVec.ofNat 32 w) }

/-- An accumulator whose image holds an interrupted operation (R344, R349): the operation with its tiles and RM, the groups summed and the
partial array. -/
def State.cutOp (s : State) (u a groupLog : Nat) : Option (Flight × Nat × List Nat) :=
  let base := 0x140000 + 0x40000 * a
  let h := (s.areaGet u base 16).getD []
  let w0 := ofBytes (h.take 8)
  let w1 := ofBytes ((h.drop 8).take 8)
  if !bitAt w0 44 then none
  else
    let n := shapeRows w0 * shapeCols w0
    let es := (s.areaGet u (base + 64 + n * cellBytes (shapeKind w0)) (8 * n)).getD []
    some (.op (if bitAt w0 45 then .mmav else .mma) a (bits w1 19 16) (bits w1 23 20) (bits w1 26 24), bits w1 8 0 / 2 ^ groupLog,
      (List.range n).map (fun i => ofBytes ((es.drop (8 * i)).take 8)))

/-- A held context as the area gives it (R349, R440), with the operation that was interrupted. -/
def State.loadCtx (s : State) (u : Nat) (m : Bool) (x : Ctx) : Ctx :=
  let get (off n : Nat) : List Byte := (s.areaGet u off n).getD []
  let hd := ofBytes (get 0x28 8)
  let x := x.fromHeader m (if m then bits hd 47 32 else bits hd 31 16) (get (if m then 0xD0000 else 0xD0400) 0x180)
  if !m then x
  else
    let tc := get 0xD0C00 128
    let word (i : Nat) : Nat := ofBytes ((tc.drop (4 * i)).take 4)
    let tile (t : Nat) : Tile :=
      { cfg := BitVec.ofNat 32 (word t), bits := BitVec.ofNat 131072 (ofBytes (get (0xE0000 + 0x4000 * t) 16384)),
        scales := BitVec.ofNat 32768 (ofBytes (get (0x120000 + 0x1000 * t) 4096)),
        outliers := BitVec.ofNat 8192 (ofBytes (get (0x130000 + 0x400 * t) 1024)), count := min 256 (word (16 + t)) }
    let cut := (List.range 4).findSome? (fun a => s.cutOp u a ((Config.contract? x.contract).getD default).groupLog)
    { x with codebook := BitVec.ofNat 8192 (ofBytes (get 0xD0800 1024)), tiles := (List.range 16).map (fun t => (t, tile t)),
             accs := (List.range 4).map (fun a => (a, Acc.ofImage (get (0x140000 + 0x40000 * a) 65600))),
             flight := cut.map (·.1), part := cut.map (·.2) }

/-- The first fault that a restore meets in the area; one answered FAIL is met. -/
def State.restoreFault (s : State) (u : Nat) : Option (Nat × Nat × Nat × Bool) :=
  match s.team u with
  | none => none
  | some t => match s.areaRead u (restorePages t.held) with
    | .error (k, c, va, rp) => some (k, c, va, rp && !s.geXf.any (fun f => f.1 == .restore u && f.2.page == va / 4096))
    | .ok _ => none

/-- A saved team is restored on a core. Where the area cannot be read, its state is what the save left (DESIGN CHOICE, log 58). -/
def State.restoreTeam (s : State) (k : Task) (u : Nat) (c : CoreId) : State :=
  match s.team u with
  | none => s
  | some t =>
    let s := s.setTeam u { t with core := c, status := .resident, age := s.nextAge, halt := none, restoreAt := s.nextId, wanted := false, nwHold := [], held := [], kfile := [], scratch := [], scrBad := [] }
    let s := ({ s with nextAge := s.nextAge + 1 } : State)
    let s := (s.l1Fit c 4096).acquire c 5
    let kept := s.restoreFault u |>.isSome
    let held := t.held.map (fun p => (p.1, if kept then p.2 else s.loadCtx u p.1 p.2))
    let s := foldS (fun (p : Bool × Ctx) s => s.modCtx (ctxKey c p.1) (fun x => { p.2 with holder := some u, owner := some u, ops := x.ops, pend := p.2.pend ++ x.pend.filter (·.kind == kMxf), gateSince := none, yieldEnd := 0, wait := .none, readySince := (s.die c.die).open_ })) held s
    let s := foldS (fun p s => s.reenter u p.1) t.slices ((s.reloadTeam u).geForget (.restore u))
    s.admitted k t.index c

/-! ## Offering teams (R96, R100, R101) -/

/-- What offering a unit comes to: placed, no room, or an end to the offers of this task. -/
inductive Offer where
  | placed (s : State)
  | noFit
  | stop (s : State)

/-- Start new teams of a task together, on their cores and with their slots, or none of them (R22); each reads the argument block at this
moment (R31). -/
def State.startAll (s : State) (serial : Nat) (us : List (Nat × CoreId)) : Offer :=
  match s.task serial with
  | none => .stop s
  | some k =>
    match (if k.cls = 0 then s.slotsFor k.asid us.length else some (us.map (fun _ => none))) with
    | none => .noFit
    | some slots =>
      match s.argBytes k with
      | .ok bs => .placed (foldS (fun (p : (Nat × CoreId) × Option Nat) s => s.startTeam k p.1.1 p.1.2 p.2 bs) (us.zip slots) s)
      | .hold a b va => .stop (s.geHold (.args serial) k.asid a b va accRead)
      | .fault => .stop ((s.geForget (.args serial)).abortTask serial (fun k => { k with argFault := some k.next }))

/-- Offer the next unit of teams never admitted: a team, or a cohort. -/
def State.offerNew (s : State) (serial : Nat) : Offer :=
  match s.task serial with
  | none => .stop s
  | some k =>
    if k.cohort then
      match s.chooseQuad k (fun _ => some []) none with
      | none => .noFit
      | some c => s.startAll serial ((List.range 4).map (fun j => (k.next + j, { c with core := j })))
    else
      match s.chooseCore k [] none with
      | none => .noFit
      | some c => s.startAll serial [(k.next, c)]

/-- Teams of one task that are pre-empted and restored together: a cohort (R24), or every team of a task placed whole (R379). -/
def Task.together (k : Task) (i j : Nat) : Bool := i == j || bits k.lvlbar 2 1 != 0 || (k.cohort && i / 4 == j / 4)

/-- The handles of each slice's NWAIT, when every live slice of the team waits in a blocking NWAIT (R85). -/
def Team.nwaits (t : Team) : List (List DWord) := if t.slices.all (fun p => p.2.wait == .nwait) then t.slices.map (fun p => p.2.nwOn) else []

/-- A team, and the teams that go with it, may be pre-empted for a task of any priority (R85, R104). -/
def State.nwaitIdle (s : State) (u : Nat) : Bool :=
  match s.team u, s.taskOf u with
  | some t, some k => s.teams.all (fun p => p.2.task != t.task || !k.together p.2.index t.index || !p.2.nwaits.isEmpty)
  | _, _ => false

/-- One of the NWAITs in which a team was halted is satisfied, or it was not halted in NWAIT (R85). -/
def State.nwaitMet (s : State) (t : Team) : Bool := t.nwHold.isEmpty || t.nwHold.any (fun hs => hs.all (fun h => (s.byHandle h.toNat).isNone))

/-- A saved team is to be restored: an NWAIT of it, or of a team that goes with it, is satisfied (R85). -/
def State.restorable (s : State) (t : Team) : Bool :=
  match s.task t.task with
  | some k => s.teams.any (fun p => p.2.task == t.task && k.together p.2.index t.index && s.nwaitMet p.2)
  | none => false

/-- The saved teams of a task that are to be restored, in ascending %team. -/
def State.savedOf (s : State) (serial : Nat) : List (Nat × Team) :=
  let ts := s.teams.filter (fun p => p.2.task == serial && p.2.status == .saved && s.restorable p.2)
  let insert (p : Nat × Team) (l : List (Nat × Team)) := (l.takeWhile (fun q => q.2.index < p.2.index)) ++ p :: l.dropWhile (fun q => q.2.index < p.2.index)
  ts.foldr insert []

/-- The die a saved team must return to (R379). -/
def Task.sameDie (k : Task) (t : Team) : Option Nat := if bits k.lvlbar 2 1 = 0 then none else some t.core.die

/-- The teams of a saved team's cohort that are to be restored with it, or the team alone (R24). -/
def State.mates (s : State) (k : Task) (u : Nat) (t : Team) : List (Nat × Team) :=
  if k.cohort then s.teams.filter (fun p => p.2.task == k.serial && p.2.index / 4 == t.index / 4 && p.2.status != .ending) else [(u, t)]

/-- A replayable fault on the area of one of the teams to be restored holds the restore (R122). -/
def State.restoreHeld (s : State) (us : List Nat) : Option State :=
  us.findSome? (fun u => match s.restoreFault u with
    | some (k, c, va, true) => some (s.geHold (.restore u) (s.asidOf u) k c va accRead)
    | _ => none)

/-- Offer a saved team, or the whole cohort of one (R24, R105). -/
def State.offerSaved (s : State) (serial u : Nat) : Offer :=
  match s.task serial, s.team u with
  | some k, some t =>
    if k.cohort then
      let mates := s.mates k u t
      if mates.any (fun p => p.2.status != .saved) then .noFit
      else
        let need (j : Nat) : Option (List Bool) := (mates.find? (fun p => p.2.index % 4 == j)).map (fun p => p.2.held.map (·.1))
        match s.chooseQuad k need (k.sameDie t) with
        | none => .noFit
        | some c => match s.restoreHeld (mates.map (·.1)) with
          | some s => .stop s
          | none => .placed (foldS (fun (p : Nat × Team) s => s.restoreTeam k p.1 { c with core := p.2.index % 4 }) mates s)
    else match s.chooseCore k (t.held.map (·.1)) (k.sameDie t) with
      | none => .noFit
      | some c => match s.restoreHeld [u] with | some s => .stop s | none => .placed (s.restoreTeam k u c)
  | _, _ => .stop s

/-- The course of a pass for one task: the state, whether a team was admitted, whether all so far fit, and whether a hold or fault ended
the offers. -/
structure Pass where
  s : State
  any : Bool := false
  go : Bool := true
  stopped : Bool := false

def Pass.offer (p : Pass) (f : State → Offer) : Pass :=
  if !p.go then p
  else match f p.s with
    | .placed s => { s := s, any := true, go := true }
    | .noFit => { p with go := false }
    | .stop s => { p with s := s, go := false, stopped := true }

/-- New teams until one does not fit. -/
def Pass.newTeams (p : Pass) (serial : Nat) : Nat → Pass
  | 0 => p
  | n + 1 =>
    match p.s.task serial with
    | none => p
    | some k => if !p.go ∨ k.nteam ≤ k.next then p else Pass.newTeams (p.offer (fun s => s.offerNew serial)) serial n

/-- The replayable fault that holds the placing of a task, on an area to restore or on the argument block. -/
def State.placeHeld (s : State) (k : Task) : Option State :=
  match s.restoreHeld ((s.savedOf k.serial).map (·.1)) with
  | some t => some t
  | none => match s.argBytes k with | .hold a b va => some (s.geHold (.args k.serial) k.asid a b va accRead) | _ => none

/-- Every unplaced team of a task, saved ones first. A task with a barrier at `.die` or `.pkg` is placed whole or not at
all, and its saved teams return together (R379). -/
def State.offerTask (s : State) (serial : Nat) : Pass :=
  match s.task serial with
  | none => { s := s }
  | some k =>
    let whole : Bool := bits k.lvlbar 2 1 != 0
    let saved := if whole && s.teams.any (fun p => p.2.task == serial && p.2.status == .resident) then [] else s.savedOf serial
    let p : Pass := saved.foldl (fun p e => p.offer (fun s => if (s.team e.1).any (fun t => t.status == .saved) then s.offerSaved serial e.1 else .placed s)) { s := s }
    let p := p.newTeams serial k.nteam
    let short := match p.s.task serial with | some k => decide (k.next < k.nteam) || !(p.s.savedOf serial).isEmpty | none => false
    let faulted := match p.s.task serial with | some k => k.argFault.isSome | none => false
    if whole && short && p.any && !faulted then { s := if p.stopped then (s.placeHeld k).getD s else s } else p

/-! ## The first dispatch of a task (R46, R64, R75 to R77) -/

/-- R64: the contract is absent. -/
def State.contractAbsent (s : State) (k : Task) : Bool :=
  k.cls != 1 && (vectorClass k.contract == 0 || (List.range 8).all (fun d => !s.dieHas k d))

/-- The log header at dispatch (R46): the state, and whether dispatch goes on. -/
def State.openLog (s : State) (k : Task) : State × Bool :=
  if k.rrmode = 0 then (s, true)
  else
    let L : Log := { s := s }
    let (n, L) := L.get k.serial geCore 0 8
    let (_, L) := L.get k.serial geCore 8 8
    let n := n % 2 ^ 32
    let bad := k.rrmode = 1 ∧ L.err.isNone ∧ (n = 0 ∨ 2 ^ 20 < n)
    let L := if k.rrmode = 1 ∧ !bad then L.init k.serial geCore else L
    match L.err with
    | some e => ((if e.1 then s else L.s).logFault k.serial geCore e, false)
    | none => if bad then (s.abortTask k.serial (fun k => { k with listFault := true }), false) else (L.s.modTask k.serial (fun k => { k with nchunk := n, nextChunk := 0 }), true)

/-- Nothing of a task is placed, and it is to end. -/
def State.endEmpty (s : State) (serial : Nat) (capx : Bool) : State :=
  s.modTask serial (fun k => { k with started := true, capx := capx, next := k.nteam, left := 0 })

/-- Dispatch a ready task: its first dispatch, and then its teams. DESIGN CHOICE (log 104): the contract is judged first, so that a
task refused with CAPX, one of no team among them, leaves its log as it was; the header of the log is opened next; a task of no
team ends after that. -/
def State.dispatchTask (s : State) (serial : Nat) : Pass :=
  match s.task serial with
  | none => { s := s }
  | some k =>
    if k.started then s.offerTask serial
    else if s.contractAbsent k then { s := s.endEmpty serial true }
    else if k.cls = 1 then
      if k.nteam = 0 then { s := s.endEmpty serial false } else
      { s := { s.modTask serial (fun k => { k with started := true, next := k.nteam }) with hostCalls := s.hostCalls ++ (List.range k.nteam).map (fun i => (serial, i)) } }
    else if s.faultWaits (.log serial) then { s := s }
    else
      let (s, ok) := s.openLog k
      if !ok then { s := s }
      else if k.nteam = 0 then { s := s.endEmpty serial false }
      else (s.modTask serial (fun k => { k with started := true })).offerTask serial

/-! ## Passes (R74, R100, R103, R104) -/

/-- Every team has ended, and the task has been dispatched or is to end without. -/
def Task.endDue (k : Task) : Bool := k.left == 0 && (k.started || k.killed || k.listFault || k.argFault.isSome)

/-- A ready task has a team to place. -/
def State.unplaced (s : State) (k : Task) : Bool :=
  k.edges.isEmpty && k.ending.isNone && !k.endDue && (decide (k.next < k.nteam) || !(s.savedOf k.serial).isEmpty)

/-- A ready task that a pass has something to do for: a first dispatch, or a team to place. -/
def State.isReady (s : State) (k : Task) : Bool := (k.edges.isEmpty && k.ending.isNone && !k.endDue && !k.started) || s.unplaced k

/-- The ready order of R74. -/
def State.readyOrder (s : State) : List Nat :=
  let ks := (s.tasks.map (·.2)).filter s.isReady
  let before (a b : Task) : Bool := decide (b.prio < a.prio) || (a.prio == b.prio && decide (a.serial < b.serial))
  let insert (k : Task) (l : List Task) := (l.takeWhile (fun x => before x k)) ++ k :: l.dropWhile (fun x => before x k)
  (ks.foldr insert []).map (·.serial)

/-- Walk the ready order: the state, and for each task whether a team of it was admitted. -/
def State.walkReady (s : State) : List Nat → State × List (Nat × Bool)
  | [] => (s, [])
  | n :: ns =>
    let p := s.dispatchTask n
    let (s, r) := State.walkReady p.s ns
    (s, (n, p.any) :: r)

/-- Count the pass-overs of a pass. -/
def State.countPasses (s : State) : List (Nat × Bool) → State
  | [] => s
  | (n, any) :: r =>
    let late := !any && r.any (·.2) && (match s.task n with | some k => s.unplaced k | none => false)
    State.countPasses (if late then s.modTask n (fun k => { k with passes := k.passes + 1 }) else s) r

/-- Reservations held by the package. -/
def State.resvs (s : State) : Nat := (s.tasks.filter (fun p => p.2.resv.isSome)).length

/-- What the unit that a task offers first needs of core j of its quad, or of its core: the contexts of a saved team (R24, R100,
R349), and nothing where no team goes. -/
def State.firstNeeds (s : State) (k : Task) (j : Nat) : Option (List Bool) :=
  match s.savedOf k.serial with
  | [] => some []
  | (u, t) :: _ => if k.cohort then ((s.mates k u t).find? (fun p => p.2.index % 4 == j)).map (fun p => p.2.held.map (·.1)) else some (t.held.map (·.1))

/-- The place to reserve for a task: no other task's, with the fewest resident lanes, and on the die where a team placed whole stood
(R101, R103, R379). -/
def State.chooseResv (s : State) (k : Task) : Option Resv :=
  let die := (s.savedOf k.serial).head?.bind (fun p => k.sameDie p.2)
  let ok (c : CoreId) : Bool := (match die with | some d => c.die == d | none => true) && !(s.core c).fenced && s.dieHas k c.die && !s.tasks.any (fun p => p.1 != k.serial && (match p.2.resv with
    | some v => v.die == c.die && v.quad == c.quad && (k.cohort || v.core.isNone || v.core == some c.core)
    | none => false))
  if k.cohort then
    let at_ (c : CoreId) (j : Nat) : CoreId := { c with core := j }
    (bestBy (fun _ => 0) (fun c => ((List.range 4).map (fun j => s.lanesOn (at_ c j) [])).sum)
      (allCores.filter (fun c => c.core == 0 && (List.range 4).all (fun j => ok (at_ c j))))).map (fun c => { die := c.die, quad := c.quad, core := none })
  else (bestBy (fun _ => 0) (fun c => s.lanesOn c []) (allCores.filter ok)).map (fun c => { die := c.die, quad := c.quad, core := some c.core })

/-- Give the reservations that are due, in ready order (R103). -/
def State.giveResvs (s : State) (agelim : Nat) : List Nat → State
  | [] => s
  | n :: ns =>
    let s := match s.task n with
      | some k => if agelim ≤ k.passes ∧ k.resv.isNone ∧ s.resvs < 64 ∧ s.unplaced k then s.modTask n (fun t => { t with resv := s.chooseResv k }) else s
      | none => s
    State.giveResvs s agelim ns

/-- The graph engine wants a team pre-empted, and with it its cohort, and every team of a task placed whole (R24, R379). -/
def State.want (s : State) (u : Nat) : State :=
  match s.team u, s.taskOf u with
  | some t, some k =>
    { s with teams := s.teams.map (fun p =>
        if p.1 == u || (p.2.task == t.task && p.2.status == .resident && k.together p.2.index t.index) then (p.1, { p.2 with wanted := true }) else p) }
  | _, _ => s

/-- The cores of a reservation. -/
def Resv.cores (v : Resv) : List CoreId :=
  match v.core with | some j => [{ die := v.die, quad := v.quad, core := j }] | none => (List.range 4).map (fun j => { die := v.die, quad := v.quad, core := j })

/-- Victims until the reserved team fits, with the contexts that it held: lowest priority, then youngest; a team that waits in NWAIT
whatever its priority (R104, R85, R349). -/
def State.victims (s : State) (k : Task) (v : Resv) : Nat → State
  | 0 => s
  | n + 1 =>
    let gone := (s.teams.filter (fun p => p.2.wanted)).map (·.1)
    if v.cores.all (fun c => match s.firstNeeds k c.core with | some ctxs => s.fits k c gone ctxs | none => true) then s
    else
      let cs := (v.cores.filter (fun c => (s.firstNeeds k c.core).isSome)).flatMap (fun c => s.teamsOn c gone)
      let ok := cs.filter (fun p => (decide (p.task.prio < k.prio) || s.nwaitIdle p.id) && p.team.csa.isSome && p.team.status == .resident)
      match ok with
      | [] => s
      | p :: ps =>
        let worse (a b : Placed) : Bool := decide (b.task.prio < a.task.prio) || (b.task.prio == a.task.prio && decide (a.team.age < b.team.age))
        State.victims (s.want (ps.foldl (fun a b => if worse a b then b else a) p).id) k v n

/-- Pre-empt for every reservation while PRE is set, by acceptance order of the tasks that hold them (DESIGN CHOICE, log 106). -/
def State.preempt (s : State) : State :=
  if bitAt (s.ge 0x20040) 0 then
    foldS (fun (p : Nat × Task) s => match p.2.resv with | some v => s.victims p.2 v s.teams.length | none => s) s.tasks s
  else s

/-- RESV of PLCTL reads the number of reservations held (R106). -/
def State.syncResv (s : State) : State := s.setGe 0x20040 (setBits (s.ge 0x20040) 47 32 s.resvs)

/-- DISPATCH_PASS. -/
def State.dispatchPass (s : State) : State :=
  if !s.passDue then s
  else
    let (s, r) := ({ s with passDue := false }).walkReady s.readyOrder
    let s := s.countPasses r
    ((s.giveResvs (bits (s.ge 0x20040) 31 16) s.readyOrder).preempt).syncResv

/-- PLCTL_WRITE (R106). -/
def State.plctlWrite (s : State) (val : DWord) : State :=
  if !s.mgmt.started then s
  else
    let a := bits val.toNat 31 16
    { s.setGe 0x20040 (s.resvs * 2 ^ 32 + (if a = 0 then 1 else a) * 2 ^ 16 + val.toNat % 2) with passDue := true }

/-! ## Pre-emption (R445, R447) -/

/-- HALT_REQUEST: the request reaches the team's core, and of a team of a cohort the cores of its mates, since a cohort halts as a
whole (R278). A team whose slices all wait in NWAIT may be asked while a ready task
has a team to place, without having been chosen before (R85). -/
def State.haltRequest (s : State) (u : Nat) : State :=
  match s.team u with
  | none => s
  | some t =>
    let able : Bool := t.csa.isSome && t.status == .resident && t.halt.isNone && !t.slices.isEmpty
    let mate (p : Nat × Team) : Bool := p.1 == u || (p.2.task == t.task && p.2.index / 4 == t.index / 4 && (s.task t.task).any (·.cohort) && p.2.status == .resident)
    let halt (s : State) : State := { s with teams := s.teams.map (fun p =>
      if mate p && p.2.halt.isNone then (p.1, { p.2 with halt := some (s.cyc p.2.core.die), haltAt := s.nextId, nwHold := p.2.nwaits }) else p) }
    if able && t.wanted then halt s
    else if able && s.nwaitIdle u && s.tasks.any (fun p => s.unplaced p.2) then halt (s.want u)
    else s

/-- The contexts a team holds. -/
def State.heldKeys (s : State) (u : Nat) : List Nat := (s.ctxs.filter (fun p => p.2.holder == some u)).map (·.1)

/-- A copy in flight, numbered below a bound, writes a team's scratchpad or its arrival words. -/
def State.copiesInto (s : State) (u bound : Nat) : Bool :=
  let here (w : Option (Nat × Nat)) : Bool := match w with | some p => p.1 == u | none => false
  s.copies.any (fun p => decide (p.1 < bound) && p.2.cells.any (fun c => c.dsts.any (fun d => d.team == u) || here c.saw || here c.daw))

/-- A copy in flight has still to read a team's scratchpad. -/
def State.copiesFrom (s : State) (u : Nat) : Bool :=
  s.copies.any (fun p => p.2.cells.any (fun c => c.data.isNone && (match c.src with | .scr v _ => v == u | .va _ => false)))

/-- An access or a transfer in flight of another team of its cohort reaches a team's scratchpad (R110). -/
def State.reachedFrom (s : State) (u : Nat) : Bool :=
  let here : Place → Bool := fun p => match p with | .scr v _ => v == u | .phys _ _ => false
  s.mops.any (fun p => p.2.todo.any (fun e => e.place.any here)) ||
    s.ctxs.any (fun p => match p.2.flight with | some (.xfer _ _ _ _ segs) => segs.any (fun l => l.any (fun g => here g.1)) | _ => false)

/-- A run of bytes cut at 4 KiB pages. -/
def csaPieces (off : Nat) (bs : List Byte) : Nat → List (Nat × List Byte)
  | 0 => []
  | n + 1 => if bs.isEmpty then [] else (let k := 4096 - off % 4096; (off, bs.take k) :: csaPieces (off + k) (bs.drop k) n)

/-- Writes to the area in order, until one cannot be made. -/
def State.csaAll (s : State) (u : Nat) : List (Nat × List Byte) → CsaRes
  | [] => .done s
  | (off, bs) :: r =>
    match s.csaWrite u off bs with
    | .done s => State.csaAll s u r
    | .hold k c va => .hold k c va
    | .fail k c => .fail k c

/-- The state of an MSQ context beside its header (R440), without the accumulator of an interrupted operation. An accumulator
that has no shape leaves a header of zeros (DESIGN CHOICE, log 58). -/
def Ctx.areaParts (x : Ctx) (cut : Option Nat) : List (Nat × List Byte) :=
  let tiles := List.range 16
  List.flatten
    [ [(0xD0800, toBytes 1024 x.codebook.toNat),
       (0xD0C00, tiles.flatMap (fun t => toBytes 4 (x.tile t).cfg.toNat) ++ tiles.flatMap (fun t => toBytes 4 (x.tile t).count))],
      tiles.map (fun t => (0xE0000 + 0x4000 * t, toBytes 16384 (x.tile t).bits.toNat)),
      tiles.map (fun t => (0x120000 + 0x1000 * t, toBytes 4096 (x.tile t).scales.toNat)),
      tiles.map (fun t => (0x130000 + 0x400 * t, toBytes 1024 (x.tile t).outliers.toNat)),
      ((List.range 4).filter (cut != some ·)).map (fun a => (0x140000 + 0x40000 * a, if (x.acc a).shape.isSome then (x.acc a).image x.contract else List.replicate 8 0)) ]

/-- Everything a context save writes (R440, R446, R447). -/
def State.saveParts (s : State) (u : Nat) : List (Nat × List Byte) :=
  match s.team u with
  | none => []
  | some t =>
    let keys := s.heldKeys u
    let exit (m : Bool) : Nat := match keys.find? (fun k => (k % 2 == 1) == m) with | some k => (s.ctx k).exit | none => 0
    let has (m : Bool) : Nat := bit01 (keys.any (fun k => (k % 2 == 1) == m))
    let st (k : Nat) : Nat := match (s.ctx k).run with | .ended => 1 | .stopped => 2 | _ => 0
    let pt (k : Nat) : PTrap × Nat := (s.ctx k).trap.getD ({ kind := 0, cause := 0 }, 0)
    List.flatten
      [ [(0x08, wordsToBytes [t.trapBase.toNat, t.trapMask.toNat]),
         (0x20, wordsToBytes [t.sthash.toNat, exit true * 2 ^ 32 + exit false * 2 ^ 16 + has true * 2 + has false]),
         (0x40, toBytes 8 t.copyCnt.toNat),
         (0x800, ((t.joins.flatMap joinBytes) ++ List.replicate 512 0).take 512),
         (0x1000, (List.range 16).flatMap (fun i => barBytes ((mget t.bars i).getD {})))],
        keys.map (fun k => (ctxOff k, wordsToBytes (s.ctxHeader k (st k) (pt k).1 (pt k).2))),
        (keys.filter (fun k => k % 2 == 1)).flatMap (fun k =>
          (s.ctx k).areaParts ((s.interrupted k).map (·.2.1)) ++
            (match s.interrupted k with
              | some (op, d, ta, tb, rm) => [(0x140000 + 0x40000 * d, s.partImage k op d ta tb rm)]
              | none => [])) ]

/-- A halting team has stopped: its slices stand parked and its contexts at rest (R348). Of a team whose slices have ended the contexts
have too. -/
def State.atRest (s : State) (u : Nat) (t : Team) : Bool :=
  t.slices.all (fun p => p.2.parked) &&
    (s.heldKeys u).all (fun k => ((s.ctx k).flight.isNone || (s.interrupted k).isSome) && (s.ctx k).opened.isNone && !s.mops.any (fun p => p.2.by_ == .ctx k) &&
      (t.status != .ending || (s.ctx k).run != .running))

/-- An operation of a slice of a team. -/
def MemOp.ofTeam (op : MemOp) (u : Nat) : Bool := match op.by_ with | .slice v _ => v == u | .ctx _ => false

/-- A load or atomic of a team's slices is in flight (R309). -/
def State.readsOf (s : State) (u : Nat) : Bool := s.mops.any (fun p => p.2.ofTeam u && (p.2.kind == .ld || p.2.kind == .ldk || p.2.kind == .atom))

/-- Everything R447 waits for but the drain: slices parked, their loads complete (R309), contexts at rest, also those of the mates of its
cohort (R278), and copies settled, those that have still to read its scratchpad among them (R301). -/
def State.saveReady (s : State) (u : Nat) : Bool :=
  match s.team u with
  | none => false
  | some t =>
    let cohort : Bool := (s.task t.task).any (·.cohort)
    t.status == .resident && t.halt.isSome && s.atRest u t && !s.copiesInto u t.haltAt && !s.copiesFrom u && !s.reachedFrom u && !s.readsOf u &&
      s.teams.all (fun p => !cohort || p.2.task != t.task || p.2.index / 4 != t.index / 4 || p.2.status == .saved || s.atRest p.1 p.2) &&
      !s.faultWaits (.frame u 0 kHalt 0) && !s.owes u

/-- CONTEXT_SAVE_COMPLETE (R447). -/
def State.contextSave (s : State) (u : Nat) : State :=
  match s.team u with
  | none => s
  | some t =>
    if !s.saveReady u then s
    else
    let s := foldS (fun k s => s.partFlags k) (s.heldKeys u) s
    if (s.core t.core).wc.any (fun e => e.teams.contains u) then s.wcDrain t.core (fun e => e.teams.contains u)
    else
      match s.csaAll u ((s.saveParts u).flatMap (fun p => csaPieces p.1 p.2 (p.2.length + 1))) with
      | .fail _ _ => s.trapEnd u kHalt 0 0
      | .hold k c va => s.raiseFault { asid := s.asidOf u, core := t.core } va k c accWrite (.frame u 0 kHalt 0)
      | .done s =>
        let keys := s.heldKeys u
        let held := keys.map (fun k => (k % 2 == 1, s.ctx k))
        let s := foldS (fun k s => s.modCtx k (fun x => { x with holder := none, run := .idle, flight := none, part := none, pend := [] })) keys s
        let s := s.modTeam u (fun t => { t with status := .saved, halt := none, wanted := false, held := held, scratch := [], hid := [], kfile := [],
                                                slices := t.slices.map (fun p => (p.1, { p.2 with names := [] })) })
        { s with passDue := true, opens := s.opens + 2 ^ 16 }

/-! ## The end of a team (R484) -/

/-- Writes of a team's slices that are neither performed nor recorded (R371, R484). -/
def State.storesOut (s : State) (u : Nat) : Bool :=
  s.mops.any (fun p => p.2.ofTeam u && (p.2.kind == .st || p.2.kind == .red || ((p.2.kind == .atom || p.2.kind == .hist) && !p.2.todo.isEmpty)))

/-- Settle every level barrier of a task. -/
def State.settleAll (s : State) (serial : Nat) : State :=
  match s.task serial with
  | none => s
  | some k => foldS (fun p s => s.settleLevel serial p.1) k.levels s

/-- A splice result bound for a team's scratchpad is still out (R402, R484). -/
def State.splicesInto (s : State) (u : Nat) : Bool := s.splices.any (fun p => p.team == u)

/-- TEAM_END (R484). Contributions that the team issued come before its departure (R419), and a TRIGGER that it issued marks its lanes
first (R488). -/
def State.teamEnd (s : State) (u : Nat) : State :=
  match s.team u with
  | none => s
  | some t =>
    let keys := s.heldKeys u
    if t.status ≠ .ending ∨ s.storesOut u ∨ keys.any (fun k => (s.ctx k).run == .running || (s.ctx k).flight.isSome || s.mops.any (fun p => p.2.by_ == .ctx k)) ∨
        s.copiesInto u s.nextId ∨ s.copiesFrom u ∨ s.reachedFrom u ∨ s.splicesInto u ∨ s.owes u ∨ !t.marking.isEmpty then s
    else if (s.core t.core).wc.any (fun e => e.teams.contains u) then s.wcDrain t.core (fun e => e.teams.contains u)
    else
      let s := foldS (fun k s => s.modCtx k (fun x => { x with holder := none, run := .idle })) keys s
      let s := s.depart u
      let s := if t.away then s else s.releaseL1 t.core 5
      let s := { s with teams := mdel s.teams u, passDue := true, mops := s.mops.filter (fun p => !p.2.ofTeam u || p.2.kind == MemKind.hitch) }
      let s := match s.task t.task with | some k => s.podLeave u k | none => s
      let s := s.modTask t.task (fun k => { k with left := k.left - 1 })
      (s.settleAll t.task).earlyRelease t.task

/-! ## The end of a task (R485, R486) -/

/-- The reason of a task's end, and TEAM of its report; none is retired. -/
def Task.endReason (k : Task) : Option (Nat × Nat) :=
  let first := k.trapTeam.getD 0
  if k.capx then some (rCapx, 0)
  else if k.killed then some (rKilled, first)
  else match k.argFault with
    | some t => some (rArgfault, t)
    | none => if k.listFault then some (rListfault, first) else if k.trapTeam.isSome then some (rTrapend, first) else none

/-- The completion word (R486). -/
def Task.doneWord (k : Task) : Nat :=
  match k.endReason with
  | some (r, t) => 5 * 2 ^ 56 + r * 2 ^ 48 + t * 2 ^ 24 + k.ntrap
  | none => 4 * 2 ^ 56 + k.ntrap

/-- Steps 3 to 5 of R485. The task's reservations end with its pool entry (DESIGN CHOICE, log 140). -/
def State.retire (s : State) (k : Task) : State :=
  let s := match k.endReason with
    | some (r, t) => s.report k.src 5 r k.stream k.tag k.handle (t * 2 ^ 40)
    | none => s.report k.src 4 0 k.stream k.tag k.handle 0
  let s := if k.released then s else s.satisfyEdges k.serial
  ({ ((s.geForget (.done k.serial)).geForget (.args k.serial)) with tasks := mdel s.tasks k.serial, passDue := true, hostCalls := s.hostCalls.filter (fun c => c.1 != k.serial) } : State).syncResv

/-- TASK_END: the release is complete once the task's copies are, since every team's end has written back its core; then the completion word, the
report, the edges and the pool entry. -/
def State.taskEnd (s : State) (handle : DWord) : State :=
  match s.byHandle handle.toNat with
  | none => s
  | some k =>
    if !k.endDue ∨ s.copies.any (fun p => p.2.task == k.serial) then s
    else
      let s := (s.publishTask k.serial).modTask k.serial (fun k => { k with ending := some 2 })
      if k.doneAddr = 0 then s.retire k
      else match s.geTr (.done k.serial) k.asid k.doneAddr accWrite with
        | .ok pa _ _ => (s.homeWrite pa (toBytes 8 k.doneWord)).retire k
        | .fault kd cs true => s.geHold (.done k.serial) k.asid kd cs k.doneAddr accWrite
        | _ => (s.setGe 0x20030 (satInc 32 (bits (s.ge 0x20030) 31 0))).retire k

/-! ## The meanings -/

def execDispatchPass (s : State) : Host.Outcome State Fault Refusal := .next s.dispatchPass
def execPlctlWrite (val : DWord) (s : State) : Host.Outcome State Fault Refusal := .next (s.plctlWrite val)
def execHaltRequest (team : Nat) (s : State) : Host.Outcome State Fault Refusal := .next (s.haltRequest team)
def execContextSaveComplete (team : Nat) (s : State) : Host.Outcome State Fault Refusal := .next (s.contextSave team)
def execTeamEnd (team : Nat) (s : State) : Host.Outcome State Fault Refusal := .next (s.teamEnd team)
def execTaskEnd (handle : DWord) (s : State) : Host.Outcome State Fault Refusal := .next (s.taskEnd handle)

end Sys2Proof.Machine
end

