-- ==== Sys2Proof/Machine/Admin.lean ====
section
/-!
DEFINITION. What reaches the machine from outside its instruction streams: walks, answers to faults and invalidations (chapter
6), storage errors (R455, R456), host writes of registers and memory (R10, R279), features, throttling, the life cycle
and SPDM (chapter 29).
-/
namespace Sys2Proof.Machine

/-! ## Walks (R129, R130) -/

/-- The core on whose behalf a waiter waits. -/
def State.waiterCore (s : State) (w : Waiter) : CoreId :=
  match w with
  | .slice u i => s.coreOf (.slice u i)
  | .ctx k => ctxCore k
  | .op id => match mget s.mops id with | some m => s.coreOf m.by_ | none => geCore
  | .cell k _ => match mget s.copies k with | some c => c.core | none => geCore
  | .frame u i _ _ => s.coreOf (.slice u i)
  | _ => geCore

/-- A slice or context that waits for a walk looks again. -/
def State.wake (s : State) (a : Issuer) (w : Wait) : State :=
  match a with
  | .slice u i => s.modSlice u i (fun x => if x.wait = w then { x with wait := .none } else x)
  | .ctx k => s.modCtx k (fun x => if x.wait = w then { x with wait := .none } else x)

/-- A fault kept for the access that asked. -/
def State.keepFault (s : State) (w : Waiter) (f : WalkFault) : State :=
  match w with
  | .slice u i => s.modSlice u i (fun x => if x.wait = .walk then { x with xf := x.xf ++ [f] } else x)
  | .ctx k => s.modCtx k (fun x => if x.wait = .walk then { x with xf := x.xf ++ [f] } else x)
  | .op id => s.modOp id (fun m => { m with todo := m.todo.map (fun e => if e.tva / 4096 = f.page then { e with xf := e.xf ++ [f] } else e) })
  | _ => s

/-- The waiter of a walk goes on. -/
def State.walked (s : State) (w : Waiter) : State :=
  match w with
  | .slice u i => s.wake (.slice u i) .walk
  | .ctx k => s.wake (.ctx k) .walk
  | _ => s

/-- WALK: a walk in progress on a die, the one asked for first, ends with its translation or its fault, and the walker takes the
next request (R130). -/
def State.walkOne (s : State) (die : Nat) : State :=
  match (s.die die).walks.find? (·.busy) with
  | none => s
  | some q =>
    let s := s.modDie die (fun d => Die.startWalk { d with walks := d.walks.erase q })
    let s := match s.walk q.asid q.va with
      | .ok t => foldS (fun w s => s.tlbFill (s.waiterCore w) t) q.waiters s
      | .error c => foldS (fun w s => s.keepFault w { asid := q.asid, page := q.va / 4096, kind := kXlate, cause := c, replay := s.demand q.asid }) q.waiters s
    foldS (fun w s => s.walked w) q.waiters s

/-! ## The answers to a fault (R122, R126, R128) -/

/-- A fault holds an element of an operation. An element that has its place is held by the log alone (R46). -/
def State.holds (s : State) (f : FaultEntry) (m : MemOp) (e : El) : Bool :=
  e.held && e.place.isNone && (if e.flt.isSome then s.inArea (s.teamOf m.by_) f.va else e.tva / 4096 == f.va / 4096)

/-- An agent goes on once no pending entry lists it, nor an access that it makes by the graph engine's path (R122). -/
def State.goOn (s : State) (a : Issuer) : State :=
  if s.faultWaits (waiterOf a) || (match a with | .slice u i => s.faultWaits (.engine (.slice u i)) | .ctx _ => false) then s else s.wake a .replay

/-- An access by the graph engine's path is answered. -/
def State.geAnswered (s : State) (g : GeUser) : State := match g with | .slice u i => s.goOn (.slice u i) | _ => { s with passDue := true }

/-- An agent whose fault is answered keeps the outcomes given, without any of that page before, and goes on once no pending entry lists
it (R122). -/
def State.answered (s : State) (a : Issuer) (f : FaultEntry) (xs : List WalkFault) : State :=
  let keep (l : List WalkFault) : List WalkFault := l.filter (fun x => x.page != f.va / 4096 || x.asid != f.asid) ++ xs
  let s := match a with
    | .slice u i => s.modSlice u i (fun x => { x with xf := keep x.xf })
    | .ctx k => s.modCtx k (fun x => { x with xf := keep x.xf })
  s.goOn a

/-- The fetches of the tasks of an address space see the page that an address leads to now as memory holds it (R153). -/
def State.leafImages (s : State) (asid va : Nat) : State :=
  match s.walk asid va with
  | .ok t => { s with tasks := s.tasks.map (fun p => if p.2.asid = asid then (p.1, { p.2 with image := Mem.patch p.2.image s.mem t.frame (t.frame + 2 ^ t.log) }) else p) }
  | .error _ => s

/-- RETRY of a fault: the access is translated anew. Of an operation in flight go on the elements that the fault held: those of its
page, or those whose store-fault record could not be pushed. -/
def State.retryOne (s : State) (f : FaultEntry) (w : Waiter) : State :=
  match w with
  | .slice u i => s.answered (.slice u i) f []
  | .ctx k => s.answered (.ctx k) f []
  | .op id => s.modOp id (fun m => { m with todo := m.todo.map (fun e => if s.holds f m e then { e with held := false, xf := [] } else e) })
  | .cell k id => s.setCell k id (fun x => some { x with held := false })
  | .frame u i _ _ => s.wake (.slice u i) .replay
  | .area id => match mget s.owed id with | some w => ({ s with owed := mdel s.owed id } : State).areaWrite w | none => s
  | .engine g => s.geAnswered g
  | .log serial =>
    let mine (a : Issuer) : Bool := match s.team (s.teamOf a) with | some t => t.task == serial | none => false
    let s := foldS (fun (p : Nat × Team) s => if p.2.task = serial then foldS (fun (q : Nat × Slice) s => s.wake (.slice p.1 q.1) .replay) p.2.slices s else s) s.teams s
    let s := foldS (fun (p : Nat × Ctx) s => if mine (.ctx p.1) then s.wake (.ctx p.1) .replay else s) s.ctxs s
    { s with mops := s.mops.map (fun p => if mine p.2.by_ then (p.1, { p.2 with todo := p.2.todo.map (fun e => if e.place.isSome then { e with held := false } else e) }) else p), passDue := true }

/-- FAIL: the access meets the fault. OWN is delivered as PROT, cause OWNED. -/
def State.failOne (s : State) (f : FaultEntry) (w : Waiter) : State :=
  let x : WalkFault := { asid := f.asid, page := f.va / 4096, kind := if f.kind = kOwn then kProt else f.kind, cause := f.cause, replay := false, final := true }
  match w with
  | .slice u i => if (s.sl u i).wait = .replay then s.answered (.slice u i) f [x] else s
  | .ctx k => if (s.ctx k).wait = .replay then s.answered (.ctx k) f [x] else s
  | .op id => s.modOp id (fun m => { m with todo := m.todo.map (fun e =>
      if !s.holds f m e then e
      else if e.flt.isSome then { e with held := false, failed := true }
      else { e with held := false, flt := some (f.kind, f.cause) }) })
  | .cell k id => s.setCell k id (fun c => some { c with held := false, failed := some (f.kind, f.cause) })
  | .frame u i kind cause => (s.wake (.slice u i) .replay).trapEnd u kind cause (s.sl u i).pc
  | .area id => { s with owed := mdel s.owed id }
  | .engine g => ({ s with geXf := s.geXf ++ [(g, x)] } : State).geAnswered g
  | .log serial => (s.retryOne f w).abortTask serial (fun k => { k with listFault := true })

/-- A FACT write: every access that waits on a pending entry is answered, and the entry frees. After a full ring FQHEAD moves on to it
(R126). A retried access reaches what its page maps now, which the fetches of its space see too (R153; DEDUCED, log 29). -/
def State.answerFault (s : State) (die idx : Nat) (retry : Bool) : State :=
  match (s.die die).faults.find? (fun f => f.ring == some idx) with
  | none => s
  | some f =>
    let fs := (s.die die).faults.filter (fun g => g.ring != some idx)
    let h := (s.die die).fqHead
    let h := if fs.any (fun g => g.ring == some h) then (freeIndex fs h 1024).getD h else h
    let s := ((s.modDie die (fun d => { d with faults := fs, fqHead := h })).setTc (0x1000 * die + 8) h).setTc (0x1000 * die + 0x10) ((fs.filter (fun x => x.ring.isSome)).length)
    let s := if retry then s.leafImages f.asid f.va else s
    foldS (fun w s => if retry then s.retryOne f w else s.failOne f w) f.waiters s

/-! ## Invalidations (R125) -/

/-- Addresses of an address space are in the scope of an invalidation. -/
def inScope (v : Nat × Nat × Nat × Nat) (asid lo hi : Nat) : Bool :=
  let (scope, a, va, n) := v
  scope == 0 || (a == asid && (scope == 1 || (decide (lo < va + 4096 * n) && decide (va < hi))))

/-- Every TLB drops the entries of a scope. -/
def State.dropTlbs (s : State) (v : Nat × Nat × Nat × Nat) : State :=
  let keep (t : Tlb) : Bool := !inScope v t.asid t.base (t.base + 2 ^ t.log)
  { s with cores := s.cores.map (fun (p : Nat × Core) => (p.1, { p.2 with tlb := p.2.tlb.filter keep })),
           quads := s.quads.map (fun (p : Nat × Quad) => (p.1, { p.2 with tlb := p.2.tlb.filter keep })) }

/-- Start an invalidation, unless one is in progress: the TLBs drop its scope, so that what translates from here on walks the
tables (R124 lets it), what is in flight is noted, and every write-combining entry begins to drain (R286). -/
def State.invalidate (s : State) (scope asid npg : Nat) : State :=
  if s.inval.isSome then s
  else
    let v := (scope, asid, bits (s.tc 0x8008) 56 12 * 4096, npg)
    let t := foldS (fun (p : Nat × Core) s => s.wcDrain (Sys2Proof.Machine.coreOf p.1) (fun _ => true)) s.cores s
    { (t.dropTlbs v).setTc 0x8018 1 with inval := some v, invalOp := s.nextId, invalCtxs := (s.ctxs.filter (fun p => p.2.transfers)).map (·.1) }

/-- The address space of an agent's accesses. -/
def State.asidBy (s : State) (a : Issuer) : Nat := s.asidOf (s.teamOf a)

/-- An access that may have used an entry that the start of the invalidation dropped has not completed. -/
def State.usesOld (s : State) (v : Nat × Nat × Nat × Nat) : Bool :=
  s.mops.any (fun p => decide (p.1 < s.invalOp) && p.2.todo.any (fun e => e.place.isSome && inScope v p.2.asid e.tva (e.tva + p.2.size))) ||
    s.ctxs.any (fun p => s.invalCtxs.contains p.1 && p.2.transfers && inScope v (s.asidBy (.ctx p.1)) 0 (2 ^ 57))

/-- A write-combining entry that an invalidation waits for: one with a store of an operation from before its start that drains, or
holds stores of an address space of the scope (R125, R286). -/
def State.wcOld (s : State) (v : Nat × Nat × Nat × Nat) (e : WcEntry) : Bool :=
  decide (e.first < s.invalOp) && (e.draining || e.teams.any (fun u => inScope v (s.asidOf u) 0 (2 ^ 57)))

/-- INVALIDATION_COMPLETE: the writes that used the entries become visible at `.pkg`, every translation cache drops the
scope and no access keeps a fault that a walk met before, the instruction caches are emptied, the tasks of the scope fetch what memory
holds now (DEDUCED, log 29), and TBUSY returns to 0. No L1 or RDC keeps a line filled before, so the first access
that translates afresh finds what was performed before the completion, as its acquire at `.pkg` demands (R123, R360). -/
def State.invalDone (s : State) : State :=
  match s.inval with
  | none => s
  | some v =>
    let cs := (s.cores.map (fun p => Sys2Proof.Machine.coreOf p.1)).filter (fun c => (s.core c).wc.any (s.wcOld v))
    if s.usesOld v then s
    else if !cs.isEmpty then foldS (fun c t => t.wcDrain c (s.wcOld v)) cs s
    else
      let fault (f : WalkFault) : Bool := !inScope v f.asid (4096 * f.page) (4096 * f.page + 4096) || f.final
      let s := (foldS (fun (p : Nat × Core) s => s.l1BackAll (Sys2Proof.Machine.coreOf p.1)) s.cores s).dropTlbs v
      let s := { s with cores := s.cores.map (fun (p : Nat × Core) => (p.1, { p.2 with icache := [], l1 := [] })),
                        dies := s.dies.map (fun (p : Nat × Die) => (p.1, { p.2 with rdc := [] })),
                        teams := s.teams.map (fun (p : Nat × Team) => (p.1, { p.2 with slices := p.2.slices.map (fun (q : Nat × Slice) => (q.1, { q.2 with xf := q.2.xf.filter fault })) })),
                        ctxs := s.ctxs.map (fun (p : Nat × Ctx) => (p.1, { p.2 with xf := p.2.xf.filter fault })),
                        mops := s.mops.map (fun (p : Nat × MemOp) => (p.1, { p.2 with todo := p.2.todo.map (fun (e : El) => { e with xf := e.xf.filter fault }) })),
                        tasks := s.tasks.map (fun (p : Nat × Task) => if inScope v p.2.asid 0 (2 ^ 57) then (p.1, { p.2 with image := s.mem }) else p),
                        inval := none, invalOp := 0, invalCtxs := [] }
      s.setTc 0x8018 0

/-! ## Storage errors (R455, R456) -/

/-- The entry with the oldest first error. -/
def oldestErr : List ErrEntry → Option ErrEntry
  | [] => none
  | e :: es => match oldestErr es with | some f => some (if f.first < e.first then f else e) | none => some e

/-- Fence a core: it admits no team, and teams with a context save area are pre-empted. -/
def State.fenceCore (s : State) (c : CoreId) : State :=
  let s := s.modCore c (fun k => { k with fenced := true })
  foldS (fun (p : Nat × Team) s => if p.2.core = c ∧ p.2.status = .resident ∧ p.2.csa.isSome then s.want p.1 else s) s.teams s

/-- A lasting location, by its class. -/
def State.lasting (s : State) (die : Nat) (loc : ErrLoc) : State :=
  let s := s.tell (.lasting die loc (s.cyc die))
  match loc with
  | .regFile c _ => s.fenceCore c
  | .sram c _ => s.fenceCore c
  | .seqWord c _ => { s.modQuad c (fun q => { q with absent := true }) with passDue := true }
  | .cacheSet n => s.modDie die (fun d =>
      { d with lostSets := d.lostSets ++ [n], rdc := d.rdc.filter (fun p => Config.cacheSetOf p.1 ≠ BitVec.ofNat 16 n) })
  | _ => s

/-- The location of R455 in which data lies: a register file entry, a 4 KiB block of a core's SRAM, a cache set, a page of HBM or a word of
a sequencer; none for data in no such location. -/
def State.errPlace (s : State) (loc : ErrLoc) : Option ErrLoc :=
  match loc with
  | .regEntry u i n => (s.team u).map (fun t => .regFile t.core (Config.regEntryOf u i n).toNat)
  | .scratch u off => (s.team u).map (fun t => .sram t.core (Config.sramOfScratch u (off / 4096)).toNat)
  | .l1Line c ln => some (.sram c (Config.sramOfLine ln).toNat)
  | .l2Line pa => some (.cacheSet (Config.cacheSetOf (pa / 128)).toNat)
  | .rdcLine ln => some (.cacheSet (Config.cacheSetOf ln).toNat)
  | .hbm pa => some (.hbm (pa / 4096 * 4096))
  | .preds _ _ => none
  | .stacks _ _ => none
  | .regFile c e => some (.regFile c e)
  | .sram c b => some (.sram c b)
  | .cacheSet n => some (.cacheSet n)
  | .seqWord c m => some (.seqWord c m)

/-- A corrected error counted at a location of R455. -/
def State.countError (s : State) (die : Nat) (loc : ErrLoc) : State :=
  let cyc := s.cyc die
  let es := (s.die die).errors
  let fresh : ErrEntry := { loc := loc, count := 1, first := cyc }
  match es.find? (fun e => e.loc == loc) with
  | some e =>
    let e' : ErrEntry := if cyc - e.first < 2 ^ 32 then { e with count := e.count + 1 } else fresh
    let s := s.modDie die (fun d => { d with errors := d.errors.map (fun x => if x = e then e' else x) })
    if e'.count = 3 then s.lasting die loc else s
  | none =>
    let es' := if es.length < 64 then es ++ [fresh] else match oldestErr es with | some o => es.map (fun x => if x = o then fresh else x) | none => [fresh]
    s.modDie die (fun d => { d with errors := es' })

/-- CORRECTED_ERROR. -/
def State.correctedError (s : State) (die : Nat) (loc : ErrLoc) : State := match s.errPlace loc with | some l => s.countError die l | none => s

/-- n free values. -/
def State.frees (s : State) : Nat → List DWord × State
  | 0 => ([], s)
  | n + 1 =>
    let (v, s) := s.free
    let (vs, s) := State.frees s n
    (v :: vs, s)

/-- ECC at the next boundary of a slice whose own storage has lost a value. -/
def Slice.lose (x : Slice) : Slice := { x with pend := x.pend ++ [{ kind := kEcc, cause := 1 }] }

/-- UNCORRECTABLE_ERROR: poisoned data, or ECC for the owner of the location. A value that is lost is a free value after it. -/
def State.uncorrectable (s : State) (die : Nat) (loc : ErrLoc) : State :=
  let s := s.tell (.uncorrectable die loc (s.cyc die))
  match loc with
  | .hbm pa => { s with poison := mset s.poison (pa / 128) 4 }
  | .l2Line pa => { s with poison := mset s.poison (pa / 128) 3 }
  | .rdcLine ln => s.modDie die (fun d => { d with rdc := mupd d.rdc ln (fun l => { l with bad := 3 }) })
  | .l1Line c ln => s.modCore c (fun k => { k with l1 := mupd k.l1 ln (fun l => { l with bad := 2 }) })
  | .scratch u off =>
    if s.scrBytes u ≤ off then s
    else
      let (v, s) := s.free
      (s.scrWrite u off [v.setWidth 8]).modTeam u (fun t => { t with scrBad := t.scrBad ++ [off] })
  | .preds u i =>
    let (v, s) := s.free
    s.modSlice u i (fun x => { x with preds := Four.ofFn (fun p => BitVec.ofNat 8 (bits v.toNat (7 * p + 6) (7 * p) + 128)) }.lose)
  | .stacks u i =>
    match s.slice u i with
    | none => s
    | some x =>
      let (vs, s) := s.frees (2 * x.rejoin.length + x.region.length)
      let v (n : Nat) : Nat := (vs.getD n 0).toNat
      let msk (n : Nat) : Mask := BitVec.ofNat 4 (bits (v n) 63 60) &&& x.live
      let rj := (List.range x.rejoin.length).map (fun j =>
        ({ jpc := bits (v (2 * j)) 56 0, rpc := bits (v (2 * j + 1)) 56 0, wmask := msk (2 * j), pmask := msk (2 * j + 1) } : Rejoin))
      let rg := (List.range x.region.length).map (fun j => BitVec.ofNat 16 (v (2 * x.rejoin.length + j)))
      s.modSlice u i (fun x => { x with rejoin := rj, region := rg }.lose)
  | .regEntry u i n =>
    match s.slice u i with
    | none => s
    | some x =>
      let (v0, s) := s.free
      let (v1, s) := s.free
      let lost : Four Word := ⟨v0.setWidth 32, (v0 >>> 32).setWidth 32, v1.setWidth 32, (v1 >>> 32).setWidth 32⟩
      s.modSlice u i (fun _ => { x with names := mupd x.names n (fun _ => lost) }.lose)
  | .seqWord c m => s.modCtx (ctxKey c m) (fun x => if x.run = .running then { x with pend := x.pend ++ [{ kind := kEcc, cause := 5 }] } else x)
  | .regFile _ _ => s
  | .sram _ _ => s
  | .cacheSet _ => s

/-! ## Features, throttling and the life cycle (R490 to R495) -/

/-- FEATDRV_WRITE. -/
def State.featdrvWrite (s : State) (val : Nat) : State :=
  if s.everAccepted ∨ !s.mgmt.started then s else s.setGe 0x20050 (val % 256 &&& s.ge 0x20048)

/-- A pattern in the range of R107 and R491. -/
def Throttle.ok (t : Throttle) : Bool := decide (8 ≤ t.plog.toNat) && decide (t.plog.toNat ≤ 16) && decide (t.bcnt.toNat < 2 ^ t.plog.toNat)

/-- A pattern is offered: committed when every die accepts, otherwise refused. -/
def State.throttle (s : State) (t : Throttle) : State :=
  if Throttle.ok t ∧ (List.range 8).all (fun d => decide (s.cyc d + 2 ^ 16 ≤ t.estart.toNat)) then
    let b : Bubble := { plog := t.plog.toNat, bcnt := t.bcnt.toNat, estart := t.estart.toNat }
    let s := foldS (fun d s => s.modDie d (fun x => { x with pending := x.pending ++ [b] })) (List.range 8) s
    (s.setGe 0x20060 (t.plog.toNat * 2 ^ 16 + t.bcnt.toNat)).setGe 0x20068 t.estart.toNat
  else s.tell .throttleRefused

/-- The pattern a die applies at its present count (R107): of those whose start count it has reached the one with the latest
start, and of several with one start the one committed last. -/
def Die.pattern (d : Die) : Option Bubble :=
  (d.pending.filter (fun b => decide (b.estart ≤ d.cyc))).foldl (fun a b => match a with
    | some x => if x.estart ≤ b.estart then some b else a
    | none => some b) d.bubble
/-- The die's present cycle is a bubble. -/
def Die.inBubble (d : Die) : Bool := match d.pattern with | some b => decide (d.cyc % 2 ^ b.plog < b.bcnt) | none => false

/-- THROTTLE_START. -/
def State.throttleStart (s : State) (die : Nat) : State :=
  s.modDie die (fun d => { d with bubble := d.pattern, pending := d.pending.filter (fun b => decide (d.cyc < b.estart)) })

/-- An active hitch of a pool node after a reset of this package: its teams that joined are gone without having departed, and nobody
here waits for an answer (DESIGN CHOICE, log 108). -/
def Hitch.orphaned (h : Hitch) : Hitch :=
  let far (g : Given) : Given := { g with op := none }
  { h with
    members := h.members.map (fun x => { x with joined := if x.joined.isSome then some none else none, held := x.held.map far })
    backlog := h.backlog.map (fun b => match b with | .give m g => .give m (far g) | .depart m => .depart m) }

/-- What a reset or a transition leaves: fuses, the memory of the pool nodes, the management plane's own record, what has
been sent, and the model's own fields. Every key is discarded, so a flow goes on under a new one (R494); a test of every sub-array
is due (R325). -/
def State.wipe (s : State) : State :=
  { State.reset with
    mem := s.mem.filter (fun p => decide (2 ^ 47 ≤ p.1)), poison := s.poison.filter (fun p => decide (2 ^ 47 ≤ 128 * p.1)), pkgId := s.pkgId,
    quads := (List.range 256).map (fun q => (q, { retest := true }))
    outbox := s.outbox, hitches := (s.hitches.filter (fun p => decide (2 ^ 47 ≤ p.1))).map (fun p => (p.1, p.2.orphaned)), slots := s.slots, sent := s.sent, nodeKeys := s.nodeKeys, nodeClasses := s.nodeClasses, farOff := s.farOff, packets := s.packets, inbox := s.inbox, nextId := s.nextId, opens := s.opens,
    flows := s.flows.map (fun p => (p.1, { rekeys := p.2.rekeys + 1 }))
    mgmt := { s.mgmt with started := false, session := 0, keys := [] } }

/-- CRITICAL_TEMPERATURE. -/
def State.critical (s : State) (die : Nat) : State := (s.tell (.critical die)).wipe

/-- FIRMWARE_LOAD: the image is measured; one that passes its signature check starts the compute plane, except in BLANK; in
RETURNED only a test image does (R494). -/
def State.firmwareLoad (s : State) (f : Firmware) : State :=
  if s.mgmt.started then s
  else
    let s := s.modMgmt (fun m => { m with measurement := f.measurement })
    if f.signatureOk ∧ s.mgmt.life ≠ .blank ∧ (s.mgmt.life = .returned → f.test) then (s.modMgmt (fun m => { m with started := true })).setGe 0x20048 (f.features.toNat % 256) else s

/-- A transition of the life cycle that the table of R494 lists; another is refused. -/
def State.transition (s : State) (life : LifeCycle) : State :=
  let ok : Bool := match s.mgmt.life, life with
    | .blank, .provisioned => true
    | .provisioned, .deployed => true
    | .provisioned, .returned => true
    | .deployed, .returned => true
    | _, _ => false
  if ok then (s.wipe).modMgmt (fun m => { m with life := life, identity := life != .returned }) else s

/-- An SPDM response: its request, by place in the list of R390, and a payload that SPDM gives and the spec does not. -/
def State.spdm (s : State) (request : Nat) : State :=
  s.modMgmt (fun m => { m with responses := m.responses ++ [(request, Config.spdmPayload request m.responses.length)] })

/-! ## Host writes (R10, R279) -/

def ones (hi lo : Nat) : Nat := (2 ^ (hi + 1 - lo) - 1) * 2 ^ lo

/-- The RW bits of a graph engine register that has no behaviour of its own. -/
def geRw (off : Nat) : Nat :=
  if off < 0x20000 then (if off % 0x1000 = 0x18 then ones 15 0 else 0)
  else if off < 0x20100 then
    (if off = 0x20000 then ones 51 12 else if off = 0x20008 then ones 4 0 else if off = 0x20018 then ones 19 0 else if off = 0x20020 then ones 2 0
     else if off = 0x20080 then ones 31 16 else if off = 0x200C0 ∨ off = 0x200C8 then ones 31 0 else 0)
  else if off = 0x20100 then ones 51 4
  else if 0x20200 ≤ off ∧ off < 0x20400 then (if off % 32 = 8 ∨ off % 32 = 16 then 2 ^ 63 + ones 51 0 else 0)
  else if 0x22000 ≤ off ∧ off < 0x22040 then ones 63 61 + ones 47 32 + ones 15 0
  else if off = 0x22040 then ones 47 32 + 1
  else if 0x22080 ≤ off ∧ off < 0x220C0 then (if off % 16 = 0 then ones 56 0 else ones 63 61 + ones 47 32 + ones 5 0)
  else if (0x22100 ≤ off ∧ off < 0x22130) ∨ (0x22200 ≤ off ∧ off < 0x22230) then
    (if off % 256 = 0 then ones 51 12 else if off % 256 = 8 then ones 4 0 else if off % 256 = 0x18 then ones 19 0
     else if off = 0x22128 then ones 63 44 else if off = 0x22228 then ones 63 48 + ones 31 0 else 0)
  else if 0x22400 ≤ off ∧ off < 0x22500 then ones 56 0
  else if off = 0x22780 then ones 63 48 + 1
  else if 0x30000 ≤ off ∧ off < 0x32400 then ones 63 63 + ones 51 32 + ones 31 31 + ones 19 0
  else if 0x34000 ≤ off ∧ off < 0x34120 then ones 2 2
  else if off = 0x34200 then ones 31 0
  else if 0x38000 ≤ off ∧ off < 0x3C000 then
    (match off % 64 / 8 with
     | 0 => ones 63 63 + ones 9 0
     | 1 => ones 63 16 + ones 11 0
     | 2 => ones 63 0
     | 3 => ones 51 0
     | 4 => ones 56 0
     | 5 => ones 35 0
     | 6 => ones 63 24 + ones 15 0
     | _ => ones 56 0)
  else if 0x3C000 ≤ off ∧ off < 0x3D000 then (if off % 16 = 0 then ones 63 63 + ones 55 40 + ones 31 16 else ones 63 32 + ones 23 0)
  else 0

/-- The W1C bits of a graph engine register. -/
def geW1c (off : Nat) : Nat :=
  if off = 0x20028 ∨ off = 0x20030 ∨ off = 0x20400 ∨ off = 0x22120 ∨ off = 0x22220 then ones 31 0 else 0

/-- The RW bits of a translation control register. -/
def tcRw (off : Nat) : Nat :=
  if off = 0x8000 then ones 51 6 else if off = 0x8008 then ones 56 12 else if off < 0x8000 ∧ off % 0x1000 = 0 then ones 51 15 else 0

/-- A write to a register under R10: RW fields take the value, each 1 clears a W1C bit, the rest keeps. -/
def fieldWrite (old val rw w1c : Nat) : Nat := (old ^^^ (old &&& (rw ||| (w1c &&& val)))) ||| (val &&& rw)

/-- LANE_CYCLE_CLEAR (R469). -/
def State.clearSlots (s : State) : State :=
  { s with regs := s.regs.filter (fun p => !(decide (geBase + 0x22500 ≤ p.1) && decide (p.1 < geBase + 0x22780))) }

/-- A written binding with V = 1 configures its slot's default party count, from the next phase on where one is open (R381). -/
def State.podConfigure (s : State) (i : Nat) : State :=
  let b := s.bindAt i
  let n := bits (s.ge (0x3C008 + 16 * i)) 23 0
  let p := s.podSlot b.node b.slot n
  if bitAt (s.ge (0x3C000 + 16 * i)) 63 then { s with slots := mset s.slots (slotKey b.node b.slot) (PodSlot.renew { p with later := some (n, p.gone) }) } else s

/-- A host write of a register of the graph engine or fabric control region. -/
def State.geWrite (s : State) (off v : Nat) : State :=
  let plain (s : State) : State := s.setGe off (fieldWrite (s.ge off) v (geRw off) (geW1c off))
  let port := (off - 0x20200) / 32
  if off < 0x20000 ∧ off % 0x1000 = 0 then s.subaddrWrite (off / 0x1000) (BitVec.ofNat 64 v)
  else if off < 0x20000 ∧ off % 0x1000 = 0x20 then s.hostdone (BitVec.ofNat 64 v)
  else if off = 0x20038 then s.tkill (BitVec.ofNat 64 v)
  else if off = 0x20040 then s.plctlWrite (BitVec.ofNat 64 v)
  else if off = 0x20050 then s.featdrvWrite v
  else if 0x20200 ≤ off ∧ off < 0x20400 then (if off % 32 = 0 then s.portWrite port v else if bitAt (s.ge (portOff port)) 63 then s else plain s)
  else if off = 0x22780 then (if bitAt v 1 then (plain s).clearSlots else plain s)
  else if 0x3C000 ≤ off ∧ off < 0x3D000 then (plain s).podConfigure ((off - 0x3C000) / 16)
  else plain s

/-- A write that starts an invalidation (R125). -/
def State.tscopeWrite (s : State) (v : Nat) : State :=
  if bits v 63 62 = 3 then s else s.invalidate (bits v 63 62) (bits v 47 32) (bits v 31 0)

/-- A host write of a register of the translation control region. -/
def State.tcWrite (s : State) (off v : Nat) : State :=
  if off = 0x8010 then s.tscopeWrite v
  else if off < 0x8000 ∧ off % 0x1000 = 0x18 then (if bits v 63 62 ≤ 1 then s.answerFault (off / 0x1000) (bits v 9 0) (bits v 63 62 == 0) else s)
  else s.setTc off (fieldWrite (s.tc off) v (tcRw off) 0)

/-- REGISTER_WRITE: a host core's write of a register of the I/O die. -/
def State.registerWrite (s : State) (pa val : Nat) : State :=
  if !s.mgmt.started ∨ pa % 8 ≠ 0 then s
  else if geBase ≤ pa ∧ pa < geBase + 0x40000 then s.geWrite (pa - geBase) val
  else if tcBase ≤ pa ∧ pa < tcBase + 0x9000 then s.tcWrite (pa - tcBase) val
  else s

/-- The byte lies in device or pod memory that a host core reaches. -/
def State.hostReaches (s : State) (pa n : Nat) : Bool :=
  inHbm pa n || (match podNode pa with | some k => podNode (pa + n - 1) == some k && s.nodeUp k | none => false)

/-- HOST_MEMORY_ACCESS: performed at the home slice or pool node (R279, R391). -/
def State.hostAccess (s : State) (a : HostAccess) : State :=
  match a with
  | .read _ _ => s
  | .write pa bs => if s.mgmt.started ∧ !bs.isEmpty ∧ s.hostReaches pa bs.length then s.homeWrite pa bs else s

/-! ## Set-up of communicators and hitches (R62, R68, R69) -/

/-- The candidate set of a set-up: the contracts that no member package's SPLICE field and no ATTESTED pool node on the paths lacks. -/
def State.candidates (s : State) (q : SetUp) : List Nat :=
  (Config.catalogue.map (·.num)).filter (fun c =>
    spliceClass c != 0 && !q.absent.contains c && q.nodes.all (fun n => !s.nodeAtt n || s.nodeClass n c != 0))

/-- The contract that a set-up gets: the highest candidate for a request of 0, else the one requested. none: NOCOMMON. -/
def State.negotiate (s : State) (q : SetUp) : Option Nat :=
  let cs := s.candidates q
  if q.request = 0 then (if cs.isEmpty then none else some (cs.foldl max 0)) else if cs.contains q.request then some q.request else none

/-- Word i of what a set-up makes, with the negotiated contract in it. -/
def SetUp.word (q : SetUp) (contract i : Nat) : Nat :=
  let w := (q.words.getD i 0).toNat
  if i ≠ 1 then w else match q.what with | .communicator _ => setBits w 11 0 contract | .hitch _ => setBits w 63 52 contract

/-- The host complex sets up a communicator record, its word with V last, or writes a hitch object; NOCOMMON makes none (R68). -/
def State.setUp (s : State) (q : SetUp) : State :=
  if !s.mgmt.started then s
  else
    let s := { s with setUps := s.setUps ++ [(q, s.negotiate q)] }
    match s.negotiate q, q.what with
    | none, _ => s
    | some c, .communicator slot => if 256 ≤ slot then s else foldS (fun i s => s.geWrite (0x38000 + 64 * slot + 8 * i) (q.word c i)) [7, 6, 5, 4, 3, 2, 1, 0] s
    | some c, .hitch pa => s.hostAccess (.write pa ((List.range 16).flatMap (fun i => toBytes 8 (q.word c i))))

/-! ## Host reads of the contract table (R49, R61) and of MXSTAT (R326) -/

/-- The RM code of a mode. -/
def modeCode : RMode → Nat
  | .rne => 0
  | .rtz => 1
  | .rdn => 2
  | .rup => 3
  | .rna => 4
  | .sr => 5

/-- A contract table entry (R49): its low and high words. -/
def Contract.entry (c : Contract) : Nat × Nat :=
  let acc := match c.accw with | .fp26 => 0 | .fp32 => 1 | .fp40 => 2 | .exact => 3
  (bit01 c.nan * 2 ^ 63 + c.srv * 2 ^ 59,
    c.num * 2 ^ 52 + c.pexp * 2 ^ 40 + c.pfrac * 2 ^ 32 + acc * 2 ^ 29 + c.prom * 2 ^ 24 + c.align * 2 ^ 16 + c.groupLog * 2 ^ 13 + bit01 c.tree * 2 ^ 12 +
      bit01 c.subnRes * 2 ^ 11 + bit01 c.subnProd * 2 ^ 10 + bit01 c.subnIn * 2 ^ 9 + bit01 c.gr * 2 ^ 8 + modeCode c.rim * 2 ^ 5 + modeCode c.rfm * 2 ^ 2 + c.ftab)

/-- Classes from the best to absent: full, half, quarter (R61). -/
def betterClass (a b : Nat) : Nat := if a = 0 then b else if b = 0 then a else min a b

/-- CAPC as the host complex reads it: MATRIX is the best class over all quads (R61). -/
def State.packageCapc (s : State) (n : Nat) : Nat :=
  spliceClass n * 16 + ((List.range 256).foldl (fun b q => betterClass b (matrixClass (s.quad { die := q / 32, quad := q % 32, core := 0 }) n)) 0) * 4 + vectorClass n

/-- A word of the contract table region: two for the entry of each number, and above them two CAPC values in each. -/
def State.ctRead (s : State) (off : Nat) : Nat :=
  if off < 0x10000 then (match Config.contract? (off / 16) with | some c => if off % 16 = 0 then (Contract.entry c).1 else (Contract.entry c).2 | none => 0)
  else if off < 0x14000 then s.packageCapc ((off - 0x10000) / 4) + s.packageCapc ((off - 0x10000) / 4 + 1) * 2 ^ 32
  else 0

/-- The word that a host core reads from a register region of the I/O die. Fields that are only written read 0 (R10). -/
def State.hostRead (s : State) (pa : Nat) : Nat :=
  if ctBase ≤ pa ∧ pa < ctBase + 0x20000 then s.ctRead (pa - ctBase)
  else if geBase + 0x21000 ≤ pa ∧ pa < geBase + 0x21800 then
    let q := (pa - geBase - 0x21000) / 8
    Quad.mxstat (s.quad { die := q / 32, quad := q % 32, core := 0 })
  else (s.reg pa).toNat

/-! ## The meanings -/

def execWalk (die : Nat) (s : State) : Host.Outcome State Fault Refusal := .next (s.walkOne die)
def execFaultRetry (die idx : Nat) (s : State) : Host.Outcome State Fault Refusal := .next (s.awake (s.answerFault die idx true))
def execFaultFail (die idx : Nat) (s : State) : Host.Outcome State Fault Refusal := .next (s.awake (s.answerFault die idx false))
def execFaultQueueWrite (die : Nat) (s : State) : Host.Outcome State Fault Refusal := .next (s.queueFault die)
def execInvalidateAll (s : State) : Host.Outcome State Fault Refusal := .next (s.awake (s.invalidate 0 0 0))
def execInvalidateAsid (asid : BitVec 16) (s : State) : Host.Outcome State Fault Refusal := .next (s.awake (s.invalidate 1 asid.toNat 0))
def execInvalidateRange (asid : BitVec 16) (npg : Word) (s : State) : Host.Outcome State Fault Refusal := .next (s.awake (s.invalidate 2 asid.toNat npg.toNat))
def execInvalidationComplete (s : State) : Host.Outcome State Fault Refusal := .next s.invalDone
def execCorrectedError (die : Nat) (loc : ErrLoc) (s : State) : Host.Outcome State Fault Refusal := .next (s.awake (s.correctedError die loc))
def execUncorrectableError (die : Nat) (loc : ErrLoc) (s : State) : Host.Outcome State Fault Refusal := .next (s.awake (s.uncorrectable die loc))
def execFeatdrvWrite (val : DWord) (s : State) : Host.Outcome State Fault Refusal := .next (s.featdrvWrite val.toNat)
def execThrottleOffer (t : Throttle) (s : State) : Host.Outcome State Fault Refusal := .next (s.awake (s.throttle t))
/-- The management plane offers a pattern because of a die's temperature; it acts as an offer does (R492, R495). -/
def execThrottleTemperature (_die : Nat) (t : Throttle) (s : State) : Host.Outcome State Fault Refusal := .next (s.awake (s.throttle t))
def execThrottleStart (die : Nat) (s : State) : Host.Outcome State Fault Refusal := .next (s.throttleStart die)
def execCriticalTemperature (die : Nat) (s : State) : Host.Outcome State Fault Refusal := .next (s.critical die)
def execPackageReset (s : State) : Host.Outcome State Fault Refusal := .next s.wipe
def execFirmwareLoad (image : Firmware) (s : State) : Host.Outcome State Fault Refusal := .next (s.firmwareLoad image)
def execToProvisioned (s : State) : Host.Outcome State Fault Refusal := .next (s.transition .provisioned)
def execToDeployed (s : State) : Host.Outcome State Fault Refusal := .next (s.transition .deployed)
def execToReturned (s : State) : Host.Outcome State Fault Refusal := .next (s.transition .returned)
def execGetVersion (s : State) : Host.Outcome State Fault Refusal := .next (s.spdm 0)
def execGetCapabilities (s : State) : Host.Outcome State Fault Refusal := .next (s.spdm 1)
def execNegotiateAlgorithms (s : State) : Host.Outcome State Fault Refusal := .next (s.spdm 2)
def execGetDigests (s : State) : Host.Outcome State Fault Refusal := .next (s.spdm 3)
def execGetCertificate (s : State) : Host.Outcome State Fault Refusal := .next (s.spdm 4)
def execChallenge (s : State) : Host.Outcome State Fault Refusal := .next (s.spdm 5)
/-- The firmware's measurement is reported (R493). -/
def execGetMeasurements (s : State) : Host.Outcome State Fault Refusal := .next (s.modMgmt (fun m => { m with responses := m.responses ++ [(6, m.measurement)] }))
/-- A key exchange opens a session. -/
def execKeyExchange (s : State) : Host.Outcome State Fault Refusal := .next ((s.spdm 7).modMgmt (fun m => { m with session := m.responses.length }))
/-- The session that a key exchange opened is established. -/
def execFinish (s : State) : Host.Outcome State Fault Refusal := .next ((s.spdm 8).modMgmt (fun m => { m with keys := if m.session = 0 then m.keys else m.keys ++ [m.session], session := 0 }))
/-- The keys of the last session are updated. -/
def execKeyUpdate (s : State) : Host.Outcome State Fault Refusal := .next ((s.spdm 9).modMgmt (fun m => { m with keys := m.keys.dropLast ++ (if m.keys.isEmpty then [] else [m.responses.length]) }))
def execLaneCycleClear (s : State) : Host.Outcome State Fault Refusal := .next (s.awake s.clearSlots)
def execRegisterWrite (pa : Nat) (val : DWord) (s : State) : Host.Outcome State Fault Refusal := .next (s.registerWrite pa val.toNat)
def execHostMemoryAccess (a : HostAccess) (s : State) : Host.Outcome State Fault Refusal := .next (s.hostAccess a)

end Sys2Proof.Machine
end

