-- ==== Sys2Proof/Decode.lean ====
section
/-!
DEFINITION. The decoder and the encoder: the words of R132 to R137 and the opcode map of R149 and R150. Decoding makes
the checks of step 3 of R151; steps 4 to 6 need the engine and are made where the instruction issues.
-/
namespace Sys2Proof

/-- Why a decoder reads no instruction: an unassigned opcode or opcode pair (R151 step 3); a form that the operation
does not have, which step 4 (engine) precedes and step 5 refuses; or too few words. -/
inductive DecodeError where
  | unassigned
  | form (op : Op)
  | truncated
deriving DecidableEq, Repr

/-- The base-form instruction of an operation; none where the operation has no base form (R198, R237, R256). -/
def Op.baseInstr (op : Op) (b : Base) : Option Instr :=
  match op with
  | .nop => some (.nop b)
  | .bra => some (.bra b)
  | .brx => some (.brx b)
  | .call => some (.call b)
  | .callx => some (.callx b)
  | .ret => some (.ret b)
  | .exit => some (.exit b)
  | .kill => some (.kill b)
  | .yield => some (.yield b)
  | .enter => some (.enter b)
  | .leave => some (.leave b)
  | .plop => some (.plop b)
  | .smov => some (.smov b)
  | .sset => some (.sset b)
  | .trap => some (.trap b)
  | .rett => if b = Base.withD 0 then some .rett else if b = Base.withD 1 then some .rettH else none
  | .drainst => some (.drainst b)
  | .gkill => some (.gkill b)
  | .bkpt => some (.bkpt b)
  | .rrchk => some (.rrchk b)
  | .trigger => some (.trigger b)
  | .seqend => some (.seqend b)
  | .mov => some (.mov b)
  | .kmov => some (.kmov b)
  | .iadd => some (.iadd b)
  | .isub => some (.isub b)
  | .iaddc => some (.iaddc b)
  | .isubb => some (.isubb b)
  | .iadd64 => some (.iadd64 b)
  | .imul => some (.imul b)
  | .imulh => some (.imulh b)
  | .imad => none
  | .imad64 => none
  | .imin => some (.imin b)
  | .imax => some (.imax b)
  | .iabs => some (.iabs b)
  | .and => some (.and b)
  | .or => some (.or b)
  | .xor => some (.xor b)
  | .andn => some (.andn b)
  | .shl => some (.shl b)
  | .shr => some (.shr b)
  | .sar => some (.sar b)
  | .shf => none
  | .rot => some (.rot b)
  | .bfx => some (.bfx b)
  | .bfi => none
  | .popc => some (.popc b)
  | .clz => some (.clz b)
  | .brev => some (.brev b)
  | .perm => none
  | .icmp => some (.icmp b)
  | .isel => some (.isel b)
  | .lea => none
  | .fence => some (.fence b)
  | .bar => some (.bar b)
  | .bara => some (.bara b)
  | .barw => some (.barw b)
  | .barinit => some (.barinit b)
  | .splice => some (.splice b)
  | .fork => none
  | .rdv => none
  | .fadd => some (.fadd b)
  | .fsub => some (.fsub b)
  | .fmul => some (.fmul b)
  | .ffma => none
  | .fmin => some (.fmin b)
  | .fmax => some (.fmax b)
  | .fcmp => some (.fcmp b)
  | .fclass => some (.fclass b)
  | .fscale => some (.fscale b)
  | .frcp => some (.frcp b)
  | .frsq => some (.frsq b)
  | .fsqrt => some (.fsqrt b)
  | .fdiv => some (.fdiv b)
  | .fexp2 => some (.fexp2 b)
  | .flog2 => some (.flog2 b)
  | .fsin => some (.fsin b)
  | .fcos => some (.fcos b)
  | .dadd => some (.dadd b)
  | .dmul => some (.dmul b)
  | .dfma => none
  | .dcmp => some (.dcmp b)
  | .hadd2 => some (.hadd2 b)
  | .hmul2 => some (.hmul2 b)
  | .hfma2 => none
  | .hmin2 => some (.hmin2 b)
  | .hmax2 => some (.hmax2 b)
  | .fdot => none
  | .cvt => none
  | .cvtpk => some (.cvtpk b)
  | .qblk => none
  | .dqblk => none
  | .vqdec => some (.vqdec b)
  | .exphist => some (.exphist b)
  | .srseed => some (.srseed b)
  | .xshf => some (.xshf b)
  | .xbcast => some (.xbcast b)
  | .xred => some (.xred b)
  | .xscan => some (.xscan b)
  | .xdot => none
  | .xvote => some (.xvote b)
  | .xmatch => some (.xmatch b)
  | .ld => some (.ld b)
  | .st => some (.st b)
  | .ldk => some (.ldk b)
  | .atom => some (.atom b)
  | .red => some (.red b)
  | .pref => some (.pref b)
  | .cflush => some (.cflush b)
  | .cinv => some (.cinv b)
  | .acp16 => none
  | .tcopy => some (.tcopy b)
  | .tdump => some (.tdump b)
  | .awinit => some (.awinit b)
  | .awexp => some (.awexp b)
  | .await => some (.await b)
  | .awtest => some (.awtest b)
  | .launch => some (.launch b)
  | .nwait => some (if b.b = 1 then .nwaitT b else .nwait b)
  | .hinit => none
  | .hjoin => none
  | .hcontrib => none
  | .hwait => none
  | .hquery => none
  | .tcfg => none
  | .tld => none
  | .tst => none
  | .tzero => none
  | .mma => none
  | .mmav => none
  | .cbld => none
  | .olapply => none
  | .aprom => none
  | .aout => none
  | .asav => none
  | .arst => none
  | .ahist => none
  | .stest => none

/-- The extended instruction of an operation; none where the operation has none (R450). -/
def Op.extInstr (op : Op) (x : Ext) : Option Instr :=
  match op with
  | .nop => some (.nopExt x)
  | .bra => some (.braExt x)
  | .brx => some (.brxExt x)
  | .call => some (.callExt x)
  | .callx => some (.callxExt x)
  | .ret => some (.retExt x)
  | .exit => some (.exitExt x)
  | .kill => some (.killExt x)
  | .yield => some (.yieldExt x)
  | .enter => some (.enterExt x)
  | .leave => some (.leaveExt x)
  | .plop => some (.plopExt x)
  | .smov => some (.smovExt x)
  | .sset => some (.ssetExt x)
  | .trap => some (.trapExt x)
  | .rett => none
  | .drainst => some (.drainstExt x)
  | .gkill => some (.gkillExt x)
  | .bkpt => some (.bkptExt x)
  | .rrchk => some (.rrchkExt x)
  | .trigger => some (.triggerExt x)
  | .seqend => some (.seqendExt x)
  | .mov => some (.movExt x)
  | .kmov => some (.kmovExt x)
  | .iadd => some (.iaddExt x)
  | .isub => some (.isubExt x)
  | .iaddc => some (.iaddcExt x)
  | .isubb => some (.isubbExt x)
  | .iadd64 => some (.iadd64Ext x)
  | .imul => some (.imulExt x)
  | .imulh => some (.imulhExt x)
  | .imad => some (.imad x)
  | .imad64 => some (.imad64 x)
  | .imin => some (.iminExt x)
  | .imax => some (.imaxExt x)
  | .iabs => some (.iabsExt x)
  | .and => some (.andExt x)
  | .or => some (.orExt x)
  | .xor => some (.xorExt x)
  | .andn => some (.andnExt x)
  | .shl => some (.shlExt x)
  | .shr => some (.shrExt x)
  | .sar => some (.sarExt x)
  | .shf => some (.shf x)
  | .rot => some (.rotExt x)
  | .bfx => some (.bfxExt x)
  | .bfi => some (.bfi x)
  | .popc => some (.popcExt x)
  | .clz => some (.clzExt x)
  | .brev => some (.brevExt x)
  | .perm => some (.perm x)
  | .icmp => some (.icmpExt x)
  | .isel => some (.iselExt x)
  | .lea => some (.lea x)
  | .fence => some (.fenceExt x)
  | .bar => some (.barExt x)
  | .bara => some (.baraExt x)
  | .barw => some (.barwExt x)
  | .barinit => some (.barinitExt x)
  | .splice => some (.spliceExt x)
  | .fork => some (.fork x)
  | .rdv => some (.rdv x)
  | .fadd => some (.faddExt x)
  | .fsub => some (.fsubExt x)
  | .fmul => some (.fmulExt x)
  | .ffma => some (.ffma x)
  | .fmin => some (.fminExt x)
  | .fmax => some (.fmaxExt x)
  | .fcmp => some (.fcmpExt x)
  | .fclass => some (if x.scope.getLsbD 0 then .fclassRdfl x else .fclassExt x)
  | .fscale => some (.fscaleExt x)
  | .frcp => some (.frcpExt x)
  | .frsq => some (.frsqExt x)
  | .fsqrt => some (.fsqrtExt x)
  | .fdiv => some (.fdivExt x)
  | .fexp2 => some (.fexp2Ext x)
  | .flog2 => some (.flog2Ext x)
  | .fsin => some (.fsinExt x)
  | .fcos => some (.fcosExt x)
  | .dadd => some (.daddExt x)
  | .dmul => some (.dmulExt x)
  | .dfma => some (.dfma x)
  | .dcmp => some (.dcmpExt x)
  | .hadd2 => some (.hadd2Ext x)
  | .hmul2 => some (.hmul2Ext x)
  | .hfma2 => some (.hfma2 x)
  | .hmin2 => some (.hmin2Ext x)
  | .hmax2 => some (.hmax2Ext x)
  | .fdot => some (.fdot x)
  | .cvt => some (.cvt x)
  | .cvtpk => some (.cvtpkExt x)
  | .qblk => some (.qblk x)
  | .dqblk => some (.dqblk x)
  | .vqdec => some (.vqdecExt x)
  | .exphist => some (.exphistExt x)
  | .srseed => some (.srseedExt x)
  | .xshf => some (.xshfExt x)
  | .xbcast => some (.xbcastExt x)
  | .xred => some (.xredExt x)
  | .xscan => some (.xscanExt x)
  | .xdot => some (.xdot x)
  | .xvote => some (.xvoteExt x)
  | .xmatch => some (.xmatchExt x)
  | .ld => some (.ldExt x)
  | .st => some (.stExt x)
  | .ldk => some (.ldkExt x)
  | .atom => some (.atomExt x)
  | .red => some (.redExt x)
  | .pref => some (.prefExt x)
  | .cflush => some (.cflushExt x)
  | .cinv => some (.cinvExt x)
  | .acp16 => some (.acp16 x)
  | .tcopy => some (.tcopyExt x)
  | .tdump => some (.tdumpExt x)
  | .awinit => some (.awinitExt x)
  | .awexp => some (.awexpExt x)
  | .await => some (.awaitExt x)
  | .awtest => some (.awtestExt x)
  | .launch => some (.launchExt x)
  | .nwait => some (.nwaitExt x)
  | .hinit => some (.hinit x)
  | .hjoin => some (.hjoin x)
  | .hcontrib => some (.hcontrib x)
  | .hwait => some (.hwait x)
  | .hquery => some (.hquery x)
  | .tcfg => some (.tcfg x)
  | .tld => some (.tld x)
  | .tst => some (.tst x)
  | .tzero => some (if x.scope.getLsbD 0 then .tzeroA x else .tzero x)
  | .mma => some (.mma x)
  | .mmav => some (.mmav x)
  | .cbld => some (.cbld x)
  | .olapply => some (.olapply x)
  | .aprom => some (.aprom x)
  | .aout => some (.aout x)
  | .asav => some (.asav x)
  | .arst => some (.arst x)
  | .ahist => some (.ahist x)
  | .stest => some (.stest x)

/-- The length code of a base word (R132). -/
def lenOf (w : Word) : Len :=
  match (w.extractLsb' 30 2).toNat with
  | 0 => .l00
  | 1 => .l01
  | 2 => .l10
  | _ => .l11

/-- L as its two bits. -/
def Len.code : Len → BitVec 2
  | .l00 => 0
  | .l01 => 1
  | .l10 => 2
  | .l11 => 3

/-- The fields of a base word (R133). -/
def baseOf (w : Word) : Base :=
  { d := w.extractLsb' 16 7, a := w.extractLsb' 9 7, b := w.extractLsb' 2 7, la := w.getLsbD 1, lb := w.getLsbD 0 }

/-- OP of a base word. -/
def opField (w : Word) : Nat := (w.extractLsb' 23 7).toNat

/-- An operand class from its two bits (R138). -/
def clsOf (c : BitVec 2) : Cls :=
  match c.toNat with
  | 0 => .v
  | 1 => .k
  | 2 => .special
  | _ => .lit

/-- The two bits of an operand class. -/
def Cls.code : Cls → BitVec 2
  | .v => 0
  | .k => 1
  | .special => 2
  | .lit => 3

/-- The fields of words 2 and 3 (R134, R135) with a base word's and a literal. -/
def extOf (f : Form) (b : Base) (w2 w3 : Word) (lit : DWord) : Ext :=
  { form := f, d := b.d, a := b.a, b := b.b, la := b.la, lb := b.lb
    c := w2.extractLsb' 16 8, pneg := w2.getLsbD 15, pidx := w2.extractLsb' 12 3, rm := w2.extractLsb' 9 3
    ty := w2.extractLsb' 4 5, scope := w2.extractLsb' 0 4
    imm := w3.extractLsb' 21 11, lc := w3.getLsbD 20
    selC := { cls := clsOf (w3.extractLsb' 18 2), half := w3.getLsbD 17, sw := w3.extractLsb' 14 3 }
    selB := { cls := clsOf (w3.extractLsb' 12 2), half := w3.getLsbD 11, sw := w3.extractLsb' 8 3 }
    selA := { cls := clsOf (w3.extractLsb' 6 2), half := w3.getLsbD 5, sw := w3.extractLsb' 2 3 }
    rsv := w3.extractLsb' 0 2, lit := lit }

/-- XOP of word 2. -/
def xopField (w2 : Word) : Nat := (w2.extractLsb' 24 8).toNat

/-- The mnemonic of an (OP, XOP) pair (R149, R150). -/
def opOf (op xop : Nat) : Option Op := Op.all.find? (fun o => o.enc.1 == op && o.enc.2.1 == xop)

/-- The literal of two words, low first (R132, R9). -/
def litOf (lo hi : Word) : DWord := hi ++ lo

/-- The answer for a form of an operation. -/
def orForm (op : Op) : Option Instr → Except DecodeError Instr
  | some i => .ok i
  | none => .error (.form op)

/-- Step 3 of R151 on the words of an instruction, of which the first fixes how many there are. -/
def decodeWords (ws : List Word) : Except DecodeError Instr :=
  match ws with
  | [] => .error .truncated
  | w :: rest =>
    let b := baseOf w
    match lenOf w, rest with
    | .l00, _ =>
      match opOf (opField w) 0 with
      | some op => orForm op (op.baseInstr b)
      | none => .error .unassigned
    | .l01, w2 :: w3 :: _ =>
      match opOf (opField w) (xopField w2) with
      | some op => orForm op (op.extInstr (extOf .x01 b w2 w3 0))
      | none => .error .unassigned
    | .l10, lo :: hi :: _ =>
      match opOf (opField w) 0 with
      | some op =>
        let x := { (extOf .x10 b 0 0 (litOf lo hi)) with pidx := 7, selB := { Sel.plain with cls := .lit } }
        orForm op (op.extInstr x)
      | none => .error .unassigned
    | .l11, w2 :: w3 :: lo :: hi :: _ =>
      match opOf (opField w) (xopField w2) with
      | some op => orForm op (op.extInstr (extOf .x11 b w2 w3 (litOf lo hi)))
      | none => .error .unassigned
    | _, _ => .error .truncated

/-- The number of words a base word announces (R132). -/
def Len.words : Len → Nat
  | .l00 => 1
  | .l01 => 3
  | .l10 => 3
  | .l11 => 5

/-- Little-endian words from bytes (R9). -/
def wordsOf : List Byte → List Word
  | b0 :: b1 :: b2 :: b3 :: rest => (b3 ++ b2 ++ b1 ++ b0 : Word) :: wordsOf rest
  | _ => []

/-- Decoding the bytes at the PC upward. -/
def decodeBytes (bs : List Byte) : Except DecodeError Instr := decodeWords (wordsOf bs)

/-! ## The encoder -/

def boolBit (b : Bool) : BitVec 1 := BitVec.ofBool b

/-- The base word (R133). -/
def baseWord (l : Len) (op : Op) (d a b : BitVec 7) (la lb : Bool) : Word :=
  l.code ++ BitVec.ofNat 7 op.enc.1 ++ d ++ a ++ b ++ boolBit la ++ boolBit lb

/-- Word 2 (R134). -/
def word2 (op : Op) (x : Ext) : Word :=
  BitVec.ofNat 8 op.enc.2.1 ++ x.c ++ boolBit x.pneg ++ x.pidx ++ x.rm ++ x.ty ++ x.scope

/-- The bits of a selector: class, half-select, swizzle. -/
def Sel.code (s : Sel) : BitVec 6 := s.cls.code ++ boolBit s.half ++ s.sw

/-- Word 3 (R135). -/
def word3 (x : Ext) : Word := x.imm ++ boolBit x.lc ++ x.selC.code ++ x.selB.code ++ x.selA.code ++ x.rsv

/-- The words of a raw instruction. -/
def Raw.words (r : Raw) : List Word :=
  let w := baseWord r.len r.op r.x.d r.x.a r.x.b r.x.la r.x.lb
  let lo : Word := r.x.lit.extractLsb' 0 32
  let hi : Word := r.x.lit.extractLsb' 32 32
  match r.len with
  | .l00 => [w]
  | .l01 => [w, word2 r.op r.x, word3 r.x]
  | .l10 => [w, lo, hi]
  | .l11 => [w, word2 r.op r.x, word3 r.x, lo, hi]

/-- The words of an instruction; an event has none. -/
def encode (i : Instr) : List Word :=
  match i.raw with
  | some r => r.words
  | none => []

/-- The bytes of a word, low first (R9). -/
def wordBytes (w : Word) : List Byte := [w.extractLsb' 0 8, w.extractLsb' 8 8, w.extractLsb' 16 8, w.extractLsb' 24 8]

/-- The bytes of an instruction in memory. -/
def encodeBytes (i : Instr) : List Byte := (encode i).flatMap wordBytes

/-- The bytes of an instruction whose bits are w, numbered from bit 0 of the first word, padded with zeros to the
longest instruction. -/
def tableBytes (w : Nat) : List Byte := toBytes 20 w

/-- The instruction the decoder reads from the bits w of an opcode-table row; bits above nbits are 0. -/
def decodeTableWord (nbits w : Nat) : Option Instr :=
  match decodeBytes (tableBytes (w % 2 ^ nbits)) with
  | .ok i => some i
  | .error _ => none

end Sys2Proof
end

