-- ==== Sys2Proof/Machine/Ready.lean ====
section
/-!
DEFINITION. Fetch (R113, R151, R153), readiness (R25, R163, R177, R179), allocation (R167 to R170), the passing of time (R5,
R107, R383, R423, R470), and the events RESERVE_GRANT and STALL_SAMPLE (R471).
-/
namespace Sys2Proof.Machine

/-! ## Fetch (R109, R113, R151) -/

/-- What fetching and decoding at a PC gives. -/
inductive Fetched where
  | ok (i : Instr) (r : Raw)
  | walk (va : Nat)
  | trap (kind cause : Nat)
  | hold (kind cause va : Nat)

/-- The byte address of a word of an instruction, translated for fetch (R113); in the pod window its fault is replayable where the space
demands it (R128). DEDUCED (log 88): every range from 2^56 on is another window than the global one. -/
def State.fetchTr (s : State) (a : Issuer) (va : Nat) : Tr :=
  let r := s.req a
  if 2 ^ 57 ≤ va then .fault kXlate 4 false
  else if 2 ^ 56 ≤ va then
    match r.xf.find? (fun f => f.asid == r.asid && f.page == va / 4096) with
    | some f => .fault f.kind f.cause f.replay
    | none => .fault kProt 6 (decide (va < 0x180 * 2 ^ 48) && s.demand r.asid)
  else s.translate r va accFetch 0

/-- The key of a task's word in an instruction cache. -/
def codeKey (task pa : Nat) : Nat := task * 2 ^ 52 + pa

/-- The word that a task may fetch where no cache holds it: as memory was when the task started, with its own writes since (R153). -/
def State.codeHome (s : State) (task pa : Nat) : Word :=
  BitVec.ofNat 32 (ofBytes (match s.task task with | some k => Mem.read k.image pa 4 | none => s.homeRead pa 4))

/-- A word that a task fetches on a core: the one the instruction cache holds for it, else that at its home (R153). A page with CACHE 0b10
is held in no cache (R116). -/
def State.codeWord (s : State) (c : CoreId) (task pa cache : Nat) : Word :=
  (if cache = 2 then none else mget (s.core c).icache (codeKey task pa)).getD (s.codeHome task pa)

/-- A core's instruction cache takes a word for a task. -/
def State.codeFill (s : State) (c : CoreId) (task pa : Nat) : State :=
  if inHbm pa 4 then s.modCore c (fun k => { k with icache := mset k.icache (codeKey task pa) (s.codeWord c task pa 0) }) else s

/-- The task of an agent. -/
def State.taskNo (s : State) (a : Issuer) : Nat := match s.team (s.teamOf a) with | some t => t.task | none => 0

/-- The instruction cache of an agent's core takes the n words that the agent fetches. -/
def State.codeHeld (s : State) (a : Issuer) (va : Nat) : Nat → State
  | 0 => s
  | n + 1 => match s.fetchTr a va with
    | .ok pa cache _ => State.codeHeld (if cache = 2 then s else s.codeFill (s.coreOf a) (s.taskNo a) pa) a (va + 4) n
    | _ => s

/-- Why words cannot be fetched. -/
inductive NoFetch where
  | walk (va : Nat)
  | fault (kind cause va : Nat) (replay : Bool)

/-- n words from an address. -/
def State.fetchWords (s : State) (a : Issuer) (va : Nat) : Nat → Except NoFetch (List Word)
  | 0 => .ok []
  | n + 1 =>
    match s.fetchTr a va with
    | .ok pa cache _ =>
      match State.fetchWords s a (va + 4) n with
      | .ok ws => .ok (s.codeWord (s.coreOf a) (s.taskNo a) pa cache :: ws)
      | .error e => .error e
    | .fault k c replay => .error (.fault k c va replay)
    | .miss => .error (.walk va)

/-- What an agent does that cannot fetch. -/
def NoFetch.fetched : NoFetch → Fetched
  | .walk va => .walk va
  | .fault k c va true => .hold k c va
  | .fault k c _ false => .trap k c

/-- The engine of an agent. -/
def Issuer.engine (a : Issuer) : Engine := match a with | .slice _ _ => .g | .ctx k => if k % 2 = 1 then .m else .c

/-- Steps 1 to 3 of R151 at an agent's PC. A form that an operation does not have is refused after step 4. -/
def State.fetch (s : State) (a : Issuer) : Fetched :=
  let pc := s.pcOf a
  if pc % 4 ≠ 0 then .trap kAlign 0
  else match s.fetchWords a pc 1 with
    | .error e => e.fetched
    | .ok w0 =>
      match s.fetchWords a (pc + 4) ((lenOf (w0.getD 0 0)).words - 1) with
      | .error e => e.fetched
      | .ok ws =>
        match decodeWords (w0 ++ ws) with
        | .ok i => match i.raw with | some r => .ok i r | none => .trap kIllegal 0
        | .error (.form op) => if op.legalOn (Issuer.engine a) then .trap kIllegal 0 else .trap kEngine 0
        | .error _ => .trap kIllegal 0

/-! ## Registers read and results in flight (R163, R177) -/

/-- The v and k registers a source reads. -/
def srcReads (src : Src) (fld : Nat) (sel : Sel) : List Nat × List Nat :=
  match src with
  | .vreg w => (if w == .w64 then [fld, fld + 1] else [fld], [])
  | .opnd w _ _ _ =>
    let ns := if w == .w64 then [fld, fld + 1] else [fld]
    match sel.cls with
    | .v => (ns, [])
    | .k => ([], ns)
    | _ => ([], [])
  | _ => ([], [])

/-- The instruction reads its destination: a source under D, the comparand of ATOM.cas (R296), and the elements that CVT and
CVTPK keep of a packed result (R257, R258). -/
def readsDest (r : Raw) : Bool :=
  match (shapeOf r.op r.len r.x).d with
  | .v _ _ true => true
  | _ => (r.op == .atom && bits r.x.imm.toNat 3 0 == 7) || (r.op == .cvt && decide (tyBits (rty r 14) < 32)) || (r.op == .cvtpk && decide (tyBits (rty r 14) < 16))

/-- The v and k registers an instruction reads. -/
def rawReads (r : Raw) : List Nat × List Nat :=
  let sh := shapeOf r.op r.len r.x
  let d : List Nat := match sh.d with
    | .v wide n _ => if readsDest r then (List.range (if wide then 2 * n else n)).map (r.x.d.toNat + ·) else []
    | _ => []
  let l := [srcReads sh.a r.x.a.toNat r.x.selA, srcReads sh.b r.x.b.toNat r.x.selB, srcReads sh.c r.x.c.toNat r.x.selC]
  (d ++ l.flatMap (·.1), l.flatMap (·.2))

/-- A register whose newest write in some lane is still to come. -/
def MemOp.owes (op : MemOp) (n : Nat) : Bool := op.dests.contains n && (maskList op.mask).any (fun l => !op.skip.contains (n, l))

/-- An agent waits for a v register, or an m register. -/
def State.vOut (s : State) (a : Issuer) (n : Nat) : Bool :=
  s.mops.any (fun p => p.2.by_ == a && p.2.kind != .ldk && p.2.owes n) ||
    s.subs.any (fun b => match b.src, a with
      | .launch u i _ _ d sk _, .slice u' i' => u == u' && i == i' && (n == d || n == d + 1) && !sk.contains n
      | _, _ => false) ||
    (match a with | .ctx k => (match (s.ctx k).flight with | some (.test m) => m == n | _ => false) | .slice _ _ => false)

/-- A slice waits for a k register that an LDK of its home gang has still to write (R163, R177, R294). -/
def State.kOut (s : State) (a : Issuer) (n : Nat) : Bool :=
  match a with
  | .slice u i => s.mops.any (fun p => p.2.ldkOf u i && p.2.dests.contains n && !p.2.skip.contains (n, 0))
  | .ctx _ => false

/-- The m registers that a context reads beside its sources: the C address of TLD and TST (R334), and m0 at SEQEND (R329). -/
def ctxReads (a : Issuer) (r : Raw) : List Nat :=
  match a, r.op with
  | .ctx _, .tld => [r.x.c.toNat]
  | .ctx _, .tst => [r.x.c.toNat]
  | .ctx _, .seqend => [0]
  | .ctx _, .exit => [0]
  | _, _ => []

/-- The operands of an instruction are there. FORK reads k0 to k15 (R328). A read of the sticky flags waits for the flags of atomics in flight. -/
def State.operandsHere (s : State) (a : Issuer) (r : Raw) : Bool :=
  let (vs, ks) := rawReads r
  let vs := vs ++ ctxReads a r
  let ks := if r.op == .fork then ks ++ List.range 16 else ks
  !vs.any (s.vOut a) && !ks.any (s.kOut a) && !((r.op == .smov || (r.op == .fclass && bitAt r.x.scope.toNat 0)) && s.mops.any (fun p => p.2.by_ == a && p.2.kind == .atom))

/-- A slice issues at most 16 instructions after a store that has not been translated (R442). -/
def State.storesKnown (s : State) (a : Issuer) : Bool :=
  match a with
  | .slice u i =>
    let n := (s.sl u i).icount
    !s.mops.any (fun p => p.2.by_ == a && (p.2.kind == .st || p.2.kind == .red) && decide (p.2.icount + 16 < n) && p.2.todo.any (fun e => e.place.isNone))
  | .ctx _ => true

/-! ## Allocation (R167 to R171) -/

def State.floorOf (s : State) (u : Nat) : Nat := match s.taskOf u with | some k => k.floor | none => 0

/-- The teams on a core. -/
def State.onCore (s : State) (c : CoreId) : List (Nat × Team) := s.teams.filter (fun p => p.2.core == c && p.2.onCore)

/-- The names that an instruction frees and those that it writes: RETT maps those of v0 to v7 that its frame marks (R452). -/
def State.namesOf (s : State) (u i : Nat) (r : Raw) : List Nat × List Nat :=
  let d := (s.sl u i).depth
  if r.op == .rett && r.x.d == 0 && d != 0 then
    let mapped := s.csaWord u (frameOff d i + 0x68) 8
    (List.range 8, (List.range 8).filter (bitAt mapped))
  else (rawFrees r, rawDests r)

/-- The entries of the spare pool before anything is taken from it. -/
def State.spareTotal (s : State) (c : CoreId) : Nat :=
  4096 - 64 - ((s.onCore c).map (fun p => match s.taskOf p.1 with | some k => k.floorShare | none => 0)).sum

/-- The entries of a slice's earlier writes in flight that later writes have superseded; each stays taken until its write
completes (R171). -/
def State.ghosts (s : State) (u i : Nat) : Nat :=
  (s.mops.map (fun p => if p.2.by_ = .slice u i ∧ p.2.kind ≠ .ldk then (p.2.dests.filter (fun n => p.2.skip.any (fun e => e.1 == n))).length else 0)).sum +
    ((s.subs.flatMap (fun b => match b.src with
      | .launch v j _ _ d sk _ => if v = u ∧ j = i then [d, d + 1].filter sk.contains else []
      | _ => [])).eraseDups).length

/-- The names that an instruction writes while an earlier write of its slice to them is in flight: each takes a fresh entry
(R171). -/
def State.renames (s : State) (u i : Nat) (r : Raw) : Nat :=
  if s.acts (.slice u i) r.x = 0 then 0 else ((rawDests r).filter (s.vOut (.slice u i))).length

/-- The entries that a core has taken from its spare pool and its reserve, with one slice holding `held` entries instead of what it
holds: those above the floors, those of superseded writes, and those set aside for other slices. -/
def State.above (s : State) (c : CoreId) (u i held : Nat) : Nat :=
  ((s.onCore c).map (fun p => (p.2.slices.map (fun q =>
    let me : Bool := p.1 == u && q.1 == i
    ((if me then held else q.2.names.length) - s.floorOf p.1) + s.ghosts p.1 q.1 + (if me then 0 else q.2.due))).sum)).sum

/-- Another slice of the core is blocked on allocation, and no entry is set aside for it yet: entries of the pool are its first (R169). -/
def State.starving (s : State) (c : CoreId) (u i : Nat) : Bool :=
  (s.onCore c).any (fun p => p.2.slices.any (fun q => q.2.starved && q.2.due == 0 && !(p.1 == u && q.1 == i)))

/-- A slice would need an entry that the spare pool does not have or that is due to a slice blocked before, and none is set aside for it
(R169). A granted slice draws on the reserve (R170). -/
def State.allocBlocked (s : State) (u i : Nat) (r : Raw) : Bool :=
  match s.team u, s.slice u i with
  | some t, some x =>
    let (frees, dests) := s.namesOf u i r
    let h := x.heldAfter frees dests
    let limit := s.spareTotal t.core + (if x.grant then 64 else 0)
    s.acts (.slice u i) r.x != 0 && x.due == 0 && decide ((x.free frees).names.length < h) && decide (s.floorOf u < h) && decide (h ≤ s.ceilOf u) &&
      (decide (limit < s.above t.core u i h) || (!x.grant && s.starving t.core u i))
  | _, _ => false

/-- A slice waits since a rename finds an entry neither in the spare pool nor in the reserve (R171). -/
def State.renameWaits (s : State) (u i : Nat) (r : Raw) : Bool :=
  match s.team u, s.slice u i with
  | some t, some x =>
    let n := s.renames u i r
    let (frees, dests) := s.namesOf u i r
    n != 0 && decide (s.spareTotal t.core + 64 < s.above t.core u i (x.heldAfter frees dests) + n)
  | _, _ => false

/-! ## Readiness -/

/-- The cross-lane instructions, which a home gang issues whole (R21, R179). -/
def crossLane : Op → Bool
  | .xshf => true
  | .xbcast => true
  | .xred => true
  | .xscan => true
  | .xdot => true
  | .xvote => true
  | .xmatch => true
  | .qblk => true
  | _ => false

/-- The slice may issue at all: on its core, not parked, no trap due at its boundary, not held by a walk or a replayable fault, not after
YIELD. -/
def State.sliceOpen (s : State) (u i : Nat) : Bool :=
  match s.team u, s.slice u i with
  | some t, some x => t.status == .resident && !x.parked && x.wait != .walk && x.wait != .replay && decide (x.yieldEnd ≤ s.cyc t.core.die) && (s.dueTrap u i).isNone
  | _, _ => false

/-- The pipes of a core (R176). -/
inductive Pipe where
  | memory
  | vector
deriving DecidableEq, Repr

/-- The pipe of an operation, by its primary opcode (R176). -/
def pipeOf (op : Op) : Pipe :=
  let n := op.enc.1
  if (decide (0x18 ≤ n) && decide (n ≤ 0x37)) || (decide (0x40 ≤ n) && decide (n ≤ 0x5A)) || (decide (0x5C ≤ n) && decide (n ≤ 0x69)) then .vector else .memory

/-- The cycles for which an instruction occupies the vector pipe (R176, R253, R272). -/
def pipeCycles (r : Raw) : Nat :=
  let double := tyBits (rty r 14) == 64
  match r.op with
  | .dadd => 2 | .dmul => 2 | .dfma => 2 | .dcmp => 2
  | .frcp => 2 | .frsq => 2 | .fexp2 => 2 | .flog2 => 2 | .fsin => 2 | .fcos => 2
  | .fdiv => if double then 16 else 4
  | .fsqrt => if double then 16 else 4
  | .qblk => 2
  | _ => 1

/-- The vector pipe of a core is occupied by an earlier instruction in this cycle (R176). -/
def State.vectorBusy (s : State) (c : CoreId) : Bool := decide ((s.core c).vBusy.1 < s.cyc c.die) && decide (s.cyc c.die < (s.core c).vBusy.2)

/-- The conditions of R177 on a slice whose next instruction is r. -/
def State.sliceReady (s : State) (u i : Nat) (r : Raw) : Bool :=
  s.sliceOpen u i && !(pipeOf r.op == .vector && s.vectorBusy (s.coreOf (.slice u i))) && s.operandsHere (.slice u i) r && s.storesKnown (.slice u i) && !s.allocBlocked u i r && !s.renameWaits u i r

/-- The live slices of a slice's home gang. -/
def State.homeGang (s : State) (u i : Nat) : List Nat :=
  match s.team u with | some t => (t.slices.filter (fun p => p.1 / 8 == i / 8)).map (·.1) | none => []

/-- Every live slice of a home gang stands at the leader's PC and is ready (R179). -/
def State.homeReady (s : State) (u i : Nat) (r : Raw) : Bool :=
  (s.homeGang u i).all (fun j => (s.sl u j).pc == (s.sl u i).pc && s.sliceReady u j r)

/-- R174 would change nothing of a slice. -/
def Slice.atRest (x : Slice) : Bool := x.act != 0 && (match x.rejoin with | [] => true | e :: _ => e.jpc != x.pc)

/-- R174, which comes before each issue, in the home gang of a slice; a slice with a trap due takes that first (R438). -/
def State.rejoined (s : State) (u i : Nat) : State :=
  foldS (fun j s => if (s.sl u j).atRest || (s.dueTrap u j).isSome then s else s.normalize u j) (s.homeGang u i) s

/-- A team or a team of its cohort is being restored: contexts resume once every restored slice has executed its RETT (R278, R448). -/
def State.restoring (s : State) (t : Team) : Bool :=
  let cohort : Bool := (s.task t.task).any (·.cohort)
  s.teams.any (fun p => p.2.task == t.task && (p.2.index == t.index || (cohort && p.2.index / 4 == t.index / 4)) && p.2.slices.any (fun q => q.2.restoring))

/-- A context may issue: running, at rest towards its holder's halt, and no transfer in flight where it accesses memory. -/
def State.ctxReady (s : State) (k : Nat) (r : Raw) : Bool :=
  let x := s.ctx k
  let mem : Bool := [Op.ld, .st, .atom, .red].contains r.op
  match x.holder.bind s.team with
  | none => false
  | some t =>
    x.run == .running && x.wait != .walk && x.wait != .replay && decide (x.yieldEnd ≤ s.cyc (ctxCore k).die) && t.status != .saved &&
      (t.halt.isNone || x.openSum.isSome) && !s.restoring t && s.operandsHere (.ctx k) r &&
      (match x.flight with | some (.test _) => false | some (.xfer ..) => !mem | _ => true)

/-! ## The passing of time -/

/-- A slice stands in one of the waits of "Progress", the order gate of a replay among them (R475). -/
def Slice.waiting (x : Slice) : Bool :=
  match x.wait with
  | .bar _ _ => true
  | .barw _ _ _ => true
  | .nwait => true
  | .await => true
  | .hitch _ round => round != 0
  | .rdv => true
  | .fork _ => true
  | .replay => true
  | .entry => x.gateSince.isSome
  | _ => false

/-- A slice that is live, not halted and not waiting is runnable. -/
def Slice.runnable (x : Slice) : Bool := !x.inHalt && !x.parked && !x.waiting

/-- A team is resident, not halted, and has a runnable slice. -/
def Team.runs (t : Team) : Bool := t.status == .resident && t.halt.isNone && t.slices.any (fun p => p.2.runnable)

/-- Every party that a slice's barrier awaits is runnable (R28, R383). -/
def State.barAwaited (s : State) (t : Team) (scope idx : Nat) : Bool :=
  if scope = 2 then
    let b := (mget t.bars idx).getD {}
    t.slices.all (fun p => laneSet p.1 p.2.live &&& ~~~b.arrived == 0 || p.2.runnable)
  else
    let key := t.levelInst scope
    match s.task t.task with
    | none => true
    | some k =>
      let l := (mget k.levels key).getD {}
      (s.parties t.task key).all (fun u => l.arrived.contains u || (match s.team u with | some v => v.runs | none => false))

/-- Every member that a hitch awaits is runnable (R423). -/
def State.hitchAwaited (s : State) (pa : Nat) : Bool :=
  match mget s.hitches pa with
  | none => false
  | some h =>
    (h.members.zip (List.range h.members.length)).all (fun p =>
      p.1.departed || h.terms.any (fun x => x.member == p.2) ||
        (match p.1.joined with | some (some u) => (match s.team u with | some t => t.runs | none => false) | some none => !p.1.halted | none => false))

/-- n more cycles of a slice's watchdog, while its awaited parties are runnable. -/
def State.watchTime (s : State) (t : Team) (n : Nat) (x : Slice) : Slice :=
  let on : Bool := match x.wait with
    | .bar sc i => s.barAwaited t sc i
    | .barw sc i _ => s.barAwaited t sc i
    | .hitch pa round => round != 0 && s.hitchAwaited pa
    | _ => false
  if on then { x with waitCyc := x.waitCyc + n } else x

/-- Bubbles of a pattern below a count (R107). -/
def Bubble.below (b : Bubble) (x : Nat) : Nat := x / 2 ^ b.plog * b.bcnt + min (x % 2 ^ b.plog) b.bcnt

/-- The cycles among the next n from a count on that are no bubbles, each pattern from its start count on (R107, R108). -/
def Die.openIn (d : Die) : Nat → Nat → Nat → Nat
  | 0, _, n => n
  | k + 1, c, n =>
    let next := (d.pending.map (·.estart)).foldl (fun a e => if c < e then min a e else a) (c + n)
    let m := next - c
    let o := match ({ d with cyc := c } : Die).pattern with | some b => m - (b.below (c + m) - b.below c) | none => m
    o + Die.openIn d k (c + m) (n - m)

/-! ## RESERVE_GRANT (R170) -/

/-- A team put among others in order of age, older first (R25). -/
def ageInsert (a : Nat × Team) : List (Nat × Team) → List (Nat × Team)
  | [] => [a]
  | b :: bs => if a.2.age ≤ b.2.age then a :: b :: bs else b :: ageInsert a bs
/-- Teams in order of age. -/
def byAge : List (Nat × Team) → List (Nat × Team)
  | [] => []
  | a :: as => ageInsert a (byAge as)


/-- The slices of a core that a test passes, oldest first. -/
def State.slicesOn (s : State) (c : CoreId) (f : Slice → Bool) : List (Nat × Nat) :=
  (byAge (s.onCore c)).flatMap (fun p => (p.2.slices.filter (fun q => f q.2)).map (fun q => (p.1, q.1)))

/-- The runnable slices of a core. -/
def State.runnableOn (s : State) (c : CoreId) : List (Nat × Nat) := s.slicesOn c (·.runnable)

/-- The slices of a core that allocate: those in a HALT handler too (R170). -/
def State.allocOn (s : State) (c : CoreId) : List (Nat × Nat) := s.slicesOn c (fun x => !x.parked && !x.waiting)

/-- Give returned entries to the slices blocked on allocation, oldest first, and to none after one that they do not satisfy
(R169). -/
def State.handOut (s : State) (c : CoreId) : List (Nat × Nat) → State
  | [] => s
  | (u, i) :: rest =>
    let x := s.sl u i
    if !x.starved ∨ x.due ≠ 0 then State.handOut s c rest
    else match (s.rejoined u i).fetch (.slice u i) with
      | .ok _ r =>
        let (frees, dests) := s.namesOf u i r
        let h := x.heldAfter frees dests
        if s.above c u i h ≤ s.spareTotal c then
          State.handOut (s.modSlice u i (fun x => { x with due := max 1 ((h - s.floorOf u) - (x.names.length - s.floorOf u)) })) c rest
        else s
      | _ => State.handOut s c rest

/-- A slice is blocked on allocation at its next instruction, as it stands after R174. -/
def State.blockedAt (s : State) (u i : Nat) : Bool :=
  let s := s.rejoined u i
  match s.fetch (.slice u i) with | .ok _ r => s.allocBlocked u i r | _ => false

/-- The slices of a core that its spare pool does not serve become blocked on allocation, and returned entries go to them. A pool
with 16 entries left serves any instruction. -/
def State.allocPass (s : State) (c : CoreId) : State :=
  let rs := s.allocOn c
  if s.above c 0 1024 0 + 16 ≤ s.spareTotal c ∧ rs.all (fun p => !(s.sl p.1 p.2).starved) then s
  else
    let s := foldS (fun (p : Nat × Nat) s => if s.blockedAt p.1 p.2 then s.modSlice p.1 p.2 (fun x => { x with starved := true }) else s) rs s
    s.handOut c rs

/-- The youngest team of a core that may be pre-empted, unless it is the only one. -/
def State.youngest (s : State) (c : CoreId) : Option Nat :=
  let ts := s.onCore c
  if ts.length < 2 then none
  else
    match ts.filter (fun p => p.2.csa.isSome && p.2.status == .resident) with
    | [] => none
    | p :: ps => some (ps.foldl (fun (a b : Nat × Team) => if a.2.age < b.2.age then b else a) p).1

/-- RESERVE_GRANT: while every runnable slice of a core is blocked, the oldest blocked slice draws on the reserve, one in a HALT handler
too; when that is empty the youngest team is pre-empted, or the slice traps. -/
def State.reserveGrant (s : State) (c : CoreId) : State :=
  if !(s.runnableOn c).all (fun p => s.blockedAt p.1 p.2) then s
  else match (s.allocOn c).find? (fun p => s.blockedAt p.1 p.2) with
    | none => s
    | some (u, i) =>
      if s.above c u i ((s.sl u i).names.length + 1) ≤ s.spareTotal c + 64 ∧ !(s.sl u i).grant then s.modSlice u i (fun x => { x with grant := true })
      else if (s.onCore c).any (fun p => p.2.wanted) then s
      else match s.youngest c with
        | some v => s.want v
        | none =>
          let s := s.rejoined u i
          s.trapOne (.slice u i) kIllegal cRegspace 0 0 (match s.fetch (.slice u i) with | .ok _ r => s.acts (.slice u i) r.x | _ => 0)

/-! ## STALL_SAMPLE (R471) -/

/-- The reason a slice has at the expiry of the period. -/
def State.stallReason (s : State) (u i : Nat) : Nat :=
  match s.team u, s.slice u i with
  | some t, some x =>
    if x.inHalt ∨ x.parked ∨ (s.die t.core.die).inBubble then 0xE
    else match x.wait with
      | .bar _ _ => 5
      | .barw _ _ _ => 5
      | .await => 6
      | .hitch _ _ => 7
      | .rdv => 8
      | .fork _ => 8
      | .nwait => 9
      | .replay => 0xB
      | .stores => 0xC
      | .walk => 2
      | .fence => 2
      | .entry => if x.gateSince.isSome then 0xB else 4
      | .none =>
        if s.cyc t.core.die < x.yieldEnd then 0xD
        else match s.fetch (.slice u i) with
          | .ok _ r =>
            if pipeOf r.op == .vector && s.vectorBusy t.core then 3
            else if !s.operandsHere (.slice u i) r then 2
            else if !s.storesKnown (.slice u i) then 0xC
            else if s.allocBlocked u i r then 4
            else if crossLane r.op && !s.homeReady u i r then 0xA
            else 1
          | _ => 1
  | _, _ => 1

/-- The slices that the core's sampling takes in turn: those of the ring's address space, oldest first, with their teams' ages. -/
def State.sampled (s : State) (c : CoreId) : List (Nat × Nat × Nat) :=
  (byAge ((s.onCore c).filter (fun p => s.asidOf p.1 == bits (s.ge 0x22228) 63 48))).flatMap (fun p => p.2.slices.map (fun q => (p.1, p.2.age, q.1)))

/-- The period of a core expires, in the present cycle: the slice after the one sampled last gives a record of its state. -/
def State.sampleTake (s : State) (c : CoreId) : State :=
  let all := s.sampled c
  let after : List (Nat × Nat × Nat) := match (s.core c).lastSample with
    | some (g, i) => all.filter (fun e => decide (g < e.2.1) || (e.2.1 == g && decide (i < e.2.2)))
    | none => all
  match after ++ all with
  | [] => s
  | (u, age, i) :: _ =>
    let x := s.sl u i
    let rec_ := match x.issued with
      | some (n, pc) => if n = s.cyc c.die then s.sampleRecord u i 0 true pc else s.sampleRecord u i (s.stallReason u i) false x.pc
      | none => s.sampleRecord u i (s.stallReason u i) false x.pc
    s.modCore c (fun k => { k with lastSample := some (age, i), samples := k.samples ++ rec_.toList })

/-- A core that holds a slice of the ring's address space counts n cycles of its period, which expires after each `per` of them. -/
def State.sampleCount (s : State) (c : CoreId) (per : Nat) : Nat → Nat → State
  | 0, _ => s
  | fuel + 1, n =>
    let left := per - (s.core c).sampled
    if n < left then s.modCore c (fun k => { k with sampled := k.sampled + n })
    else
      let now := s.cyc c.die
      let s := (s.modDie c.die (fun d => { d with cyc := now + left - 1 })).sampleTake c
      State.sampleCount ((s.modDie c.die (fun d => { d with cyc := now + left })).modCore c (fun k => { k with sampled := 0 })) c per fuel (n - left)

/-- The sampling of a core in the next n cycles, whose count stands afterwards as before (R471). -/
def State.sampleCycles (s : State) (c : CoreId) (n : Nat) : State :=
  let period := bits (s.ge 0x22228) 31 0
  if !s.feature 7 ∨ period = 0 ∨ (s.sampled c).isEmpty then s
  else
    let now := s.cyc c.die
    (s.sampleCount c (max period 64) (n / max period 64 + 2) n).modDie c.die (fun d => { d with cyc := now })

/-- STALL_SAMPLE: the record of the oldest expiry enters the ring. -/
def State.stallSample (s : State) (c : CoreId) : State :=
  match (s.core c).samples with
  | [] => s
  | r :: rest => (s.ringWrite sampleRing r).modCore c (fun k => { k with samples := rest })

/-! ## n cycles of a die -/

/-- n cycles of a die pass. The pipes that issue in them are given by their cores. -/
def State.elapse (s : State) (die n : Nat) (busy : List (CoreId × Nat)) : State :=
  let open_ := (s.die die).openIn ((s.die die).pending.length + 1) (s.cyc die) n
  let cs := ((s.teams.filter (fun p => p.2.core.die == die)).map (fun p => p.2.core)).eraseDups
  let s := foldS (fun c s => s.sampleCycles c n) cs s
  let s := { s with teams := s.teams.map (fun (p : Nat × Team) => if p.2.core.die = die then (p.1, { p.2 with slices := p.2.slices.map (fun (q : Nat × Slice) => (q.1, s.watchTime p.2 n q.2)) }) else p) }
  let s := s.modDie die (fun d => { d with cyc := d.cyc + n, open_ := d.open_ + open_ })
  if s.feature 7 && bitAt (s.ge 0x22780) 0 then
    foldS (fun k s => s.countIdle k (2 * open_ - (busy.map (fun b => if b.1 = k then b.2 else 0)).sum)) cs s
  else s

def execReserveGrant (c : CoreId) (s : State) : Host.Outcome State Fault Refusal := .next (s.reserveGrant c)
def execStallSample (c : CoreId) (s : State) : Host.Outcome State Fault Refusal := .next (s.stallSample c)

end Sys2Proof.Machine
end

