-- ==== Sys2Proof/Machine/Dispatch.lean ====
section
/-! DEFINITION. One arm per constructor of Instr: the meaning of every instruction and event, by name. -/
namespace Sys2Proof.Machine

def exec (i : Instr) (s : State) : Host.Outcome State Fault Refusal :=
  match i with
  | .nop b => Sys2Proof.Machine.execNop b s
  | .nopExt x => Sys2Proof.Machine.execNopExt x s
  | .bra b => Sys2Proof.Machine.execBra b s
  | .braExt x => Sys2Proof.Machine.execBraExt x s
  | .brx b => Sys2Proof.Machine.execBrx b s
  | .brxExt x => Sys2Proof.Machine.execBrxExt x s
  | .call b => Sys2Proof.Machine.execCall b s
  | .callExt x => Sys2Proof.Machine.execCallExt x s
  | .callx b => Sys2Proof.Machine.execCallx b s
  | .callxExt x => Sys2Proof.Machine.execCallxExt x s
  | .ret b => Sys2Proof.Machine.execRet b s
  | .retExt x => Sys2Proof.Machine.execRetExt x s
  | .exit b => Sys2Proof.Machine.execExit b s
  | .exitExt x => Sys2Proof.Machine.execExitExt x s
  | .kill b => Sys2Proof.Machine.execKill b s
  | .killExt x => Sys2Proof.Machine.execKillExt x s
  | .yield b => Sys2Proof.Machine.execYield b s
  | .yieldExt x => Sys2Proof.Machine.execYieldExt x s
  | .enter b => Sys2Proof.Machine.execEnter b s
  | .enterExt x => Sys2Proof.Machine.execEnterExt x s
  | .leave b => Sys2Proof.Machine.execLeave b s
  | .leaveExt x => Sys2Proof.Machine.execLeaveExt x s
  | .plop b => Sys2Proof.Machine.execPlop b s
  | .plopExt x => Sys2Proof.Machine.execPlopExt x s
  | .smov b => Sys2Proof.Machine.execSmov b s
  | .smovExt x => Sys2Proof.Machine.execSmovExt x s
  | .sset b => Sys2Proof.Machine.execSset b s
  | .ssetExt x => Sys2Proof.Machine.execSsetExt x s
  | .trap b => Sys2Proof.Machine.execTrap b s
  | .trapExt x => Sys2Proof.Machine.execTrapExt x s
  | .rett => Sys2Proof.Machine.execRett s
  | .rettH => Sys2Proof.Machine.execRettH s
  | .drainst b => Sys2Proof.Machine.execDrainst b s
  | .drainstExt x => Sys2Proof.Machine.execDrainstExt x s
  | .gkill b => Sys2Proof.Machine.execGkill b s
  | .gkillExt x => Sys2Proof.Machine.execGkillExt x s
  | .bkpt b => Sys2Proof.Machine.execBkpt b s
  | .bkptExt x => Sys2Proof.Machine.execBkptExt x s
  | .rrchk b => Sys2Proof.Machine.execRrchk b s
  | .rrchkExt x => Sys2Proof.Machine.execRrchkExt x s
  | .trigger b => Sys2Proof.Machine.execTrigger b s
  | .triggerExt x => Sys2Proof.Machine.execTriggerExt x s
  | .seqend b => Sys2Proof.Machine.execSeqend b s
  | .seqendExt x => Sys2Proof.Machine.execSeqendExt x s
  | .mov b => Sys2Proof.Machine.execMov b s
  | .movExt x => Sys2Proof.Machine.execMovExt x s
  | .kmov b => Sys2Proof.Machine.execKmov b s
  | .kmovExt x => Sys2Proof.Machine.execKmovExt x s
  | .iadd b => Sys2Proof.Machine.execIadd b s
  | .iaddExt x => Sys2Proof.Machine.execIaddExt x s
  | .isub b => Sys2Proof.Machine.execIsub b s
  | .isubExt x => Sys2Proof.Machine.execIsubExt x s
  | .iaddc b => Sys2Proof.Machine.execIaddc b s
  | .iaddcExt x => Sys2Proof.Machine.execIaddcExt x s
  | .isubb b => Sys2Proof.Machine.execIsubb b s
  | .isubbExt x => Sys2Proof.Machine.execIsubbExt x s
  | .iadd64 b => Sys2Proof.Machine.execIadd64 b s
  | .iadd64Ext x => Sys2Proof.Machine.execIadd64Ext x s
  | .imul b => Sys2Proof.Machine.execImul b s
  | .imulExt x => Sys2Proof.Machine.execImulExt x s
  | .imulh b => Sys2Proof.Machine.execImulh b s
  | .imulhExt x => Sys2Proof.Machine.execImulhExt x s
  | .imad x => Sys2Proof.Machine.execImad x s
  | .imad64 x => Sys2Proof.Machine.execImad64 x s
  | .imin b => Sys2Proof.Machine.execImin b s
  | .iminExt x => Sys2Proof.Machine.execIminExt x s
  | .imax b => Sys2Proof.Machine.execImax b s
  | .imaxExt x => Sys2Proof.Machine.execImaxExt x s
  | .iabs b => Sys2Proof.Machine.execIabs b s
  | .iabsExt x => Sys2Proof.Machine.execIabsExt x s
  | .and b => Sys2Proof.Machine.execAnd b s
  | .andExt x => Sys2Proof.Machine.execAndExt x s
  | .or b => Sys2Proof.Machine.execOr b s
  | .orExt x => Sys2Proof.Machine.execOrExt x s
  | .xor b => Sys2Proof.Machine.execXor b s
  | .xorExt x => Sys2Proof.Machine.execXorExt x s
  | .andn b => Sys2Proof.Machine.execAndn b s
  | .andnExt x => Sys2Proof.Machine.execAndnExt x s
  | .shl b => Sys2Proof.Machine.execShl b s
  | .shlExt x => Sys2Proof.Machine.execShlExt x s
  | .shr b => Sys2Proof.Machine.execShr b s
  | .shrExt x => Sys2Proof.Machine.execShrExt x s
  | .sar b => Sys2Proof.Machine.execSar b s
  | .sarExt x => Sys2Proof.Machine.execSarExt x s
  | .shf x => Sys2Proof.Machine.execShf x s
  | .rot b => Sys2Proof.Machine.execRot b s
  | .rotExt x => Sys2Proof.Machine.execRotExt x s
  | .bfx b => Sys2Proof.Machine.execBfx b s
  | .bfxExt x => Sys2Proof.Machine.execBfxExt x s
  | .bfi x => Sys2Proof.Machine.execBfi x s
  | .popc b => Sys2Proof.Machine.execPopc b s
  | .popcExt x => Sys2Proof.Machine.execPopcExt x s
  | .clz b => Sys2Proof.Machine.execClz b s
  | .clzExt x => Sys2Proof.Machine.execClzExt x s
  | .brev b => Sys2Proof.Machine.execBrev b s
  | .brevExt x => Sys2Proof.Machine.execBrevExt x s
  | .perm x => Sys2Proof.Machine.execPerm x s
  | .icmp b => Sys2Proof.Machine.execIcmp b s
  | .icmpExt x => Sys2Proof.Machine.execIcmpExt x s
  | .isel b => Sys2Proof.Machine.execIsel b s
  | .iselExt x => Sys2Proof.Machine.execIselExt x s
  | .lea x => Sys2Proof.Machine.execLea x s
  | .fence b => Sys2Proof.Machine.execFence b s
  | .fenceExt x => Sys2Proof.Machine.execFenceExt x s
  | .bar b => Sys2Proof.Machine.execBar b s
  | .barExt x => Sys2Proof.Machine.execBarExt x s
  | .bara b => Sys2Proof.Machine.execBara b s
  | .baraExt x => Sys2Proof.Machine.execBaraExt x s
  | .barw b => Sys2Proof.Machine.execBarw b s
  | .barwExt x => Sys2Proof.Machine.execBarwExt x s
  | .barinit b => Sys2Proof.Machine.execBarinit b s
  | .barinitExt x => Sys2Proof.Machine.execBarinitExt x s
  | .splice b => Sys2Proof.Machine.execSplice b s
  | .spliceExt x => Sys2Proof.Machine.execSpliceExt x s
  | .fork x => Sys2Proof.Machine.execFork x s
  | .rdv x => Sys2Proof.Machine.execRdv x s
  | .fadd b => Sys2Proof.Machine.execFadd b s
  | .faddExt x => Sys2Proof.Machine.execFaddExt x s
  | .fsub b => Sys2Proof.Machine.execFsub b s
  | .fsubExt x => Sys2Proof.Machine.execFsubExt x s
  | .fmul b => Sys2Proof.Machine.execFmul b s
  | .fmulExt x => Sys2Proof.Machine.execFmulExt x s
  | .ffma x => Sys2Proof.Machine.execFfma x s
  | .fmin b => Sys2Proof.Machine.execFmin b s
  | .fminExt x => Sys2Proof.Machine.execFminExt x s
  | .fmax b => Sys2Proof.Machine.execFmax b s
  | .fmaxExt x => Sys2Proof.Machine.execFmaxExt x s
  | .fcmp b => Sys2Proof.Machine.execFcmp b s
  | .fcmpExt x => Sys2Proof.Machine.execFcmpExt x s
  | .fclass b => Sys2Proof.Machine.execFclass b s
  | .fclassExt x => Sys2Proof.Machine.execFclassExt x s
  | .fclassRdfl x => Sys2Proof.Machine.execFclassRdfl x s
  | .fscale b => Sys2Proof.Machine.execFscale b s
  | .fscaleExt x => Sys2Proof.Machine.execFscaleExt x s
  | .frcp b => Sys2Proof.Machine.execFrcp b s
  | .frcpExt x => Sys2Proof.Machine.execFrcpExt x s
  | .frsq b => Sys2Proof.Machine.execFrsq b s
  | .frsqExt x => Sys2Proof.Machine.execFrsqExt x s
  | .fsqrt b => Sys2Proof.Machine.execFsqrt b s
  | .fsqrtExt x => Sys2Proof.Machine.execFsqrtExt x s
  | .fdiv b => Sys2Proof.Machine.execFdiv b s
  | .fdivExt x => Sys2Proof.Machine.execFdivExt x s
  | .fexp2 b => Sys2Proof.Machine.execFexp2 b s
  | .fexp2Ext x => Sys2Proof.Machine.execFexp2Ext x s
  | .flog2 b => Sys2Proof.Machine.execFlog2 b s
  | .flog2Ext x => Sys2Proof.Machine.execFlog2Ext x s
  | .fsin b => Sys2Proof.Machine.execFsin b s
  | .fsinExt x => Sys2Proof.Machine.execFsinExt x s
  | .fcos b => Sys2Proof.Machine.execFcos b s
  | .fcosExt x => Sys2Proof.Machine.execFcosExt x s
  | .dadd b => Sys2Proof.Machine.execDadd b s
  | .daddExt x => Sys2Proof.Machine.execDaddExt x s
  | .dmul b => Sys2Proof.Machine.execDmul b s
  | .dmulExt x => Sys2Proof.Machine.execDmulExt x s
  | .dfma x => Sys2Proof.Machine.execDfma x s
  | .dcmp b => Sys2Proof.Machine.execDcmp b s
  | .dcmpExt x => Sys2Proof.Machine.execDcmpExt x s
  | .hadd2 b => Sys2Proof.Machine.execHadd2 b s
  | .hadd2Ext x => Sys2Proof.Machine.execHadd2Ext x s
  | .hmul2 b => Sys2Proof.Machine.execHmul2 b s
  | .hmul2Ext x => Sys2Proof.Machine.execHmul2Ext x s
  | .hfma2 x => Sys2Proof.Machine.execHfma2 x s
  | .hmin2 b => Sys2Proof.Machine.execHmin2 b s
  | .hmin2Ext x => Sys2Proof.Machine.execHmin2Ext x s
  | .hmax2 b => Sys2Proof.Machine.execHmax2 b s
  | .hmax2Ext x => Sys2Proof.Machine.execHmax2Ext x s
  | .fdot x => Sys2Proof.Machine.execFdot x s
  | .cvt x => Sys2Proof.Machine.execCvt x s
  | .cvtpk b => Sys2Proof.Machine.execCvtpk b s
  | .cvtpkExt x => Sys2Proof.Machine.execCvtpkExt x s
  | .qblk x => Sys2Proof.Machine.execQblk x s
  | .dqblk x => Sys2Proof.Machine.execDqblk x s
  | .vqdec b => Sys2Proof.Machine.execVqdec b s
  | .vqdecExt x => Sys2Proof.Machine.execVqdecExt x s
  | .exphist b => Sys2Proof.Machine.execExphist b s
  | .exphistExt x => Sys2Proof.Machine.execExphistExt x s
  | .srseed b => Sys2Proof.Machine.execSrseed b s
  | .srseedExt x => Sys2Proof.Machine.execSrseedExt x s
  | .xshf b => Sys2Proof.Machine.execXshf b s
  | .xshfExt x => Sys2Proof.Machine.execXshfExt x s
  | .xbcast b => Sys2Proof.Machine.execXbcast b s
  | .xbcastExt x => Sys2Proof.Machine.execXbcastExt x s
  | .xred b => Sys2Proof.Machine.execXred b s
  | .xredExt x => Sys2Proof.Machine.execXredExt x s
  | .xscan b => Sys2Proof.Machine.execXscan b s
  | .xscanExt x => Sys2Proof.Machine.execXscanExt x s
  | .xdot x => Sys2Proof.Machine.execXdot x s
  | .xvote b => Sys2Proof.Machine.execXvote b s
  | .xvoteExt x => Sys2Proof.Machine.execXvoteExt x s
  | .xmatch b => Sys2Proof.Machine.execXmatch b s
  | .xmatchExt x => Sys2Proof.Machine.execXmatchExt x s
  | .ld b => Sys2Proof.Machine.execLd b s
  | .ldExt x => Sys2Proof.Machine.execLdExt x s
  | .st b => Sys2Proof.Machine.execSt b s
  | .stExt x => Sys2Proof.Machine.execStExt x s
  | .ldk b => Sys2Proof.Machine.execLdk b s
  | .ldkExt x => Sys2Proof.Machine.execLdkExt x s
  | .atom b => Sys2Proof.Machine.execAtom b s
  | .atomExt x => Sys2Proof.Machine.execAtomExt x s
  | .red b => Sys2Proof.Machine.execRed b s
  | .redExt x => Sys2Proof.Machine.execRedExt x s
  | .pref b => Sys2Proof.Machine.execPref b s
  | .prefExt x => Sys2Proof.Machine.execPrefExt x s
  | .cflush b => Sys2Proof.Machine.execCflush b s
  | .cflushExt x => Sys2Proof.Machine.execCflushExt x s
  | .cinv b => Sys2Proof.Machine.execCinv b s
  | .cinvExt x => Sys2Proof.Machine.execCinvExt x s
  | .acp16 x => Sys2Proof.Machine.execAcp16 x s
  | .tcopy b => Sys2Proof.Machine.execTcopy b s
  | .tcopyExt x => Sys2Proof.Machine.execTcopyExt x s
  | .tdump b => Sys2Proof.Machine.execTdump b s
  | .tdumpExt x => Sys2Proof.Machine.execTdumpExt x s
  | .awinit b => Sys2Proof.Machine.execAwinit b s
  | .awinitExt x => Sys2Proof.Machine.execAwinitExt x s
  | .awexp b => Sys2Proof.Machine.execAwexp b s
  | .awexpExt x => Sys2Proof.Machine.execAwexpExt x s
  | .await b => Sys2Proof.Machine.execAwait b s
  | .awaitExt x => Sys2Proof.Machine.execAwaitExt x s
  | .awtest b => Sys2Proof.Machine.execAwtest b s
  | .awtestExt x => Sys2Proof.Machine.execAwtestExt x s
  | .launch b => Sys2Proof.Machine.execLaunch b s
  | .launchExt x => Sys2Proof.Machine.execLaunchExt x s
  | .nwait b => Sys2Proof.Machine.execNwait b s
  | .nwaitT b => Sys2Proof.Machine.execNwaitT b s
  | .nwaitExt x => Sys2Proof.Machine.execNwaitExt x s
  | .hinit x => Sys2Proof.Machine.execHinit x s
  | .hjoin x => Sys2Proof.Machine.execHjoin x s
  | .hcontrib x => Sys2Proof.Machine.execHcontrib x s
  | .hwait x => Sys2Proof.Machine.execHwait x s
  | .hquery x => Sys2Proof.Machine.execHquery x s
  | .tcfg x => Sys2Proof.Machine.execTcfg x s
  | .tld x => Sys2Proof.Machine.execTld x s
  | .tst x => Sys2Proof.Machine.execTst x s
  | .tzero x => Sys2Proof.Machine.execTzero x s
  | .tzeroA x => Sys2Proof.Machine.execTzeroA x s
  | .mma x => Sys2Proof.Machine.execMma x s
  | .mmav x => Sys2Proof.Machine.execMmav x s
  | .cbld x => Sys2Proof.Machine.execCbld x s
  | .olapply x => Sys2Proof.Machine.execOlapply x s
  | .aprom x => Sys2Proof.Machine.execAprom x s
  | .aout x => Sys2Proof.Machine.execAout x s
  | .asav x => Sys2Proof.Machine.execAsav x s
  | .arst x => Sys2Proof.Machine.execArst x s
  | .ahist x => Sys2Proof.Machine.execAhist x s
  | .stest x => Sys2Proof.Machine.execStest x s
  | .subaddrWrite host addr => Sys2Proof.Machine.execSubaddrWrite host addr s
  | .hostdone host handle => Sys2Proof.Machine.execHostdone host handle s
  | .launchPacket p => Sys2Proof.Machine.execLaunchPacket p s
  | .launchPortConfigure port val => Sys2Proof.Machine.execLaunchPortConfigure port val s
  | .launchPortUnconfigure port val => Sys2Proof.Machine.execLaunchPortUnconfigure port val s
  | .taskAccept => Sys2Proof.Machine.execTaskAccept s
  | .dispatchPass => Sys2Proof.Machine.execDispatchPass s
  | .plctlWrite val => Sys2Proof.Machine.execPlctlWrite val s
  | .throttleStart die => Sys2Proof.Machine.execThrottleStart die s
  | .invalidateAll => Sys2Proof.Machine.execInvalidateAll s
  | .invalidateAsid asid => Sys2Proof.Machine.execInvalidateAsid asid s
  | .invalidateRange asid npg => Sys2Proof.Machine.execInvalidateRange asid npg s
  | .invalidationComplete => Sys2Proof.Machine.execInvalidationComplete s
  | .faultRetry die idx => Sys2Proof.Machine.execFaultRetry die idx s
  | .faultFail die idx => Sys2Proof.Machine.execFaultFail die idx s
  | .faultQueueWrite die => Sys2Proof.Machine.execFaultQueueWrite die s
  | .walk die => Sys2Proof.Machine.execWalk die s
  | .reserveGrant c => Sys2Proof.Machine.execReserveGrant c s
  | .loadReply id => Sys2Proof.Machine.execLoadReply id s
  | .storeTranslate id => Sys2Proof.Machine.execStoreTranslate id s
  | .atomicPerform id => Sys2Proof.Machine.execAtomicPerform id s
  | .wcAgeDrain c => Sys2Proof.Machine.execWcAgeDrain c s
  | .wcDrainAck c entry => Sys2Proof.Machine.execWcDrainAck c entry s
  | .copyCellRead id => Sys2Proof.Machine.execCopyCellRead id s
  | .copyCellWrite id => Sys2Proof.Machine.execCopyCellWrite id s
  | .copyCellAck id => Sys2Proof.Machine.execCopyCellAck id s
  | .matrixOpComplete c => Sys2Proof.Machine.execMatrixOpComplete c s
  | .selfTest die quad fail => Sys2Proof.Machine.execSelfTest die quad fail s
  | .barrierWatchdog team slice => Sys2Proof.Machine.execBarrierWatchdog team slice s
  | .podBarrierComplete binding phase => Sys2Proof.Machine.execPodBarrierComplete binding phase s
  | .cellReceive link cell => Sys2Proof.Machine.execCellReceive link cell s
  | .linkUp link => Sys2Proof.Machine.execLinkUp link s
  | .linkDown link => Sys2Proof.Machine.execLinkDown link s
  | .podRequest id => Sys2Proof.Machine.execPodRequest id s
  | .podResponse id => Sys2Proof.Machine.execPodResponse id s
  | .spliceMessage m => Sys2Proof.Machine.execSpliceMessage m s
  | .spliceStepTimeout loc comm seq lo hi => Sys2Proof.Machine.execSpliceStepTimeout loc comm seq lo hi s
  | .hitchContribution c => Sys2Proof.Machine.execHitchContribution c s
  | .hitchWatchdog team slice => Sys2Proof.Machine.execHitchWatchdog team slice s
  | .triggerMark team lane => Sys2Proof.Machine.execTriggerMark team lane s
  | .exitReleaseComplete team lane => Sys2Proof.Machine.execExitReleaseComplete team lane s
  | .haltRequest team => Sys2Proof.Machine.execHaltRequest team s
  | .haltNestTimeout team slice => Sys2Proof.Machine.execHaltNestTimeout team slice s
  | .contextSaveComplete team => Sys2Proof.Machine.execContextSaveComplete team s
  | .teamEnd team => Sys2Proof.Machine.execTeamEnd team s
  | .taskEnd handle => Sys2Proof.Machine.execTaskEnd handle s
  | .tkill handle => Sys2Proof.Machine.execTkill handle s
  | .stallSample c => Sys2Proof.Machine.execStallSample c s
  | .laneCycleClear => Sys2Proof.Machine.execLaneCycleClear s
  | .replayGateTimeout a => Sys2Proof.Machine.execReplayGateTimeout a s
  | .correctedError die loc => Sys2Proof.Machine.execCorrectedError die loc s
  | .uncorrectableError die loc => Sys2Proof.Machine.execUncorrectableError die loc s
  | .featdrvWrite val => Sys2Proof.Machine.execFeatdrvWrite val s
  | .throttleOffer t => Sys2Proof.Machine.execThrottleOffer t s
  | .throttleTemperature die t => Sys2Proof.Machine.execThrottleTemperature die t s
  | .criticalTemperature die => Sys2Proof.Machine.execCriticalTemperature die s
  | .packageReset => Sys2Proof.Machine.execPackageReset s
  | .firmwareLoad image => Sys2Proof.Machine.execFirmwareLoad image s
  | .toProvisioned => Sys2Proof.Machine.execToProvisioned s
  | .toDeployed => Sys2Proof.Machine.execToDeployed s
  | .toReturned => Sys2Proof.Machine.execToReturned s
  | .getVersion => Sys2Proof.Machine.execGetVersion s
  | .getCapabilities => Sys2Proof.Machine.execGetCapabilities s
  | .negotiateAlgorithms => Sys2Proof.Machine.execNegotiateAlgorithms s
  | .getDigests => Sys2Proof.Machine.execGetDigests s
  | .getCertificate => Sys2Proof.Machine.execGetCertificate s
  | .challenge => Sys2Proof.Machine.execChallenge s
  | .getMeasurements => Sys2Proof.Machine.execGetMeasurements s
  | .keyExchange => Sys2Proof.Machine.execKeyExchange s
  | .finish => Sys2Proof.Machine.execFinish s
  | .keyUpdate => Sys2Proof.Machine.execKeyUpdate s
  | .registerWrite pa val => Sys2Proof.Machine.execRegisterWrite pa val s
  | .hostMemoryAccess a => Sys2Proof.Machine.execHostMemoryAccess a s
  | .flowRekey domain flow => Sys2Proof.Machine.execFlowRekey domain flow s
  | .tileTransferComplete c mseq => Sys2Proof.Machine.execTileTransferComplete c mseq s

end Sys2Proof.Machine
end

