-- ==== Sys2Proof/Machine/Issue.lean ====
section
/-!
DEFINITION. What one step does: an agent issues its next instruction (R151, R174, R176 to R180), an input arrives, or, with
no input given, the next piece of work that is due is done.
-/
namespace Sys2Proof.Machine

abbrev Result := Host.Outcome State Fault Refusal

/-- What happens, and then what follows in the state it gives. -/
def andThen (o : Result) (f : State → Result) : Result := match o with | .next s => f s | o => o

/-- One thing after another for each entry of a list. -/
def eachThen {α : Type} (f : α → State → Result) : List α → State → Result
  | [], s => .next s
  | a :: as, s => andThen (f a s) (eachThen f as)

/-! ## The choice of a gang (R21, R178, R179) -/

/-- Slices that stand where the leader stands (R21). -/
def sameSpot (x y : Slice) : Bool := x.pc == y.pc && x.rejoin.length == y.rejoin.length && x.region.length == y.region.length

/-- A slice of a core: its team, the team's age, and its number. -/
structure Seat where
  team : Nat
  age : Nat
  slice : Nat
deriving DecidableEq, Repr

/-- What an agent does next: nothing, a trap, hold or walk of its fetch, or an instruction. -/
inductive Pick where
  | none
  | trap (who : List Issuer) (kind cause va : Nat)
  | hold (who : Issuer) (kind cause va : Nat)
  | walk (who : List Issuer) (va : Nat)
  | run (i : Instr) (who : Agent)

/-- The agents that a choice takes. -/
def Pick.agents : Pick → List Issuer
  | .none => []
  | .trap who _ _ _ => who
  | .hold a _ _ _ => [a]
  | .walk who _ => who
  | .run _ (.gang u is) => is.map (fun i => .slice u i)
  | .run _ (.ctx m c) => [.ctx (ctxKey c m)]
  | .run _ .idle => []

/-- The slices of the resident teams of a core, oldest first (R25). -/
def State.seats (s : State) (c : CoreId) : List Seat :=
  (byAge ((s.onCore c).filter (fun p => p.2.status == .resident))).flatMap (fun p => p.2.slices.map (fun q => { team := p.1, age := p.2.age, slice := q.1 }))

/-- The home gang of a seat comes at or after a pointer (R178). -/
def Seat.from_ (x : Seat) (ptr : Nat × Nat) : Bool := decide (ptr.1 < x.age) || (x.age == ptr.1 && decide (ptr.2 ≤ x.slice / 8))

/-- Seats in the order of a pointer, which wraps (R178). -/
def rotated (ptr : Nat × Nat) (xs : List Seat) : List Seat := xs.filter (·.from_ ptr) ++ xs.filter (fun x => !x.from_ ptr)

/-- The instruction at which a slice or context waits would leave it waiting once more. -/
def State.stillWaits (s : State) (ins : Instr) (a : Agent) : Bool :=
  match exec ins { s with cur := a } with
  | .next t => match a with
    | .idle => false
    | .gang u is => is.any (fun i => match t.slice u i with | some x => x.wait != .none | none => false)
    | .ctx m c => (t.ctx (ctxKey c m)).wait != .none
  | _ => false

/-- One of the waits in which a slice is waiting and not runnable (R25, R84, R328). -/
def Wait.listed (w : Wait) : Bool :=
  match w with
  | .bar _ _ => true
  | .barw _ _ _ => true
  | .nwait => true
  | .await => true
  | .hitch _ round => round != 0
  | .rdv => true
  | .fork _ => true
  | _ => false

/-- A slice would issue its next instruction, or trap at its fetch, as it stands after R174. -/
def State.wouldIssue (s : State) (u i : Nat) : Bool :=
  let s := s.rejoined u i
  s.sliceOpen u i && (match s.fetch (.slice u i) with
    | .ok ins r =>
      (if crossLane r.op then s.homeReady u i r else s.sliceReady u i r) && !((s.sl u i).wait.listed && s.stillWaits ins (.gang u [i]))
    | .trap _ _ => !s.awaits (.slice u i)
    | _ => true)

/-- The operation of a slice's next instruction, when it can be fetched. -/
def State.opAt (s : State) (x : Seat) : Option Op :=
  match (s.rejoined x.team x.slice).fetch (.slice x.team x.slice) with | .ok _ r => some r.op | _ => none

/-- The pipe of a slice's next instruction; one that cannot be fetched traps from the memory-and-control pipe. -/
def State.pipeAt (s : State) (x : Seat) : Pipe := match s.opAt x with | some op => pipeOf op | none => .memory

/-- The pointer of a pipe of a core. -/
def Core.ptr (k : Core) : Pipe → Nat × Nat
  | .memory => k.ptrM
  | .vector => k.ptrV

/-- The pointer moves to the home gang after a leader's (R178). -/
def State.movePtr (s : State) (c : CoreId) (p : Pipe) (x : Seat) : State :=
  s.modCore c (fun k => match p with | .memory => { k with ptrM := (x.age, x.slice / 8 + 1) } | .vector => { k with ptrV := (x.age, x.slice / 8 + 1) })

/-- A seat is ready for a pipe. -/
def State.seatReady (s : State) (p : Pipe) (x : Seat) : Bool := s.wouldIssue x.team x.slice && s.pipeAt x == p

/-- The slices of a core, oldest first, that have been ready for 256 cycles without being selected, bubbles not counted (R25,
R108). -/
def State.overdue (s : State) (c : CoreId) : List Seat :=
  (s.seats c).filter (fun x => decide ((s.sl x.team x.slice).readySince + 256 ≤ (s.die c.die).open_) && s.wouldIssue x.team x.slice)

/-- A seat has no part in what seats already chosen do in this cycle: a cross-lane instruction takes its whole home gang (R176, R179). -/
def State.apart (s : State) (took : List Seat) (x : Seat) : Bool :=
  !took.contains x && !((s.opAt x).any crossLane && took.any (fun y => y.team == x.team && y.slice / 8 == x.slice / 8))

/-- The leader of a pipe among the slices offered, which an overdue slice of the core precedes, beside those already chosen (R178). -/
def State.leader (s : State) (c : CoreId) (p : Pipe) (offer took : List Seat) : Option Seat :=
  match (s.overdue c).find? (fun x => s.pipeAt x == p && s.apart took x) with
  | some x => some x
  | none => (rotated ((s.core c).ptr p) offer).find? (fun x => s.seatReady p x && s.apart took x)

/-- The gang of a leader (R178): with it the other slices of its team among those offered that pass a test, first its home gang,
then the later home gangs in the order of the pointer, at most eight; in rising %slice order, in which they act. -/
def gangOf (x : Seat) (offer : List Seat) (ok : Nat → Bool) : List Nat :=
  let mine := offer.filter (fun y => y.team == x.team && y.slice != x.slice && ok y.slice)
  let home := mine.filter (fun y => y.slice / 8 == x.slice / 8)
  let rest := rotated (x.age, x.slice / 8 + 1) (mine.filter (fun y => y.slice / 8 != x.slice / 8))
  let is := x.slice :: ((home ++ rest).map (·.slice)).take 7
  (offer.filter (fun y => y.team == x.team && is.contains y.slice)).map (·.slice)

/-- What a leader's gang does next. A cross-lane instruction that raises no trap of R151 and for which a slice has no entry left
under its ceiling issues for none: that slice takes REGSPACE, and the others wait for it (R167, R179, R180, R273). -/
def State.pickLed (s : State) (x : Seat) (offer : List Seat) : Pick :=
  let u := x.team
  let i := x.slice
  let same (j : Nat) : Bool := sameSpot (s.sl u i) (s.sl u j)
  match s.fetch (.slice u i) with
  | .hold k c va => .hold (.slice u i) k c va
  | .walk va => .walk ((gangOf x offer (fun j => same j && s.sliceOpen u j)).map (fun j => .slice u j)) va
  | .trap k c => .trap ((gangOf x offer (fun j => same j && s.sliceOpen u j)).map (fun j => .slice u j)) k c (s.sl u i).pc
  | .ok ins r =>
    if crossLane r.op then
      let full := (s.homeGang u i).filter (fun j => !s.room (.slice u j) r)
      .run ins (.gang u (if full.isEmpty ∨ !(legalFields .g r && s.featured r.op) then s.homeGang u i else full))
    else .run ins (.gang u (gangOf x offer (fun j => same j && s.sliceReady u j r)))

/-- What a context does next. A trap that is pending waits for the operation that was running (R449); after
YIELD the context is passed over (R190). -/
def State.pickCtx (s : State) (m : Bool) (c : CoreId) : Pick :=
  let k := ctxKey c m
  let a := Issuer.ctx k
  let x := s.ctx k
  if x.run ≠ .running ∨ !c.ok ∨ s.cyc c.die < x.yieldEnd then .none
  else match x.pend with
    | p :: _ => if s.ctxFlies k ∨ x.wait = .replay then .none else .trap [a] p.kind p.cause p.va
    | [] => match s.fetch a with
      | .hold kd cs va => if x.wait = .replay then .none else .hold a kd cs va
      | .walk va => if x.wait = .walk then .none else .walk [a] va
      | .trap kd cs => .trap [a] kd cs x.pc
      | .ok ins r => if s.ctxReady k r then .run ins (.ctx m c) else .none

/-- A context is ready: it would issue, or take a trap that is due. -/
def State.ctxWould (s : State) (m : Bool) (c : CoreId) : Bool :=
  match s.pickCtx m c with
  | .none => false
  | .run ins a => (s.ctx (ctxKey c m)).wait == .none || !s.stillWaits ins a
  | _ => true

/-- The context that a sequencer serves: the first at or after its pointer that is ready (R27, R315); when none is, the one
named looks again at what it waits for. -/
def State.ctxNext (s : State) (m : Bool) (c : CoreId) : CoreId :=
  let q := s.quad c
  let p := if m then q.ptrM else q.ptrC
  (((List.range 4).map (fun j => { c with core := (p + j) % 4 })).find? (s.ctxWould m)).getD c

/-! ## Issue -/

/-- R174, before each issue, in the home gangs of the slices that may issue. -/
def State.prepare (s : State) (offer : List Seat) : State := foldS (fun x s => s.rejoined x.team x.slice) offer s

/-- The die of an agent. -/
def State.dieOf (s : State) (a : Agent) : Nat :=
  match a with | .idle => 0 | .gang u _ => (match s.team u with | some t => t.core.die | none => 0) | .ctx _ c => c.die

/-- A slice that does not wait after its turn is done with its instruction. -/
def State.hasIssued (s : State) (u i : Nat) : Bool := match s.slice u i with | some x => x.wait == .none | none => true

/-- A slice's instruction has issued in the turn from s to t: it is done, or waits now as one that has issued and did not before. -/
def State.issuedNow (s t : State) (u i : Nat) : Bool :=
  !(s.sl u i).wait.listed && match t.slice u i with | some y => y.wait == .none || y.wait.listed | none => true

/-- A slice is not ready (R25): it waits, cannot issue, or lacks an operand, an entry or its home gang. One with nothing in
flight, whose home gang stands together, is ready without further looking. -/
def State.unready (s : State) (u i : Nat) : Bool :=
  match s.team u, s.slice u i with
  | some t, some x =>
    let plain := x.wait == .none && !x.starved && s.sliceOpen u i && !s.vectorBusy t.core && t.slices.all (fun p => p.1 / 8 != i / 8 || (p.2.pc == x.pc && p.2.atRest)) &&
      !s.mops.any (fun p => match p.2.by_ with | .slice v j => v == u && j / 8 == i / 8 | .ctx _ => false) && s.subs.isEmpty
    !plain && !s.wouldIssue u i
  | _, _ => false

/-- The slices and contexts of a die that are not ready have been so until now (R25, R27). -/
def State.markReady (s : State) (die : Nat) : State :=
  let n := (s.die die).open_
  let s := { s with teams := s.teams.map (fun (p : Nat × Team) => if p.2.core.die = die then
    (p.1, { p.2 with slices := p.2.slices.map (fun (q : Nat × Slice) => if s.unready p.1 q.1 then (q.1, { q.2 with readySince := n }) else q) }) else p) }
  { s with ctxs := s.ctxs.map (fun (p : Nat × Ctx) => if (ctxCore p.1).die = die && !s.ctxWould (p.1 % 2 == 1) (ctxCore p.1) then (p.1, { p.2 with readySince := n }) else p) }

/-- n cycles of a die pass, in which the pipes given by their cores issue; then the cores hand out their register entries. -/
def State.pass (s : State) (die n : Nat) (busy : List (CoreId × Nat)) : State :=
  let s := s.elapse die n busy
  let cs := ((s.teams.filter (fun p => p.2.core.die == die)).map (fun p => p.2.core)).eraseDups
  (foldS (fun c s => s.allocPass c) cs s).markReady die

/-- The instruction cache holds the words of an instruction that an agent issues (R153). -/
def State.withCode (s : State) (ins : Instr) (a : Agent) : State :=
  match ins.raw, a with
  | some r, .gang u is => s.codeHeld (.slice u (is.headD 0)) (s.sl u (is.headD 0)).pc r.len.words
  | some r, .ctx m c => s.codeHeld (.ctx (ctxKey c m)) (s.ctx (ctxKey c m)).pc r.len.words
  | _, _ => s

/-- A gang's instruction keeps the vector pipe of its core (R176). -/
def State.keepPipe (s : State) (u : Nat) (r : Raw) : State :=
  match s.team u with
  | some t => if pipeOf r.op == .vector && decide (1 < pipeCycles r) then s.modCore t.core (fun k => { k with vBusy := (s.cyc t.core.die, s.cyc t.core.die + pipeCycles r) }) else s
  | none => s

/-- What follows the effect of an instruction that an agent issued in state s: the slices that issued count it, and the lane
slots are counted (R442, R470). A context has had its turn. -/
def State.counted (s : State) (a : Agent) (ins : Instr) (t : State) : State :=
  let t := { t with cur := .idle }
  let d := s.dieOf a
  let since := (s.die d).open_ + 1
  match a, ins.raw with
  | .gang u is, some r =>
    let pc := (s.sl u (is.headD 0)).pc
    let did := is.filter (s.issuedNow t u)
    let t := foldS (fun i t => t.modSlice u i (fun x => { x with readySince := since })) is t
    let t := foldS (fun i t => t.modSlice u i (fun x => { x with grant := false, starved := false, due := 0 })) (is.filter (t.hasIssued u)) t
    let t := foldS (fun i t => t.modSlice u i (fun x => { x with icount := x.icount + 1, issued := some (s.cyc d, pc) })) did t
    if did.isEmpty then t
    else if s.counting (s.asidOf u) then (t.keepPipe u r).addSlots pc (s.gangSlots u (did.map (fun i => (i, s.acts (.slice u i) r.x))))
    else t.keepPipe u r
  | .ctx m c, _ =>
    (t.modCtx (ctxKey c m) (fun x => { x with readySince := since })).modQuad c
      (fun q => if m then { q with ptrM := (c.core + 1) % 4 } else { q with ptrC := (c.core + 1) % 4 })
  | _, _ => t

/-- An instruction issues as the current agent. -/
def State.run (s : State) (ins : Instr) (a : Agent) : Result :=
  let s := s.withCode ins a
  match exec ins { s with cur := a } with
  | .next t => .next (s.counted a ins t)
  | o => o

/-- A trap that was pending reaches a context: a masked MXF sets its sticky bit and the context goes on (R436, R449). -/
def State.ctxPend (s : State) (k : Nat) (p : PTrap) : State :=
  let u := s.teamOf (.ctx k)
  if p.kind = kMxf ∧ s.masks u kMxf then (s.sticky u kMxf).modCtx k (fun x => { x with pend := x.pend.erase p })
  else s.stopCtx k p

/-- A trap of a fetch, which every slice of the gang takes. -/
def State.fetchTrap (s : State) (who : List Issuer) (kind cause va : Nat) : State :=
  if who.any (fun a => s.awaits a && (match a with | .slice _ _ => true | .ctx _ => false)) then foldS (fun a s => s.setWait a .stores) who s
  else foldS (fun a s => match a with
    | .ctx k => match (s.ctx k).pend with | p :: _ => s.ctxPend k p | [] => s.trapOne a kind cause va 0 1
    | .slice _ _ => s.trapOne a kind cause va 0 (s.actOf a)) who s

/-- What is picked happens. -/
def State.act (s : State) (p : Pick) : Result :=
  match p with
  | .none => .next s
  | .trap who k c va => .next (s.fetchTrap who k c va)
  | .hold who k c va => .next ((s.raiseFault (s.req who) va k c accFetch (waiterOf who)).setWait who .replay)
  | .walk who va => .next (s.waitWalks (who.map (fun a => (a, va))))
  | .run ins g => s.run ins g

/-- The pipes that a choice keeps busy: one when a slice has issued. -/
def State.pipesUsed (s t : State) (p : Pick) : Nat :=
  match p with | .run _ (.gang u is) => if is.any (s.issuedNow t u) then 1 else 0 | _ => 0

/-- One pipe of a core chooses among the slices offered, beside those already chosen (R178). -/
def State.choose (s : State) (c : CoreId) (p : Pipe) (offer took : List Seat) : Option (Pick × State) :=
  (s.leader c p offer took).map (fun x =>
    (s.pickLed x ((s.seats c).filter (fun y => (offer.contains y || y == x) && !took.contains y)), s.movePtr c p x))

/-- The vector pipe of a core chooses and issues; `n` pipes have issued before. -/
def State.vectorActs (s : State) (c : CoreId) (offer took : List Seat) (n : Nat) : Result × Nat :=
  match s.choose c .vector offer took with
  | none => (.next s, n)
  | some (p, s) => match s.act p with
    | .next t => (.next t, n + s.pipesUsed t p)
    | o => (o, n)

/-- What a core does in a cycle with the slices offered, and how many of its pipes issue. The traps that are due at their boundaries are
taken (R438); entries that have returned are handed out (R169); the memory-and-control pipe chooses first, and then, where `both` pipes may
issue or it has no leader, the vector pipe from the slices not chosen (R178). -/
def State.coreActs (s : State) (c : CoreId) (offer : List Seat) (both : Bool) : Result × Nat :=
  let dues := offer.filter (fun x => (s.dueTrap x.team x.slice).isSome)
  let s := foldS (fun x s => (s.boundary x.team x.slice).getD s) dues s
  let s := (s.prepare (offer.filter (fun x => !dues.contains x))).allocPass c
  let offer := (s.seats c).filter (fun x => offer.contains x && !dues.contains x)
  match s.choose c .memory offer dues with
  | none => s.vectorActs c offer dues 0
  | some (p, s) => match s.act p with
    | .next t =>
      let n := s.pipesUsed t p
      if !both then (.next t, n)
      else
        let took := dues ++ offer.filter (fun x => p.agents.contains (.slice x.team x.slice))
        let t := (t.prepare (offer.filter (fun x => !took.contains x))).allocPass c
        t.vectorActs c ((t.seats c).filter (fun x => offer.contains x && !took.contains x)) took n
    | o => (o, 0)

/-- The slices of a core that an agent names. -/
def State.offered (s : State) (c : CoreId) (u : Nat) (is : List Nat) : List Seat := (s.seats c).filter (fun x => x.team == u && is.contains x.slice)

/-- Slices of a core have a turn, and a cycle of the die passes. -/
def State.coreTurn (s : State) (c : CoreId) (offer : List Seat) (both : Bool) : Result :=
  let (o, n) := s.coreActs c offer both
  andThen o (fun t => .next (t.pass c.die 1 [(c, n)]))

/-- A sequencer of a quad serves a context (R27, R315). -/
def State.ctxActs (s : State) (m : Bool) (c : CoreId) : Result := s.act (s.pickCtx m (s.ctxNext m c))

/-- An agent's turn; in a throttle bubble nothing issues (R107). -/
def State.turn (s : State) (a : Agent) : Result :=
  let d := s.dieOf a
  if (s.die d).inBubble then .next (s.pass d 1 [])
  else match a with
    | .idle => .next (s.pass d 1 [])
    | .gang u is => (match s.team u with | some t => s.coreTurn t.core (s.offered t.core u is) false | none => .next (s.pass d 1 []))
    | .ctx m c => andThen (s.ctxActs m c) (fun t => .next (t.pass d 1 []))

/-- A cycle of a core (R176, R178). -/
def State.coreCycle (s : State) (c : CoreId) : Result :=
  if (s.die c.die).inBubble then .next (s.pass c.die 1 []) else s.coreTurn c (s.seats c) true

/-- The cores of a die that hold teams. -/
def State.dieCores (s : State) (die : Nat) : List CoreId := ((s.teams.filter (fun p => p.2.core.die == die)).map (fun p => p.2.core)).eraseDups

/-- The cores of a die have a cycle each, one after another; the pipes that issue are given by their cores. -/
def State.coresAct (s : State) : List CoreId → List (CoreId × Nat) → Result × List (CoreId × Nat)
  | [], busy => (.next s, busy)
  | c :: cs, busy => match s.coreActs c (s.seats c) true with
    | (.next t, n) => State.coresAct t cs ((c, n) :: busy)
    | (o, _) => (o, busy)

/-- The sequencers of a die with a context that runs: whether it is the MSQ, and a core of the quad. -/
def State.sequencers (s : State) (die : Nat) : List (Bool × CoreId) :=
  ((s.ctxs.filter (fun p => p.2.run == .running && (ctxCore p.1).die == die)).map (fun p => (p.1 % 2 == 1, { ctxCore p.1 with core := 0 }))).eraseDups

/-- A cycle of a die: each of its cores has a cycle and each sequencer serves a context, unless it is a throttle bubble (R107). -/
def State.dieCycle (s : State) (die : Nat) : Result :=
  if (s.die die).inBubble then .next (s.pass die 1 [])
  else
    let (o, busy) := s.coresAct (s.dieCores die) []
    andThen (andThen o (fun s => eachThen (fun (q : Bool × CoreId) s => s.ctxActs q.1 q.2) (s.sequencers die) s)) (fun s => .next (s.pass die 1 busy))

/-- A slice of a die has been ready for 256 open cycles, or a context for so long that the others of its sequencer could keep it beyond
them: the die has its cycle before any agent's turn (R25, R27, R108). -/
def State.pressed (s : State) (die : Nat) : Bool :=
  s.ctxs.any (fun p => (ctxCore p.1).die == die && decide (p.2.readySince + 252 ≤ (s.die die).open_) && s.ctxWould (p.1 % 2 == 1) (ctxCore p.1)) ||
    (s.dieCores die).any (fun c => !(s.overdue c).isEmpty)

/-- The cycles of a die, at most n, that may pass before an agent could be overdue or become ready by the passing of time alone. -/
def State.quietFor (s : State) (die n : Nat) : Nat :=
  let o := (s.die die).open_
  let c := s.cyc die
  let ofSlice (x : Slice) : List Nat := [x.readySince + 256 - o, x.yieldEnd - c]
  let ofCtx (x : Ctx) : List Nat := [x.readySince + 252 - o, x.yieldEnd - c]
  let ls := (s.teams.filter (fun p => p.2.core.die == die)).flatMap (fun p => p.2.slices.flatMap (fun q => ofSlice q.2)) ++
    (s.ctxs.filter (fun p => (ctxCore p.1).die == die && p.2.run == .running)).flatMap (fun p => ofCtx p.2) ++
    (s.dieCores die).map (fun k => (s.core k).vBusy.2 - c)
  ls.foldl (fun a l => if l = 0 then a else min a l) n

/-! ## Inputs -/

/-- Drop a line of an RDC. -/
def State.dropRdc (s : State) (die line : Nat) : State := s.modDie die (fun d => { d with rdc := mdel d.rdc line })

/-- The inputs that act inside the package, which no one meets while it is in reset (R493). -/
def Input.inside (x : Input) : Bool :=
  match x with
  | .issue _ | .cycle _ | .tick _ _ | .ioTick _ | .slot _ | .evictL1 _ _ | .evictRdc _ _ | .evictCode _ _ | .fetchCode _ _ => true
  | .event _ | .setUp _ | .nodeKey _ _ _ | .nodeClass _ _ _ | .farPath _ _ _ | .farInit _ _ | .farJoin _ _ | .farDepart _ _ | .farRuns _ _ _
  | .farPod _ _ _ | .package _ => false

/-- An input happens. Only events arrive so; an instruction is issued by its agent. -/
def State.input (s : State) (x : Input) : Result :=
  if !s.mgmt.started && x.inside then .next s
  else match x with
  | .event i => if i.raw.isSome then .next s else exec i s
  | .issue a => if s.pressed (s.dieOf a) then s.dieCycle (s.dieOf a) else s.turn a
  | .cycle c => if s.pressed c.die then s.dieCycle c.die else s.coreCycle c
  | .tick die n => if s.pressed die then s.dieCycle die else .next (s.pass die (s.quietFor die n) [])
  | .ioTick n => .next { s with ioCyc := s.ioCyc + n }
  | .setUp q => .next (s.setUp q)
  | .nodeKey n d holds => .next { s with nodeKeys := mset s.nodeKeys (n * 2 ^ 16 + d % 2 ^ 16) holds }
  | .nodeClass n c v => .next { s with nodeClasses := mset s.nodeClasses (n * 4096 + c) (v % 4) }
  | .farPath p n marked => .next { s with farOff := s.farOff.filter (· != (p, n)) ++ (if marked then [] else [(p, n)]) }
  | .farInit asid obj => .next (s.farInit asid obj)
  | .farJoin pa m => .next (s.farJoin pa m)
  | .farDepart pa m => .next (s.farDepart pa m)
  | .farRuns pa m runs => .next (s.farRuns pa m runs)
  | .slot l => .next (s.slot l)
  | .farPod node slot c => .next { s with slots := mupd s.slots (slotKey node slot) (·.take c) }
  | .evictL1 c line => .next (s.l1Drop c line)
  | .evictRdc die line => .next (s.dropRdc die line)
  | .evictCode c pa => .next (s.modCore c (fun k => { k with icache := k.icache.filter (fun e => e.1 % 2 ^ 52 != pa) }))
  | .fetchCode c pa => .next (foldS (fun h s => s.codeFill c h pa) (((s.onCore c).map (fun p => p.2.task)).eraseDups) s)
  | .package n => .next { s with pkgId := n % 288 }

/-! ## The default schedule -/

/-- A piece of work that may be due with no input from outside. -/
inductive Work where
  | accept
  | pass
  | walk (die : Nat)
  | queue (die : Nat)
  | throttle (die : Nat)
  | load (id : Nat)
  | store (id : Nat)
  | atom (id : Nat)
  | podReq (id : Nat)
  | podResp (id : Nat)
  | cellRead (id : Nat)
  | cellWrite (id : Nat)
  | cellAck (id : Nat)
  | wcAck (c : CoreId) (id : Nat)
  | wcAge (c : CoreId)
  | reserve (c : CoreId)
  | sample (c : CoreId)
  | clean (c : CoreId)
  | matrix (c : CoreId)
  | transfer (c : CoreId) (m : Bool)
  | test (die quad : Nat)
  | mark (u lane : Nat)
  | exited (u lane : Nat)
  | barDog (u i : Nat)
  | hitchDog (u i : Nat)
  | nest (u i : Nat)
  | gate (a : Agent)
  | halt (u : Nat)
  | save (u : Nat)
  | endTeam (u : Nat)
  | endTask (h : Nat)
  | slot (link : Nat)
  | message (m : SpliceMsg)
  | stepLimit (f : Forming)
  | contrib (id : Nat)
  | close (pa : Nat)
  | inval
  | podWord (binding : Nat) (phase : Word)
  | die (die : Nat)
  | ioTime

/-- The work of the operations in flight. -/
def MemOp.work (id : Nat) (m : MemOp) : List Work :=
  match m.kind with
  | .ld => [.podReq id, .podResp id, .load id]
  | .ldk => [.podReq id, .podResp id, .load id]
  | .st => [.store id]
  | .red => [.store id, .podReq id, .atom id]
  | .hist => [.store id, .podReq id, .atom id]
  | .atom => [.podReq id, .atom id, .podResp id, .load id]
  | .hitch => []

/-- The work of a team: its releases and its end. -/
def Team.work (u : Nat) (t : Team) : List Work :=
  let lanes (e : Nat × Mask × Nat) : List Nat := (maskList e.2.1).map (4 * e.1 + ·)
  List.flatten
    [ (t.marking.flatMap lanes).map (.mark u ·), (t.exiting.flatMap lanes).map (.exited u ·),
      t.slices.flatMap (fun p => match p.2.wait with
        | .bar _ _ => [.barDog u p.1]
        | .barw _ _ _ => [.barDog u p.1]
        | .hitch _ _ => [.hitchDog u p.1]
        | .entry => [.gate (.gang u [p.1])]
        | _ => []),
      if t.halt.isSome then .save u :: t.slices.map (fun p => .nest u p.1) else [],
      if t.wanted then [.halt u] else [], if t.status = .ending then [.endTeam u] else [] ]

/-- The work of a context: its matrix operation, transfer or test. -/
def Ctx.work (k : Nat) (x : Ctx) : List Work :=
  let c := ctxCore k
  let m := k % 2 == 1
  (match x.flight with
    | some (.op ..) => [.matrix c]
    | some (.xfer ..) => [.transfer c m]
    | some (.test _) => [.test c.die c.quad]
    | none => []) ++ (if x.run = .running then [.gate (.ctx m c)] else [])

/-- The work of a core: its L1 and its write-combining buffer. -/
def Core.work (k : Nat) (x : Core) : List Work :=
  let c := Sys2Proof.Machine.coreOf k
  (if x.l1.any (fun p => p.2.dirty != 0) then [.clean c] else []) ++ if x.wc.isEmpty then [] else .wcAge c :: (x.wc.filter (·.draining)).flatMap (fun e => [.podReq e.id, .wcAck c e.id])

/-- All the work that may be due. -/
def State.work (s : State) : List Work :=
  let cores := (s.teams.map (fun p => p.2.core)).eraseDups
  let dies := (cores.map (fun c => c.die) ++ (s.ctxs.filter (fun p => p.2.run == .running)).map (fun p => (ctxCore p.1).die) ++
    (s.dies.filter (fun p => !p.2.pending.isEmpty)).map (fun p => p.1)).eraseDups
  List.flatten
    [ if s.subs.isEmpty then [] else [.accept], if s.passDue then [.pass] else [],
      s.dies.flatMap (fun p => List.flatten [if p.2.walks.isEmpty then [] else [.walk p.1], if p.2.faults.any (fun f => f.ring.isNone) then [.queue p.1] else [],
        if p.2.pending.isEmpty then [] else [.throttle p.1]]),
      s.mops.flatMap (fun p => p.2.work p.1), s.contribs.map (fun p => .contrib p.1),
      s.copies.flatMap (fun p => p.2.cells.flatMap (fun x => [.cellRead x.id, .cellWrite x.id, .cellAck x.id])),
      s.cores.flatMap (fun p => p.2.work p.1), cores.flatMap (fun c => [.reserve c, .sample c]),
      s.teams.flatMap (fun p => p.2.work p.1), s.ctxs.flatMap (fun p => p.2.work p.1),
      (s.tasks.filter (fun p => p.2.endDue)).map (fun p => .endTask p.2.handle),
      (s.tasks.filterMap (fun p => (mget p.2.levels (levelKey 6 0)).bind (·.seen))).filterMap (fun b =>
        let ph := (s.podSlot b.node b.slot 0).phase
        if ph = b.phase then none else some (.podWord b.binding ph)),
      (s.ready.map (fun x => x.1)).eraseDups.map .slot, (s.flying ++ s.splices.flatMap (·.words)).map .message, s.forming.map .stepLimit, (s.hitches.filter (fun p => p.2.closing)).map (fun p => .close p.1),
      let per := bits (s.ge 0x20080) 31 16
      s.quads.flatMap (fun p => if p.2.retest ∨ (per ≠ 0 ∧ per ≤ p.2.since) then [.test (p.1 / 32) (p.1 % 32)] else []),
      if s.inval.isSome then [.inval] else [], dies.map .die, [.ioTime] ]

/-- Dirty lines leave an L1 within 4,096 cycles in the default schedule, so that every write reaches its home (R362). -/
def State.clean (s : State) (c : CoreId) : State :=
  if s.cyc c.die < (s.core c).cleaned + 4096 then s else (s.l1BackAll c).modCore c (fun k => { k with cleaned := s.cyc c.die })

/-- One piece of work. A self-test passes in this schedule. -/
def State.doWork (s : State) (w : Work) : Result :=
  match w with
  | .accept => if s.faultWaits (.engine .accept) then .next s else .next s.taskAccept
  | .pass => .next s.dispatchPass
  | .walk d => .next (s.walkOne d)
  | .queue d => .next (s.queueFault d)
  | .throttle d => .next (s.throttleStart d)
  | .load id => .next (s.loadReply id)
  | .store id => .next (s.storeTranslate id)
  | .atom id => .next (s.atomicPerform id)
  | .podReq id => .next (s.podRequest id)
  | .podResp id => .next (s.podResponse id)
  | .cellRead id => .next (s.copyRead id)
  | .cellWrite id => .next (s.copyWrite id)
  | .cellAck id => .next (s.copyAck id)
  | .wcAck c id => .next (s.wcDrainAck c id)
  | .wcAge c => .next (s.wcAgeDrain c)
  | .reserve c => .next (s.reserveGrant c)
  | .sample c => .next (s.stallSample c)
  | .clean c => .next (s.clean c)
  | .matrix c => .next (s.matrixComplete c)
  | .transfer c m => .next (s.transferComplete c m)
  | .test d q => .next (s.selfTest d q 0)
  | .mark u l => .next (s.triggerMark u l)
  | .exited u l => .next (s.exitComplete u l)
  | .podWord b ph => .next (s.podBarrierComplete b ph)
  | .barDog u i => .next (s.barrierWatchdog u i)
  | .hitchDog u i => .next (s.hitchWatchdog u i)
  | .nest u i => .next (s.haltNest u i)
  | .gate a => .next (s.gateTimeout a)
  | .halt u => .next (s.haltRequest u)
  | .save u => .next (s.contextSave u)
  | .endTeam u => .next (s.teamEnd u)
  | .endTask h => if (match s.byHandle h with | some k => s.faultWaits (.engine (.done k.serial)) | none => false) then .next s else .next (s.taskEnd (BitVec.ofNat 64 h))
  | .slot l => .next (s.slot l)
  | .message m => .next (s.spliceMessage m)
  | .stepLimit f => .next (s.spliceTimeout f.loc f.comm f.seq f.lo f.hi)
  | .contrib id => .next (s.hitchContribution (.own id))
  | .close pa => .next (s.retryClose pa)
  | .inval => .next s.invalDone
  | .die d => s.dieCycle d
  | .ioTime => .next { s with ioCyc := s.ioCyc + 1 }

/-- The work whose turn it is, round robin. -/
def State.default (s : State) : Result :=
  let ws := s.work
  match ws.drop (s.rotor % ws.length) with
  | w :: _ => ({ s with rotor := s.rotor + 1 } : State).doWork w
  | [] => .next { s with rotor := s.rotor + 1 }

/-- One step. -/
def State.advanceOne (s : State) : Result :=
  match s.inbox with
  | x :: rest => ({ s with inbox := rest } : State).input x
  | [] => if s.mgmt.started then s.default else .next s

end Sys2Proof.Machine
end

