-- ==== Sys2Proof/Machine/Step.lean ====
section
/-!
DEFINITION. One step, and the placing of an instruction where the next step runs it.
-/
namespace Sys2Proof.Machine

/-- One step: the next input, or the next work of the default schedule. -/
def step (s : State) : Host.Outcome State Fault Refusal := s.advanceOne

/-- The address at which `withFetchWord` places an instruction. -/
def codeBase : Nat := 0x100000

/-- A task card with one team of 4 lanes: version 3, contract 40, floor 1, ceiling 128, 16 barriers, 448 KiB of scratchpad. -/
def loadCard : List DWord :=
  [BitVec.ofNat 64 (3 * 2 ^ 56 + 40 * 2 ^ 36), BitVec.ofNat 64 (2 ^ 40 + 4 * 2 ^ 29 + 2 ^ 21 + 128 * 2 ^ 13 + 16 * 2 ^ 8),
   BitVec.ofNat 64 (448 * 2 ^ 55), 0, BitVec.ofNat 64 codeBase] ++ List.replicate 27 0

/-- The context an instruction needs that no SIMT core executes; none for the SIMT core. -/
def loadEngine (nbits w : Nat) : Option Bool :=
  match (decodeTableWord nbits w).bind Instr.raw with
  | some r => if r.op.legalOn .g then none else some (r.op.legalOn .m)
  | none => none

/-- The instruction of an opcode-table row placed where the next step fetches: an address space 0 whose table maps the
first 2 GiB onto themselves, the words at `codeBase`, a team of one slice on the first core (or a context that it holds),
and its turn as the next input. The task fetches what memory holds then (R153). -/
def State.withFetchWord (s : State) (nbits w : Nat) : State :=
  let c : CoreId := { die := 0, quad := 0, core := 0 }
  let u := s.nextId
  let k : Task := { serial := s.serial, slot := 0, card := loadCard, asid := 0, src := .host 0, started := true, next := 1, left := 1 }
  let x : Slice := { pc := codeBase, readySince := (s.die 0).open_ }
  let t : Team := { task := s.serial, index := 0, core := c, age := s.nextAge, lanes := 4, slices := [(0, x)] }
  let s := s.setTc 0x8000 0
  let s := s.homeWrite 0 (toBytes 8 (2 ^ 63 + 0x40000) ++ List.replicate 56 0)
  let s := s.homeWrite 0x40000 (toBytes 8 (0x80000 + 1))
  let s := s.homeWrite 0x80000 (toBytes 8 0x59)
  let s := (s.homeWrite codeBase (tableBytes (w % 2 ^ nbits))).modCore c (fun k => { k with icache := [], tlb := [leafOf 0 codeBase 0x59 31] })
  let s := s.modQuad c (fun q => { q with tlb := [] })
  let s := { s with teams := mset s.teams u t, tasks := mset s.tasks s.serial { k with image := s.mem }, serial := s.serial + 1, nextId := u + 1, nextAge := s.nextAge + 1,
                    mgmt := { s.mgmt with started := true } }
  match loadEngine nbits w with
  | none => { s with inbox := .issue (.gang u [0]) :: s.inbox }
  | some m =>
    let y : Ctx := { holder := some u, owner := some u, run := .running, pc := codeBase, contract := 40, readySince := (s.die 0).open_ }
    { s.setCtx (ctxKey c m) y with inbox := .issue (.ctx m c) :: s.inbox }

end Sys2Proof.Machine
end

