-- ==== Sys2Proof/Safety.lean ====
section
/-!
DEFINITION. The terms in which claims are stated: the invariant of memory, a run that goes on, and what an instruction that
gives its results lane by lane leaves behind.
-/
namespace Sys2Proof

/-- Memory is in canonical form. -/
def MemInv (s : Machine.State) : Prop := Machine.Mem.wf s.mem = true

/-- A step answers a next state. -/
def Goes (s : Machine.State) : Prop := ∃ t, Machine.step s = .next t

namespace Machine

/-! ## Instructions with a result in each acting lane -/

/-- What such an instruction leaves in a slice x (R144, R145, R164, R168, R238): the PC past it, the value of f in the
destination names and the predicate of the acting lanes m, freed names, flags and draw counts, and nothing else. -/
structure SliceGot (r : Raw) (m : Mask) (dst : ODst) (f : Nat → Out) (x y : Slice) : Prop where
  pc : y.pc = x.pc + r.len.bytes
  regs : ∀ n l, l < 4 → y.reg n l =
    if m.getLsbD l = true ∧ dst.isReg = true ∧ n ∈ rawDests r then BitVec.ofNat 32 ((f l).val / 2 ^ (32 * (n - r.x.d.toNat)))
    else if n ∈ rawFrees r then 0 else x.reg n l
  held : ∀ n, (mget y.names n).isSome = true ↔
    (m ≠ 0 ∧ dst.isReg = true ∧ n ∈ rawDests r) ∨ (n ∉ rawFrees r ∧ (mget x.names n).isSome = true)
  preds : ∀ q l, q < 7 → l < 4 → (y.preds.get l).getLsbD q =
    if m.getLsbD l = true ∧ dst.pred? r = some q then (f l).q else (x.preds.get l).getLsbD q
  flags : ∀ l, l < 4 → y.fstk.get l = if m.getLsbD l then x.fstk.get l ||| ((f l).fl).setWidth 32 else x.fstk.get l
  draws : ∀ l, l < 4 → y.srcnt.get l = if m.getLsbD l then x.srcnt.get l + BitVec.ofNat 64 (f l).draws else x.srcnt.get l
  rest : y = { x with pc := y.pc, names := y.names, preds := y.preds, fstk := y.fstk, srcnt := y.srcnt, wait := .none, waitCyc := 0,
                      barTok := none, nwTok := none, rrTok := none, gateSince := none, gateOut := false, xf := [] }

/-- The result of a sequencer context is 64 bits wide. -/
def wideDest (r : Raw) : Bool := match (shapeOf r.op r.len r.x).d with | .v w _ _ => w | _ => false

/-- The same on a sequencer context (R140, R316). -/
structure CtxGot (r : Raw) (m : Mask) (dst : ODst) (f : Nat → Out) (x y : Ctx) : Prop where
  pc : y.pc = x.pc + r.len.bytes
  regs : ∀ n, mget y.regs n =
    if m ≠ 0 ∧ dst.isReg = true ∧ n = r.x.d.toNat then some (BitVec.ofNat 64 (if wideDest r then (f 0).val else (f 0).val % 2 ^ 32))
    else mget x.regs n
  preds : ∀ q, q < 7 → y.preds.getLsbD q = if m ≠ 0 ∧ dst.pred? r = some q then (f 0).q else x.preds.getLsbD q
  flags : y.fstk = if m ≠ 0 then x.fstk ||| ((f 0).fl).setWidth 32 else x.fstk
  rest : y = { x with pc := y.pc, regs := y.regs, preds := y.preds, fstk := y.fstk, wait := .none, gateSince := none, gateOut := false, xf := [] }

/-- The registers that an instruction writes in a state in which it issues: agent, name and lane. -/
def writesRaw (r : Raw) (s : State) (a : Issuer) (n l : Nat) : Prop := a ∈ s.agents ∧ n ∈ destsOn a r ∧ l ∈ maskList (s.acts a r.x)

/-- The same of a constructor; an event writes none. -/
def writesOf (i : Instr) (s : State) : Issuer → Nat → Nat → Prop :=
  match i.raw with
  | some r => writesRaw r s
  | none => fun _ _ _ => False

/-- A waiting LAUNCH has lost names to later writes of its lane, which W gives, and nothing else. -/
def LostTo (W : Issuer → Nat → Nat → Prop) (b c : Submission) : Prop :=
  match b.src with
  | .launch u i l t d sk fs => ∃ ns, c = { b with src := .launch u i l t d (sk ++ ns) fs } ∧ ∀ n ∈ ns, W (.slice u i) n l
  | _ => c = b

/-- Nothing outside the agents `as` is changed, but that an earlier result in flight has lost the registers that W gives for its agent, as
a later write takes them over (R171): memory, caches, k registers, barriers, special and device registers, tasks, every other slice and
context, and of every operation in flight all but the names that it has lost. -/
structure LaneKept (W : Issuer → Nat → Nat → Prop) (as : List Issuer) (s t : State) : Prop where
  whole : t = { s with teams := t.teams, ctxs := t.ctxs, mops := t.mops, subs := t.subs }
  teams : ∀ u, (t.team u).map (fun v => { v with slices := [] }) = (s.team u).map (fun v => { v with slices := [] })
  slices : ∀ u i, Issuer.slice u i ∉ as → t.slice u i = s.slice u i
  ctxs : ∀ k, Issuer.ctx k ∉ as → t.ctx k = s.ctx k
  ops : ∀ id op, mget s.mops id = some op → ∃ sk, mget t.mops id = some { op with skip := op.skip ++ sk } ∧ ∀ p ∈ sk, W op.by_ p.1 p.2
  noOps : ∀ id, mget s.mops id = none → mget t.mops id = none
  subs : t.subs.length = s.subs.length ∧ ∀ (i : Nat) b, s.subs[i]? = some b → ∃ c, t.subs[i]? = some c ∧ LostTo W b c

/-- The operations and submissions that s' adds to those of s are in t as s' has them: the instruction takes nothing from its own results. -/
structure Fresh (s s' t : State) : Prop where
  ops : ∀ id, mget s.mops id = none → mget t.mops id = mget s'.mops id
  subs : t.subs.drop s.subs.length = s'.subs.drop s.subs.length

/-- The whole effect: f gives an agent's result in a lane from the state at issue. -/
structure LaneEffect (r : Raw) (dst : ODst) (f : State → Issuer → Nat → Out) (s t : State) : Prop where
  kept : LaneKept (writesRaw r s) s.agents s t
  slices : ∀ u i x, Issuer.slice u i ∈ s.agents → s.slice u i = some x →
    ∃ y, t.slice u i = some y ∧ SliceGot r (s.acts (.slice u i) r.x) dst (f s (.slice u i)) x y
  ctxs : ∀ k, Issuer.ctx k ∈ s.agents → CtxGot r (s.acts (.ctx k) r.x) dst (f s (.ctx k)) (s.ctx k) (t.ctx k)

/-- The instruction passes the checks of R151, its gang names each agent once, and no agent passes CEIL by it (R167). -/
def Ready (r : Raw) (s : State) : Prop := Issues r s = true ∧ s.agents.Nodup ∧ ∀ a ∈ s.agents, s.room a r = true

/-- In every state in which an instruction is ready, it completes with this effect. -/
def Gives (i : Instr) (r : Raw) (dst : ODst) (f : State → Issuer → Nat → Out) : Prop :=
  ∀ s, Ready r s → ∃ t, exec i s = .next t ∧ LaneEffect r dst f s t

/-- The same of the 32-bit and the extended form of an operation (R133, R134). -/
def GivesBoth (base : Base → Instr) (ext : Ext → Instr) (op : Op) (dst : Raw → ODst) (f : Raw → State → Issuer → Nat → Out) : Prop :=
  (∀ b, Gives (base b) (.base op b) (dst (.base op b)) (f (.base op b))) ∧ ∀ x, Gives (ext x) (.ext op x) (dst (.ext op x)) (f (.ext op x))

/-- The same of an operation that has the extended form alone. -/
def GivesExt (ext : Ext → Instr) (op : Op) (dst : Raw → ODst) (f : Raw → State → Issuer → Nat → Out) : Prop :=
  ∀ x, Gives (ext x) (.ext op x) (dst (.ext op x)) (f (.ext op x))

/-! ## Instructions that act on each agent of the gang alone -/

/-- Each agent of the gang is left as P and Q say, and nothing else is changed but what LaneKept names. -/
structure Leaves (W : Issuer → Nat → Nat → Prop) (s t : State) (P : Nat → Nat → Slice → Slice → Prop) (Q : Nat → Ctx → Ctx → Prop) : Prop where
  kept : LaneKept W s.agents s t
  slices : ∀ u i x, Issuer.slice u i ∈ s.agents → s.slice u i = some x → ∃ y, t.slice u i = some y ∧ P u i x y
  ctxs : ∀ k, Issuer.ctx k ∈ s.agents → Q k (s.ctx k) (t.ctx k)

/-- The PC past an instruction, and the agent waits for nothing. -/
def Slice.stepped (x : Slice) (len : Nat) : Slice :=
  { x with pc := x.pc + len, wait := .none, waitCyc := 0, barTok := .none, nwTok := .none, rrTok := .none, gateSince := .none, gateOut := false, xf := [] }
def Ctx.stepped (x : Ctx) (len : Nat) : Ctx :=
  { x with pc := x.pc + len, wait := .none, gateSince := .none, gateOut := false, xf := [] }

/-- What a branch taken in the lanes t leaves of a slice that z describes but for the branch (R173, R183). -/
def Slice.branched (x z : Slice) (len : Nat) (t : Mask) (tgt join : Nat) : Slice :=
  if t = x.act then { z with pc := tgt }
  else if t = 0 then z
  else { z with pc := tgt, act := t, rejoin := { jpc := join, rpc := x.pc + len, wmask := x.act &&& ~~~t, pmask := x.act } :: x.rejoin }

/-- The same on a context, whose one lane branches or not, with the predicate of CALLX. -/
def Ctx.branched (z : Ctx) (q : Option Nat) (m t : Mask) (tgt : Nat) : Ctx :=
  { z with pc := if t = 0 then z.pc else tgt
           preds := match q with | some q => (setPred ⟨z.preds, 0, 0, 0⟩ q m (fun l => t.getLsbD l)).p0 | none => z.preds }

/-- A slice issues alone. -/
structure Alone (r : Raw) (s : State) (u i : Nat) (x : Slice) : Prop where
  issues : Issues r s = true
  cur : s.cur = .gang u [i]
  slice : s.slice u i = some x

/-- A context issues. -/
structure OnCtx (r : Raw) (s : State) (matrix : Bool) (c : CoreId) : Prop where
  issues : Issues r s = true
  cur : s.cur = .ctx matrix c

/-- In every state in which an instruction issues and H holds, it completes and leaves each agent as P and Q say. -/
def Does (i : Instr) (r : Raw) (H : State → Prop) (P : State → Nat → Nat → Slice → Slice → Prop) (Q : State → Nat → Ctx → Ctx → Prop) : Prop :=
  ∀ s, Issues r s = true → s.agents.Nodup → H s → ∃ t, exec i s = .next t ∧ Leaves (writesRaw r s) s t (P s) (Q s)

/-- The same of both forms of an operation. -/
def DoesBoth (base : Base → Instr) (ext : Ext → Instr) (op : Op) (H : Raw → State → Prop) (P : Raw → State → Nat → Nat → Slice → Slice → Prop)
    (Q : Raw → State → Nat → Ctx → Ctx → Prop) : Prop :=
  (∀ b, Does (base b) (.base op b) (H (.base op b)) (P (.base op b)) (Q (.base op b))) ∧
  ∀ x, Does (ext x) (.ext op x) (H (.ext op x)) (P (.ext op x)) (Q (.ext op x))

/-- A branch with the link `val` in the destination dst and q in the lanes T: T, the target, the join point and the link are
of the state at issue. It holds with room for the link, with rejoin stacks that are not full, and with no trace record of
divergence asked for (R173, R182, R468). -/
def BranchesBoth (base : Base → Instr) (ext : Ext → Instr) (op : Op) (dst : ODst) (q : Raw → Option Nat) (H : Raw → State → Prop)
    (T : Raw → State → Issuer → Mask) (tgt join val : Raw → State → Issuer → Nat) : Prop :=
  DoesBoth base ext op
    (fun r s => (∀ a ∈ s.agents, s.room a r = true) ∧ bitAt (s.ge 0x22128) 44 = false ∧
      (∀ u i x, Issuer.slice u i ∈ s.agents → s.slice u i = some x → x.rejoin.length < 32) ∧ H r s)
    (fun r s u i x y =>
      let a := Issuer.slice u i
      ∃ z, SliceGot r (T r s a) dst (fun _ => { val := val r s a }) x z ∧
        y = x.branched (z.callPred (q r) (s.acts a r.x) (T r s a)) r.len.bytes (T r s a) (tgt r s a) (join r s a))
    (fun r s k x y =>
      let a := Issuer.ctx k
      ∃ z, CtxGot r (T r s a) dst (fun _ => { val := val r s a }) x z ∧ y = z.branched (q r) (s.acts a r.x) (T r s a) (tgt r s a))

/-- The acting lanes whose A pair equals that of the lowest acting lane, and that value (R184). -/
def leadersTarget (r : Raw) (s : State) (a : Issuer) : Nat := s.srcA a r 0 ((maskList (s.acts a r.x)).headD 0)
def withLeader (r : Raw) (s : State) (a : Issuer) : Mask := s.acts a r.x &&& maskOf (fun l => s.srcA a r 0 l == leadersTarget r s a)

/-! ## One slice or one context alone -/

/-- A statement of both forms of an operation. -/
def Both (base : Base → Instr) (ext : Ext → Instr) (op : Op) (S : Instr → Raw → Prop) : Prop :=
  (∀ b, S (base b) (.base op b)) ∧ ∀ x, S (ext x) (.ext op x)

/-- The instruction completes: the machine is left as s' says outside slice j of team u, and that slice as P says. -/
def Ends (i : Instr) (s s' : State) (u j : Nat) (P : Slice → Prop) : Prop :=
  ∃ t, exec i s = .next t ∧ LaneKept (writesOf i s) [.slice u j] s' t ∧ Fresh s s' t ∧ ∃ y, t.slice u j = some y ∧ P y

/-- The same on a context. -/
def EndsCtx (i : Instr) (s s' : State) (k : Nat) (P : Ctx → Prop) : Prop :=
  ∃ t, exec i s = .next t ∧ LaneKept (writesOf i s) [.ctx k] s' t ∧ Fresh s s' t ∧ P (t.ctx k)

/-- One agent's part of an instruction, from v to w: outside the agent the machine is left as `eff` makes it of v, and the agent as P and Q
say. -/
structure Part (W : Issuer → Nat → Nat → Prop) (eff : Issuer → State → State) (P : Nat → Nat → Slice → Slice → Prop) (Q : Nat → Ctx → Ctx → Prop)
    (a : Issuer) (v w : State) : Prop where
  kept : LaneKept W [a] (eff a v) w
  fresh : Fresh v (eff a v) w
  agent : match a with
    | .slice u j => ∀ x, v.slice u j = some x → ∃ y, w.slice u j = some y ∧ P u j x y
    | .ctx k => Q k (v.ctx k) (w.ctx k)

/-- The agents do their parts in turn. -/
inductive Turns (R : Issuer → State → State → Prop) : List Issuer → State → State → Prop
  | nil (s : State) : Turns R [] s s
  | cons {a : Issuer} {as : List Issuer} {s v t : State} : R a s v → Turns R as v t → Turns R (a :: as) s t

/-- An instruction of a gang of any number of slices, or of a context, completes, each agent doing its part in turn. -/
def Completes (i : Instr) (s : State) (eff : Issuer → State → State) (P : Nat → Nat → Slice → Slice → Prop) (Q : Nat → Ctx → Ctx → Prop) : Prop :=
  ∃ t, exec i s = .next t ∧ Turns (Part (writesOf i s) eff P Q) s.agents s t


/-- The names of a slice after an instruction that writes its destinations later (R168): freed names gone, destinations mapped
when a lane acts, with 0 in a fresh mapping. -/
structure Mapped (r : Raw) (m : Mask) (x z : Slice) : Prop where
  regs : ∀ n l, z.reg n l = if n ∈ rawFrees r then 0 else x.reg n l
  held : ∀ n, (mget z.names n).isSome = true ↔ (m ≠ 0 ∧ n ∈ rawDests r) ∨ (n ∉ rawFrees r ∧ (mget x.names n).isSome = true)
  rest : z = { x with names := z.names }

/-- A slice that goes on with its destinations mapped; a watch (R466) may have made WATCH pending, at depth 0 when it is not
masked. -/
def GoesOn (s : State) (r : Raw) (u : Nat) (m : Mask) (x y : Slice) : Prop :=
  ∃ z ps, Mapped r m x z ∧ (x.depth ≠ 0 ∨ s.masks u kWatch = true → ps = []) ∧ y = { z.stepped r.len.bytes with pend := x.pend ++ ps }

/-- s with an operation in flight, when there is something to do. -/
def State.withOp (s : State) (op : MemOp) : State := if op.todo.isEmpty ∧ op.got.isEmpty then s else s.addOp op

/-- A matrix instruction whose lane acts, of an MSQ context with nothing in flight (R332, R347). -/
def MatrixReady (r : Raw) (s : State) (c : CoreId) : Prop :=
  OnCtx r s true c ∧ s.acts (.ctx (ctxKey c true)) r.x ≠ 0 ∧ (s.ctx (ctxKey c true)).flight = none

/-- The segments of a matrix access (R334) pass their window checks and translate, without CMIX, to the places ps, and every
earlier access of the context is performed. -/
def Reached (s : State) (k acc : Nat) (stamps : Bool) (segs : List (Nat × Nat)) (ps : List (List (Place × Nat))) : Prop :=
  s.unperformed (.ctx k) s.nextId = false ∧ ∃ ws, segWindows (s.segWindow k) segs = .ok ws ∧
    ws.map (fun l => l.map (s.segTr k acc stamps)) = ps.map (fun l => l.map (fun p => SegTr.ok p.1 p.2 false))

/-- An event completes, and the state after it is as P says. -/
def Answers (i : Instr) (s : State) (P : State → Prop) : Prop := ∃ t, exec i s = .next t ∧ P t

/-- When the handler is reachable and the frame can be written (R437), slice j of team u has entered the handler of the trap p
precisely, its frame written. -/
def EntersTrap (s : State) (p : PTrap) (nest : Bool) (u j : Nat) (t : State) : Prop :=
  ∀ tm x s1, s.team u = some tm → s.slice u j = some x → tm.vbase ≠ 0 → tm.csa ≠ none → x.depth < 2 ∨ (x.depth = 2 ∧ p.kind = kHalt) →
    s.csaWrite u (frameOff (x.depth + 1) j)
      (wordsToBytes (trapRecord p (x.depth + 1) x.pc x.pc (s.cyc tm.core.die) nest false x.live ++ x.frameBody)) = .done s1 →
    LaneKept (fun _ _ _ => False) [.slice u j] (s1.frameResults u j (x.depth + 1)) t ∧ ∃ y, t.slice u j = some y ∧ y.pc = tm.vbase + 64 * p.kind ∧ y.depth = x.depth + 1 ∧ y.act = x.live ∧
      y.wait = .none ∧ y.names = x.names ∧ y.preds = x.preds ∧ y.live = x.live

end Machine
end Sys2Proof
end

