-- ==== Sys2Proof/Certificates/Slice0/Obligations.lean ====
section
/-!
DEFINITION. The statements. `GivesBoth base ext op dst f` says of both forms of an operation: in every state in which the
instruction is ready it completes, in each acting lane the destination gets what f says, and nothing else changes but the
PC, sticky flags, draw counts and freed names that SliceGot and LaneKept name.
-/
open Sys2Proof Sys2Proof.Machine

/-! ## Instructions with a result in each lane -/

/-- MOV, ISEL and LEA (R202, R213, R214): B; A or B by the predicate IMM11[2:0]; base, scaled index and offset modulo 2^64. -/
def Obligations.MoveSelectAddressResults : Prop :=
  GivesBoth .mov .movExt .mov (fun _ => .reg) (fun r s a l => { val := s.srcB a r 0 l }) ∧
  GivesBoth .isel .iselExt .isel (fun _ => .reg)
    (fun r s a l => { val := if s.pred a l (bits r.x.imm.toNat 2 0) then s.srcA a r 0 l else s.srcB a r 0 l }) ∧
  GivesExt .lea .lea (fun _ => .reg) (fun r s a l =>
    { val := wrapTo 64 ((s.srcA a r 0 l : Int) +
        (if bitAt r.x.imm.toNat 3 then 0 else valTy (rty r 7) (s.srcB a r 0 l)) * (2 ^ bits r.x.imm.toNat 2 0 : Nat) + s.leaOff a r l) })

/-- IADD, ISUB, IADD64 (R203): element by element, saturated under FLAGS[0]. -/
def Obligations.AddSubtractResults : Prop :=
  GivesBoth .iadd .iaddExt .iadd (fun _ => .reg) (fun r s a l => { val := addSub (rty r 7) false (flag0 r) (s.srcA a r 0 l) (s.srcB a r 0 l) }) ∧
  GivesBoth .isub .isubExt .isub (fun _ => .reg) (fun r s a l => { val := addSub (rty r 7) true (flag0 r) (s.srcA a r 0 l) (s.srcB a r 0 l) }) ∧
  GivesBoth .iadd64 .iadd64Ext .iadd64 (fun _ => .reg)
    (fun r s a l => { val := addSub (rty r 8) false (flag0 r) (s.srcA a r 0 l) (s.srcB a r 0 l) })

/-- IADDC and ISUBB (R203): the sum or difference with the carry or borrow in the predicate IMM11[2:0] (0 under IMM11[6]),
modulo 2^32, and the carry or borrow out in the predicate IMM11[5:3]. -/
def Obligations.CarryBorrowResults : Prop :=
  GivesBoth .iaddc .iaddcExt .iaddc (fun r => .regPred (bits r.x.imm.toNat 5 3)) (fun r s a l =>
    let c : Nat := if bitAt r.x.imm.toNat 6 then 0 else if s.pred a l (bits r.x.imm.toNat 2 0) then 1 else 0
    let v := s.srcA a r 0 l + s.srcB a r 0 l + c
    { val := v % 2 ^ 32, q := decide (2 ^ 32 ≤ v) }) ∧
  GivesBoth .isubb .isubbExt .isubb (fun r => .regPred (bits r.x.imm.toNat 5 3)) (fun r s a l =>
    let c : Nat := if bitAt r.x.imm.toNat 6 then 0 else if s.pred a l (bits r.x.imm.toNat 2 0) then 1 else 0
    { val := wrapTo 32 ((s.srcA a r 0 l : Int) - s.srcB a r 0 l - c), q := decide (s.srcA a r 0 l < s.srcB a r 0 l + c) })

/-- IMUL, IMULH, IMAD, IMAD64, IMIN, IMAX, IABS (R204, R205). -/
def Obligations.MultiplyMinMaxAbsResults : Prop :=
  GivesBoth .imul .imulExt .imul (fun _ => .reg) (fun r s a l => { val := imul (rty r 7) (s.srcA a r 0 l) (s.srcB a r 0 l) }) ∧
  GivesBoth .imulh .imulhExt .imulh (fun _ => .reg)
    (fun r s a l => { val := wrapTo 64 (valTy (rty r 7) (s.srcA a r 0 l) * valTy (rty r 7) (s.srcB a r 0 l)) / 2 ^ 32 }) ∧
  GivesExt .imad .imad (fun _ => .reg) (fun r s a l =>
    { val := wrapTo 32 (valTy (rty r 7) (s.srcA a r 0 l) * valTy (rty r 7) (s.srcB a r 0 l) + valTy (rty r 7) (s.srcC a r 0 l)) }) ∧
  GivesExt .imad64 .imad64 (fun _ => .reg) (fun r s a l =>
    { val := wrapTo 64 (valTy (rty r 7) (s.srcA a r 0 l) * valTy (rty r 7) (s.srcB a r 0 l) + (s.srcC a r 0 l : Int)) }) ∧
  GivesBoth .imin .iminExt .imin (fun _ => .reg) (fun r s a l => { val := iminmax (rty r 7) false (s.srcA a r 0 l) (s.srcB a r 0 l) }) ∧
  GivesBoth .imax .imaxExt .imax (fun _ => .reg) (fun r s a l => { val := iminmax (rty r 7) true (s.srcA a r 0 l) (s.srcB a r 0 l) }) ∧
  GivesBoth .iabs .iabsExt .iabs (fun _ => .reg) (fun r s a l => { val := iabs (rty r 7) (flag0 r) (s.srcA a r 0 l) })

/-- AND, OR, XOR, ANDN (R206), bit by bit over 32 or 64 bits; a short immediate is sign-extended first. -/
def Obligations.BitwiseLogicResults : Prop :=
  GivesBoth .and .andExt .and (fun _ => .reg) (fun r s a l => { val := s.srcA a r 0 l &&& s.srcB a r 0 l }) ∧
  GivesBoth .or .orExt .or (fun _ => .reg) (fun r s a l => { val := s.srcA a r 0 l ||| s.srcB a r 0 l }) ∧
  GivesBoth .xor .xorExt .xor (fun _ => .reg) (fun r s a l => { val := s.srcA a r 0 l ^^^ s.srcB a r 0 l }) ∧
  GivesBoth .andn .andnExt .andn (fun _ => .reg)
    (fun r s a l => { val := s.srcA a r 0 l &&& (s.srcB a r 0 l ^^^ (2 ^ tyBits (rty r 3) - 1)) }) ∧
  ∀ op x, op ∈ [Op.and, .or, .xor, .andn] → x.form = .x01 → x.ty = 0 ∨ x.ty = 3 ∨ x.ty = 4 → ∀ (s : State) a l,
    tyBits (rty (.ext op x) 3) = (if x.ty = 4 then 64 else 32) ∧
    (x.selA.cls = .lit → s.srcA a (.ext op x) 0 l = wrapTo (tyBits (rty (.ext op x) 3)) (sintOf 7 x.a.toNat)) ∧
    (x.selB.cls = .lit → s.srcB a (.ext op x) 0 l = wrapTo (tyBits (rty (.ext op x) 3)) (sintOf 7 x.b.toNat)) ∧
    (op.enc.1 = 0x26 + [Op.and, .or, .xor, .andn].idxOf op)

/-- SHL, SHR, SAR, SHF, ROT (R207, R208). -/
def Obligations.ShiftRotateResults : Prop :=
  GivesBoth .shl .shlExt .shl (fun _ => .reg) (fun r s a l => { val := shift .shl (rty r 3) (s.srcA a r 0 l) (s.srcB a r 0 l) }) ∧
  GivesBoth .shr .shrExt .shr (fun _ => .reg) (fun r s a l => { val := shift .shr (rty r 3) (s.srcA a r 0 l) (s.srcB a r 0 l) }) ∧
  GivesBoth .sar .sarExt .sar (fun _ => .reg) (fun r s a l => { val := shift .sar (rty r 7) (s.srcA a r 0 l) (s.srcB a r 0 l) }) ∧
  GivesExt .shf .shf (fun _ => .reg) (fun r s a l => { val := funnel (flag0 r) (s.srcA a r 0 l) (s.srcB a r 0 l) (s.srcC a r 0 l) }) ∧
  GivesBoth .rot .rotExt .rot (fun _ => .reg)
    (fun r s a l => { val := rotate (flag0 r) (tyBits (rty r 3)) (s.srcA a r 0 l) (s.srcB a r 0 l) })

/-- BFX, BFI, POPC, CLZ, BREV, PERM (R209 to R211). -/
def Obligations.BitFieldResults : Prop :=
  GivesBoth .bfx .bfxExt .bfx (fun _ => .reg) (fun r s a l => { val := bfx (rty r 11) (s.srcA a r 0 l) (s.srcB a r 0 l) }) ∧
  GivesExt .bfi .bfi (fun _ => .reg) (fun r s a l => { val := bfi (tyBits (rty r 3)) (s.srcA a r 0 l) (s.srcB a r 0 l) (s.srcC a r 0 l) }) ∧
  GivesBoth .popc .popcExt .popc (fun _ => .reg)
    (fun r s a l => { val := ((List.range (tyBits (rty r 3))).filter (bitAt (s.srcA a r 0 l))).length }) ∧
  GivesBoth .clz .clzExt .clz (fun _ => .reg) (fun r s a l => { val := clz (tyBits (rty r 3)) (s.srcA a r 0 l) }) ∧
  GivesBoth .brev .brevExt .brev (fun _ => .reg) (fun r s a l => { val := brev (tyBits (rty r 3)) (s.srcA a r 0 l) }) ∧
  GivesExt .perm .perm (fun _ => .reg) (fun r s a l => { val := perm (s.srcA a r 0 l) (s.srcB a r 0 l) (s.srcC a r 0 l) })

/-- The comparisons (R212, R243): the predicate D[2:0] gets the condition D[6:3] combined with a predicate. -/
def Obligations.ComparisonPredicates : Prop :=
  GivesBoth .icmp .icmpExt .icmp (fun _ => .pred) (fun r s a l =>
    { q := s.combined a r.x l (icmpCond (r.x.d.toNat / 8) (rty r 7) (s.srcA a r 0 l) (s.srcB a r 0 l)) }) ∧
  GivesBoth .fcmp .fcmpExt .fcmp (fun _ => .pred) (fun r s a l =>
    let t := rty r 14
    let v := floatCompare (r.x.d.toNat / 8) ((fmtTy t).decode (s.srcA a r t l)) ((fmtTy t).decode (s.srcB a r t l))
    { q := s.combined a r.x l v.1, fl := v.2 }) ∧
  GivesBoth .dcmp .dcmpExt .dcmp (fun _ => .pred) (fun r s a l =>
    let t := rty r 13
    let v := floatCompare (r.x.d.toNat / 8) ((fmtTy t).decode (s.srcA a r t l)) ((fmtTy t).decode (s.srcB a r t l))
    { q := s.combined a r.x l v.1, fl := v.2 })

/-- PLOP (R192): in each acting lane, q[D] takes the bit of FN = D[6:3] that the two predicates select, 2 × q[A] + q[B]; a
write to q7 is discarded (SliceGot gives each of q0 to q6, and no other predicate changes), and q7 reads 1. A or B above 7
raises ILLEGAL. -/
def Obligations.PlopPredicates : Prop :=
  GivesBoth .plop .plopExt .plop (fun _ => .pred) (fun r s a l =>
    { q := (r.x.d.toNat / 8).testBit ((if s.pred a l r.x.a.toNat then 2 else 0) + if s.pred a l r.x.b.toNat then 1 else 0) }) ∧
  (∀ r, ODst.pred.pred? r = some (r.x.d.toNat % 8)) ∧ (∀ (s : State) a l, s.pred a l 7 = true) ∧
  (∀ (s : State) b, s.curOk = true → 8 ≤ b.a.toNat ∨ 8 ≤ b.b.toNat → exec (.plop b) s = .next (s.trapAll b.ext kIllegal 0 0)) ∧
  ∀ (s : State) x, s.curOk = true → 8 ≤ x.a.toNat ∨ 8 ≤ x.b.toNat → exec (.plopExt x) s = .next (s.trapAll x kIllegal 0 0)

/-- FADD, FSUB, FMUL, FFMA and DADD, DMUL, DFMA (R239, R240, R250): the arithmetic of the contract and rounding mode in
force, with one draw under SR, and its sticky flags. -/
def Obligations.FloatArithmeticResults : Prop :=
  let two (base : Nat) (op : ArithOp) (r : Raw) : State → Issuer → Nat → Out := fun s a l =>
    let t := rty r base
    floatLane r 1 (fun c m d => encOut (fmtTy t) (floatArith c (fmtTy t) op (s.srcA a r t l) (s.srcB a r t l) 0 m (d 0))) s a l
  let three (base : Nat) (r : Raw) : State → Issuer → Nat → Out := fun s a l =>
    let t := rty r base
    floatLane r 1 (fun c m d => encOut (fmtTy t) (floatArith c (fmtTy t) .fma (s.srcA a r t l) (s.srcB a r t l) (s.srcC a r t l) m (d 0))) s a l
  GivesBoth .fadd .faddExt .fadd (fun _ => .reg) (two 14 .add) ∧ GivesBoth .fsub .fsubExt .fsub (fun _ => .reg) (two 14 .sub) ∧
  GivesBoth .fmul .fmulExt .fmul (fun _ => .reg) (two 14 .mul) ∧ GivesExt .ffma .ffma (fun _ => .reg) (three 14) ∧
  GivesBoth .dadd .daddExt .dadd (fun _ => .reg) (two 13 .add) ∧ GivesBoth .dmul .dmulExt .dmul (fun _ => .reg) (two 13 .mul) ∧
  GivesExt .dfma .dfma (fun _ => .reg) (three 13)

/-- HADD2, HMUL2, HFMA2, HMIN2, HMAX2, FMIN, FMAX (R242, R251): the two elements apart, with draws 0 and 1 under SR. -/
def Obligations.PackedFloatMinMaxResults : Prop :=
  let pair (n : Nat) (r : Raw) (g : Contract → RMode → Nat → Nat → Nat → Nat → Nat → Machine.Num × Flags) : State → Issuer → Nat → Out := fun s a l =>
    let t := rty r 17
    let e (c : Contract) (m : RMode) (d : Nat → Nat) (i : Nat) : Nat × Flags :=
      encOut (fmtTy t) (g c m t (elemOf 16 (s.srcA a r t l) i) (elemOf 16 (s.srcB a r t l) i) (elemOf 16 (s.srcC a r t l) i) (d i))
    floatLane r n (fun c m d => ((e c m d 0).1 + (e c m d 1).1 * 2 ^ 16, (e c m d 0).2 ||| (e c m d 1).2)) s a l
  let mm (isMax : Bool) (r : Raw) : State → Issuer → Nat → Out :=
    pair 0 r (fun c _ t x y _ _ => floatMinMax c (fmtTy t) isMax ((fmtTy t).decode x) ((fmtTy t).decode y))
  let one (isMax : Bool) (r : Raw) : State → Issuer → Nat → Out := fun s a l =>
    floatLane r 0 (fun c _ _ => encOut fp32 (floatMinMax c fp32 isMax (fp32.decode (s.srcA a r 14 l)) (fp32.decode (s.srcB a r 14 l)))) s a l
  GivesBoth .hadd2 .hadd2Ext .hadd2 (fun _ => .reg) (fun r => pair 2 r (fun c m t x y _ d => floatArith c (fmtTy t) .add x y 0 m d)) ∧
  GivesBoth .hmul2 .hmul2Ext .hmul2 (fun _ => .reg) (fun r => pair 2 r (fun c m t x y _ d => floatArith c (fmtTy t) .mul x y 0 m d)) ∧
  GivesExt .hfma2 .hfma2 (fun _ => .reg) (fun r => pair 2 r (fun c m t x y z d => floatArith c (fmtTy t) .fma x y z m d)) ∧
  GivesBoth .hmin2 .hmin2Ext .hmin2 (fun _ => .reg) (mm false) ∧ GivesBoth .hmax2 .hmax2Ext .hmax2 (fun _ => .reg) (mm true) ∧
  GivesBoth .fmin .fminExt .fmin (fun _ => .reg) (one false) ∧ GivesBoth .fmax .fmaxExt .fmax (fun _ => .reg) (one true)

/-- FSCALE, FDIV, FSQRT and the function-table instructions (R241, R246 to R249). -/
def Obligations.FloatFunctionResults : Prop :=
  let table (g : FtFn) (r : Raw) : State → Issuer → Nat → Out := fun s a l =>
    floatLane r 0 (fun c _ _ => encOut fp32 (floatTable c g (s.srcA a r 14 l))) s a l
  GivesBoth .fscale .fscaleExt .fscale (fun _ => .reg)
    (fun r s a l => floatLane r 1 (fun c m d => encOut fp32 (floatScale c (s.srcA a r 14 l) (s.srcB a r 0 l) m (d 0))) s a l) ∧
  GivesBoth .fdiv .fdivExt .fdiv (fun _ => .reg) (fun r s a l =>
    let t := rty r 14
    floatLane r 1 (fun c m d => encOut (fmtTy t) (floatDiv c (fmtTy t) (s.srcA a r t l) (s.srcB a r t l) m (d 0))) s a l) ∧
  GivesBoth .fsqrt .fsqrtExt .fsqrt (fun _ => .reg) (fun r s a l =>
    let t := rty r 14
    floatLane r 1 (fun c m d => encOut (fmtTy t) (floatSqrt c (fmtTy t) (s.srcA a r t l) m (d 0))) s a l) ∧
  GivesBoth .frcp .frcpExt .frcp (fun _ => .reg) (table .rcp) ∧ GivesBoth .frsq .frsqExt .frsq (fun _ => .reg) (table .rsq) ∧
  GivesBoth .fexp2 .fexp2Ext .fexp2 (fun _ => .reg) (table .exp2) ∧ GivesBoth .flog2 .flog2Ext .flog2 (fun _ => .reg) (table .log2) ∧
  GivesBoth .fsin .fsinExt .fsin (fun _ => .reg) (table .sin) ∧ GivesBoth .fcos .fcosExt .fcos (fun _ => .reg) (table .cos)

/-- FDOT, CVT, CVTPK, DQBLK and VQDEC (R252, R257, R258, R260, R261). A result narrower than 32 bits goes into one field of
the destination and leaves the rest. -/
def Obligations.ConversionResults : Prop :=
  GivesExt .fdot .fdot (fun _ => .reg) (fun r s a l =>
    let t := rty r 17
    floatLane r 1 (fun c m d => encOut fp32 (contractSum c (fp32.decode (s.srcC a r 14 l))
      (dotTerms (fmtTy t) (dotN t) (s.srcA a r t l) (s.srcB a r t l)) [] false (.fmt fp32) m (d 0))) s a l) ∧
  GivesExt .cvt .cvt (fun _ => .reg) (fun r s a l =>
    let t := rty r 14
    let i := r.x.imm.toNat
    let o := floatLane r 1 (fun c m d => cvtValue c t (bits i 4 0) (bitAt i 8) (s.srcA a r (bits i 4 0) l) m (d 0)) s a l
    if tyBits t < 32 then { o with val := setBits (s.oldD a r l) (tyBits t * bits i 7 5 + tyBits t - 1) (tyBits t * bits i 7 5) o.val } else o) ∧
  GivesBoth .cvtpk .cvtpkExt .cvtpk (fun _ => .reg) (fun r s a l =>
    let t := rty r 17
    let w := tyBits t
    let p := bits r.x.imm.toNat 2 0
    let sat := bitAt r.x.imm.toNat 3
    floatLane r 2 (fun c m d =>
      let x := cvtValue c t 14 sat (s.srcA a r 14 l) m (d 0)
      let y := cvtValue c t 14 sat (s.srcB a r 14 l) m (d 1)
      (putElem w (2 * p + 1) (putElem w (2 * p) (s.oldD a r l) x.1) y.1, x.2 ||| y.2)) s a l) ∧
  GivesExt .dqblk .dqblk (fun _ => .reg) (fun r s a l =>
    match matFmt r.x.ty.toNat with
    | some f => match f.block with
      | some (_, sf) => floatLane r 1 (fun c m d =>
        let v := s.srcA a r 0 l
        let x := decodeScaled c f.elem (f.elem.decode (v % 2 ^ f.w)) (sf.decode (v / 2 ^ 16))
        let o := fOut c fp32 (.num x.1) [x.1] x.2.1 m (d 0)
        (fp32.encode o.1, x.2.2 ||| o.2)) s a l
      | none => {}
    | none => {}) ∧
  GivesBoth .vqdec .vqdecExt .vqdec (fun _ => .reg) (fun r s a l =>
    let t := rty r 17
    let sel := r.x.imm.toNat
    let i := s.srcA a r 0 l
    let one (j : Nat) (c : Contract) (m : RMode) (n : Nat) : Nat × Flags :=
      vqdecOne c (fmtTy t) (s.codebookRow a (i % 256)) i j (fp16.decode (s.srcB a r 17 l)) m n
    if t = 14 then floatLane r 1 (fun c m d => one (sel % 8) c m (d 0)) s a l
    else floatLane r 2 (fun c m d => pack2 (one (2 * (sel % 4)) c m (d 0)) (one (2 * (sel % 4) + 1) c m (d 1))) s a l)

/-- QBLK (R259): a lane's element and the block's scale, from the values of the lanes of its block that take part. -/
def Obligations.QblkBlockResults : Prop :=
  GivesExt .qblk .qblk (fun _ => .reg) (fun r s a l =>
    match matFmt r.x.ty.toNat with
    | some f => match f.block with
      | some (_, sf) => floatLane r 1 (fun c m d => qblkLane c r.x.ty.toNat f sf (s.srcA a r 14 l)
          ((s.segment r a (blockWidth f) (posOf a l)).map (s.posA r 14 a)) m (d 0)) s a l
      | none => {}
    | none => {})

/-- XSHF, XBCAST, XVOTE and XMATCH (R265, R266, R270, R271), over the participating lanes of the home gang; XRED, XSCAN and
XDOT (R267 to R269): one combination per segment for XRED and XDOT, with the one draw of the lowest participating lane; a
prefix combination per lane for XSCAN. -/
def Obligations.CrossLaneResults : Prop :=
  GivesBoth .xshf .xshfExt .xshf (fun _ => .reg) (fun r s a l =>
    { val := s.posA r 0 a (xshfPos (r.x.scope.toNat % 4) (32 / 2 ^ r.x.imm.toNat) (posOf a l) (s.srcB a r 0 l)) }) ∧
  GivesBoth .xbcast .xbcastExt .xbcast (fun _ => .reg) (fun r s a _ =>
    match s.segment r a 32 0 with
    | [] => {}
    | p :: _ => { val := s.posA r 0 a (if flag0 r then p else s.srcB (atPos a p) r 0 (p % 4) % 32) }) ∧
  GivesBoth .xvote .xvoteExt .xvote (fun r => if r.x.scope.toNat % 4 = 3 then .reg else .pred) (fun r s a _ =>
    let ps := s.segment r a 32 0
    let v (p : Nat) : Bool := s.pred (atPos a p) (p % 4) (r.x.a.toNat % 8) != bitAt r.x.scope.toNat 2
    match r.x.scope.toNat % 4 with
    | 0 => { q := ps.all v }
    | 1 => { q := ps.any v }
    | 2 => { q := ps.all v || ps.all (fun p => !v p) }
    | _ => { val := ((ps.filter v).map (2 ^ ·)).sum }) ∧
  GivesBoth .xmatch .xmatchExt .xmatch (fun _ => .reg) (fun r s a l =>
    { val := (((s.segment r a 32 0).filter (fun p => s.posA r 0 a p == s.srcA a r 0 l)).map (2 ^ ·)).sum }) ∧
  GivesBoth .xred .xredExt .xred (fun _ => .reg) (fun r s a l =>
    segmentLane r (32 / 2 ^ bits r.x.imm.toNat 2 0) (r.x.scope.toNat == 8)
      (fun c m d ps => reduce c r.x.scope.toNat (rty r 7) (ps.map (s.posA r (rty r 7) a)) m d) s a l) ∧
  GivesBoth .xscan .xscanExt .xscan (fun _ => .reg) (fun r s a l =>
    let op := r.x.scope.toNat
    let ps := (s.segment r a (32 / 2 ^ bits r.x.imm.toNat 2 0) (posOf a l)).filter
      (fun q => if bitAt r.x.imm.toNat 3 then decide (q < posOf a l) else decide (q ≤ posOf a l))
    floatLane r (if op = 8 then 1 else 0) (fun c m d =>
      if ps.isEmpty ∧ op = 8 then (0, 0) else reduce c op (rty r 7) (ps.map (s.posA r (rty r 7) a)) m (d 0)) s a l) ∧
  GivesExt .xdot .xdot (fun _ => .reg) (fun r s a l =>
    let t := rty r 17
    segmentLane r (32 / 2 ^ r.x.imm.toNat) true (fun c m d ps =>
      let init := match ps with | p :: _ => s.srcC (atPos a p) r 14 (p % 4) | [] => 0
      encOut fp32 (contractSum c (fp32.decode init)
        (ps.flatMap (fun p => dotTerms (fmtTy t) (dotN t) (s.srcA (atPos a p) r t (p % 4)) (s.srcB (atPos a p) r t (p % 4)))) [] false (.fmt fp32) m d)) s a l)

/-- FCLASS without .rdfl (R244), and SMOV (R193, R194). -/
def Obligations.ClassAndSpecialReads : Prop :=
  (∀ b, Gives (.fclass b) (.base .fclass b) .reg (fun s a l =>
    let t := rty (.base .fclass b) 14
    { val := floatClass (fmtTy t) ((fmtTy t).decode (s.srcA a (.base .fclass b) t l)) })) ∧
  (∀ x, flag0 (.ext .fclass x) = false → Gives (.fclassExt x) (.ext .fclass x) .reg (fun s a l =>
    let t := rty (.ext .fclass x) 14
    { val := floatClass (fmtTy t) ((fmtTy t).decode (s.srcA a (.ext .fclass x) t l)) })) ∧
  GivesBoth .smov .smovExt .smov (fun _ => .reg) (fun r s a l => { val := s.smovValue r a l })

/-! ## Control flow -/

/-- NOP (R189) changes nothing but the PC: no operation in flight and no waiting LAUNCH loses a name either, and the agent, which has
issued, waits no more. The all-zero word is NOP, so zero-filled code runs on. -/
def Obligations.NopMovesOnlyPc : Prop :=
  Both .nop .nopExt .nop (fun i r => ∀ s, Issues r s = true → s.agents.Nodup → ∃ t, exec i s = .next t ∧ t.mops = s.mops ∧ t.subs = s.subs ∧
    Leaves (fun _ _ _ => False) s t (fun _ _ x y => y = x.stepped r.len.bytes) (fun _ x y => y = x.stepped r.len.bytes)) ∧
  ∀ ws, decodeWords (0 :: ws) = .ok (.nop { d := 0, a := 0, b := 0, la := false, lb := false })

/-- YIELD (R190): the PC past it; a YIELD in which a lane acts makes the agent not ready for 64 cycles: its yieldEnd is 65 cycles on, the
cycle of the issue and 64 more as the model lets cycles pass (log 32), and an agent before its yieldEnd is ready for no instruction. -/
def Obligations.YieldWaits64Cycles : Prop :=
  DoesBoth .yield .yieldExt .yield (fun _ _ => True)
    (fun r s u i x y => y = { x.stepped r.len.bytes with
      yieldEnd := if s.acts (.slice u i) r.x = 0 then x.yieldEnd else s.cyc (s.coreOf (.slice u i)).die + 65 })
    (fun r s k x y => y = { x.stepped r.len.bytes with
      yieldEnd := if s.acts (.ctx k) r.x = 0 then x.yieldEnd else s.cyc (s.coreOf (.ctx k)).die + 65 }) ∧
  (∀ (s : State) u i tm x r, s.team u = some tm → s.slice u i = some x → s.cyc tm.core.die < x.yieldEnd → s.sliceReady u i r = false) ∧
  ∀ (s : State) k r, s.cyc (ctxCore k).die < (s.ctx k).yieldEnd → s.ctxReady k r = false

/-- BRA and CALL (R183, R185): to the literal, or to the PC plus 4 times the signed offset, modulo 2^57; the join point of
BRA is the target or PC + 4 × IMM11; CALL writes the return address. -/
def Obligations.BranchAndCallTargets : Prop :=
  let tgt (r : Raw) (w : Nat) (off : Nat) (s : State) (a : Issuer) : Nat :=
    if r.len = .l10 ∨ r.len = .l11 then r.x.lit.toNat else wrapTo 57 ((s.pcOf a : Int) + 4 * sintOf w off)
  BranchesBoth .bra .braExt .bra .none (fun _ => none) (fun _ _ => True) (fun r s a => s.acts a r.x)
    (fun r => tgt r 21 (r.x.d.toNat * 2 ^ 14 + r.x.a.toNat * 2 ^ 7 + r.x.b.toNat))
    (fun r s a => if r.len = .l00 ∨ r.len = .l10 ∨ r.x.imm = 0 then tgt r 21 (r.x.d.toNat * 2 ^ 14 + r.x.a.toNat * 2 ^ 7 + r.x.b.toNat) s a
      else wrapTo 57 ((s.pcOf a : Int) + 4 * sintOf 11 r.x.imm.toNat))
    (fun _ _ _ => 0) ∧
  BranchesBoth .call .callExt .call .reg (fun _ => none) (fun _ _ => True) (fun r s a => s.acts a r.x)
    (fun r => tgt r 14 (r.x.a.toNat * 2 ^ 7 + r.x.b.toNat)) (fun r s a => s.pcOf a + r.len.bytes) (fun r s a => s.pcOf a + r.len.bytes)

/-- BRX, CALLX and RET (R184 to R186): the acting lanes that agree with the lowest acting lane branch; CALLX says in q[B]
which; RET asks that all agree. -/
def Obligations.IndirectBranchTargets : Prop :=
  BranchesBoth .brx .brxExt .brx .none (fun _ => none) (fun _ _ => True) withLeader leadersTarget
    (fun r s a => wrapTo 57 ((s.pcOf a : Int) + 4 * sintOf 14 (r.x.d.toNat * 2 ^ 7 + r.x.b.toNat))) (fun _ _ _ => 0) ∧
  BranchesBoth .callx .callxExt .callx .reg (fun r => some r.x.b.toNat) (fun _ _ => True) withLeader leadersTarget
    (fun r s a => s.pcOf a + r.len.bytes) (fun r s a => s.pcOf a + r.len.bytes) ∧
  BranchesBoth .ret .retExt .ret .none (fun _ => none) (fun r s => ∀ a ∈ s.agents, withLeader r s a = s.acts a r.x) withLeader leadersTarget
    leadersTarget (fun _ _ _ => 0)

/-- ENTER and LEAVE (R191): the identifier goes on the region stack, or the innermost region off it; a breakpoint or a step
(R464) may make BKPT pending, at depth 0 when BKPT is not masked. -/
def Obligations.RegionStackChanges : Prop :=
  DoesBoth .enter .enterExt .enter
    (fun r s => regionId r.x ≠ 0 ∧ ∀ a ∈ s.agents, (s.regionOf a).length < 16)
    (fun r s u _ x y => ∃ ps, (x.depth ≠ 0 ∨ s.masks u kBkpt → ps = []) ∧
      y = { x.stepped r.len.bytes with region := BitVec.ofNat 16 (regionId r.x) :: x.region, pend := x.pend ++ ps })
    (fun r _ _ x y => y = { x.stepped r.len.bytes with region := BitVec.ofNat 16 (regionId r.x) :: x.region }) ∧
  DoesBoth .leave .leaveExt .leave
    (fun r s => ∀ a ∈ s.agents, ∃ g, (s.regionOf a).head? = some g ∧ (regionId r.x = 0 ∨ g.toNat = regionId r.x))
    (fun r s u _ x y => ∃ ps, (x.depth ≠ 0 ∨ s.masks u kBkpt → ps = []) ∧
      y = { x.stepped r.len.bytes with region := x.region.tail, pend := x.pend ++ ps })
    (fun r _ _ x y => y = { x.stepped r.len.bytes with region := x.region.tail })

/-- FCLASS.rdfl and SRSEED (R245, R263): the sticky flags of each acting lane, cleared with .clr; the seed of each acting lane
from B, and its count of draws 0. KMOV and SSET (R195, R202) on a slice: the k register, or pair, of its home gang takes B of
the highest acting lane, against the LDKs of that gang issued in earlier cycles (R163); TRAPBASE or TRAPMASK of the team takes the writable bits of A of that lane. With no acting lane only
the PC moves. -/
def Obligations.FlagSeedAndRegisterWrites : Prop :=
  (∀ x, bitAt x.scope.toNat 0 = true → Does (.fclassRdfl x) (.ext .fclass x) (fun s => ∀ a ∈ s.agents, s.room a (.ext .fclass x) = true)
    (fun s u i y z => ∃ w, SliceGot (.ext .fclass x) (s.acts (.slice u i) x) .reg (fun l => { val := (y.fstk.get l).toNat }) y w ∧
      z = { w with fstk := if bitAt x.scope.toNat 1 then y.fstk.upd (s.acts (.slice u i) x) (fun _ => 0) else y.fstk })
    (fun s k y z => CtxGot (.ext .fclass x) (s.acts (.ctx k) x) .reg (fun _ => {}) y z)) ∧
  DoesBoth .srseed .srseedExt .srseed (fun r s => ∀ a ∈ s.agents, s.room a r = true)
    (fun r s u i x y => ∃ z, SliceGot r (s.acts (.slice u i) r.x) .none (fun _ => {}) x z ∧
      y = { z with seed := x.seed.upd (s.acts (.slice u i) r.x) (fun l => BitVec.ofNat 64 (s.srcB (.slice u i) r 0 l))
                   srcnt := x.srcnt.upd (s.acts (.slice u i) r.x) (fun _ => 0) })
    (fun r s k x y => CtxGot r (s.acts (.ctx k) r.x) .none (fun _ => {}) x y) ∧
  Both .kmov .kmovExt .kmov (fun i r => ∀ s u j x tm, Alone r s u j x → s.team u = some tm → s.room (.slice u j) r = true →
    let a := Issuer.slice u j
    let wrote := (maskList (s.acts a r.x)).flatMap (fun _ => if rty r 3 = 4 then [(r.x.d.toNat, 0), (r.x.d.toNat + 1, 0)] else [(r.x.d.toNat, 0)])
    ∃ K, (∀ n, mget K n = match (maskList (s.acts a r.x)).getLast? with
        | some l =>
          if n = kKey j r.x.d.toNat then some (BitVec.ofNat 32 (s.srcB a r 0 l))
          else if rty r 3 = 4 ∧ n = kKey j (r.x.d.toNat + 1) then some (BitVec.ofNat 32 (s.srcB a r 0 l / 2 ^ 32))
          else mget tm.kfile n
        | none => mget tm.kfile n) ∧
      Ends i s (({ s with mops := s.mops.map (fun (p : Nat × MemOp) => if p.2.ldkOf u j && p.2.since != s.cyc tm.core.die then (p.1, { p.2 with skip := p.2.skip ++ wrote }) else p) } : State).modTeam u
        (fun t => { t with kfile := K })) u j (SliceGot r (s.acts a r.x) .none (fun _ => {}) x)) ∧
  Both .sset .ssetExt .sset (fun i r => ∀ s u j x, Alone r s u j x → s.room (.slice u j) r = true →
    let a := Issuer.slice u j
    Ends i s (match (maskList (s.acts a r.x)).getLast? with
        | some l => s.modTeam u (fun t =>
            if r.x.d = 0x20 then { t with trapBase := BitVec.ofNat 64 (bits (s.srcA a r 0 l) 56 12 * 4096) }
            else { t with trapMask := BitVec.ofNat 32 (s.srcA a r 0 l) &&& 0xC6200#32 })
        | none => s) u j (SliceGot r (s.acts a r.x) .none (fun _ => {}) x))

/-- EXIT and KILL (R175, R188) on a slice: its acting lanes are live no more, EXIT once their earlier stores have translated;
a slice without live lanes ends. With no acting lane only the PC moves. -/
def Obligations.ExitKillEndLanes : Prop :=
  let ends (st : Bool) (i : Instr) (r : Raw) : Prop := ∀ s u j x, Alone r s u j x →
    let m := s.acts (.slice u j) r.x
    (st = true → s.storesOf (.slice u j) m s.nextId = false) →
    (m = 0 → Ends i s s u j (fun y => y = x.stepped r.len.bytes)) ∧
    (m ≠ 0 → ∃ t, exec i s = .next t ∧ (∀ y, t.slice u j = some y → y.live = x.live &&& ~~~m) ∧
      (x.act &&& ~~~m = 0 → x.rejoin = [] → t.slice u j = none) ∧ ∀ v k, v ≠ u ∨ k ≠ j → t.slice v k = s.slice v k)
  Both .exit .exitExt .exit (ends true) ∧ Both .kill .killExt .kill (ends false)

/-- SEQEND (R329) on a context with nothing in flight: it has ended with the exit code m0[15:0]. EXIT and KILL do the same. -/
def Obligations.SequencerProgramEnds : Prop :=
  let ends (i : Instr) (r : Raw) : Prop := ∀ s matrix c, OnCtx r s matrix c →
    let k := ctxKey c matrix
    s.acts (.ctx k) r.x ≠ 0 → s.ctxBusy k = false →
    ∃ t, exec i s = .next t ∧ (t.ctx k).run = .ended ∧ (t.ctx k).exit = ((mget (s.ctx k).regs 0).getD 0).toNat % 2 ^ 16 ∧
      (t.ctx k).pc = (s.ctx k).pc + r.len.bytes ∧ t.mem = s.mem ∧ ∀ q, q ≠ k → t.ctx q = s.ctx q
  Both .seqend .seqendExt .seqend ends ∧ Both .exit .exitExt .exit ends ∧ Both .kill .killExt .kill ends

/-! ## Traps -/

/-- Taking a trap (R437, R441): with a handler and room for a frame, TRAP and BKPT write the frame, the PC goes to TRAPBASE +
64 × kind, the slice has all its live lanes, no rejoin and region entries, and one more level; results still in flight are the frame's
too (R172). R451 makes the next instruction the return PC. BKPT is passed over when it is masked or in a handler (R465), and TRAP, BKPT, DRAINST, GKILL and
TRIGGER when no lane acts. -/
def Obligations.TrapEntrySavesFrame : Prop :=
  let enters (kind cause : Nat) (i : Instr) (r : Raw) : Prop := ∀ s u j x tm s1, Alone r s u j x → s.team u = some tm →
    let m := s.acts (.slice u j) r.x
    m ≠ 0 → s.awaits (.slice u j) = false → x.depth < 2 → tm.vbase ≠ 0 → tm.csa ≠ none →
    (kind = kBkpt → x.depth = 0 ∧ s.masks u kBkpt = false) →
    s.csaWrite u (frameOff (x.depth + 1) j) (wordsToBytes (trapRecord { kind := kind, cause := cause, amask := m, aux := r.x.a.toNat * 2 ^ 7 + r.x.b.toNat }
      (x.depth + 1) x.pc (x.pc + r.len.bytes) (s.cyc tm.core.die) false false x.live ++ x.frameBody)) = .done s1 →
    Ends i s (s1.frameResults u j (x.depth + 1)) u j (fun y => y.pc = bits tm.trapBase.toNat 56 12 * 4096 + 64 * kind ∧ y.depth = x.depth + 1 ∧ y.act = x.live ∧ y.rejoin = [] ∧
      y.region = [] ∧ y.names = x.names ∧ y.preds = x.preds ∧ y.fstk = x.fstk ∧ y.live = x.live)
  let skips (H : State → Nat → Nat → Slice → Mask → Prop) (i : Instr) (r : Raw) : Prop := ∀ s u j x, Alone r s u j x →
    H s u j x (s.acts (.slice u j) r.x) → Ends i s s u j (fun y => y = x.stepped r.len.bytes)
  Both .trap .trapExt .trap (enters kTrapi 0) ∧ Both .bkpt .bkptExt .bkpt (enters kBkpt 1) ∧
  Both .bkpt .bkptExt .bkpt (skips (fun s u _ x m => m = 0 ∨ x.depth ≠ 0 ∨ s.masks u kBkpt = true)) ∧
  Both .trap .trapExt .trap (skips (fun _ _ _ _ m => m = 0)) ∧ Both .gkill .gkillExt .gkill (skips (fun _ _ _ _ m => m = 0)) ∧
  Both .trigger .triggerExt .trigger (skips (fun _ _ _ _ m => m = 0)) ∧
  Both .drainst .drainstExt .drainst (skips (fun s u j x m => m = 0 ∨ (s.storesOf (.slice u j) 0xF s.nextId = false ∧ x.sfDue = false)))

/-- RETT (R452) in a handler whose frame can be read and is good, with no result still owed to it and room for its names under CEIL
(R167): the slice is reloaded from the frame. RETT.h from a HALT frame, once its release is complete, parks the slice. -/
def Obligations.RettReloadsFrame : Prop :=
  let frame (b : Base) (H : State → Nat → Nat → Slice → List Nat → State → Prop) : Prop := ∀ s u j x tm pa cache st, Alone (.base .rett b) s u j x →
    s.team u = some tm → s.storesOf (.slice u j) 0xF s.nextId = false →
    s.translate { asid := s.asidOf u, core := tm.core, priv := true } (tm.csa.getD 0 + frameOff x.depth j) accRead 0 = .ok pa cache st →
    let got := s.l1Reads tm.core cache (spans 1025 pa 1024)
    frameOk (bytesToWords got.1) = true → H s u j x (bytesToWords got.1) got.2
  frame (Base.withD 0) (fun s u j x ws s1 => s.frameOwes u j x.depth = false → s.owes u = false →
    x.heldAfter (List.range 8) ((List.range 8).filter (bitAt (ws.getD 13 0))) ≤ s1.ceilOf u →
    exec .rett s = .next (((s1.takeOver (.slice u j) (List.range 8) 0xF).modSlice u j (fun _ => x.reload ws)).normalize u j)) ∧
  frame (Base.withD 1) (fun s u j x ws s1 => bits (ws.getD 0 0) 63 56 = kHalt → (s1.release (.slice u j) 5).1 = true →
    Ends .rettH s (s1.release (.slice u j) 5).2 u j (fun y => y = { x with parked := true, wait := .none }))

/-- TRIGGER begins a release of the acting lanes (R488); GKILL ends every slice of the home gang (R454); RRCHK returns the
store hash of the team's accesses that have contributed (R477). -/
def Obligations.TriggerGkillRrchkEffects : Prop :=
  Both .trigger .triggerExt .trigger (fun i r => ∀ s u j x, Alone r s u j x →
    let m := s.acts (.slice u j) r.x
    m ≠ 0 → Ends i s (s.modTeam u (fun t => { t with marking := t.marking ++ [(j, m, s.nextId)] })) u j (fun y => y = x.stepped r.len.bytes)) ∧
  Both .gkill .gkillExt .gkill (fun i r => ∀ s u j x, Alone r s u j x → s.acts (.slice u j) r.x ≠ 0 →
    ∃ t, exec i s = .next t ∧ (∀ k, k / 8 = j / 8 → t.slice u k = none) ∧ ∀ v k, v ≠ u ∨ k / 8 ≠ j / 8 → t.slice v k = s.slice v k) ∧
  Both .rrchk .rrchkExt .rrchk (fun i r => ∀ s u j x tm s1, Alone r s u j x → s.team u = some tm → s.acts (.slice u j) r.x ≠ 0 →
    s.room (.slice u j) r = true → s.awaits (.slice u j) = false →
    let n := x.rrTok.getD s.nextId
    let h := (tm.late.filter (fun p => decide (n ≤ p.1))).foldl (fun h p => h - p.2) tm.sthash
    s.hashBusy u n = false → s.rrLog u j h = .pass s1 →
    Ends i s s1 u j (SliceGot r (s.acts (.slice u j) r.x) .reg (fun _ => { val := h.toNat }) x))

/-! ## Fences, barriers and memory -/

/-- FENCE (R374) on a gang of any number of slices and on a context: each agent in turn. With no acting lane only the PC moves; otherwise,
once the release its kind asks for is complete and the reads that an acquire waits for have returned, the acquire takes effect and the
agent goes on. A context acquires as its paired core does (R282, log 134). -/
def Obligations.FenceReleasesAcquires : Prop :=
  Both .fence .fenceExt .fence (fun i r =>
    let past (a : Issuer) (v v' w : State) : Prop :=
      Part (fun _ _ _ => False) (fun _ _ => v') (fun _ _ x y => y = x.stepped r.len.bytes) (fun _ x y => y = x.stepped r.len.bytes) a v w
    (∀ s, Issues r s = true → exec i s = .next (foldS (fun a v => if s.acts a r.x = 0 then v.advance a r.len.bytes else v.fenceOne r a) s.agents s)) ∧
    (∀ (v : State) a, past a v v (v.advance a r.len.bytes)) ∧
    ∀ (v v1 : State) a, let scope := scopeOf r.x.scope.toNat
      let rel := (bits r.x.d.toNat 1 0 ≠ 1 ∧ scope ≠ 1) ∨ bitAt r.x.d.toNat 2 = true
      let acq := bits r.x.d.toNat 1 0 ≠ 2 ∧ scope ≠ 1
      (rel → v.release a (if bits r.x.d.toNat 1 0 ≠ 1 ∧ scope ≠ 1 then scope else 2) = (true, v1)) → (¬rel → v1 = v) → (acq → v1.readsOut a = false) →
      let v2 := match a with | .slice u j => if bitAt r.x.d.toNat 2 then v1.publishSlice u j else v1 | .ctx _ => v1
      past a v (if acq then v2.acquire (v2.coreOf a) scope else v2) (v.fenceOne r a))

/-- Named barriers of a team (R373, R375 to R377), no release outstanding and no trace record asked for, and without a set
count the slice's acting lanes all its live lanes and none of them there yet: a BAR that does not complete the phase
arrives and waits for it; one that does goes on after the acquire, as does a waiting BAR whose phase is over. -/
def Obligations.BarWaitsForPhase : Prop :=
  Both .bar .barExt .bar (fun i r => ∀ s u j x tm k, Alone r s u j x → s.team u = some tm → s.taskOf u = some k → barScope r.x = 2 →
    r.x.b.toNat < k.nbar → bits (s.ge 0x22128) 47 44 = 0 →
    let a := Issuer.slice u j
    let m := s.acts a r.x
    let b := (mget tm.bars r.x.b.toNat).getD {}
    let b' := b.arrive j m tm.liveSet
    m ≠ 0 →
    (∀ tok, x.barTok = some tok → b.phase ≠ tok → Ends i s (s.acquire (s.coreOf a) 2) u j (fun y => y = x.stepped r.len.bytes)) ∧
    (x.barTok = none → (b.expect = 0 → m = x.live ∧ b.arrived &&& laneSet j m = 0) → ∀ s0, s.release a 2 = (true, s0) →
      let s1 := if bitAt r.x.imm.toNat 0 then s0.publishSlice u j else s0
      (b'.phase = b.phase → Ends i s (s1.modTeam u (fun t => { t with bars := mset t.bars r.x.b.toNat b' })) u j
        (fun y => y = { x with barTok := some b.phase, wait := .bar 2 r.x.b.toNat, waitMask := m })) ∧
      (b'.phase ≠ b.phase → Ends i s ((s1.modTeam u (fun t => { t with bars := mset t.bars r.x.b.toNat b' })).acquire (s.coreOf a) 2) u j
        (fun y => y = x.stepped r.len.bytes))))

/-- BARA returns the phase that its arrival is of; BARW goes on once the barrier's phase differs from B in every acting lane;
BARINIT sets the count of a barrier at which nobody has arrived (R375, R377, R382). -/
def Obligations.SplitBarrierAndCount : Prop :=
  let named (r : Raw) (s : State) (u j : Nat) (x : Slice) (tm : Team) (k : Task) : Prop :=
    Alone r s u j x ∧ s.team u = some tm ∧ s.taskOf u = some k ∧ barScope r.x = 2 ∧ r.x.b.toNat < k.nbar ∧ bits (s.ge 0x22128) 47 44 = 0 ∧
      s.acts (.slice u j) r.x ≠ 0
  Both .bara .baraExt .bara (fun i r => ∀ s u j x tm k s1, named r s u j x tm k → s.room (.slice u j) r = true →
    let a := Issuer.slice u j
    let m := s.acts a r.x
    let b := (mget tm.bars r.x.b.toNat).getD {}
    (b.expect = 0 → b.arrived &&& laneSet j m = 0) → s.release a 2 = (true, s1) →
    Ends i s ((if bitAt r.x.imm.toNat 0 then s1.publishSlice u j else s1).modTeam u (fun t => { t with bars := mset t.bars r.x.b.toNat (b.arrive j m tm.liveSet) })) u j
      (SliceGot r m .reg (fun _ => { val := b.phase.toNat }) x)) ∧
  Both .barw .barwExt .barw (fun i r => ∀ s u j x tm k, named r s u j x tm k → s.room (.slice u j) r = true →
    let a := Issuer.slice u j
    (∀ l ∈ maskList (s.acts a r.x), s.srcA a r 0 l % 2 ^ 32 ≠ ((mget tm.bars r.x.b.toNat).getD {}).phase.toNat) → s.readsOut a = false →
    Ends i s (s.acquire (s.coreOf a) 2) u j (SliceGot r (s.acts a r.x) .none (fun _ => {}) x)) ∧
  Both .barinit .barinitExt .barinit (fun i r => ∀ s u j x tm k l, named r s u j x tm k → s.room (.slice u j) r = true →
    let a := Issuer.slice u j
    let b := (mget tm.bars r.x.b.toNat).getD {}
    let n := s.srcA a r 0 l % 2 ^ 32
    (maskList (s.acts a r.x)).getLast? = some l → b.count = 0 → n ≤ k.lanes →
    Ends i s (s.modTeam u (fun t => { t with bars := mset t.bars r.x.b.toNat { b with expect := n } })) u j
      (SliceGot r (s.acts a r.x) .none (fun _ => {}) x))

/-- LD and LDK (R292 to R294) whose addresses pass their checks and translate, of a gang or a context with room for its names: each
agent's load is in flight with the places it reads, its destinations are mapped, and the PC moves; no byte of memory changes. The
lowest acting lane of each home gang gives LDK its address, and its k registers are taken from the LDKs of that gang before (R163). -/
def Obligations.LoadsEnterFlight : Prop :=
  Both .ld .ldExt .ld (fun i r => ∀ s rows, Ready r s → let t := rty r 3
    s.precise accRead (s.laneWants r (fun a l => s.laneEls a l (s.ea a r l) (tyBits t / 8) (vnCount r.x) (tyBits t / 8) {})) = .go rows [] →
    Completes i s (fun a v => v.withOp { s.opOf a r .ld t (vnCount r.x) (s.acts a r.x) ((rows.filter (fun p => p.1 == a)).map (·.2)) with byp := bitAt r.x.scope.toNat 0 })
      (fun u j => GoesOn s r u (s.acts (.slice u j) r.x)) (fun _ x y => y = x.stepped r.len.bytes)) ∧
  Both .ldk .ldkExt .ldk (fun i r => ∀ s rows, Ready r s → let t := rty r 3
    let arg := bitAt r.x.scope.toNat 0
    let size := tyBits t / 8
    let words := vnCount r.x * size / 4
    s.precise accRead ((s.ldkLanes r).map (fun p =>
      (p.1, if arg then s.argEls p.1 r p.2 size words else s.laneEls p.1 p.2 (s.ea p.1 r p.2) size (vnCount r.x) size { spill := false }))) = .go rows [] →
    Completes i s (fun a v =>
        if (s.ldkLanes r).any (fun p => p.1 == a) then
          let els := (rows.filter (fun p => p.1 == a)).map (·.2)
          let op := if arg then
              { s.opOf a r .ldk 3 1 (s.acts a r.x) els with
                got := ((List.range words).filter (fun e => !els.any (fun x => x.elem == e))).map (fun e => (lowest (s.acts a r.x), e, 0)) }
            else s.opOf a r .ldk t (vnCount r.x) (s.acts a r.x) els
          (match a with | .slice u j => v.takeOverK u j op.dests | .ctx _ => v).withOp op
        else v)
      (fun u j => GoesOn s r u (s.acts (.slice u j) r.x)) (fun _ x y => y = x.stepped r.len.bytes))

/-- ST (R292, R293) of a gang or a context whose addresses pass their checks. On a SIMT core, the window checks: each slice's store is in
flight with its data, one more store of the slice is counted, and the PC moves; no byte of memory changes before it translates. On a
context, which has performed what it issued before, the translation too: the bytes are stored at once, at the places translated. -/
def Obligations.StoresEnterFlight : Prop :=
  Both .st .stExt .st (fun i r => ∀ s rows, Ready r s → let t := rty r 3
    let size := tyBits t / 8
    let lanes := s.laneWants r (fun a l => match s.laneEls a l (s.ea a r l) size (vnCount r.x) size {} with
      | .ok es => .ok (es.map (fun e => { e with data := s.storeData a r size e.elem l }))
      | .error e => .error e)
    let els (a : Issuer) := (rows.filter (fun p => p.1 == a)).map (·.2)
    let seq (v : State) (a : Issuer) : Word := if s.acts a r.x = 0 then v.sseqOf a else v.sseqOf a + 1
    (s.engine = .g → wants lanes = .ok rows →
      Completes i s (fun a v => v.withOp { s.opOf a r .st t (vnCount r.x) (s.acts a r.x) (els a) with byp := bitAt r.x.scope.toNat 0, seq := seq v a })
        (fun u j x => GoesOn s r u (s.acts (.slice u j) r.x) { x with sseq := if s.acts (.slice u j) r.x = 0 then x.sseq else x.sseq + 1 }) (fun _ _ _ => False)) ∧
    (s.engine ≠ .g → s.precise accWrite lanes = .go rows [] → (∀ a ∈ s.agents, s.unperformed a s.nextId = false ∧ s.elsOpen a size (els a) = true) →
      Completes i s (fun a v => v.storeNow a size (els a)) (fun _ _ _ _ => False) (fun _ x y => y = x.stepped r.len.bytes)))

/-- ATOM and RED (R292, R295, R296) whose addresses pass their checks, of a gang or a context: each agent in turn. Outside replay, with room
for its names and once the release that ORD asks for is complete, an agent's operation is in flight with its data, its draws are counted
under SR, and the PC moves. -/
def Obligations.AtomicsEnterFlight : Prop :=
  let issues (kind : MemKind) (i : Instr) (r : Raw) : Prop :=
    let ty := rty r 11
    let size := tyBits ty / 8
    let ord := bits r.x.imm.toNat 5 4
    let opc := bits r.x.imm.toNat 3 0
    let lanes (s : State) := s.laneWants r (fun a l => match s.laneEls a l (s.atomEa a r l) size 1 size { priv := false, spill := false } with
      | .ok es => .ok (es.map (fun e => { e with data := s.srcB a r ty l, cmp := s.readV a (size == 8) r.x.d.toNat l, draw := s.atomDraw a l }))
      | .error e => .error e)
    (∀ s rows, Ready r s → (if kind = .red ∧ s.engine = .g then wants (lanes s) = .ok rows else s.precise accAtomic (lanes s) = .go rows []) →
      exec i s = .next (foldS (fun a v => s.atomIssue r kind a ((rows.filter (fun p => p.1 == a)).map (·.2)) v) s.agents s)) ∧
    ∀ (s v v1 : State) a els, let m := s.acts a r.x
      let draws := ty = 14 ∧ opc = 0 ∧ Contract.mode (s.contractOf a) r.x.rm.toNat = .sr
      a ∈ s.agents → (∀ u j, a = .slice u j → (v1.slice u j).isSome = true) → v.room a r = true → v1.room a r = true → v1.rrmodeOf a ≠ 2 → v1.gateOutOf a = false →
      (ord / 2 = 1 ∧ m ≠ 0 → v.release a (scopeOf r.x.scope.toNat) = (true, v1)) → (¬(ord / 2 = 1 ∧ m ≠ 0) → v1 = v) →
      let seq : Word := match a with | .slice _ _ => if kind = .red ∧ m ≠ 0 then v1.sseqOf a + 1 else v1.sseqOf a | .ctx _ => 0
      let v2 := match a with
        | .slice _ _ => v1
        | .ctx _ => if draws ∧ m ≠ 0 then v1.modTeam (v1.teamOf a) (fun t => { t with copyCnt := t.copyCnt + 1 }) else v1
      Part (writesRaw r s) (fun _ _ => v2.withOp
          { s.opOf a r kind ty 1 m els with opc := opc, order := ord, scope := scopeOf r.x.scope.toNat, seq := seq, vas := els.map (fun e => (e.lane, e.va)) })
        (fun u _ x => GoesOn v1 r u m { x with sseq := seq, srcnt := if draws then x.srcnt.upd m (fun l => x.srcnt.get l + 1) else x.srcnt })
        (fun _ x y => y = x.stepped r.len.bytes) a v (s.atomIssue r kind a els v)
  Both .atom .atomExt .atom (issues .atom) ∧ Both .red .redExt .red (issues .red)

/-- EXPHIST (R262) whose counters can be reached, and PREF, CFLUSH and CINV (R297) whose addresses are in their windows, of a gang or, but
for EXPHIST, a context, with room for its names. -/
def Obligations.ExphistAndCacheControl : Prop :=
  let cache (i : Instr) (r : Raw) : Prop := ∀ s rows, Ready r s → wants (s.laneWants r (fun a l => s.laneEls a l (s.ea a r l) 1 1 1 {})) = .ok rows →
    Completes i s (fun a v => foldS (fun e v => v.cacheLane r a e) ((rows.filter (fun p => p.1 == a)).map (·.2)) v)
      (fun u j => SliceGot r (s.acts (.slice u j) r.x) .none (fun _ => {})) (fun k => CtxGot r (s.acts (.ctx k) r.x) .none (fun _ => {}))
  Both .exphist .exphistExt .exphist (fun i r => ∀ s rows, Ready r s → s.precise accAtomic (s.laneWants r (fun a l => s.histEls a r l)) = .go rows [] →
    Completes i s (fun a v => v.withOp { s.opOf a r .hist 11 0 (s.acts a r.x) ((rows.filter (fun p => p.1 == a)).map (·.2)) with size := 4 })
      (fun u j => GoesOn s r u (s.acts (.slice u j) r.x)) (fun _ x y => y = x.stepped r.len.bytes)) ∧
  Both .pref .prefExt .pref cache ∧ Both .cflush .cflushExt .cflush cache ∧ Both .cinv .cinvExt .cinv cache

/-- ACP16, of a gang, and TCOPY and TDUMP (R301 to R304, R306), of a gang or a context, with every earlier access of each agent performed, descriptors
that pass their checks and room for the names and the copies: the copies are in flight, and the PC moves. -/
def Obligations.CopiesEnterFlight : Prop :=
  let copies (i : Instr) (r : Raw) : Prop := ∀ s cs, Ready r s →
    (∀ a ∈ s.agents, s.unperformed a s.nextId = false) →
    copyWants ((s.actingLanes r.x).map (fun p => (p.1, if r.op = .acp16 then s.acpLane p.1 r p.2 else s.tileLane p.1 r p.2))) = .ok cs →
    let mine (a : Issuer) := cs.filter (fun p => p.1 == a)
    (∀ a ∈ s.agents, if r.op = .acp16 then s.acpsOut a + (mine a).length ≤ 256 else s.tilesOut a + (mine a).length ≤ 64) →
    Completes i s (fun a v => foldS (fun (p : Issuer × List Copy × List (Option (Nat × Nat))) v =>
        foldS (fun w v => v.awUpdate w (fun x => x.faulted 0x50)) p.2.2 (foldS (fun c v => v.addCopy c) p.2.1 v)) (mine a)
      (match a with | .slice u j => if s.acts a r.x = 0 then v else (v.releaseL1 (s.coreOf a) 2).publishSlice u j | .ctx _ => v))
      (fun u j => SliceGot r (s.acts (.slice u j) r.x) .none (fun _ => {})) (fun k => CtxGot r (s.acts (.ctx k) r.x) .none (fun _ => {}))
  (∀ x, copies (.acp16 x) (.ext .acp16 x)) ∧ Both .tcopy .tcopyExt .tcopy copies ∧ Both .tdump .tdumpExt .tdump copies

/-- The arrival-word instructions (R300) whose words can be reached, of a gang or a context: each agent in turn. Of an agent with room for
its names whose words are not being written: AWINIT clears the word, AWEXP expects more bytes and returns GEN, AWAIT and AWTEST return
the status and whether GEN has moved on; AWAIT needs that. -/
def Obligations.ArrivalWordResults : Prop :=
  let aw (dst : ODst) (i : Instr) (r : Raw) : Prop :=
    (∀ s ps, Issues r s = true → s.awPlaces r (s.actingLanes r.x) = .ok ps → exec i s = .next (foldS (fun a v => v.awOne s r dst ps a) s.agents s)) ∧
    ∀ (s v : State) ps a, let mine := ps.filter (fun p => p.1 == a)
      a ∈ s.agents → s.room a r = true → v.room a r = true → mine.any s.awBusy = false →
      (r.op = .await → ∀ p ∈ mine, (v.awGet p.2.2.1 p.2.2.2).gen ≠ s.srcB a r 0 p.2.1 % 2 ^ 32) →
      let got := v.awLanes r s mine
      let waited := r.op = .await ∨ r.op = .awtest
      (waited → got.1.any (·.q) = true → s.readsOut a = false) →
      let out (l : Nat) : Out := match got.1.find? (fun x => x.lane == l) with | some x => { val := x.val, q := x.q } | none => {}
      Part (writesRaw r s) (fun _ _ => if waited then got.2.awAcquire mine got.1 else got.2) (fun _ _ => SliceGot r (s.acts a r.x) dst out)
        (fun _ => CtxGot r (s.acts a r.x) dst out) a v (v.awOne s r dst ps a)
  Both .awinit .awinitExt .awinit (aw .none) ∧ Both .awexp .awexpExt .awexp (aw .reg) ∧ Both .await .awaitExt .await (aw .reg) ∧
  Both .awtest .awtestExt .awtest (aw .pred)

/-- LAUNCH (R81 to R83), once its release is complete: a submission of each acting lane in ascending order, and the pair
mapped. NWAIT and NWAIT.t (R84): the status of each lane, once no lane of NWAIT names a task that has not ended. -/
def Obligations.LaunchSubmitsNwaitAnswers : Prop :=
  let nwait (i : Instr) (r : Raw) : Prop := ∀ s u j x, Alone r s u j x → s.room (.slice u j) r = true →
    let a := Issuer.slice u j
    let m := s.acts a r.x
    let st := s.nwStatus a r x.nwTok
    m ≠ 0 → (r.x.b = 0 → ∀ l ∈ maskList m, (st l).isSome = true) →
    (¬(∀ l ∈ maskList m, st l = none) → s.readsOut a = false) →
    Ends i s (if ∀ l ∈ maskList m, st l = none then s else s.acquire (s.coreOf a) 5) u j (SliceGot r m .reg (fun l => { val := (st l).getD 2 }) x)
  Both .launch .launchExt .launch (fun i r => ∀ s u j x tm s1, Alone r s u j x → s.team u = some tm → s.room (.slice u j) r = true →
    let a := Issuer.slice u j
    let m := s.acts a r.x
    m ≠ 0 → s.unperformed a s.nextId = false → s.release a 5 = (true, s1) →
    Ends i s { s1.publishSlice u j with subs := (s1.publishSlice u j).subs ++ (maskList m).map (fun l =>
        ({ src := .launch u j l tm.task r.x.d.toNat [] [], asid := s.asidOf u, addr := s.srcA a r 0 l } : Submission)) } u j
      (fun y => ∃ z, Mapped r m x z ∧ y = z.stepped r.len.bytes)) ∧
  Both .nwait .nwaitExt .nwait nwait ∧ ∀ b, nwait (.nwaitT b) (.base .nwait b)

/-! ## Splices, sequencers, meetings and the matrix group -/

/-- SPLICE (R400), once its release is complete, the lanes' descriptors pass their checks and no source is poisoned: each lane's splice
starts in ascending order. FORK (R328) of a context that is free: the context runs from PC + 4 × A with the k pairs, the seed and the
contract of the forking lane. RDV (R330), once the contexts it names that the team holds have ended: their exit codes, their
sticky flags, and the contexts are free again. -/
def Obligations.SpliceForkRdvEffects : Prop :=
  Both .splice .spliceExt .splice (fun i r => ∀ s u j x ps s1, Alone r s u j x → s.room (.slice u j) r = true →
    let a := Issuer.slice u j
    let m := s.acts a r.x
    m ≠ 0 → spliceWants ((maskList m).map (s.spliceLane a r)) = .ok ps → s.release a 2 = (true, s1) →
    (∀ l ∈ maskList m, s1.splicePoison a r l = false) →
    Ends i s (foldS (fun (p : Splice × Nat × List Nat) t => t.spliceStart r false p.1 p.2.1 p.2.2) ps (s1.publishSlice u j)) u j
      (SliceGot r m .none (fun _ => {}) x)) ∧
  (∀ x0, let r := Raw.ext .fork x0
    ∀ s u j x s1, Alone r s u j x → s.room (.slice u j) r = true →
    let a := Issuer.slice u j
    let m := s.acts a r.x
    let l := (maskList m).headD 0
    let k := ctxKey (s.coreOf a) (!flag0 r)
    m ≠ 0 → (s.ctx k).holder = none → s.forkBehind u j k = false → s.release a 2 = (true, s1) →
    ∃ c, c.holder = some u ∧ c.run = .running ∧ c.pc = wrapTo 57 ((x.pc : Int) + 4 * sintOf 32 (s1.srcA a r 0 l)) ∧
      c.contract = s1.special a l 0x0C ∧ c.seed = x.seed.get l ∧ (∀ n, n < 8 → mget c.regs n = some (BitVec.ofNat 64 (s1.readK a true (2 * n)))) ∧
      mget c.regs 8 = some (BitVec.ofNat 64 (s1.special a l 3)) ∧
      Ends (.fork x0) s ((s1.publishSlice u j).setCtx k c) u j (SliceGot r m .none (fun _ => {}) x)) ∧
  ∀ x0, let r := Raw.ext .rdv x0
    ∀ s u j x, Alone r s u j x → s.room (.slice u j) r = true →
    let a := Issuer.slice u j
    let m := s.acts a r.x
    let k (csq : Bool) := ctxKey (s.coreOf a) (!csq)
    let named (csq : Bool) : Bool := bitAt x0.scope.toNat (if csq then 1 else 0) && (s.ctx (k csq)).holder == some u
    let code (csq : Bool) : Nat := if named csq then (s.ctx (k csq)).exit % 2 ^ 16 else 0
    let fl (csq : Bool) : Word := if named csq then (s.ctx (k csq)).fstk else 0
    let freed (csq : Bool) (t : State) : State := if named csq then t.modCtx (k csq) (fun c => { c with holder := none, run := .idle }) else t
    (named false = true → (s.ctx (k false)).isOver = true) → (named true = true → (s.ctx (k true)).isOver = true) →
    (named false = true ∨ named true = true → s.readsOut a = false) →
    Ends (.rdv x0) s (freed true (freed false s)) u j (fun y => ∃ z, SliceGot r m .reg (fun _ => { val := code true * 2 ^ 16 + code false }) x z ∧
      y = { z with fstk := x.fstk.upd m (fun l => x.fstk.get l ||| (fl false ||| fl true)) })

/-- The hitch instructions of R416 to R422 whose checks pass, with the object's page translated, its pool node in reach and no Close held:
HINIT and HJOIN answer their code and round, HQUERY the value it asks for, HWAIT the status of a round that has closed, and
HCONTRIB puts its contribution on its way. -/
def Obligations.HitchInstructionResults : Prop :=
  let on (S : State → Raw → Nat → Nat → Mask → Nat → Slice → Instr → Prop) (op : Op) (i : Ext → Instr) : Prop :=
    ∀ x0, let r := Raw.ext op x0
      ∀ s u j x, Alone r s u j x → s.room (.slice u j) r = true → s.acts (.slice u j) r.x ≠ 0 →
      S s r u j (s.acts (.slice u j) r.x) (s.srcA (.slice u j) r 0 ((maskList (s.acts (.slice u j) r.x)).headD 0)) x (i x0)
  let gives (s s' : State) (r : Raw) (u j : Nat) (m : Mask) (x : Slice) (i : Instr) (v : Nat) : Prop :=
    Ends i s s' u j (SliceGot r m .reg (fun _ => { val := v }) x)
  on (fun s r u j m obj x i => s.hitchCheck u j obj none false 0 = none → ∀ pa code s1, s.hitchPa u j obj = .ok pa → s.hitchWay pa = true →
    s.unitBusy pa = false → s.hinitAnswer (.slice u j) (s.asidOf u) obj pa (s.special (.slice u j) ((maskList m).headD 0) 0x0C) = .ok (code, s1) →
    gives s (s1.geForget (.slice u j)) r u j m x i (code + 1 * 2 ^ 32)) .hinit .hinit ∧
  on (fun s r u j m obj x i => s.hitchCheck u j obj none true (if 2 ^ 56 ≤ obj then 6 else 0) = none →
    (∀ tm, s.team u = some tm → tm.joins.length < 8) → ∀ pa, s.hitchPa u j obj = .ok pa → s.hitchWay pa = true → s.unitBusy pa = false →
    let ans := s.joinAnswer u obj pa (s.hitchB r u j m % 2 ^ 32)
    gives s ans.2.2 r u j m x i (ans.1 + ans.2.1 % 2 ^ 32 * 2 ^ 32)) .hjoin .hjoin ∧
  on (fun s r u j m obj x i => s.hitchCheck u j obj none false 0 = none → ∀ pa, s.hitchPa u j obj = .ok pa → s.hitchWay pa = true → s.unitBusy pa = false →
    gives s s r u j m x i (match mget s.hitches pa with
      | some h => h.query (bits r.x.imm.toNat 2 0) (s.hitchB r u j m % 2 ^ 32)
      | none => 0xFFFFFFFF)) .hquery .hquery ∧
  on (fun s r u j m obj x i => s.hitchCheck u j obj none false 0 = none → ∀ e h, s.joinOf u obj = some e → mget s.hitches e.pa = some h →
    let b := s.hitchB r u j m % 2 ^ 32
    let back := (h.round + 2 ^ 32 - b) % 2 ^ 32
    let status := if 2 ^ h.rdepth < back then 2 ^ 13 else (mget h.status (h.round - back)).getD 0
    roundOver (h.round % 2 ^ 32) b = true → h.closing = false → s.readsOut (.slice u j) = false → s.hitchWay e.pa = true → bitAt status 12 = false →
    gives s (s.acquire (s.coreOf (.slice u j)) e.scope) r u j m x i status) .hwait .hwait ∧
  on (fun s r u j m obj x i => ∀ e ps bs s1, s.joinOf u obj = some e → s.hitchCheck u j obj (some (s.hitchB r u j m)) false 0 = none →
    s.sourcePieces u (s.hitchB r u j m) (e.count * spliceBytes e.ty) = .ok ps → s.hitchCheck u j obj none true e.scope = none →
    s.readSource (.slice u j) e.contract ps = .ok bs false 0 → s.release (.slice u j) e.scope = (true, s1) →
    let data := match s1.readSource (.slice u j) e.contract ps with
      | .ok b _ _ => b
      | _ => []
    let out : Contrib := { pa := e.pa, member := e.member, tag := s1.hitchC r u j m, fault := false, elems := bytesElems (spliceBytes e.ty) data e.count }
    ∃ op, op.kind = .hitch ∧ op.by_ = .slice u j ∧ op.mask = m ∧ op.dst = r.x.d.toNat ∧
      Ends i s { s1.addOp op with contribs := mset s1.contribs s1.nextId out } u j
        (fun y => ∃ z, Mapped r m x z ∧ y = z.stepped r.len.bytes)) .hcontrib .hcontrib

/-- TCFG, TZERO, TZERO.a and APROM (R333, R335, R341) with a config, a shape or a promotion that is good. -/
def Obligations.TileStateWrites : Prop :=
  (∀ x0 s c, let r := Raw.ext .tcfg x0
    MatrixReady r s c → let k := ctxKey c true
    let v := s.srcA (.ctx k) r 0 0 % 2 ^ 32
    (v = 0 ∨ (cfgValid v = true ∧ (cfgFmt v = 0x19 ∨ cfgFmt v = 0x1A → s.feature 4 = true))) →
    EndsCtx (.tcfg x0) s s k (fun y => y = ((s.ctx k).setTile x0.d.toNat { (s.ctx k).tile x0.d.toNat with cfg := BitVec.ofNat 32 v }).stepped r.len.bytes)) ∧
  (∀ x0 s c, let r := Raw.ext .tzero x0
    MatrixReady r s c → let k := ctxKey c true
    EndsCtx (.tzero x0) s s k (fun y => y = ((s.ctx k).setTile x0.d.toNat { (s.ctx k).tile x0.d.toNat with bits := 0, scales := 0, count := 0 }).stepped r.len.bytes)) ∧
  (∀ x0 s c, let r := Raw.ext .tzero x0
    MatrixReady r s c → let k := ctxKey c true
    let v := s.srcA (.ctx k) r 0 0 % 2 ^ 32
    shapeValid v = true → EndsCtx (.tzeroA x0) s s k (fun y => y = ((s.ctx k).setAcc x0.d.toNat { cells := 0, shape := some (BitVec.ofNat 32 v) }).stepped r.len.bytes)) ∧
  (∀ x0 s c w, let r := Raw.ext .aprom x0
    MatrixReady r s c → let k := ctxKey c true
    let acc := (s.ctx k).acc x0.d.toNat
    let kind := bits x0.scope.toNat 1 0
    let from_ := shapeKind w.toNat
    let n := shapeRows w.toNat * shapeCols w.toNat
    acc.shape = some w → (from_ = 0 ∧ kind ≠ 0 ∨ from_ = 1 ∧ 2 ≤ kind) → n * cellBytes kind ≤ 65536 →
    EndsCtx (.aprom x0) s s k (fun y => y = ((s.ctx k).setAcc x0.d.toNat
      { cells := packCells kind ((List.range n).map (fun j =>
          let v := cellDecode from_ (acc.cell from_ j)
          (cellEncode kind (if v.isNaN ∧ kind = 3 then (nanTo fp64 v).1 else v)).1))
        shape := some (BitVec.ofNat 32 (setBits w.toNat 17 16 kind)) }).stepped r.len.bytes))

/-- MMA, MMAV and OLAPPLY (R336, R338, R340) that pass their checks: the operation enters the array, counted for the
self-test; MATRIX_OP_COMPLETE then writes the cells and sticky flags and, under SR, advances the count of draws, but an MMAV
on a VQ2-64X tile leaves its sum open. -/
def Obligations.MatrixOperationsIssueComplete : Prop :=
  let starts (op : Op) (i : Ext → Instr) : Prop := ∀ x0 s c, let r := Raw.ext op x0
    MatrixReady r s c → let k := ctxKey c true
    (op = .olapply → (s.ctx k).opened.isSome = true) → s.matCheck k op x0.d.toNat x0.a.toNat x0.b.toNat = none →
    EndsCtx (i x0) s (s.modQuad (ctxCore k) (fun q => { q with since := q.since + 1 })) k (fun y =>
      y = { (s.ctx k).stepped r.len.bytes with flight := some (.op op x0.d.toNat x0.a.toNat x0.b.toNat x0.rm.toNat) })
  starts .mma .mma ∧ starts .mmav .mmav ∧ starts .olapply .olapply ∧
  ∀ c s op d ta tb rm, let k := ctxKey c true
    let x := s.ctx k
    x.flight = some (.op op d ta tb rm) →
    EndsCtx (.matrixOpComplete c) s s k (fun y =>
      if op = .mmav ∧ cfgFmt (x.tile tb).cfg.toNat = 0x1A then y = { x with flight := none, opened := some (d, ta, tb, rm), ops := x.ops + 1 }
      else (y.acc d).cells = packCells (shapeKind (((x.acc d).shape.getD 0).toNat)) (s.matMul k op d ta tb rm).1 ∧ (y.acc d).shape = (x.acc d).shape ∧
        y.fstk = x.fstk ||| ((s.matMul k op d ta tb rm).2).setWidth 32 ∧ y.flight = none ∧ y.opened = none ∧ y.ops = x.ops + 1 ∧
        y.opseq = (if Contract.mode (s.contractOf (.ctx k)) rm = .sr then x.opseq + 1 else x.opseq) ∧ y.tiles = x.tiles ∧ y.pc = x.pc ∧
        ∀ n, n ≠ d → y.acc n = x.acc n)

/-- AOUT (R342) of rows that the accumulator has, to a tile of a float or integer format: the elements, their flags, and the
count of draws under SR; the bits of the tile past the elements stay. STEST and the transfers TLD, TST, CBLD, ASAV, ARST and
AHIST (R334, R339, R343 to R346) whose memory passes its checks enter flight. -/
def Obligations.TileTransfersEnterFlight : Prop :=
  let starts (op : Op) (i : Ext → Instr) (H : Ext → State → Nat → Flight → Prop) : Prop := ∀ x0 s c f, let r := Raw.ext op x0
    MatrixReady r s c → let k := ctxKey c true
    H x0 s k f → EndsCtx (i x0) s s k (fun y => y = { (s.ctx k).stepped r.len.bytes with flight := some f })
  let reach (s : State) (k acc : Nat) (stamps : Bool) (segs : List (Nat × Nat)) (f : List (List (Place × Nat)) → Flight) (g : Flight) : Prop :=
    ∃ ps, g = f ps ∧ Reached s k acc stamps segs ps
  let tile (st : Bool) (op : Op) (x0 : Ext) (s : State) (k : Nat) (f : Flight) : Prop :=
    let r := Raw.ext op x0
    let g := ((s.ctx k).tile x0.d.toNat).cfg.toNat
    let base := s.srcA (.ctx k) r 0 0
    let pitch := s.srcB (.ctx k) r 0 0
    let cadr := s.readV (.ctx k) true x0.c.toNat 0
    let count := if st then 0 else x0.imm.toNat
    ∃ mf, matFmt (cfgFmt g) = some mf ∧ (st = false → bitAt x0.scope.toNat 0 = cfgCol g) ∧ (count ≠ 0 → cfgFmt g = 0x1A) ∧
      (x0.c ≠ 0 → mf.block.isSome = true) ∧ (st = true → 1 < (tileLines g mf).1 → (tileLines g mf).2 ≤ pitch) ∧ base % 16 = 0 ∧ pitch % 16 = 0 ∧
      (mf.block.isSome = true → cadr % 16 = 0) ∧
      reach s k (if st then accWrite else accRead) true
        ((List.range (tileLines g mf).1).map (fun i => (base + i * pitch, (tileLines g mf).2)) ++
          [(cadr, scaleBytes g mf), (cadr + (scaleBytes g mf + 15) / 16 * 16, 4 * count)])
        (fun ps => .xfer (if st then .tst else .tld) x0.d.toNat g count ps) f
  starts .stest .stest (fun x0 _ _ f => f = .test x0.d.toNat) ∧ starts .tld .tld (tile false .tld) ∧ starts .tst .tst (tile true .tst) ∧
  starts .cbld .cbld (fun x0 s k f => s.srcA (.ctx k) (.ext .cbld x0) 0 0 % 16 = 0 ∧
    reach s k accRead false [(s.srcA (.ctx k) (.ext .cbld x0) 0 0, 1024)] (fun ps => .xfer .cbld 0 0 0 ps) f) ∧
  starts .asav .asav (fun x0 s k f => let base := s.srcA (.ctx k) (.ext .asav x0) 0 0
    ∃ w, ((s.ctx k).acc x0.d.toNat).shape = some w ∧ base % 64 = 0 ∧
      reach s k accWrite true [(base, 64 + shapeRows w.toNat * shapeCols w.toNat * cellBytes (shapeKind w.toNat))]
        (fun ps => .xfer .asav x0.d.toNat w.toNat 0 ps) f) ∧
  starts .ahist .ahist (fun x0 s k f => let base := s.srcA (.ctx k) (.ext .ahist x0) 0 0
    let acc := (s.ctx k).acc x0.d.toNat
    ∃ w, acc.shape = some w ∧ base % 16 = 0 ∧
      let kind := shapeKind w.toNat
      let cs := histCounts ((List.range (shapeRows w.toNat * shapeCols w.toNat)).map (fun n => histOffset (cellDecode kind (acc.cell kind n))))
      (∀ p ∈ cs, base + (p.1 + 4) ≤ 2 ^ 56) ∧
      reach s k accAtomic false (cs.map (fun p => (base + p.1, 4)))
        (fun ps => .xfer .ahist x0.d.toNat w.toNat 0 ((ps.zip cs).map (fun p => p.1.map (fun q => (q.1, p.2.2))))) f) ∧
  (∀ x0 s c ps0 ps1, let r := Raw.ext .arst x0
    MatrixReady r s c → let k := ctxKey c true
    let base := s.srcA (.ctx k) r 0 0
    let got := s.mxRead k ps0.flatten
    let w0 := ofBytes (got.1.take 8)
    let w := w0 % 2 ^ 32
    base % 64 = 0 → Reached s k accRead true [(base, 64)] ps0 → (s.core c).wc.any (fun e => e.meets ps0.flatten) = false → s.mxReach k ps0 = true → imageOk got.1 = true → bits w0 43 32 = (got.2.ctx k).contract →
    Reached got.2 k accRead true [(base + 64, shapeRows w * shapeCols w * cellBytes (shapeKind w))] ps1 →
    EndsCtx (.arst x0) s got.2 k (fun y => y = { (got.2.ctx k).stepped r.len.bytes with flight := some (.xfer .arst x0.d.toNat w 0 ps1) })) ∧
  (∀ x0 s c w mf, let r := Raw.ext .aout x0
    MatrixReady r s c → let k := ctxKey c true
    let x := s.ctx k
    let g := (x.tile x0.d.toNat).cfg.toNat
    let acc := x.acc x0.a.toNat
    let row0 := s.srcB (.ctx k) r 0 0 % 128
    let rows := cfgRows g
    let cols := cfgCols g
    let fm := Contract.mode (s.contractOf (.ctx k)) x0.rm.toNat
    let es := (List.range (rows * cols)).map (fun n => aoutElem (s.contractOf (.ctx k)) mf.elem
      (cellDecode (shapeKind w) (acc.cell (shapeKind w) ((row0 + n / cols) * cols + n % cols))) fm
      (if fm = .sr then s.matrixDraw k (row0 + n / cols) (n % cols) else 0))
    matFmt (cfgFmt g) = some mf → cfgFmt g ≤ 0x10 → acc.shape = some (BitVec.ofNat 32 w) → w < 2 ^ 32 → cols = shapeCols w → row0 + rows ≤ shapeRows w →
    EndsCtx (.aout x0) s s k (fun y => y.pc = x.pc + r.len.bytes ∧ y.accs = x.accs ∧ y.fstk = x.fstk ||| (orFlags (es.map (·.2))).setWidth 32 ∧
      y.opseq = (if fm = .sr then x.opseq + 1 else x.opseq) ∧ (y.tile x0.d.toNat).cfg = (x.tile x0.d.toNat).cfg ∧
      (y.tile x0.d.toNat).bits = BitVec.ofNat 131072 ((x.tile x0.d.toNat).bits.toNat / 2 ^ (rows * cols * mf.w) * 2 ^ (rows * cols * mf.w) + packElems mf.w (es.map (·.1))) ∧
      ∀ n, n ≠ x0.d.toNat → y.tile n = x.tile n))

/-! ## Events (R7): what happens when each is due -/

/-- The events of the memory operations in flight (R286, R296, R309, R391, R442). A due LOAD_REPLY reads the elements, writes
the destination and takes the operation out of flight; STORE_TRANSLATE performs a store, ATOMIC_PERFORM one lane's atomic,
POD_REQUEST the elements of a load that are in turn at their pool node and POD_RESPONSE brings their answer; WC_AGE_DRAIN begins to drain entries 4,096
cycles old, behind those that drain already, and WC_DRAIN_ACK performs and frees the first one of its pool node. -/
def Obligations.MemoryEventsPerformAccesses : Prop :=
  (∀ id s op, mget s.mops id = some op → (op.kind = .ld ∨ op.kind = .ldk) → (op.pod = true → op.answered = true) →
    op.todo.any (s.mustWait id op) = false → (∀ e ∈ op.todo, e.podLine? = none) →
    Answers (.loadReply id) s (fun t => let got := s.readEls op op.todo
      let s1 := got.2.deliver op (op.got ++ got.1)
      t = { s1 with mops := mdel s1.mops id })) ∧
  (∀ id s op e u off k, mget s.mops id = some op → op.kind = .ld → op.by_ = .ctx k → op.pod = false → op.skip = [] → op.got = [] →
    op.todo = [e] → e.place = some (.scr u off) → s.mustWait id op e = false →
    Answers (.loadReply id) s (fun t => mget t.mops id = none ∧
      mget (t.ctx k).regs (op.dst + e.elem) = some (BitVec.ofNat 64 (extendTy op.ty (ofBytes (s.scrSeen u off op.size)))))) ∧
  (∀ id s op k v, mget s.mops id = some op → op.kind = .atom → op.by_ = .ctx k → op.todo = [] → (op.pod = true → op.answered = true) →
    op.got = [(0, 0, v)] → op.skip = [] → op.order % 2 = 0 →
    Answers (.loadReply id) s (fun t => mget t.mops id = none ∧ mget (t.ctx k).regs op.dst = some (BitVec.ofNat 64 (extendTy op.ty v)) ∧
      (t.ctx k).fstk = (s.ctx k).fstk ||| op.fl.p0)) ∧
  (∀ id s op e u tm off, mget s.mops id = some op → op.kind = .st → op.todo = [e] → e.held = false → e.flt = none → e.place = some (.scr u off) →
    s.mustWait id op e = false → s.team u = some tm → tm.scratch.wf = true →
    Answers (.storeTranslate id) s (fun t => mget t.mops id = none ∧ t.scrRead u off op.size = toBytes op.size e.data ∧ t.mem = s.mem)) ∧
  (∀ id s op e u tm off, mget s.mops id = some op → (op.kind = .atom ∨ op.kind = .red) → op.nextAtom = some (e, .scr u off) → s.mustWait id op e = false →
    s.rrmodeOf op.by_ = 0 → s.team u = some tm → tm.scratch.wf = true →
    let c := (Config.contract? op.contract).getD default
    let old := ofBytes (s.scrRead u off op.size)
    let res := atomOp c op.opc op.ty old e.data e.cmp (Contract.mode c op.rm) e.draw
    Answers (.atomicPerform id) s (fun t => t.mem = s.mem ∧ (∀ v, res.1 = some v → t.scrRead u off op.size = toBytes op.size v) ∧
      (res.1 = none → t.scrRead u off op.size = s.scrRead u off op.size) ∧
      (op.kind = .red → op.todo = [e] → mget t.mops id = none) ∧
      (op.kind = .atom → ∃ o, mget t.mops id = some o ∧ o.todo = op.todo.filter (· != e) ∧ o.got = op.got ++ [(e.lane, 0, old)]))) ∧
  (∀ id s op, mget s.mops id = some op → (op.kind = .ld ∨ op.kind = .ldk) →
    op.todo.any (s.mustWait id op) = false → (∀ e ∈ op.todo, ∀ l, e.podLine? = some l → s.wcHolds op.by_ l = false) → let inTurn (e : El) : Bool := match e.podLine? with
      | some l => s.podTurn id op l
      | none => false
    Answers (.podRequest id) s (fun t => let got := s.readEls op (op.todo.filter inTurn)
      t = if op.todo.filter inTurn = [] then s
          else got.2.modOp id (fun o => { o with todo := o.todo.filter (fun e => !(op.todo.filter inTurn).contains e), got := o.got ++ got.1, pod := true }))) ∧
  (∀ id s op, mget s.mops id = some op → op.pod = true → (∀ e ∈ op.todo, e.podLine? = none) →
    Answers (.podResponse id) s (fun t => t = s.modOp id (fun o => { o with answered := true }))) ∧
  (∀ c s, Answers (.wcAgeDrain c) s (fun t => t.mem = s.mem ∧
    (t.core c).wc = (s.core c).wc.filter (·.draining) ++
      ((s.core c).wc.filter (fun e => !e.draining && decide (e.since + 4096 ≤ s.cyc c.die))).map (fun e => { e with draining := true, trig := s.nextId }) ++
      (s.core c).wc.filter (fun e => !e.draining && !decide (e.since + 4096 ≤ s.cyc c.die)))) ∧
  (∀ c id s e es, (s.core c).wc.filter (fun x => x.draining && !x.performed && podNode (128 * x.line) == podNode (128 * e.line)) = e :: es → e.id = id →
    (s.core c).wc.find? (fun x => x.id == id && x.draining && !x.performed) = some e → s.lineUp c e.line = true →
    Answers (.wcDrainAck c id) s (fun t => t.mem = (s.maskedWrite c.die e.line e.data e.mask).mem ∧
      (t.core c).wc = (s.core c).wc.filter (fun x => x.id != id)))

/-- The copy cells (R306): COPY_CELL_READ takes a cell's bytes from a scratchpad and counts them at the source-side word;
COPY_CELL_WRITE writes them at a receiver and counts them there, filled up with zeros; COPY_CELL_ACK counts a TDUMP's cell. That a cell whose
source team is gone faults with 0x50 and is counted is the model's reading (DEDUCED, log 42; R305 gives 0x50 to a multicast's drops). -/
def Obligations.CopyCellsMoveBytes : Prop :=
  (∀ id s k c x u o, s.findCell id = some (k, c, x) → x.data = none → x.held = false → x.src = .scr u o → (s.team u).isSome = true →
    s.scrPoison u o x.n = false → Answers (.copyCellRead id) s (fun t =>
      t = (s.setCell k id (fun x => some { x with data := some (s.scrSeen u o x.n), fault := 0, failed := none })).awUpdate x.saw (fun w => w.deliver x.n))) ∧
  (∀ id s k c x u o, s.findCell id = some (k, c, x) → x.data = none → x.held = false → x.src = .scr u o → s.team u = none →
    Answers (.copyCellRead id) s (fun t =>
      t = ((s.setCell k id (fun x => some { x with data := some [], fault := 0x50, failed := none })).awUpdate x.saw (fun w => w.faulted 0x50)).awUpdate x.saw
        (fun w => w.deliver x.n))) ∧
  (∀ id s k c x bs d ds, s.findCell id = some (k, c, x) → x.data = some bs → bs ≠ [] → x.fault = 0 → x.dva = none → x.dsts = d :: ds →
    (s.team d.team).isSome = true → s.heldBack k d.team = false → s.restoresBefore k c d.team = false →
    Answers (.copyCellWrite id) s (fun t =>
      let w := match d.aw with
        | some o => some (d.team, o)
        | none => x.daw
      let s1 := (s.scrWrite d.team d.off (bs ++ List.replicate x.zero 0)).awUpdate w (fun y => y.deliver (x.n + x.zero))
      t = if ds.isEmpty then s1.setCell k id (fun _ => none) else s1.setCell k id (fun x => some { x with dsts := ds }))) ∧
  (∀ id s k c x, s.findCell id = some (k, c, x) → x.written = true →
    Answers (.copyCellAck id) s (fun t => t = (s.awUpdate x.daw (fun w => w.deliver x.n)).setCell k id (fun _ => none)))

/-- TILE_TRANSFER_COMPLETE (R334, R347) of each kind of transfer whose memory is in reach, and SELF_TEST (R324, R325, R492) that is due
by the count of operations, passed or failed: a failed one fences and is reported. That such a test takes STPER from the count, and does
not clear it, is the model's choice (DEDUCED, log 53). -/
def Obligations.TransfersAndSelfTestsComplete : Prop :=
  let xfer (kind : XferKind) (F : State → Nat → Nat → Nat → Nat → List (List (Place × Nat)) → State × (Ctx → Ctx)) : Prop :=
    ∀ c m s d g n segs, let k := ctxKey c m
      (s.ctx k).flight = some (.xfer kind d g n segs) → s.mxReach k segs = true → (s.core c).wc.any (fun e => e.meets segs.flatten) = false →
      Answers (.tileTransferComplete c m) s (fun t => t = (F s k d g n segs).1.modCtx k (fun x => { (F s k d g n segs).2 x with flight := none }))
  let fmt (g : Nat) : MatFmt := (matFmt (cfgFmt g)).getD { elem := .mxint, w := 8, tileBits := 8 }
  xfer .tld (fun s k d g n segs => ((s.mxReadAll k segs).2, fun x => x.setTile d ((x.tile d).load g n (fmt g) (s.mxReadAll k segs).1))) ∧
  xfer .cbld (fun s k _ _ _ segs => ((s.mxReadAll k segs).2, fun x => { x with codebook := BitVec.ofNat 8192 (ofBytes (s.mxReadAll k segs).1.flatten) })) ∧
  xfer .arst (fun s k d g _ segs => ((s.mxReadAll k segs).2, fun x =>
    x.setAcc d { cells := BitVec.ofNat 524288 (ofBytes (s.mxReadAll k segs).1.flatten), shape := some (BitVec.ofNat 32 g) })) ∧
  xfer .tst (fun s k d g _ segs =>
    (foldS (fun (p : List (Place × Nat) × List Byte) s => s.mxWrite k p.1 p.2) (segs.zip (((s.ctx k).tile d).lines g (fmt g))) s, fun x => x)) ∧
  xfer .asav (fun s k d _ _ segs => (s.mxWrite k segs.flatten (((s.ctx k).acc d).image (s.ctx k).contract), fun x => x)) ∧
  xfer .ahist (fun s k _ _ _ segs => (foldS (fun (p : Place × Nat) s => (s.placeUpdate (.ctx k) p.1 4 (fun o => some (min (o + p.2) 0xFFFFFFFF))).2) segs.flatten s, fun x => x)) ∧
  (∀ die quad fail s, let c (j : Nat) : CoreId := { die := die, quad := quad, core := j }
    let per := bits (s.ge 0x20080) 31 16
    s.mgmt.started = true → (s.quad (c 0)).retest = false → per ≠ 0 → per ≤ (s.quad (c 0)).since → fail = 0 →
    Answers (.selfTest die quad fail) s (fun t => (t.quad (c 0)).since = (s.quad (c 0)).since - per ∧ (t.quad (c 0)).tests = satInc 32 (s.quad (c 0)).tests ∧
      (t.quad (c 0)).fenced = (s.quad (c 0)).fenced ∧ ∀ j, j < 4 → (t.ctx (ctxKey (c j) true)).ops = 0)) ∧
  (∀ die quad fail s, let c (j : Nat) : CoreId := { die := die, quad := quad, core := j }
    let per := bits (s.ge 0x20080) 31 16
    s.mgmt.started = true → (s.quad (c 0)).retest = false → per ≠ 0 → per ≤ (s.quad (c 0)).since → fail ≠ 0 →
    Answers (.selfTest die quad fail) s (fun t => (t.quad (c 0)).since = (s.quad (c 0)).since - per ∧
      (t.quad (c 0)).fenced = (s.quad (c 0)).fenced ||| fail.setWidth 4 ∧ (t.quad (c 0)).tests = (s.quad (c 0)).tests ∧
      (t.quad (c 0)).olf = ((s.quad (c 0)).olf || fail.getLsbD 4) ∧ t.mgmt.reports = s.mgmt.reports ++ [.fencedArray die quad fail (s.cyc die)]))

/-- The events that end a wait (R380, R383, R397, R408, R424, R447, R475, R488, R489). A barrier or hitch wait whose limit has
come traps as BARX 7 or HITCHX 1, a slice that still handles a trap 4,000 cycles after a HALT request takes HALT with NEST set,
a gate times out after 2^24 cycles, a splice times out to an abort with cause 5; a pod barrier's completion advances PHASE for each task that
follows the slot; a mark's or an exit's release counts the lane; a contribution joins the backlog of its unit, which then acts unless a
Close is held. The model's choices: the limit of a step is counted in cycles of the I/O die at every location (log 122), a member in
another package has joined by an input from outside (log 75), and a task follows its slot from its first barrier instruction (log 141). -/
def Obligations.WaitsEndByEvents : Prop :=
  (∀ s u j x scope idx, let lim := bits (s.ge 0x200C0) 31 0
    s.slice u j = some x → x.wait.atBar = some (scope, idx) → lim ≠ 0 → 1024 * lim ≤ x.waitCyc → s.barOver u x = false → s.awaits (.slice u j) = false →
    let s0 := if x.barTok.isSome then (s.barWithdraw u j scope idx x.waitMask).modSlice u j (fun y => { y with barTok := none }) else s
    Answers (.barrierWatchdog u j) s (fun t => EntersTrap s0 { kind := kBarx, cause := 7, amask := x.waitMask } false u j t)) ∧
  (∀ s u j x obj round, let lim := bits (s.ge 0x200C8) 31 0
    s.slice u j = some x → x.wait = .hitch obj round → lim ≠ 0 → round ≠ 0 → 1024 * lim ≤ x.waitCyc → s.awaits (.slice u j) = false →
    (∀ h, mget s.hitches obj = some h → h.closing = true ∨ roundOver (h.round % 2 ^ 32) (round - 1) = false) →
    Answers (.hitchWatchdog u j) s (fun t => EntersTrap s { kind := kHitchx, cause := 1, amask := x.waitMask } false u j t)) ∧
  (∀ s u j x tm c, s.team u = some tm → s.slice u j = some x → tm.halt = some c → x.depth ≠ 0 → x.inHalt = false → x.parked = false →
    c + 4000 ≤ s.cyc tm.core.die → s.awaitsHalt (.slice u j) = false →
    Answers (.haltNestTimeout u j) s (fun t => EntersTrap s { kind := kHalt, cause := 0 } true u j t)) ∧
  (∀ s u j x tm c, s.team u = some tm → s.slice u j = some x → x.gateSince = some c → c + 2 ^ 24 ≤ s.cyc tm.core.die →
    Answers (.replayGateTimeout (.gang u [j])) s (fun t => LaneKept (fun _ _ _ => False) [.slice u j] s t ∧ t.slice u j = some { x with gateOut := true })) ∧
  (∀ s m c g, (s.ctx (ctxKey c m)).gateSince = some g → g + 2 ^ 24 ≤ s.cyc c.die → (∀ tm, s.team (s.teamOf (.ctx (ctxKey c m))) = some tm → tm.halt = none) →
    Answers (.replayGateTimeout (.ctx m c)) s (fun t => t = s.modCtx (ctxKey c m) (fun x => { x with gateOut := true }))) ∧
  (∀ s l comm seq lo hi f, let lim := bits (s.ge 0x34200) 31 0
    s.forming.find? (fun f => f.loc == l && f.comm == comm && f.seq == seq && f.lo == lo && f.hi == hi) = some f → lim ≠ 0 → f.since + 1024 * lim ≤ s.ioCyc →
    Answers (.spliceStepTimeout l comm seq lo hi) s (fun t => t = s.spliceAbort comm seq 5 ∧
      t.forming = s.forming.filter (fun f => !(f.comm == comm && f.seq == seq)) ∧
      ∀ m ∈ t.flying, (m.comm = comm → m.seq = seq → m.kind = 0 ∧ ∃ i, m.dest = .member i) ∧ ((m.comm, m.seq) ≠ (comm, seq) → m ∈ s.flying))) ∧
  (∀ s phase n k l c, s.task n = some k → mget k.levels (levelKey 6 0) = some l → l.seen = some c → (s.podSlot c.node c.slot 0).phase = phase →
    c.phase ≠ phase → (∀ b, l.bound = some b → b.phase ≠ phase) →
    Answers (.podBarrierComplete c.binding phase) s (fun t => t.mem = s.mem ∧
      ∃ k' l', t.task n = some k' ∧ k'.card = k.card ∧ mget k'.levels (levelKey 6 0) = some l' ∧ l'.phase = l.phase + (phase - c.phase) ∧
        l'.seen = some { c with phase := phase } ∧ l'.arrived = [] ∧ l'.bound = none)) ∧
  (∀ s u lane tm e s1, s.team u = some tm → releaseOf tm.marking lane = some e → s.laneRelease u (lane / 4) e.2.2 = (true, s1) →
    let b := laneSet (lane / 4) (BitVec.ofNat 4 (2 ^ (lane % 4)))
    Answers (.triggerMark u lane) s (fun t => ∃ hid, t.team u = some { tm with hid := hid, marking := dropLane tm.marking e lane, marked := tm.marked ||| b, counted := tm.counted ||| b })) ∧
  (∀ s u lane tm e s1, s.team u = some tm → releaseOf tm.exiting lane = some e → s.laneRelease u (lane / 4) e.2.2 = (true, s1) →
    let b := laneSet (lane / 4) (BitVec.ofNat 4 (2 ^ (lane % 4)))
    Answers (.exitReleaseComplete u lane) s (fun t => ∃ hid, t.team u = some { tm with hid := hid, exiting := dropLane tm.exiting e lane, counted := tm.counted ||| b })) ∧
  (∀ s id x h, mget s.contribs id = some x → x.fault = false → mget s.hitches x.pa = some h →
    let given : UnitEvent := .give x.member { tag := x.tag, elems := x.elems, op := some id }
    let h' : Hitch := { h with backlog := h.backlog ++ [given] }
    let s1 : State := { s with contribs := mdel s.contribs id }
    Answers (.hitchContribution (.own id)) s (fun t => t = if h.closing then { s1 with hitches := mset s.hitches x.pa h' } else s1.actUnit x.pa h')) ∧
  (∀ s pa m tag es h y, mget s.hitches pa = some h → h.member m = some y → y.joined = some none →
    let given : UnitEvent := .give m { tag := tag, elems := es, op := none }
    let h' : Hitch := { h with backlog := h.backlog ++ [given] }
    Answers (.hitchContribution (.other pa m tag es)) s (fun t => t = if h.closing then { s with hitches := mset s.hitches pa h' } else s.actUnit pa h'))

/-- The events of links and splices (R86, R386 to R390, R396 to R402, R492, R493): a message sets out in cells under its flow's next counts;
a data slot of a link carries a cell of the flow it serves, the one that its reservation names where that has a cell ready; a good
cell advances its flow's count and the last one completes its message, one that fails authentication closes its flow, signals the host
complex, is counted where it is of a launch flow, and ends the splices on the flow; a lost link fails its splices and is reported, a trained
link is up, a re-keyed flow is open again; a message arrives at its node or completes the splice of its member, and a word held for a team
that halts stays held. Nothing comes in while no started image runs. The model's choices: which splices a closed flow takes and the count
kept at a re-key (log 71), the flow that each of the package's own messages travels on (log 119), and that a reservation names flows of any
domain, with the order of service (log 126). -/
def Obligations.CellsLinksSplicesAdvance : Prop :=
  (∀ (s : State) m p, s.canSend m = true → s.toSend = [] → m.body = [p] → m.pod = none →
    let k := wireKey m.flow
    let f := s.flow k
    let t := s.send m
    let body := sealed m.cls k f.rekeys (f.sent + 1) p
    let clear := clearTag m.cls true k (f.sent + 1)
    t.toSend = [] ∧ (t.flow k).sent = f.sent + 1 ∧
      t.ready = s.ready ++ [(m.link, { tag := gtag k f.rekeys (f.sent + 1) clear body ++ clear, payload := body, crcOk := true })]) ∧
  (∀ (s : State) link c rest f, s.ready = (link, c) :: rest → mget s.frames link = some f → f.slot ≠ 0 → f.slot < 64 → s.nodeUp link = true →
    f.serves (s.ready.filterMap (fun x => if x.1 = link then some (Cell.flow x.2) else none)) = some (Cell.flow c) →
    (s.slot link).ready = rest ∧ (s.slot link).sent = s.sent ++ [(link, c)] ∧
      mget (s.slot link).frames link = some { f with slot := f.slot + 1, last := Cell.flow c }) ∧
  (∀ (f : Frame) flows n k, f.table[f.slot]? = some (some n) → k ∈ flows → k % 2 ^ 20 = n → ∃ k', f.serves flows = some k' ∧ k' % 2 ^ 20 = n) ∧
  (∀ (s : State) link (c : Cell), c.crcOk = true → s.nodeUp link = true → let t := c.tag.toNat
    let cls := bits t 63 61
    let k := flowKey (bits t 59 44) (bits t 43 24)
    let f := s.flow k
    let cnt := nextCount f.last (bits t 23 0)
    s.mgmt.started = true → f.closed = false →
    (cnt < 2 ^ 56 → gtag k f.rekeys cnt (c.tag.setWidth 64) c.payload = (c.tag >>> 64).setWidth 64 → let ps := f.part ++ [opened cls k f.rekeys cnt c.payload]
      (bitAt t 60 = false → Answers (.cellReceive link c) s (fun t' => t' = { s with flows := mset s.flows k { f with last := cnt, part := ps } })) ∧
      (bitAt t 60 = true → cls ≠ 2 → cls ≠ 3 → Answers (.cellReceive link c) s (fun t' =>
        t' = { s with flows := mset s.flows k { f with last := cnt, part := [] }, rx := s.rx ++ [(link, cls, ps)] })) ∧
      (bitAt t 60 = true → cls = 3 → Answers (.cellReceive link c) s (fun t' =>
        t' = ({ s with flows := mset s.flows k { f with last := cnt, part := [] } } : State).launchPacket (packetOf k ps)))) ∧
    (2 ^ 56 ≤ cnt ∨ gtag k f.rekeys cnt (c.tag.setWidth 64) c.payload ≠ (c.tag >>> 64).setWidth 64 →
      Answers (.cellReceive link c) s (fun t' => (t'.flow k).closed = true ∧ (t'.flow k).last = f.last ∧ t'.rx = s.rx ∧ t'.signals = s.signals ++ [k] ∧
        t'.regs = (if cls = 3 then s.discard (s.portOf (launchEp k)) else s).regs ∧
        (∀ p ∈ t'.splices, p.ended = false →
          p ∈ s.splices ∧ ¬ (bits (t'.comm p.slot 8) 31 16 = k / 2 ^ 20 ∧ ∃ e ∈ p.route, t'.spliceClosed p.slot (entryNode e) = true))))) ∧
  (∀ s link c, c.crcOk = false ∨ s.nodeUp link = false ∨ (s.flow (flowKey (bits c.tag.toNat 59 44) (bits c.tag.toNat 43 24))).closed = true →
    Answers (.cellReceive link c) s (fun t => t = s)) ∧
  (∀ s l, l < 36 → s.mgmt.started = true → Answers (.linkUp l) s (fun t => t.nodeUp l = true ∧ t.mem = s.mem ∧ t.teams = s.teams)) ∧
  (∀ s l, l < 36 → s.mgmt.started = true → s.nodeUp l = true → s.flying = [] → s.forming = [] → s.splices = [] →
    Answers (.linkDown l) s (fun t => t.nodeUp l = false ∧ t.mgmt.reports = s.mgmt.reports ++ [.linkFailure l s.ioCyc] ∧ t.mem = s.mem)) ∧
  (∀ s domain flow, let k := flowKey domain flow
    s.mgmt.started = true → (s.flow k).closed = true → Answers (.flowRekey domain flow) s (fun t => (t.flow k).closed = false ∧ (t.flow k).last = (s.flow k).last ∧
      (t.flow k).rekeys = (s.flow k).rekeys + 1)) ∧
  (∀ s m l, s.mgmt.started = true → s.splices.find? (fun p => p.words.contains m) = none → s.spliceWay m = true → m.dest = .at l →
    (∀ p, l = .endpoint p → p = s.pkgId) →
    Answers (.spliceMessage m) s (fun t => t = ({ s with flying := s.flying.erase m } : State).spliceArrive l m)) ∧
  (∀ s m i p, s.mgmt.started = true → s.splices.find? (fun p => p.words.contains m) = none → s.spliceWay m = true → m.dest = .member i → m.kind = 3 →
    s.splices.find? (fun p => p.comm == m.comm && p.seq == m.seq && p.member == i && !p.ended) = some p →
    s.spliceHeld p.team = false → Answers (.spliceMessage m) s (fun t => t = ({ s with flying := s.flying.erase m } : State).spliceDone p m)) ∧
  (∀ s m p, s.splices.find? (fun p => p.words.contains m) = some p → s.spliceHeld p.team = true → Answers (.spliceMessage m) s (fun t => t = s)) ∧
  (∀ (s : State) link c l domain flow m, s.mgmt.started = false → Answers (.cellReceive link c) s (fun t => t = s) ∧ Answers (.linkUp l) s (fun t => t = s) ∧
    Answers (.linkDown l) s (fun t => t = s) ∧ Answers (.flowRekey domain flow) s (fun t => t = s) ∧ Answers (.spliceMessage m) s (fun t => t = s))

/-- Submissions and launch ports (R77, R80, R86 to R89, R485, R493): a write of SUBADDR and an intact packet to a deployed package each
become a submission; TASK_ACCEPT answers the oldest one, a packet by its header and PSEQ first, and LASTSEQ follows; HOSTDONE counts one call
of a host task, TKILL ends a task; a port is configured and unconfigured by its V bit; nothing of it reaches a package in reset. The model's
choices: TKILL makes a pass due (DEDUCED, log 109; R100 lists no kill), a packet's PSEQ is judged when its turn comes (log 56), and of a packet
out of order with a bad header too the reason is SEQGAP (log 138). -/
def Obligations.SubmissionsAndPorts : Prop :=
  (∀ s h addr, h < 32 → s.mgmt.started = true → bits (s.ge (0x1000 * h + 8)) 63 62 ≠ 1 →
    Answers (.subaddrWrite h addr) s (fun t => t.ge (0x1000 * h + 8) = 2 ^ 62 ∧ t.mem = s.mem ∧
      t.subs = s.subs ++ [{ src := .host h, asid := bits (s.ge (0x1000 * h + 0x18)) 15 0, addr := bits addr.toNat 56 0 }])) ∧
  (∀ s b rest reason stream tag, s.subs = b :: rest → s.judge b = .refuse reason stream tag →
    Answers .taskAccept s (fun t => t = (({ s with subs := rest } : State).geForget .accept).refuse b.src reason stream tag)) ∧
  (∀ s b rest card foots preds, s.subs = b :: rest → s.judge b = .accept card foots preds →
    Answers .taskAccept s (fun t => t = (({ s with subs := rest } : State).geForget .accept).enter b card foots preds)) ∧
  (∀ s h handle k, s.mgmt.started = true → s.byHandle handle.toNat = some k → k.cls = 1 → k.started = true → k.left ≠ 0 → k.ending = none →
    Answers (.hostdone h handle) s (fun t => t.tasks = mupd s.tasks k.serial (fun k => { k with left := k.left - 1 }) ∧ t.mem = s.mem)) ∧
  (∀ s handle, s.byHandle handle.toNat = none → Answers (.tkill handle) s (fun t => t = s) ∧ ∀ h, Answers (.hostdone h handle) s (fun t => t = s)) ∧
  (∀ s handle k, s.mgmt.started = true → s.byHandle handle.toNat = some k → k.ending = none →
    Answers (.tkill handle) s (fun t => let s1 := s.abortTask k.serial (fun k => { k with killed := true, left := if k.cls = 1 then k.nteam - k.next else k.left })
      t = { s1 with hostCalls := s1.hostCalls.filter (fun c => c.1 != k.serial), passDue := true })) ∧
  (∀ s p n, s.portOf (setBits p.ep.toNat 63 63 (bit01 p.xport)) = some n → p.intact = true → s.feature 6 = true → s.mgmt.started = true → s.mgmt.life = .deployed →
    let src := Source.port n (p.head.getD 1 0) (bits (p.head.getD 0 0).toNat 31 0)
    Answers (.launchPacket p) s (fun t => t = { s with subs := s.subs ++ [
      { src := src, asid := bits (s.ge (portOff n)) 47 32, addr := 0, card := some p.card, head := p.head }] })) ∧
  (∀ (s : State) b n cookie pseq, b.src = .port n cookie pseq → let last := bits (s.ge (portOff n + 0x18)) 31 0
    let h0 := (b.head.getD 0 0).toNat
    let next := pseq ≠ 0 ∧ pseq = (if last = 2 ^ 32 - 1 then 1 else last + 1)
    let formed := (b.head.drop 2).all (· == 0) = true ∧ bits h0 63 56 = 1 ∧ bits h0 55 48 = 1 ∧ bits h0 47 32 = n
    (¬ next → ∃ st tg, s.judge b = .refuse rSeqgap st tg) ∧ (next → ¬ formed → ∃ st tg, s.judge b = .refuse rBadcard st tg) ∧
      (next → formed → s.badHead b = none) ∧
      (∀ rest reason st tg, s.subs = b :: rest → s.judge b = .refuse reason st tg →
        Answers .taskAccept s (fun t => t.ge (portOff n + 0x18) = pseq % 2 ^ 64 ∧ t.tasks = s.tasks))) ∧
  (∀ s p, s.mgmt.started = true → s.portOf (setBits p.ep.toNat 63 63 (bit01 p.xport)) = none → Answers (.launchPacket p) s (fun t => t.subs = s.subs ∧
    t.ge 0x20400 = setBits (s.ge 0x20400) 31 0 (satInc 32 (bits (s.ge 0x20400) 31 0)))) ∧
  (∀ s p val, s.mgmt.started = true → p < 16 → bitAt (s.ge (portOff p)) 63 = false → bitAt val.toNat 63 = true →
    Answers (.launchPortConfigure p val) s (fun t => bitAt (t.ge (portOff p)) 63 = true ∧ bits (t.ge (portOff p)) 47 32 = bits val.toNat 47 32 ∧
      t.ge (portOff p + 0x18) = 0 ∧ t.mem = s.mem)) ∧
  (∀ s p val, s.mgmt.started = true → p < 16 → bitAt (s.ge (portOff p)) 63 = true → bitAt val.toNat 63 = false →
    Answers (.launchPortUnconfigure p val) s (fun t => bitAt (t.ge (portOff p)) 63 = false ∧ bits (t.ge (portOff p)) 47 32 = bits (s.ge (portOff p)) 47 32 ∧
      t.ge (portOff p + 0x18) = s.ge (portOff p + 0x18) ∧ t.mem = s.mem)) ∧
  (∀ s h addr handle p q val, s.mgmt.started = false → Answers (.subaddrWrite h addr) s (fun t => t = s) ∧ Answers (.hostdone h handle) s (fun t => t = s) ∧
    Answers (.tkill handle) s (fun t => t = s) ∧ Answers (.launchPacket p) s (fun t => t = s) ∧
    Answers (.launchPortConfigure q val) s (fun t => t = s) ∧ Answers (.launchPortUnconfigure q val) s (fun t => t = s))

/-- Placement, pre-emption and the ends of teams and tasks (R24, R78, R85, R101, R103, R106, R107, R170, R447, R484, R485), each when it is
due. The model's choices: a pass is due at every team's and task's end (DEDUCED, log 109; R100 lists an edge satisfied), and a team whose
slices all wait in NWAIT is asked to halt while a ready task has a team to place (DESIGN CHOICE, log 60). -/
def Obligations.PlacementAndEnds : Prop :=
  (∀ s, s.passDue = true → Answers .dispatchPass s (fun t =>
    let w := ({ s with passDue := false } : State).walkReady s.readyOrder
    let s1 := w.1.countPasses w.2
    t = ((s1.giveResvs (bits (s1.ge 0x20040) 31 16) s1.readyOrder).preempt).syncResv)) ∧
  (∀ s, s.passDue = false → Answers .dispatchPass s (fun t => t = s)) ∧
  (∀ s val, s.mgmt.started = true → Answers (.plctlWrite val) s (fun t => t.passDue = true ∧ bitAt (t.ge 0x20040) 0 = bitAt val.toNat 0 ∧ t.mem = s.mem ∧
    bits (t.ge 0x20040) 31 16 = (if bits val.toNat 31 16 = 0 then 1 else bits val.toNat 31 16))) ∧
  (∀ s die, Answers (.throttleStart die) s (fun t => t.mem = s.mem ∧ t.die die = { s.die die with bubble := (s.die die).pattern, pending := (s.die die).pending.filter (fun b => decide ((s.die die).cyc < b.estart)) })) ∧
  (∀ s c u i x, (s.runnableOn c).all (fun p => s.blockedAt p.1 p.2) = true → (s.allocOn c).find? (fun p => s.blockedAt p.1 p.2) = some (u, i) →
    s.slice u i = some x → x.grant = false → s.above c u i (x.names.length + 1) ≤ s.spareTotal c + 64 →
    Answers (.reserveGrant c) s (fun t => LaneKept (fun _ _ _ => False) [.slice u i] s t ∧ t.slice u i = some { x with grant := true })) ∧
  (∀ s u tm, s.team u = some tm → tm.wanted = true → tm.csa ≠ none → tm.status = .resident → tm.halt = none → tm.slices ≠ [] →
    Answers (.haltRequest u) s (fun t => t.team u = some { tm with halt := some (s.cyc tm.core.die), haltAt := s.nextId, nwHold := tm.nwaits } ∧ t.mem = s.mem)) ∧
  (∀ s u tm, s.team u = some tm → tm.wanted = false → tm.csa ≠ none → tm.status = .resident → tm.halt = none → tm.slices ≠ [] → s.nwaitIdle u = true →
    (s.taskOf u).isSome = true → s.tasks.any (fun p => s.unplaced p.2) = true →
    Answers (.haltRequest u) s (fun t => t.team u = some { tm with wanted := true, halt := some (s.cyc tm.core.die), haltAt := s.nextId, nwHold := tm.nwaits } ∧
      t.mem = s.mem)) ∧
  (∀ s u tm s1, s.team u = some tm → s.saveReady u = true → let s0 := foldS (fun k s => s.partFlags k) (s.heldKeys u) s
    (s0.core tm.core).wc.any (fun e => e.teams.contains u) = false →
    s0.csaAll u ((s0.saveParts u).flatMap (fun p => csaPieces p.1 p.2 (p.2.length + 1))) = .done s1 →
    Answers (.contextSaveComplete u) s (fun t => t.passDue = true ∧ t.mem = s1.mem ∧ ∃ tm', t.team u = some tm' ∧ tm'.status = .saved ∧ tm'.halt = none ∧
      tm'.wanted = false ∧ tm'.scratch = [] ∧ tm'.kfile = [] ∧ tm'.task = tm.task ∧ tm'.index = tm.index)) ∧
  (∀ s u tm, s.team u = some tm → tm.status = .ending → s.storesOut u = false → s.copiesInto u s.nextId = false → s.copiesFrom u = false →
    s.reachedFrom u = false → s.splicesInto u = false → s.owes u = false → tm.marking = [] →
    (∀ k ∈ s.heldKeys u, (s.ctx k).run ≠ .running ∧ (s.ctx k).flight = none ∧ s.mops.any (fun p => p.2.by_ == .ctx k) = false) →
    (s.core tm.core).wc.any (fun e => e.teams.contains u) = false →
    Answers (.teamEnd u) s (fun t => t.team u = none ∧ t.passDue = true ∧
      (t.task tm.task).map (·.left) = (s.task tm.task).map (fun k => k.left - 1))) ∧
  (∀ s handle k, s.byHandle handle.toNat = some k → k.endDue = true → s.copies.any (fun p => p.2.task == k.serial) = false → k.doneAddr = 0 →
    Answers (.taskEnd handle) s (fun t => t = ((s.publishTask k.serial).modTask k.serial (fun k => { k with ending := some 2 })).retire k ∧ t.task k.serial = none ∧ t.passDue = true)) ∧
  (∀ s handle k pa ch st, s.byHandle handle.toNat = some k → k.endDue = true → s.copies.any (fun p => p.2.task == k.serial) = false → k.doneAddr ≠ 0 →
    let s1 := (s.publishTask k.serial).modTask k.serial (fun k => { k with ending := some 2 })
    s1.geTr (.done k.serial) k.asid k.doneAddr accWrite = .ok pa ch st →
    Answers (.taskEnd handle) s (fun t => t = (s1.homeWrite pa (toBytes 8 k.doneWord)).retire k ∧ t.task k.serial = none))

/-- Walks, faults and invalidations (R122, R125, R126, R128 to R130): a walk in progress ends, the next request takes its walker, and
the walk fills the TLBs or leaves its fault with the access that asked; RETRY lets the access go on, FAIL lets it meet the fault; the oldest
fault joins a pending entry of its page or takes a free ring entry, with a signal; an invalidation
starts unless one is in progress, and when it completes no TLB holds an entry of its scope. The model's choices: the walk first in the list
ends first, and the tables are read as it ends (DESIGN CHOICE, log 30); what the completion of an invalidation waits for (log 85). -/
def Obligations.WalksFaultsInvalidations : Prop :=
  (∀ s die q u i x, (s.die die).walks.find? (·.busy) = some q → q.waiters = [.slice u i] → s.slice u i = some x → x.wait = .walk →
    let s1 := s.modDie die (fun d => Die.startWalk { d with walks := d.walks.erase q })
    (∀ tr, s1.walk q.asid q.va = .ok tr → Answers (.walk die) s (fun t => (t.die die).walks = (s1.die die).walks ∧ t.mem = s.mem ∧
      (t.core (s.coreOf (.slice u i))).tlb.head? = some tr ∧ t.slice u i = some { x with wait := .none })) ∧
    (∀ c, s1.walk q.asid q.va = .error c → Answers (.walk die) s (fun t => (t.die die).walks = (s1.die die).walks ∧ t.mem = s.mem ∧ t.cores = s.cores ∧
      t.slice u i = some { x with wait := .none, xf := x.xf ++ [{ asid := q.asid, page := q.va / 4096, kind := kXlate, cause := c, replay := s.demand q.asid }] }))) ∧
  (∀ s die idx f u i x, s.mgmt.started = true → (s.die die).faults.find? (fun f => f.ring == some idx) = some f → f.waiters = [.slice u i] →
    s.slice u i = some x → x.wait = .replay →
    let s1 := s.modDie die (fun d => { d with faults := d.faults.filter (fun g => g.ring != some idx) })
    let others := x.xf.filter (fun y => y.page != f.va / 4096 || y.asid != f.asid)
    s1.faultWaits (.slice u i) = false → s1.faultWaits (.engine (.slice u i)) = false →
    Answers (.faultRetry die idx) s (fun t => t.slice u i = some { x with wait := .none, xf := others } ∧ t.mem = s.mem ∧
      (t.die die).faults = (s.die die).faults.filter (fun g => g.ring != some idx)) ∧
    Answers (.faultFail die idx) s (fun t => t.mem = s.mem ∧ (t.die die).faults = (s.die die).faults.filter (fun g => g.ring != some idx) ∧
      t.slice u i = some { x with wait := .none, xf := others ++ [{ asid := f.asid, page := f.va / 4096, kind := if f.kind = kOwn then kProt else f.kind, cause := f.cause, replay := false, final := true }] })) ∧
  (∀ s die idx, (s.die die).faults.find? (fun f => f.ring == some idx) = none →
    Answers (.faultRetry die idx) s (fun t => t = s) ∧ Answers (.faultFail die idx) s (fun t => t = s)) ∧
  (∀ s die f i, let d := s.die die
    let base := bits (s.tc (0x1000 * die)) 51 15 * 2 ^ 15
    d.faults.find? (fun f => f.ring.isNone) = some f →
    d.faults.find? (fun g => g.ring.isSome && g.asid == f.asid && g.va / 4096 == f.va / 4096 && g.kind == f.kind) = none → freeIndex d.faults d.fqHead 1024 = some i →
    Answers (.faultQueueWrite die) s (fun t => t.mem = (s.rawWrite (base + 32 * i) (faultWords f)).mem ∧
      (t.die die).faults = d.faults.map (fun x => if x == f then { f with ring := some i } else x) ∧ t.faultSignals = s.faultSignals ++ [(die, i)])) ∧
  (∀ s die f g, let d := s.die die
    d.faults.find? (fun f => f.ring.isNone) = some f →
    d.faults.find? (fun g => g.ring.isSome && g.asid == f.asid && g.va / 4096 == f.va / 4096 && g.kind == f.kind) = some g →
    Answers (.faultQueueWrite die) s (fun t => t.faultSignals = s.faultSignals ∧ (t.die die).faults = (d.faults.erase f).map (fun x =>
      if x.ring == g.ring then { g with merged := min (g.merged + 1) 65535, waiters := g.waiters ++ f.waiters } else x))) ∧
  (∀ s, s.mgmt.started = true → s.inval = none → Answers .invalidateAll s (fun t => t.inval = some (0, 0, bits (s.tc 0x8008) 56 12 * 4096, 0) ∧ t.tc 0x8018 = 1 ∧ t.mem = s.mem) ∧
    (∀ a, Answers (.invalidateAsid a) s (fun t => t.inval = some (1, a.toNat, bits (s.tc 0x8008) 56 12 * 4096, 0) ∧ t.tc 0x8018 = 1 ∧ t.mem = s.mem)) ∧
    (∀ a n, Answers (.invalidateRange a n) s (fun t => t.inval = some (2, a.toNat, bits (s.tc 0x8008) 56 12 * 4096, n.toNat) ∧ t.tc 0x8018 = 1 ∧ t.mem = s.mem))) ∧
  (∀ s, s.inval.isSome = true ∨ s.mgmt.started = false → Answers .invalidateAll s (fun t => t = s) ∧ (∀ a, Answers (.invalidateAsid a) s (fun t => t = s)) ∧
    ∀ a n, Answers (.invalidateRange a n) s (fun t => t = s)) ∧
  (∀ s v, s.inval = some v → s.usesOld v = false → (∀ p ∈ s.cores, (s.core (coreOf p.1)).wc.any (s.wcOld v) = false) →
    Answers .invalidationComplete s (fun t => t.inval = none ∧ t.tc 0x8018 = 0 ∧
      (∀ p ∈ t.cores, ∀ e ∈ p.2.tlb, inScope v e.asid e.base (e.base + 2 ^ e.log) = false) ∧
      ∀ p ∈ t.quads, ∀ e ∈ p.2.tlb, inScope v e.asid e.base (e.base + 2 ^ e.log) = false))

/-- Storage errors, samples, and what the host complex reads, writes and sets up (R10, R49, R61, R68, R279, R326, R455, R456, R467, R469,
R471, R490, R493): a corrected error is counted at its location and the third within 2^32 cycles is reported as lasting; an uncorrectable one in
HBM or the L2 poisons its line, and one in a scratchpad its byte; the period of a core's samples gives a record of its slice, which a due
sample writes to the ring; LANE_CYCLE_CLEAR clears the lane-cycle counters; a register write follows R10 at every offset that has no event of
its own; a write of memory is performed at its home; FEATDRV takes the features of FEATDEV before the first task; the contract table region
holds the entry of each contract and the package's CAPC values, MXSTAT the state of a quad's array; a set-up gets the contract of R68 or
NOCOMMON and no object. The model's choices: what an uncorrectable error affects in a scratchpad (log 84), and the location of R455 in which
data lies (log 133). -/
def Obligations.HostWritesErrorsSamples : Prop :=
  (∀ s die loc l, s.mgmt.started = true → s.errPlace loc = some l → (s.die die).errors.find? (fun e => e.loc == l) = none → (s.die die).errors.length < 64 →
    Answers (.correctedError die loc) s (fun t => (t.die die).errors = (s.die die).errors ++ [{ loc := l, count := 1, first := s.cyc die }] ∧
      t.mem = s.mem ∧ t.mgmt = s.mgmt)) ∧
  (∀ s die loc l e, s.mgmt.started = true → s.errPlace loc = some l → (s.die die).errors.find? (fun e => e.loc == l) = some e →
    s.cyc die - e.first < 2 ^ 32 → e.count = 2 →
    Answers (.correctedError die loc) s (fun t => t.mem = s.mem ∧ t.mgmt.reports = s.mgmt.reports ++ [.lasting die l (s.cyc die)])) ∧
  (∀ s die pa, s.mgmt.started = true → Answers (.uncorrectableError die (.hbm pa)) s (fun t => (∀ l, t.homeBad l = if l = pa / 128 then 4 else s.homeBad l) ∧ t.mem = s.mem ∧
    t.mgmt.reports = s.mgmt.reports ++ [.uncorrectable die (.hbm pa) (s.cyc die)])) ∧
  (∀ s die pa, s.mgmt.started = true → Answers (.uncorrectableError die (.l2Line pa)) s (fun t => (∀ l, t.homeBad l = if l = pa / 128 then 3 else s.homeBad l) ∧ t.mem = s.mem)) ∧
  (∀ s die u tm off, s.mgmt.started = true → s.team u = some tm → off < s.scrBytes u →
    Answers (.uncorrectableError die (.scratch u off)) s (fun t => t.mem = s.mem ∧ ∀ o, t.scrPoison u o 1 = (o == off || s.scrPoison u o 1))) ∧
  (∀ s die loc, s.mgmt.started = false → Answers (.correctedError die loc) s (fun t => t = s) ∧ Answers (.uncorrectableError die loc) s (fun t => t = s)) ∧
  (∀ s c, (s.core c).samples = [] → Answers (.stallSample c) s (fun t => t = s)) ∧
  (∀ s c r rest, (s.core c).samples = r :: rest →
    Answers (.stallSample c) s (fun t => (t.core c).samples = rest ∧ t.mem = (s.ringWrite sampleRing r).mem ∧ t.teams = s.teams)) ∧
  (∀ (s : State) c u age i x, s.sampled c = [(u, age, i)] → s.slice u i = some x →
    let rec_ := match x.issued with
      | some (n, pc) => if n = s.cyc c.die then s.sampleRecord u i 0 true pc else s.sampleRecord u i (s.stallReason u i) false x.pc
      | none => s.sampleRecord u i (s.stallReason u i) false x.pc
    (s.sampleTake c).core c = { s.core c with lastSample := some (age, i), samples := (s.core c).samples ++ rec_.toList }) ∧
  (∀ (s : State) c n, let per := bits (s.ge 0x22228) 31 0
    (s.feature 7 = false ∨ per = 0 ∨ s.sampled c = [] → s.sampleCycles c n = s) ∧
    (s.feature 7 = true → per ≠ 0 → s.sampled c ≠ [] → (s.core c).sampled + n < max per 64 →
      ((s.sampleCycles c n).core c) = { s.core c with sampled := (s.core c).sampled + n } ∧ (s.sampleCycles c n).cyc c.die = s.cyc c.die)) ∧
  (∀ s, s.mgmt.started = true → Answers .laneCycleClear s (fun t => t.mem = s.mem ∧ ∀ off, t.ge off = if 0x22500 ≤ off ∧ off < 0x22780 then 0 else s.ge off)) ∧
  (∀ s off val, s.mgmt.started = true → off < 0x40000 → off % 8 = 0 →
    ¬ (off < 0x20000 ∧ (off % 0x1000 = 0 ∨ off % 0x1000 = 0x20)) → off ≠ 0x20038 → off ≠ 0x20040 → off ≠ 0x20050 → ¬ (0x20200 ≤ off ∧ off < 0x20400) →
    off ≠ 0x22780 → ¬ (0x3C000 ≤ off ∧ off < 0x3D000) →
    Answers (.registerWrite (geBase + off) val) s (fun t => t.ge off = fieldWrite (s.ge off) val.toNat (geRw off) (geW1c off) ∧
      (∀ o, o ≠ off → t.ge o = s.ge o) ∧ t.mem = s.mem ∧ t.slots = s.slots)) ∧
  (∀ s val, s.mgmt.started = true → Answers (.registerWrite (geBase + 0x22780) val) s (fun t => t.mem = s.mem ∧
    t.ge 0x22780 = fieldWrite (s.ge 0x22780) val.toNat (geRw 0x22780) 0 ∧
    ∀ o, o ≠ 0x22780 → t.ge o = if bitAt val.toNat 1 = true ∧ 0x22500 ≤ o ∧ o < 0x22780 then 0 else s.ge o)) ∧
  (∀ s off val, s.mgmt.started = true → 0x3C000 ≤ off → off < 0x3D000 → off % 8 = 0 →
    Answers (.registerWrite (geBase + off) val) s (fun t => t.ge off = fieldWrite (s.ge off) val.toNat (geRw off) 0 ∧ (∀ o, o ≠ off → t.ge o = s.ge o) ∧
      t.mem = s.mem)) ∧
  (∀ s p val, s.mgmt.started = true → p < 16 → bitAt (s.ge (portOff p)) 63 = true →
    Answers (.registerWrite (geBase + portOff p + 8) val) s (fun t => t = s) ∧ Answers (.registerWrite (geBase + portOff p + 16) val) s (fun t => t = s)) ∧
  (∀ s off val, s.mgmt.started = true → off < 0x9000 → off % 8 = 0 → off ≠ 0x8010 → ¬ (off < 0x8000 ∧ off % 0x1000 = 0x18) →
    Answers (.registerWrite (tcBase + off) val) s (fun t => t.tc off = fieldWrite (s.tc off) val.toNat (tcRw off) 0 ∧ (∀ o, o ≠ off → t.tc o = s.tc o) ∧
      t.mem = s.mem)) ∧
  (∀ s die val, s.mgmt.started = true → die < 8 → bits val.toNat 63 62 ≤ 1 →
    Answers (.registerWrite (tcBase + 0x1000 * die + 0x18) val) s (fun t => t = s.answerFault die (bits val.toNat 9 0) (bits val.toNat 63 62 == 0))) ∧
  (∀ s pa val, s.mgmt.started = false ∨ pa % 8 ≠ 0 → Answers (.registerWrite pa val) s (fun t => t = s)) ∧
  (∀ s pa n, Answers (.hostMemoryAccess (.read pa n)) s (fun t => t = s)) ∧
  (∀ s pa bs, s.mgmt.started = true → bs ≠ [] → s.hostReaches pa bs.length = true → MemInv s →
    Answers (.hostMemoryAccess (.write pa bs)) s (fun t => Mem.read t.mem pa bs.length = bs ∧ (∀ a, a < pa ∨ pa + bs.length ≤ a → Mem.get t.mem a = Mem.get s.mem a) ∧
      t.teams = s.teams ∧ t.regs = s.regs)) ∧
  (∀ s val, s.mgmt.started = true → (s.everAccepted = false → Answers (.featdrvWrite val) s (fun t => t.ge 0x20050 = (val.toNat % 256 &&& s.ge 0x20048) ∧ t.mem = s.mem)) ∧
    (s.everAccepted = true → Answers (.featdrvWrite val) s (fun t => t = s))) ∧
  (∀ (s : State) n, n < 4096 → Config.contract? n = none → s.hostRead (ctBase + 16 * n) = 0 ∧ s.hostRead (ctBase + 16 * n + 8) = 0) ∧
  (∀ (s : State) c, c ∈ Config.catalogue → let lo := s.hostRead (ctBase + 16 * c.num)
    let hi := s.hostRead (ctBase + 16 * c.num + 8)
    bits hi 63 52 = c.num ∧ bits hi 51 44 = 0 ∧ bits hi 43 40 = c.pexp ∧ bits hi 39 32 = c.pfrac ∧ bits hi 28 24 = c.prom ∧ bits hi 23 16 = c.align ∧
      bits hi 15 13 = c.groupLog ∧ bitAt hi 12 = c.tree ∧ bitAt hi 11 = c.subnRes ∧ bitAt hi 10 = c.subnProd ∧ bitAt hi 9 = c.subnIn ∧ bitAt hi 8 = c.gr ∧
      RMode.ofCode .rne (bits hi 7 5) = c.rim ∧ RMode.ofCode .rne (bits hi 4 2) = c.rfm ∧ bits hi 1 0 = c.ftab ∧ bitAt lo 63 = c.nan ∧ bits lo 62 59 = c.srv ∧
      lo % 2 ^ 59 = 0) ∧
  (∀ (s : State) n, n < 4096 → let v := s.hostRead (ctBase + 0x10000 + 4 * n) % 2 ^ 32
    v / 64 = 0 ∧ bits v 5 4 = spliceClass n ∧ bits v 1 0 = vectorClass n ∧
      (bits v 3 2 = 0 ↔ ∀ d q, d < 8 → q < 32 → matrixClass (s.quad { die := d, quad := q, core := 0 }) n = 0)) ∧
  (∀ (s : State) d q, d < 8 → q < 32 → s.hostRead (geBase + 0x21000 + 8 * (32 * d + q)) = Quad.mxstat (s.quad { die := d, quad := q, core := 0 })) ∧
  (∀ (s : State) q, (∀ c, s.negotiate q = some c → c ∈ s.candidates q ∧ (q.request = 0 → ∀ x ∈ s.candidates q, x ≤ c) ∧ (q.request ≠ 0 → c = q.request)) ∧
    (s.negotiate q = none → (q.request = 0 → s.candidates q = []) ∧ q.request ∉ s.candidates q ∧ (s.setUp q).mem = s.mem ∧ (s.setUp q).regs = s.regs) ∧
    (∀ c slot, s.negotiate q = some c → q.what = .communicator slot → slot < 256 → s.mgmt.started = true → bits ((s.setUp q).comm slot 8) 11 0 = c))

/-- The management plane (R492 to R495): throttle offers, resets, the firmware image, the life cycle, SPDM. In RETURNED a test image alone
starts; that one and not another is what the loaded image says of itself (the model's form of it, log 81). -/
def Obligations.ManagementPlaneEvents : Prop :=
  let offer (i : Throttle → Instr) : Prop := ∀ s p, let b : Bubble := { plog := p.plog.toNat, bcnt := p.bcnt.toNat, estart := p.estart.toNat }
    let good := (8 ≤ b.plog ∧ b.plog ≤ 16 ∧ b.bcnt < 2 ^ b.plog) ∧ ∀ d, d < 8 → s.cyc d + 2 ^ 16 ≤ b.estart
    s.mgmt.started = true → (good → Answers (i p) s (fun t => (∀ d, d < 8 → (t.die d).pending = (s.die d).pending ++ [b]) ∧ t.ge 0x20060 = b.plog * 2 ^ 16 + b.bcnt ∧
      t.ge 0x20068 = b.estart ∧ t.mem = s.mem)) ∧
    (¬ good → Answers (i p) s (fun t => t = s.tell .throttleRefused))
  let blank (s t : State) : Prop := t.teams = [] ∧ t.tasks = [] ∧ t.ctxs = [] ∧ t.cores = [] ∧ t.dies = State.reset.dies ∧ t.subs = [] ∧ t.regs = State.reset.regs ∧
    t.mem = s.mem.filter (fun p => decide (2 ^ 47 ≤ p.1)) ∧ t.pkgId = s.pkgId ∧ t.mgmt.started = false ∧ t.mgmt.session = 0 ∧ t.mgmt.keys = []
  let moves (i : Instr) (life : LifeCycle) (ok : LifeCycle → Bool) : Prop := ∀ s,
    (ok s.mgmt.life = true → Answers i s (fun t => blank s t ∧ t.mgmt.life = life ∧ (t.mgmt.identity = true ↔ life ≠ .returned))) ∧
    (ok s.mgmt.life = false → Answers i s (fun t => t = s))
  let responds (i : Instr) (n : Nat) : Prop := ∀ s, Answers i s (fun t => t.mem = s.mem ∧ t.teams = s.teams ∧ t.mgmt.life = s.mgmt.life ∧
    t.mgmt.responses = s.mgmt.responses ++ [(n, if n = 6 then s.mgmt.measurement else Config.spdmPayload n s.mgmt.responses.length)])
  offer .throttleOffer ∧ (∀ die, offer (.throttleTemperature die)) ∧
  (∀ s, Answers .packageReset s (fun t => blank s t ∧ t.mgmt.life = s.mgmt.life)) ∧
  (∀ s die, Answers (.criticalTemperature die) s (fun t => blank s t ∧ t.mgmt.reports = s.mgmt.reports ++ [.critical die])) ∧
  (∀ s f, s.mgmt.started = false → Answers (.firmwareLoad f) s (fun t => t.mgmt.measurement = f.measurement ∧ t.mem = s.mem ∧
    let runs := f.signatureOk = true ∧ s.mgmt.life ≠ .blank ∧ (s.mgmt.life = .returned → f.test = true)
    (runs → t.mgmt.started = true ∧ t.ge 0x20048 = f.features.toNat % 256) ∧ (¬ runs → t.mgmt.started = false ∧ t.regs = s.regs))) ∧
  (∀ s f, s.mgmt.started = true → Answers (.firmwareLoad f) s (fun t => t = s)) ∧
  moves .toProvisioned .provisioned (fun l => l == .blank) ∧ moves .toDeployed .deployed (fun l => l == .provisioned) ∧
  moves .toReturned .returned (fun l => l == .provisioned || l == .deployed) ∧
  responds .getVersion 0 ∧ responds .getCapabilities 1 ∧ responds .negotiateAlgorithms 2 ∧ responds .getDigests 3 ∧ responds .getCertificate 4 ∧ responds .challenge 5 ∧
  responds .getMeasurements 6 ∧ responds .keyExchange 7 ∧ responds .finish 8 ∧ responds .keyUpdate 9 ∧
  (∀ s, Answers .keyExchange s (fun t => t.mgmt.session ≠ 0)) ∧
  (∀ s, s.mgmt.session ≠ 0 → Answers .finish s (fun t => t.mgmt.keys = s.mgmt.keys ++ [s.mgmt.session] ∧ t.mgmt.session = 0))

/-! ## The machine as a whole -/

/-- Values of the integer instructions (R199, R203, R207, R208, R210): without saturation an element of a sum or difference is
that of the elements modulo 2^w, with saturation it is the exact value clamped to the type; a shift by s gives a · 2^s modulo
2^w, or the floor of a / 2^s, for every s; a rotation left then right by the same amount, and BREV twice, change nothing. -/
def Obligations.IntegerResultsAsNumbers : Prop :=
  (∀ t sub a b i, t ∈ List.range' 1 12 → i < tyCount t → let w := tyBits t
    elemOf w (addSub t sub false a b) i = (elemOf w a i + (if sub then 2 ^ w - elemOf w b i else elemOf w b i)) % 2 ^ w) ∧
  (∀ t sub a b i, t ∈ List.range' 5 8 → i < tyCount t → let w := tyBits t
    let lo : Int := if t ≤ 8 then -(2 ^ (w - 1)) else 0
    let hi : Int := if t ≤ 8 then 2 ^ (w - 1) - 1 else 2 ^ w - 1
    let x := valTy t (elemOf w a i)
    let y := valTy t (elemOf w b i)
    valTy t (elemOf w (addSub t sub true a b) i) = max lo (min hi (if sub then x - y else x + y))) ∧
  (∀ t a b i, t ∈ [1, 2, 3, 4] → i < tyCount t → let w := tyBits t
    let s := if tyCount t = 1 then b else elemOf w b i
    elemOf w (shift .shl t a b) i = elemOf w a i * 2 ^ s % 2 ^ w ∧
    (a < 2 ^ (w * tyCount t) → elemOf w (shift .shr t a b) i = elemOf w a i / 2 ^ s)) ∧
  (∀ t a b i, t ∈ [5, 6, 7, 8] → i < tyCount t → let w := tyBits t
    let s := if tyCount t = 1 then b else elemOf w b i
    valTy t (elemOf w (shift .sar t a b) i) = valTy t (elemOf w a i) / (2 ^ s : Nat)) ∧
  (∀ w a b, w = 32 ∨ w = 64 → a < 2 ^ w → rotate true w (rotate false w a b) b = a) ∧
  (∀ w a, w = 32 ∨ w = 64 → a < 2 ^ w → brev w (brev w a) = a)

/-- An access reads what it wrote, and changes nothing else: bytes at their home (R9, R274), a masked line (R286), a
scratchpad. Each keeps the canonical form of memory. -/
def Obligations.ReadsSeeWrites : Prop :=
  (∀ s pa bs, MemInv s → MemInv (s.homeWrite pa bs) ∧ (s.homeWrite pa bs).homeRead pa bs.length = bs ∧
    (∀ a, a < pa ∨ pa + bs.length ≤ a → Mem.get (s.homeWrite pa bs).mem a = Mem.get s.mem a) ∧
    (s.homeWrite pa bs).teams = s.teams ∧ (s.homeWrite pa bs).regs = s.regs) ∧
  (∀ s d line data mask, MemInv s → let t := s.maskedWrite d line data mask
    MemInv t ∧ t.cores = s.cores ∧ t.teams = s.teams ∧
    (∀ i, i < 128 → Mem.get t.mem (128 * line + i) = if mask.getLsbD i then data.extractLsb' (8 * i) 8 else Mem.get s.mem (128 * line + i)) ∧
    ∀ a, a / 128 ≠ line → Mem.get t.mem a = Mem.get s.mem a) ∧
  (∀ (s : State) u tm off bs, s.team u = some tm → tm.scratch.wf = true → let t := s.scrWrite u off bs
    t.scrRead u off bs.length = bs ∧ t.mem = s.mem ∧ ∃ tm', t.team u = some tm' ∧ tm'.scratch.wf = true ∧ tm' = { tm with scratch := tm'.scratch, hid := tm'.hid, scrBad := tm'.scrBad } ∧
      (∀ b, b ∈ tm'.scrBad ↔ b ∈ tm.scrBad ∧ ¬ (off ≤ b ∧ b < off + bs.length)) ∧
      ∀ a, a < off ∨ off + bs.length ≤ a → Mem.get tm'.scratch a = Mem.get tm.scratch a) ∧
  (∀ s c l, MemInv s → MemInv (s.l1Back c l) ∧ MemInv (s.l1Drop c l) ∧ MemInv (s.l1BackAll c))

/-- A well-formed instruction's bytes decode to it, whatever the values of its operands, and no two words mean the same
instruction: the words decoded are those that the encoder gives (R132 to R136, R149 to R151). -/
def Obligations.DecodeInvertsEncode : Prop :=
  (∀ i, WellFormed i = true → i.raw.isSome = true → decodeBytes (encodeBytes i) = .ok i) ∧
  ∀ ws i, decodeWords ws = .ok i → i.raw.isSome = true ∧ encode i = ws.take (encode i).length

/-- Words written out from the encodings (R133 to R135, R149, R150) with what they stand for. -/
def Obligations.WordsDecodeAsWritten : Prop :=
  let z : BitVec 7 := 0
  decodeWords [0x00000000] = .ok (.nop { d := z, a := z, b := z, la := false, lb := false }) ∧
  -- LAUNCH v0, v2^
  decodeWords [0x3E000402] = .ok (.launch { d := 0, a := 2, b := 0, la := true, lb := false }) ∧
  -- NWAIT v4, v0^ and NWAIT.t v4, v0
  decodeWords [0x3E840002] = .ok (.nwait { d := 4, a := 0, b := 0, la := true, lb := false }) ∧
  decodeWords [0x3E840004] = .ok (.nwaitT { d := 4, a := 0, b := 1, la := false, lb := false }) ∧
  -- TRIGGER
  decodeWords [0x0A000000] = .ok (.trigger { d := z, a := z, b := z, la := false, lb := false }) ∧
  -- an unassigned OP, a truncated instruction
  decodeWords [0x0B800000] = .error .unassigned ∧ decodeWords [0x4A000000, 0x00002000] = .error .truncated

/-- A step whose input gives an agent its turn runs the instruction that its PC reads (R151, R174, R177, R178): the slice
alone offered, outside a bubble, with no trap due, ready for it, and no other overdue slice or context of its die; or the
context that its sequencer serves next, ready for it. The words are those at the PC, as the core's instruction cache holds them for the
task, or the task's own image of memory (R153); the cache then holds them, and nothing else changes. Around exec the step lets a cycle of the
die pass and its register entries be handed out, moves the pipe's pointer past the slice's home gang, names the agent, and afterwards counts
the issue (the passing of cycles is the model's choice, log 32; the image of a task, log 29). -/
def Obligations.StepRunsDecodedInstruction : Prop :=
  (∀ s rest u j tm ins r, s.inbox = .issue (.gang u [j]) :: rest → let s0 : State := { s with inbox := rest }
    let c := tm.core
    let x : Seat := { team := u, age := tm.age, slice := j }
    let s1 := (s0.prepare [x]).allocPass c
    let s2 := s1.movePtr c (pipeOf r.op) x
    s.mgmt.started = true → s0.team u = some tm → (s0.die c.die).inBubble = false → s0.pressed c.die = false → s0.offered c u [j] = [x] →
    s0.dueTrap u j = none → (s1.seats c).filter (fun y => y == x) = [x] → (∀ y ∈ s1.overdue c, y = x) → s1.opAt x = some r.op →
    s1.fetch (.slice u j) = .ok ins r → crossLane r.op = false → s1.wouldIssue u j = true →
    step s = andThen (s2.run ins (.gang u [j])) (fun t => .next (t.pass c.die 1 [(c, if s2.issuedNow t u j then 1 else 0)]))) ∧
  (∀ s rest m c ins r, s.inbox = .issue (.ctx m c) :: rest → let s0 : State := { s with inbox := rest }
    let k := ctxKey c m
    s.mgmt.started = true → c.ok = true → (s0.die c.die).inBubble = false → s0.pressed c.die = false → s0.ctxNext m c = c → (s0.ctx k).run = .running →
    (s0.ctx k).pend = [] → (s0.ctx k).yieldEnd ≤ s0.cyc c.die → s0.fetch (.ctx k) = .ok ins r → s0.ctxReady k r = true →
    step s = andThen (s0.run ins (.ctx m c)) (fun t => .next (t.pass c.die 1 []))) ∧
  (∀ (s : State) a w0 ws ins r, s.pcOf a % 4 = 0 → s.fetchWords a (s.pcOf a) 1 = .ok w0 → s.fetchWords a (s.pcOf a + 4) ((lenOf (w0.getD 0 0)).words - 1) = .ok ws →
    decodeWords (w0 ++ ws) = .ok ins → ins.raw = some r → s.fetch a = .ok ins r) ∧
  (∀ (s : State) c n pa cache, s.codeWord c n pa cache = (match (if cache = 2 then none else mget (s.core c).icache (codeKey n pa)) with
    | some w => w
    | none => BitVec.ofNat 32 (ofBytes (match s.task n with
      | some k => Mem.read k.image pa 4
      | none => s.homeRead pa 4)))) ∧
  (∀ (s : State) ins a, s.withCode ins a = { s with cores := (s.withCode ins a).cores } ∧
    ∀ c : CoreId, { (s.withCode ins a).core c with icache := (s.core c).icache } = s.core c ∧
      ∀ n pa cache, pa < 2 ^ 52 → (s.withCode ins a).codeWord c n pa cache = s.codeWord c n pa cache) ∧
  (∀ (s : State) ins a f, exec ins { s.withCode ins a with cur := a } = .fault f → s.run ins a = .fault f) ∧
  (∀ (s : State) ins a t, exec ins { s.withCode ins a with cur := a } = .next t → s.run ins a = .next ((s.withCode ins a).counted a ins t)) ∧
  (∀ (s t : State) ins r u j x, ins.raw = some r → t.slice u j = some x → let v := s.counted (.gang u [j]) ins t
    let since := (s.die (s.dieOf (.gang u [j]))).open_ + 1
    v.mem = t.mem ∧ v.cur = .idle ∧ v.slice u j = some { x with
      readySince := since
      grant := x.grant && x.wait != .none
      starved := x.starved && x.wait != .none
      due := if x.wait = .none then 0 else x.due
      icount := if s.issuedNow t u j then x.icount + 1 else x.icount
      issued := if s.issuedNow t u j then some (s.cyc (s.dieOf (.gang u [j])), (s.sl u j).pc) else x.issued })

/-- What reset leaves (R5, R67, R106, R125, R282, R324, R397, R490, R494): no task, no team, no context that runs or holds a register, tile or
accumulator, no line, no translation, nothing in flight in the fabric; the counters, stamps and registers at the values the spec gives, and
every other register of the graph engine, fabric and translation regions 0. The model's choices: FEATDEV, whose reset value is the firmware's,
is 0 (log 5), and so is what a context holds at package reset (log 6). -/
def Obligations.ResetLeavesNothing : Prop :=
  let s := State.reset
  s.teams = [] ∧ s.tasks = [] ∧ s.subs = [] ∧ s.serial = 1 ∧ s.everAccepted = false ∧ s.hostCalls = [] ∧ s.mops = [] ∧ s.copies = [] ∧ s.owed = [] ∧
  s.inval = none ∧ s.poison = [] ∧ s.hid = [] ∧ s.ioCyc = 0 ∧ s.geXf = [] ∧
  s.hitches = [] ∧ s.contribs = [] ∧ s.splices = [] ∧ s.spliceSeen = [] ∧ s.forming = [] ∧ s.flying = [] ∧
  s.flows = [] ∧ s.toSend = [] ∧ s.ready = [] ∧ s.sent = [] ∧ s.frames = [] ∧ s.rx = [] ∧ s.slots = [] ∧ s.packets = [] ∧
  (∀ l, l < 36 → s.nodeUp l = false ∧ s.nodeAtt l = false) ∧
  (∀ k, (s.ctx k).run ≠ .running ∧ (s.ctx k).holder = none ∧ (s.ctx k).regs = [] ∧ (s.ctx k).region = [] ∧ (s.ctx k).flight = none ∧
    (∀ n, (s.ctx k).tile n = {}) ∧ (∀ n, (s.ctx k).acc n = {}) ∧ (s.ctx k).codebook = 0) ∧
  (∀ c, (s.core c).l1 = [] ∧ (s.core c).icache = [] ∧ (s.core c).tlb = [] ∧ (s.core c).wc = [] ∧ (s.core c).acq = 0 ∧ (s.core c).fenced = false) ∧
  (∀ c, (s.quad c).tlb = [] ∧ (s.quad c).fenced = 0) ∧
  (∀ d, (s.die d).epoch = 1 ∧ (s.die d).rdc = [] ∧ (s.die d).cyc = 0 ∧ (s.die d).faults = [] ∧ (s.die d).walks = [] ∧ (s.die d).bubble = none ∧ (s.die d).errors = []) ∧
  (∀ off, s.ge off = if off = 0x20040 then 0x400 * 2 ^ 16 else if off = 0x20080 then 0x1000 * 2 ^ 16 else if off = 0x34200 then 0x10000 else 0) ∧
  (∀ off, off < 0x9000 → s.tc off = 0)

/-- Memory is in its canonical form at reset, where it lists nothing. -/
def Obligations.ResetMemoryCanonical : Prop := State.reset.mem = [] ∧ MemInv State.reset

/-- Every step keeps the canonical form of memory. -/
def Obligations.StepKeepsMemoryCanonical : Prop := ∀ s t, MemInv s → step s = .next t → MemInv t
end

