-- ==== Sys2Proof/Laws/Maps.lean ====
section
/-!
SUPPORT. Laws of association lists, of lane positions, and of folding state changes over a list.
-/
namespace Sys2Proof.Machine

/-! ## Maps -/

@[simp] theorem mget_nil {α : Type} (k : Nat) : mget ([] : Map α) k = none := rfl

theorem mget_mset {α : Type} (m : Map α) (k : Nat) (v : α) (k' : Nat) :
    mget (mset m k v) k' = if k = k' then some v else mget m k' := by
  induction m with
  | nil => simp [mset, mget]
  | cons p m ih =>
    obtain ⟨a, b⟩ := p
    simp only [mset]
    split
    · next h => subst h; simp only [mget]; split <;> simp_all
    · next h =>
      split
      · simp [mget]
      · simp only [mget, ih]
        split
        · next h2 => subst h2; split <;> simp_all
        · rfl

theorem mget_mupd {α : Type} (m : Map α) (k : Nat) (f : α → α) (k' : Nat) :
    mget (mupd m k f) k' = if k = k' then (mget m k').map f else mget m k' := by
  induction m with
  | nil => simp [mupd]
  | cons p m ih =>
    obtain ⟨a, b⟩ := p
    simp only [mupd, List.map_cons, mget]
    unfold mupd at ih
    by_cases ha : a = k'
    · by_cases hk : k = k'
      · simp [ha, hk]
      · have : ¬ a = k := by omega
        simp_all
    · by_cases hk : a = k
      · have : ¬ k = k' := by omega
        simp_all
      · simp_all

theorem mget_mdel {α : Type} (m : Map α) (k k' : Nat) :
    mget (mdel m k) k' = if k = k' then none else mget m k' := by
  induction m with
  | nil => simp [mdel]
  | cons p m ih =>
    obtain ⟨a, b⟩ := p
    unfold mdel at ih
    by_cases ha : a = k
    · simp only [mdel, List.filter_cons, ha, bne_self_eq_false, Bool.false_eq_true, if_false, ih, mget]
      split <;> rfl
    · have : (a != k) = true := by simpa using ha
      simp only [mdel, List.filter_cons, this, if_true, mget]
      split
      · next h => subst h; rw [if_neg]; omega
      · exact ih

@[simp] theorem mget_mset_self {α : Type} (m : Map α) (k : Nat) (v : α) : mget (mset m k v) k = some v := by
  simp [mget_mset]

theorem mupd_keys {α : Type} (m : Map α) (k : Nat) (f : α → α) : (mupd m k f).map (·.1) = m.map (·.1) := by
  simp only [mupd, List.map_map]
  congr 1
  funext p
  simp only [Function.comp]
  split <;> rfl

theorem mget_filter {α : Type} (m : Map α) (q : Nat → Bool) (k : Nat) :
    mget (m.filter (fun p => q p.1)) k = if q k then mget m k else none := by
  induction m with
  | nil => simp
  | cons p m ih =>
    obtain ⟨a, b⟩ := p
    cases h : q a with
    | true =>
      simp only [List.filter_cons, h, if_true, mget]
      split
      · next e => subst e; simp [h]
      · exact ih
    | false =>
      simp only [List.filter_cons, h, Bool.false_eq_true, if_false, mget]
      rw [ih]
      by_cases e : a = k
      · subst e; simp [h]
      · simp [e]

/-! ## Lane positions -/

theorem four_ofFn_get {α : Type} (f : Nat → α) (i : Nat) (h : i < 4) : (Four.ofFn f).get i = f i := by
  match i, h with
  | 0, _ => rfl
  | 1, _ => rfl
  | 2, _ => rfl
  | 3, _ => rfl

theorem four_upd_get {α : Type} (x : Four α) (m : Mask) (f : Nat → α) (i : Nat) (h : i < 4) :
    (x.upd m f).get i = if m.getLsbD i then f i else x.get i := by
  simp only [Four.upd]
  exact four_ofFn_get _ i h

theorem mask_zero_lane (i : Nat) : (0 : Mask).getLsbD i = false := by simp

/-! ## Folds -/

@[simp] theorem foldS_nil {α : Type} (f : α → State → State) (s : State) : foldS f [] s = s := rfl
@[simp] theorem foldS_cons {α : Type} (f : α → State → State) (a : α) (as : List α) (s : State) :
    foldS f (a :: as) s = foldS f as (f a s) := rfl

/-- What every change of a fold keeps, the fold keeps. -/
theorem foldS_keeps {α : Type} (P : State → Prop) (f : α → State → State) (h : ∀ a s, P s → P (f a s)) :
    ∀ (as : List α) (s : State), P s → P (foldS f as s)
  | [], _, hs => hs
  | a :: as, s, hs => foldS_keeps P f h as (f a s) (h a s hs)

/-- A fold changes a component only at the elements that change it. -/
theorem foldS_same {α β : Type} (g : State → β) (f : α → State → State) :
    ∀ (as : List α), (∀ a ∈ as, ∀ s, g (f a s) = g s) → ∀ s, g (foldS f as s) = g s
  | [], _, _ => rfl
  | a :: as, h, s => by
    rw [foldS_cons, foldS_same g f as (fun b hb => h b (List.mem_cons_of_mem a hb)), h a List.mem_cons_self]

end Sys2Proof.Machine
end

