-- ==== Sys2Proof/Laws/Code.lean ====
section
/-!
SUPPORT. Laws of the instruction cache (R153).
-/
namespace Sys2Proof.Machine

/-- What filling an instruction cache may change: nothing but the icache of cores, and no word fetched. -/
def SameButCode (s t : State) : Prop :=
  t = { s with cores := t.cores } ∧ ∀ c : CoreId, { t.core c with icache := (s.core c).icache } = s.core c ∧ ∀ task pa cache, pa < 2 ^ 52 → t.codeWord c task pa cache = s.codeWord c task pa cache

theorem SameButCode.refl (s : State) : SameButCode s s := ⟨rfl, fun _ => ⟨rfl, fun _ _ _ _ => rfl⟩⟩

theorem SameButCode.trans {s t v : State} (h : SameButCode s t) (g : SameButCode t v) : SameButCode s v := by
  obtain ⟨h1, h2⟩ := h
  obtain ⟨g1, g2⟩ := g
  refine ⟨?_, fun c => ⟨?_, fun h pa k l => ((g2 c).2 h pa k l).trans ((h2 c).2 h pa k l)⟩⟩
  · rw [g1, h1]
  · have a := (h2 c).1
    have b := (g2 c).1
    rw [← b] at a
    simpa using a

theorem codeFill_same (s : State) (c : CoreId) (task pa : Nat) : SameButCode s (s.codeFill c task pa) := by
  unfold State.codeFill
  split
  · rename_i hp
    have hb : pa < 2 ^ 52 := by
      simp only [inHbm, Bool.and_eq_true] at hp
      have h1 := hp.1
      unfold hbmDie at h1
      split at h1
      · omega
      · cases h1
    refine ⟨rfl, fun d => ⟨?_, fun h q cache hq => ?_⟩⟩
    · simp only [State.core, State.modCore, mget_mset]
      by_cases e : c.key = d.key
      · simp [e]
      · simp [e]
    · simp only [State.codeWord, State.codeHome, State.task, State.core, State.modCore, mget_mset, State.homeRead]
      by_cases z : cache = 2
      · simp [z]
      by_cases e : c.key = d.key
      · by_cases k : codeKey task pa = codeKey h q
        · have : task = h ∧ pa = q := by
            simp only [codeKey] at k
            omega
          obtain ⟨rfl, rfl⟩ := this
          simp [e, z]
        · simp [e, k, z, mget_mset]
      · simp [e, z]
  · exact .refl s

theorem codeHeld_same (a : Issuer) (n : Nat) : ∀ (s : State) (va : Nat), SameButCode s (s.codeHeld a va n) := by
  induction n with
  | zero => intro s va; exact .refl s
  | succ n ih =>
    intro s va
    simp only [State.codeHeld]
    split
    · refine SameButCode.trans ?_ (ih _ _)
      split
      · exact .refl s
      · exact codeFill_same s _ _ _
    · exact .refl s

theorem withCode_same (s : State) (i : Instr) (a : Agent) : SameButCode s (s.withCode i a) := by
  unfold State.withCode
  split
  · exact codeHeld_same _ _ _ _
  · exact codeHeld_same _ _ _ _
  · exact .refl s

end Sys2Proof.Machine
end

