-- ==== Sys2Proof/Laws/State.lean ====
section
/-!
SUPPORT. What each plain update of the state leaves alone: one lemma per field per update, true by unfolding.
-/
namespace Sys2Proof.Machine

/-! ## State.setTeam -/

@[simp] theorem State.setTeam_mem (s : State) (u : Nat) (t : Team) : (s.setTeam u t).mem = s.mem := rfl
@[simp] theorem State.setTeam_ctxs (s : State) (u : Nat) (t : Team) : (s.setTeam u t).ctxs = s.ctxs := rfl
@[simp] theorem State.setTeam_cores (s : State) (u : Nat) (t : Team) : (s.setTeam u t).cores = s.cores := rfl
@[simp] theorem State.setTeam_quads (s : State) (u : Nat) (t : Team) : (s.setTeam u t).quads = s.quads := rfl
@[simp] theorem State.setTeam_dies (s : State) (u : Nat) (t : Team) : (s.setTeam u t).dies = s.dies := rfl
@[simp] theorem State.setTeam_mops (s : State) (u : Nat) (t : Team) : (s.setTeam u t).mops = s.mops := rfl
@[simp] theorem State.setTeam_copies (s : State) (u : Nat) (t : Team) : (s.setTeam u t).copies = s.copies := rfl
@[simp] theorem State.setTeam_tasks (s : State) (u : Nat) (t : Team) : (s.setTeam u t).tasks = s.tasks := rfl
@[simp] theorem State.setTeam_subs (s : State) (u : Nat) (t : Team) : (s.setTeam u t).subs = s.subs := rfl
@[simp] theorem State.setTeam_serial (s : State) (u : Nat) (t : Team) : (s.setTeam u t).serial = s.serial := rfl
@[simp] theorem State.setTeam_everAccepted (s : State) (u : Nat) (t : Team) : (s.setTeam u t).everAccepted = s.everAccepted := rfl
@[simp] theorem State.setTeam_hostCalls (s : State) (u : Nat) (t : Team) : (s.setTeam u t).hostCalls = s.hostCalls := rfl
@[simp] theorem State.setTeam_packets (s : State) (u : Nat) (t : Team) : (s.setTeam u t).packets = s.packets := rfl
@[simp] theorem State.setTeam_passDue (s : State) (u : Nat) (t : Team) : (s.setTeam u t).passDue = s.passDue := rfl
@[simp] theorem State.setTeam_regs (s : State) (u : Nat) (t : Team) : (s.setTeam u t).regs = s.regs := rfl
@[simp] theorem State.setTeam_geXf (s : State) (u : Nat) (t : Team) : (s.setTeam u t).geXf = s.geXf := rfl
@[simp] theorem State.setTeam_pkgId (s : State) (u : Nat) (t : Team) : (s.setTeam u t).pkgId = s.pkgId := rfl
@[simp] theorem State.setTeam_ioCyc (s : State) (u : Nat) (t : Team) : (s.setTeam u t).ioCyc = s.ioCyc := rfl
@[simp] theorem State.setTeam_inval (s : State) (u : Nat) (t : Team) : (s.setTeam u t).inval = s.inval := rfl
@[simp] theorem State.setTeam_poison (s : State) (u : Nat) (t : Team) : (s.setTeam u t).poison = s.poison := rfl
@[simp] theorem State.setTeam_outbox (s : State) (u : Nat) (t : Team) : (s.setTeam u t).outbox = s.outbox := rfl
@[simp] theorem State.setTeam_splices (s : State) (u : Nat) (t : Team) : (s.setTeam u t).splices = s.splices := rfl
@[simp] theorem State.setTeam_spliceSeen (s : State) (u : Nat) (t : Team) : (s.setTeam u t).spliceSeen = s.spliceSeen := rfl
@[simp] theorem State.setTeam_forming (s : State) (u : Nat) (t : Team) : (s.setTeam u t).forming = s.forming := rfl
@[simp] theorem State.setTeam_flying (s : State) (u : Nat) (t : Team) : (s.setTeam u t).flying = s.flying := rfl
@[simp] theorem State.setTeam_flows (s : State) (u : Nat) (t : Team) : (s.setTeam u t).flows = s.flows := rfl
@[simp] theorem State.setTeam_rx (s : State) (u : Nat) (t : Team) : (s.setTeam u t).rx = s.rx := rfl
@[simp] theorem State.setTeam_hitches (s : State) (u : Nat) (t : Team) : (s.setTeam u t).hitches = s.hitches := rfl
@[simp] theorem State.setTeam_contribs (s : State) (u : Nat) (t : Team) : (s.setTeam u t).contribs = s.contribs := rfl
@[simp] theorem State.setTeam_faultSignals (s : State) (u : Nat) (t : Team) : (s.setTeam u t).faultSignals = s.faultSignals := rfl
@[simp] theorem State.setTeam_invalOp (s : State) (u : Nat) (t : Team) : (s.setTeam u t).invalOp = s.invalOp := rfl
@[simp] theorem State.setTeam_invalCtxs (s : State) (u : Nat) (t : Team) : (s.setTeam u t).invalCtxs = s.invalCtxs := rfl
@[simp] theorem State.setTeam_ready (s : State) (u : Nat) (t : Team) : (s.setTeam u t).ready = s.ready := rfl
@[simp] theorem State.setTeam_frames (s : State) (u : Nat) (t : Team) : (s.setTeam u t).frames = s.frames := rfl
@[simp] theorem State.setTeam_owed (s : State) (u : Nat) (t : Team) : (s.setTeam u t).owed = s.owed := rfl
@[simp] theorem State.setTeam_hid (s : State) (u : Nat) (t : Team) : (s.setTeam u t).hid = s.hid := rfl
@[simp] theorem State.setTeam_slots (s : State) (u : Nat) (t : Team) : (s.setTeam u t).slots = s.slots := rfl
@[simp] theorem State.setTeam_signals (s : State) (u : Nat) (t : Team) : (s.setTeam u t).signals = s.signals := rfl
@[simp] theorem State.setTeam_toSend (s : State) (u : Nat) (t : Team) : (s.setTeam u t).toSend = s.toSend := rfl
@[simp] theorem State.setTeam_sent (s : State) (u : Nat) (t : Team) : (s.setTeam u t).sent = s.sent := rfl
@[simp] theorem State.setTeam_nodeKeys (s : State) (u : Nat) (t : Team) : (s.setTeam u t).nodeKeys = s.nodeKeys := rfl
@[simp] theorem State.setTeam_nodeClasses (s : State) (u : Nat) (t : Team) : (s.setTeam u t).nodeClasses = s.nodeClasses := rfl
@[simp] theorem State.setTeam_farOff (s : State) (u : Nat) (t : Team) : (s.setTeam u t).farOff = s.farOff := rfl
@[simp] theorem State.setTeam_setUps (s : State) (u : Nat) (t : Team) : (s.setTeam u t).setUps = s.setUps := rfl
@[simp] theorem State.setTeam_mgmt (s : State) (u : Nat) (t : Team) : (s.setTeam u t).mgmt = s.mgmt := rfl
@[simp] theorem State.setTeam_inbox (s : State) (u : Nat) (t : Team) : (s.setTeam u t).inbox = s.inbox := rfl
@[simp] theorem State.setTeam_cur (s : State) (u : Nat) (t : Team) : (s.setTeam u t).cur = s.cur := rfl
@[simp] theorem State.setTeam_nextId (s : State) (u : Nat) (t : Team) : (s.setTeam u t).nextId = s.nextId := rfl
@[simp] theorem State.setTeam_opens (s : State) (u : Nat) (t : Team) : (s.setTeam u t).opens = s.opens := rfl
@[simp] theorem State.setTeam_nextAge (s : State) (u : Nat) (t : Team) : (s.setTeam u t).nextAge = s.nextAge := rfl
@[simp] theorem State.setTeam_rotor (s : State) (u : Nat) (t : Team) : (s.setTeam u t).rotor = s.rotor := rfl

/-! ## State.modTeam -/

@[simp] theorem State.modTeam_mem (s : State) (u : Nat) (f : Team → Team) : (s.modTeam u f).mem = s.mem := rfl
@[simp] theorem State.modTeam_ctxs (s : State) (u : Nat) (f : Team → Team) : (s.modTeam u f).ctxs = s.ctxs := rfl
@[simp] theorem State.modTeam_cores (s : State) (u : Nat) (f : Team → Team) : (s.modTeam u f).cores = s.cores := rfl
@[simp] theorem State.modTeam_quads (s : State) (u : Nat) (f : Team → Team) : (s.modTeam u f).quads = s.quads := rfl
@[simp] theorem State.modTeam_dies (s : State) (u : Nat) (f : Team → Team) : (s.modTeam u f).dies = s.dies := rfl
@[simp] theorem State.modTeam_mops (s : State) (u : Nat) (f : Team → Team) : (s.modTeam u f).mops = s.mops := rfl
@[simp] theorem State.modTeam_copies (s : State) (u : Nat) (f : Team → Team) : (s.modTeam u f).copies = s.copies := rfl
@[simp] theorem State.modTeam_tasks (s : State) (u : Nat) (f : Team → Team) : (s.modTeam u f).tasks = s.tasks := rfl
@[simp] theorem State.modTeam_subs (s : State) (u : Nat) (f : Team → Team) : (s.modTeam u f).subs = s.subs := rfl
@[simp] theorem State.modTeam_serial (s : State) (u : Nat) (f : Team → Team) : (s.modTeam u f).serial = s.serial := rfl
@[simp] theorem State.modTeam_everAccepted (s : State) (u : Nat) (f : Team → Team) : (s.modTeam u f).everAccepted = s.everAccepted := rfl
@[simp] theorem State.modTeam_hostCalls (s : State) (u : Nat) (f : Team → Team) : (s.modTeam u f).hostCalls = s.hostCalls := rfl
@[simp] theorem State.modTeam_packets (s : State) (u : Nat) (f : Team → Team) : (s.modTeam u f).packets = s.packets := rfl
@[simp] theorem State.modTeam_passDue (s : State) (u : Nat) (f : Team → Team) : (s.modTeam u f).passDue = s.passDue := rfl
@[simp] theorem State.modTeam_regs (s : State) (u : Nat) (f : Team → Team) : (s.modTeam u f).regs = s.regs := rfl
@[simp] theorem State.modTeam_geXf (s : State) (u : Nat) (f : Team → Team) : (s.modTeam u f).geXf = s.geXf := rfl
@[simp] theorem State.modTeam_pkgId (s : State) (u : Nat) (f : Team → Team) : (s.modTeam u f).pkgId = s.pkgId := rfl
@[simp] theorem State.modTeam_ioCyc (s : State) (u : Nat) (f : Team → Team) : (s.modTeam u f).ioCyc = s.ioCyc := rfl
@[simp] theorem State.modTeam_inval (s : State) (u : Nat) (f : Team → Team) : (s.modTeam u f).inval = s.inval := rfl
@[simp] theorem State.modTeam_poison (s : State) (u : Nat) (f : Team → Team) : (s.modTeam u f).poison = s.poison := rfl
@[simp] theorem State.modTeam_outbox (s : State) (u : Nat) (f : Team → Team) : (s.modTeam u f).outbox = s.outbox := rfl
@[simp] theorem State.modTeam_splices (s : State) (u : Nat) (f : Team → Team) : (s.modTeam u f).splices = s.splices := rfl
@[simp] theorem State.modTeam_spliceSeen (s : State) (u : Nat) (f : Team → Team) : (s.modTeam u f).spliceSeen = s.spliceSeen := rfl
@[simp] theorem State.modTeam_forming (s : State) (u : Nat) (f : Team → Team) : (s.modTeam u f).forming = s.forming := rfl
@[simp] theorem State.modTeam_flying (s : State) (u : Nat) (f : Team → Team) : (s.modTeam u f).flying = s.flying := rfl
@[simp] theorem State.modTeam_flows (s : State) (u : Nat) (f : Team → Team) : (s.modTeam u f).flows = s.flows := rfl
@[simp] theorem State.modTeam_rx (s : State) (u : Nat) (f : Team → Team) : (s.modTeam u f).rx = s.rx := rfl
@[simp] theorem State.modTeam_hitches (s : State) (u : Nat) (f : Team → Team) : (s.modTeam u f).hitches = s.hitches := rfl
@[simp] theorem State.modTeam_contribs (s : State) (u : Nat) (f : Team → Team) : (s.modTeam u f).contribs = s.contribs := rfl
@[simp] theorem State.modTeam_faultSignals (s : State) (u : Nat) (f : Team → Team) : (s.modTeam u f).faultSignals = s.faultSignals := rfl
@[simp] theorem State.modTeam_invalOp (s : State) (u : Nat) (f : Team → Team) : (s.modTeam u f).invalOp = s.invalOp := rfl
@[simp] theorem State.modTeam_invalCtxs (s : State) (u : Nat) (f : Team → Team) : (s.modTeam u f).invalCtxs = s.invalCtxs := rfl
@[simp] theorem State.modTeam_ready (s : State) (u : Nat) (f : Team → Team) : (s.modTeam u f).ready = s.ready := rfl
@[simp] theorem State.modTeam_frames (s : State) (u : Nat) (f : Team → Team) : (s.modTeam u f).frames = s.frames := rfl
@[simp] theorem State.modTeam_owed (s : State) (u : Nat) (f : Team → Team) : (s.modTeam u f).owed = s.owed := rfl
@[simp] theorem State.modTeam_hid (s : State) (u : Nat) (f : Team → Team) : (s.modTeam u f).hid = s.hid := rfl
@[simp] theorem State.modTeam_slots (s : State) (u : Nat) (f : Team → Team) : (s.modTeam u f).slots = s.slots := rfl
@[simp] theorem State.modTeam_signals (s : State) (u : Nat) (f : Team → Team) : (s.modTeam u f).signals = s.signals := rfl
@[simp] theorem State.modTeam_toSend (s : State) (u : Nat) (f : Team → Team) : (s.modTeam u f).toSend = s.toSend := rfl
@[simp] theorem State.modTeam_sent (s : State) (u : Nat) (f : Team → Team) : (s.modTeam u f).sent = s.sent := rfl
@[simp] theorem State.modTeam_nodeKeys (s : State) (u : Nat) (f : Team → Team) : (s.modTeam u f).nodeKeys = s.nodeKeys := rfl
@[simp] theorem State.modTeam_nodeClasses (s : State) (u : Nat) (f : Team → Team) : (s.modTeam u f).nodeClasses = s.nodeClasses := rfl
@[simp] theorem State.modTeam_farOff (s : State) (u : Nat) (f : Team → Team) : (s.modTeam u f).farOff = s.farOff := rfl
@[simp] theorem State.modTeam_setUps (s : State) (u : Nat) (f : Team → Team) : (s.modTeam u f).setUps = s.setUps := rfl
@[simp] theorem State.modTeam_mgmt (s : State) (u : Nat) (f : Team → Team) : (s.modTeam u f).mgmt = s.mgmt := rfl
@[simp] theorem State.modTeam_inbox (s : State) (u : Nat) (f : Team → Team) : (s.modTeam u f).inbox = s.inbox := rfl
@[simp] theorem State.modTeam_cur (s : State) (u : Nat) (f : Team → Team) : (s.modTeam u f).cur = s.cur := rfl
@[simp] theorem State.modTeam_nextId (s : State) (u : Nat) (f : Team → Team) : (s.modTeam u f).nextId = s.nextId := rfl
@[simp] theorem State.modTeam_opens (s : State) (u : Nat) (f : Team → Team) : (s.modTeam u f).opens = s.opens := rfl
@[simp] theorem State.modTeam_nextAge (s : State) (u : Nat) (f : Team → Team) : (s.modTeam u f).nextAge = s.nextAge := rfl
@[simp] theorem State.modTeam_rotor (s : State) (u : Nat) (f : Team → Team) : (s.modTeam u f).rotor = s.rotor := rfl

/-! ## State.modSlice -/

@[simp] theorem State.modSlice_mem (s : State) (u i : Nat) (f : Slice → Slice) : (s.modSlice u i f).mem = s.mem := rfl
@[simp] theorem State.modSlice_ctxs (s : State) (u i : Nat) (f : Slice → Slice) : (s.modSlice u i f).ctxs = s.ctxs := rfl
@[simp] theorem State.modSlice_cores (s : State) (u i : Nat) (f : Slice → Slice) : (s.modSlice u i f).cores = s.cores := rfl
@[simp] theorem State.modSlice_quads (s : State) (u i : Nat) (f : Slice → Slice) : (s.modSlice u i f).quads = s.quads := rfl
@[simp] theorem State.modSlice_dies (s : State) (u i : Nat) (f : Slice → Slice) : (s.modSlice u i f).dies = s.dies := rfl
@[simp] theorem State.modSlice_mops (s : State) (u i : Nat) (f : Slice → Slice) : (s.modSlice u i f).mops = s.mops := rfl
@[simp] theorem State.modSlice_copies (s : State) (u i : Nat) (f : Slice → Slice) : (s.modSlice u i f).copies = s.copies := rfl
@[simp] theorem State.modSlice_tasks (s : State) (u i : Nat) (f : Slice → Slice) : (s.modSlice u i f).tasks = s.tasks := rfl
@[simp] theorem State.modSlice_subs (s : State) (u i : Nat) (f : Slice → Slice) : (s.modSlice u i f).subs = s.subs := rfl
@[simp] theorem State.modSlice_serial (s : State) (u i : Nat) (f : Slice → Slice) : (s.modSlice u i f).serial = s.serial := rfl
@[simp] theorem State.modSlice_everAccepted (s : State) (u i : Nat) (f : Slice → Slice) : (s.modSlice u i f).everAccepted = s.everAccepted := rfl
@[simp] theorem State.modSlice_hostCalls (s : State) (u i : Nat) (f : Slice → Slice) : (s.modSlice u i f).hostCalls = s.hostCalls := rfl
@[simp] theorem State.modSlice_packets (s : State) (u i : Nat) (f : Slice → Slice) : (s.modSlice u i f).packets = s.packets := rfl
@[simp] theorem State.modSlice_passDue (s : State) (u i : Nat) (f : Slice → Slice) : (s.modSlice u i f).passDue = s.passDue := rfl
@[simp] theorem State.modSlice_regs (s : State) (u i : Nat) (f : Slice → Slice) : (s.modSlice u i f).regs = s.regs := rfl
@[simp] theorem State.modSlice_geXf (s : State) (u i : Nat) (f : Slice → Slice) : (s.modSlice u i f).geXf = s.geXf := rfl
@[simp] theorem State.modSlice_pkgId (s : State) (u i : Nat) (f : Slice → Slice) : (s.modSlice u i f).pkgId = s.pkgId := rfl
@[simp] theorem State.modSlice_ioCyc (s : State) (u i : Nat) (f : Slice → Slice) : (s.modSlice u i f).ioCyc = s.ioCyc := rfl
@[simp] theorem State.modSlice_inval (s : State) (u i : Nat) (f : Slice → Slice) : (s.modSlice u i f).inval = s.inval := rfl
@[simp] theorem State.modSlice_poison (s : State) (u i : Nat) (f : Slice → Slice) : (s.modSlice u i f).poison = s.poison := rfl
@[simp] theorem State.modSlice_outbox (s : State) (u i : Nat) (f : Slice → Slice) : (s.modSlice u i f).outbox = s.outbox := rfl
@[simp] theorem State.modSlice_splices (s : State) (u i : Nat) (f : Slice → Slice) : (s.modSlice u i f).splices = s.splices := rfl
@[simp] theorem State.modSlice_spliceSeen (s : State) (u i : Nat) (f : Slice → Slice) : (s.modSlice u i f).spliceSeen = s.spliceSeen := rfl
@[simp] theorem State.modSlice_forming (s : State) (u i : Nat) (f : Slice → Slice) : (s.modSlice u i f).forming = s.forming := rfl
@[simp] theorem State.modSlice_flying (s : State) (u i : Nat) (f : Slice → Slice) : (s.modSlice u i f).flying = s.flying := rfl
@[simp] theorem State.modSlice_flows (s : State) (u i : Nat) (f : Slice → Slice) : (s.modSlice u i f).flows = s.flows := rfl
@[simp] theorem State.modSlice_rx (s : State) (u i : Nat) (f : Slice → Slice) : (s.modSlice u i f).rx = s.rx := rfl
@[simp] theorem State.modSlice_hitches (s : State) (u i : Nat) (f : Slice → Slice) : (s.modSlice u i f).hitches = s.hitches := rfl
@[simp] theorem State.modSlice_contribs (s : State) (u i : Nat) (f : Slice → Slice) : (s.modSlice u i f).contribs = s.contribs := rfl
@[simp] theorem State.modSlice_faultSignals (s : State) (u i : Nat) (f : Slice → Slice) : (s.modSlice u i f).faultSignals = s.faultSignals := rfl
@[simp] theorem State.modSlice_invalOp (s : State) (u i : Nat) (f : Slice → Slice) : (s.modSlice u i f).invalOp = s.invalOp := rfl
@[simp] theorem State.modSlice_invalCtxs (s : State) (u i : Nat) (f : Slice → Slice) : (s.modSlice u i f).invalCtxs = s.invalCtxs := rfl
@[simp] theorem State.modSlice_ready (s : State) (u i : Nat) (f : Slice → Slice) : (s.modSlice u i f).ready = s.ready := rfl
@[simp] theorem State.modSlice_frames (s : State) (u i : Nat) (f : Slice → Slice) : (s.modSlice u i f).frames = s.frames := rfl
@[simp] theorem State.modSlice_owed (s : State) (u i : Nat) (f : Slice → Slice) : (s.modSlice u i f).owed = s.owed := rfl
@[simp] theorem State.modSlice_hid (s : State) (u i : Nat) (f : Slice → Slice) : (s.modSlice u i f).hid = s.hid := rfl
@[simp] theorem State.modSlice_slots (s : State) (u i : Nat) (f : Slice → Slice) : (s.modSlice u i f).slots = s.slots := rfl
@[simp] theorem State.modSlice_signals (s : State) (u i : Nat) (f : Slice → Slice) : (s.modSlice u i f).signals = s.signals := rfl
@[simp] theorem State.modSlice_toSend (s : State) (u i : Nat) (f : Slice → Slice) : (s.modSlice u i f).toSend = s.toSend := rfl
@[simp] theorem State.modSlice_sent (s : State) (u i : Nat) (f : Slice → Slice) : (s.modSlice u i f).sent = s.sent := rfl
@[simp] theorem State.modSlice_nodeKeys (s : State) (u i : Nat) (f : Slice → Slice) : (s.modSlice u i f).nodeKeys = s.nodeKeys := rfl
@[simp] theorem State.modSlice_nodeClasses (s : State) (u i : Nat) (f : Slice → Slice) : (s.modSlice u i f).nodeClasses = s.nodeClasses := rfl
@[simp] theorem State.modSlice_farOff (s : State) (u i : Nat) (f : Slice → Slice) : (s.modSlice u i f).farOff = s.farOff := rfl
@[simp] theorem State.modSlice_setUps (s : State) (u i : Nat) (f : Slice → Slice) : (s.modSlice u i f).setUps = s.setUps := rfl
@[simp] theorem State.modSlice_mgmt (s : State) (u i : Nat) (f : Slice → Slice) : (s.modSlice u i f).mgmt = s.mgmt := rfl
@[simp] theorem State.modSlice_inbox (s : State) (u i : Nat) (f : Slice → Slice) : (s.modSlice u i f).inbox = s.inbox := rfl
@[simp] theorem State.modSlice_cur (s : State) (u i : Nat) (f : Slice → Slice) : (s.modSlice u i f).cur = s.cur := rfl
@[simp] theorem State.modSlice_nextId (s : State) (u i : Nat) (f : Slice → Slice) : (s.modSlice u i f).nextId = s.nextId := rfl
@[simp] theorem State.modSlice_opens (s : State) (u i : Nat) (f : Slice → Slice) : (s.modSlice u i f).opens = s.opens := rfl
@[simp] theorem State.modSlice_nextAge (s : State) (u i : Nat) (f : Slice → Slice) : (s.modSlice u i f).nextAge = s.nextAge := rfl
@[simp] theorem State.modSlice_rotor (s : State) (u i : Nat) (f : Slice → Slice) : (s.modSlice u i f).rotor = s.rotor := rfl

/-! ## State.setCtx -/

@[simp] theorem State.setCtx_mem (s : State) (k : Nat) (x : Ctx) : (s.setCtx k x).mem = s.mem := rfl
@[simp] theorem State.setCtx_teams (s : State) (k : Nat) (x : Ctx) : (s.setCtx k x).teams = s.teams := rfl
@[simp] theorem State.setCtx_cores (s : State) (k : Nat) (x : Ctx) : (s.setCtx k x).cores = s.cores := rfl
@[simp] theorem State.setCtx_quads (s : State) (k : Nat) (x : Ctx) : (s.setCtx k x).quads = s.quads := rfl
@[simp] theorem State.setCtx_dies (s : State) (k : Nat) (x : Ctx) : (s.setCtx k x).dies = s.dies := rfl
@[simp] theorem State.setCtx_mops (s : State) (k : Nat) (x : Ctx) : (s.setCtx k x).mops = s.mops := rfl
@[simp] theorem State.setCtx_copies (s : State) (k : Nat) (x : Ctx) : (s.setCtx k x).copies = s.copies := rfl
@[simp] theorem State.setCtx_tasks (s : State) (k : Nat) (x : Ctx) : (s.setCtx k x).tasks = s.tasks := rfl
@[simp] theorem State.setCtx_subs (s : State) (k : Nat) (x : Ctx) : (s.setCtx k x).subs = s.subs := rfl
@[simp] theorem State.setCtx_serial (s : State) (k : Nat) (x : Ctx) : (s.setCtx k x).serial = s.serial := rfl
@[simp] theorem State.setCtx_everAccepted (s : State) (k : Nat) (x : Ctx) : (s.setCtx k x).everAccepted = s.everAccepted := rfl
@[simp] theorem State.setCtx_hostCalls (s : State) (k : Nat) (x : Ctx) : (s.setCtx k x).hostCalls = s.hostCalls := rfl
@[simp] theorem State.setCtx_packets (s : State) (k : Nat) (x : Ctx) : (s.setCtx k x).packets = s.packets := rfl
@[simp] theorem State.setCtx_passDue (s : State) (k : Nat) (x : Ctx) : (s.setCtx k x).passDue = s.passDue := rfl
@[simp] theorem State.setCtx_regs (s : State) (k : Nat) (x : Ctx) : (s.setCtx k x).regs = s.regs := rfl
@[simp] theorem State.setCtx_geXf (s : State) (k : Nat) (x : Ctx) : (s.setCtx k x).geXf = s.geXf := rfl
@[simp] theorem State.setCtx_pkgId (s : State) (k : Nat) (x : Ctx) : (s.setCtx k x).pkgId = s.pkgId := rfl
@[simp] theorem State.setCtx_ioCyc (s : State) (k : Nat) (x : Ctx) : (s.setCtx k x).ioCyc = s.ioCyc := rfl
@[simp] theorem State.setCtx_inval (s : State) (k : Nat) (x : Ctx) : (s.setCtx k x).inval = s.inval := rfl
@[simp] theorem State.setCtx_poison (s : State) (k : Nat) (x : Ctx) : (s.setCtx k x).poison = s.poison := rfl
@[simp] theorem State.setCtx_outbox (s : State) (k : Nat) (x : Ctx) : (s.setCtx k x).outbox = s.outbox := rfl
@[simp] theorem State.setCtx_splices (s : State) (k : Nat) (x : Ctx) : (s.setCtx k x).splices = s.splices := rfl
@[simp] theorem State.setCtx_spliceSeen (s : State) (k : Nat) (x : Ctx) : (s.setCtx k x).spliceSeen = s.spliceSeen := rfl
@[simp] theorem State.setCtx_forming (s : State) (k : Nat) (x : Ctx) : (s.setCtx k x).forming = s.forming := rfl
@[simp] theorem State.setCtx_flying (s : State) (k : Nat) (x : Ctx) : (s.setCtx k x).flying = s.flying := rfl
@[simp] theorem State.setCtx_flows (s : State) (k : Nat) (x : Ctx) : (s.setCtx k x).flows = s.flows := rfl
@[simp] theorem State.setCtx_rx (s : State) (k : Nat) (x : Ctx) : (s.setCtx k x).rx = s.rx := rfl
@[simp] theorem State.setCtx_hitches (s : State) (k : Nat) (x : Ctx) : (s.setCtx k x).hitches = s.hitches := rfl
@[simp] theorem State.setCtx_contribs (s : State) (k : Nat) (x : Ctx) : (s.setCtx k x).contribs = s.contribs := rfl
@[simp] theorem State.setCtx_faultSignals (s : State) (k : Nat) (x : Ctx) : (s.setCtx k x).faultSignals = s.faultSignals := rfl
@[simp] theorem State.setCtx_invalOp (s : State) (k : Nat) (x : Ctx) : (s.setCtx k x).invalOp = s.invalOp := rfl
@[simp] theorem State.setCtx_invalCtxs (s : State) (k : Nat) (x : Ctx) : (s.setCtx k x).invalCtxs = s.invalCtxs := rfl
@[simp] theorem State.setCtx_ready (s : State) (k : Nat) (x : Ctx) : (s.setCtx k x).ready = s.ready := rfl
@[simp] theorem State.setCtx_frames (s : State) (k : Nat) (x : Ctx) : (s.setCtx k x).frames = s.frames := rfl
@[simp] theorem State.setCtx_owed (s : State) (k : Nat) (x : Ctx) : (s.setCtx k x).owed = s.owed := rfl
@[simp] theorem State.setCtx_hid (s : State) (k : Nat) (x : Ctx) : (s.setCtx k x).hid = s.hid := rfl
@[simp] theorem State.setCtx_slots (s : State) (k : Nat) (x : Ctx) : (s.setCtx k x).slots = s.slots := rfl
@[simp] theorem State.setCtx_signals (s : State) (k : Nat) (x : Ctx) : (s.setCtx k x).signals = s.signals := rfl
@[simp] theorem State.setCtx_toSend (s : State) (k : Nat) (x : Ctx) : (s.setCtx k x).toSend = s.toSend := rfl
@[simp] theorem State.setCtx_sent (s : State) (k : Nat) (x : Ctx) : (s.setCtx k x).sent = s.sent := rfl
@[simp] theorem State.setCtx_nodeKeys (s : State) (k : Nat) (x : Ctx) : (s.setCtx k x).nodeKeys = s.nodeKeys := rfl
@[simp] theorem State.setCtx_nodeClasses (s : State) (k : Nat) (x : Ctx) : (s.setCtx k x).nodeClasses = s.nodeClasses := rfl
@[simp] theorem State.setCtx_farOff (s : State) (k : Nat) (x : Ctx) : (s.setCtx k x).farOff = s.farOff := rfl
@[simp] theorem State.setCtx_setUps (s : State) (k : Nat) (x : Ctx) : (s.setCtx k x).setUps = s.setUps := rfl
@[simp] theorem State.setCtx_mgmt (s : State) (k : Nat) (x : Ctx) : (s.setCtx k x).mgmt = s.mgmt := rfl
@[simp] theorem State.setCtx_inbox (s : State) (k : Nat) (x : Ctx) : (s.setCtx k x).inbox = s.inbox := rfl
@[simp] theorem State.setCtx_cur (s : State) (k : Nat) (x : Ctx) : (s.setCtx k x).cur = s.cur := rfl
@[simp] theorem State.setCtx_nextId (s : State) (k : Nat) (x : Ctx) : (s.setCtx k x).nextId = s.nextId := rfl
@[simp] theorem State.setCtx_opens (s : State) (k : Nat) (x : Ctx) : (s.setCtx k x).opens = s.opens := rfl
@[simp] theorem State.setCtx_nextAge (s : State) (k : Nat) (x : Ctx) : (s.setCtx k x).nextAge = s.nextAge := rfl
@[simp] theorem State.setCtx_rotor (s : State) (k : Nat) (x : Ctx) : (s.setCtx k x).rotor = s.rotor := rfl

/-! ## State.modCtx -/

@[simp] theorem State.modCtx_mem (s : State) (k : Nat) (f : Ctx → Ctx) : (s.modCtx k f).mem = s.mem := rfl
@[simp] theorem State.modCtx_teams (s : State) (k : Nat) (f : Ctx → Ctx) : (s.modCtx k f).teams = s.teams := rfl
@[simp] theorem State.modCtx_cores (s : State) (k : Nat) (f : Ctx → Ctx) : (s.modCtx k f).cores = s.cores := rfl
@[simp] theorem State.modCtx_quads (s : State) (k : Nat) (f : Ctx → Ctx) : (s.modCtx k f).quads = s.quads := rfl
@[simp] theorem State.modCtx_dies (s : State) (k : Nat) (f : Ctx → Ctx) : (s.modCtx k f).dies = s.dies := rfl
@[simp] theorem State.modCtx_mops (s : State) (k : Nat) (f : Ctx → Ctx) : (s.modCtx k f).mops = s.mops := rfl
@[simp] theorem State.modCtx_copies (s : State) (k : Nat) (f : Ctx → Ctx) : (s.modCtx k f).copies = s.copies := rfl
@[simp] theorem State.modCtx_tasks (s : State) (k : Nat) (f : Ctx → Ctx) : (s.modCtx k f).tasks = s.tasks := rfl
@[simp] theorem State.modCtx_subs (s : State) (k : Nat) (f : Ctx → Ctx) : (s.modCtx k f).subs = s.subs := rfl
@[simp] theorem State.modCtx_serial (s : State) (k : Nat) (f : Ctx → Ctx) : (s.modCtx k f).serial = s.serial := rfl
@[simp] theorem State.modCtx_everAccepted (s : State) (k : Nat) (f : Ctx → Ctx) : (s.modCtx k f).everAccepted = s.everAccepted := rfl
@[simp] theorem State.modCtx_hostCalls (s : State) (k : Nat) (f : Ctx → Ctx) : (s.modCtx k f).hostCalls = s.hostCalls := rfl
@[simp] theorem State.modCtx_packets (s : State) (k : Nat) (f : Ctx → Ctx) : (s.modCtx k f).packets = s.packets := rfl
@[simp] theorem State.modCtx_passDue (s : State) (k : Nat) (f : Ctx → Ctx) : (s.modCtx k f).passDue = s.passDue := rfl
@[simp] theorem State.modCtx_regs (s : State) (k : Nat) (f : Ctx → Ctx) : (s.modCtx k f).regs = s.regs := rfl
@[simp] theorem State.modCtx_geXf (s : State) (k : Nat) (f : Ctx → Ctx) : (s.modCtx k f).geXf = s.geXf := rfl
@[simp] theorem State.modCtx_pkgId (s : State) (k : Nat) (f : Ctx → Ctx) : (s.modCtx k f).pkgId = s.pkgId := rfl
@[simp] theorem State.modCtx_ioCyc (s : State) (k : Nat) (f : Ctx → Ctx) : (s.modCtx k f).ioCyc = s.ioCyc := rfl
@[simp] theorem State.modCtx_inval (s : State) (k : Nat) (f : Ctx → Ctx) : (s.modCtx k f).inval = s.inval := rfl
@[simp] theorem State.modCtx_poison (s : State) (k : Nat) (f : Ctx → Ctx) : (s.modCtx k f).poison = s.poison := rfl
@[simp] theorem State.modCtx_outbox (s : State) (k : Nat) (f : Ctx → Ctx) : (s.modCtx k f).outbox = s.outbox := rfl
@[simp] theorem State.modCtx_splices (s : State) (k : Nat) (f : Ctx → Ctx) : (s.modCtx k f).splices = s.splices := rfl
@[simp] theorem State.modCtx_spliceSeen (s : State) (k : Nat) (f : Ctx → Ctx) : (s.modCtx k f).spliceSeen = s.spliceSeen := rfl
@[simp] theorem State.modCtx_forming (s : State) (k : Nat) (f : Ctx → Ctx) : (s.modCtx k f).forming = s.forming := rfl
@[simp] theorem State.modCtx_flying (s : State) (k : Nat) (f : Ctx → Ctx) : (s.modCtx k f).flying = s.flying := rfl
@[simp] theorem State.modCtx_flows (s : State) (k : Nat) (f : Ctx → Ctx) : (s.modCtx k f).flows = s.flows := rfl
@[simp] theorem State.modCtx_rx (s : State) (k : Nat) (f : Ctx → Ctx) : (s.modCtx k f).rx = s.rx := rfl
@[simp] theorem State.modCtx_hitches (s : State) (k : Nat) (f : Ctx → Ctx) : (s.modCtx k f).hitches = s.hitches := rfl
@[simp] theorem State.modCtx_contribs (s : State) (k : Nat) (f : Ctx → Ctx) : (s.modCtx k f).contribs = s.contribs := rfl
@[simp] theorem State.modCtx_faultSignals (s : State) (k : Nat) (f : Ctx → Ctx) : (s.modCtx k f).faultSignals = s.faultSignals := rfl
@[simp] theorem State.modCtx_invalOp (s : State) (k : Nat) (f : Ctx → Ctx) : (s.modCtx k f).invalOp = s.invalOp := rfl
@[simp] theorem State.modCtx_invalCtxs (s : State) (k : Nat) (f : Ctx → Ctx) : (s.modCtx k f).invalCtxs = s.invalCtxs := rfl
@[simp] theorem State.modCtx_ready (s : State) (k : Nat) (f : Ctx → Ctx) : (s.modCtx k f).ready = s.ready := rfl
@[simp] theorem State.modCtx_frames (s : State) (k : Nat) (f : Ctx → Ctx) : (s.modCtx k f).frames = s.frames := rfl
@[simp] theorem State.modCtx_owed (s : State) (k : Nat) (f : Ctx → Ctx) : (s.modCtx k f).owed = s.owed := rfl
@[simp] theorem State.modCtx_hid (s : State) (k : Nat) (f : Ctx → Ctx) : (s.modCtx k f).hid = s.hid := rfl
@[simp] theorem State.modCtx_slots (s : State) (k : Nat) (f : Ctx → Ctx) : (s.modCtx k f).slots = s.slots := rfl
@[simp] theorem State.modCtx_signals (s : State) (k : Nat) (f : Ctx → Ctx) : (s.modCtx k f).signals = s.signals := rfl
@[simp] theorem State.modCtx_toSend (s : State) (k : Nat) (f : Ctx → Ctx) : (s.modCtx k f).toSend = s.toSend := rfl
@[simp] theorem State.modCtx_sent (s : State) (k : Nat) (f : Ctx → Ctx) : (s.modCtx k f).sent = s.sent := rfl
@[simp] theorem State.modCtx_nodeKeys (s : State) (k : Nat) (f : Ctx → Ctx) : (s.modCtx k f).nodeKeys = s.nodeKeys := rfl
@[simp] theorem State.modCtx_nodeClasses (s : State) (k : Nat) (f : Ctx → Ctx) : (s.modCtx k f).nodeClasses = s.nodeClasses := rfl
@[simp] theorem State.modCtx_farOff (s : State) (k : Nat) (f : Ctx → Ctx) : (s.modCtx k f).farOff = s.farOff := rfl
@[simp] theorem State.modCtx_setUps (s : State) (k : Nat) (f : Ctx → Ctx) : (s.modCtx k f).setUps = s.setUps := rfl
@[simp] theorem State.modCtx_mgmt (s : State) (k : Nat) (f : Ctx → Ctx) : (s.modCtx k f).mgmt = s.mgmt := rfl
@[simp] theorem State.modCtx_inbox (s : State) (k : Nat) (f : Ctx → Ctx) : (s.modCtx k f).inbox = s.inbox := rfl
@[simp] theorem State.modCtx_cur (s : State) (k : Nat) (f : Ctx → Ctx) : (s.modCtx k f).cur = s.cur := rfl
@[simp] theorem State.modCtx_nextId (s : State) (k : Nat) (f : Ctx → Ctx) : (s.modCtx k f).nextId = s.nextId := rfl
@[simp] theorem State.modCtx_opens (s : State) (k : Nat) (f : Ctx → Ctx) : (s.modCtx k f).opens = s.opens := rfl
@[simp] theorem State.modCtx_nextAge (s : State) (k : Nat) (f : Ctx → Ctx) : (s.modCtx k f).nextAge = s.nextAge := rfl
@[simp] theorem State.modCtx_rotor (s : State) (k : Nat) (f : Ctx → Ctx) : (s.modCtx k f).rotor = s.rotor := rfl

/-! ## State.modCore -/

@[simp] theorem State.modCore_mem (s : State) (c : CoreId) (f : Core → Core) : (s.modCore c f).mem = s.mem := rfl
@[simp] theorem State.modCore_teams (s : State) (c : CoreId) (f : Core → Core) : (s.modCore c f).teams = s.teams := rfl
@[simp] theorem State.modCore_ctxs (s : State) (c : CoreId) (f : Core → Core) : (s.modCore c f).ctxs = s.ctxs := rfl
@[simp] theorem State.modCore_quads (s : State) (c : CoreId) (f : Core → Core) : (s.modCore c f).quads = s.quads := rfl
@[simp] theorem State.modCore_dies (s : State) (c : CoreId) (f : Core → Core) : (s.modCore c f).dies = s.dies := rfl
@[simp] theorem State.modCore_mops (s : State) (c : CoreId) (f : Core → Core) : (s.modCore c f).mops = s.mops := rfl
@[simp] theorem State.modCore_copies (s : State) (c : CoreId) (f : Core → Core) : (s.modCore c f).copies = s.copies := rfl
@[simp] theorem State.modCore_tasks (s : State) (c : CoreId) (f : Core → Core) : (s.modCore c f).tasks = s.tasks := rfl
@[simp] theorem State.modCore_subs (s : State) (c : CoreId) (f : Core → Core) : (s.modCore c f).subs = s.subs := rfl
@[simp] theorem State.modCore_serial (s : State) (c : CoreId) (f : Core → Core) : (s.modCore c f).serial = s.serial := rfl
@[simp] theorem State.modCore_everAccepted (s : State) (c : CoreId) (f : Core → Core) : (s.modCore c f).everAccepted = s.everAccepted := rfl
@[simp] theorem State.modCore_hostCalls (s : State) (c : CoreId) (f : Core → Core) : (s.modCore c f).hostCalls = s.hostCalls := rfl
@[simp] theorem State.modCore_packets (s : State) (c : CoreId) (f : Core → Core) : (s.modCore c f).packets = s.packets := rfl
@[simp] theorem State.modCore_passDue (s : State) (c : CoreId) (f : Core → Core) : (s.modCore c f).passDue = s.passDue := rfl
@[simp] theorem State.modCore_regs (s : State) (c : CoreId) (f : Core → Core) : (s.modCore c f).regs = s.regs := rfl
@[simp] theorem State.modCore_geXf (s : State) (c : CoreId) (f : Core → Core) : (s.modCore c f).geXf = s.geXf := rfl
@[simp] theorem State.modCore_pkgId (s : State) (c : CoreId) (f : Core → Core) : (s.modCore c f).pkgId = s.pkgId := rfl
@[simp] theorem State.modCore_ioCyc (s : State) (c : CoreId) (f : Core → Core) : (s.modCore c f).ioCyc = s.ioCyc := rfl
@[simp] theorem State.modCore_inval (s : State) (c : CoreId) (f : Core → Core) : (s.modCore c f).inval = s.inval := rfl
@[simp] theorem State.modCore_poison (s : State) (c : CoreId) (f : Core → Core) : (s.modCore c f).poison = s.poison := rfl
@[simp] theorem State.modCore_outbox (s : State) (c : CoreId) (f : Core → Core) : (s.modCore c f).outbox = s.outbox := rfl
@[simp] theorem State.modCore_splices (s : State) (c : CoreId) (f : Core → Core) : (s.modCore c f).splices = s.splices := rfl
@[simp] theorem State.modCore_spliceSeen (s : State) (c : CoreId) (f : Core → Core) : (s.modCore c f).spliceSeen = s.spliceSeen := rfl
@[simp] theorem State.modCore_forming (s : State) (c : CoreId) (f : Core → Core) : (s.modCore c f).forming = s.forming := rfl
@[simp] theorem State.modCore_flying (s : State) (c : CoreId) (f : Core → Core) : (s.modCore c f).flying = s.flying := rfl
@[simp] theorem State.modCore_flows (s : State) (c : CoreId) (f : Core → Core) : (s.modCore c f).flows = s.flows := rfl
@[simp] theorem State.modCore_rx (s : State) (c : CoreId) (f : Core → Core) : (s.modCore c f).rx = s.rx := rfl
@[simp] theorem State.modCore_hitches (s : State) (c : CoreId) (f : Core → Core) : (s.modCore c f).hitches = s.hitches := rfl
@[simp] theorem State.modCore_contribs (s : State) (c : CoreId) (f : Core → Core) : (s.modCore c f).contribs = s.contribs := rfl
@[simp] theorem State.modCore_faultSignals (s : State) (c : CoreId) (f : Core → Core) : (s.modCore c f).faultSignals = s.faultSignals := rfl
@[simp] theorem State.modCore_invalOp (s : State) (c : CoreId) (f : Core → Core) : (s.modCore c f).invalOp = s.invalOp := rfl
@[simp] theorem State.modCore_invalCtxs (s : State) (c : CoreId) (f : Core → Core) : (s.modCore c f).invalCtxs = s.invalCtxs := rfl
@[simp] theorem State.modCore_ready (s : State) (c : CoreId) (f : Core → Core) : (s.modCore c f).ready = s.ready := rfl
@[simp] theorem State.modCore_frames (s : State) (c : CoreId) (f : Core → Core) : (s.modCore c f).frames = s.frames := rfl
@[simp] theorem State.modCore_owed (s : State) (c : CoreId) (f : Core → Core) : (s.modCore c f).owed = s.owed := rfl
@[simp] theorem State.modCore_hid (s : State) (c : CoreId) (f : Core → Core) : (s.modCore c f).hid = s.hid := rfl
@[simp] theorem State.modCore_slots (s : State) (c : CoreId) (f : Core → Core) : (s.modCore c f).slots = s.slots := rfl
@[simp] theorem State.modCore_signals (s : State) (c : CoreId) (f : Core → Core) : (s.modCore c f).signals = s.signals := rfl
@[simp] theorem State.modCore_toSend (s : State) (c : CoreId) (f : Core → Core) : (s.modCore c f).toSend = s.toSend := rfl
@[simp] theorem State.modCore_sent (s : State) (c : CoreId) (f : Core → Core) : (s.modCore c f).sent = s.sent := rfl
@[simp] theorem State.modCore_nodeKeys (s : State) (c : CoreId) (f : Core → Core) : (s.modCore c f).nodeKeys = s.nodeKeys := rfl
@[simp] theorem State.modCore_nodeClasses (s : State) (c : CoreId) (f : Core → Core) : (s.modCore c f).nodeClasses = s.nodeClasses := rfl
@[simp] theorem State.modCore_farOff (s : State) (c : CoreId) (f : Core → Core) : (s.modCore c f).farOff = s.farOff := rfl
@[simp] theorem State.modCore_setUps (s : State) (c : CoreId) (f : Core → Core) : (s.modCore c f).setUps = s.setUps := rfl
@[simp] theorem State.modCore_mgmt (s : State) (c : CoreId) (f : Core → Core) : (s.modCore c f).mgmt = s.mgmt := rfl
@[simp] theorem State.modCore_inbox (s : State) (c : CoreId) (f : Core → Core) : (s.modCore c f).inbox = s.inbox := rfl
@[simp] theorem State.modCore_cur (s : State) (c : CoreId) (f : Core → Core) : (s.modCore c f).cur = s.cur := rfl
@[simp] theorem State.modCore_nextId (s : State) (c : CoreId) (f : Core → Core) : (s.modCore c f).nextId = s.nextId := rfl
@[simp] theorem State.modCore_opens (s : State) (c : CoreId) (f : Core → Core) : (s.modCore c f).opens = s.opens := rfl
@[simp] theorem State.modCore_nextAge (s : State) (c : CoreId) (f : Core → Core) : (s.modCore c f).nextAge = s.nextAge := rfl
@[simp] theorem State.modCore_rotor (s : State) (c : CoreId) (f : Core → Core) : (s.modCore c f).rotor = s.rotor := rfl

/-! ## State.modQuad -/

@[simp] theorem State.modQuad_mem (s : State) (c : CoreId) (f : Quad → Quad) : (s.modQuad c f).mem = s.mem := rfl
@[simp] theorem State.modQuad_teams (s : State) (c : CoreId) (f : Quad → Quad) : (s.modQuad c f).teams = s.teams := rfl
@[simp] theorem State.modQuad_ctxs (s : State) (c : CoreId) (f : Quad → Quad) : (s.modQuad c f).ctxs = s.ctxs := rfl
@[simp] theorem State.modQuad_cores (s : State) (c : CoreId) (f : Quad → Quad) : (s.modQuad c f).cores = s.cores := rfl
@[simp] theorem State.modQuad_dies (s : State) (c : CoreId) (f : Quad → Quad) : (s.modQuad c f).dies = s.dies := rfl
@[simp] theorem State.modQuad_mops (s : State) (c : CoreId) (f : Quad → Quad) : (s.modQuad c f).mops = s.mops := rfl
@[simp] theorem State.modQuad_copies (s : State) (c : CoreId) (f : Quad → Quad) : (s.modQuad c f).copies = s.copies := rfl
@[simp] theorem State.modQuad_tasks (s : State) (c : CoreId) (f : Quad → Quad) : (s.modQuad c f).tasks = s.tasks := rfl
@[simp] theorem State.modQuad_subs (s : State) (c : CoreId) (f : Quad → Quad) : (s.modQuad c f).subs = s.subs := rfl
@[simp] theorem State.modQuad_serial (s : State) (c : CoreId) (f : Quad → Quad) : (s.modQuad c f).serial = s.serial := rfl
@[simp] theorem State.modQuad_everAccepted (s : State) (c : CoreId) (f : Quad → Quad) : (s.modQuad c f).everAccepted = s.everAccepted := rfl
@[simp] theorem State.modQuad_hostCalls (s : State) (c : CoreId) (f : Quad → Quad) : (s.modQuad c f).hostCalls = s.hostCalls := rfl
@[simp] theorem State.modQuad_packets (s : State) (c : CoreId) (f : Quad → Quad) : (s.modQuad c f).packets = s.packets := rfl
@[simp] theorem State.modQuad_passDue (s : State) (c : CoreId) (f : Quad → Quad) : (s.modQuad c f).passDue = s.passDue := rfl
@[simp] theorem State.modQuad_regs (s : State) (c : CoreId) (f : Quad → Quad) : (s.modQuad c f).regs = s.regs := rfl
@[simp] theorem State.modQuad_geXf (s : State) (c : CoreId) (f : Quad → Quad) : (s.modQuad c f).geXf = s.geXf := rfl
@[simp] theorem State.modQuad_pkgId (s : State) (c : CoreId) (f : Quad → Quad) : (s.modQuad c f).pkgId = s.pkgId := rfl
@[simp] theorem State.modQuad_ioCyc (s : State) (c : CoreId) (f : Quad → Quad) : (s.modQuad c f).ioCyc = s.ioCyc := rfl
@[simp] theorem State.modQuad_inval (s : State) (c : CoreId) (f : Quad → Quad) : (s.modQuad c f).inval = s.inval := rfl
@[simp] theorem State.modQuad_poison (s : State) (c : CoreId) (f : Quad → Quad) : (s.modQuad c f).poison = s.poison := rfl
@[simp] theorem State.modQuad_outbox (s : State) (c : CoreId) (f : Quad → Quad) : (s.modQuad c f).outbox = s.outbox := rfl
@[simp] theorem State.modQuad_splices (s : State) (c : CoreId) (f : Quad → Quad) : (s.modQuad c f).splices = s.splices := rfl
@[simp] theorem State.modQuad_spliceSeen (s : State) (c : CoreId) (f : Quad → Quad) : (s.modQuad c f).spliceSeen = s.spliceSeen := rfl
@[simp] theorem State.modQuad_forming (s : State) (c : CoreId) (f : Quad → Quad) : (s.modQuad c f).forming = s.forming := rfl
@[simp] theorem State.modQuad_flying (s : State) (c : CoreId) (f : Quad → Quad) : (s.modQuad c f).flying = s.flying := rfl
@[simp] theorem State.modQuad_flows (s : State) (c : CoreId) (f : Quad → Quad) : (s.modQuad c f).flows = s.flows := rfl
@[simp] theorem State.modQuad_rx (s : State) (c : CoreId) (f : Quad → Quad) : (s.modQuad c f).rx = s.rx := rfl
@[simp] theorem State.modQuad_hitches (s : State) (c : CoreId) (f : Quad → Quad) : (s.modQuad c f).hitches = s.hitches := rfl
@[simp] theorem State.modQuad_contribs (s : State) (c : CoreId) (f : Quad → Quad) : (s.modQuad c f).contribs = s.contribs := rfl
@[simp] theorem State.modQuad_faultSignals (s : State) (c : CoreId) (f : Quad → Quad) : (s.modQuad c f).faultSignals = s.faultSignals := rfl
@[simp] theorem State.modQuad_invalOp (s : State) (c : CoreId) (f : Quad → Quad) : (s.modQuad c f).invalOp = s.invalOp := rfl
@[simp] theorem State.modQuad_invalCtxs (s : State) (c : CoreId) (f : Quad → Quad) : (s.modQuad c f).invalCtxs = s.invalCtxs := rfl
@[simp] theorem State.modQuad_ready (s : State) (c : CoreId) (f : Quad → Quad) : (s.modQuad c f).ready = s.ready := rfl
@[simp] theorem State.modQuad_frames (s : State) (c : CoreId) (f : Quad → Quad) : (s.modQuad c f).frames = s.frames := rfl
@[simp] theorem State.modQuad_owed (s : State) (c : CoreId) (f : Quad → Quad) : (s.modQuad c f).owed = s.owed := rfl
@[simp] theorem State.modQuad_hid (s : State) (c : CoreId) (f : Quad → Quad) : (s.modQuad c f).hid = s.hid := rfl
@[simp] theorem State.modQuad_slots (s : State) (c : CoreId) (f : Quad → Quad) : (s.modQuad c f).slots = s.slots := rfl
@[simp] theorem State.modQuad_signals (s : State) (c : CoreId) (f : Quad → Quad) : (s.modQuad c f).signals = s.signals := rfl
@[simp] theorem State.modQuad_toSend (s : State) (c : CoreId) (f : Quad → Quad) : (s.modQuad c f).toSend = s.toSend := rfl
@[simp] theorem State.modQuad_sent (s : State) (c : CoreId) (f : Quad → Quad) : (s.modQuad c f).sent = s.sent := rfl
@[simp] theorem State.modQuad_nodeKeys (s : State) (c : CoreId) (f : Quad → Quad) : (s.modQuad c f).nodeKeys = s.nodeKeys := rfl
@[simp] theorem State.modQuad_nodeClasses (s : State) (c : CoreId) (f : Quad → Quad) : (s.modQuad c f).nodeClasses = s.nodeClasses := rfl
@[simp] theorem State.modQuad_farOff (s : State) (c : CoreId) (f : Quad → Quad) : (s.modQuad c f).farOff = s.farOff := rfl
@[simp] theorem State.modQuad_setUps (s : State) (c : CoreId) (f : Quad → Quad) : (s.modQuad c f).setUps = s.setUps := rfl
@[simp] theorem State.modQuad_mgmt (s : State) (c : CoreId) (f : Quad → Quad) : (s.modQuad c f).mgmt = s.mgmt := rfl
@[simp] theorem State.modQuad_inbox (s : State) (c : CoreId) (f : Quad → Quad) : (s.modQuad c f).inbox = s.inbox := rfl
@[simp] theorem State.modQuad_cur (s : State) (c : CoreId) (f : Quad → Quad) : (s.modQuad c f).cur = s.cur := rfl
@[simp] theorem State.modQuad_nextId (s : State) (c : CoreId) (f : Quad → Quad) : (s.modQuad c f).nextId = s.nextId := rfl
@[simp] theorem State.modQuad_opens (s : State) (c : CoreId) (f : Quad → Quad) : (s.modQuad c f).opens = s.opens := rfl
@[simp] theorem State.modQuad_nextAge (s : State) (c : CoreId) (f : Quad → Quad) : (s.modQuad c f).nextAge = s.nextAge := rfl
@[simp] theorem State.modQuad_rotor (s : State) (c : CoreId) (f : Quad → Quad) : (s.modQuad c f).rotor = s.rotor := rfl

/-! ## State.modDie -/

@[simp] theorem State.modDie_mem (s : State) (d : Nat) (f : Die → Die) : (s.modDie d f).mem = s.mem := rfl
@[simp] theorem State.modDie_teams (s : State) (d : Nat) (f : Die → Die) : (s.modDie d f).teams = s.teams := rfl
@[simp] theorem State.modDie_ctxs (s : State) (d : Nat) (f : Die → Die) : (s.modDie d f).ctxs = s.ctxs := rfl
@[simp] theorem State.modDie_cores (s : State) (d : Nat) (f : Die → Die) : (s.modDie d f).cores = s.cores := rfl
@[simp] theorem State.modDie_quads (s : State) (d : Nat) (f : Die → Die) : (s.modDie d f).quads = s.quads := rfl
@[simp] theorem State.modDie_mops (s : State) (d : Nat) (f : Die → Die) : (s.modDie d f).mops = s.mops := rfl
@[simp] theorem State.modDie_copies (s : State) (d : Nat) (f : Die → Die) : (s.modDie d f).copies = s.copies := rfl
@[simp] theorem State.modDie_tasks (s : State) (d : Nat) (f : Die → Die) : (s.modDie d f).tasks = s.tasks := rfl
@[simp] theorem State.modDie_subs (s : State) (d : Nat) (f : Die → Die) : (s.modDie d f).subs = s.subs := rfl
@[simp] theorem State.modDie_serial (s : State) (d : Nat) (f : Die → Die) : (s.modDie d f).serial = s.serial := rfl
@[simp] theorem State.modDie_everAccepted (s : State) (d : Nat) (f : Die → Die) : (s.modDie d f).everAccepted = s.everAccepted := rfl
@[simp] theorem State.modDie_hostCalls (s : State) (d : Nat) (f : Die → Die) : (s.modDie d f).hostCalls = s.hostCalls := rfl
@[simp] theorem State.modDie_packets (s : State) (d : Nat) (f : Die → Die) : (s.modDie d f).packets = s.packets := rfl
@[simp] theorem State.modDie_passDue (s : State) (d : Nat) (f : Die → Die) : (s.modDie d f).passDue = s.passDue := rfl
@[simp] theorem State.modDie_regs (s : State) (d : Nat) (f : Die → Die) : (s.modDie d f).regs = s.regs := rfl
@[simp] theorem State.modDie_geXf (s : State) (d : Nat) (f : Die → Die) : (s.modDie d f).geXf = s.geXf := rfl
@[simp] theorem State.modDie_pkgId (s : State) (d : Nat) (f : Die → Die) : (s.modDie d f).pkgId = s.pkgId := rfl
@[simp] theorem State.modDie_ioCyc (s : State) (d : Nat) (f : Die → Die) : (s.modDie d f).ioCyc = s.ioCyc := rfl
@[simp] theorem State.modDie_inval (s : State) (d : Nat) (f : Die → Die) : (s.modDie d f).inval = s.inval := rfl
@[simp] theorem State.modDie_poison (s : State) (d : Nat) (f : Die → Die) : (s.modDie d f).poison = s.poison := rfl
@[simp] theorem State.modDie_outbox (s : State) (d : Nat) (f : Die → Die) : (s.modDie d f).outbox = s.outbox := rfl
@[simp] theorem State.modDie_splices (s : State) (d : Nat) (f : Die → Die) : (s.modDie d f).splices = s.splices := rfl
@[simp] theorem State.modDie_spliceSeen (s : State) (d : Nat) (f : Die → Die) : (s.modDie d f).spliceSeen = s.spliceSeen := rfl
@[simp] theorem State.modDie_forming (s : State) (d : Nat) (f : Die → Die) : (s.modDie d f).forming = s.forming := rfl
@[simp] theorem State.modDie_flying (s : State) (d : Nat) (f : Die → Die) : (s.modDie d f).flying = s.flying := rfl
@[simp] theorem State.modDie_flows (s : State) (d : Nat) (f : Die → Die) : (s.modDie d f).flows = s.flows := rfl
@[simp] theorem State.modDie_rx (s : State) (d : Nat) (f : Die → Die) : (s.modDie d f).rx = s.rx := rfl
@[simp] theorem State.modDie_hitches (s : State) (d : Nat) (f : Die → Die) : (s.modDie d f).hitches = s.hitches := rfl
@[simp] theorem State.modDie_contribs (s : State) (d : Nat) (f : Die → Die) : (s.modDie d f).contribs = s.contribs := rfl
@[simp] theorem State.modDie_faultSignals (s : State) (d : Nat) (f : Die → Die) : (s.modDie d f).faultSignals = s.faultSignals := rfl
@[simp] theorem State.modDie_invalOp (s : State) (d : Nat) (f : Die → Die) : (s.modDie d f).invalOp = s.invalOp := rfl
@[simp] theorem State.modDie_invalCtxs (s : State) (d : Nat) (f : Die → Die) : (s.modDie d f).invalCtxs = s.invalCtxs := rfl
@[simp] theorem State.modDie_ready (s : State) (d : Nat) (f : Die → Die) : (s.modDie d f).ready = s.ready := rfl
@[simp] theorem State.modDie_frames (s : State) (d : Nat) (f : Die → Die) : (s.modDie d f).frames = s.frames := rfl
@[simp] theorem State.modDie_owed (s : State) (d : Nat) (f : Die → Die) : (s.modDie d f).owed = s.owed := rfl
@[simp] theorem State.modDie_hid (s : State) (d : Nat) (f : Die → Die) : (s.modDie d f).hid = s.hid := rfl
@[simp] theorem State.modDie_slots (s : State) (d : Nat) (f : Die → Die) : (s.modDie d f).slots = s.slots := rfl
@[simp] theorem State.modDie_signals (s : State) (d : Nat) (f : Die → Die) : (s.modDie d f).signals = s.signals := rfl
@[simp] theorem State.modDie_toSend (s : State) (d : Nat) (f : Die → Die) : (s.modDie d f).toSend = s.toSend := rfl
@[simp] theorem State.modDie_sent (s : State) (d : Nat) (f : Die → Die) : (s.modDie d f).sent = s.sent := rfl
@[simp] theorem State.modDie_nodeKeys (s : State) (d : Nat) (f : Die → Die) : (s.modDie d f).nodeKeys = s.nodeKeys := rfl
@[simp] theorem State.modDie_nodeClasses (s : State) (d : Nat) (f : Die → Die) : (s.modDie d f).nodeClasses = s.nodeClasses := rfl
@[simp] theorem State.modDie_farOff (s : State) (d : Nat) (f : Die → Die) : (s.modDie d f).farOff = s.farOff := rfl
@[simp] theorem State.modDie_setUps (s : State) (d : Nat) (f : Die → Die) : (s.modDie d f).setUps = s.setUps := rfl
@[simp] theorem State.modDie_mgmt (s : State) (d : Nat) (f : Die → Die) : (s.modDie d f).mgmt = s.mgmt := rfl
@[simp] theorem State.modDie_inbox (s : State) (d : Nat) (f : Die → Die) : (s.modDie d f).inbox = s.inbox := rfl
@[simp] theorem State.modDie_cur (s : State) (d : Nat) (f : Die → Die) : (s.modDie d f).cur = s.cur := rfl
@[simp] theorem State.modDie_nextId (s : State) (d : Nat) (f : Die → Die) : (s.modDie d f).nextId = s.nextId := rfl
@[simp] theorem State.modDie_opens (s : State) (d : Nat) (f : Die → Die) : (s.modDie d f).opens = s.opens := rfl
@[simp] theorem State.modDie_nextAge (s : State) (d : Nat) (f : Die → Die) : (s.modDie d f).nextAge = s.nextAge := rfl
@[simp] theorem State.modDie_rotor (s : State) (d : Nat) (f : Die → Die) : (s.modDie d f).rotor = s.rotor := rfl

/-! ## State.modTask -/

@[simp] theorem State.modTask_mem (s : State) (n : Nat) (f : Task → Task) : (s.modTask n f).mem = s.mem := rfl
@[simp] theorem State.modTask_teams (s : State) (n : Nat) (f : Task → Task) : (s.modTask n f).teams = s.teams := rfl
@[simp] theorem State.modTask_ctxs (s : State) (n : Nat) (f : Task → Task) : (s.modTask n f).ctxs = s.ctxs := rfl
@[simp] theorem State.modTask_cores (s : State) (n : Nat) (f : Task → Task) : (s.modTask n f).cores = s.cores := rfl
@[simp] theorem State.modTask_quads (s : State) (n : Nat) (f : Task → Task) : (s.modTask n f).quads = s.quads := rfl
@[simp] theorem State.modTask_dies (s : State) (n : Nat) (f : Task → Task) : (s.modTask n f).dies = s.dies := rfl
@[simp] theorem State.modTask_mops (s : State) (n : Nat) (f : Task → Task) : (s.modTask n f).mops = s.mops := rfl
@[simp] theorem State.modTask_copies (s : State) (n : Nat) (f : Task → Task) : (s.modTask n f).copies = s.copies := rfl
@[simp] theorem State.modTask_subs (s : State) (n : Nat) (f : Task → Task) : (s.modTask n f).subs = s.subs := rfl
@[simp] theorem State.modTask_serial (s : State) (n : Nat) (f : Task → Task) : (s.modTask n f).serial = s.serial := rfl
@[simp] theorem State.modTask_everAccepted (s : State) (n : Nat) (f : Task → Task) : (s.modTask n f).everAccepted = s.everAccepted := rfl
@[simp] theorem State.modTask_hostCalls (s : State) (n : Nat) (f : Task → Task) : (s.modTask n f).hostCalls = s.hostCalls := rfl
@[simp] theorem State.modTask_packets (s : State) (n : Nat) (f : Task → Task) : (s.modTask n f).packets = s.packets := rfl
@[simp] theorem State.modTask_passDue (s : State) (n : Nat) (f : Task → Task) : (s.modTask n f).passDue = s.passDue := rfl
@[simp] theorem State.modTask_regs (s : State) (n : Nat) (f : Task → Task) : (s.modTask n f).regs = s.regs := rfl
@[simp] theorem State.modTask_geXf (s : State) (n : Nat) (f : Task → Task) : (s.modTask n f).geXf = s.geXf := rfl
@[simp] theorem State.modTask_pkgId (s : State) (n : Nat) (f : Task → Task) : (s.modTask n f).pkgId = s.pkgId := rfl
@[simp] theorem State.modTask_ioCyc (s : State) (n : Nat) (f : Task → Task) : (s.modTask n f).ioCyc = s.ioCyc := rfl
@[simp] theorem State.modTask_inval (s : State) (n : Nat) (f : Task → Task) : (s.modTask n f).inval = s.inval := rfl
@[simp] theorem State.modTask_poison (s : State) (n : Nat) (f : Task → Task) : (s.modTask n f).poison = s.poison := rfl
@[simp] theorem State.modTask_outbox (s : State) (n : Nat) (f : Task → Task) : (s.modTask n f).outbox = s.outbox := rfl
@[simp] theorem State.modTask_splices (s : State) (n : Nat) (f : Task → Task) : (s.modTask n f).splices = s.splices := rfl
@[simp] theorem State.modTask_spliceSeen (s : State) (n : Nat) (f : Task → Task) : (s.modTask n f).spliceSeen = s.spliceSeen := rfl
@[simp] theorem State.modTask_forming (s : State) (n : Nat) (f : Task → Task) : (s.modTask n f).forming = s.forming := rfl
@[simp] theorem State.modTask_flying (s : State) (n : Nat) (f : Task → Task) : (s.modTask n f).flying = s.flying := rfl
@[simp] theorem State.modTask_flows (s : State) (n : Nat) (f : Task → Task) : (s.modTask n f).flows = s.flows := rfl
@[simp] theorem State.modTask_rx (s : State) (n : Nat) (f : Task → Task) : (s.modTask n f).rx = s.rx := rfl
@[simp] theorem State.modTask_hitches (s : State) (n : Nat) (f : Task → Task) : (s.modTask n f).hitches = s.hitches := rfl
@[simp] theorem State.modTask_contribs (s : State) (n : Nat) (f : Task → Task) : (s.modTask n f).contribs = s.contribs := rfl
@[simp] theorem State.modTask_faultSignals (s : State) (n : Nat) (f : Task → Task) : (s.modTask n f).faultSignals = s.faultSignals := rfl
@[simp] theorem State.modTask_invalOp (s : State) (n : Nat) (f : Task → Task) : (s.modTask n f).invalOp = s.invalOp := rfl
@[simp] theorem State.modTask_invalCtxs (s : State) (n : Nat) (f : Task → Task) : (s.modTask n f).invalCtxs = s.invalCtxs := rfl
@[simp] theorem State.modTask_ready (s : State) (n : Nat) (f : Task → Task) : (s.modTask n f).ready = s.ready := rfl
@[simp] theorem State.modTask_frames (s : State) (n : Nat) (f : Task → Task) : (s.modTask n f).frames = s.frames := rfl
@[simp] theorem State.modTask_owed (s : State) (n : Nat) (f : Task → Task) : (s.modTask n f).owed = s.owed := rfl
@[simp] theorem State.modTask_hid (s : State) (n : Nat) (f : Task → Task) : (s.modTask n f).hid = s.hid := rfl
@[simp] theorem State.modTask_slots (s : State) (n : Nat) (f : Task → Task) : (s.modTask n f).slots = s.slots := rfl
@[simp] theorem State.modTask_signals (s : State) (n : Nat) (f : Task → Task) : (s.modTask n f).signals = s.signals := rfl
@[simp] theorem State.modTask_toSend (s : State) (n : Nat) (f : Task → Task) : (s.modTask n f).toSend = s.toSend := rfl
@[simp] theorem State.modTask_sent (s : State) (n : Nat) (f : Task → Task) : (s.modTask n f).sent = s.sent := rfl
@[simp] theorem State.modTask_nodeKeys (s : State) (n : Nat) (f : Task → Task) : (s.modTask n f).nodeKeys = s.nodeKeys := rfl
@[simp] theorem State.modTask_nodeClasses (s : State) (n : Nat) (f : Task → Task) : (s.modTask n f).nodeClasses = s.nodeClasses := rfl
@[simp] theorem State.modTask_farOff (s : State) (n : Nat) (f : Task → Task) : (s.modTask n f).farOff = s.farOff := rfl
@[simp] theorem State.modTask_setUps (s : State) (n : Nat) (f : Task → Task) : (s.modTask n f).setUps = s.setUps := rfl
@[simp] theorem State.modTask_mgmt (s : State) (n : Nat) (f : Task → Task) : (s.modTask n f).mgmt = s.mgmt := rfl
@[simp] theorem State.modTask_inbox (s : State) (n : Nat) (f : Task → Task) : (s.modTask n f).inbox = s.inbox := rfl
@[simp] theorem State.modTask_cur (s : State) (n : Nat) (f : Task → Task) : (s.modTask n f).cur = s.cur := rfl
@[simp] theorem State.modTask_nextId (s : State) (n : Nat) (f : Task → Task) : (s.modTask n f).nextId = s.nextId := rfl
@[simp] theorem State.modTask_opens (s : State) (n : Nat) (f : Task → Task) : (s.modTask n f).opens = s.opens := rfl
@[simp] theorem State.modTask_nextAge (s : State) (n : Nat) (f : Task → Task) : (s.modTask n f).nextAge = s.nextAge := rfl
@[simp] theorem State.modTask_rotor (s : State) (n : Nat) (f : Task → Task) : (s.modTask n f).rotor = s.rotor := rfl

/-! ## State.modOp -/

@[simp] theorem State.modOp_mem (s : State) (id : Nat) (f : MemOp → MemOp) : (s.modOp id f).mem = s.mem := rfl
@[simp] theorem State.modOp_teams (s : State) (id : Nat) (f : MemOp → MemOp) : (s.modOp id f).teams = s.teams := rfl
@[simp] theorem State.modOp_ctxs (s : State) (id : Nat) (f : MemOp → MemOp) : (s.modOp id f).ctxs = s.ctxs := rfl
@[simp] theorem State.modOp_cores (s : State) (id : Nat) (f : MemOp → MemOp) : (s.modOp id f).cores = s.cores := rfl
@[simp] theorem State.modOp_quads (s : State) (id : Nat) (f : MemOp → MemOp) : (s.modOp id f).quads = s.quads := rfl
@[simp] theorem State.modOp_dies (s : State) (id : Nat) (f : MemOp → MemOp) : (s.modOp id f).dies = s.dies := rfl
@[simp] theorem State.modOp_copies (s : State) (id : Nat) (f : MemOp → MemOp) : (s.modOp id f).copies = s.copies := rfl
@[simp] theorem State.modOp_tasks (s : State) (id : Nat) (f : MemOp → MemOp) : (s.modOp id f).tasks = s.tasks := rfl
@[simp] theorem State.modOp_subs (s : State) (id : Nat) (f : MemOp → MemOp) : (s.modOp id f).subs = s.subs := rfl
@[simp] theorem State.modOp_serial (s : State) (id : Nat) (f : MemOp → MemOp) : (s.modOp id f).serial = s.serial := rfl
@[simp] theorem State.modOp_everAccepted (s : State) (id : Nat) (f : MemOp → MemOp) : (s.modOp id f).everAccepted = s.everAccepted := rfl
@[simp] theorem State.modOp_hostCalls (s : State) (id : Nat) (f : MemOp → MemOp) : (s.modOp id f).hostCalls = s.hostCalls := rfl
@[simp] theorem State.modOp_packets (s : State) (id : Nat) (f : MemOp → MemOp) : (s.modOp id f).packets = s.packets := rfl
@[simp] theorem State.modOp_passDue (s : State) (id : Nat) (f : MemOp → MemOp) : (s.modOp id f).passDue = s.passDue := rfl
@[simp] theorem State.modOp_regs (s : State) (id : Nat) (f : MemOp → MemOp) : (s.modOp id f).regs = s.regs := rfl
@[simp] theorem State.modOp_geXf (s : State) (id : Nat) (f : MemOp → MemOp) : (s.modOp id f).geXf = s.geXf := rfl
@[simp] theorem State.modOp_pkgId (s : State) (id : Nat) (f : MemOp → MemOp) : (s.modOp id f).pkgId = s.pkgId := rfl
@[simp] theorem State.modOp_ioCyc (s : State) (id : Nat) (f : MemOp → MemOp) : (s.modOp id f).ioCyc = s.ioCyc := rfl
@[simp] theorem State.modOp_inval (s : State) (id : Nat) (f : MemOp → MemOp) : (s.modOp id f).inval = s.inval := rfl
@[simp] theorem State.modOp_poison (s : State) (id : Nat) (f : MemOp → MemOp) : (s.modOp id f).poison = s.poison := rfl
@[simp] theorem State.modOp_outbox (s : State) (id : Nat) (f : MemOp → MemOp) : (s.modOp id f).outbox = s.outbox := rfl
@[simp] theorem State.modOp_splices (s : State) (id : Nat) (f : MemOp → MemOp) : (s.modOp id f).splices = s.splices := rfl
@[simp] theorem State.modOp_spliceSeen (s : State) (id : Nat) (f : MemOp → MemOp) : (s.modOp id f).spliceSeen = s.spliceSeen := rfl
@[simp] theorem State.modOp_forming (s : State) (id : Nat) (f : MemOp → MemOp) : (s.modOp id f).forming = s.forming := rfl
@[simp] theorem State.modOp_flying (s : State) (id : Nat) (f : MemOp → MemOp) : (s.modOp id f).flying = s.flying := rfl
@[simp] theorem State.modOp_flows (s : State) (id : Nat) (f : MemOp → MemOp) : (s.modOp id f).flows = s.flows := rfl
@[simp] theorem State.modOp_rx (s : State) (id : Nat) (f : MemOp → MemOp) : (s.modOp id f).rx = s.rx := rfl
@[simp] theorem State.modOp_hitches (s : State) (id : Nat) (f : MemOp → MemOp) : (s.modOp id f).hitches = s.hitches := rfl
@[simp] theorem State.modOp_contribs (s : State) (id : Nat) (f : MemOp → MemOp) : (s.modOp id f).contribs = s.contribs := rfl
@[simp] theorem State.modOp_faultSignals (s : State) (id : Nat) (f : MemOp → MemOp) : (s.modOp id f).faultSignals = s.faultSignals := rfl
@[simp] theorem State.modOp_invalOp (s : State) (id : Nat) (f : MemOp → MemOp) : (s.modOp id f).invalOp = s.invalOp := rfl
@[simp] theorem State.modOp_invalCtxs (s : State) (id : Nat) (f : MemOp → MemOp) : (s.modOp id f).invalCtxs = s.invalCtxs := rfl
@[simp] theorem State.modOp_ready (s : State) (id : Nat) (f : MemOp → MemOp) : (s.modOp id f).ready = s.ready := rfl
@[simp] theorem State.modOp_frames (s : State) (id : Nat) (f : MemOp → MemOp) : (s.modOp id f).frames = s.frames := rfl
@[simp] theorem State.modOp_owed (s : State) (id : Nat) (f : MemOp → MemOp) : (s.modOp id f).owed = s.owed := rfl
@[simp] theorem State.modOp_hid (s : State) (id : Nat) (f : MemOp → MemOp) : (s.modOp id f).hid = s.hid := rfl
@[simp] theorem State.modOp_slots (s : State) (id : Nat) (f : MemOp → MemOp) : (s.modOp id f).slots = s.slots := rfl
@[simp] theorem State.modOp_signals (s : State) (id : Nat) (f : MemOp → MemOp) : (s.modOp id f).signals = s.signals := rfl
@[simp] theorem State.modOp_toSend (s : State) (id : Nat) (f : MemOp → MemOp) : (s.modOp id f).toSend = s.toSend := rfl
@[simp] theorem State.modOp_sent (s : State) (id : Nat) (f : MemOp → MemOp) : (s.modOp id f).sent = s.sent := rfl
@[simp] theorem State.modOp_nodeKeys (s : State) (id : Nat) (f : MemOp → MemOp) : (s.modOp id f).nodeKeys = s.nodeKeys := rfl
@[simp] theorem State.modOp_nodeClasses (s : State) (id : Nat) (f : MemOp → MemOp) : (s.modOp id f).nodeClasses = s.nodeClasses := rfl
@[simp] theorem State.modOp_farOff (s : State) (id : Nat) (f : MemOp → MemOp) : (s.modOp id f).farOff = s.farOff := rfl
@[simp] theorem State.modOp_setUps (s : State) (id : Nat) (f : MemOp → MemOp) : (s.modOp id f).setUps = s.setUps := rfl
@[simp] theorem State.modOp_mgmt (s : State) (id : Nat) (f : MemOp → MemOp) : (s.modOp id f).mgmt = s.mgmt := rfl
@[simp] theorem State.modOp_inbox (s : State) (id : Nat) (f : MemOp → MemOp) : (s.modOp id f).inbox = s.inbox := rfl
@[simp] theorem State.modOp_cur (s : State) (id : Nat) (f : MemOp → MemOp) : (s.modOp id f).cur = s.cur := rfl
@[simp] theorem State.modOp_nextId (s : State) (id : Nat) (f : MemOp → MemOp) : (s.modOp id f).nextId = s.nextId := rfl
@[simp] theorem State.modOp_opens (s : State) (id : Nat) (f : MemOp → MemOp) : (s.modOp id f).opens = s.opens := rfl
@[simp] theorem State.modOp_nextAge (s : State) (id : Nat) (f : MemOp → MemOp) : (s.modOp id f).nextAge = s.nextAge := rfl
@[simp] theorem State.modOp_rotor (s : State) (id : Nat) (f : MemOp → MemOp) : (s.modOp id f).rotor = s.rotor := rfl

/-! ## State.addOp -/

@[simp] theorem State.addOp_mem (s : State) (m : MemOp) : (s.addOp m).mem = s.mem := rfl
@[simp] theorem State.addOp_teams (s : State) (m : MemOp) : (s.addOp m).teams = s.teams := rfl
@[simp] theorem State.addOp_ctxs (s : State) (m : MemOp) : (s.addOp m).ctxs = s.ctxs := rfl
@[simp] theorem State.addOp_cores (s : State) (m : MemOp) : (s.addOp m).cores = s.cores := rfl
@[simp] theorem State.addOp_quads (s : State) (m : MemOp) : (s.addOp m).quads = s.quads := rfl
@[simp] theorem State.addOp_dies (s : State) (m : MemOp) : (s.addOp m).dies = s.dies := rfl
@[simp] theorem State.addOp_copies (s : State) (m : MemOp) : (s.addOp m).copies = s.copies := rfl
@[simp] theorem State.addOp_tasks (s : State) (m : MemOp) : (s.addOp m).tasks = s.tasks := rfl
@[simp] theorem State.addOp_subs (s : State) (m : MemOp) : (s.addOp m).subs = s.subs := rfl
@[simp] theorem State.addOp_serial (s : State) (m : MemOp) : (s.addOp m).serial = s.serial := rfl
@[simp] theorem State.addOp_everAccepted (s : State) (m : MemOp) : (s.addOp m).everAccepted = s.everAccepted := rfl
@[simp] theorem State.addOp_hostCalls (s : State) (m : MemOp) : (s.addOp m).hostCalls = s.hostCalls := rfl
@[simp] theorem State.addOp_packets (s : State) (m : MemOp) : (s.addOp m).packets = s.packets := rfl
@[simp] theorem State.addOp_passDue (s : State) (m : MemOp) : (s.addOp m).passDue = s.passDue := rfl
@[simp] theorem State.addOp_regs (s : State) (m : MemOp) : (s.addOp m).regs = s.regs := rfl
@[simp] theorem State.addOp_geXf (s : State) (m : MemOp) : (s.addOp m).geXf = s.geXf := rfl
@[simp] theorem State.addOp_pkgId (s : State) (m : MemOp) : (s.addOp m).pkgId = s.pkgId := rfl
@[simp] theorem State.addOp_ioCyc (s : State) (m : MemOp) : (s.addOp m).ioCyc = s.ioCyc := rfl
@[simp] theorem State.addOp_inval (s : State) (m : MemOp) : (s.addOp m).inval = s.inval := rfl
@[simp] theorem State.addOp_poison (s : State) (m : MemOp) : (s.addOp m).poison = s.poison := rfl
@[simp] theorem State.addOp_outbox (s : State) (m : MemOp) : (s.addOp m).outbox = s.outbox := rfl
@[simp] theorem State.addOp_splices (s : State) (m : MemOp) : (s.addOp m).splices = s.splices := rfl
@[simp] theorem State.addOp_spliceSeen (s : State) (m : MemOp) : (s.addOp m).spliceSeen = s.spliceSeen := rfl
@[simp] theorem State.addOp_forming (s : State) (m : MemOp) : (s.addOp m).forming = s.forming := rfl
@[simp] theorem State.addOp_flying (s : State) (m : MemOp) : (s.addOp m).flying = s.flying := rfl
@[simp] theorem State.addOp_flows (s : State) (m : MemOp) : (s.addOp m).flows = s.flows := rfl
@[simp] theorem State.addOp_rx (s : State) (m : MemOp) : (s.addOp m).rx = s.rx := rfl
@[simp] theorem State.addOp_hitches (s : State) (m : MemOp) : (s.addOp m).hitches = s.hitches := rfl
@[simp] theorem State.addOp_contribs (s : State) (m : MemOp) : (s.addOp m).contribs = s.contribs := rfl
@[simp] theorem State.addOp_faultSignals (s : State) (m : MemOp) : (s.addOp m).faultSignals = s.faultSignals := rfl
@[simp] theorem State.addOp_invalOp (s : State) (m : MemOp) : (s.addOp m).invalOp = s.invalOp := rfl
@[simp] theorem State.addOp_invalCtxs (s : State) (m : MemOp) : (s.addOp m).invalCtxs = s.invalCtxs := rfl
@[simp] theorem State.addOp_ready (s : State) (m : MemOp) : (s.addOp m).ready = s.ready := rfl
@[simp] theorem State.addOp_frames (s : State) (m : MemOp) : (s.addOp m).frames = s.frames := rfl
@[simp] theorem State.addOp_owed (s : State) (m : MemOp) : (s.addOp m).owed = s.owed := rfl
@[simp] theorem State.addOp_hid (s : State) (m : MemOp) : (s.addOp m).hid = s.hid := rfl
@[simp] theorem State.addOp_slots (s : State) (m : MemOp) : (s.addOp m).slots = s.slots := rfl
@[simp] theorem State.addOp_signals (s : State) (m : MemOp) : (s.addOp m).signals = s.signals := rfl
@[simp] theorem State.addOp_toSend (s : State) (m : MemOp) : (s.addOp m).toSend = s.toSend := rfl
@[simp] theorem State.addOp_sent (s : State) (m : MemOp) : (s.addOp m).sent = s.sent := rfl
@[simp] theorem State.addOp_nodeKeys (s : State) (m : MemOp) : (s.addOp m).nodeKeys = s.nodeKeys := rfl
@[simp] theorem State.addOp_nodeClasses (s : State) (m : MemOp) : (s.addOp m).nodeClasses = s.nodeClasses := rfl
@[simp] theorem State.addOp_farOff (s : State) (m : MemOp) : (s.addOp m).farOff = s.farOff := rfl
@[simp] theorem State.addOp_setUps (s : State) (m : MemOp) : (s.addOp m).setUps = s.setUps := rfl
@[simp] theorem State.addOp_mgmt (s : State) (m : MemOp) : (s.addOp m).mgmt = s.mgmt := rfl
@[simp] theorem State.addOp_inbox (s : State) (m : MemOp) : (s.addOp m).inbox = s.inbox := rfl
@[simp] theorem State.addOp_cur (s : State) (m : MemOp) : (s.addOp m).cur = s.cur := rfl
@[simp] theorem State.addOp_opens (s : State) (m : MemOp) : (s.addOp m).opens = s.opens := rfl
@[simp] theorem State.addOp_nextAge (s : State) (m : MemOp) : (s.addOp m).nextAge = s.nextAge := rfl
@[simp] theorem State.addOp_rotor (s : State) (m : MemOp) : (s.addOp m).rotor = s.rotor := rfl

/-! ## State.setReg -/

@[simp] theorem State.setReg_mem (s : State) (pa : Nat) (v : DWord) : (s.setReg pa v).mem = s.mem := rfl
@[simp] theorem State.setReg_teams (s : State) (pa : Nat) (v : DWord) : (s.setReg pa v).teams = s.teams := rfl
@[simp] theorem State.setReg_ctxs (s : State) (pa : Nat) (v : DWord) : (s.setReg pa v).ctxs = s.ctxs := rfl
@[simp] theorem State.setReg_cores (s : State) (pa : Nat) (v : DWord) : (s.setReg pa v).cores = s.cores := rfl
@[simp] theorem State.setReg_quads (s : State) (pa : Nat) (v : DWord) : (s.setReg pa v).quads = s.quads := rfl
@[simp] theorem State.setReg_dies (s : State) (pa : Nat) (v : DWord) : (s.setReg pa v).dies = s.dies := rfl
@[simp] theorem State.setReg_mops (s : State) (pa : Nat) (v : DWord) : (s.setReg pa v).mops = s.mops := rfl
@[simp] theorem State.setReg_copies (s : State) (pa : Nat) (v : DWord) : (s.setReg pa v).copies = s.copies := rfl
@[simp] theorem State.setReg_tasks (s : State) (pa : Nat) (v : DWord) : (s.setReg pa v).tasks = s.tasks := rfl
@[simp] theorem State.setReg_subs (s : State) (pa : Nat) (v : DWord) : (s.setReg pa v).subs = s.subs := rfl
@[simp] theorem State.setReg_serial (s : State) (pa : Nat) (v : DWord) : (s.setReg pa v).serial = s.serial := rfl
@[simp] theorem State.setReg_everAccepted (s : State) (pa : Nat) (v : DWord) : (s.setReg pa v).everAccepted = s.everAccepted := rfl
@[simp] theorem State.setReg_hostCalls (s : State) (pa : Nat) (v : DWord) : (s.setReg pa v).hostCalls = s.hostCalls := rfl
@[simp] theorem State.setReg_packets (s : State) (pa : Nat) (v : DWord) : (s.setReg pa v).packets = s.packets := rfl
@[simp] theorem State.setReg_passDue (s : State) (pa : Nat) (v : DWord) : (s.setReg pa v).passDue = s.passDue := rfl
@[simp] theorem State.setReg_geXf (s : State) (pa : Nat) (v : DWord) : (s.setReg pa v).geXf = s.geXf := rfl
@[simp] theorem State.setReg_pkgId (s : State) (pa : Nat) (v : DWord) : (s.setReg pa v).pkgId = s.pkgId := rfl
@[simp] theorem State.setReg_ioCyc (s : State) (pa : Nat) (v : DWord) : (s.setReg pa v).ioCyc = s.ioCyc := rfl
@[simp] theorem State.setReg_inval (s : State) (pa : Nat) (v : DWord) : (s.setReg pa v).inval = s.inval := rfl
@[simp] theorem State.setReg_poison (s : State) (pa : Nat) (v : DWord) : (s.setReg pa v).poison = s.poison := rfl
@[simp] theorem State.setReg_outbox (s : State) (pa : Nat) (v : DWord) : (s.setReg pa v).outbox = s.outbox := rfl
@[simp] theorem State.setReg_splices (s : State) (pa : Nat) (v : DWord) : (s.setReg pa v).splices = s.splices := rfl
@[simp] theorem State.setReg_spliceSeen (s : State) (pa : Nat) (v : DWord) : (s.setReg pa v).spliceSeen = s.spliceSeen := rfl
@[simp] theorem State.setReg_forming (s : State) (pa : Nat) (v : DWord) : (s.setReg pa v).forming = s.forming := rfl
@[simp] theorem State.setReg_flying (s : State) (pa : Nat) (v : DWord) : (s.setReg pa v).flying = s.flying := rfl
@[simp] theorem State.setReg_flows (s : State) (pa : Nat) (v : DWord) : (s.setReg pa v).flows = s.flows := rfl
@[simp] theorem State.setReg_rx (s : State) (pa : Nat) (v : DWord) : (s.setReg pa v).rx = s.rx := rfl
@[simp] theorem State.setReg_hitches (s : State) (pa : Nat) (v : DWord) : (s.setReg pa v).hitches = s.hitches := rfl
@[simp] theorem State.setReg_contribs (s : State) (pa : Nat) (v : DWord) : (s.setReg pa v).contribs = s.contribs := rfl
@[simp] theorem State.setReg_faultSignals (s : State) (pa : Nat) (v : DWord) : (s.setReg pa v).faultSignals = s.faultSignals := rfl
@[simp] theorem State.setReg_invalOp (s : State) (pa : Nat) (v : DWord) : (s.setReg pa v).invalOp = s.invalOp := rfl
@[simp] theorem State.setReg_invalCtxs (s : State) (pa : Nat) (v : DWord) : (s.setReg pa v).invalCtxs = s.invalCtxs := rfl
@[simp] theorem State.setReg_ready (s : State) (pa : Nat) (v : DWord) : (s.setReg pa v).ready = s.ready := rfl
@[simp] theorem State.setReg_frames (s : State) (pa : Nat) (v : DWord) : (s.setReg pa v).frames = s.frames := rfl
@[simp] theorem State.setReg_owed (s : State) (pa : Nat) (v : DWord) : (s.setReg pa v).owed = s.owed := rfl
@[simp] theorem State.setReg_hid (s : State) (pa : Nat) (v : DWord) : (s.setReg pa v).hid = s.hid := rfl
@[simp] theorem State.setReg_slots (s : State) (pa : Nat) (v : DWord) : (s.setReg pa v).slots = s.slots := rfl
@[simp] theorem State.setReg_signals (s : State) (pa : Nat) (v : DWord) : (s.setReg pa v).signals = s.signals := rfl
@[simp] theorem State.setReg_toSend (s : State) (pa : Nat) (v : DWord) : (s.setReg pa v).toSend = s.toSend := rfl
@[simp] theorem State.setReg_sent (s : State) (pa : Nat) (v : DWord) : (s.setReg pa v).sent = s.sent := rfl
@[simp] theorem State.setReg_nodeKeys (s : State) (pa : Nat) (v : DWord) : (s.setReg pa v).nodeKeys = s.nodeKeys := rfl
@[simp] theorem State.setReg_nodeClasses (s : State) (pa : Nat) (v : DWord) : (s.setReg pa v).nodeClasses = s.nodeClasses := rfl
@[simp] theorem State.setReg_farOff (s : State) (pa : Nat) (v : DWord) : (s.setReg pa v).farOff = s.farOff := rfl
@[simp] theorem State.setReg_setUps (s : State) (pa : Nat) (v : DWord) : (s.setReg pa v).setUps = s.setUps := rfl
@[simp] theorem State.setReg_mgmt (s : State) (pa : Nat) (v : DWord) : (s.setReg pa v).mgmt = s.mgmt := rfl
@[simp] theorem State.setReg_inbox (s : State) (pa : Nat) (v : DWord) : (s.setReg pa v).inbox = s.inbox := rfl
@[simp] theorem State.setReg_cur (s : State) (pa : Nat) (v : DWord) : (s.setReg pa v).cur = s.cur := rfl
@[simp] theorem State.setReg_nextId (s : State) (pa : Nat) (v : DWord) : (s.setReg pa v).nextId = s.nextId := rfl
@[simp] theorem State.setReg_opens (s : State) (pa : Nat) (v : DWord) : (s.setReg pa v).opens = s.opens := rfl
@[simp] theorem State.setReg_nextAge (s : State) (pa : Nat) (v : DWord) : (s.setReg pa v).nextAge = s.nextAge := rfl
@[simp] theorem State.setReg_rotor (s : State) (pa : Nat) (v : DWord) : (s.setReg pa v).rotor = s.rotor := rfl

/-! ## State.modMgmt -/

@[simp] theorem State.modMgmt_mem (s : State) (f : Mgmt → Mgmt) : (s.modMgmt f).mem = s.mem := rfl
@[simp] theorem State.modMgmt_teams (s : State) (f : Mgmt → Mgmt) : (s.modMgmt f).teams = s.teams := rfl
@[simp] theorem State.modMgmt_ctxs (s : State) (f : Mgmt → Mgmt) : (s.modMgmt f).ctxs = s.ctxs := rfl
@[simp] theorem State.modMgmt_cores (s : State) (f : Mgmt → Mgmt) : (s.modMgmt f).cores = s.cores := rfl
@[simp] theorem State.modMgmt_quads (s : State) (f : Mgmt → Mgmt) : (s.modMgmt f).quads = s.quads := rfl
@[simp] theorem State.modMgmt_dies (s : State) (f : Mgmt → Mgmt) : (s.modMgmt f).dies = s.dies := rfl
@[simp] theorem State.modMgmt_mops (s : State) (f : Mgmt → Mgmt) : (s.modMgmt f).mops = s.mops := rfl
@[simp] theorem State.modMgmt_copies (s : State) (f : Mgmt → Mgmt) : (s.modMgmt f).copies = s.copies := rfl
@[simp] theorem State.modMgmt_tasks (s : State) (f : Mgmt → Mgmt) : (s.modMgmt f).tasks = s.tasks := rfl
@[simp] theorem State.modMgmt_subs (s : State) (f : Mgmt → Mgmt) : (s.modMgmt f).subs = s.subs := rfl
@[simp] theorem State.modMgmt_serial (s : State) (f : Mgmt → Mgmt) : (s.modMgmt f).serial = s.serial := rfl
@[simp] theorem State.modMgmt_everAccepted (s : State) (f : Mgmt → Mgmt) : (s.modMgmt f).everAccepted = s.everAccepted := rfl
@[simp] theorem State.modMgmt_hostCalls (s : State) (f : Mgmt → Mgmt) : (s.modMgmt f).hostCalls = s.hostCalls := rfl
@[simp] theorem State.modMgmt_packets (s : State) (f : Mgmt → Mgmt) : (s.modMgmt f).packets = s.packets := rfl
@[simp] theorem State.modMgmt_passDue (s : State) (f : Mgmt → Mgmt) : (s.modMgmt f).passDue = s.passDue := rfl
@[simp] theorem State.modMgmt_regs (s : State) (f : Mgmt → Mgmt) : (s.modMgmt f).regs = s.regs := rfl
@[simp] theorem State.modMgmt_geXf (s : State) (f : Mgmt → Mgmt) : (s.modMgmt f).geXf = s.geXf := rfl
@[simp] theorem State.modMgmt_pkgId (s : State) (f : Mgmt → Mgmt) : (s.modMgmt f).pkgId = s.pkgId := rfl
@[simp] theorem State.modMgmt_ioCyc (s : State) (f : Mgmt → Mgmt) : (s.modMgmt f).ioCyc = s.ioCyc := rfl
@[simp] theorem State.modMgmt_inval (s : State) (f : Mgmt → Mgmt) : (s.modMgmt f).inval = s.inval := rfl
@[simp] theorem State.modMgmt_poison (s : State) (f : Mgmt → Mgmt) : (s.modMgmt f).poison = s.poison := rfl
@[simp] theorem State.modMgmt_outbox (s : State) (f : Mgmt → Mgmt) : (s.modMgmt f).outbox = s.outbox := rfl
@[simp] theorem State.modMgmt_splices (s : State) (f : Mgmt → Mgmt) : (s.modMgmt f).splices = s.splices := rfl
@[simp] theorem State.modMgmt_spliceSeen (s : State) (f : Mgmt → Mgmt) : (s.modMgmt f).spliceSeen = s.spliceSeen := rfl
@[simp] theorem State.modMgmt_forming (s : State) (f : Mgmt → Mgmt) : (s.modMgmt f).forming = s.forming := rfl
@[simp] theorem State.modMgmt_flying (s : State) (f : Mgmt → Mgmt) : (s.modMgmt f).flying = s.flying := rfl
@[simp] theorem State.modMgmt_flows (s : State) (f : Mgmt → Mgmt) : (s.modMgmt f).flows = s.flows := rfl
@[simp] theorem State.modMgmt_rx (s : State) (f : Mgmt → Mgmt) : (s.modMgmt f).rx = s.rx := rfl
@[simp] theorem State.modMgmt_hitches (s : State) (f : Mgmt → Mgmt) : (s.modMgmt f).hitches = s.hitches := rfl
@[simp] theorem State.modMgmt_contribs (s : State) (f : Mgmt → Mgmt) : (s.modMgmt f).contribs = s.contribs := rfl
@[simp] theorem State.modMgmt_faultSignals (s : State) (f : Mgmt → Mgmt) : (s.modMgmt f).faultSignals = s.faultSignals := rfl
@[simp] theorem State.modMgmt_invalOp (s : State) (f : Mgmt → Mgmt) : (s.modMgmt f).invalOp = s.invalOp := rfl
@[simp] theorem State.modMgmt_invalCtxs (s : State) (f : Mgmt → Mgmt) : (s.modMgmt f).invalCtxs = s.invalCtxs := rfl
@[simp] theorem State.modMgmt_ready (s : State) (f : Mgmt → Mgmt) : (s.modMgmt f).ready = s.ready := rfl
@[simp] theorem State.modMgmt_frames (s : State) (f : Mgmt → Mgmt) : (s.modMgmt f).frames = s.frames := rfl
@[simp] theorem State.modMgmt_owed (s : State) (f : Mgmt → Mgmt) : (s.modMgmt f).owed = s.owed := rfl
@[simp] theorem State.modMgmt_hid (s : State) (f : Mgmt → Mgmt) : (s.modMgmt f).hid = s.hid := rfl
@[simp] theorem State.modMgmt_slots (s : State) (f : Mgmt → Mgmt) : (s.modMgmt f).slots = s.slots := rfl
@[simp] theorem State.modMgmt_signals (s : State) (f : Mgmt → Mgmt) : (s.modMgmt f).signals = s.signals := rfl
@[simp] theorem State.modMgmt_toSend (s : State) (f : Mgmt → Mgmt) : (s.modMgmt f).toSend = s.toSend := rfl
@[simp] theorem State.modMgmt_sent (s : State) (f : Mgmt → Mgmt) : (s.modMgmt f).sent = s.sent := rfl
@[simp] theorem State.modMgmt_nodeKeys (s : State) (f : Mgmt → Mgmt) : (s.modMgmt f).nodeKeys = s.nodeKeys := rfl
@[simp] theorem State.modMgmt_nodeClasses (s : State) (f : Mgmt → Mgmt) : (s.modMgmt f).nodeClasses = s.nodeClasses := rfl
@[simp] theorem State.modMgmt_farOff (s : State) (f : Mgmt → Mgmt) : (s.modMgmt f).farOff = s.farOff := rfl
@[simp] theorem State.modMgmt_setUps (s : State) (f : Mgmt → Mgmt) : (s.modMgmt f).setUps = s.setUps := rfl
@[simp] theorem State.modMgmt_inbox (s : State) (f : Mgmt → Mgmt) : (s.modMgmt f).inbox = s.inbox := rfl
@[simp] theorem State.modMgmt_cur (s : State) (f : Mgmt → Mgmt) : (s.modMgmt f).cur = s.cur := rfl
@[simp] theorem State.modMgmt_nextId (s : State) (f : Mgmt → Mgmt) : (s.modMgmt f).nextId = s.nextId := rfl
@[simp] theorem State.modMgmt_opens (s : State) (f : Mgmt → Mgmt) : (s.modMgmt f).opens = s.opens := rfl
@[simp] theorem State.modMgmt_nextAge (s : State) (f : Mgmt → Mgmt) : (s.modMgmt f).nextAge = s.nextAge := rfl
@[simp] theorem State.modMgmt_rotor (s : State) (f : Mgmt → Mgmt) : (s.modMgmt f).rotor = s.rotor := rfl

end Sys2Proof.Machine
end

