-- ==== Sys2Proof/Laws/Lanes.lean ====
section
/-!
SUPPORT. Laws of instructions that give a result lane by lane, and of the checks at issue.
-/
namespace Sys2Proof.Machine

/-! ## The checks at issue -/

/-- An instruction that passes R151 has its own effect. -/
theorem issue_of_issues (r : Raw) (s : State) (body : State → State) (h : Issues r s = true) : issue r s body = .next (body s) := by
  simp only [Issues, Bool.and_eq_true, Bool.not_eq_true'] at h
  obtain ⟨⟨⟨⟨⟨h1, h2⟩, h3⟩, h4⟩, h5⟩, h6⟩ := h
  have h5' : ¬ (r.op.privileged = true ∧ (s.agents.any (fun a => !s.privOf a)) = true) := by
    rw [← Bool.and_eq_true, h5]; decide
  unfold issue
  rw [if_neg (by rw [h1]; decide), if_neg (by rw [h2]; decide), if_neg (by rw [h3, h4]; decide), if_neg h5', if_neg (by rw [h6]; decide)]

/-! ## Slices and contexts under updates -/

theorem slice_modSlice (s : State) (u i : Nat) (f : Slice → Slice) (u' i' : Nat) :
    (s.modSlice u i f).slice u' i' = if u = u' ∧ i = i' then (s.slice u' i').map f else s.slice u' i' := by
  simp only [State.slice, State.modSlice, State.team, State.modTeam, mget_mupd]
  by_cases hu : u = u'
  · simp only [hu, if_true, true_and]
    cases h : mget s.teams u' with
    | none => simp
    | some t => simp only [Option.map_some, Option.bind_some, Team.modSlice, mget_mupd]
  · simp [hu]

theorem team_modSlice (s : State) (u i : Nat) (f : Slice → Slice) (u' : Nat) :
    (s.modSlice u i f).team u' = if u = u' then (s.team u').map (fun t => t.modSlice i f) else s.team u' := by
  simp only [State.modSlice, State.team, State.modTeam, mget_mupd]

theorem ctx_modCtx (s : State) (k : Nat) (f : Ctx → Ctx) (k' : Nat) :
    (s.modCtx k f).ctx k' = if k = k' then f (s.ctx k') else s.ctx k' := by
  simp only [State.modCtx, State.setCtx, State.ctx, mget_mset]
  split
  · next h => subst h; rfl
  · rfl

@[simp] theorem slice_modCtx (s : State) (k : Nat) (f : Ctx → Ctx) (u i : Nat) : (s.modCtx k f).slice u i = s.slice u i := rfl
@[simp] theorem team_modCtx (s : State) (k : Nat) (f : Ctx → Ctx) (u : Nat) : (s.modCtx k f).team u = s.team u := rfl
@[simp] theorem ctx_modSlice (s : State) (u i : Nat) (f : Slice → Slice) (k : Nat) : (s.modSlice u i f).ctx k = s.ctx k := rfl
@[simp] theorem slice_takeOver (s : State) (a : Issuer) (ns : List Nat) (m : Mask) (u i : Nat) : (s.takeOver a ns m).slice u i = s.slice u i := rfl
@[simp] theorem team_takeOver (s : State) (a : Issuer) (ns : List Nat) (m : Mask) (u : Nat) : (s.takeOver a ns m).team u = s.team u := rfl
@[simp] theorem ctx_takeOver (s : State) (a : Issuer) (ns : List Nat) (m : Mask) (k : Nat) : (s.takeOver a ns m).ctx k = s.ctx k := rfl

/-! ## What a slice's own update keeps -/

/-- commit without REGSPACE. -/
def State.committed (s : State) (r : Raw) (a : Issuer) (m : Mask) (dst : ODst) (f : Nat → Out) : State :=
  match a with
  | .slice u i => (s.takeOver a (if dst.isReg then (destsOn a r) else []) m).modSlice u i (fun x => (x.result r m dst f).stepped r.len.bytes)
  | .ctx k => (s.takeOver a (if dst.isReg then (destsOn a r) else []) m).modCtx k (fun x => (x.result r m dst f).stepped r.len.bytes)

theorem mupd_mupd {α : Type} (m : Map α) (k : Nat) (f g : α → α) : mupd (mupd m k f) k g = mupd m k (fun x => g (f x)) := by
  simp only [mupd, List.map_map]
  congr 1
  funext p
  simp only [Function.comp]
  by_cases h : p.1 = k <;> simp [h]

theorem modSlice_modSlice (s : State) (u i : Nat) (f g : Slice → Slice) :
    (s.modSlice u i f).modSlice u i g = s.modSlice u i (fun x => g (f x)) := by
  simp only [State.modSlice, State.modTeam]
  congr 1
  simp only [mupd_mupd, Team.modSlice]

theorem mset_mset {α : Type} (m : Map α) (k : Nat) (v w : α) : mset (mset m k v) k w = mset m k w := by
  induction m with
  | nil => simp [mset]
  | cons p m ih =>
    obtain ⟨a, b⟩ := p
    simp only [mset]
    split
    · next h => subst h; simp [mset]
    · next h =>
      split
      · next h2 => simp [mset]
      · next h2 => simp [mset, h, h2, ih]

theorem modCtx_modCtx (s : State) (k : Nat) (f g : Ctx → Ctx) : (s.modCtx k f).modCtx k g = s.modCtx k (fun x => g (f x)) := by
  simp only [State.modCtx, State.setCtx, State.ctx, mget_mset_self, Option.getD_some, mset_mset]

theorem commit_of_room (s : State) (r : Raw) (a : Issuer) (m : Mask) (dst : ODst) (f : Nat → Out) (h : s.room a r = true) :
    s.commit r a m dst f = s.committed r a m dst f := by
  cases a with
  | slice u i => simp only [State.commit, h, Bool.not_true, Bool.false_eq_true, if_false, State.committed, State.advance, modSlice_modSlice]; rfl
  | ctx k => simp only [State.commit, h, Bool.not_true, Bool.false_eq_true, if_false, State.committed, State.advance, modCtx_modCtx]; rfl

/-! ## One agent's result -/

/-- An instruction whose register destination is D or the pair D, D + 1. -/
def OneDest (r : Raw) (dst : ODst) : Prop :=
  dst.isReg = true → rawDests r = [r.x.d.toNat] ∨ rawDests r = [r.x.d.toNat, r.x.d.toNat + 1]

theorem free_names (x : Slice) (ns : List Nat) (n : Nat) : mget (x.free ns).names n = if n ∈ ns then none else mget x.names n := by
  simp only [Slice.free]
  rw [mget_filter x.names (fun k => !ns.contains k) n]
  by_cases h : n ∈ ns
  · simp [h]
  · simp [h]

theorem reg_of_names (x : Slice) (n l : Nat) : x.reg n l = match mget x.names n with | some e => e.get l | none => 0 := rfl

theorem getD_four_zero (l : Nat) : (⟨0, 0, 0, 0⟩ : Four Word).get l = 0 := by
  match l with
  | 0 => rfl
  | 1 => rfl
  | 2 => rfl
  | _ + 3 => rfl

theorem putReg_names (x : Slice) (n : Nat) (m : Mask) (f : Nat → Word) (n' : Nat) :
    mget (x.putReg n m f).names n' = if n = n' then some (((mget x.names n).getD ⟨0, 0, 0, 0⟩).upd m f) else mget x.names n' := by
  simp only [Slice.putReg, mget_mset]

theorem putReg_reg (x : Slice) (n : Nat) (m : Mask) (f : Nat → Word) (n' l : Nat) (hl : l < 4) :
    (x.putReg n m f).reg n' l = if n = n' ∧ m.getLsbD l = true then f l else x.reg n' l := by
  rw [reg_of_names, putReg_names]
  by_cases h : n = n'
  · subst h
    simp only [if_true, true_and, four_upd_get _ _ _ _ hl]
    split
    · rfl
    · rw [reg_of_names]
      cases mget x.names n with
      | none => exact getD_four_zero l
      | some e => rfl
  · simp [h, reg_of_names]

theorem setPred_bit (p : Four (BitVec 8)) (q : Nat) (m : Mask) (f : Nat → Bool) (q' l : Nat) (hq : q' < 7) (hl : l < 4) :
    ((setPred p q m f).get l).getLsbD q' = if m.getLsbD l = true ∧ q = q' then f l else (p.get l).getLsbD q' := by
  simp only [setPred]
  by_cases h7 : q = 7
  · have : ¬ q = q' := by omega
    rw [if_pos h7, if_neg (fun h => this h.2)]
  · rw [if_neg h7, four_upd_get _ _ _ _ hl]
    by_cases hm : m.getLsbD l = true
    · simp only [hm, if_true, true_and]
      have hb : (BitVec.ofNat 8 (2 ^ q)).getLsbD q' = decide (q = q') := by
        rw [BitVec.getLsbD_ofNat, Nat.testBit_two_pow]
        simp; omega
      generalize BitVec.ofNat 8 (2 ^ q) = e at hb ⊢
      by_cases hqq : q = q'
      · subst hqq
        split
        · next hf => simp [hb, hf]
        · next hf => simp [hb, hf]
      · split
        · simp [hb, hqq]
        · have h8 : q' < 8 := by omega
          rw [BitVec.getLsbD_and, BitVec.getLsbD_not, hb]
          simp [hqq, h8]
    · simp [hm]

/-- The destinations of a register result. -/
def Slice.putDests (x : Slice) (r : Raw) (m : Mask) (dst : ODst) (f : Nat → Out) : Slice :=
  if !dst.isReg ∨ m = 0 then x
  else match (rawDests r) with
    | [_, _] => (x.putReg r.x.d.toNat m (fun l => BitVec.ofNat 32 (f l).val)).putReg (r.x.d.toNat + 1) m (fun l => BitVec.ofNat 32 ((f l).val / 2 ^ 32))
    | _ => x.putReg r.x.d.toNat m (fun l => BitVec.ofNat 32 (f l).val)

theorem putDests_reg (x : Slice) (r : Raw) (m : Mask) (dst : ODst) (f : Nat → Out) (hd : OneDest r dst) (n l : Nat) (hl : l < 4) :
    (x.putDests r m dst f).reg n l =
      if m.getLsbD l = true ∧ dst.isReg = true ∧ n ∈ rawDests r then BitVec.ofNat 32 ((f l).val / 2 ^ (32 * (n - r.x.d.toNat))) else x.reg n l := by
  simp only [Slice.putDests]
  by_cases h0 : dst.isReg = true
  · by_cases hm : m = 0
    · subst hm; simp
    · simp only [h0, hm, Bool.not_true, Bool.false_eq_true, or_self, if_false, true_and]
      rcases hd h0 with h | h <;> rw [h]
      · simp only [putReg_reg _ _ _ _ _ _ hl, List.mem_singleton]
        by_cases hn : n = r.x.d.toNat
        · subst hn; simp
        · have : ¬ r.x.d.toNat = n := fun e => hn e.symm
          simp [hn, this]
      · simp only [putReg_reg _ _ _ _ _ _ hl, List.mem_cons, List.not_mem_nil, or_false]
        by_cases hn : n = r.x.d.toNat
        · subst hn; simp
        · by_cases hn2 : n = r.x.d.toNat + 1
          · subst hn2; simp
          · have e1 : ¬ r.x.d.toNat = n := fun e => hn e.symm
            have e2 : ¬ r.x.d.toNat + 1 = n := fun e => hn2 e.symm
            simp [hn, hn2, e1, e2]
  · simp [h0]

theorem putDests_held (x : Slice) (r : Raw) (m : Mask) (dst : ODst) (f : Nat → Out) (hd : OneDest r dst) (n : Nat) :
    (mget (x.putDests r m dst f).names n).isSome = true ↔ (m ≠ 0 ∧ dst.isReg = true ∧ n ∈ rawDests r) ∨ (mget x.names n).isSome = true := by
  simp only [Slice.putDests]
  by_cases h0 : dst.isReg = true
  · by_cases hm : m = 0
    · subst hm; simp
    · simp only [h0, hm, Bool.not_true, Bool.false_eq_true, or_self, if_false, ne_eq, not_false_iff, true_and]
      rcases hd h0 with h | h <;> rw [h]
      · simp only [putReg_names, List.mem_singleton]
        by_cases hn : r.x.d.toNat = n
        · simp [hn]
        · have : ¬ n = r.x.d.toNat := fun e => hn e.symm
          simp [hn, this]
      · simp only [putReg_names, List.mem_cons, List.not_mem_nil, or_false]
        by_cases hn2 : r.x.d.toNat + 1 = n
        · simp [hn2]
        · have e2 : ¬ n = r.x.d.toNat + 1 := fun e => hn2 e.symm
          by_cases hn : r.x.d.toNat = n
          · simp [hn]
          · have e1 : ¬ n = r.x.d.toNat := fun e => hn e.symm
            simp [hn2, hn, e1, e2]
  · simp [h0]

theorem putDests_rest (x : Slice) (r : Raw) (m : Mask) (dst : ODst) (f : Nat → Out) :
    x.putDests r m dst f = { x with names := (x.putDests r m dst f).names } := by
  simp only [Slice.putDests]
  split
  · rfl
  · split <;> rfl

theorem result_eq (x : Slice) (r : Raw) (m : Mask) (dst : ODst) (f : Nat → Out) :
    x.result r m dst f =
      { x with names := ((x.free (rawFrees r)).putDests r m dst f).names
               preds := match dst.pred? r with | some q => setPred x.preds q m (fun l => (f l).q) | none => x.preds
               fstk := x.fstk.upd m (fun l => x.fstk.get l ||| ((f l).fl).setWidth 32)
               srcnt := x.srcnt.upd m (fun l => x.srcnt.get l + BitVec.ofNat 64 (f l).draws) } := by
  have key : x.result r m dst f =
      (let y := (x.free (rawFrees r)).putDests r m dst f
       let y := match dst.pred? r with | some q => { y with preds := setPred y.preds q m (fun l => (f l).q) } | none => y
       { y with fstk := y.fstk.upd m (fun l => y.fstk.get l ||| ((f l).fl).setWidth 32)
                srcnt := y.srcnt.upd m (fun l => y.srcnt.get l + BitVec.ofNat 64 (f l).draws) }) := rfl
  rw [key]
  simp only
  cases dst.pred? r with
  | none =>
    simp only
    rw [putDests_rest]
    rfl
  | some q =>
    simp only
    rw [putDests_rest]
    rfl

/-- A slice's result and the PC past it. -/
theorem sliceGot (x : Slice) (r : Raw) (m : Mask) (dst : ODst) (f : Nat → Out) (hd : OneDest r dst) :
    SliceGot r m dst f x ((x.result r m dst f).stepped r.len.bytes) := by
  rw [result_eq]
  constructor
  · rfl
  · intro n l hl
    have h1 := putDests_reg (x.free (rawFrees r)) r m dst f hd n l hl
    simp only [reg_of_names, Slice.stepped] at h1 ⊢
    rw [h1, free_names]
    by_cases hn : n ∈ rawFrees r <;> simp [hn]
  · intro n
    have h1 := putDests_held (x.free (rawFrees r)) r m dst f hd n
    simp only [Slice.stepped]
    rw [h1, free_names]
    by_cases hn : n ∈ rawFrees r <;> simp [hn]
  · intro q l hq hl
    simp only [Slice.stepped]
    cases h : dst.pred? r with
    | none => simp
    | some q0 => simp only [setPred_bit _ _ _ _ _ _ hq hl, Option.some.injEq]
  · intro l hl
    simp only [Slice.stepped, four_upd_get _ _ _ _ hl]
  · intro l hl
    simp only [Slice.stepped, four_upd_get _ _ _ _ hl]
  · rfl

/-- A context's result and the PC past it; its one lane acts or not. -/
theorem ctxGot (x : Ctx) (r : Raw) (m : Mask) (dst : ODst) (f : Nat → Out) :
    CtxGot r m dst f x ((x.result r m dst f).stepped r.len.bytes) := by
  by_cases hm : m = 0
  · subst hm
    constructor <;> simp [Ctx.result, Ctx.stepped]
  · have hr : x.result r m dst f =
        { x with regs := if dst.isReg then mset x.regs r.x.d.toNat (BitVec.ofNat 64 (if wideDest r then (f 0).val else (f 0).val % 2 ^ 32)) else x.regs
                 preds := match dst.pred? r with | some q => (setPred ⟨x.preds, 0, 0, 0⟩ q 1 (fun l => (f l).q)).p0 | none => x.preds
                 fstk := x.fstk ||| ((f 0).fl).setWidth 32 } := by
      simp only [Ctx.result, hm, if_false, wideDest]
      cases dst.isReg <;> cases dst.pred? r <;> rfl
    rw [hr]
    constructor
    · rfl
    · intro n
      simp only [Ctx.stepped, hm, ne_eq, not_false_iff, true_and]
      by_cases hd : dst.isReg = true
      · simp only [hd, if_true, mget_mset, true_and]
        by_cases hn : r.x.d.toNat = n
        · simp [hn]
        · have : ¬ n = r.x.d.toNat := fun e => hn e.symm
          simp [hn, this]
      · simp [hd]
    · intro q hq
      simp only [Ctx.stepped, hm, ne_eq, not_false_iff, true_and]
      cases h : dst.pred? r with
      | none => simp
      | some q0 =>
        have := setPred_bit ⟨x.preds, 0, 0, 0⟩ q0 1 (fun l => (f l).q) q 0 hq (by omega)
        simp only [Four.get] at this
        simpa using this
    · simp only [Ctx.stepped, ne_eq, hm, not_false_iff, if_true]
    · rfl

/-! ## Interrupted sums -/

/-- Resuming FP26 accumulation where it stopped gives the value and the flags of the whole sum (R349). -/
theorem promSum_resume (c : Contract) (xs ys : List Num) (t : Num) (a : Option Num) (n : Nat) (fl : Flags) :
    promSum c (xs ++ ys) t a n fl =
      promSum c ys (promPart c xs t a n fl).1 (promPart c xs t a n fl).2.1 (promPart c xs t a n fl).2.2.1 (promPart c xs t a n fl).2.2.2 := by
  induction xs generalizing t a n fl with
  | nil => rfl
  | cons x xs ih =>
    simp only [List.cons_append, promSum, promPart]
    split <;> exact ih ..

/-- The same for the other accumulator formats. -/
theorem seqSum_resume (f : Fmt) (rm : RMode) (xs ys : List Num) (p : Num × Flags) :
    seqSum f rm (xs ++ ys) p = seqSum f rm ys (seqSum f rm xs p) := by
  induction xs generalizing p with
  | nil => rfl
  | cons x xs ih => exact ih _

end Sys2Proof.Machine
end

