-- ==== Sys2Proof/Laws/PerLane.lean ====
section
/-!
SUPPORT. The effect of an instruction that gives a result lane by lane (perLane): one lemma for all of them.
-/
namespace Sys2Proof.Machine

theorem LostTo.refl (W : Issuer → Nat → Nat → Prop) (b : Submission) : LostTo W b b := by
  obtain ⟨src, asid, addr, card, hd⟩ := b
  cases src with
  | host h => rfl
  | port p c q => rfl
  | launch u i l t d sk fs => exact ⟨[], by rw [List.append_nil], fun n hn => absurd hn List.not_mem_nil⟩

theorem LostTo.trans {W : Issuer → Nat → Nat → Prop} {a b c : Submission} (h : LostTo W a b) (g : LostTo W b c) : LostTo W a c := by
  obtain ⟨src, asid, addr, card, hd⟩ := a
  cases src with
  | host x => cases h; exact g
  | port p x q => cases h; exact g
  | launch u i l t d sk fs =>
    obtain ⟨ns, rfl, hn⟩ := h
    obtain ⟨ms, rfl, hm⟩ := g
    exact ⟨ns ++ ms, by rw [List.append_assoc], fun n h => (List.mem_append.1 h).elim (hn n) (hm n)⟩

theorem laneKept_refl (W : Issuer → Nat → Nat → Prop) (as : List Issuer) (s : State) : LaneKept W as s s where
  whole := rfl
  teams _ := rfl
  slices _ _ _ := rfl
  ctxs _ _ := rfl
  ops _ op h := ⟨[], by rw [h, List.append_nil], fun p hp => absurd hp List.not_mem_nil⟩
  noOps _ h := h
  subs := ⟨rfl, fun _ b h => ⟨b, h, .refl W b⟩⟩

theorem laneKept_trans {W : Issuer → Nat → Nat → Prop} {as : List Issuer} {s t w : State} (h : LaneKept W as s t) (g : LaneKept W as t w) :
    LaneKept W as s w where
  whole := by rw [g.whole, h.whole]
  teams u := (g.teams u).trans (h.teams u)
  slices u i hn := (g.slices u i hn).trans (h.slices u i hn)
  ctxs k hn := (g.ctxs k hn).trans (h.ctxs k hn)
  ops id op ho := by
    obtain ⟨sk, h1, w1⟩ := h.ops id op ho
    obtain ⟨sk2, h2, w2⟩ := g.ops id _ h1
    exact ⟨sk ++ sk2, by rw [h2, List.append_assoc], fun p hp => (List.mem_append.1 hp).elim (w1 p) (w2 p)⟩
  noOps id hn := g.noOps id (h.noOps id hn)
  subs := by
    refine ⟨g.subs.1.trans h.subs.1, fun i b hb => ?_⟩
    obtain ⟨c, hc, l1⟩ := h.subs.2 i b hb
    obtain ⟨d, hd, l2⟩ := g.subs.2 i c hc
    exact ⟨d, hd, l1.trans l2⟩

theorem laneKept_mono {W : Issuer → Nat → Nat → Prop} {as bs : List Issuer} {s t : State} (h : LaneKept W as s t) (hs : ∀ a ∈ as, a ∈ bs) :
    LaneKept W bs s t :=
  { h with slices := fun u i hn => h.slices u i (fun hm => hn (hs _ hm)), ctxs := fun k hn => h.ctxs k (fun hm => hn (hs _ hm)) }

theorem mget_map {α β : Type} (m : Map α) (f : Nat × α → β) (k : Nat) :
    mget (m.map (fun p => (p.1, f p))) k = (mget m k).map (fun v => f (k, v)) := by
  induction m with
  | nil => rfl
  | cons p m ih =>
    obtain ⟨a, v⟩ := p
    simp only [List.map_cons, mget]
    by_cases h : a = k
    · subst h; simp
    · simp [h, ih]

theorem mem_taken (ns : List Nat) (m : Mask) (p : Nat × Nat) (h : p ∈ ns.flatMap (fun n => (maskList m).map (fun l => (n, l)))) :
    p.1 ∈ ns ∧ p.2 ∈ maskList m := by
  obtain ⟨n, hn, hp⟩ := List.mem_flatMap.1 h
  obtain ⟨l, hl, rfl⟩ := List.mem_map.1 hp
  exact ⟨hn, hl⟩

theorem mem_maskList (m : Mask) (l : Nat) (h : m.getLsbD l = true) : l ∈ maskList m := by
  have : l < 4 := BitVec.lt_of_getLsbD h
  rw [maskList, List.mem_filter]
  refine ⟨?_, h⟩
  match l, this with
  | 0, _ => decide
  | 1, _ => decide
  | 2, _ => decide
  | 3, _ => decide

theorem takeOver_ops (W : Issuer → Nat → Nat → Prop) (s : State) (a : Issuer) (ns : List Nat) (m : Mask)
    (hW : ∀ n ∈ ns, ∀ l ∈ maskList m, W a n l) (id : Nat) (op : MemOp) (h : mget s.mops id = some op) :
    ∃ sk, mget (s.takeOver a ns m).mops id = some { op with skip := op.skip ++ sk } ∧ ∀ p ∈ sk, W op.by_ p.1 p.2 := by
  have e : (s.takeOver a ns m).mops = s.mops.map (fun p => (p.1, if p.2.by_ = a ∧ p.2.kind ≠ .ldk ∧ ns ≠ []
      then { p.2 with skip := p.2.skip ++ ns.flatMap (fun n => (maskList m).map (fun l => (n, l))) } else p.2)) := by
    simp only [State.takeOver]
    congr 1
    funext p
    split <;> rfl
  rw [e, mget_map, h]
  by_cases c : op.by_ = a ∧ op.kind ≠ .ldk ∧ ns ≠ []
  · refine ⟨ns.flatMap (fun n => (maskList m).map (fun l => (n, l))), by simp only [Option.map_some, if_pos c], fun p hp => ?_⟩
    obtain ⟨h1, h2⟩ := mem_taken ns m p hp
    rw [c.1]; exact hW _ h1 _ h2
  · exact ⟨[], by simp only [Option.map_some, if_neg c, List.append_nil], fun p hp => absurd hp List.not_mem_nil⟩

theorem takeOver_subs (W : Issuer → Nat → Nat → Prop) (s : State) (a : Issuer) (ns : List Nat) (m : Mask)
    (hW : ∀ n ∈ ns, ∀ l ∈ maskList m, W a n l) (i : Nat) (b : Submission) (h : s.subs[i]? = some b) :
    ∃ c, (s.takeOver a ns m).subs[i]? = some c ∧ LostTo W b c := by
  simp only [State.takeOver, List.getElem?_map, h, Option.map_some]
  refine ⟨_, rfl, ?_⟩
  obtain ⟨src, asid, addr, card, hd⟩ := b
  cases src <;> cases a <;> try exact .refl W _
  rename_i u i l t d sk fs u' i'
  by_cases c : u = u' ∧ i = i' ∧ m.getLsbD l = true
  · simp only [if_pos c]
    refine ⟨ns, rfl, fun n hn => ?_⟩
    obtain ⟨rfl, rfl, hl⟩ := c
    exact hW n hn l (mem_maskList m l hl)
  · simp only [if_neg c]; exact .refl W _

theorem takeOver_kept (W : Issuer → Nat → Nat → Prop) (s : State) (a : Issuer) (ns : List Nat) (m : Mask)
    (hW : ∀ n ∈ ns, ∀ l ∈ maskList m, W a n l) : LaneKept W [] s (s.takeOver a ns m) where
  whole := rfl
  teams _ := rfl
  slices _ _ _ := rfl
  ctxs _ _ := rfl
  ops := takeOver_ops W s a ns m hW
  noOps id h := by
    have e : (s.takeOver a ns m).mops = s.mops.map (fun p => (p.1, if p.2.by_ = a ∧ p.2.kind ≠ .ldk ∧ ns ≠ []
        then { p.2 with skip := p.2.skip ++ ns.flatMap (fun n => (maskList m).map (fun l => (n, l))) } else p.2)) := by
      simp only [State.takeOver]
      congr 1
      funext p
      split <;> rfl
    rw [e, mget_map, h]; rfl
  subs := ⟨by simp only [State.takeOver, List.length_map], takeOver_subs W s a ns m hW⟩

theorem modSlice_kept (W : Issuer → Nat → Nat → Prop) (s : State) (u i : Nat) (f : Slice → Slice) : LaneKept W [.slice u i] s (s.modSlice u i f) where
  whole := rfl
  teams v := by
    rw [team_modSlice]
    split
    · cases s.team v <;> rfl
    · rfl
  slices v j hn := by
    rw [slice_modSlice]
    rw [if_neg]
    rintro ⟨rfl, rfl⟩
    exact hn (List.mem_singleton.2 rfl)
  ctxs _ _ := rfl
  ops := (laneKept_refl W [] s).ops
  noOps _ h := h
  subs := (laneKept_refl W [] s).subs

theorem modCtx_kept (W : Issuer → Nat → Nat → Prop) (s : State) (k : Nat) (f : Ctx → Ctx) : LaneKept W [.ctx k] s (s.modCtx k f) where
  whole := rfl
  teams _ := rfl
  slices _ _ _ := rfl
  ctxs j hn := by
    rw [ctx_modCtx, if_neg]
    rintro rfl
    exact hn (List.mem_singleton.2 rfl)
  ops := (laneKept_refl W [] s).ops
  noOps _ h := h
  subs := (laneKept_refl W [] s).subs

/-- A later write's takeover and the change of its agent. -/
theorem took_kept (W : Issuer → Nat → Nat → Prop) (s : State) (a : Issuer) (ns : List Nat) (m : Mask) (hW : ∀ n ∈ ns, ∀ l ∈ maskList m, W a n l) :
    (∀ u i f, a = .slice u i → LaneKept W [a] s ((s.takeOver a ns m).modSlice u i f)) ∧
    ∀ k f, a = .ctx k → LaneKept W [a] s ((s.takeOver a ns m).modCtx k f) := by
  have h := laneKept_mono (bs := [a]) (takeOver_kept W s a ns m hW) (by simp)
  refine ⟨?_, ?_⟩
  · rintro u i f rfl; exact laneKept_trans h (modSlice_kept W _ u i f)
  · rintro k f rfl; exact laneKept_trans h (modCtx_kept W _ k f)

theorem destsIf_sub (b : Bool) (a : Issuer) (r : Raw) (n : Nat) (h : n ∈ if b then destsOn a r else []) : n ∈ destsOn a r := by
  cases b
  · exact absurd h List.not_mem_nil
  · exact h

theorem committed_kept (W : Issuer → Nat → Nat → Prop) (s : State) (r : Raw) (a : Issuer) (m : Mask) (dst : ODst) (f : Nat → Out)
    (hW : ∀ n ∈ destsOn a r, ∀ l ∈ maskList m, W a n l) : LaneKept W [a] s (s.committed r a m dst f) := by
  have h := took_kept W s a (if dst.isReg then destsOn a r else []) m (fun n hn => hW n (destsIf_sub _ _ _ _ hn))
  cases a with
  | slice u i => exact h.1 u i _ rfl
  | ctx k => exact h.2 k (fun x => (x.result r m dst f).stepped r.len.bytes) rfl

theorem kept_ceil {W : Issuer → Nat → Nat → Prop} {as : List Issuer} {s t : State} (h : LaneKept W as s t) (u : Nat) : t.ceilOf u = s.ceilOf u := by
  have hk : t.tasks = s.tasks := by rw [h.whole]
  have ht : (t.team u).map Team.task = (s.team u).map Team.task := by
    have := congrArg (Option.map Team.task) (h.teams u)
    simpa only [Option.map_map, Function.comp_def] using this
  have hs : ∀ w : State, w.taskOf u = ((w.team u).map Team.task).bind w.task := by
    intro w
    simp only [State.taskOf]
    cases w.team u <;> rfl
  simp only [State.ceilOf, hs, ht]
  have : t.task = s.task := by funext n; simp only [State.task, hk]
  rw [this]

theorem kept_acts {W : Issuer → Nat → Nat → Prop} {as : List Issuer} {s t : State} (h : LaneKept W as s t) (a : Issuer) (ha : a ∉ as) (x : Ext) : t.acts a x = s.acts a x := by
  cases a with
  | slice u i =>
    have e : t.sl u i = s.sl u i := by simp only [State.sl, h.slices u i ha]
    have p : t.predOk (.slice u i) x = s.predOk (.slice u i) x := by
      funext l; simp only [State.predOk, State.pred, State.predsOf, e]
    simp only [State.acts, State.actOf, p, e]
  | ctx k =>
    have e := h.ctxs k ha
    have p : t.predOk (.ctx k) x = s.predOk (.ctx k) x := by
      funext l; simp only [State.predOk, State.pred, State.predsOf, e]
    simp only [State.acts, State.actOf, p]

theorem kept_room {W : Issuer → Nat → Nat → Prop} {as : List Issuer} {s t : State} (h : LaneKept W as s t) (a : Issuer) (ha : a ∉ as) (r : Raw) : t.room a r = s.room a r := by
  cases a with
  | slice u i =>
    have e : t.sl u i = s.sl u i := by simp only [State.sl, h.slices u i ha]
    show (t.acts _ _ == 0 || decide (_ ≤ t.ceilOf u)) = (s.acts _ _ == 0 || decide (_ ≤ s.ceilOf u))
    rw [kept_acts h _ ha, kept_ceil h, e]
  | ctx k => rfl

theorem committed_slice (s : State) (r : Raw) (u i : Nat) (m : Mask) (dst : ODst) (f : Nat → Out) :
    (s.committed r (.slice u i) m dst f).slice u i = (s.slice u i).map (fun x => (x.result r m dst f).stepped r.len.bytes) := by
  simp only [State.committed, slice_modSlice, and_self, if_true, slice_takeOver]

theorem committed_ctx (s : State) (r : Raw) (k : Nat) (m : Mask) (dst : ODst) (f : Nat → Out) :
    (s.committed r (.ctx k) m dst f).ctx k = ((s.ctx k).result r m dst f).stepped r.len.bytes := by
  simp only [State.committed, ctx_modCtx, if_true, ctx_takeOver]

/-- The fold over the agents of a gang, from any state in which each of them has room. -/
theorem commits_got (r : Raw) (dst : ODst) (hd : OneDest r dst) (m : Issuer → Mask) (f : Issuer → Nat → Out) (as : List Issuer) (s : State)
    (hn : as.Nodup) (hr : ∀ a ∈ as, s.room a r = true) (W : Issuer → Nat → Nat → Prop)
    (hW : ∀ a ∈ as, ∀ n ∈ destsOn a r, ∀ l ∈ maskList (m a), W a n l) :
    let t := foldS (fun a t => t.commit r a (m a) dst (f a)) as s
    LaneKept W as s t ∧
    (∀ u i x, Issuer.slice u i ∈ as → s.slice u i = some x → ∃ y, t.slice u i = some y ∧ SliceGot r (m (.slice u i)) dst (f (.slice u i)) x y) ∧
    (∀ k, Issuer.ctx k ∈ as → CtxGot r (m (.ctx k)) dst (f (.ctx k)) (s.ctx k) (t.ctx k)) := by
  induction as generalizing s with
  | nil =>
    exact ⟨laneKept_refl _ _ _, fun _ _ _ h => absurd h (List.not_mem_nil), fun _ h => absurd h (List.not_mem_nil)⟩
  | cons a as ih =>
    obtain ⟨ha, hn⟩ := List.nodup_cons.1 hn
    have h1 := committed_kept W s r a (m a) dst (f a) (hW a List.mem_cons_self)
    have hne : ∀ b ∈ as, b ∉ [a] := fun b hb e => ha (List.mem_singleton.1 e ▸ hb)
    have h2 := ih (s.committed r a (m a) dst (f a)) hn (fun b hb => by
      rw [kept_room h1 b (hne b hb)]; exact hr b (List.mem_cons_of_mem _ hb)) (fun b hb => hW b (List.mem_cons_of_mem _ hb))
    simp only [foldS_cons, commit_of_room s r a (m a) dst (f a) (hr a List.mem_cons_self)]
    obtain ⟨k1, k2, k3⟩ := h2
    refine ⟨laneKept_trans (laneKept_mono h1 (by simp)) (laneKept_mono k1 (fun b hb => List.mem_cons_of_mem _ hb)), ?_, ?_⟩
    · intro u i x hm hx
      rcases List.mem_cons.1 hm with rfl | hb
      · refine ⟨_, ?_, sliceGot x r _ dst _ hd⟩
        rw [k1.slices u i ha, committed_slice, hx]; rfl
      · exact k2 u i x hb ((h1.slices u i (hne _ hb)).trans hx)
    · intro k hm
      rcases List.mem_cons.1 hm with rfl | hb
      · rw [k1.ctxs k ha, committed_ctx]
        exact ctxGot _ r _ dst _
      · rw [← h1.ctxs k (hne _ hb)]
        exact k3 k hb

/-- Everything an instruction with a result per lane does in a state in which it has room. -/
theorem perLane_effect (r : Raw) (dst : ODst) (f : State → Issuer → Nat → Out) (s : State) (hd : OneDest r dst) (hn : s.agents.Nodup)
    (hr : ∀ a ∈ s.agents, s.room a r = true) : LaneEffect r dst f s (perLane r dst f s) := by
  have h := commits_got r dst hd (fun a => s.acts a r.x) (f s) s.agents s hn hr (writesRaw r s) (fun _ ha _ hn _ hl => ⟨ha, hn, hl⟩)
  exact ⟨h.1, h.2.1, h.2.2⟩

/-- An instruction whose meaning is perLane. -/
theorem gives_of_perLane (i : Instr) (r : Raw) (dst : ODst) (f : State → Issuer → Nat → Out) (hd : OneDest r dst)
    (h : ∀ s, exec i s = issue r s (perLane r dst f)) : Gives i r dst f := by
  intro s hs
  exact ⟨_, (h s).trans (issue_of_issues r s _ hs.1), perLane_effect r dst f s hd hs.2.1 hs.2.2⟩

theorem givesBoth_of_perLane (base : Base → Instr) (ext : Ext → Instr) (op : Op) (dst : Raw → ODst) (f : Raw → State → Issuer → Nat → Out)
    (hb : ∀ b, OneDest (.base op b) (dst (.base op b))) (hx : ∀ x, OneDest (.ext op x) (dst (.ext op x)))
    (h1 : ∀ b s, exec (base b) s = issue (.base op b) s (perLane (.base op b) (dst (.base op b)) (f (.base op b))))
    (h2 : ∀ x s, exec (ext x) s = issue (.ext op x) s (perLane (.ext op x) (dst (.ext op x)) (f (.ext op x)))) :
    GivesBoth base ext op dst f :=
  ⟨fun b => gives_of_perLane _ _ _ _ (hb b) (h1 b), fun x => gives_of_perLane _ _ _ _ (hx x) (h2 x)⟩

theorem givesExt_of_perLane (ext : Ext → Instr) (op : Op) (dst : Raw → ODst) (f : Raw → State → Issuer → Nat → Out)
    (hx : ∀ x, OneDest (.ext op x) (dst (.ext op x)))
    (h2 : ∀ x s, exec (ext x) s = issue (.ext op x) s (perLane (.ext op x) (dst (.ext op x)) (f (.ext op x)))) :
    GivesExt ext op dst f :=
  fun x => gives_of_perLane _ _ _ _ (hx x) (h2 x)

/-- An entry whose destination is one register or one pair. -/
theorem oneDest_of_shape (r : Raw) (dst : ODst) (h : ∃ w, (shapeOf r.op r.len r.x).d = .v w 1 false) : OneDest r dst := by
  intro _
  obtain ⟨w, h⟩ := h
  simp only [rawDests, h]
  cases w <;> simp [List.range_succ]

theorem oneDest_pred (r : Raw) : OneDest r .pred := by intro h; cases h

theorem perLane_congr {r : Raw} {dst : ODst} {f g : State → Issuer → Nat → Out} (h : ∀ s a l, f s a l = g s a l) :
    perLane r dst f = perLane r dst g := by
  rw [show f = g from funext fun s => funext fun a => funext fun l => h s a l]

/-! ## Each agent alone -/

/-- What F does to the agent it is given. -/
def Touches (W : Issuer → Nat → Nat → Prop) (F : Issuer → State → State) (P : Nat → Nat → Slice → Slice → Prop) (Q : Nat → Ctx → Ctx → Prop) (a : Issuer) (t : State) : Prop :=
  LaneKept W [a] t (F a t) ∧
  match a with
  | .slice u i => ∀ x, t.slice u i = some x → ∃ y, (F a t).slice u i = some y ∧ P u i x y
  | .ctx k => Q k (t.ctx k) ((F a t).ctx k)

/-- A fold of changes that each touch their own agent alone, from any state that differs from s in other agents. -/
theorem foldS_touches (W : Issuer → Nat → Nat → Prop) (F : Issuer → State → State) (P : Nat → Nat → Slice → Slice → Prop) (Q : Nat → Ctx → Ctx → Prop) (s : State)
    (done as : List Issuer) (t : State) (hk : LaneKept W done s t) (hn : as.Nodup) (hd : ∀ a ∈ as, a ∉ done)
    (H : ∀ a ∈ as, ∀ ds t, a ∉ ds → LaneKept W ds s t → Touches W F P Q a t) :
    LaneKept W as t (foldS F as t) ∧
    (∀ u i x, Issuer.slice u i ∈ as → s.slice u i = some x → ∃ y, (foldS F as t).slice u i = some y ∧ P u i x y) ∧
    (∀ k, Issuer.ctx k ∈ as → Q k (s.ctx k) ((foldS F as t).ctx k)) := by
  induction as generalizing done t with
  | nil => exact ⟨laneKept_refl _ _ _, fun _ _ _ h => absurd h List.not_mem_nil, fun _ h => absurd h List.not_mem_nil⟩
  | cons a as ih =>
    obtain ⟨ha, hn⟩ := List.nodup_cons.1 hn
    obtain ⟨h1, h2⟩ := H a List.mem_cons_self done t (hd a List.mem_cons_self) hk
    have hk' : LaneKept W (a :: done) s (F a t) :=
      laneKept_trans (laneKept_mono hk (fun _ h => List.mem_cons_of_mem _ h)) (laneKept_mono h1 (by simp))
    obtain ⟨k1, k2, k3⟩ := ih (a :: done) (F a t) hk' hn
      (fun b hb e => (List.mem_cons.1 e).elim (fun e => ha (e ▸ hb)) (hd b (List.mem_cons_of_mem _ hb)))
      (fun b hb => H b (List.mem_cons_of_mem _ hb))
    refine ⟨laneKept_trans (laneKept_mono h1 (by simp)) (laneKept_mono k1 (fun b hb => List.mem_cons_of_mem _ hb)), ?_, ?_⟩
    · intro u i x hm hx
      rcases List.mem_cons.1 hm with rfl | hb
      · obtain ⟨y, hy, p⟩ := h2 x ((hk.slices u i (hd _ List.mem_cons_self)).trans hx)
        exact ⟨y, (k1.slices u i ha).trans hy, p⟩
      · exact k2 u i x hb hx
    · intro k hm
      rcases List.mem_cons.1 hm with rfl | hb
      · have : Q k (t.ctx k) ((F (.ctx k) t).ctx k) := h2
        rw [hk.ctxs k (hd _ List.mem_cons_self)] at this
        show Q k (s.ctx k) ((foldS F as _).ctx k)
        rw [k1.ctxs k ha]; exact this
      · exact k3 k hb

theorem leaves_of_touches (W : Issuer → Nat → Nat → Prop) (F : Issuer → State → State) (P : Nat → Nat → Slice → Slice → Prop) (Q : Nat → Ctx → Ctx → Prop) (s : State)
    (hn : s.agents.Nodup) (H : ∀ a ∈ s.agents, ∀ ds t, a ∉ ds → LaneKept W ds s t → Touches W F P Q a t) : Leaves W s (foldS F s.agents s) P Q := by
  have h := foldS_touches W F P Q s [] s.agents s (laneKept_refl _ _ _) hn (fun _ _ h => absurd h List.not_mem_nil) H
  exact ⟨h.1, h.2.1, h.2.2⟩

theorem touches_become (W : Issuer → Nat → Nat → Prop) (F : Issuer → State → State) (a : Issuer) (t : State) (f : Slice → Slice) (g : Ctx → Ctx)
    (h : F a t = match a with | .slice u i => t.modSlice u i f | .ctx k => t.modCtx k g) (P : Nat → Nat → Slice → Slice → Prop)
    (Q : Nat → Ctx → Ctx → Prop) (hp : ∀ u i x, a = .slice u i → t.slice u i = some x → P u i x (f x)) (hq : ∀ k, a = .ctx k → Q k (t.ctx k) (g (t.ctx k))) :
    Touches W F P Q a t := by
  cases a with
  | slice u i =>
    simp only at h
    refine ⟨h ▸ modSlice_kept W t u i f, fun x hx => ⟨f x, ?_, hp u i x rfl hx⟩⟩
    rw [h, slice_modSlice, if_pos ⟨rfl, rfl⟩, hx]; rfl
  | ctx k =>
    simp only at h
    refine ⟨h ▸ modCtx_kept W t k g, ?_⟩
    show Q k (t.ctx k) ((F (.ctx k) t).ctx k)
    rw [h, ctx_modCtx, if_pos rfl]; exact hq k rfl

theorem issue_congr {r : Raw} {s : State} {f g : State → State} (h : f = g) : issue r s f = issue r s g := by rw [h]

end Sys2Proof.Machine
end

