-- ==== Sys2Proof/Laws/Control.lean ====
section
/-!
SUPPORT. Laws of instructions that act on each agent alone, and of branches.
-/
namespace Sys2Proof.Machine

/-- An instruction whose meaning folds a change over its agents. -/
theorem does_of_fold (i : Instr) (r : Raw) (H : State → Prop) (P : State → Nat → Nat → Slice → Slice → Prop) (Q : State → Nat → Ctx → Ctx → Prop)
    (F : State → Issuer → State → State) (h : ∀ s, exec i s = issue r s (fun s => foldS (F s) s.agents s))
    (T : ∀ s, H s → s.curOk = true → ∀ a ∈ s.agents, ∀ ds t, a ∉ ds → LaneKept (writesRaw r s) ds s t → Touches (writesRaw r s) (F s) (P s) (Q s) a t) : Does i r H P Q := by
  intro s hi hn hH
  have hc : s.curOk = true := by
    simp only [Issues, Bool.and_eq_true] at hi
    exact hi.1.1.1.1.1
  exact ⟨_, (h s).trans (issue_of_issues r s _ hi), leaves_of_touches _ (F s) _ _ s hn (T s hH hc)⟩

theorem agents_slice (s : State) (h : s.curOk = true) (u i : Nat) (hm : Issuer.slice u i ∈ s.agents) : ∃ x, s.slice u i = some x := by
  unfold State.curOk at h
  unfold State.agents at hm
  cases hc : s.cur with
  | idle => rw [hc] at h; cases h
  | ctx m c => rw [hc] at hm; simp at hm
  | gang v is =>
    rw [hc] at h hm
    simp only [Bool.and_eq_true, List.all_eq_true] at h
    simp only [List.mem_map, Issuer.slice.injEq] at hm
    obtain ⟨j, hj, rfl, rfl⟩ := hm
    exact Option.isSome_iff_exists.1 (h.2 j hj)

theorem four_upd_self {α : Type} (x : Four α) (m : Mask) (f : Nat → α) (h : ∀ i, f i = x.get i) : x.upd m f = x := by
  have : f = x.get := funext h
  obtain ⟨a, b, c, d⟩ := x
  simp [Four.upd, Four.ofFn, this, Four.get]

theorem oneDest_none (r : Raw) : OneDest r .none := by intro h; cases h

/-- Branch without REJOIN (R173, R183). -/
theorem branch_eq (x z : Slice) (len : Nat) (t : Mask) (tgt join : Nat) (h : x.rejoin.length < 32) (ha : z.act = x.act)
    (hr : z.rejoin = x.rejoin) (hp : z.pc = x.pc) :
    z.branch t tgt join len = some (x.branched { z with pc := z.pc + len } len t tgt join) := by
  have h3 : ¬ x.rejoin.length = 32 := by omega
  unfold Slice.branch Slice.branched Slice.diverge
  rw [ha, hr, hp, if_neg h3]
  by_cases h1 : t = x.act
  · rw [if_pos h1, if_pos h1]
  · rw [if_neg h1, if_neg h1]
    by_cases h2 : t = 0
    · rw [if_pos h2, if_pos h2]
    · rw [if_neg h2, if_neg h2]

theorem result_act (x : Slice) (r : Raw) (m : Mask) (dst : ODst) (f : Nat → Out) : (x.result r m dst f).act = x.act := by rw [result_eq]
theorem result_rejoin (x : Slice) (r : Raw) (m : Mask) (dst : ODst) (f : Nat → Out) : (x.result r m dst f).rejoin = x.rejoin := by rw [result_eq]
theorem result_pc (x : Slice) (r : Raw) (m : Mask) (dst : ODst) (f : Nat → Out) : (x.result r m dst f).pc = x.pc := by rw [result_eq]

theorem callPred_act (z : Slice) (q : Option Nat) (m t : Mask) : (z.callPred q m t).act = z.act := by cases q <;> rfl
theorem callPred_rejoin (z : Slice) (q : Option Nat) (m t : Mask) : (z.callPred q m t).rejoin = z.rejoin := by cases q <;> rfl
theorem callPred_pc (z : Slice) (q : Option Nat) (m t : Mask) : (z.callPred q m t).pc = z.pc := by cases q <;> rfl

theorem trace_off (s : State) (u i kind pc : Nat) (ma mb : Mask) (sc aux : Nat) (h : bitAt (s.ge 0x22128) (44 + kind - 1) = false) :
    s.trace u i kind pc ma mb sc aux = s := by
  unfold State.trace
  cases s.team u with
  | none => rfl
  | some t =>
    simp only
    rw [if_neg]
    rintro ⟨-, -, h', -⟩
    rw [h] at h'; cases h'

theorem kept_ge {W : Issuer → Nat → Nat → Prop} {as : List Issuer} {s t : State} (h : LaneKept W as s t) (off : Nat) : t.ge off = s.ge off := by rw [h.whole]; rfl
theorem kept_mem {W : Issuer → Nat → Nat → Prop} {as : List Issuer} {s t : State} (h : LaneKept W as s t) : t.mem = s.mem := by rw [h.whole]

/-- Everything a branch does to an agent, with room, a rejoin stack that is not full, and no trace record of it. -/
theorem branchOne_touches (W : Issuer → Nat → Nat → Prop) (r : Raw) (q : Option Nat) (dst : ODst) (hd : OneDest r dst) (v : Nat) (s t : State) (a : Issuer) (T : Mask)
    (tgt join : Nat) (ds : List Issuer) (hc : s.curOk = true) (hm : a ∈ s.agents) (ha : a ∉ ds) (hk : LaneKept W ds s t) (hW : ∀ n ∈ destsOn a r, ∀ l ∈ maskList T, W a n l) (hroom : s.room a r = true)
    (htr : bitAt (s.ge 0x22128) 44 = false)
    (hrj : ∀ u i x, Issuer.slice u i ∈ s.agents → s.slice u i = some x → x.rejoin.length < 32) :
    Touches W (fun a t => t.branchOne r a q dst (fun _ => { val := v }) T tgt join)
      (fun _ _ x y => ∃ z, SliceGot r T dst (fun _ => { val := v }) x z ∧ y = x.branched (z.callPred q (s.acts a r.x) T) r.len.bytes T tgt join)
      (fun _ x y => ∃ z, CtxGot r T dst (fun _ => { val := v }) x z ∧ y = z.branched q (s.acts a r.x) T tgt) a t := by
  cases a with
  | ctx k =>
    have key : t.branchOne r (.ctx k) q dst (fun _ => { val := v }) T tgt join =
        (t.takeOver (.ctx k) (if dst.isReg then destsOn (.ctx k) r else []) T).modCtx k (fun c =>
          let c := c.result r T dst (fun _ => { val := v })
          let preds := match q with | some q => (setPred ⟨c.preds, 0, 0, 0⟩ q (t.acts (.ctx k) r.x) (fun l => T.getLsbD l)).p0 | none => c.preds
          { c with pc := if T = 0 then c.pc + r.len.bytes else tgt, preds := preds, wait := .none, gateSince := .none, gateOut := false, xf := [] }) := rfl
    refine ⟨?_, ?_⟩
    · show LaneKept W _ t (t.branchOne _ _ _ _ _ _ _ _)
      rw [key]
      exact (took_kept W t _ _ _ (fun n hn => hW n (destsIf_sub _ _ _ _ hn))).2 k _ rfl
    show ∃ z, CtxGot r T dst (fun _ => { val := v }) (t.ctx k) z ∧ (t.branchOne r (.ctx k) q dst (fun _ => { val := v }) T tgt join).ctx k = _
    rw [key, ctx_modCtx, if_pos rfl, ctx_takeOver]
    refine ⟨_, ctxGot _ r T dst _, ?_⟩
    rw [kept_acts hk _ ha]
    by_cases hT : T = 0
    · simp only [hT, if_true, Ctx.branched]; cases q <;> rfl
    · simp only [hT, if_false, Ctx.branched]; cases q <;> rfl
  | slice u i =>
    obtain ⟨x, hx0⟩ := agents_slice s hc u i hm
    have hx : t.slice u i = some x := (hk.slices u i ha).trans hx0
    have hr : t.room (.slice u i) r = true := by rw [kept_room hk _ ha]; exact hroom
    have hlen := hrj u i x hm hx0
    let z := (x.result r T dst (fun _ => { val := v })).callPred q (s.acts (.slice u i) r.x) T
    have hb := branch_eq x z r.len.bytes T tgt join hlen (by rw [callPred_act, result_act]) (by rw [callPred_rejoin, result_rejoin])
      (by rw [callPred_pc, result_pc])
    have hsl : t.sl u i = x := by simp only [State.sl, hx, Option.getD_some]
    let w := x.branched (((x.result r T dst (fun _ => { val := v })).stepped r.len.bytes).callPred q (s.acts (.slice u i) r.x) T) r.len.bytes T tgt join
    let t' := (t.takeOver (.slice u i) (if dst.isReg then (destsOn (.slice u i) r) else []) T).modSlice u i (fun _ => w)
    have hw : w = { x.branched { z with pc := z.pc + r.len.bytes } r.len.bytes T tgt join with
        wait := .none, waitCyc := 0, barTok := .none, nwTok := .none, rrTok := .none, gateSince := .none, gateOut := false, xf := [] } := by
      simp only [w, z, Slice.branched]
      by_cases h1 : T = x.act
      · rw [if_pos h1, if_pos h1]; cases q <;> rfl
      · rw [if_neg h1, if_neg h1]
        by_cases h2 : T = 0
        · rw [if_pos h2, if_pos h2]; cases q <;> rfl
        · rw [if_neg h2, if_neg h2]; cases q <;> rfl
    have key : t.branchOne r (.slice u i) q dst (fun _ => { val := v }) T tgt join = t' := by
      unfold State.branchOne
      simp only [hr, hsl, kept_acts hk _ ha, Bool.not_true, Bool.false_eq_true, if_false]
      rw [hb]
      simp only [← hw]
      split
      · rfl
      · refine trace_off _ _ _ _ _ _ _ _ _ ?_
        have : LaneKept W [.slice u i] t t' := (took_kept W t _ _ _ (fun n hn => hW n (destsIf_sub _ _ _ _ hn))).1 u i _ rfl
        rw [kept_ge this, kept_ge hk]; exact htr
    refine ⟨?_, ?_⟩
    · show LaneKept W _ t (t.branchOne _ _ _ _ _ _ _ _)
      rw [key]
      exact (took_kept W t _ _ _ (fun n hn => hW n (destsIf_sub _ _ _ _ hn))).1 u i _ rfl
    · intro x' hx'
      rw [hx] at hx'; cases hx'
      refine ⟨w, ?_, _, sliceGot x r T dst _ hd, rfl⟩
      show (t.branchOne _ _ _ _ _ _ _ _).slice u i = some w
      rw [key, slice_modSlice, if_pos ⟨rfl, rfl⟩, slice_takeOver, hx]; rfl

/-- A meaning that folds branchOne over its agents, under H. -/
theorem branches_of_fold (i : Instr) (r : Raw) (dst : ODst) (hd : OneDest r dst) (q : Option Nat) (H : State → Prop)
    (T : State → Issuer → Mask) (tgt join val : State → Issuer → Nat) (F : State → Issuer → State → State)
    (h : ∀ s, exec i s = issue r s (fun s => foldS (F s) s.agents s)) (hT : ∀ s, H s → ∀ a ∈ s.agents, ∀ l ∈ maskList (T s a), l ∈ maskList (s.acts a r.x))
    (hF : ∀ s, H s → ∀ a ∈ s.agents, ∀ t, F s a t = t.branchOne r a q dst (fun _ => { val := val s a }) (T s a) (tgt s a) (join s a)) :
    Does i r
      (fun s => (∀ a ∈ s.agents, s.room a r = true) ∧ bitAt (s.ge 0x22128) 44 = false ∧
        (∀ u i x, Issuer.slice u i ∈ s.agents → s.slice u i = some x → x.rejoin.length < 32) ∧ H s)
      (fun s u i x y =>
        let a := Issuer.slice u i
        ∃ z, SliceGot r (T s a) dst (fun _ => { val := val s a }) x z ∧
          y = x.branched (z.callPred q (s.acts a r.x) (T s a)) r.len.bytes (T s a) (tgt s a) (join s a))
      (fun s k x y =>
        let a := Issuer.ctx k
        ∃ z, CtxGot r (T s a) dst (fun _ => { val := val s a }) x z ∧ y = z.branched q (s.acts a r.x) (T s a) (tgt s a)) := by
  refine does_of_fold i r _ _ _ F h (fun s hH hc a hm ds t ha hk => ?_)
  obtain ⟨h1, h2, h3, h4⟩ := hH
  obtain ⟨k1, k2⟩ := branchOne_touches (writesRaw r s) r q dst hd (val s a) s t a (T s a) (tgt s a) (join s a) ds hc hm ha hk
    (fun n hn l hl => ⟨hm, hn, hT s h4 a hm l hl⟩) (h1 a hm) h2 h3
  refine ⟨?_, ?_⟩
  · rw [hF s h4 a hm t]; exact k1
  · cases a with
    | slice u i => intro x hx; rw [hF s h4 _ hm t]; exact k2 x hx
    | ctx k => simp only at k2 ⊢; rw [hF s h4 _ hm t]; exact k2

end Sys2Proof.Machine
end

