-- ==== Sys2Proof/Laws/Encode.lean ====
section
/-!
SUPPORT. The fields that the decoder reads from an encoded word are those the encoder put there, and the decoder's answer
for the words of any operation is its row of that form.
-/
namespace Sys2Proof

theorem extract_high {m n : Nat} (x : BitVec m) (y : BitVec n) (k w : Nat) (h : n ≤ k) : (x ++ y).extractLsb' k w = x.extractLsb' (k - n) w := by
  apply BitVec.eq_of_getLsbD_eq; intro i hi
  simp only [BitVec.getLsbD_extractLsb', BitVec.getLsbD_append]
  rw [if_neg (by omega), show k + i - n = k - n + i by omega]

theorem extract_low {m n : Nat} (x : BitVec m) (y : BitVec n) (k w : Nat) (h : k + w ≤ n) : (x ++ y).extractLsb' k w = y.extractLsb' k w := by
  apply BitVec.eq_of_getLsbD_eq; intro i hi
  simp only [BitVec.getLsbD_extractLsb', BitVec.getLsbD_append]
  rw [if_pos (by omega)]

theorem extract_all {n : Nat} (x : BitVec n) : x.extractLsb' 0 n = x := by simp

theorem bit_high {m n : Nat} (x : BitVec m) (y : BitVec n) (k : Nat) (h : n ≤ k) : (x ++ y).getLsbD k = x.getLsbD (k - n) := by
  rw [BitVec.getLsbD_append, if_neg (by omega)]
theorem bit_low {m n : Nat} (x : BitVec m) (y : BitVec n) (k : Nat) (h : k < n) : (x ++ y).getLsbD k = y.getLsbD k := by
  rw [BitVec.getLsbD_append, if_pos h]
theorem bit_boolBit (b : Bool) : (boolBit b).getLsbD 0 = b := by cases b <;> rfl

theorem enc_lt (op : Op) : op.enc.1 < 128 ∧ op.enc.2.1 < 256 := by cases op <;> decide

theorem fields_of_baseWord (l : Len) (op : Op) (d a b : BitVec 7) (la lb : Bool) :
    baseOf (baseWord l op d a b la lb) = { d := d, a := a, b := b, la := la, lb := lb } := by
  simp only [baseOf, baseWord, Base.mk.injEq]
  exact ⟨(extract_high _ _ _ _ (by decide)).trans ((extract_high _ _ _ _ (by decide)).trans ((extract_high _ _ _ _ (by decide)).trans ((extract_high _ _ _ _ (by decide)).trans ((extract_low _ _ _ _ (by decide)).trans (extract_all d))))), (extract_high _ _ _ _ (by decide)).trans ((extract_high _ _ _ _ (by decide)).trans ((extract_high _ _ _ _ (by decide)).trans ((extract_low _ _ _ _ (by decide)).trans (extract_all a)))), (extract_high _ _ _ _ (by decide)).trans ((extract_high _ _ _ _ (by decide)).trans ((extract_low _ _ _ _ (by decide)).trans (extract_all b))), (bit_high _ _ _ (by decide)).trans ((bit_low _ _ _ (by decide)).trans (bit_boolBit la)), (bit_low _ _ _ (by decide)).trans (bit_boolBit lb)⟩

theorem opField_baseWord (l : Len) (op : Op) (d a b : BitVec 7) (la lb : Bool) : opField (baseWord l op d a b la lb) = op.enc.1 :=
  (congrArg BitVec.toNat ((extract_high _ _ _ _ (by decide)).trans ((extract_high _ _ _ _ (by decide)).trans ((extract_high _ _ _ _ (by decide)).trans ((extract_high _ _ _ _ (by decide)).trans ((extract_high _ _ _ _ (by decide)).trans ((extract_low _ _ _ _ (by decide)).trans (extract_all _)))))))).trans (by have := (enc_lt op).1; rw [BitVec.toNat_ofNat]; omega)

theorem lenOf_baseWord (l : Len) (op : Op) (d a b : BitVec 7) (la lb : Bool) : lenOf (baseWord l op d a b la lb) = l := by
  have h : (baseWord l op d a b la lb).extractLsb' 30 2 = l.code := (extract_high _ _ _ _ (by decide)).trans ((extract_high _ _ _ _ (by decide)).trans ((extract_high _ _ _ _ (by decide)).trans ((extract_high _ _ _ _ (by decide)).trans ((extract_high _ _ _ _ (by decide)).trans ((extract_high _ _ _ _ (by decide)).trans (extract_all _))))))
  rw [lenOf, h]
  cases l <;> rfl

theorem xopField_word2 (op : Op) (x : Ext) : xopField (word2 op x) = op.enc.2.1 :=
  (congrArg BitVec.toNat ((extract_high _ _ _ _ (by decide)).trans ((extract_high _ _ _ _ (by decide)).trans ((extract_high _ _ _ _ (by decide)).trans ((extract_high _ _ _ _ (by decide)).trans ((extract_high _ _ _ _ (by decide)).trans ((extract_high _ _ _ _ (by decide)).trans (extract_all _)))))))).trans (by have := (enc_lt op).2; rw [BitVec.toNat_ofNat]; omega)

theorem clsOf_code (c : Cls) : clsOf c.code = c := by cases c <;> rfl

theorem opOf_enc (op : Op) : opOf op.enc.1 op.enc.2.1 = some op := by cases op <;> decide +kernel

theorem litOf_parts (w : DWord) : litOf (w.extractLsb' 0 32) (w.extractLsb' 32 32) = w := by
  apply BitVec.eq_of_getLsbD_eq; intro i hi
  by_cases h : i < 32
  · exact (bit_low _ _ _ h).trans (by simp [h])
  · exact (bit_high _ _ _ (Nat.le_of_not_lt h)).trans (by simp [show i - 32 < 32 by omega, show 32 + (i - 32) = i by omega])

theorem fields_of_words (f : Form) (b : Base) (op : Op) (x : Ext) (lit : DWord) : extOf f b (word2 op x) (word3 x) lit =
    { x with form := f, d := b.d, a := b.a, b := b.b, la := b.la, lb := b.lb, lit := lit } := by
  simp only [extOf, word2, word3, Sel.code, Ext.mk.injEq, true_and, and_true]
  refine ⟨(extract_high _ _ _ _ (by decide)).trans ((extract_high _ _ _ _ (by decide)).trans ((extract_high _ _ _ _ (by decide)).trans ((extract_high _ _ _ _ (by decide)).trans ((extract_high _ _ _ _ (by decide)).trans ((extract_low _ _ _ _ (by decide)).trans (extract_all _)))))), (bit_high _ _ _ (by decide)).trans ((bit_high _ _ _ (by decide)).trans ((bit_high _ _ _ (by decide)).trans ((bit_high _ _ _ (by decide)).trans ((bit_low _ _ _ (by decide)).trans (bit_boolBit _))))), (extract_high _ _ _ _ (by decide)).trans ((extract_high _ _ _ _ (by decide)).trans ((extract_high _ _ _ _ (by decide)).trans ((extract_low _ _ _ _ (by decide)).trans (extract_all _)))), (extract_high _ _ _ _ (by decide)).trans ((extract_high _ _ _ _ (by decide)).trans ((extract_low _ _ _ _ (by decide)).trans (extract_all _))), (extract_high _ _ _ _ (by decide)).trans ((extract_low _ _ _ _ (by decide)).trans (extract_all _)), (extract_low _ _ _ _ (by decide)).trans (extract_all _), (extract_high _ _ _ _ (by decide)).trans ((extract_high _ _ _ _ (by decide)).trans ((extract_high _ _ _ _ (by decide)).trans ((extract_high _ _ _ _ (by decide)).trans ((extract_high _ _ _ _ (by decide)).trans (extract_all _))))), (bit_high _ _ _ (by decide)).trans ((bit_high _ _ _ (by decide)).trans ((bit_high _ _ _ (by decide)).trans ((bit_high _ _ _ (by decide)).trans ((bit_low _ _ _ (by decide)).trans (bit_boolBit _))))), ?_, ?_, ?_, (extract_low _ _ _ _ (by decide)).trans (extract_all _)⟩
  · exact (Sel.mk.injEq ..).mpr ⟨(congrArg clsOf ((extract_high _ _ _ _ (by decide)).trans ((extract_high _ _ _ _ (by decide)).trans ((extract_high _ _ _ _ (by decide)).trans ((extract_low _ _ _ _ (by decide)).trans ((extract_high _ _ _ _ (by decide)).trans ((extract_high _ _ _ _ (by decide)).trans (extract_all _)))))))).trans (clsOf_code _), (bit_high _ _ _ (by decide)).trans ((bit_high _ _ _ (by decide)).trans ((bit_high _ _ _ (by decide)).trans ((bit_low _ _ _ (by decide)).trans ((bit_high _ _ _ (by decide)).trans ((bit_low _ _ _ (by decide)).trans (bit_boolBit _)))))), (extract_high _ _ _ _ (by decide)).trans ((extract_high _ _ _ _ (by decide)).trans ((extract_high _ _ _ _ (by decide)).trans ((extract_low _ _ _ _ (by decide)).trans ((extract_low _ _ _ _ (by decide)).trans (extract_all _)))))⟩
  · exact (Sel.mk.injEq ..).mpr ⟨(congrArg clsOf ((extract_high _ _ _ _ (by decide)).trans ((extract_high _ _ _ _ (by decide)).trans ((extract_low _ _ _ _ (by decide)).trans ((extract_high _ _ _ _ (by decide)).trans ((extract_high _ _ _ _ (by decide)).trans (extract_all _))))))).trans (clsOf_code _), (bit_high _ _ _ (by decide)).trans ((bit_high _ _ _ (by decide)).trans ((bit_low _ _ _ (by decide)).trans ((bit_high _ _ _ (by decide)).trans ((bit_low _ _ _ (by decide)).trans (bit_boolBit _))))), (extract_high _ _ _ _ (by decide)).trans ((extract_high _ _ _ _ (by decide)).trans ((extract_low _ _ _ _ (by decide)).trans ((extract_low _ _ _ _ (by decide)).trans (extract_all _))))⟩
  · exact (Sel.mk.injEq ..).mpr ⟨(congrArg clsOf ((extract_high _ _ _ _ (by decide)).trans ((extract_low _ _ _ _ (by decide)).trans ((extract_high _ _ _ _ (by decide)).trans ((extract_high _ _ _ _ (by decide)).trans (extract_all _)))))).trans (clsOf_code _), (bit_high _ _ _ (by decide)).trans ((bit_low _ _ _ (by decide)).trans ((bit_high _ _ _ (by decide)).trans ((bit_low _ _ _ (by decide)).trans (bit_boolBit _)))), (extract_high _ _ _ _ (by decide)).trans ((extract_low _ _ _ _ (by decide)).trans ((extract_low _ _ _ _ (by decide)).trans (extract_all _)))⟩

theorem decode_base (op : Op) (b : Base) (h : op.enc.2.1 = 0) : decodeWords (Raw.base op b).words = orForm op (op.baseInstr b) := by
  have := opOf_enc op
  rw [h] at this
  simp [Raw.words, Raw.base, decodeWords, lenOf_baseWord, opField_baseWord, fields_of_baseWord, this, Base.ext]

theorem decode_ext (op : Op) (x : Ext) (hc : x.canonical = true) (h : x.form = .x10 → op.enc.2.1 = 0) :
    decodeWords (Raw.ext op x).words = orForm op (op.extInstr x) := by
  obtain ⟨form, d, a, b, la, lb, c, pn, pi, rm, ty, sc, imm, lc, sC, sB, sA, rsv, lit⟩ := x
  have h0 := opOf_enc op
  cases form
  · simp [Ext.canonical] at hc; subst hc
    simp [Raw.words, Raw.ext, Form.len, decodeWords, lenOf_baseWord, opField_baseWord, fields_of_baseWord, xopField_word2, h0, fields_of_words]
  · rw [h rfl] at h0
    simp [Ext.canonical, Ext.litForm] at hc
    simp [Raw.words, Raw.ext, Form.len, decodeWords, lenOf_baseWord, opField_baseWord, fields_of_baseWord, h0, litOf_parts, extOf, clsOf, Sel.plain]
    obtain ⟨rfl, rfl, rfl, rfl, rfl, rfl, rfl, rfl, rfl, rfl, rfl, rfl, rfl, rfl⟩ := hc
    rfl
  · simp [Raw.words, Raw.ext, Form.len, decodeWords, lenOf_baseWord, opField_baseWord, fields_of_baseWord, xopField_word2, h0, fields_of_words, litOf_parts]
end Sys2Proof
end

