-- ==== Sys2Proof/Laws/Memory.lean ====
section
/-!
SUPPORT. Laws of memory: the canonical form and reading what was written.
-/
namespace Sys2Proof.Machine

theorem wfFrom_weaken : ∀ (m : Mem) (lo lo' : Nat), lo' ≤ lo → Mem.wfFrom m lo = true → Mem.wfFrom m lo' = true
  | [], _, _, _, _ => rfl
  | (a, b) :: m, lo, lo', hl, h => by
    simp only [Mem.wfFrom, Bool.and_eq_true, decide_eq_true_eq] at h ⊢
    exact ⟨⟨by omega, h.1.2⟩, h.2⟩

theorem get_below : ∀ (m : Mem) (lo a : Nat), Mem.wfFrom m lo = true → a < lo → Mem.get m a = 0
  | [], _, _, _, _ => rfl
  | (a', b) :: m, lo, a, h, hl => by
    simp only [Mem.wfFrom, Bool.and_eq_true, decide_eq_true_eq] at h
    have : a' ≠ a := by omega
    simp only [Mem.get, if_neg this]
    exact get_below m (a' + 1) a h.2 (by omega)

theorem put_wf : ∀ (m : Mem) (lo a : Nat) (b : Byte), b ≠ 0 → lo ≤ a → Mem.wfFrom m lo = true → Mem.wfFrom (Mem.put m a b) lo = true
  | [], lo, a, b, hb, hl, _ => by
    have hb : ¬b = 0#8 := hb
    simp [Mem.put, Mem.wfFrom, hb, hl]
  | (a', b') :: m, lo, a, b, hb, hl, h => by
    simp only [Mem.wfFrom, Bool.and_eq_true, decide_eq_true_eq] at h
    simp only [Mem.put]
    split
    · next e =>
      have hb : ¬b = 0#8 := hb
      subst e
      simp [Mem.wfFrom, hb, hl, h.2]
    · split
      · next e1 e2 =>
        simp only [Mem.wfFrom, Bool.and_eq_true, decide_eq_true_eq]
        exact ⟨⟨hl, by simpa using hb⟩, ⟨by omega, h.1.2⟩, h.2⟩
      · simp only [Mem.wfFrom, Bool.and_eq_true, decide_eq_true_eq]
        exact ⟨h.1, put_wf m (a' + 1) a b hb (by omega) h.2⟩

theorem del_wf : ∀ (m : Mem) (lo a : Nat), Mem.wfFrom m lo = true → Mem.wfFrom (Mem.del m a) lo = true
  | [], _, _, _ => rfl
  | (a', b') :: m, lo, a, h => by
    simp only [Mem.wfFrom, Bool.and_eq_true, decide_eq_true_eq] at h
    simp only [Mem.del]
    split
    · exact wfFrom_weaken m (a' + 1) lo (by omega) h.2
    · simp only [Mem.wfFrom, Bool.and_eq_true, decide_eq_true_eq]
      exact ⟨h.1, del_wf m (a' + 1) a h.2⟩

/-- Writing a byte keeps the canonical form. -/
theorem set_wf (m : Mem) (a : Nat) (b : Byte) (h : m.wf = true) : (Mem.set m a b).wf = true := by
  simp only [Mem.set]
  split
  · exact del_wf m 0 a h
  · next hb => exact put_wf m 0 a b hb (by omega) h

/-- Writing bytes keeps the canonical form. -/
theorem write_wf : ∀ (bs : List Byte) (m : Mem) (a : Nat), m.wf = true → (Mem.write m a bs).wf = true
  | [], _, _, h => h
  | b :: bs, m, a, h => write_wf bs (Mem.set m a b) (a + 1) (set_wf m a b h)

theorem get_put : ∀ (m : Mem) (lo a : Nat) (b : Byte) (c : Nat), Mem.wfFrom m lo = true → Mem.get (Mem.put m a b) c = if a = c then b else Mem.get m c
  | [], _, a, b, c, _ => by simp [Mem.put, Mem.get]
  | (a', b') :: m, lo, a, b, c, h => by
    simp only [Mem.wfFrom, Bool.and_eq_true, decide_eq_true_eq] at h
    simp only [Mem.put]
    split
    · next e => subst e; simp only [Mem.get]; split <;> simp_all
    · split
      · simp [Mem.get]
      · simp only [Mem.get, get_put m (a' + 1) a b c h.2]
        split
        · next e => subst e; rw [if_neg]; omega
        · rfl

theorem get_del : ∀ (m : Mem) (lo a : Nat) (c : Nat), Mem.wfFrom m lo = true → Mem.get (Mem.del m a) c = if a = c then 0 else Mem.get m c
  | [], _, _, _, _ => by simp [Mem.del, Mem.get]
  | (a', b') :: m, lo, a, c, h => by
    simp only [Mem.wfFrom, Bool.and_eq_true, decide_eq_true_eq] at h
    simp only [Mem.del]
    split
    · next e =>
      subst e
      split
      · next e2 => subst e2; exact get_below m (a' + 1) a' h.2 (by omega)
      · next e2 => simp [Mem.get, e2]
    · simp only [Mem.get, get_del m (a' + 1) a c h.2]
      split
      · next e => subst e; rw [if_neg]; omega
      · rfl

/-- Reading after writing one byte. -/
theorem get_set (m : Mem) (a : Nat) (b : Byte) (c : Nat) (h : m.wf = true) : Mem.get (Mem.set m a b) c = if a = c then b else Mem.get m c := by
  simp only [Mem.set]
  split
  · next e => rw [get_del m 0 a c h, e]
  · exact get_put m 0 a b c h

/-- Writing bytes leaves every other address alone. -/
theorem get_write_out : ∀ (bs : List Byte) (m : Mem) (a c : Nat), m.wf = true → c < a ∨ a + bs.length ≤ c → Mem.get (Mem.write m a bs) c = Mem.get m c
  | [], _, _, _, _, _ => rfl
  | b :: bs, m, a, c, h, hc => by
    simp only [List.length_cons] at hc
    rw [Mem.write, get_write_out bs (Mem.set m a b) (a + 1) c (set_wf m a b h) (by omega), get_set m a b c h, if_neg]
    omega

/-- The bytes written are the bytes read. -/
theorem read_write : ∀ (bs : List Byte) (m : Mem) (a : Nat), m.wf = true → Mem.read (Mem.write m a bs) a bs.length = bs
  | [], _, _, _ => rfl
  | b :: bs, m, a, h => by
    simp only [List.length_cons, Mem.read, Mem.write]
    rw [get_write_out bs (Mem.set m a b) (a + 1) a (set_wf m a b h) (by omega), get_set m a b a h, if_pos rfl,
      read_write bs (Mem.set m a b) (a + 1) (set_wf m a b h)]

theorem read_length : ∀ (n : Nat) (m : Mem) (a : Nat), (Mem.read m a n).length = n
  | 0, _, _ => rfl
  | n + 1, m, a => by simp [Mem.read, read_length n m (a + 1)]

/-- Canonical memories that read alike are equal. -/
theorem ext_of_get : ∀ (m n : Mem) (lo : Nat), Mem.wfFrom m lo = true → Mem.wfFrom n lo = true → (∀ a, Mem.get m a = Mem.get n a) → m = n
  | [], [], _, _, _, _ => rfl
  | [], (a, b) :: n, lo, _, h, e => by
    simp only [Mem.wfFrom, Bool.and_eq_true, decide_eq_true_eq] at h
    have := e a
    simp only [Mem.get, if_true] at this
    exact absurd this.symm (by simpa using h.1.2)
  | (a, b) :: m, [], lo, h, _, e => by
    simp only [Mem.wfFrom, Bool.and_eq_true, decide_eq_true_eq] at h
    have := e a
    simp only [Mem.get, if_true] at this
    exact absurd this (by simpa using h.1.2)
  | (a, b) :: m, (a', b') :: n, lo, hm, hn, e => by
    simp only [Mem.wfFrom, Bool.and_eq_true, decide_eq_true_eq, bne_iff_ne, ne_eq] at hm hn
    have key : a = a' := by
      rcases Nat.lt_trichotomy a a' with h | h | h
      · have := e a
        have hne : a' ≠ a := by omega
        simp only [Mem.get, if_true, if_neg hne, get_below n (a' + 1) a hn.2 (by omega)] at this
        exact absurd this hm.1.2
      · exact h
      · have := e a'
        have hne : a ≠ a' := by omega
        simp only [Mem.get, if_true, if_neg hne, get_below m (a + 1) a' hm.2 (by omega)] at this
        exact absurd this.symm hn.1.2
    subst key
    have hb : b = b' := by have := e a; simpa [Mem.get] using this
    subst hb
    congr 1
    refine ext_of_get m n (a + 1) hm.2 hn.2 (fun c => ?_)
    by_cases h : a = c
    · subst h; rw [get_below m (a + 1) a hm.2 (by omega), get_below n (a + 1) a hn.2 (by omega)]
    · have := e c
      simpa [Mem.get, h] using this

end Sys2Proof.Machine
end

