-- ==== Sys2Proof/Tests/Slice0.lean ====
section
/-!
SUPPORT. Tests. Expected results are worked out by hand from the spec; each test names its rule. `test_meets_<Statement>`
shows states and operands that meet the hypotheses of a statement.
-/
namespace Sys2Proof.Tests
open Sys2Proof Sys2Proof.Machine

set_option Elab.async false

/-! ## A small machine -/

def core0 : CoreId := { die := 0, quad := 0, core := 0 }

/-- Four lanes: v0 = 5 6 7 8, v1 = -1 2 3 4, v2:v3 an address in HBM, v4:v5 = 0x100, v8:v9 an aligned address. -/
def sliceA : Slice :=
  { pc := 0x100000
    names := [(0, ⟨5, 6, 7, 8⟩), (1, ⟨0xFFFFFFFF, 2, 3, 4⟩), (2, ⟨0x200000, 0x200004, 0x200008, 0x20000C⟩), (3, ⟨0, 0, 0, 0⟩),
              (4, ⟨0x100, 0x100, 0x100, 0x100⟩), (5, ⟨0, 0, 0, 0⟩), (8, ⟨0x200100, 0x200100, 0x200100, 0x200100⟩), (9, ⟨0, 0, 0, 0⟩)] }
def teamA : Team :=
  { task := 1, index := 0, core := core0, age := 0, lanes := 4, slices := [(0, sliceA)], trapBase := 0x300000, csa := some 0x400000 }
def taskA : Task := { serial := 1, slot := 0, card := loadCard, asid := 0, src := .host 0, started := true, next := 1, left := 1 }
/-- One slice executes, with every feature accepted; virtual addresses below 2 GiB are physical ones. -/
def stRaw : State :=
  let s : State := ({ teams := [(0, teamA)], tasks := [(1, taskA)], serial := 2, nextId := 1, cur := .gang 0 [0], mgmt := { started := true } } : State).setGe 0x20050 0xFF
  let s := s.homeWrite 0 (toBytes 8 (2 ^ 63 + 0x40000))
  let s := s.homeWrite 0x40000 (toBytes 8 (0x80000 + 1))
  s.homeWrite 0x80000 (toBytes 8 0x59)
/-- The same, with the leaf of the pages used in the first core's TLB. -/
def stA : State :=
  match stRaw.walk 0 0x200000 with
  | .ok t => stRaw.tlbFill core0 t
  | .error _ => stRaw
/-- A context of the first core that the team holds executes. -/
def stC (m : Bool) : State :=
  stA.setCtx (ctxKey core0 m) { holder := some 0, owner := some 0, run := .running, pc := 0x100000, contract := 40, regs := [(0, 7), (1, 0x200000), (2, 16)] }
def onCtx (m : Bool) : State := { stC m with cur := .ctx m core0 }

def bf (d a b : Nat) : Base := ⟨BitVec.ofNat 7 d, BitVec.ofNat 7 a, BitVec.ofNat 7 b, false, false⟩
def xf (d a b : Nat) : Ext := (bf d a b).ext
def bR (op : Op) (d a b : Nat) : Raw := .base op (bf d a b)
def xR (op : Op) (d a b : Nat) : Raw := .ext op (xf d a b)

def next? (o : Host.Outcome State Fault Refusal) : Option State :=
  match o with
  | .next t => some t
  | _ => none
/-- A register of the slice in a lane, after an instruction. -/
def regAfter (i : Instr) (s : State) (n l : Nat) : Option Word := (next? (exec i s)).map (fun t => (t.sl 0 0).reg n l)
/-- A predicate of the slice in a lane, after an instruction. -/
def predAfter (i : Instr) (s : State) (q l : Nat) : Option Bool := (next? (exec i s)).map (fun t => t.pred (.slice 0 0) l q)
def pcAfter (i : Instr) (s : State) : Option Nat := (next? (exec i s)).map (fun t => (t.sl 0 0).pc)

theorem alone (r : Raw) (h : Issues r stA = true) : Alone r stA 0 0 sliceA := ⟨h, rfl, rfl⟩


/-! ## Hypotheses that are met: instructions with a result in each lane -/

theorem test_meets_MoveSelectAddressResults : (∀ op ∈ [Op.mov, .isel], Ready (bR op 4 0 2) stA ∧ Ready (xR op 4 0 2) stA) ∧ Ready (xR .lea 24 2 0) stA := by
  unfold Ready; decide +kernel
theorem test_meets_AddSubtractResults : ∀ op ∈ [Op.iadd, .isub, .iadd64], Ready (bR op 4 0 2) stA ∧ Ready (xR op 4 0 2) stA := by unfold Ready; decide +kernel
theorem test_meets_CarryBorrowResults : ∀ op ∈ [Op.iaddc, .isubb], Ready (bR op 4 0 1) stA ∧ Ready (xR op 4 0 1) stA := by unfold Ready; decide +kernel
theorem test_meets_MultiplyMinMaxAbsResults : (∀ op ∈ [Op.imul, .imulh, .imin, .imax], Ready (bR op 4 0 1) stA ∧ Ready (xR op 4 0 1) stA) ∧
    Ready (bR .iabs 4 0 0) stA ∧ Ready (xR .iabs 4 0 0) stA ∧ Ready (xR .imad 4 0 1) stA ∧ Ready (xR .imad64 4 0 1) stA := by unfold Ready; decide +kernel
theorem test_meets_BitwiseLogicResults : ∀ op ∈ [Op.and, .or, .xor, .andn], Ready (bR op 4 0 1) stA ∧ Ready (xR op 4 0 1) stA ∧
    Ready (.ext op { xf 4 0 0x78 with selB := { Sel.plain with cls := .lit } }) stA := by unfold Ready; decide +kernel
theorem test_meets_ShiftRotateResults : (∀ op ∈ [Op.shl, .shr, .sar, .rot], Ready (bR op 4 0 1) stA ∧ Ready (xR op 4 0 1) stA) ∧ Ready (xR .shf 4 0 1) stA := by
  unfold Ready; decide +kernel
theorem test_meets_BitFieldResults : (∀ op ∈ [Op.popc, .clz, .brev], Ready (bR op 4 0 0) stA ∧ Ready (xR op 4 0 0) stA) ∧ Ready (bR .bfx 4 0 1) stA ∧
    Ready (xR .bfx 4 0 1) stA ∧ Ready (xR .bfi 4 0 1) stA ∧ Ready (xR .perm 4 0 1) stA := by unfold Ready; decide +kernel
theorem test_meets_ComparisonPredicates : ∀ op ∈ [Op.icmp, .fcmp, .dcmp], Ready (bR op 1 0 2) stA ∧ Ready (xR op 1 0 2) stA := by unfold Ready; decide +kernel
theorem test_meets_PlopPredicates : Ready (bR .plop 0x31 0 7) stA ∧ Ready (xR .plop 7 1 2) stA ∧ stA.curOk = true ∧
    8 ≤ (bf 0 8 0).a.toNat ∧ 8 ≤ (xf 0 7 8).b.toNat := by unfold Ready; decide +kernel
theorem test_meets_FloatArithmeticResults : (∀ op ∈ [Op.fadd, .fsub, .fmul, .dadd, .dmul], Ready (bR op 4 0 2) stA ∧ Ready (xR op 4 0 2) stA) ∧
    Ready (xR .ffma 4 0 1) stA ∧ Ready (xR .dfma 4 0 2) stA := by unfold Ready; decide +kernel
theorem test_meets_PackedFloatMinMaxResults : (∀ op ∈ [Op.hadd2, .hmul2, .hmin2, .hmax2, .fmin, .fmax], Ready (bR op 4 0 2) stA ∧ Ready (xR op 4 0 2) stA) ∧
    Ready (xR .hfma2 4 0 1) stA := by unfold Ready; decide +kernel
theorem test_meets_FloatFunctionResults : (∀ op ∈ [Op.fscale, .fdiv], Ready (bR op 4 0 2) stA ∧ Ready (xR op 4 0 2) stA) ∧
    ∀ op ∈ [Op.fsqrt, .frcp, .frsq, .fexp2, .flog2, .fsin, .fcos], Ready (bR op 4 0 0) stA ∧ Ready (xR op 4 0 0) stA := by unfold Ready; decide +kernel
theorem test_meets_ConversionResults : Ready (xR .fdot 4 0 1) stA ∧ Ready (.ext .cvt { xf 4 0 0 with imm := 8 }) stA ∧ Ready (bR .cvtpk 4 0 2) stA ∧
    Ready (xR .cvtpk 4 0 2) stA ∧ Ready (.ext .dqblk { xf 4 0 0 with ty := 17 }) stA ∧ Ready (bR .vqdec 4 0 2) stA ∧ Ready (xR .vqdec 4 0 2) stA := by
  unfold Ready; decide +kernel
theorem test_meets_QblkBlockResults : Ready (.ext .qblk { xf 4 0 0 with ty := 17 }) stA := by unfold Ready; decide +kernel
theorem test_meets_CrossLaneResults : (∀ op ∈ [Op.xshf, .xbcast], Ready (bR op 4 0 2) stA ∧ Ready (xR op 4 0 2) stA) ∧
    (∀ op ∈ [Op.xred, .xscan, .xmatch], Ready (bR op 4 0 0) stA ∧ Ready (xR op 4 0 0) stA) ∧ Ready (bR .xvote 4 0 0) stA ∧ Ready (xR .xvote 4 0 0) stA ∧
    Ready (xR .xdot 4 0 1) stA := by unfold Ready; decide +kernel
theorem test_meets_ClassAndSpecialReads : (∀ op ∈ [Op.fclass, .smov], Ready (bR op 4 0 0) stA ∧ Ready (xR op 4 0 0) stA) ∧ flag0 (xR .fclass 4 0 0) = false := by
  unfold Ready; decide +kernel


/-! ## Hypotheses that are met: control, traps, barriers -/

theorem test_meets_NopMovesOnlyPc : (∀ r ∈ [bR .nop 0 0 0, xR .nop 0 0 0, bR .yield 0 0 0, xR .yield 0 0 0], Issues r stA = true) ∧ stA.agents.Nodup := by decide +kernel
theorem test_meets_YieldWaits64Cycles : Issues (bR .yield 0 0 0) stA = true ∧ Issues (xR .yield 0 0 0) (onCtx true) = true ∧ Issues (bR .yield 0 0 0) (onCtx false) = true ∧
    (let s := stA.modSlice 0 0 (fun x => { x with yieldEnd := 65 })
     (s.team 0).isSome = true ∧ (s.slice 0 0).any (fun x => decide (s.cyc core0.die < x.yieldEnd)) = true) ∧
    (let s := (stC true).modCtx (ctxKey core0 true) (fun x => { x with yieldEnd := 65 })
     s.cyc (ctxCore (ctxKey core0 true)).die < (s.ctx (ctxKey core0 true)).yieldEnd) := by decide +kernel
theorem test_meets_BranchAndCallTargets : (∀ op ∈ [Op.bra, .call], ∀ r ∈ [bR op 4 0 2, xR op 24 0 2], Issues r stA = true ∧ (∀ a ∈ stA.agents, stA.room a r = true)) ∧
    bitAt (stA.ge 0x22128) 44 = false ∧ sliceA.rejoin.length < 32 ∧ stA.slice 0 0 = some sliceA := by decide +kernel
theorem test_meets_IndirectBranchTargets : (∀ op ∈ [Op.brx, .callx], ∀ r ∈ [bR op 4 4 2, xR op 24 4 2], Issues r stA = true ∧ (∀ a ∈ stA.agents, stA.room a r = true)) ∧
    (∀ r ∈ [bR .ret 0 4 0, xR .ret 0 4 0], Issues r stA = true ∧ ∀ a ∈ stA.agents, withLeader r stA a = stA.acts a r.x) := by decide +kernel
/-- Region 5 entered: LEAVE 5 and LEAVE 0 leave it. -/
def stR : State := stA.modSlice 0 0 (fun x => { x with region := [5] })
theorem test_meets_RegionStackChanges : (∀ r ∈ [bR .enter 0 0 5, xR .enter 0 0 5], Issues r stA = true ∧ regionId r.x ≠ 0 ∧ ∀ a ∈ stA.agents, (stA.regionOf a).length < 16) ∧
    ∀ r ∈ [bR .leave 0 0 5, xR .leave 0 0 5, bR .leave 0 0 0], Issues r stR = true ∧
      ∀ a ∈ stR.agents, (stR.regionOf a).head? = some 5 ∧ (regionId r.x = 0 ∨ 5 = regionId r.x) := by decide +kernel
theorem test_meets_FlagSeedAndRegisterWrites :
    Issues (.ext .fclass { xf 4 0 0 with scope := 1 }) stA = true ∧ Issues (bR .srseed 0 0 2) stA = true ∧ Issues (xR .srseed 0 0 2) stA = true ∧
    (∀ r ∈ [bR .kmov 4 0 2, xR .kmov 24 0 2], Issues r stA = true ∧ stA.room (.slice 0 0) r = true) ∧
    (let s := stA.modSlice 0 0 (fun x => { x with depth := 1 })
     ∀ x ∈ [{ xf 0x20 4 0 with ty := 4 }, { xf 0x21 0 0 with ty := 3 }], Issues (.ext .sset x) s = true ∧ s.room (.slice 0 0) (.ext .sset x) = true) := by decide +kernel
theorem test_meets_ExitKillEndLanes : (∀ op ∈ [Op.exit, .kill], ∀ r ∈ [bR op 0 0 0, xR op 0 0 0], Issues r stA = true ∧ stA.acts (.slice 0 0) r.x ≠ 0) ∧
    stA.storesOf (.slice 0 0) 0xF stA.nextId = false ∧ stA.acts (.slice 0 0) { xf 0 0 0 with pidx := 0 } = 0 := by decide +kernel
theorem test_meets_SequencerProgramEnds : (∀ op ∈ [Op.seqend, .exit, .kill], ∀ r ∈ [bR op 0 0 0, xR op 0 0 0], Issues r (onCtx false) = true ∧ Issues r (onCtx true) = true ∧
      (onCtx true).acts (.ctx (ctxKey core0 true)) r.x ≠ 0) ∧ (onCtx true).ctxBusy (ctxKey core0 true) = false := by decide +kernel
/-- The context save area can be written, so TRAP, BKPT and the watchdogs enter their handlers. -/
def csaOk (s : State) (off : Nat) (bs : List Byte) : Bool :=
  match s.csaWrite 0 off bs with
  | .done _ => true
  | _ => false
theorem test_meets_TrapEntrySavesFrame : (∀ op ∈ [Op.trap, .bkpt], ∀ r ∈ [bR op 0 0 2, xR op 0 0 2], Issues r stA = true ∧ stA.acts (.slice 0 0) r.x ≠ 0) ∧
    stA.awaits (.slice 0 0) = false ∧ sliceA.depth < 2 ∧ teamA.vbase ≠ 0 ∧ teamA.csa ≠ none ∧ stA.masks 0 kBkpt = false ∧
    csaOk stA (frameOff 1 0) (List.replicate 1024 0) = true := by decide +kernel
theorem test_meets_TrapEntrySavesFrame_over : (∀ op ∈ [Op.trap, .bkpt], Issues (.ext op { xf 0 0 2 with pidx := 0 }) stA = true) ∧
    (∀ op ∈ [Op.gkill, .trigger, .drainst], Issues (.ext op { xf 0 0 0 with pidx := 0 }) stA = true) ∧ Issues (bR .drainst 0 0 0) stA = true ∧ sliceA.sfCount = 0 := by
  decide +kernel
theorem test_meets_TriggerGkillRrchkEffects : (∀ op ∈ [Op.trigger, .gkill], ∀ r ∈ [bR op 0 0 0, xR op 0 0 0], Issues r stA = true) ∧
    (∀ r ∈ [bR .rrchk 4 0 0, xR .rrchk 24 0 0], Issues r stA = true ∧ stA.room (.slice 0 0) r = true) ∧ stA.hashBusy 0 stA.nextId = false ∧
    (match stA.rrLog 0 0 0 with | .pass _ => true | _ => false) = true := by decide +kernel


/-- In a handler whose frame holds an RPC of 0x100000 and ACT and LIVE of all lanes (R441), and the same of a HALT frame. -/
def stT : State := ((stA.modSlice 0 0 (fun x => { x with depth := 1 })).homeWrite 0x41000A [0x10]).homeWrite 0x410047 [0xF0]
def stH : State := stT.homeWrite 0x410007 [0x10]
def frameHere (s : State) : Bool :=
  match s.team 0, s.slice 0 0 with
  | some tm, some x =>
    match s.translate { asid := s.asidOf 0, core := tm.core, priv := true } (tm.csa.getD 0 + frameOff x.depth 0) accRead 0 with
    | .ok pa cache _ => frameOk (bytesToWords (s.l1Reads tm.core cache (spans 1025 pa 1024)).1)
    | _ => false
  | _, _ => false
theorem test_meets_RettReloadsFrame : Issues (.base .rett (Base.withD 0)) stT = true ∧ stT.cur = .gang 0 [0] ∧ stT.storesOf (.slice 0 0) 0xF stT.nextId = false ∧
    frameHere stT = true ∧ stT.frameOwes 0 0 1 = false ∧ stT.owes 0 = false ∧ 8 + sliceA.names.length ≤ stT.ceilOf 0 := by decide +kernel
theorem test_meets_RettReloadsFrame_halt : Issues (.base .rett (Base.withD 1)) stH = true ∧ frameHere stH = true ∧ (stH.release (.slice 0 0) 5).1 = true := by decide +kernel

theorem test_meets_FenceReleasesAcquires : (∀ r ∈ [bR .fence 0 0 0, bR .fence 1 0 0, .ext .fence { xf 6 0 0 with scope := 5 }], Issues r stA = true) ∧ (stA.release (.slice 0 0) 2).1 = true ∧
    ((stA.release (.slice 0 0) 2).2).readsOut (.slice 0 0) = false ∧ stA.readsOut (.slice 0 0) = false := by decide +kernel
/-- Another slice's lanes have arrived at barrier 3, or not. -/
def stTwo : State := stA.modTeam 0 (fun t => { t with lanes := 8, slices := t.slices ++ [(1, sliceA)] })
theorem test_meets_BarWaitsForPhase : (∀ r ∈ [bR .bar 0 0 3, xR .bar 0 0 3], Issues r stTwo = true ∧ barScope r.x = 2) ∧ 3 < taskA.nbar ∧ stTwo.taskOf 0 = some taskA ∧
    bits (stTwo.ge 0x22128) 47 44 = 0 ∧ (stTwo.release (.slice 0 0) 2).1 = true ∧
    (({} : Bar).arrive 0 0xF (BitVec.ofNat 1024 0xFF)).phase = 0 ∧ (({} : Bar).arrive 0 0xF (BitVec.ofNat 1024 0xF)).phase = 1 := by decide +kernel
theorem test_meets_SplitBarrierAndCount : (∀ r ∈ [bR .bara 4 0 3, xR .bara 24 0 3], Issues r stA = true ∧ stA.room (.slice 0 0) r = true ∧ barScope r.x = 2) ∧
    (∀ r ∈ [bR .barw 0 0 3, xR .barw 0 0 3], Issues r stA = true ∧ ∀ l ∈ [0, 1, 2, 3], stA.srcA (.slice 0 0) r 0 l % 2 ^ 32 ≠ 0) ∧
    (∀ r ∈ [bR .barinit 0 5 3, xR .barinit 0 5 3], Issues r stA = true ∧ stA.srcA (.slice 0 0) r 0 3 % 2 ^ 32 ≤ taskA.lanes) ∧ stA.taskOf 0 = some taskA := by
  decide +kernel
def goes (w : Fate) : Bool :=
  match w with
  | .go _ [] => true
  | _ => false


/-! ## Hypotheses that are met: memory -/

def stM : State := stA
def found {α : Type} (w : Except (Nat × Nat × Nat) α) : Bool :=
  match w with
  | .ok _ => true
  | .error _ => false
theorem test_meets_LoadsEnterFlight :
    (∀ r ∈ [bR .ld 24 2 0, xR .ld 24 2 0], Issues r stM = true ∧ stM.room (.slice 0 0) r = true ∧
      goes (stM.precise accRead (stM.laneWants r (fun a l => stM.laneEls a l (stM.ea a r l) 4 1 4 {}))) = true) ∧
    (∀ r ∈ [bR .ldk 24 2 0, xR .ldk 24 2 0], Issues r stM = true ∧ stM.room (.slice 0 0) r = true ∧ stM.acts (.slice 0 0) r.x ≠ 0 ∧
      goes (stM.precise accRead [(.slice 0 0, stM.laneEls (.slice 0 0) 0 (stM.ea (.slice 0 0) r 0) 4 1 4 { spill := false })]) = true) := by decide +kernel
theorem test_meets_LoadsEnterFlight_args : let r := Raw.ext .ldk { xf 24 0 0 with scope := 1 }
    Issues r stM = true ∧ bitAt r.x.scope.toNat 0 = true ∧ goes (stM.precise accRead [(.slice 0 0, stM.argEls (.slice 0 0) r 0 4 1)]) = true := by decide +kernel
theorem test_meets_StoresEnterFlight : ∀ r ∈ [bR .st 0 2 0, xR .st 0 2 0], Issues r stM = true ∧ stM.room (.slice 0 0) r = true ∧
    found (wants (stM.laneWants r (fun a l => match stM.laneEls a l (stM.ea a r l) 4 1 4 {} with
      | .ok es => .ok (es.map (fun e => { e with data := stM.storeData a r 4 e.elem l }))
      | .error e => .error e))) = true := by decide +kernel
theorem test_meets_AtomicsEnterFlight : ∀ r ∈ [bR .atom 24 2 0, xR .atom 24 2 0, bR .red 0 2 0, xR .red 0 2 0], Issues r stM = true ∧ stM.room (.slice 0 0) r = true ∧
    stM.rrmodeOf (.slice 0 0) ≠ 2 ∧ bits r.x.imm.toNat 5 4 / 2 = 0 ∧
    goes (stM.precise accAtomic (stM.laneWants r (fun a l => match stM.laneEls a l (stM.atomEa a r l) 4 1 4 { priv := false, spill := false } with
      | .ok es => .ok (es.map (fun e => { e with data := stM.srcB a r 11 l, cmp := stM.readV a false r.x.d.toNat l, draw := stM.atomDraw a l }))
      | .error e => .error e))) = true := by decide +kernel
theorem test_meets_AtomicsEnterFlight_release : let r := Raw.ext .red { xf 0 2 0 with imm := 0x20, scope := 5 }
    Issues r stM = true ∧ bits r.x.imm.toNat 5 4 / 2 = 1 ∧ stM.acts (.slice 0 0) r.x ≠ 0 ∧ (stM.release (.slice 0 0) (scopeOf r.x.scope.toNat)).1 = true := by
  decide +kernel
theorem test_meets_ExphistAndCacheControl :
    (∀ r ∈ [bR .exphist 0 0 8, xR .exphist 0 0 8], Issues r stM = true ∧ stM.room (.slice 0 0) r = true ∧
      goes (stM.precise accAtomic (stM.laneWants r (fun a l => stM.histEls a r l))) = true) ∧
    ∀ op ∈ [Op.pref, .cflush, .cinv], ∀ r ∈ [bR op 0 2 0, xR op 0 2 0], Issues r stM = true ∧ stM.room (.slice 0 0) r = true ∧
      found (wants (stM.laneWants r (fun a l => stM.laneEls a l (stM.ea a r l) 1 1 1 {}))) = true := by decide +kernel
/-- Descriptors of zeros: no row and no word. v6 holds the offset 0, v7 an offset of 64. -/
def stD : State := stM.modSlice 0 0 (fun x => { x with names := x.names ++ [(6, ⟨0, 0, 0, 0⟩), (7, ⟨64, 128, 192, 256⟩)] })
/-- A TCOPY descriptor with DST in the scratchpad and SRC in the global window, and a TDUMP descriptor the other way. -/
def stCopy : State := (stD.scrWrite 0 0 (List.replicate 14 0 ++ [0xFC, 1])).scrWrite 0 64 (List.replicate 6 0 ++ [0xFC, 1])
theorem test_meets_CopiesEnterFlight :
    (∀ p ∈ [(bR .tcopy 0 6 0, 0), (xR .tcopy 0 6 0, 0)], Issues p.1 stCopy = true ∧ stCopy.room (.slice 0 0) p.1 = true ∧
      found (copyWants [(.slice 0 0, stCopy.tileLane (.slice 0 0) p.1 p.2)]) = true) ∧
    (∀ p ∈ [(bR .tdump 0 7 0, 0), (xR .tdump 0 7 0, 0)], Issues p.1 stCopy = true ∧ found (copyWants [(.slice 0 0, stCopy.tileLane (.slice 0 0) p.1 p.2)]) = true) ∧
    (let r := Raw.ext .acp16 { xf 0 2 4 with c := 4 }
     Issues r stCopy = true ∧ found (copyWants [(.slice 0 0, stCopy.acpLane (.slice 0 0) r 0)]) = true) ∧
    stCopy.unperformed (.slice 0 0) stCopy.nextId = false ∧ stCopy.acpsOut (.slice 0 0) + 1 ≤ 256 ∧ stCopy.tilesOut (.slice 0 0) + 1 ≤ 64 := by decide +kernel
theorem test_meets_ArrivalWordResults : (∀ op ∈ [Op.awinit, .awexp, .awtest], ∀ r ∈ [if op = .awinit then bR op 0 4 0 else bR op 4 4 2], Issues r stM = true ∧
      stM.room (.slice 0 0) r = true ∧ found (stM.awPlaces r (stM.actingLanes r.x)) = true) ∧
    (let r := bR .await 24 4 2
     Issues r stM = true ∧ found (stM.awPlaces r (stM.actingLanes r.x)) = true ∧ (stM.awGet 0 0x100).gen ≠ stM.srcB (.slice 0 0) r 0 0 % 2 ^ 32) ∧
    stM.copies = [] := by decide +kernel
theorem test_meets_LaunchSubmitsNwaitAnswers :
    (∀ r ∈ [bR .launch 24 2 0, xR .launch 24 2 0], Issues r stM = true ∧ stM.room (.slice 0 0) r = true ∧ stM.acts (.slice 0 0) r.x ≠ 0 ∧
      (stM.release (.slice 0 0) 5).1 = true) ∧ stM.unperformed (.slice 0 0) stM.nextId = false ∧
    (∀ r ∈ [bR .nwait 24 2 0, xR .nwait 24 2 0, bR .nwait 24 2 1], Issues r stM = true ∧ stM.room (.slice 0 0) r = true ∧
      ∀ l ∈ [0, 1, 2, 3], (stM.nwStatus (.slice 0 0) r none l).isSome = true) := by decide +kernel


/-! ## The same of a gang of two slices, and of a context -/

/-- The first two slices of a home gang issue together; the second slice's addresses are 64 bytes on. -/
def sliceB : Slice := { sliceA with names := [(0, ⟨5, 6, 7, 8⟩), (2, ⟨0x200040, 0x200044, 0x200048, 0x20004C⟩), (3, ⟨0, 0, 0, 0⟩), (4, ⟨0x140, 0x140, 0x140, 0x140⟩), (5, ⟨0, 0, 0, 0⟩), (6, ⟨64, 64, 64, 64⟩),
  (8, ⟨0x200100, 0x200100, 0x200100, 0x200100⟩), (9, ⟨0, 0, 0, 0⟩)] }
def stG : State := { stA.modTeam 0 (fun t => { t with lanes := 8, slices := [(0, sliceA), (1, sliceB)] }) with cur := .gang 0 [0, 1] }
/-- The accesses of a load, a store, an atomic or a cache instruction pass their checks. -/
def wantsEls (s : State) (r : Raw) : List (Issuer × Want) := s.laneWants r (fun a l => s.laneEls a l (s.ea a r l) 4 1 4 {})
def storeEls (s : State) (r : Raw) : List (Issuer × Want) := s.laneWants r (fun a l => match s.laneEls a l (s.ea a r l) 4 1 4 {} with
  | .ok es => .ok (es.map (fun e => { e with data := s.storeData a r 4 e.elem l }))
  | .error e => .error e)
def atomEls (s : State) (r : Raw) : List (Issuer × Want) := s.laneWants r (fun a l => match s.laneEls a l (s.atomEa a r l) 4 1 4 { priv := false, spill := false } with
  | .ok es => .ok (es.map (fun e => { e with data := s.srcB a r 11 l, cmp := s.readV a false r.x.d.toNat l, draw := s.atomDraw a l }))
  | .error e => .error e)
theorem test_meets_LoadsEnterFlight_gang : (∀ r ∈ [bR .ld 24 2 0, xR .ld 24 2 0], Ready r stG ∧ goes (stG.precise accRead (wantsEls stG r)) = true) := by unfold Ready; decide +kernel
theorem test_meets_LoadsEnterFlight_ctx : (∀ r ∈ [bR .ld 24 1 0, xR .ld 24 1 0], Ready r (onCtx false) ∧ goes ((onCtx false).precise accRead (wantsEls (onCtx false) r)) = true) := by unfold Ready; decide +kernel
theorem test_meets_StoresEnterFlight_gang : (∀ r ∈ [bR .st 0 2 0, xR .st 0 2 0], Ready r stG ∧ found (wants (storeEls stG r)) = true) ∧ stG.engine = .g := by unfold Ready; decide +kernel
theorem test_meets_StoresEnterFlight_ctx : (∀ r ∈ [bR .st 0 1 0, xR .st 0 1 0], Ready r (onCtx true) ∧ goes ((onCtx true).precise accWrite (storeEls (onCtx true) r)) = true) ∧ (onCtx true).engine ≠ .g ∧
   (onCtx true).unperformed (.ctx (ctxKey core0 true)) (onCtx true).nextId = false ∧ (onCtx true).elsOpen (.ctx (ctxKey core0 true)) 4 [{ lane := 0, va := 0, place := some (.phys 0x200000 0) }] = true := by unfold Ready; decide +kernel
theorem test_meets_AtomicsEnterFlight_gang : (∀ r ∈ [bR .atom 24 2 0, xR .atom 24 2 0], Ready r stG ∧ goes (stG.precise accAtomic (atomEls stG r)) = true ∧ stG.gateOutOf (.slice 0 0) = false) := by unfold Ready; decide +kernel
theorem test_meets_AtomicsEnterFlight_ctx : (∀ r ∈ [bR .atom 24 1 0, xR .atom 24 1 0, bR .red 0 1 0], Ready r (onCtx false) ∧ goes ((onCtx false).precise accAtomic (atomEls (onCtx false) r)) = true ∧ (onCtx false).gateOutOf (.ctx (ctxKey core0 false)) = false ∧
   (onCtx false).rrmodeOf (.ctx (ctxKey core0 false)) = 0) := by unfold Ready; decide +kernel
theorem test_meets_AtomicsEnterFlight_red : (∀ r ∈ [bR .red 0 2 0, xR .red 0 2 0], Ready r stG ∧ found (wants (atomEls stG r)) = true) := by unfold Ready; decide +kernel
theorem test_meets_ExphistAndCacheControl_gang : (∀ op ∈ [Op.pref, .cflush, .cinv], (∀ r ∈ [bR op 0 2 0, xR op 0 2 0], Ready r stG ∧ found (wants (stG.laneWants r (fun a l => stG.laneEls a l (stG.ea a r l) 1 1 1 {}))) = true) ∧
  ∀ r ∈ [bR op 0 1 0, xR op 0 1 0], Ready r (onCtx false) ∧ found (wants ((onCtx false).laneWants r (fun a l => (onCtx false).laneEls a l ((onCtx false).ea a r l) 1 1 1 {}))) = true) := by unfold Ready; decide +kernel
theorem test_meets_LoadsEnterFlight_ldk : (∀ r ∈ [bR .ldk 24 2 0, xR .ldk 24 2 0], Ready r stG ∧ stG.ldkLanes r = [(.slice 0 0, 0)]) := by unfold Ready; decide +kernel
theorem test_meets_FenceReleasesAcquires_gang : (∀ r ∈ [bR .fence 0 0 0, .ext .fence { xf 0 0 0 with scope := 5 }], ∀ s ∈ [stG, onCtx false, onCtx true], Issues r s = true ∧ ∀ a ∈ s.agents, (s.release a 2).1 = true ∧ s.readsOut a = false) := by decide +kernel
/-- Descriptors for both slices and for a context: at 0 and 64 in the scratchpad. -/
def copyWords (s : State) : State := (s.scrWrite 0 0 (List.replicate 14 0 ++ [0xFC, 1])).scrWrite 0 64 (List.replicate 14 0 ++ [0xFC, 1])
def stGC : State := copyWords (stG.modSlice 0 0 (fun x => { x with names := x.names ++ [(6, ⟨0, 0, 0, 0⟩)] }))
def wantsCopies (s : State) (r : Raw) : Except (Nat × Nat × Nat) (List (Issuer × List Copy × List (Option (Nat × Nat)))) :=
  copyWants ((s.actingLanes r.x).map (fun p => (p.1, if r.op = .acp16 then s.acpLane p.1 r p.2 else s.tileLane p.1 r p.2)))
def stCC : State := (copyWords (onCtx false)).modCtx (ctxKey core0 false) (fun x => { x with regs := [(0, 0), (1, 0x200000), (2, 0x100)] })
theorem test_meets_CopiesEnterFlight_gang : (∀ r ∈ [bR .tcopy 0 6 0, xR .tcopy 0 6 0], Ready r stGC ∧ found (wantsCopies stGC r) = true ∧ ∀ a ∈ stGC.agents, stGC.unperformed a stGC.nextId = false ∧ stGC.tilesOut a + 4 ≤ 64) := by unfold Ready; decide +kernel
theorem test_meets_CopiesEnterFlight_ctx : (∀ r ∈ [bR .tcopy 0 0 0, xR .tcopy 0 0 0], Ready r stCC ∧ found (wantsCopies stCC r) = true ∧ ∀ a ∈ stCC.agents, stCC.unperformed a stCC.nextId = false ∧ stCC.tilesOut a + 4 ≤ 64) := by unfold Ready; decide +kernel
theorem test_meets_CopiesEnterFlight_acp16 : let r := Raw.ext .acp16 { xf 0 8 4 with c := 4 }
    Ready r stG ∧ found (wantsCopies stG r) = true := by unfold Ready; decide +kernel
theorem test_meets_ArrivalWordResults_gang : ∀ op ∈ [Op.awinit, .awexp, .awtest], (let r := if op = .awinit then bR op 0 4 0 else bR op 4 4 2
   Issues r stG = true ∧ found (stG.awPlaces r (stG.actingLanes r.x)) = true ∧ ∀ a ∈ stG.agents, stG.room a r = true) ∧
   (let r := if op = .awinit then bR op 0 2 0 else bR op 4 2 0
   Issues r stCC = true ∧ found (stCC.awPlaces r (stCC.actingLanes r.x)) = true ∧ ∀ a ∈ stCC.agents, stCC.room a r = true ∧ stCC.readsOut a = false) := by decide +kernel
theorem test_meets_ExphistAndCacheControl_hist : ∀ r ∈ [bR .exphist 0 0 8, xR .exphist 0 0 8], Ready r stG ∧ goes (stG.precise accAtomic (stG.laneWants r (fun a l => stG.histEls a r l))) = true := by unfold Ready; decide +kernel
theorem test_meets_ArrivalWordResults_ctx : let r := bR .await 24 2 1
   Issues r stCC = true ∧ found (stCC.awPlaces r (stCC.actingLanes r.x)) = true ∧ (stCC.awGet 0 0x100).gen ≠ stCC.srcB (.ctx (ctxKey core0 false)) r 0 0 % 2 ^ 32 := by decide +kernel

/-! ## Hypotheses that are met: splices, meetings, the matrix group -/

/-- The task is in group 0 of communicator slot 0, whose member map at 0x500000 is zeros; the descriptor at 0x100 asks for one
`.f32` element; q0 holds in lane 0 alone. -/
def stS : State :=
  let s := (stA.scrWrite 0 0x110 [1, 0, 0, 14]).modTask 1 (fun k => { k with card := k.card.modify 1 (· + 0x20) })
  let s := ((s.setGe 0x38000 (2 ^ 63)).setGe 0x38038 0x500000)
  s.modSlice 0 0 (fun x => { x with preds := ⟨1, 0, 0, 0⟩ })
/-- The MSQ that the team holds has ended with exit code 9. -/
def stE : State := stA.setCtx (ctxKey core0 true) { holder := some 0, owner := some 0, run := .ended, exit := 9 }
theorem test_meets_SpliceForkRdvEffects :
    (∀ r ∈ [Raw.ext .splice { xf 0 4 0 with pidx := 0 }], Issues r stS = true ∧ stS.room (.slice 0 0) r = true ∧ maskList (stS.acts (.slice 0 0) r.x) = [0] ∧
      (match spliceWants [stS.spliceLane (.slice 0 0) r 0] with | .ok l => l.length == 1 | .error _ => false) = true) ∧ Issues (bR .splice 0 4 0) stS = true ∧
    (stS.release (.slice 0 0) 2).1 = true ∧
    (let r := xR .fork 0 0 0
     Issues r stA = true ∧ (stA.ctx (ctxKey core0 true)).holder = none ∧ stA.forkBehind 0 0 (ctxKey core0 true) = false ∧ (stA.release (.slice 0 0) 2).1 = true) ∧
    (let r := Raw.ext .rdv { xf 24 0 0 with scope := 1 }
     Issues r stE = true ∧ stE.room (.slice 0 0) r = true ∧ (stE.ctx (ctxKey core0 true)).isOver = true) := by decide +kernel
/-- A hitch object at 0x200100 that the team has joined, in round 1, with one element of `.f32`. -/
def hitchA : Hitch := { asid := 0, words := [], contract := 40, members := [{ pkg := 0, team := 0, tag := 0, lag := 0, joined := some (some 0) }], mand := [0] }
def stJ : State :=
  { stM.modTeam 0 (fun t => { t with joins := [{ obj := 0x200100, pa := 0x200100, member := 0, words := [0, BitVec.ofNat 64 (14 * 2 ^ 47 + 1)] }] }) with
    hitches := [(0x200100, hitchA)] }
def answered {α : Type} (w : GeRes α) : Bool :=
  match w with
  | .ok _ => true
  | _ => false
theorem test_meets_HitchInstructionResults :
    (∀ r ∈ [xR .hinit 24 8 0, xR .hjoin 24 8 0, xR .hquery 24 8 0, xR .hwait 24 8 5], Issues r stJ = true ∧ stJ.room (.slice 0 0) r = true ∧
      stJ.acts (.slice 0 0) r.x ≠ 0 ∧ stJ.srcA (.slice 0 0) r 0 0 = 0x200100) ∧
    stJ.hitchCheck 0 0 0x200100 none false 0 = none ∧ stJ.hitchCheck 0 0 0x200100 none true 0 = none ∧ answered (stJ.hitchPa 0 0 0x200100) = true ∧
    stJ.hitchWay 0x200100 = true ∧ stJ.unitBusy 0x200100 = false ∧ answered (stJ.hinitAnswer (.slice 0 0) 0 0x200100 0x200100 0) = true ∧ (stJ.joinOf 0 0x200100).isSome = true ∧
    roundOver (1 % 2 ^ 32) 0 = true := by decide +kernel
theorem test_meets_HitchInstructionResults_contribute : let r := xR .hcontrib 24 8 8
    Issues r stJ = true ∧ stJ.room (.slice 0 0) r = true ∧ stJ.hitchCheck 0 0 0x200100 (some (stJ.hitchB r 0 0 0xF)) false 0 = none ∧
    (match stJ.sourcePieces 0 (stJ.hitchB r 0 0 0xF) 4 with
      | .ok ps => (match stJ.readSource (.slice 0 0) 40 ps with | .ok _ false 0 => true | _ => false)
      | .error _ => false) = true ∧ (stJ.release (.slice 0 0) 0).1 = true := by decide +kernel

def kM : Nat := ctxKey core0 true
/-- t1 a 4 × 64 tile of format 2, t2 an 8 × 64 tile of VQ2-64X, a0 a 4 × 8 accumulator of FP32. -/
def stX : State :=
  { (stC true).modCtx kM (fun x => ((x.setTile 1 { cfg := 0x0003F062 }).setTile 2 { cfg := 0x0003F0FA }).setAcc 0 { shape := some 0x703 }) with cur := .ctx true core0 }
/-- t1 and t2 4 × 4 tiles of format 2, a0 a 4 × 4 accumulator of FP32. -/
def stY : State :=
  { (stC true).modCtx kM (fun x => ((x.setTile 1 { cfg := 0x3062 }).setTile 2 { cfg := 0x3062 }).setAcc 0 { shape := some 0x303 }) with
    cur := .ctx true core0 }
/-- A matrix instruction that is ready, but for the readiness of its own operands. -/
def matReady (r : Raw) (s : State) : Bool :=
  Issues r s && decide (s.cur = .ctx true core0) && s.acts (.ctx kM) r.x != 0 && decide ((s.ctx kM).flight = none)
theorem test_meets_TileStateWrites : (∀ r ∈ [xR .tcfg 1 0 0, xR .tzero 1 0 0, .ext .tzero { xf 0 0 0 with scope := 1 }, .ext .aprom { xf 0 0 0 with scope := 1 }], matReady r stY = true) ∧
    cfgValid 0x3062 = true ∧ shapeValid 0x303 = true ∧ ((stY.ctx kM).acc 0).shape = some 0x303 ∧ shapeKind 0x303 = 0 := by decide +kernel
theorem test_meets_MatrixOperationsIssueComplete : matReady (xR .mma 0 1 2) stY = true ∧ stY.matCheck kM .mma 0 1 2 = none ∧
    matReady (xR .mmav 0 1 2) stX = true ∧ stX.matCheck kM .mmav 0 1 2 = none ∧
    (let s := stX.modCtx kM (fun x => { x with opened := some (0, 1, 2, 0) })
     matReady (xR .olapply 0 1 2) s = true ∧ s.matCheck kM .olapply 0 1 2 = none ∧ (s.ctx kM).opened.isSome = true) := by decide +kernel

/-- stY with the leaf in the TLB, and an image of a0 at 0x200000. -/
def stZ : State :=
  let s := stY.homeWrite 0x200000 (((stY.ctx kM).acc 0).image 40)
  match s.walk 0 0x200000 with
  | .ok t => s.tlbFill core0 t
  | .error _ => s
def reached (s : State) (acc : Nat) (stamps : Bool) (segs : List (Nat × Nat)) : Bool :=
  !s.unperformed (.ctx kM) s.nextId && (match segWindows (s.segWindow kM) segs with
    | .ok ws => ws.all (fun l => l.all (fun g => match s.segTr kM acc stamps g with | .ok _ _ false => true | _ => false))
    | .error _ => false)
theorem test_meets_TileTransfersEnterFlight :
    (∀ r ∈ [xR .stest 4 0 0, xR .tld 1 1 2, xR .tst 1 1 2, xR .cbld 0 1 0, xR .asav 0 1 0, xR .ahist 0 1 0, xR .arst 0 1 0, xR .aout 1 0 5], matReady r stZ = true) ∧
    ((stZ.ctx kM).tile 1).cfg = 0x3062 ∧ (tileLines 0x3062 ((matFmt 2).getD { elem := .mxint, w := 8, tileBits := 8 })).2 ≤ 16 ∧ ((stZ.ctx kM).acc 0).shape = some 0x303 ∧
    reached stZ accRead true [(0x200000, 8), (0x200010, 8), (0x200020, 8), (0x200030, 8)] = true ∧ reached stZ accWrite true [(0x200000, 128)] = true ∧
    reached stZ accRead false [(0x200000, 1024)] = true ∧ reached stZ accRead true [(0x200000, 64)] = true ∧ reached stZ accRead true [(0x200040, 64)] = true := by
  decide +kernel
theorem test_meets_TileTransfersEnterFlight_image : (match segWindows (stZ.segWindow kM) [(0x200000, 64)] with
    | .ok [[g]] => (match stZ.segTr kM accRead true g with
      | .ok p n false => imageOk (stZ.mxRead kM [(p, n)]).1 && bits (ofBytes ((stZ.mxRead kM [(p, n)]).1.take 8)) 43 32 == 40
      | _ => false)
    | _ => false) = true := by decide +kernel


/-! ## Events -/

/-- An operation on the scratchpad by the first slice, or by a context. -/
def opOf (kind : MemKind) (by_ : Issuer) (todo : List El) : MemOp :=
  { kind := kind, by_ := by_, asid := 0, pc := 0x100000, ty := 1, size := 4, dst := 20, wide := false, mask := 1, contract := 40, todo := todo }
def elS : El := { lane := 0, va := 0, place := some (.scr 0 64), data := 5 }
def elP : El := { lane := 0, va := 0, place := some (.phys (2 ^ 47) 0), data := 5 }
def stO (op : MemOp) : State := { stC false with mops := [(7, op)], nextId := 8 }
def kC : Nat := ctxKey core0 false
def calm (s : State) (op : MemOp) : Bool := !op.todo.any (s.mustWait 7 op)

theorem test_meets_MemoryEventsPerformAccesses_ld : let op := opOf .ld (.slice 0 0) [elS]
    calm (stO op) op = true ∧ (∀ e ∈ op.todo, e.podLine? = none) ∧ calm (stO (opOf .ld (.ctx kC) [elS])) (opOf .ld (.ctx kC) [elS]) = true ∧
    calm (stO (opOf .ldk (.slice 0 0) [elS])) (opOf .ldk (.slice 0 0) [elS]) = true := by decide +kernel
theorem test_meets_MemoryEventsPerformAccesses_atom : let op := { opOf .atom (.ctx kC) [] with got := [(0, 0, 9)] }
    mget (stO op).mops 7 = some op ∧ op.order % 2 = 0 := by decide +kernel
theorem test_meets_MemoryEventsPerformAccesses_st : let op := opOf .st (.slice 0 0) [elS]
    calm (stO op) op = true ∧ teamA.scratch.wf = true ∧ (stO op).team 0 = some teamA := by decide +kernel
theorem test_meets_MemoryEventsPerformAccesses_atomic : ∀ k ∈ [MemKind.atom, .red], let op := opOf k (.slice 0 0) [elS]
    op.nextAtom = some (elS, .scr 0 64) ∧ calm (stO op) op = true ∧ (stO op).rrmodeOf op.by_ = 0 := by decide +kernel
theorem test_meets_MemoryEventsPerformAccesses_pod : let op := opOf .ld (.slice 0 0) [elP]
    let s := (stO op).setGe 0x34000 8
    op.todo.findSome? El.podLine? = some (2 ^ 40) ∧ calm s op = true ∧ s.wcHolds op.by_ (2 ^ 40) = false ∧ s.podTurn 7 op (2 ^ 40) = true ∧
    (∀ e ∈ { op with todo := [], pod := true }.todo, e.podLine? = none) := by decide +kernel
/-- A draining write-combining entry of the first core. -/
def wcE : WcEntry := { id := 3, line := 2 ^ 40, data := 7, mask := 1, teams := [0], since := 0, draining := true }
theorem test_meets_MemoryEventsPerformAccesses_wc : let s := (stA.setGe 0x34000 8).modCore core0 (fun c => { c with wc := [wcE] })
    (s.core core0).wc.filter (fun x => x.draining && !x.performed && podNode (128 * x.line) == podNode (128 * wcE.line)) = [wcE] ∧ wcE.id = 3 ∧
    (s.core core0).wc.find? (fun e => e.id == 3 && e.draining && !e.performed) = some wcE ∧ s.lineUp core0 wcE.line = true := by decide +kernel

/-- Two entries of the first core of which the second drains, and then the first too. -/
def stDrain : State := ((stA.setGe 0x34000 8).modCore core0 (fun c => { c with wc := [{ wcE with draining := false }, { wcE with id := 4, line := 2 ^ 40 + 1 }] })).wcDrain core0 (fun e => e.id == 3)
/-- Entries drain in the order of their triggers (R286). -/
theorem test_drain_order : (stDrain.core core0).wc.map (·.id) = [4, 3] ∧ ((stDrain.wcDrainAck core0 3).core core0).wc.map (·.id) = [4, 3] := by decide +kernel
theorem test_drain_order_ack : ((stDrain.wcDrainAck core0 4).core core0).wc.map (·.id) = [3] := by decide +kernel

/-- A copy of the first slice with one cell. -/
def stCell (x : CopyCell) : State :=
  { stA with copies := [(6, { kind := .acp16, by_ := .slice 0 0, team := 0, core := core0, asid := 0, contract := 40, cells := [x] })] }
def cellA : CopyCell := { id := 5, src := .scr 0 0, n := 16, dsts := [{ team := 0, off := 64, aw := none }] }
def cellIs (x : CopyCell) : Bool :=
  match (stCell x).findCell 5 with
  | some (k, c, y) => y == x && !(stCell x).heldBack k 0 && !(stCell x).restoresBefore k c 0
  | none => false
theorem test_meets_CopyCellsMoveBytes : cellIs cellA = true ∧ ((stCell cellA).team 0).isSome = true ∧
    cellIs { cellA with src := .scr 9 0 } = true ∧ (stCell { cellA with src := .scr 9 0 }).team 9 = none ∧
    (∀ n ∈ [1, 16], cellIs { cellA with n := n, zero := 16 - n, data := some (List.replicate n 1) } = true) ∧
    cellIs { cellA with written := true } = true ∧
    cellA.src = .scr 0 0 ∧ (stCell cellA).scrPoison 0 0 cellA.n = false := by decide +kernel

/-- A transfer of one run of bytes of the scratchpad is in flight. -/
def inFlight (kind : XferKind) (n : Nat) : State :=
  (stC true).modCtx kM (fun x => { x with flight := some (.xfer kind 1 0x3062 0 [[(.scr 0 0, n)]]) })
theorem test_meets_TransfersAndSelfTestsComplete_transfer : ∀ kind ∈ [XferKind.tld, .tst, .cbld, .asav, .arst, .ahist],
    ((inFlight kind 8).ctx kM).flight = some (.xfer kind 1 0x3062 0 [[(.scr 0 0, 8)]]) ∧ (inFlight kind 8).mxReach kM [[(.scr 0 0, 8)]] = true := by
  decide +kernel
/-- STPER is 0x1000 at reset; the count stands at the period. -/
theorem test_meets_TransfersAndSelfTestsComplete_selfTest : let s := stA.modQuad core0 (fun q => { q with since := 0x1000 })
    s.mgmt.started = true ∧ (s.quad core0).retest = false ∧ bits (s.ge 0x20080) 31 16 = 0x1000 ∧ 0x1000 ≤ (s.quad core0).since := by decide +kernel

theorem test_meets_WaitsEndByEvents_barrier : let s := (stA.setGe 0x200C0 1).modSlice 0 0 (fun x => { x with wait := .bar 2 0, waitCyc := 1024, barTok := some 0 })
    ∃ x, s.slice 0 0 = some x ∧ x.wait.atBar = some (2, 0) ∧ bits (s.ge 0x200C0) 31 0 = 1 ∧ 1024 * 1 ≤ x.waitCyc ∧ s.barOver 0 x = false ∧
      s.awaits (.slice 0 0) = false := ⟨_, rfl, by decide +kernel⟩
theorem test_meets_WaitsEndByEvents_hitch : let s := (stA.setGe 0x200C8 1).modSlice 0 0 (fun x => { x with wait := .hitch 0x200100 1, waitCyc := 1024 })
    ∃ x, s.slice 0 0 = some x ∧ x.wait = .hitch 0x200100 1 ∧ bits (s.ge 0x200C8) 31 0 = 1 ∧ 1024 * 1 ≤ x.waitCyc ∧ s.awaits (.slice 0 0) = false ∧
      s.hitches = [] ∧ roundOver (1 % 2 ^ 32) 1 = false := ⟨_, rfl, by decide +kernel⟩
theorem test_meets_WaitsEndByEvents_halt : let s := ((stA.modTeam 0 (fun t => { t with halt := some 0 })).modSlice 0 0 (fun x => { x with depth := 1 })).modDie 0 (fun d => { d with cyc := 4000 })
    (s.team 0).any (fun tm => tm.halt == some 0 && decide (0 + 4000 ≤ s.cyc tm.core.die)) = true ∧ s.awaitsHalt (.slice 0 0) = false ∧
    (s.slice 0 0).any (fun x => x.depth != 0 && !x.inHalt && !x.parked) = true := by decide +kernel
theorem test_meets_WaitsEndByEvents_gate : let s := ((stC true).modSlice 0 0 (fun x => { x with gateSince := some 0 })).modDie 0 (fun d => { d with cyc := 2 ^ 24 })
    (s.team 0).any (fun tm => decide (0 + 2 ^ 24 ≤ s.cyc tm.core.die)) = true ∧ (s.slice 0 0).any (fun x => x.gateSince == some 0) = true ∧
    (let s := s.modCtx kM (fun x => { x with gateSince := some 0 })
     (s.ctx kM).gateSince = some 0 ∧ s.teamOf (.ctx kM) = 0 ∧ (s.team 0).any (fun tm => tm.halt.isNone) = true) := by decide +kernel
/-- SWDLIM is 0x10000 at reset. -/
def formA : Forming := { loc := .endpoint 0, comm := 1, seq := 1, lo := 0, hi := 2, since := 0, msgs := [] }
theorem test_meets_WaitsEndByEvents_splice : let s : State := { stA with forming := [formA], ioCyc := 2 ^ 26 }
    s.forming.find? (fun f => f.loc == .endpoint 0 && f.comm == 1 && f.seq == 1 && f.lo == 0 && f.hi == 2) = some formA ∧
    bits (s.ge 0x34200) 31 0 = 2 ^ 16 ∧ formA.since + 1024 * 2 ^ 16 ≤ s.ioCyc := by decide +kernel
/-- A lane of a mark or an exit is released when its slice's stores are done. -/
theorem test_meets_WaitsEndByEvents_release : let s := stA.modTeam 0 (fun t => { t with marking := [(0, 1, 1)], exiting := [(0, 8, 1)] })
    ∃ tm, s.team 0 = some tm ∧ releaseOf tm.marking 0 = some (0, 1, 1) ∧ releaseOf tm.exiting 3 = some (0, 8, 1) ∧ (s.laneRelease 0 0 1).1 = true :=
  ⟨_, rfl, by decide +kernel⟩
theorem test_meets_WaitsEndByEvents_contribution : let s : State := { stA with hitches := [(0x200100, hitchA)], contribs := [(4, { pa := 0x200100, member := 0, tag := 1, elems := [1] })] }
    mget s.hitches 0x200100 = some hitchA ∧ (∃ x, mget s.contribs 4 = some x ∧ x.fault = false) ∧
    (let h : Hitch := { hitchA with members := hitchA.members ++ [{ pkg := 5, team := 0, tag := 0, lag := 0, joined := some none }] }
     (h.member 1).any (fun y => y.joined == some none) = true) := ⟨rfl, ⟨_, rfl, rfl⟩, by decide +kernel⟩
/-- The task's TAG is 9 and bit 3 of its LVLBAR is 1. -/
def taskB : Task := { taskA with card := BitVec.ofNat 64 (2 ^ 35 + 9) :: loadCard.drop 1 }
theorem test_meets_WaitsEndByEvents_pod : let b : PodBind := { binding := 0, node := 0, slot := 0, domain := 0, phase := 0 }
    let l : Level := { arrived := [0], bound := some b, seen := some b }
    let k : Task := { taskB with levels := [(levelKey 6 0, l)] }
    let s : State := { stA with tasks := [(1, k)], slots := [(0, { phase := 1 })] }
    s.task 1 = some k ∧ mget k.levels (levelKey 6 0) = some l ∧ l.seen = some b ∧ (s.podSlot 0 0 0).phase = 1 ∧ b.phase ≠ 1 := by decide +kernel
/-- The second of two default parties ends the phase of a slot; one that ends instead of arriving ends it too (R378, R384). -/
theorem test_pod_slot : let p : PodSlot := { count := 2 }
    ((p.take .arrive).phase, ((p.take .arrive).take .arrive).phase, ((p.take .arrive).take (.leave false)).phase, ((p.take .arrive).take (.withdraw 0)).arrived) = (0, 1, 1, 0) := by decide

/-- A cell of class 2, domain 3, flow 1 and count 1, and the start state with link 0 up. -/
def tagOf (cls cnt : Nat) : BitVec 128 := BitVec.ofNat 128 (cls * 2 ^ 61 + 3 * 2 ^ 44 + 2 ^ 24 + cnt)
def stL : State := stA.setGe 0x34000 8
/-- What authenticates is a free function, so the hypothesis on it stands in the statement. -/
theorem test_meets_CellsLinksSplicesAdvance_cell : ∀ cls ∈ [0, 3, 4], ∀ cnt ∈ [1, 2 ^ 24 - 1], ∀ last ∈ [false, true], let t := (clearTag cls last (flowKey 3 1) cnt).toNat
    stL.nodeUp 0 = true ∧ bits t 63 61 = cls ∧ flowKey (bits t 59 44) (bits t 43 24) = flowKey 3 1 ∧ (stL.flow (flowKey 3 1)).closed = false ∧
      nextCount 0 (bits t 23 0) = cnt ∧ cnt < 2 ^ 56 ∧ bitAt t 60 = last := by
  decide +kernel
theorem test_meets_CellsLinksSplicesAdvance_closed : let s : State := { stL with flows := [(flowKey 3 1, { last := 0, closed := true })] }
    (s.flow (flowKey 3 1)).closed = true ∧ stL.flying = [] ∧ stL.forming = [] ∧ stL.splices = [] := by decide +kernel
/-- A message of one cell can set out over link 0. -/
theorem test_meets_CellsLinksSplicesAdvance_send : let m : Sending := { link := 0, cls := 4, flow := flowKey 3 1, body := [0] }
    stL.canSend m = true ∧ stL.toSend = [] ∧ m.pod.isNone = true ∧ m.flow < 2 ^ 36 := by decide +kernel
/-- A cell of the management class is not encrypted; its clear half has LAST, the flow and count 1, and what waits for a link goes when
it comes up (R386, R387, R390). -/
theorem test_cell_sent : let m : Sending := { link := 1, cls := 4, flow := flowKey 3 1, body := [7] }
    let s := stL.send m
    (s.toSend.length, (s.linkUp 1).ready.map (fun x => (x.1, x.2.payload)), ((s.linkUp 1).flow (flowKey 3 1)).sent, clearTag 4 true (flowKey 3 1) 1)
      = (1, [(1, 7)], 1, BitVec.ofNat 64 0x9000300001000001) := by decide +kernel
def cellL (flow : Nat) : Cell := { tag := (0 : BitVec 64) ++ clearTag 4 true (flowKey 3 flow) 1, payload := 7, crcOk := true }
/-- Slot 5 of link 0 serves the only flow with a cell ready. -/
theorem test_meets_CellsLinksSplicesAdvance_slot : let f : Frame := { slot := 5, table := stL.slotTable 0 }
    stL.nodeUp 0 = true ∧ f.serves [Cell.flow (cellL 1)] = some (Cell.flow (cellL 1)) := by decide +kernel
/-- Slot 2, reserved for flow 9, carries a cell of flow 9 before the older one of flow 1; slot 3, not reserved, goes on round robin, and
slot 64 carries none (R389, R390). -/
theorem test_slots : let s : State := ({ stL with ready := [(0, cellL 1), (0, cellL 9)], frames := [(0, { slot := 1, table := [] })] } : State)
    let at_ (n : Nat) (last : Nat) : State := { s.setGe 0x30008 (2 ^ 31 + 9) with frames := [(0, { slot := n, table := (s.setGe 0x30008 (2 ^ 31 + 9)).slotTable 0, last := last })] }
    [((at_ 2 0).slot 0).sent, ((at_ 3 (flowKey 3 9)).slot 0).sent, ((at_ 3 (flowKey 3 1)).slot 0).sent, ((at_ 64 0).slot 0).sent].map (fun l => l.map (fun x => Cell.flow x.2 % 2 ^ 20))
      = [[9], [1], [9], []] := by decide +kernel
def msgA (d : SpliceDest) (kind : BitVec 3) : SpliceMsg :=
  { dest := d, kind := kind, ty := 14, comm := 1, seq := 1, plan := 0, slot := 0, lo := 0, hi := 1, route := [], elems := [0], recs := [], rm := 0, epsteps := 1,
    ndsteps := 0, flags := 0 }
def spliceA : Splice := { comm := 1, seq := 1, slot := 0, member := 0, team := 0, dst := 0, stat := 0, hist := none, daw := 0, ty := 14, count := 1, route := [] }
theorem test_meets_CellsLinksSplicesAdvance_message : stL.mgmt.started = true ∧ (∀ l ∈ [SpliceLoc.node 0, .endpoint 0], stL.spliceWay (msgA (.at l) 0) = true ∧
      stL.splices.find? (fun p => p.words.contains (msgA (.at l) 0)) = none) ∧ stL.pkgId = 0 ∧
    (let s : State := { stL with splices := [spliceA] }
     s.spliceWay (msgA (.member 0) 3) = true ∧ s.splices.find? (fun p => p.words.contains (msgA (.member 0) 3)) = none ∧
     s.splices.find? (fun p => p.comm == 1 && p.seq == 1 && p.member == 0 && !p.ended) = some spliceA ∧ s.spliceHeld 0 = false) ∧
    (let s : State := { stL.modTeam 0 (fun t => { t with halt := some 0 }) with splices := [{ spliceA with words := [msgA (.member 0) 3] }] }
     (s.splices.find? (fun p => p.words.contains (msgA (.member 0) 3))).any (fun p => p.team == 0) = true ∧ s.spliceHeld 0 = true) := by
  decide +kernel

theorem test_meets_SubmissionsAndPorts_host : ∀ h ∈ [0, 31], bits (stA.ge (0x1000 * h + 8)) 63 62 ≠ 1 := by decide +kernel
def refused (v : Verdict) : Bool := match v with | .refuse .. => true | _ => false
def accepted (v : Verdict) : Bool := match v with | .accept .. => true | _ => false
/-- The card of the first task, for one team of four lanes. -/
theorem test_meets_SubmissionsAndPorts_accept : refused (stA.judge { src := .host 0, asid := 0, addr := 1 }) = true ∧
    accepted (stA.judge { src := .host 0, asid := 0, addr := 0, card := some loadCard }) = true := by decide +kernel
theorem test_meets_SubmissionsAndPorts_handle : let k : Task := { taskA with card := BitVec.ofNat 64 (2 ^ 54) :: loadCard.drop 1 }
    let s : State := { stA with tasks := [(1, k)] }
    s.byHandle 65536 = some k ∧ k.cls = 1 ∧ k.started = true ∧ k.left ≠ 0 ∧ k.ending = none ∧ s.byHandle 65537 = none := by decide +kernel
/-- Port 0 is configured for endpoint 5 of transport 1; feature 6 is on. -/
def packet (pseq port : Nat) : LaunchPkt :=
  { ep := 5, xport := true, intact := true, head := [BitVec.ofNat 64 (2 ^ 56 + 2 ^ 48 + port * 2 ^ 32 + pseq), 7, 0, 0, 0, 0, 0, 0], card := loadCard }
theorem test_meets_SubmissionsAndPorts_packet : let s := (stA.setGe 0x20200 (2 ^ 63)).setGe 0x20208 (2 ^ 63 + 5)
    s.portOf (setBits (packet 1 0).ep.toNat 63 63 1) = some 0 ∧ s.feature 6 = true ∧ s.mgmt.life = .deployed ∧ bits (s.ge (portOff 0 + 0x18)) 31 0 = 0 ∧
    ((packet 1 0).head.drop 2).all (· == 0) = true ∧ bits ((packet 1 0).head.getD 0 0).toNat 31 0 = 1 ∧
    stA.portOf (setBits (packet 1 0).ep.toNat 63 63 1) = none := by decide +kernel
theorem test_meets_SubmissionsAndPorts_port : ∀ p ∈ [0, 15], bitAt (stA.ge (portOff p)) 63 = false ∧ bitAt ((stA.setGe (portOff p) (2 ^ 63)).ge (portOff p)) 63 = true := by
  decide +kernel

/-- The entry of contract 41 as R49 writes it out. -/
theorem test_contract_entry : (stA.hostRead (ctBase + 16 * 41), stA.hostRead (ctBase + 16 * 41 + 8)) = (0x9800000000000000, 0x029000004000B003) := by decide +kernel
/-- Quad 5 of die 1 as in the example of R326: MODE 0b01, FENCED 0x4, TESTS 2. -/
theorem test_mxstat_read : let q : Quad := { fenced := 4, tests := 2 }
    (stA.modQuad { die := 1, quad := 5, core := 0 } (fun _ => q)).hostRead (geBase + 0x21128) = 0x20044 := by decide +kernel
/-- A request of 0 gets the highest candidate; node 0, attested and without contract 43, takes that one out (R68). -/
theorem test_negotiate : let s : State := { stA.setGe 0x34000 0xC with nodeClasses := [(43, 0)] }
    let q (r : Nat) (ns : List Nat) : SetUp := { request := r, nodes := ns, absent := [], what := .communicator 0, words := [] }
    (s.negotiate (q 0 []), s.negotiate (q 0 [0]), s.negotiate (q 43 [0]), s.negotiate (q 22 [0]), s.negotiate (q 7 [])) = (some 43, some 42, none, some 22, none) := by
  decide +kernel
theorem test_meets_HostWritesErrorsSamples_setUp : let q : SetUp := { request := 0, nodes := [], absent := [], what := .communicator 255, words := [] }
    stA.negotiate q = some 43 ∧ stA.mgmt.started = true ∧ stA.negotiate { q with request := 7 } = none := by decide +kernel
theorem test_meets_HostWritesErrorsSamples_table : Config.contract? 0 = none ∧ Config.contract? 4095 = none ∧ Config.catalogue.length = 10 := by decide +kernel
/-- A packet is answered by its PSEQ and header when its turn comes (R89). -/
theorem test_meets_SubmissionsAndPorts_head : let s := (stA.setGe 0x20200 (2 ^ 63)).setGe 0x20208 (2 ^ 63 + 5)
    let b (pseq port : Nat) : Submission := { src := .port 0 7 pseq, asid := 0, addr := 0, card := some loadCard, head := (packet pseq port).head }
    (s.badHead (b 1 0), s.badHead (b 2 0), s.badHead (b 0 0), s.badHead (b 1 1)) = (none, some rSeqgap, some rSeqgap, some rBadcard) ∧
      refused (s.judge (b 2 0)) = true ∧ refused (s.judge (b 1 1)) = true := by decide +kernel


/-- A card of one team of four lanes whose FLOOR is f, with a scratchpad of n KiB and the address d for its done word. -/
def cardOf (f lanes n d : Nat) : List DWord :=
  [BitVec.ofNat 64 (3 * 2 ^ 56 + 40 * 2 ^ 36), BitVec.ofNat 64 (2 ^ 40 + lanes * 2 ^ 29 + f * 2 ^ 21 + 128 * 2 ^ 13 + 16 * 2 ^ 8), BitVec.ofNat 64 (n * 2 ^ 55)] ++
    List.replicate 6 0 ++ [BitVec.ofNat 64 d] ++ List.replicate 22 0
/-- One slice of a team of 128 lanes holds its FLOOR of 126 names and needs another: IADD v127 at its PC. -/
def stFull : State :=
  { stA with tasks := [(1, { taskA with card := cardOf 126 128 0 0, image := Mem.write [] 0x100000 (toBytes 4 0x0D7F0004) })], teams := [(0, { teamA with lanes := 128, slices := [(0, { sliceA with
    names := (List.range 126).map (fun n => (n, ⟨0, 0, 0, 0⟩)) })] })] }
theorem test_meets_PlacementAndEnds_reserve : (stFull.runnableOn core0).all (fun p => stFull.blockedAt p.1 p.2) = true ∧
    (stFull.allocOn core0).find? (fun p => stFull.blockedAt p.1 p.2) = some (0, 0) ∧ (stFull.sl 0 0).grant = false ∧
    stFull.above core0 0 0 ((stFull.sl 0 0).names.length + 1) ≤ stFull.spareTotal core0 + 64 := by decide +kernel
theorem test_meets_PlacementAndEnds_halt : let s := stA.modTeam 0 (fun t => { t with wanted := true })
    ∃ tm, s.team 0 = some tm ∧ tm.wanted = true ∧ tm.csa ≠ none ∧ tm.status = .resident ∧ tm.halt = none ∧ tm.slices ≠ [] :=
  ⟨_, rfl, by decide +kernel⟩
/-- Every slice waits in NWAIT, and another task is ready. -/
def stNwait : State :=
  { stA with tasks := stA.tasks ++ [(2, { taskA with serial := 2, next := 0 })],
             teams := [(0, { teamA with slices := [(0, { sliceA with wait := .nwait, nwOn := [0x20000] })] })] }
theorem test_meets_PlacementAndEnds_nwait :
    (stNwait.team 0).any (fun tm => !tm.wanted && tm.csa.isSome && tm.status == .resident && tm.halt.isNone && !tm.slices.isEmpty) = true ∧
    stNwait.nwaitIdle 0 = true ∧ (stNwait.taskOf 0).isSome = true ∧ stNwait.tasks.any (fun p => stNwait.unplaced p.2) = true := by decide +kernel
def stSave : State :=
  { stA with tasks := [(1, { taskA with card := cardOf 1 4 0 0 })], teams := [(0, { teamA with halt := some 0, slices := [(0, { sliceA with parked := true })] })] }
theorem test_meets_PlacementAndEnds_save : stSave.saveReady 0 = true ∧ (let s := foldS (fun k s => s.partFlags k) (stSave.heldKeys 0) stSave
    (s.core core0).wc.any (fun e => e.teams.contains 0) = false ∧
    (match s.csaAll 0 ((s.saveParts 0).flatMap (fun p => csaPieces p.1 p.2 (p.2.length + 1))) with | .done _ => true | _ => false) = true) := by
  decide +kernel
theorem test_meets_PlacementAndEnds_teamEnd : let s := (stC true).modTeam 0 (fun t => { t with status := .ending })
    let s := s.modCtx kM (fun x => { x with run := .ended })
    (s.team 0).any (fun tm => tm.status == .ending && tm.marking.isEmpty) = true ∧ s.storesOut 0 = false ∧ s.copiesInto 0 s.nextId = false ∧ s.copiesFrom 0 = false ∧
    s.reachedFrom 0 = false ∧ s.splicesInto 0 = false ∧ s.owes 0 = false ∧
    s.heldKeys 0 = [kM] ∧ (s.ctx kM).run ≠ .running ∧ (s.ctx kM).flight = none ∧ s.mops.any (fun p => p.2.by_ == .ctx kM) = false ∧
    (s.core core0).wc.any (fun e => e.teams.contains 0) = false := by decide +kernel
/-- The task's teams have ended; its done word has no address, or one. -/
def stDone (d : Nat) : State := { stA with teams := [], tasks := [(1, { taskA with card := cardOf 1 4 0 d, left := 0 })] }
theorem test_meets_PlacementAndEnds_taskEnd :
    (∀ d ∈ [0, 0x200000], (match (stDone d).byHandle 65536 with | some k => k.endDue && k.doneAddr == d && !(stDone d).copies.any (fun p => p.2.task == k.serial) | none => false) = true) ∧
    (let s := ((stDone 0x200000).publishTask 1).modTask 1 (fun k => { k with ending := some 2 })
     match s.geTr (.done 1) 0 0x200000 accWrite with | .ok _ _ _ => true | _ => false) = true := by decide +kernel

/-- A walk that the first slice waits for, of a page that the leaf maps, and of one that no entry maps. -/
def stWalk (va : Nat) : State :=
  (stA.modSlice 0 0 (fun x => { x with wait := .walk })).modDie 0 (fun d => { d with walks := [{ asid := 0, va := va, prio := 0, since := 0, busy := true, waiters := [.slice 0 0] }] })
theorem test_meets_WalksFaultsInvalidations_walk : (∃ x, (stWalk 0).slice 0 0 = some x ∧ x.wait = .walk) ∧ (((stWalk 0).die 0).walks.find? (·.busy)).any (fun q => q.waiters == [.slice 0 0]) = true ∧
    (let s1 := (stWalk 0).modDie 0 (fun d => Die.startWalk { d with walks := [] })
     (match s1.walk 0 0x200000 with | .ok _ => true | .error _ => false) = true ∧ (match s1.walk 0 0x4000000000 with | .ok _ => false | .error _ => true) = true) :=
  ⟨⟨_, rfl, rfl⟩, by decide +kernel⟩
def faultA (r : Option Nat) : FaultEntry :=
  { ring := r, asid := 0, va := 0x200000, kind := kXlate, cause := 1, acc := 0, eng := 0, core := core0, slice := 0, merged := 0, cyc := 0, waiters := [.slice 0 0] }
def stFault (r : Option Nat) : State := (stA.modSlice 0 0 (fun x => { x with wait := .replay })).modDie 0 (fun d => { d with faults := [faultA r] })
theorem test_meets_WalksFaultsInvalidations_answer : (stFault (some 3)).mgmt.started = true ∧ ((stFault (some 3)).die 0).faults.find? (fun f => f.ring == some 3) = some (faultA (some 3)) ∧
    ((stFault (some 3)).slice 0 0).any (fun x => x.wait == .replay) = true ∧ ((stFault (some 3)).die 0).faults.find? (fun f => f.ring == some 4) = none ∧
    (let s1 := (stFault (some 3)).modDie 0 (fun d => { d with faults := d.faults.filter (fun g => g.ring != some 3) })
     s1.faultWaits (.slice 0 0) = false ∧ s1.faultWaits (.engine (.slice 0 0)) = false) := by decide +kernel
theorem test_meets_WalksFaultsInvalidations_queue : (let d := (stFault none).die 0
     d.faults.find? (fun f => f.ring.isNone) = some (faultA none) ∧
     d.faults.find? (fun g => g.ring.isSome && g.asid == 0 && g.va / 4096 == 0x200 && g.kind == kXlate) = none ∧ freeIndex d.faults d.fqHead 1024 = some 0) ∧
    (let d := ((stFault none).modDie 0 (fun d => { d with faults := d.faults ++ [faultA (some 9)] })).die 0
     d.faults.find? (fun f => f.ring.isNone) = some (faultA none) ∧
     d.faults.find? (fun g => g.ring.isSome && g.asid == 0 && g.va / 4096 == 0x200 && g.kind == kXlate) = some (faultA (some 9))) := by decide +kernel
theorem test_meets_WalksFaultsInvalidations_invalidate : stA.inval = none ∧ (let s : State := { stZ with inval := some (0, 0, 0, 0), invalOp := 7 }
    s.usesOld (0, 0, 0, 0) = false ∧ ∀ p ∈ s.cores, (s.core (coreOf p.1)).wc.any (s.wcOld (0, 0, 0, 0)) = false) := by decide +kernel

theorem test_meets_HostWritesErrorsSamples_scratch : stA.team 0 = some teamA ∧ 64 < stA.scrBytes 0 := ⟨rfl, by decide +kernel⟩
theorem test_meets_HostWritesErrorsSamples_errors : stA.errPlace (.hbm 4097) = some (.hbm 4096) ∧ (stA.die 0).errors.find? (fun e => e.loc == .hbm 4096) = none ∧
    (stA.die 0).errors.length < 64 ∧ (let e : ErrEntry := { loc := .hbm 4096, count := 2, first := 0 }
    ((stA.modDie 0 (fun d => { d with errors := [e] })).die 0).errors.find? (fun e => e.loc == .hbm 4096) = some e ∧
    (stA.modDie 0 (fun d => { d with errors := [e] })).cyc 0 - e.first < 2 ^ 32) := by decide +kernel
/-- Feature 7 is on and the sampling period is 64 cycles; address space 0 is sampled. -/
theorem test_meets_HostWritesErrorsSamples_sample : let s := (stA.setGe 0x22228 64).modCore core0 (fun c => { c with samples := [[1, 2, 3, 4]] })
    s.feature 7 = true ∧ bits (s.ge 0x22228) 31 0 = 64 ∧ s.sampled core0 = [(0, teamA.age, 0)] ∧ (s.core core0).samples.length = 1 ∧
    (s.core core0).sampled + 63 < max 64 64 ∧ (stA.core core0).samples = [] ∧ bits (stA.ge 0x22228) 31 0 = 0 := by decide +kernel
theorem test_meets_HostWritesErrorsSamples_write : stA.mgmt.started = true ∧ State.reset.mgmt.started = false ∧ stA.hostReaches 0 1 = true ∧ MemInv stA ∧ stA.everAccepted = false := by
  refine ⟨rfl, rfl, by decide +kernel, by unfold MemInv; decide +kernel, rfl⟩
theorem test_meets_HostWritesErrorsSamples_registers :
    (∀ off ∈ [8, 0x3BFF8, 0x3D000, 0x3FFF8], off % 8 = 0 ∧ off < 0x40000 ∧ ¬ (off < 0x20000 ∧ (off % 0x1000 = 0 ∨ off % 0x1000 = 0x20)) ∧
      off ∉ [0x20038, 0x20040, 0x20050, 0x22780] ∧ ¬ (0x20200 ≤ off ∧ off < 0x20400) ∧ ¬ (0x3C000 ≤ off ∧ off < 0x3D000)) ∧
    (∀ off ∈ [0x3C000, 0x3CFF8], 0x3C000 ≤ off ∧ off < 0x3D000 ∧ off % 8 = 0) ∧
    (∀ off ∈ [0, 0x8FF8], off < 0x9000 ∧ off % 8 = 0 ∧ off ≠ 0x8010 ∧ ¬ (off < 0x8000 ∧ off % 0x1000 = 0x18)) ∧
    (∀ p ∈ [0, 15], bitAt ((stA.setGe (portOff p) (2 ^ 63)).ge (portOff p)) 63 = true) ∧ bits (2 ^ 62) 63 62 = 1 := by decide +kernel
theorem test_meets_ManagementPlaneEvents : (∀ plog ∈ [8, 16], 8 ≤ plog ∧ plog ≤ 16 ∧ 2 ^ plog - 1 < 2 ^ plog) ∧ (∀ d < 8, stA.cyc d + 2 ^ 16 ≤ 2 ^ 16) ∧
    State.reset.mgmt.started = false ∧ State.reset.mgmt.life = .deployed ∧ ({ stA.mgmt with session := 1 } : Mgmt).session ≠ 0 := by decide +kernel

theorem test_meets_IntegerResultsAsNumbers : (1 ∈ List.range' 1 12 ∧ 12 ∈ List.range' 1 12 ∧ 5 ∈ List.range' 5 8 ∧ 12 ∈ List.range' 5 8) ∧
    (∀ t ∈ List.range' 1 12, 0 < tyCount t) ∧ (0xFFFFFFFF : Nat) < 2 ^ (tyBits 1 * tyCount 1) ∧ (2 ^ 64 - 1 : Nat) < 2 ^ 64 := by decide +kernel
theorem test_meets_ReadsSeeWrites : MemInv stA ∧ stA.team 0 = some teamA ∧ teamA.scratch.wf = true := ⟨by unfold MemInv; decide +kernel, rfl, rfl⟩
theorem test_meets_DecodeInvertsEncode : let i := Instr.iadd { d := 3, a := 0, b := 1, la := false, lb := false }
    WellFormed i = true ∧ i.raw.isSome = true ∧ (match decodeWords [0] with | .ok i => i.raw.isSome | .error _ => false) = true := by decide +kernel
/-- NOP of four zero bytes at the PC. -/
theorem test_meets_StepRunsDecodedInstruction : let x : Seat := { team := 0, age := teamA.age, slice := 0 }
    let s1 := (stA.prepare [x]).allocPass core0
    stA.mgmt.started = true ∧ stA.team 0 = some teamA ∧ teamA.core = core0 ∧ (stA.die 0).inBubble = false ∧ stA.pressed 0 = false ∧ stA.offered core0 0 [0] = [x] ∧
    stA.dueTrap 0 0 = none ∧ (s1.seats core0).filter (fun y => y == x) = [x] ∧ s1.overdue core0 = [] ∧ s1.opAt x = some .nop ∧
    (match s1.fetch (.slice 0 0) with | .ok _ r => !crossLane r.op && r.op == .nop | _ => false) = true ∧ s1.wouldIssue 0 0 = true := by decide +kernel
theorem test_meets_StepRunsDecodedInstruction_ctx : let s := stC true
    s.mgmt.started = true ∧ core0.ok = true ∧ (s.die 0).inBubble = false ∧ s.pressed 0 = false ∧ s.ctxNext true core0 = core0 ∧ (s.ctx kM).run = .running ∧
    (s.ctx kM).pend = [] ∧ (s.ctx kM).yieldEnd ≤ s.cyc 0 ∧ (match s.fetch (.ctx kM) with | .ok _ r => s.ctxReady kM r | _ => false) = true := by decide +kernel
theorem test_meets_StepKeepsMemoryCanonical : MemInv stA ∧ (next? (step { stA with inbox := [.tick 0 1] })).isSome = true :=
  ⟨by unfold MemInv; decide +kernel, by decide +kernel⟩


/-! ## Decoding: a word of each instruction, written out from the grids of R149 and R150 and the fields of R133 to R135 -/

def decodesTo (ws : List Word) (i : Instr) : Bool := match decodeWords ws with | .ok j => j == i | .error _ => false
/-- The fields of an extended form: D, A, B, C, TYPE, SCOPE, IMM11; no predicate. -/
def eF (d a b c ty scope imm : Nat) : Ext :=
  { xf d a b with c := BitVec.ofNat 8 c, ty := BitVec.ofNat 5 ty, scope := BitVec.ofNat 4 scope, imm := BitVec.ofNat 11 imm }
def baseWords0 : List (Word × Instr) := [
  (0x00000000, .nop ⟨0, 0, 0, false, false⟩), (0x00800024, .bra ⟨0, 0, 9, false, false⟩), (0x01090A24, .brx ⟨9, 5, 9, false, false⟩),
   (0x01830024, .call ⟨3, 0, 9, false, false⟩), (0x02030A18, .callx ⟨3, 5, 6, false, false⟩), (0x02800A00, .ret ⟨0, 5, 0, false, false⟩),
   (0x03000000, .exit ⟨0, 0, 0, false, false⟩), (0x03800000, .kill ⟨0, 0, 0, false, false⟩), (0x04000000, .yield ⟨0, 0, 0, false, false⟩),
   (0x04800024, .enter ⟨0, 0, 9, false, false⟩), (0x05000024, .leave ⟨0, 0, 9, false, false⟩), (0x05CB0A18, .plop ⟨75, 5, 6, false, false⟩),
   (0x06031218, .smov ⟨3, 9, 6, false, false⟩), (0x06890A00, .sset ⟨9, 5, 0, false, false⟩), (0x07000024, .trap ⟨0, 0, 9, false, false⟩),
   (0x07800000, .rett), (0x07810000, .rettH), (0x08000000, .drainst ⟨0, 0, 0, false, false⟩), (0x08800000, .gkill ⟨0, 0, 0, false, false⟩),
   (0x09000024, .bkpt ⟨0, 0, 9, false, false⟩), (0x09830000, .rrchk ⟨3, 0, 0, false, false⟩)]
theorem test_base_words_0 : baseWords0.all (fun p => decodesTo [p.1] p.2) = true := by decide +kernel
def baseWords1 : List (Word × Instr) := [
  (0x0A000000, .trigger ⟨0, 0, 0, false, false⟩), (0x0A800000, .seqend ⟨0, 0, 0, false, false⟩), (0x0C030018, .mov ⟨3, 0, 6, false, false⟩),
   (0x0C830018, .kmov ⟨3, 0, 6, false, false⟩), (0x0D030A18, .iadd ⟨3, 5, 6, false, false⟩), (0x0D830A18, .isub ⟨3, 5, 6, false, false⟩),
   (0x0E030A18, .iaddc ⟨3, 5, 6, false, false⟩), (0x0E830A18, .isubb ⟨3, 5, 6, false, false⟩), (0x0F030A18, .iadd64 ⟨3, 5, 6, false, false⟩),
   (0x0F830A18, .imul ⟨3, 5, 6, false, false⟩), (0x10030A18, .imulh ⟨3, 5, 6, false, false⟩), (0x11830A18, .imin ⟨3, 5, 6, false, false⟩),
   (0x12030A18, .imax ⟨3, 5, 6, false, false⟩), (0x12830A00, .iabs ⟨3, 5, 0, false, false⟩), (0x13030A18, .and ⟨3, 5, 6, false, false⟩),
   (0x13830A18, .or ⟨3, 5, 6, false, false⟩), (0x14030A18, .xor ⟨3, 5, 6, false, false⟩), (0x14830A18, .andn ⟨3, 5, 6, false, false⟩),
   (0x15030A18, .shl ⟨3, 5, 6, false, false⟩), (0x15830A18, .shr ⟨3, 5, 6, false, false⟩), (0x16030A18, .sar ⟨3, 5, 6, false, false⟩)]
theorem test_base_words_1 : baseWords1.all (fun p => decodesTo [p.1] p.2) = true := by decide +kernel
def baseWords2 : List (Word × Instr) := [
  (0x17030A18, .rot ⟨3, 5, 6, false, false⟩), (0x17830A18, .bfx ⟨3, 5, 6, false, false⟩), (0x18830A00, .popc ⟨3, 5, 0, false, false⟩),
   (0x19030A00, .clz ⟨3, 5, 0, false, false⟩), (0x19830A00, .brev ⟨3, 5, 0, false, false⟩), (0x1AC90A18, .icmp ⟨73, 5, 6, false, false⟩),
   (0x1B030A18, .isel ⟨3, 5, 6, false, false⟩), (0x1C050000, .fence ⟨5, 0, 0, false, false⟩), (0x1C800018, .bar ⟨0, 0, 6, false, false⟩),
   (0x1D030018, .bara ⟨3, 0, 6, false, false⟩), (0x1D800A18, .barw ⟨0, 5, 6, false, false⟩), (0x1E000A18, .barinit ⟨0, 5, 6, false, false⟩),
   (0x1E800A00, .splice ⟨0, 5, 0, false, false⟩), (0x20030A18, .fadd ⟨3, 5, 6, false, false⟩), (0x20830A18, .fsub ⟨3, 5, 6, false, false⟩),
   (0x21030A18, .fmul ⟨3, 5, 6, false, false⟩), (0x22030A18, .fmin ⟨3, 5, 6, false, false⟩), (0x22830A18, .fmax ⟨3, 5, 6, false, false⟩),
   (0x23490A18, .fcmp ⟨73, 5, 6, false, false⟩), (0x23830A00, .fclass ⟨3, 5, 0, false, false⟩), (0x24030A18, .fscale ⟨3, 5, 6, false, false⟩)]
theorem test_base_words_2 : baseWords2.all (fun p => decodesTo [p.1] p.2) = true := by decide +kernel
def baseWords3 : List (Word × Instr) := [
  (0x24830A00, .frcp ⟨3, 5, 0, false, false⟩), (0x25030A00, .frsq ⟨3, 5, 0, false, false⟩), (0x25830A00, .fsqrt ⟨3, 5, 0, false, false⟩),
   (0x26030A18, .fdiv ⟨3, 5, 6, false, false⟩), (0x26830A00, .fexp2 ⟨3, 5, 0, false, false⟩), (0x27030A00, .flog2 ⟨3, 5, 0, false, false⟩),
   (0x27830A00, .fsin ⟨3, 5, 0, false, false⟩), (0x28030A00, .fcos ⟨3, 5, 0, false, false⟩), (0x28830A18, .dadd ⟨3, 5, 6, false, false⟩),
   (0x29030A18, .dmul ⟨3, 5, 6, false, false⟩), (0x2A490A18, .dcmp ⟨73, 5, 6, false, false⟩), (0x2A830A18, .hadd2 ⟨3, 5, 6, false, false⟩),
   (0x2B030A18, .hmul2 ⟨3, 5, 6, false, false⟩), (0x2C030A18, .hmin2 ⟨3, 5, 6, false, false⟩), (0x2C830A18, .hmax2 ⟨3, 5, 6, false, false⟩),
   (0x2E830A18, .cvtpk ⟨3, 5, 6, false, false⟩), (0x30030A18, .vqdec ⟨3, 5, 6, false, false⟩), (0x30800A18, .exphist ⟨0, 5, 6, false, false⟩),
   (0x31000018, .srseed ⟨0, 0, 6, false, false⟩), (0x31830A18, .xshf ⟨3, 5, 6, false, false⟩), (0x32030A18, .xbcast ⟨3, 5, 6, false, false⟩)]
theorem test_base_words_3 : baseWords3.all (fun p => decodesTo [p.1] p.2) = true := by decide +kernel
def baseWords4 : List (Word × Instr) := [
  (0x32830A00, .xred ⟨3, 5, 0, false, false⟩), (0x33030A00, .xscan ⟨3, 5, 0, false, false⟩), (0x34010200, .xvote ⟨1, 1, 0, false, false⟩),
   (0x34830A00, .xmatch ⟨3, 5, 0, false, false⟩), (0x35030A00, .ld ⟨3, 5, 0, false, false⟩), (0x35830A00, .st ⟨3, 5, 0, false, false⟩),
   (0x36030A00, .ldk ⟨3, 5, 0, false, false⟩), (0x36830A18, .atom ⟨3, 5, 6, false, false⟩), (0x37000A18, .red ⟨0, 5, 6, false, false⟩),
   (0x37830A00, .pref ⟨3, 5, 0, false, false⟩), (0x38000A00, .cflush ⟨0, 5, 0, false, false⟩), (0x38800A00, .cinv ⟨0, 5, 0, false, false⟩),
   (0x39800A00, .tcopy ⟨0, 5, 0, false, false⟩), (0x3A000A00, .tdump ⟨0, 5, 0, false, false⟩), (0x3A800A00, .awinit ⟨0, 5, 0, false, false⟩),
   (0x3B030A18, .awexp ⟨3, 5, 6, false, false⟩), (0x3B830A18, .await ⟨3, 5, 6, false, false⟩), (0x3C010A18, .awtest ⟨1, 5, 6, false, false⟩),
   (0x3E030A00, .launch ⟨3, 5, 0, false, false⟩), (0x3E830A00, .nwait ⟨3, 5, 0, false, false⟩), (0x3E830A04, .nwaitT ⟨3, 5, 1, false, false⟩)]
theorem test_base_words_4 : baseWords4.all (fun p => decodesTo [p.1] p.2) = true := by decide +kernel
def extWords0 : List (Word × Word × Word × Instr) := [
  (0x40020818, 0x00087000, 0x00A00000, .nopExt (eF 2 4 6 8 0 0 5)), (0x40820818, 0x00087000, 0x00A00000, .braExt (eF 2 4 6 8 0 0 5)),
   (0x41020818, 0x00087000, 0x00A00000, .brxExt (eF 2 4 6 8 0 0 5)), (0x41820818, 0x00087000, 0x00A00000, .callExt (eF 2 4 6 8 0 0 5)),
   (0x42020818, 0x00087000, 0x00A00000, .callxExt (eF 2 4 6 8 0 0 5)), (0x42820818, 0x00087000, 0x00A00000, .retExt (eF 2 4 6 8 0 0 5)),
   (0x43020818, 0x00087000, 0x00A00000, .exitExt (eF 2 4 6 8 0 0 5)), (0x43820818, 0x00087000, 0x00A00000, .killExt (eF 2 4 6 8 0 0 5)),
   (0x44020818, 0x00087000, 0x00A00000, .yieldExt (eF 2 4 6 8 0 0 5)), (0x44820818, 0x00087000, 0x00A00000, .enterExt (eF 2 4 6 8 0 0 5)),
   (0x45020818, 0x00087000, 0x00A00000, .leaveExt (eF 2 4 6 8 0 0 5)), (0x45820818, 0x00087000, 0x00A00000, .plopExt (eF 2 4 6 8 0 0 5)),
   (0x46020818, 0x00087000, 0x00A00000, .smovExt (eF 2 4 6 8 0 0 5)), (0x46820818, 0x00087000, 0x00A00000, .ssetExt (eF 2 4 6 8 0 0 5)),
   (0x47020818, 0x00087000, 0x00A00000, .trapExt (eF 2 4 6 8 0 0 5)), (0x48020818, 0x00087000, 0x00A00000, .drainstExt (eF 2 4 6 8 0 0 5)),
   (0x48820818, 0x00087000, 0x00A00000, .gkillExt (eF 2 4 6 8 0 0 5)), (0x49020818, 0x00087000, 0x00A00000, .bkptExt (eF 2 4 6 8 0 0 5)),
   (0x49820818, 0x00087000, 0x00A00000, .rrchkExt (eF 2 4 6 8 0 0 5)), (0x4A020818, 0x00087000, 0x00A00000, .triggerExt (eF 2 4 6 8 0 0 5))]
theorem test_ext_words_0 : extWords0.all (fun p => decodesTo [p.1, p.2.1, p.2.2.1] p.2.2.2) = true := by decide +kernel
def extWords1 : List (Word × Word × Word × Instr) := [
  (0x4A820818, 0x00087000, 0x00A00000, .seqendExt (eF 2 4 6 8 0 0 5)), (0x4C020818, 0x00087000, 0x00A00000, .movExt (eF 2 4 6 8 0 0 5)),
   (0x4C820818, 0x00087000, 0x00A00000, .kmovExt (eF 2 4 6 8 0 0 5)), (0x4D020818, 0x00087000, 0x00A00000, .iaddExt (eF 2 4 6 8 0 0 5)),
   (0x4D820818, 0x00087000, 0x00A00000, .isubExt (eF 2 4 6 8 0 0 5)), (0x4E020818, 0x00087000, 0x00A00000, .iaddcExt (eF 2 4 6 8 0 0 5)),
   (0x4E820818, 0x00087000, 0x00A00000, .isubbExt (eF 2 4 6 8 0 0 5)), (0x4F020818, 0x00087000, 0x00A00000, .iadd64Ext (eF 2 4 6 8 0 0 5)),
   (0x4F820818, 0x00087000, 0x00A00000, .imulExt (eF 2 4 6 8 0 0 5)), (0x50020818, 0x00087000, 0x00A00000, .imulhExt (eF 2 4 6 8 0 0 5)),
   (0x50820818, 0x00087000, 0x00A00000, .imad (eF 2 4 6 8 0 0 5)), (0x51020818, 0x00087000, 0x00A00000, .imad64 (eF 2 4 6 8 0 0 5)),
   (0x51820818, 0x00087000, 0x00A00000, .iminExt (eF 2 4 6 8 0 0 5)), (0x52020818, 0x00087000, 0x00A00000, .imaxExt (eF 2 4 6 8 0 0 5)),
   (0x52820818, 0x00087000, 0x00A00000, .iabsExt (eF 2 4 6 8 0 0 5)), (0x53020818, 0x00087000, 0x00A00000, .andExt (eF 2 4 6 8 0 0 5)),
   (0x53820818, 0x00087000, 0x00A00000, .orExt (eF 2 4 6 8 0 0 5)), (0x54020818, 0x00087000, 0x00A00000, .xorExt (eF 2 4 6 8 0 0 5)),
   (0x54820818, 0x00087000, 0x00A00000, .andnExt (eF 2 4 6 8 0 0 5)), (0x55020818, 0x00087000, 0x00A00000, .shlExt (eF 2 4 6 8 0 0 5))]
theorem test_ext_words_1 : extWords1.all (fun p => decodesTo [p.1, p.2.1, p.2.2.1] p.2.2.2) = true := by decide +kernel
def extWords2 : List (Word × Word × Word × Instr) := [
  (0x55820818, 0x00087000, 0x00A00000, .shrExt (eF 2 4 6 8 0 0 5)), (0x56020818, 0x00087000, 0x00A00000, .sarExt (eF 2 4 6 8 0 0 5)),
   (0x56820818, 0x00087000, 0x00A00000, .shf (eF 2 4 6 8 0 0 5)), (0x57020818, 0x00087000, 0x00A00000, .rotExt (eF 2 4 6 8 0 0 5)),
   (0x57820818, 0x00087000, 0x00A00000, .bfxExt (eF 2 4 6 8 0 0 5)), (0x58020818, 0x00087000, 0x00A00000, .bfi (eF 2 4 6 8 0 0 5)),
   (0x58820818, 0x00087000, 0x00A00000, .popcExt (eF 2 4 6 8 0 0 5)), (0x59020818, 0x00087000, 0x00A00000, .clzExt (eF 2 4 6 8 0 0 5)),
   (0x59820818, 0x00087000, 0x00A00000, .brevExt (eF 2 4 6 8 0 0 5)), (0x5A020818, 0x00087000, 0x00A00000, .perm (eF 2 4 6 8 0 0 5)),
   (0x5A820818, 0x00087000, 0x00A00000, .icmpExt (eF 2 4 6 8 0 0 5)), (0x5B020818, 0x00087000, 0x00A00000, .iselExt (eF 2 4 6 8 0 0 5)),
   (0x5B820818, 0x00087000, 0x00A00000, .lea (eF 2 4 6 8 0 0 5)), (0x5C020818, 0x00087000, 0x00A00000, .fenceExt (eF 2 4 6 8 0 0 5)),
   (0x5C820818, 0x00087000, 0x00A00000, .barExt (eF 2 4 6 8 0 0 5)), (0x5D020818, 0x00087000, 0x00A00000, .baraExt (eF 2 4 6 8 0 0 5)),
   (0x5D820818, 0x00087000, 0x00A00000, .barwExt (eF 2 4 6 8 0 0 5)), (0x5E020818, 0x00087000, 0x00A00000, .barinitExt (eF 2 4 6 8 0 0 5)),
   (0x5E820818, 0x00087000, 0x00A00000, .spliceExt (eF 2 4 6 8 0 0 5)), (0x5F020818, 0x00087000, 0x00A00000, .fork (eF 2 4 6 8 0 0 5))]
theorem test_ext_words_2 : extWords2.all (fun p => decodesTo [p.1, p.2.1, p.2.2.1] p.2.2.2) = true := by decide +kernel
def extWords3 : List (Word × Word × Word × Instr) := [
  (0x5F820818, 0x00087000, 0x00A00000, .rdv (eF 2 4 6 8 0 0 5)), (0x60020818, 0x00087000, 0x00A00000, .faddExt (eF 2 4 6 8 0 0 5)),
   (0x60820818, 0x00087000, 0x00A00000, .fsubExt (eF 2 4 6 8 0 0 5)), (0x61020818, 0x00087000, 0x00A00000, .fmulExt (eF 2 4 6 8 0 0 5)),
   (0x61820818, 0x00087000, 0x00A00000, .ffma (eF 2 4 6 8 0 0 5)), (0x62020818, 0x00087000, 0x00A00000, .fminExt (eF 2 4 6 8 0 0 5)),
   (0x62820818, 0x00087000, 0x00A00000, .fmaxExt (eF 2 4 6 8 0 0 5)), (0x63020818, 0x00087000, 0x00A00000, .fcmpExt (eF 2 4 6 8 0 0 5)),
   (0x63820818, 0x00087000, 0x00A00000, .fclassExt (eF 2 4 6 8 0 0 5)), (0x64020818, 0x00087000, 0x00A00000, .fscaleExt (eF 2 4 6 8 0 0 5)),
   (0x64820818, 0x00087000, 0x00A00000, .frcpExt (eF 2 4 6 8 0 0 5)), (0x65020818, 0x00087000, 0x00A00000, .frsqExt (eF 2 4 6 8 0 0 5)),
   (0x65820818, 0x00087000, 0x00A00000, .fsqrtExt (eF 2 4 6 8 0 0 5)), (0x66020818, 0x00087000, 0x00A00000, .fdivExt (eF 2 4 6 8 0 0 5)),
   (0x66820818, 0x00087000, 0x00A00000, .fexp2Ext (eF 2 4 6 8 0 0 5)), (0x67020818, 0x00087000, 0x00A00000, .flog2Ext (eF 2 4 6 8 0 0 5)),
   (0x67820818, 0x00087000, 0x00A00000, .fsinExt (eF 2 4 6 8 0 0 5)), (0x68020818, 0x00087000, 0x00A00000, .fcosExt (eF 2 4 6 8 0 0 5)),
   (0x68820818, 0x00087000, 0x00A00000, .daddExt (eF 2 4 6 8 0 0 5)), (0x69020818, 0x00087000, 0x00A00000, .dmulExt (eF 2 4 6 8 0 0 5))]
theorem test_ext_words_3 : extWords3.all (fun p => decodesTo [p.1, p.2.1, p.2.2.1] p.2.2.2) = true := by decide +kernel
def extWords4 : List (Word × Word × Word × Instr) := [
  (0x69820818, 0x00087000, 0x00A00000, .dfma (eF 2 4 6 8 0 0 5)), (0x6A020818, 0x00087000, 0x00A00000, .dcmpExt (eF 2 4 6 8 0 0 5)),
   (0x6A820818, 0x00087000, 0x00A00000, .hadd2Ext (eF 2 4 6 8 0 0 5)), (0x6B020818, 0x00087000, 0x00A00000, .hmul2Ext (eF 2 4 6 8 0 0 5)),
   (0x6B820818, 0x00087000, 0x00A00000, .hfma2 (eF 2 4 6 8 0 0 5)), (0x6C020818, 0x00087000, 0x00A00000, .hmin2Ext (eF 2 4 6 8 0 0 5)),
   (0x6C820818, 0x00087000, 0x00A00000, .hmax2Ext (eF 2 4 6 8 0 0 5)), (0x6D020818, 0x00087000, 0x00A00000, .fdot (eF 2 4 6 8 0 0 5)),
   (0x6E020818, 0x00087000, 0x00A00000, .cvt (eF 2 4 6 8 0 0 5)), (0x6E820818, 0x00087000, 0x00A00000, .cvtpkExt (eF 2 4 6 8 0 0 5)),
   (0x6F020818, 0x00087000, 0x00A00000, .qblk (eF 2 4 6 8 0 0 5)), (0x6F820818, 0x00087000, 0x00A00000, .dqblk (eF 2 4 6 8 0 0 5)),
   (0x70020818, 0x00087000, 0x00A00000, .vqdecExt (eF 2 4 6 8 0 0 5)), (0x70820818, 0x00087000, 0x00A00000, .exphistExt (eF 2 4 6 8 0 0 5)),
   (0x71020818, 0x00087000, 0x00A00000, .srseedExt (eF 2 4 6 8 0 0 5)), (0x71820818, 0x00087000, 0x00A00000, .xshfExt (eF 2 4 6 8 0 0 5)),
   (0x72020818, 0x00087000, 0x00A00000, .xbcastExt (eF 2 4 6 8 0 0 5)), (0x72820818, 0x00087000, 0x00A00000, .xredExt (eF 2 4 6 8 0 0 5)),
   (0x73020818, 0x00087000, 0x00A00000, .xscanExt (eF 2 4 6 8 0 0 5)), (0x73820818, 0x00087000, 0x00A00000, .xdot (eF 2 4 6 8 0 0 5))]
theorem test_ext_words_4 : extWords4.all (fun p => decodesTo [p.1, p.2.1, p.2.2.1] p.2.2.2) = true := by decide +kernel
def extWords5 : List (Word × Word × Word × Instr) := [
  (0x74020818, 0x00087000, 0x00A00000, .xvoteExt (eF 2 4 6 8 0 0 5)), (0x74820818, 0x00087000, 0x00A00000, .xmatchExt (eF 2 4 6 8 0 0 5)),
   (0x75020818, 0x00087000, 0x00A00000, .ldExt (eF 2 4 6 8 0 0 5)), (0x75820818, 0x00087000, 0x00A00000, .stExt (eF 2 4 6 8 0 0 5)),
   (0x76020818, 0x00087000, 0x00A00000, .ldkExt (eF 2 4 6 8 0 0 5)), (0x76820818, 0x00087000, 0x00A00000, .atomExt (eF 2 4 6 8 0 0 5)),
   (0x77020818, 0x00087000, 0x00A00000, .redExt (eF 2 4 6 8 0 0 5)), (0x77820818, 0x00087000, 0x00A00000, .prefExt (eF 2 4 6 8 0 0 5)),
   (0x78020818, 0x00087000, 0x00A00000, .cflushExt (eF 2 4 6 8 0 0 5)), (0x78820818, 0x00087000, 0x00A00000, .cinvExt (eF 2 4 6 8 0 0 5)),
   (0x79020818, 0x00087000, 0x00A00000, .acp16 (eF 2 4 6 8 0 0 5)), (0x79820818, 0x00087000, 0x00A00000, .tcopyExt (eF 2 4 6 8 0 0 5)),
   (0x7A020818, 0x00087000, 0x00A00000, .tdumpExt (eF 2 4 6 8 0 0 5)), (0x7A820818, 0x00087000, 0x00A00000, .awinitExt (eF 2 4 6 8 0 0 5)),
   (0x7B020818, 0x00087000, 0x00A00000, .awexpExt (eF 2 4 6 8 0 0 5)), (0x7B820818, 0x00087000, 0x00A00000, .awaitExt (eF 2 4 6 8 0 0 5)),
   (0x7C020818, 0x00087000, 0x00A00000, .awtestExt (eF 2 4 6 8 0 0 5)), (0x7E020818, 0x00087000, 0x00A00000, .launchExt (eF 2 4 6 8 0 0 5)),
   (0x7E820818, 0x00087000, 0x00A00000, .nwaitExt (eF 2 4 6 8 0 0 5)), (0x7F020818, 0x01087000, 0x00A00000, .hinit (eF 2 4 6 8 0 0 5))]
theorem test_ext_words_5 : extWords5.all (fun p => decodesTo [p.1, p.2.1, p.2.2.1] p.2.2.2) = true := by decide +kernel
def extWords6 : List (Word × Word × Word × Instr) := [
  (0x7F020818, 0x02087000, 0x00A00000, .hjoin (eF 2 4 6 8 0 0 5)), (0x7F020818, 0x03087000, 0x00A00000, .hcontrib (eF 2 4 6 8 0 0 5)),
   (0x7F020818, 0x04087000, 0x00A00000, .hwait (eF 2 4 6 8 0 0 5)), (0x7F020818, 0x05087000, 0x00A00000, .hquery (eF 2 4 6 8 0 0 5)),
   (0x7F820818, 0x01087000, 0x00A00000, .tcfg (eF 2 4 6 8 0 0 5)), (0x7F820818, 0x02087000, 0x00A00000, .tld (eF 2 4 6 8 0 0 5)),
   (0x7F820818, 0x03087000, 0x00A00000, .tst (eF 2 4 6 8 0 0 5)), (0x7F820818, 0x04087000, 0x00A00000, .tzero (eF 2 4 6 8 0 0 5)),
   (0x7F820818, 0x05087000, 0x00A00000, .mma (eF 2 4 6 8 0 0 5)), (0x7F820818, 0x06087000, 0x00A00000, .mmav (eF 2 4 6 8 0 0 5)),
   (0x7F820818, 0x07087000, 0x00A00000, .cbld (eF 2 4 6 8 0 0 5)), (0x7F820818, 0x08087000, 0x00A00000, .olapply (eF 2 4 6 8 0 0 5)),
   (0x7F820818, 0x09087000, 0x00A00000, .aprom (eF 2 4 6 8 0 0 5)), (0x7F820818, 0x0A087000, 0x00A00000, .aout (eF 2 4 6 8 0 0 5)),
   (0x7F820818, 0x0B087000, 0x00A00000, .asav (eF 2 4 6 8 0 0 5)), (0x7F820818, 0x0C087000, 0x00A00000, .arst (eF 2 4 6 8 0 0 5)),
   (0x7F820818, 0x0D087000, 0x00A00000, .ahist (eF 2 4 6 8 0 0 5)), (0x7F820818, 0x0E087000, 0x00A00000, .stest (eF 2 4 6 8 0 0 5))]
theorem test_ext_words_6 : extWords6.all (fun p => decodesTo [p.1, p.2.1, p.2.2.1] p.2.2.2) = true := by decide +kernel


/-- FCLASS.rdfl and TZERO.a by SCOPE bit 0 (R245, R335); MOV with a 64-bit literal (L = 0b10), FADD with a predicate and a
literal (L = 0b11). -/
theorem test_variant_words : decodesTo [0x63820000, 0x00007001, 0] (.fclassRdfl (eF 2 0 0 0 0 1 0)) = true ∧
    decodesTo [0x7F820000, 0x04007001, 0] (.tzeroA (eF 2 0 0 0 0 1 0)) = true ∧ decodesTo [0x7F820000, 0x04007000, 0] (.tzero (eF 2 0 0 0 0 0 0)) = true ∧
    decodesTo [0xE0030A00, 0x00009000, 0x00003000, 0x3F800000, 0] (.faddExt { xf 3 5 0 with
      form := .x11, pneg := true, pidx := 1, selB := { Sel.plain with cls := .lit }, lit := 0x3F800000 }) = true := by decide +kernel
/-- The worked encodings of "Instruction encoding". -/
theorem test_worked_words : decodesTo [0x0D030208] (.iadd (bf 3 1 2)) = true ∧
    decodesTo [0x4D0303EC, 0x00007000, 0x00003000] (.iaddExt { xf 3 1 0x7B with selB := { Sel.plain with cls := .lit } }) = true ∧
    decodesTo [0x8D030200, 0x12345678, 0] (.iaddExt { (xf 3 1 0).litForm with lit := 0x12345678 }) = true ∧
    decodesTo [0x61870816, 0x0006A200, 0x00001000] (.ffma { xf 7 4 5 with
      la := true, c := 6, pneg := true, pidx := 2, rm := 1, selB := { Sel.plain with cls := .k } }) = true ∧
    encodeBytes (.ffma { xf 7 4 5 with la := true, c := 6, pneg := true, pidx := 2, rm := 1, selB := { Sel.plain with cls := .k } }) =
      [0x16, 0x08, 0x87, 0x61, 0x00, 0xA2, 0x06, 0x00, 0x00, 0x10, 0x00, 0x00] := by decide +kernel
def refusedWord (ws : List Word) : Bool := match decodeWords ws with | .error e => e != .truncated | .ok i => !WellFormed i
/-- Reserved encodings (R149 to R151): an unassigned OP, an unassigned XOP, a group opcode in its base form, PIDX 7 with PNEG, a
set reserved bit, and a truncated instruction. -/
theorem test_reserved_words : decodeWords [0x0B000000] = .error .unassigned ∧ refusedWord [0x7F800000, 0x0F007000, 0] = true ∧ refusedWord [0x3F000000] = true ∧
    refusedWord [0x40000000, 0x0000F000, 0] = true ∧ refusedWord [0x40000000, 0x00007000, 1] = true ∧ refusedWord [0xC0000000, 0x00007000, 0, 0, 0] = true ∧
    decodeWords [0x40000000] = .error .truncated := by
  refine ⟨rfl, ?_, ?_, ?_, ?_, ?_, rfl⟩ <;> decide +kernel

/-! ## WellFormed refuses a term for each of its checks -/

/-- In order: a literal in a form without one; extended fields in a literal-only form; each pair of rows that share a word; an
SR rounding mode code that is reserved; a form not listed; a field that the entry does not permit; reserved bits; PIDX 7 with
PNEG; an odd pair as destination, A, B and C; a literal that nothing reads; FENCE with bit 2 of D on no engine that has it; and
events of units that do not exist. -/
theorem test_ill_formed : [Instr.iaddExt { xf 3 0 1 with lit := 1 }, .iaddExt { (xf 3 0 0).litForm with ty := 2 }, .nwait (bf 4 0 1), .nwaitT (bf 4 0 0),
    .fclassExt (eF 2 0 0 0 0 1 0), .fclassRdfl (eF 2 0 0 0 0 0 0), .tzero (eF 1 0 0 0 0 1 0), .tzeroA (eF 1 0 0 0 0 0 0),
    .faddExt { xf 3 0 1 with rm := 7 }, .rdv { xf 0 0 0 with form := .x10 }, .iaddExt (eF 3 0 1 0 0x17 0 0), .iaddExt { xf 3 0 1 with rsv := 1 },
    .iaddExt { xf 3 0 1 with pneg := true }, .dadd (bf 3 0 2), .dadd (bf 4 1 2), .dadd (bf 4 0 3), .dfma (eF 4 0 2 7 0 0 0),
    .iaddExt { xf 3 0 1 with form := .x11, lit := 1 }, .launchPortConfigure 16 0, .throttleStart 8, .faultRetry 0 1024,
    .reserveGrant { die := 0, quad := 32, core := 0 }, .linkUp 36].all (fun i => !WellFormed i) = true := by decide +kernel
/-- Neighbours of those terms that are well formed. -/
theorem test_well_formed : [Instr.iaddExt (xf 3 0 1), .nwait (bf 4 0 0), .nwaitT (bf 4 0 1), .fclassRdfl (eF 2 0 0 0 0 1 0), .tzeroA (eF 1 0 0 0 0 1 0),
    .faddExt { xf 3 0 1 with rm := 4 }, .dadd (bf 4 0 2), .dfma (eF 4 0 2 6 0 0 0), .launchPortConfigure 15 0, .faultRetry 7 1023,
    .reserveGrant { die := 7, quad := 31, core := 3 }, .linkUp 35].all WellFormed = true := by decide +kernel


/-! ## One step of each family: results from the worked examples of the spec, or by hand -/

/-- The first slice with the names given, each the same in every lane. -/
def stN (ns : List (Nat × Nat)) : State := stA.modSlice 0 0 (fun x => { x with names := ns.map (fun p => let w := BitVec.ofNat 32 p.2; (p.1, ⟨w, w, w, w⟩)) })
def imm (x : Ext) : Ext := { x with selB := { Sel.plain with cls := .lit } }
/-- The sticky flags of lane 0 after an instruction. -/
def flagsAfter (i : Instr) (s : State) : Option Word := (next? (exec i s)).map (fun t => (t.sl 0 0).fstk.get 0)
def ctx3 (s : State) : State := { s with tasks := [(1, { taskA with card := BitVec.ofNat 64 (3 * 2 ^ 56 + 3 * 2 ^ 36) :: loadCard.drop 1 })] }
def ctx41 (s : State) : State := { s with tasks := [(1, { taskA with card := BitVec.ofNat 64 (3 * 2 ^ 56 + 41 * 2 ^ 36) :: loadCard.drop 1 })] }

/-- v0 + v1 = 5 + (-1) in lane 0, with no carry out of the lane (R203). -/
theorem test_iadd : regAfter (.iadd (bf 3 0 1)) stA 3 0 = some 4 ∧ regAfter (.iadd (bf 3 0 1)) stA 3 1 = some 8 ∧ pcAfter (.iadd (bf 3 0 1)) stA = some 0x100004 := by
  decide +kernel
/-- IADD.i16.sat (R203, its example) and without .sat. -/
theorem test_iadd_i16 : regAfter (.iaddExt (eF 1 2 3 0 6 1 0)) (stN [(2, 0x7FF08000), (3, 0x0020FFFF)]) 1 0 = some 0x7FFF8000 ∧
    regAfter (.iaddExt (eF 1 2 3 0 6 0 0)) (stN [(2, 0x7FF08000), (3, 0x0020FFFF)]) 1 0 = some 0x80107FFF := by decide +kernel
/-- The low word of a 96-bit sum: the carry out goes to q1 (R204, its example). -/
theorem test_iaddc : decodesTo [0x4E000618, 0x00007000, 0x09000000] (.iaddcExt (eF 0 3 6 0 0 0 0x48)) = true ∧
    predAfter (.iaddcExt (eF 0 3 6 0 0 0 0x48)) (stN [(3, 0xFFFFFFFF), (6, 1)]) 1 0 = some true ∧
    regAfter (.iaddcExt (eF 0 3 6 0 0 0 0x48)) (stN [(3, 0xFFFFFFFF), (6, 1)]) 0 0 = some 0 := by decide +kernel
/-- BFX (its example): position 4, width 8. -/
theorem test_bfx : regAfter (.bfx (bf 1 2 3)) (stN [(2, 0xF30), (3, 0x804)]) 1 0 = some 0xF3 ∧
    regAfter (.bfxExt (eF 1 2 3 0 7 0 0)) (stN [(2, 0xF30), (3, 0x804)]) 1 0 = some 0xFFFFFFF3 := by decide +kernel
/-- ICMP.lt, signed and .n32 (R211, its example). -/
theorem test_icmp : decodesTo [0x1A910814] (.icmp (bf 0x11 4 5)) = true ∧ predAfter (.icmp (bf 0x11 4 5)) (stN [(4, 0xFFFFFFFF), (5, 1)]) 1 0 = some true ∧
    predAfter (.icmpExt (eF 0x11 4 5 0 11 0 0)) (stN [(4, 0xFFFFFFFF), (5, 1)]) 1 0 = some false := by decide +kernel
/-- LEA v4, [k2 + v6*4 + 0x40] (R214, its example). -/
theorem test_lea : let i := Instr.lea { eF 4 2 6 0x40 0 0 2 with selA := { Sel.plain with cls := .k }, selC := { Sel.plain with cls := .lit } }
    decodesTo [0x5B840418, 0x00407000, 0x004C0040] i = true ∧
    (let s := (stN [(6, 0xFFFFFFFD)]).modTeam 0 (fun t => { t with kfile := [(2, 0x1000000)] })
     regAfter i s 4 0 = some 0x1000034 ∧ regAfter i s 5 0 = some 0) := by decide +kernel
/-- PLOP.andn q1, q2, q3 (R192, its word): q2 set and q3 clear. -/
theorem test_plop : decodesTo [0x05A1040C] (.plop (bf 0x21 2 3)) = true ∧
    predAfter (.plop (bf 0x21 2 3)) (stA.modSlice 0 0 (fun x => { x with preds := ⟨0x84, 0x8C, 0x80, 0x80⟩ })) 1 0 = some true ∧
    predAfter (.plop (bf 0x21 2 3)) (stA.modSlice 0 0 (fun x => { x with preds := ⟨0x84, 0x8C, 0x80, 0x80⟩ })) 1 1 = some false := by decide +kernel
/-- SMOV v2, %capc, #3 (R194, its example). -/
theorem test_smov_capc : decodesTo [0x4602440C, 0x00007000, 0x00003000] (.smovExt (imm (xf 2 0x22 3))) = true ∧
    regAfter (.smovExt (imm (xf 2 0x22 3))) stA 2 0 = some 0x1D := by decide +kernel
/-- The divergent branch of R173's example: lanes 0 and 2 branch; its target and join are those of the example, 0x100000 higher. -/
theorem test_bra_diverges : let s := stA.modSlice 0 0 (fun x => { x with pc := 0x100200, preds := ⟨0x82, 0x80, 0x82, 0x80⟩ })
    (next? (exec (.braExt { xf 0 0 8 with pidx := 1, imm := 16 }) s)).map (fun t => ((t.sl 0 0).pc, (t.sl 0 0).act, (t.sl 0 0).rejoin)) =
      some (0x100220, 0b0101, [{ jpc := 0x100240, rpc := 0x10020C, wmask := 0b1010, pmask := 0b1111 }]) := by decide +kernel
/-- ENTER #0x8123 pushes it (R191, its word). -/
theorem test_enter : decodesTo [0x0482048C] (.enter (bf 2 2 0x23)) = true ∧
    (next? (exec (.enter (bf 2 2 0x23)) stA)).map (fun t => (t.sl 0 0).region) = some [0x8123] := by decide +kernel
/-- FCMP.ltu and .lt of a quiet NaN (R243, its example). -/
theorem test_fcmp : decodesTo [0x2352020C] (.fcmp (bf 0x52 1 3)) = true ∧ predAfter (.fcmp (bf 0x52 1 3)) (stN [(1, 0x7FC00000), (3, 0)]) 2 0 = some true ∧
    flagsAfter (.fcmp (bf 0x52 1 3)) (stN [(1, 0x7FC00000), (3, 0)]) = some 0 ∧
    predAfter (.fcmp (bf 0x12 1 3)) (stN [(1, 0x7FC00000), (3, 0)]) 2 0 = some false ∧ flagsAfter (.fcmp (bf 0x12 1 3)) (stN [(1, 0x7FC00000), (3, 0)]) ≠ some 0 := by
  decide +kernel
/-- FRCP of 193/128 under contracts 3 and 41 (R247, its example). -/
theorem test_frcp : regAfter (.frcp (bf 1 2 0)) (ctx3 (stN [(2, 0x3FC10000)])) 1 0 = some 0x3F29C84C ∧
    regAfter (.frcp (bf 1 2 0)) (ctx41 (stN [(2, 0x3FC10000)])) 1 0 = some 0x3F29C84A := by decide +kernel
/-- FDOT under contracts 3 and 41 (R252, its example): the result, and flags only under contract 3. -/
theorem test_fdot : let s := stN [(2, 0x10003C00), (3, 0x3C013C00), (4, 0)]
    regAfter (.fdot (eF 1 2 3 4 0 0 0)) (ctx41 s) 1 0 = some 0x3F801004 ∧ regAfter (.fdot (eF 1 2 3 4 0 0 0)) (ctx3 s) 1 0 = some 0x3F801000 ∧
    flagsAfter (.fdot (eF 1 2 3 4 0 0 0)) (ctx41 s) = some 0 ∧ flagsAfter (.fdot (eF 1 2 3 4 0 0 0)) (ctx3 s) ≠ some 0 := by decide +kernel
/-- The dot product of R57's example has a product that is subnormal in the product format, and truncation. -/
theorem test_contract_sum : let v := fun (n : Nat) => fp16.decode n
    let ts := ([(0x3C00, 0x3C00), (0x1000, 0x3C01), (0x0400, 0x0080), (0x0E00, 0x0400)] : List (Nat × Nat)).map
      (fun p => ({ x := v p.1, xf := some fp16, y := some (v p.2), yf := some fp16 } : Term))
    let get := fun n => (Config.contract? n).map (fun c => fp32.encode (contractSum c (.zero false) ts [] false (.fmt fp32) .rne 0).1)
    get 3 = some 0x3F801000 ∧ get 41 = some 0x3F801004 := by decide +kernel
/-- RoundTo(FP16, 1 + 2^-12) under SR with both draws of R228's example, and under RNE. -/
theorem test_round_sr : fp16.encode (roundTo fp16 (.fin false 4097 (-12)) .sr 0xC0000000).1 = 0x3C01 ∧
    fp16.encode (roundTo fp16 (.fin false 4097 (-12)) .sr 0xBFFFFFFF).1 = 0x3C00 ∧ fp16.encode (roundTo fp16 (.fin false 4097 (-12)) .rne 0).1 = 0x3C00 := by decide +kernel
/-- The bins of R235's example. -/
theorem test_histogram : histOffset (.fin false 1 0) = 4 * 31 ∧ histOffset (.fin false 3 0) = 4 * 32 ∧ histOffset (.fin false 1 (-24)) = 4 * 25 ∧
    histOffset (.fin false 1 (-130)) = 0x104 ∧ histOffset (.fin false 1 200) = 4 * 63 := by decide +kernel
/-- The weights of R224's example, in eighths, before the scale. -/
theorem test_vq_weight : (List.range 8).map (vqWeight 0x76543210 0x8305) = ([(true, 1), (true, 3), (false, 5), (false, 7), (false, 9), (false, 11), (false, 13),
    (false, 15)] : List (Bool × Nat)).map (fun p => .fin p.1 p.2 (-3)) ∧ vqWeight 0x76543210 0x8105 7 = .fin true 15 (-3) := by decide +kernel
/-- CVT.f16.f32 of a tie, upwards and to even (R257, its example). -/
theorem test_cvt : decodesTo [0x6E020200, 0x00007710, 0x01C00000] (.cvt { eF 2 1 0 0 17 0 14 with rm := 3 }) = true ∧
    regAfter (.cvt { eF 2 1 0 0 17 0 14 with rm := 3 }) (stN [(1, 0x3F801000)]) 2 0 = some 0x3C01 ∧
    regAfter (.cvt { eF 2 1 0 0 17 0 14 with rm := 0 }) (stN [(1, 0x3F801000)]) 2 0 = some 0x3C00 := by decide +kernel
/-- XSHF.down by 1 (R265): each position receives the next one's value; position 4 is of no slice and gives 0. -/
theorem test_xshf : decodesTo [0x71830204, 0x00007002, 0x00003000] (.xshfExt { imm (xf 3 1 1) with scope := 2 }) = true ∧
    (List.range 4).map (regAfter (.xshfExt { imm (xf 3 1 1) with scope := 2 }) stA 3) = [some 2, some 3, some 4, some 0] := by decide +kernel
/-- ATOM.add.f32 of 1.5 × 2^-24 to 1.0 (R296, its example): rounded once more under contract 3. -/
theorem test_atom_add : decodesTo [0x76830814, 0x000070E0, 0] (.atomExt (eF 3 4 5 0 14 0 0)) = true ∧
    (Config.contract? 3).map (fun c => (atomOp c 0 14 0x3F800000 0x33C00000 0 (Contract.mode c 6) 0).1) = some (some 0x3F800000) ∧
    (Config.contract? 41).map (fun c => (atomOp c 0 14 0x3F800000 0x33C00000 0 (Contract.mode c 6) 0).1) = some (some 0x3F800001) := by decide +kernel
/-- The words of the example under R349. -/
theorem test_matrix_words : decodesTo [0x5F005000, 0x00007000, 0x000000C0] (.fork { xf 0 40 0 with selA := { Sel.plain with cls := .lit } }) = true ∧
    decodesTo [0x7F840400, 0x01007000, 0] (.tcfg (xf 4 2 0)) = true ∧ decodesTo [0x7F800010, 0x06007C00, 0] (.mmav { xf 0 0 4 with rm := 6 }) = true ∧
    decodesTo [0x7F800010, 0x08007C00, 0] (.olapply { xf 0 0 4 with rm := 6 }) = true ∧ decodesTo [0x5F820000, 0x00007003, 0] (.rdv (eF 2 0 0 0 0 3 0)) = true ∧
    decodesTo [0x0A800000] (.seqend (bf 0 0 0)) = true := by decide +kernel
/-- An L1 leaf of R118's example: contract 41, frame 0x40_1240_0000, writable; the offset is 0x16_7890. -/
theorem test_walk : let s : State := { stA with mem := [] }
    let s := (s.homeWrite 0 (toBytes 8 (2 ^ 63 + 0x40000))).homeWrite 0x40008 (toBytes 8 (0x80000 + 1))
    let s := (s.homeWrite (0x80000 + 8 * 36) (toBytes 8 (0xC0000 + 1))).homeWrite (0xC0000 + 8 * 418) (toBytes 8 0x0290004012400049)
    (match s.walk 0 0x0000041234567890 with
      | .ok t => t.stamp == 41 && t.frame == 0x4012400000 && t.log == 21 && t.w && !t.x && !t.owner
      | .error _ => false) = true := by decide +kernel
/-- NOP, EXIT of the last lane and the frame of the slice (R189, R188). -/
theorem test_exit : (next? (exec (.exit { d := 0, a := 0, b := 0, la := false, lb := false }) stA)).map (fun t => (t.slice 0 0).all (fun x => x.live == 0)) = some true := by
  decide +kernel
/-- BAR b0 of the one slice of a team completes its phase at once (R376). -/
theorem test_bar : (next? (exec (.bar (bf 0 0 0)) stA)).map (fun t => ((t.team 0).bind (fun u => mget u.bars 0)).map (fun b => (b.phase, b.count))) = some (some (1, 0)) := by
  decide +kernel
/-- AWEXP of 8,192 bytes ahead of their delivery: GEN 0 in the result, the word armed with EXPECT (R299, its example). -/
theorem test_awexp : decodesTo [0xBB090800, 0x2000, 0] (.awexpExt { (xf 9 4 0).litForm with lit := 0x2000 }) = true ∧
    regAfter (.awexpExt { (xf 9 4 0).litForm with lit := 0x2000 }) (stA.modSlice 0 0 (fun x => { x with act := 1 })) 9 0 = some 0 := by decide +kernel
/-- The PC's word was fetched before the task stored MOV v1, #1 there: the old NOP is what the core still fetches, and dropping it shows the
new word; what the host writes there a running task does not see (R153). -/
theorem test_old_code_word :
    let pc := (stA.sl 0 0).pc
    let s := (stA.codeFill core0 1 pc).ownWrite 1 (.phys pc 0) (toBytes 4 0x0C010004)
    s.codeWord core0 1 pc 0 = 0 ∧ (s.modCore core0 (fun k => { k with icache := [] })).codeWord core0 1 pc 0 = 0x0C010004 ∧
    (stA.homeWrite pc (toBytes 4 0x0C010004)).codeWord core0 1 pc 0 = 0 := by decide +kernel
/-- An uncorrectable error in a byte of a scratchpad: a load of its word meets ECC of class 2, core SRAM (R434, R456). -/
theorem test_scratch_poison : (next? (exec (.uncorrectableError 0 (.scratch 0 64)) stA)).map (fun t =>
    match t.elTr (.slice 0 0) accRead { lane := 0, va := 0, place := some (.scr 0 60), len := 8 } with | .bad k c _ => (k, c) | _ => (0, 0)) = some (0x0F, 2) := by
  decide +kernel
/-- A sum of sixteen ones under contract 3 (groups of 4, PROM 4), stopped after one group and after four: the partial sum 4
with its count, and the total after its promotion (R50, R344). Contracts with ORDER = 1 do not stop (R348). -/
theorem test_interrupted_sum : let one := fp16.decode 0x3C00
    let ts := List.replicate 16 ({ x := one, xf := some fp16, y := some one, yf := some fp16 } : Term)
    let get := fun g => (Config.contract? 3).map (fun c => let p := (contractPart c { groups := 0, total := .zero false } ts false g).1
      (fp32.encode p.total, p.entry))
    get 1 = some (0, 0x140800000) ∧ get 4 = some (0x41800000, 0) ∧ (Config.contract? 3).map Contract.interruptible = some true ∧
    (Config.contract? 41).map Contract.interruptible = some false ∧ (Config.contract? 43).map Contract.interruptible = some false := by decide +kernel
/-- A halted team's context with an MMA in the array is at rest under contract 3, and not under contract 40 (R348). -/
theorem test_interrupted_mma : let s (c : Nat) : State := ((stC true).modCtx kM (fun x => { x with contract := c, flight := some (.op .mma 0 1 2 0) })).modTeam 0 (fun t =>
      { t with halt := some 0, slices := [(0, { sliceA with parked := true })] })
    (s 3).saveReady 0 = true ∧ (s 40).saveReady 0 = false ∧ ((s 3).interrupted kM).isSome = true := by decide +kernel

end Sys2Proof.Tests
end

/-!
The control instructions whose effect is one line of the spec: PLOP (R192) and NOP (R189).
-/
namespace Sys2Proof.Machine

/-! ## Laws of issue, of the truth table of PLOP, and of the PC past an instruction -/

/-- Step 5 of R151: fields that the operation's entry does not permit raise ILLEGAL, in an engine that has the operation. -/
theorem issue_of_illegalFields (r : Raw) (s : State) (body : State → State) (hc : s.curOk = true)
    (he : r.op.legalOn s.engine = true) (hf : legalFields s.engine r = false) : issue r s body = .next (s.trapAll r.x kIllegal 0 0) := by
  simp [issue, hc, he, hf]

theorem plop_legalOn (e : Engine) : Op.plop.legalOn e = true := by cases e <;> rfl

/-- Both selectors of PLOP name predicates, q0 to q7. -/
theorem plop_illegalFields (e : Engine) (r : Raw) (ho : r.op = .plop) (h : 8 ≤ r.x.a.toNat ∨ 8 ≤ r.x.b.toNat) : legalFields e r = false := by
  have hok : (shapeOf r.op r.len r.x).ok = false := by
    rcases h with h | h <;> simp [ho, shapeOf, Nat.not_le.2 h]
  simp [legalFields, hok]

theorem plop_traps (r : Raw) (ho : r.op = .plop) (s : State) (body : State → State) (hc : s.curOk = true)
    (h : 8 ≤ r.x.a.toNat ∨ 8 ≤ r.x.b.toNat) : issue r s body = .next (s.trapAll r.x kIllegal 0 0) :=
  issue_of_illegalFields r s body hc (ho ▸ plop_legalOn _) (plop_illegalFields _ r ho h)

theorem bitAt_eq_testBit (n i : Nat) : bitAt n i = n.testBit i := by
  rw [Nat.testBit_eq_decide_div_mod_eq, bitAt, Nat.shiftRight_eq_div_pow]
  rfl

theorem plopValue_eq_testBit (fn : Nat) (p q : Bool) :
    plopValue fn p q = fn.testBit ((if p then 2 else 0) + if q then 1 else 0) := by
  rw [plopValue, bitAt_eq_testBit]
  cases p <;> cases q <;> rfl

theorem bodyPlop_eq_perLane (r : Raw) : bodyPlop r = perLane r .pred (fun s a l =>
    { q := (r.x.d.toNat / 8).testBit ((if s.pred a l r.x.a.toNat then 2 else 0) + if s.pred a l r.x.b.toNat then 1 else 0) }) :=
  perLane_congr fun s a l => by rw [plopValue_eq_testBit]

@[simp] theorem State.advance_mops (s : State) (a : Issuer) (len : Nat) : (s.advance a len).mops = s.mops := by cases a <;> rfl
@[simp] theorem State.advance_subs (s : State) (a : Issuer) (len : Nat) : (s.advance a len).subs = s.subs := by cases a <;> rfl

/-- Advancing an agent steps it, and nothing else changes. -/
theorem advance_touches (W : Issuer → Nat → Nat → Prop) (len : Nat) (a : Issuer) (t : State) :
    Touches W (fun a t => t.advance a len) (fun _ _ x y => y = x.stepped len) (fun _ x y => y = x.stepped len) a t :=
  touches_become W _ a t (·.stepped len) (·.stepped len) (by cases a <;> rfl) _ _ (fun _ _ _ _ _ => rfl) (fun _ _ => rfl)

/-- The whole effect of NOP on the agents that issue it (R189). -/
theorem nop_effect (i : Instr) (r : Raw) (s : State) (h : exec i s = issue r s (bodyNop r)) (hi : Issues r s = true) (hn : s.agents.Nodup) :
    ∃ t, exec i s = .next t ∧ t.mops = s.mops ∧ t.subs = s.subs ∧
      Leaves (fun _ _ _ => False) s t (fun _ _ x y => y = x.stepped r.len.bytes) (fun _ x y => y = x.stepped r.len.bytes) := by
  refine ⟨bodyNop r s, h.trans (issue_of_issues r s _ hi), ?_, ?_, ?_⟩
  · exact foldS_same State.mops _ s.agents (fun a _ t => State.advance_mops t a _) s
  · exact foldS_same State.subs _ s.agents (fun a _ t => State.advance_subs t a _) s
  · exact leaves_of_touches _ _ _ _ s hn (fun a _ _ t _ _ => advance_touches _ _ a t)

/-- NOP's encoding is OP 0 in the short form with every field 0 (R133, R149). -/
theorem decodeWords_zero (ws : List Word) : decodeWords (0 :: ws) = .ok (.nop { d := 0, a := 0, b := 0, la := false, lb := false }) := by
  have hop : opOf (opField 0) 0 = some .nop := by decide
  have hlen : lenOf 0 = .l00 := by decide
  simp only [decodeWords, hlen, hop]
  rfl

/-! ## The statements -/

/-- Settles O9: the body of PLOP is a result per lane, and a selector above q7 fails the checks of its fields. -/
theorem plopPredicates : Obligations.PlopPredicates := by
  refine ⟨?results, fun _ => rfl, fun _ _ _ => rfl, ?baseTraps, ?extTraps⟩
  case results =>
    exact givesBoth_of_perLane _ _ _ _ _ (fun _ => oneDest_pred _) (fun _ => oneDest_pred _)
      (fun _ _ => issue_congr (bodyPlop_eq_perLane _)) (fun _ _ => issue_congr (bodyPlop_eq_perLane _))
  case baseTraps => exact fun s b hc h => plop_traps (.base .plop b) rfl s _ hc h
  case extTraps => exact fun s x hc h => plop_traps (.ext .plop x) rfl s _ hc h

/-- Settles O17: NOP folds the advance over its agents, and each of them is left stepped. -/
theorem nopMovesOnlyPc : Obligations.NopMovesOnlyPc :=
  ⟨⟨fun b s hi hn => nop_effect _ (.base .nop b) s rfl hi hn, fun x s hi hn => nop_effect _ (.ext .nop x) s rfl hi hn⟩, decodeWords_zero⟩

end Sys2Proof.Machine

/-!
AND, OR, XOR and ANDN (R206): one shape, one body and one rule for the result of all four, and what their short immediates read as.
-/
namespace Sys2Proof.Machine

/-! ## The shape and the effect of the bitwise operations -/

/-- The operations of R206 in the order of their codes. -/
def bitwiseOps : List Op := [.and, .or, .xor, .andn]

/-- Their common entry: A, B and D of the type in force, .b32 (the base type) or .b64. -/
theorem shapeOf_bitwise {op : Op} (h : op ∈ bitwiseOps) (l : Len) (x : Ext) :
    shapeOf op l x = arith allForms x [3, 4] 0 (rm0 x) (vDst (tyOf 3 x)) (anyOp (intW (tyOf 3 x))) (anyOp (intW (tyOf 3 x))) := by
  simp only [bitwiseOps, List.mem_cons, List.not_mem_nil, or_false] at h
  rcases h with rfl | rfl | rfl | rfl <;> rfl

theorem oneDest_of_bitwise (r : Raw) (h : r.op ∈ bitwiseOps) : OneDest r .reg :=
  oneDest_of_shape r .reg ⟨_, congrArg Shape.d (shapeOf_bitwise h r.len r.x)⟩

/-- The result of an instruction whose body is bodyLogic: `logic` of A and B over the width of the type in force. -/
theorem givesBoth_logic {base : Base → Instr} {ext : Ext → Instr} {op : Op} (h : op ∈ bitwiseOps)
    (hb : ∀ b s, exec (base b) s = issue (.base op b) s (bodyLogic (.base op b)))
    (hx : ∀ x s, exec (ext x) s = issue (.ext op x) s (bodyLogic (.ext op x))) :
    GivesBoth base ext op (fun _ => .reg)
      (fun r s a l => { val := logic op (tyBits (rty r 3)) (s.srcA a r 0 l) (s.srcB a r 0 l) }) :=
  givesBoth_of_perLane base ext op _ _ (fun _ => oneDest_of_bitwise _ h) (fun _ => oneDest_of_bitwise _ h) hb hx

/-! ## Short immediates -/

/-- An integer operand that is not packed reads a short immediate sign-extended to its width (R141). -/
theorem operand_shortImm (s : State) (a : Issuer) (l : Nat) (x : Ext) (w : SrcW) (fw fld : Nat) (sel : Sel)
    (hf : x.form = .x01) (hc : sel.cls = .lit) (hw : ∀ n, w ≠ .packed n) :
    s.operand a l x w 0 fw fld sel = wrapTo (srcWidth w) (sintOf fw fld) := by
  simp only [State.operand, hc, hf, if_true]
  cases w with
  | packed n => exact absurd rfl (hw n)
  | _ => rfl

/-- The type in force of a bitwise operation whose TYPE is permitted. -/
theorem tyOf_bitwise (x : Ext) (ht : x.ty = 0 ∨ x.ty = 3 ∨ x.ty = 4) : tyOf 3 x = if x.ty = 4 then 4 else 3 := by
  rcases ht with h | h | h <;> simp [tyOf, h]

theorem tyBits_bitwise (x : Ext) (ht : x.ty = 0 ∨ x.ty = 3 ∨ x.ty = 4) : tyBits (tyOf 3 x) = if x.ty = 4 then 64 else 32 := by
  rw [tyOf_bitwise x ht]
  split <;> rfl

/-- The types .b32 and .b64 are read whole, over their own width. -/
theorem intW_bitwise (x : Ext) (ht : x.ty = 0 ∨ x.ty = 3 ∨ x.ty = 4) :
    srcWidth (intW (tyOf 3 x)) = tyBits (tyOf 3 x) ∧ ∀ n, intW (tyOf 3 x) ≠ .packed n := by
  rw [tyOf_bitwise x ht]
  split <;> exact ⟨rfl, fun _ => nofun⟩

/-- Either source of a bitwise operation, when it is a short immediate. -/
theorem source_bitwise_shortImm (s : State) (a : Issuer) (l : Nat) (x : Ext) (fld : Nat) (sel : Sel) (hf : x.form = .x01)
    (ht : x.ty = 0 ∨ x.ty = 3 ∨ x.ty = 4) (hc : sel.cls = .lit) :
    s.source a l x (anyOp (intW (tyOf 3 x))) 0 7 fld sel = wrapTo (tyBits (tyOf 3 x)) (sintOf 7 fld) := by
  obtain ⟨hwidth, hwhole⟩ := intW_bitwise x ht
  rw [← hwidth]
  exact operand_shortImm s a l x _ 7 fld sel hf hc hwhole

theorem srcA_bitwise_shortImm {op : Op} (h : op ∈ bitwiseOps) (s : State) (a : Issuer) (l : Nat) (x : Ext) (hf : x.form = .x01)
    (ht : x.ty = 0 ∨ x.ty = 3 ∨ x.ty = 4) (hc : x.selA.cls = .lit) :
    s.srcA a (.ext op x) 0 l = wrapTo (tyBits (tyOf 3 x)) (sintOf 7 x.a.toNat) := by
  have hshape : (shapeOf op (Raw.ext op x).len x).a = anyOp (intW (tyOf 3 x)) := congrArg Shape.a (shapeOf_bitwise h _ x)
  exact (congrArg (s.source a l x · 0 7 x.a.toNat x.selA) hshape).trans (source_bitwise_shortImm s a l x _ _ hf ht hc)

theorem srcB_bitwise_shortImm {op : Op} (h : op ∈ bitwiseOps) (s : State) (a : Issuer) (l : Nat) (x : Ext) (hf : x.form = .x01)
    (ht : x.ty = 0 ∨ x.ty = 3 ∨ x.ty = 4) (hc : x.selB.cls = .lit) :
    s.srcB a (.ext op x) 0 l = wrapTo (tyBits (tyOf 3 x)) (sintOf 7 x.b.toNat) := by
  have hshape : (shapeOf op (Raw.ext op x).len x).b = anyOp (intW (tyOf 3 x)) := congrArg Shape.b (shapeOf_bitwise h _ x)
  exact (congrArg (s.source a l x · 0 7 x.b.toNat x.selB) hshape).trans (source_bitwise_shortImm s a l x _ _ hf ht hc)

/-- The operation codes 0x26 to 0x29, in the order of the list. -/
theorem enc_bitwise : ∀ op ∈ bitwiseOps, op.enc.1 = 0x26 + bitwiseOps.idxOf op := by decide

/-! ## The statement -/

/-- Settles O5: each operation is its case of `logic` in each lane, and a short immediate is read over the width of the type in force. -/
theorem bitwiseLogicResults : Obligations.BitwiseLogicResults := by
  refine ⟨?and, ?or, ?xor, ?andn, ?immediates⟩
  case and => exact givesBoth_logic (by decide) (fun _ _ => rfl) (fun _ _ => rfl)
  case or => exact givesBoth_logic (by decide) (fun _ _ => rfl) (fun _ _ => rfl)
  case xor => exact givesBoth_logic (by decide) (fun _ _ => rfl) (fun _ _ => rfl)
  case andn => exact givesBoth_logic (by decide) (fun _ _ => rfl) (fun _ _ => rfl)
  case immediates =>
    intro op x hop hform hty s a l
    exact ⟨tyBits_bitwise x hty, srcA_bitwise_shortImm hop s a l x hform hty, srcB_bitwise_shortImm hop s a l x hform hty, enc_bitwise op hop⟩

end Sys2Proof.Machine

/-!
Decoding and encoding (O55): every row of the tables of the decoder names the operation and the fields it was given, and the fields of
a word put together again are the word.
-/
namespace Sys2Proof

/-! ## The rows of the decoder and the raw form -/

/-- The instruction that the decoder's tables give for a raw form. -/
def Raw.instr (r : Raw) : Option Instr :=
  match r.len with
  | .l00 => r.op.baseInstr { d := r.x.d, a := r.x.a, b := r.x.b, la := r.x.la, lb := r.x.lb }
  | _ => r.op.extInstr r.x

@[simp] theorem Raw.instr_base (op : Op) (b : Base) : (Raw.base op b).instr = op.baseInstr b := rfl
@[simp] theorem Raw.instr_ext (op : Op) (x : Ext) : (Raw.ext op x).instr = op.extInstr x := by
  obtain ⟨f⟩ := x
  cases f <;> rfl

/-- The row of an instruction's raw form is the instruction itself. -/
theorem instr_of_raw (i : Instr) (r : Raw) (h : i.raw = some r) (hrow : rowOk i = true) : r.instr = some i := by
  cases i
  case nwait b | nwaitT b => cases h; simpa [Op.baseInstr, rowOk] using hrow
  case fclassExt x | fclassRdfl x | tzero x | tzeroA x => cases h; simpa [Op.extInstr, rowOk] using hrow
  all_goals cases h <;> simp only [Raw.instr_base, Raw.instr_ext] <;> rfl

/-- A row of the base table names its operation and its fields. -/
theorem raw_of_baseInstr (op : Op) (b : Base) (i : Instr) (h : op.baseInstr b = some i) : i.raw = some (.base op b) := by
  cases op
  case rett =>
    simp only [Op.baseInstr] at h
    split at h
    · next hb => cases h; rw [hb]; rfl
    · split at h
      · next hb => cases h; rw [hb]; rfl
      · cases h
  case nwait =>
    simp only [Op.baseInstr] at h
    split at h <;> cases h <;> rfl
  all_goals cases h <;> rfl

/-- A row of the extended table names its operation and its fields. -/
theorem raw_of_extInstr (op : Op) (x : Ext) (i : Instr) (h : op.extInstr x = some i) : i.raw = some (.ext op x) := by
  cases op
  case fclass | tzero =>
    simp only [Op.extInstr] at h
    split at h <;> cases h <;> rfl
  all_goals cases h <;> rfl

/-- The raw form of a well-formed instruction is that of its row, and the row gives the instruction. -/
theorem row_of_raw (i : Instr) (r : Raw) (h : i.raw = some r) (hrow : rowOk i = true) :
    (∃ op b, r = .base op b ∧ op.baseInstr b = some i) ∨ ∃ op x, r = .ext op x ∧ op.extInstr x = some i := by
  have hi := instr_of_raw i r h hrow
  simp only [Raw.instr] at hi
  split at hi
  · exact .inl ⟨_, _, Option.some.inj (h.symm.trans (raw_of_baseInstr _ _ _ hi)), hi⟩
  · exact .inr ⟨_, _, Option.some.inj (h.symm.trans (raw_of_extInstr _ _ _ hi)), hi⟩

/-- An entry that has the base or the literal form has no secondary opcode, which neither form encodes (R132, R136). -/
theorem noXop_of_form (op : Op) (l : Len) (x : Ext) (hl : l = .l00 ∨ l = .l10) (h : (shapeOf op l x).forms.contains l = true) :
    op.enc.2.1 = 0 := by
  cases op
  case hinit | hjoin | hcontrib | hwait | hquery | tcfg | tld | tst | tzero | mma | mmav | cbld | olapply | aprom | aout | asav | arst |
      ahist | stest =>
    rcases hl with rfl | rfl <;> cases h
  all_goals rfl

/-! ## Words and bytes -/

/-- Adjacent fields of a word are one field. -/
theorem extract_glue {w : Nat} (x : BitVec w) (p m n q : Nat) (h : q = p + n) :
    x.extractLsb' q m ++ x.extractLsb' p n = x.extractLsb' p (m + n) :=
  BitVec.extractLsb'_append_extractLsb'_eq_extractLsb' h

theorem boolBit_getLsbD {w : Nat} (x : BitVec w) (i : Nat) : boolBit (x.getLsbD i) = x.extractLsb' i 1 := by
  apply BitVec.eq_of_getLsbD_eq
  intro j hj
  obtain rfl : j = 0 := by omega
  simpa using bit_boolBit (x.getLsbD i)

theorem word_of_wordBytes (w : Word) : (w.extractLsb' 24 8 ++ w.extractLsb' 16 8 ++ w.extractLsb' 8 8 ++ w.extractLsb' 0 8 : Word) = w := by
  rw [extract_glue w 16 8 8 24 rfl, extract_glue w 8 16 8 16 rfl, extract_glue w 0 24 8 8 rfl, extract_all]

/-- Reading the bytes of words gives the words back. -/
theorem wordsOf_flatMap_wordBytes (ws : List Word) : wordsOf (ws.flatMap wordBytes) = ws := by
  induction ws with
  | nil => rfl
  | cons w ws ih =>
    show _ :: wordsOf (ws.flatMap wordBytes) = _
    rw [ih]
    exact congrArg (· :: ws) (word_of_wordBytes w)

/-- An operand class's bits read back. -/
theorem code_clsOf (c : BitVec 2) : (clsOf c).code = c := by decide +revert

theorem code_lenOf (w : Word) : (lenOf w).code = w.extractLsb' 30 2 := by
  simp only [lenOf]
  generalize w.extractLsb' 30 2 = c
  decide +revert

/-- The fields of a base word, put together again under its own operation, are the word. -/
theorem baseWord_of_fields (w : Word) (op : Op) (h : op.enc.1 = opField w) :
    baseWord (lenOf w) op (baseOf w).d (baseOf w).a (baseOf w).b (baseOf w).la (baseOf w).lb = w := by
  have ho : BitVec.ofNat 7 op.enc.1 = w.extractLsb' 23 7 := by rw [h, opField, BitVec.ofNat_toNat, BitVec.setWidth_eq]
  simp only [baseWord, baseOf, code_lenOf, ho, boolBit_getLsbD]
  rw [extract_glue w 23 2 7 30 rfl, extract_glue w 16 9 7 23 rfl, extract_glue w 9 16 7 16 rfl, extract_glue w 2 23 7 9 rfl,
    extract_glue w 1 30 1 2 rfl, extract_glue w 0 31 1 1 rfl, extract_all]

/-- The fields of word 2, put together again under its own operation, are the word. -/
theorem word2_of_fields (f : Form) (b : Base) (w2 w3 : Word) (lit : DWord) (op : Op) (h : op.enc.2.1 = xopField w2) :
    word2 op (extOf f b w2 w3 lit) = w2 := by
  have ho : BitVec.ofNat 8 op.enc.2.1 = w2.extractLsb' 24 8 := by rw [h, xopField, BitVec.ofNat_toNat, BitVec.setWidth_eq]
  simp only [word2, extOf, ho, boolBit_getLsbD]
  rw [extract_glue w2 16 8 8 24 rfl, extract_glue w2 15 16 1 16 rfl, extract_glue w2 12 17 3 15 rfl, extract_glue w2 9 20 3 12 rfl,
    extract_glue w2 4 23 5 9 rfl, extract_glue w2 0 28 4 4 rfl, extract_all]

/-- A selector's fields, put together again, are its six bits. -/
theorem code_of_selFields (w : Word) (p : Nat) :
    Sel.code { cls := clsOf (w.extractLsb' (p + 4) 2), half := w.getLsbD (p + 3), sw := w.extractLsb' p 3 } = w.extractLsb' p 6 := by
  simp only [Sel.code, code_clsOf, boolBit_getLsbD]
  rw [extract_glue w (p + 3) 2 1 (p + 4) rfl, extract_glue w p 3 3 (p + 3) rfl]

/-- The fields of word 3, put together again, are the word. -/
theorem word3_of_fields (f : Form) (b : Base) (w2 w3 : Word) (lit : DWord) : word3 (extOf f b w2 w3 lit) = w3 := by
  simp only [word3, extOf, boolBit_getLsbD]
  rw [code_of_selFields w3 14, code_of_selFields w3 8, code_of_selFields w3 2, extract_glue w3 20 11 1 21 rfl, extract_glue w3 14 12 6 20 rfl,
    extract_glue w3 8 18 6 14 rfl, extract_glue w3 2 24 6 8 rfl, extract_glue w3 0 30 2 2 rfl, extract_all]

theorem litOf_low (lo hi : Word) : (litOf lo hi).extractLsb' 0 32 = lo := (extract_low hi lo 0 32 (by decide)).trans (extract_all lo)
theorem litOf_high (lo hi : Word) : (litOf lo hi).extractLsb' 32 32 = hi := (extract_high hi lo 32 32 (by decide)).trans (extract_all hi)

/-! ## Decoded words are encoded ones -/

/-- An operation found by its opcodes has them. -/
theorem enc_of_opOf (a b : Nat) (op : Op) (h : opOf a b = some op) : op.enc.1 = a ∧ op.enc.2.1 = b := by
  have := List.find?_some h
  simpa using this

/-- What decoding answers: a form of the operation that the opcodes name. -/
theorem orForm_ok (op : Op) (o : Option Instr) (i : Instr) (h : orForm op o = .ok i) : o = some i := by
  cases o with
  | none => cases h
  | some j => cases h; rfl

theorem encode_of_raw (i : Instr) (r : Raw) (h : i.raw = some r) : encode i = r.words := by simp only [encode, h]

/-- The instruction that words decode to has a raw form, whose words they begin with. -/
theorem words_of_decode (ws : List Word) (i : Instr) (h : decodeWords ws = .ok i) : ∃ r, i.raw = some r ∧ ∃ rest, ws = r.words ++ rest := by
  obtain _ | ⟨w, tl⟩ := ws
  · cases h
  simp only [decodeWords] at h
  split at h
  case h_1 hl =>
    split at h
    · next op ho =>
      refine ⟨_, raw_of_baseInstr op _ i (orForm_ok _ _ _ h), ?_⟩
      have hb := baseWord_of_fields w op (enc_of_opOf _ _ _ ho).1
      rw [hl] at hb
      exact ⟨_, congrArg (· :: _) hb.symm⟩
    · cases h
  case h_2 w2 w3 tl hl =>
    split at h
    · next op ho =>
      refine ⟨_, raw_of_extInstr op _ i (orForm_ok _ _ _ h), tl, ?_⟩
      obtain ⟨h1, h2⟩ := enc_of_opOf _ _ _ ho
      have hb := baseWord_of_fields w op h1
      rw [hl] at hb
      simp only [Raw.words, Raw.ext, word2_of_fields _ _ _ _ _ op h2, word3_of_fields]
      exact congrArg (· :: w2 :: w3 :: tl) hb.symm
    · cases h
  case h_3 lo hi tl hl =>
    split at h
    · next op ho =>
      refine ⟨_, raw_of_extInstr op _ i (orForm_ok _ _ _ h), tl, ?_⟩
      have hb := baseWord_of_fields w op (enc_of_opOf _ _ _ ho).1
      rw [hl] at hb
      simp only [Raw.words, Raw.ext, extOf, litOf_low, litOf_high]
      exact congrArg (· :: lo :: hi :: tl) hb.symm
    · cases h
  case h_4 w2 w3 lo hi tl hl =>
    split at h
    · next op ho =>
      refine ⟨_, raw_of_extInstr op _ i (orForm_ok _ _ _ h), tl, ?_⟩
      obtain ⟨h1, h2⟩ := enc_of_opOf _ _ _ ho
      have hb := baseWord_of_fields w op h1
      rw [hl] at hb
      simp only [Raw.words, Raw.ext, word2_of_fields _ _ _ _ _ op h2, word3_of_fields]
      simp only [extOf, litOf_low, litOf_high]
      exact congrArg (· :: w2 :: w3 :: lo :: hi :: tl) hb.symm
    · cases h
  case h_5 => cases h

/-! ## Encoded words decode to the instruction -/

/-- The words of a legal row decode to its instruction. -/
theorem decode_words (i : Instr) (r : Raw) (h : i.raw = some r) (hrow : rowOk i = true) (hc : r.len = .l00 ∨ r.x.canonical = true)
    (hf : (shapeOf r.op r.len r.x).forms.contains r.len = true) : decodeWords r.words = .ok i := by
  rcases row_of_raw i r h hrow with ⟨op, b, rfl, hi⟩ | ⟨op, x, rfl, hi⟩
  · rw [decode_base op b (noXop_of_form op _ _ (.inl rfl) hf), hi]
    rfl
  · have hx : x.canonical = true := hc.resolve_left (fun e => by
      obtain ⟨f⟩ := x
      cases f <;> cases e)
    rw [decode_ext op x hx (fun e => noXop_of_form op _ x (.inr (congrArg Form.len e)) hf), hi]
    rfl

/-- The form of a legal instruction is one that its entry has (step 5 of R151). -/
theorem form_of_legalFields (e : Engine) (r : Raw) (h : legalFields e r = true) : (shapeOf r.op r.len r.x).forms.contains r.len = true := by
  cases hf : (shapeOf r.op r.len r.x).forms.contains r.len with
  | true => rfl
  | false => simp only [legalFields, hf, Bool.false_and, Bool.false_eq_true] at h

/-- What makes an instruction well formed, as far as its words go. -/
theorem wellFormed_raw (i : Instr) (r : Raw) (hr : i.raw = some r) (h : WellFormed i = true) :
    rowOk i = true ∧ (r.len = .l00 ∨ r.x.canonical = true) ∧ (shapeOf r.op r.len r.x).forms.contains r.len = true := by
  simp only [WellFormed, hr, Bool.and_eq_true, List.any_eq_true] at h
  obtain ⟨⟨hc, hrow⟩, e, -, -, hl⟩ := h
  refine ⟨hrow, ?_, form_of_legalFields e r hl⟩
  split at hc
  · next h0 => exact .inl h0
  · exact .inr hc

/-! ## The statement -/

/-- Settles O55: the words of a well-formed instruction are a row of the decoder with that instruction's fields, and the fields that the
decoder reads from a word, put together again, are the word. -/
theorem decodeInvertsEncode : Obligations.DecodeInvertsEncode := by
  refine ⟨fun i hw hr => ?decodes, fun ws i h => ?encoded⟩
  case decodes =>
    obtain ⟨r, hr⟩ := Option.isSome_iff_exists.1 hr
    obtain ⟨hrow, hc, hf⟩ := wellFormed_raw i r hr hw
    rw [decodeBytes, encodeBytes, wordsOf_flatMap_wordBytes, encode_of_raw i r hr]
    exact decode_words i r hr hrow hc hf
  case encoded =>
    obtain ⟨r, hr, tl, rfl⟩ := words_of_decode ws i h
    rw [hr, encode_of_raw i r hr, List.take_left]
    exact ⟨rfl, rfl⟩

end Sys2Proof

/-!
Instructions with a result in each acting lane: MOV to PERM (R202 to R214), the float, conversion and cross-lane instructions (R239 to
R271), and the reads of classes and special registers. Each body is `perLane` of the value that its statement names.
-/
namespace Sys2Proof.Machine

/-! ## One register or one pair as destination -/

/-- The operations whose D is one register or one pair in every form. -/
def laneResultOps : List Op :=
  [.mov, .isel, .lea, .iadd, .isub, .iaddc, .isubb, .iadd64, .imul, .imulh, .imad, .imad64, .imin, .imax, .iabs, .shl, .shr, .sar, .shf, .rot,
   .bfx, .bfi, .popc, .clz, .brev, .perm, .fadd, .fsub, .fmul, .ffma, .dadd, .dmul, .dfma, .hadd2, .hmul2, .hfma2, .hmin2, .hmax2, .fmin,
   .fmax, .fscale, .fdiv, .fsqrt, .frcp, .frsq, .fexp2, .flog2, .fsin, .fcos, .fdot, .cvt, .cvtpk, .qblk, .dqblk, .vqdec, .xshf, .xbcast,
   .xred, .xscan, .xdot, .xmatch, .fclass, .smov]

theorem shapeOf_laneResult {op : Op} (h : op ∈ laneResultOps) (l : Len) (x : Ext) : ∃ w, (shapeOf op l x).d = .v w 1 false := by
  suffices hall : ∀ op ∈ laneResultOps, ∃ w, (shapeOf op l x).d = .v w 1 false from hall op h
  repeat refine List.forall_mem_cons.mpr ⟨⟨_, rfl⟩, ?_⟩
  exact fun _ h => nomatch h

theorem oneDest_of_laneResult (r : Raw) (dst : ODst) (h : r.op ∈ laneResultOps) : OneDest r dst :=
  oneDest_of_shape r dst (shapeOf_laneResult h r.len r.x)

/-- Both forms of an operation of the list whose meaning is its result per lane. -/
theorem givesBoth_of_laneResult {base : Base → Instr} {ext : Ext → Instr} {op : Op} {dst : Raw → ODst} {f : Raw → State → Issuer → Nat → Out}
    (h : op ∈ laneResultOps)
    (hb : ∀ b s, exec (base b) s = issue (.base op b) s (perLane (.base op b) (dst (.base op b)) (f (.base op b))))
    (hx : ∀ x s, exec (ext x) s = issue (.ext op x) s (perLane (.ext op x) (dst (.ext op x)) (f (.ext op x)))) :
    GivesBoth base ext op dst f :=
  givesBoth_of_perLane base ext op dst f (fun _ => oneDest_of_laneResult _ _ h) (fun _ => oneDest_of_laneResult _ _ h) hb hx

/-- The same of an operation that has the extended form alone. -/
theorem givesExt_of_laneResult {ext : Ext → Instr} {op : Op} {dst : Raw → ODst} {f : Raw → State → Issuer → Nat → Out}
    (h : op ∈ laneResultOps)
    (hx : ∀ x s, exec (ext x) s = issue (.ext op x) s (perLane (.ext op x) (dst (.ext op x)) (f (.ext op x)))) :
    GivesExt ext op dst f :=
  givesExt_of_perLane ext op dst f (fun _ => oneDest_of_laneResult _ _ h) hx

/-- Both forms of a comparison, whose result is a predicate. -/
theorem givesBoth_pred {base : Base → Instr} {ext : Ext → Instr} {op : Op} {f : Raw → State → Issuer → Nat → Out}
    (hb : ∀ b s, exec (base b) s = issue (.base op b) s (perLane (.base op b) .pred (f (.base op b))))
    (hx : ∀ x s, exec (ext x) s = issue (.ext op x) s (perLane (.ext op x) .pred (f (.ext op x)))) :
    GivesBoth base ext op (fun _ => .pred) f :=
  givesBoth_of_perLane base ext op _ f (fun _ => oneDest_pred _) (fun _ => oneDest_pred _) hb hx

/-! ## The integer instructions -/

/-- Settles O1: the bodies of MOV, ISEL and LEA are these results. -/
theorem moveSelectAddressResults : Obligations.MoveSelectAddressResults := by
  refine ⟨?mov, ?isel, ?lea⟩
  case mov | isel => exact givesBoth_of_laneResult (by decide) (fun _ _ => rfl) (fun _ _ => rfl)
  case lea => exact givesExt_of_laneResult (by decide) (fun _ _ => rfl)

/-- Settles O2: IADD, ISUB and IADD64 are `addSub` over the type in force. -/
theorem addSubtractResults : Obligations.AddSubtractResults := by
  refine ⟨?iadd, ?isub, ?iadd64⟩
  case iadd | isub | iadd64 => exact givesBoth_of_laneResult (by decide) (fun _ _ => rfl) (fun _ _ => rfl)

/-- Settles O3: the word goes to D, and the carry or borrow to the predicate IMM11[5:3]. -/
theorem carryBorrowResults : Obligations.CarryBorrowResults := by
  refine ⟨?iaddc, ?isubb⟩
  case iaddc | isubb => exact givesBoth_of_laneResult (by decide) (fun _ _ => rfl) (fun _ _ => rfl)

/-- Settles O4: the products, extremes and absolute values over the type in force. -/
theorem multiplyMinMaxAbsResults : Obligations.MultiplyMinMaxAbsResults := by
  refine ⟨?imul, ?imulh, ?imad, ?imad64, ?imin, ?imax, ?iabs⟩
  case imul | imulh | imin | imax | iabs => exact givesBoth_of_laneResult (by decide) (fun _ _ => rfl) (fun _ _ => rfl)
  case imad | imad64 => exact givesExt_of_laneResult (by decide) (fun _ _ => rfl)

/-- Settles O6: the shifts by `shift`, SHF by `funnel` and ROT by `rotate`. -/
theorem shiftRotateResults : Obligations.ShiftRotateResults := by
  refine ⟨?shl, ?shr, ?sar, ?shf, ?rot⟩
  case shl | shr | sar | rot => exact givesBoth_of_laneResult (by decide) (fun _ _ => rfl) (fun _ _ => rfl)
  case shf => exact givesExt_of_laneResult (by decide) (fun _ _ => rfl)

/-- Settles O7: each bit-field operation is its function of the sources. -/
theorem bitFieldResults : Obligations.BitFieldResults := by
  refine ⟨?bfx, ?bfi, ?popc, ?clz, ?brev, ?perm⟩
  case bfx | popc | clz | brev => exact givesBoth_of_laneResult (by decide) (fun _ _ => rfl) (fun _ _ => rfl)
  case bfi | perm => exact givesExt_of_laneResult (by decide) (fun _ _ => rfl)

/-- Settles O8: a comparison's result is its predicate, and its flags for floats. -/
theorem comparisonPredicates : Obligations.ComparisonPredicates := by
  refine ⟨?icmp, ?fcmp, ?dcmp⟩
  case icmp | fcmp | dcmp => exact givesBoth_pred (fun _ _ => rfl) (fun _ _ => rfl)

/-! ## The float instructions -/

/-- Settles O10: each arithmetic instruction is `floatArith` of its operation. -/
theorem floatArithmeticResults : Obligations.FloatArithmeticResults := by
  refine ⟨?fadd, ?fsub, ?fmul, ?ffma, ?dadd, ?dmul, ?dfma⟩
  case fadd | fsub | fmul | dadd | dmul => exact givesBoth_of_laneResult (by decide) (fun _ _ => rfl) (fun _ _ => rfl)
  case ffma | dfma => exact givesExt_of_laneResult (by decide) (fun _ _ => rfl)

/-- Settles O11: the packed instructions give two elements apart, FMIN and FMAX one value. -/
theorem packedFloatMinMaxResults : Obligations.PackedFloatMinMaxResults := by
  refine ⟨?hadd2, ?hmul2, ?hfma2, ?hmin2, ?hmax2, ?fmin, ?fmax⟩
  case hadd2 | hmul2 | hmin2 | hmax2 | fmin | fmax => exact givesBoth_of_laneResult (by decide) (fun _ _ => rfl) (fun _ _ => rfl)
  case hfma2 => exact givesExt_of_laneResult (by decide) (fun _ _ => rfl)

/-- Settles O12: FSCALE, FDIV and FSQRT round once, the function tables under RNE. -/
theorem floatFunctionResults : Obligations.FloatFunctionResults := by
  refine ⟨?fscale, ?fdiv, ?fsqrt, ?frcp, ?frsq, ?fexp2, ?flog2, ?fsin, ?fcos⟩
  case fscale | fdiv | fsqrt | frcp | frsq | fexp2 | flog2 | fsin | fcos => exact givesBoth_of_laneResult (by decide) (fun _ _ => rfl) (fun _ _ => rfl)

/-! ## Conversion and cross-lane instructions -/

theorem bodyVqdec_eq_perLane (r : Raw) : bodyVqdec r = perLane r .reg (fun s a l =>
    let t := rty r 17
    let sel := r.x.imm.toNat
    let i := s.srcA a r 0 l
    let one (j : Nat) (c : Contract) (m : RMode) (n : Nat) : Nat × Flags :=
      vqdecOne c (fmtTy t) (s.codebookRow a (i % 256)) i j (fp16.decode (s.srcB a r 17 l)) m n
    if t = 14 then floatLane r 1 (fun c m d => one (sel % 8) c m (d 0)) s a l
    else floatLane r 2 (fun c m d => pack2 (one (2 * (sel % 4)) c m (d 0)) (one (2 * (sel % 4) + 1) c m (d 1))) s a l) :=
  perLane_congr fun s a l => by
    by_cases ht : rty r 17 = 14
    · simp only [ht, if_true]
      rfl
    · simp only [ht, if_false]

/-- Settles O13: each conversion is its function, put into its field of the destination. -/
theorem conversionResults : Obligations.ConversionResults := by
  refine ⟨?fdot, ?cvt, ?cvtpk, ?dqblk, ?vqdec⟩
  case cvtpk => exact givesBoth_of_laneResult (by decide) (fun _ _ => rfl) (fun _ _ => rfl)
  case vqdec =>
    exact givesBoth_of_laneResult (by decide) (fun _ _ => issue_congr (bodyVqdec_eq_perLane _)) (fun _ _ => issue_congr (bodyVqdec_eq_perLane _))
  case fdot | cvt | dqblk => exact givesExt_of_laneResult (by decide) (fun _ _ => rfl)

/-- Settles O14: QBLK of a lane reads the lanes of its block that take part. -/
theorem qblkBlockResults : Obligations.QblkBlockResults := givesExt_of_laneResult (by decide) (fun _ _ => rfl)

/-- XVOTE's value is a predicate in its modes 0 to 2 and a mask in D in mode 3; no lane voting yes is every lane voting no. -/
theorem bodyXvote_eq_perLane (r : Raw) : bodyXvote r = perLane r (if r.x.scope.toNat % 4 = 3 then .reg else .pred) (fun s a _ =>
    let ps := s.segment r a 32 0
    let v (p : Nat) : Bool := s.pred (atPos a p) (p % 4) (r.x.a.toNat % 8) != bitAt r.x.scope.toNat 2
    match r.x.scope.toNat % 4 with
    | 0 => { q := ps.all v }
    | 1 => { q := ps.any v }
    | 2 => { q := ps.all v || ps.all (fun p => !v p) }
    | _ => { val := ((ps.filter v).map (2 ^ ·)).sum }) :=
  perLane_congr fun s a _ => by
    simp only [List.not_any_eq_all_not] <;> rfl

theorem oneDest_xvote (r : Raw) (h : r.op = .xvote) : OneDest r (if r.x.scope.toNat % 4 = 3 then .reg else .pred) := by
  split
  · next hm => exact oneDest_of_shape r .reg ⟨false, by simp only [h, shapeOf, hm, if_true]⟩
  · exact oneDest_pred r

/-- Settles O15: each cross-lane instruction is its function of the participating lanes. -/
theorem crossLaneResults : Obligations.CrossLaneResults := by
  refine ⟨?xshf, ?xbcast, ?xvote, ?xmatch, ?xred, ?xscan, ?xdot⟩
  case xvote =>
    exact givesBoth_of_perLane _ _ _ _ _ (fun _ => oneDest_xvote _ rfl) (fun _ => oneDest_xvote _ rfl)
      (fun _ _ => issue_congr (bodyXvote_eq_perLane _)) (fun _ _ => issue_congr (bodyXvote_eq_perLane _))
  case xshf | xbcast | xmatch | xred | xscan => exact givesBoth_of_laneResult (by decide) (fun _ _ => rfl) (fun _ _ => rfl)
  case xdot => exact givesExt_of_laneResult (by decide) (fun _ _ => rfl)

/-! ## Classes and special registers -/

theorem bodyFclass_of_not_rdfl (r : Raw) (h : flag0 r = false) : bodyFclass r = perLane r .reg (fun s a l =>
    let t := rty r 14
    { val := floatClass (fmtTy t) ((fmtTy t).decode (s.srcA a r t l)) }) := by
  funext s
  simp only [bodyFclass, h, Bool.false_eq_true, if_false]

/-- Settles O16: without .rdfl FCLASS is a class per lane, and SMOV a special register per lane. -/
theorem classAndSpecialReads : Obligations.ClassAndSpecialReads := by
  refine ⟨fun b => ?base, fun x hx => ?ext, ?smov⟩
  case base =>
    exact gives_of_perLane _ _ _ _ (oneDest_of_laneResult (.base .fclass b) _ (show Op.fclass ∈ _ by decide)) (fun _ => issue_congr (bodyFclass_of_not_rdfl _ rfl))
  case ext =>
    exact gives_of_perLane _ _ _ _ (oneDest_of_laneResult (.ext .fclass x) _ (show Op.fclass ∈ _ by decide)) (fun _ => issue_congr (bodyFclass_of_not_rdfl _ hx))
  case smov => exact givesBoth_of_laneResult (by decide) (fun _ _ => rfl) (fun _ _ => rfl)

end Sys2Proof.Machine

/-!
Control flow: YIELD (R190), the branches (R182 to R187) and the region stack (R191).
-/
namespace Sys2Proof.Machine

/-! ## YIELD -/

/-- A YIELD in which a lane acts sets yieldEnd besides the advance. -/
theorem bodyYield_touches (W : Issuer → Nat → Nat → Prop) (r : Raw) (s : State) (a : Issuer) (t : State) :
    Touches W (fun a t => let t := t.advance a r.len.bytes
        if s.acts a r.x = 0 then t
        else
          let e := s.cyc (s.coreOf a).die + 65
          match a with
          | .slice u i => t.modSlice u i (fun x => { x with yieldEnd := e })
          | .ctx k => t.modCtx k (fun x => { x with yieldEnd := e }))
      (fun u i x y => y = { x.stepped r.len.bytes with
        yieldEnd := if s.acts (.slice u i) r.x = 0 then x.yieldEnd else s.cyc (s.coreOf (.slice u i)).die + 65 })
      (fun k x y => y = { x.stepped r.len.bytes with
        yieldEnd := if s.acts (.ctx k) r.x = 0 then x.yieldEnd else s.cyc (s.coreOf (.ctx k)).die + 65 }) a t := by
  refine touches_become W _ a t
    (fun x => { x.stepped r.len.bytes with yieldEnd := if s.acts a r.x = 0 then x.yieldEnd else s.cyc (s.coreOf a).die + 65 })
    (fun x => { x.stepped r.len.bytes with yieldEnd := if s.acts a r.x = 0 then x.yieldEnd else s.cyc (s.coreOf a).die + 65 })
    ?_ _ _ (fun _ _ _ e _ => by rw [e]) (fun _ e => by rw [e])
  by_cases h : s.acts a r.x = 0
  · cases a <;> simp only [h, if_true] <;> rfl
  · cases a <;> simp only [h, if_false, State.advance, modSlice_modSlice, modCtx_modCtx] <;> rfl

/-- An agent before its yieldEnd is ready for no instruction (R190). -/
theorem sliceReady_of_yielding (s : State) (u i : Nat) (tm : Team) (x : Slice) (r : Raw) (ht : s.team u = some tm) (hx : s.slice u i = some x)
    (h : s.cyc tm.core.die < x.yieldEnd) : s.sliceReady u i r = false := by
  have ho : s.sliceOpen u i = false := by simp [State.sliceOpen, ht, hx, Nat.not_le.2 h]
  simp [State.sliceReady, ho]

theorem ctxReady_of_yielding (s : State) (k : Nat) (r : Raw) (h : s.cyc (ctxCore k).die < (s.ctx k).yieldEnd) : s.ctxReady k r = false := by
  simp only [State.ctxReady]
  split
  · rfl
  · simp [Nat.not_le.2 h]

/-- Settles O18: YIELD advances each agent and sets its yieldEnd when a lane acts. -/
theorem yieldWaits64Cycles : Obligations.YieldWaits64Cycles := by
  refine ⟨⟨fun b => ?base, fun x => ?ext⟩, fun s u i tm x r => sliceReady_of_yielding s u i tm x r, ctxReady_of_yielding⟩
  case base => exact does_of_fold _ _ _ _ _ _ (fun _ => rfl) (fun s _ _ a _ _ t _ _ => bodyYield_touches _ _ s a t)
  case ext => exact does_of_fold _ _ _ _ _ _ (fun _ => rfl) (fun s _ _ a _ _ t _ _ => bodyYield_touches _ _ s a t)

/-! ## Branches -/

theorem litTarget_iff (r : Raw) : litTarget r = true ↔ r.len = .l10 ∨ r.len = .l11 := by simp [litTarget]

theorem mem_maskList_and {m n : Mask} {l : Nat} (h : l ∈ maskList (m &&& n)) : l ∈ maskList m := by
  simp only [maskList, List.mem_filter, BitVec.getLsbD_and, Bool.and_eq_true] at h ⊢
  exact ⟨h.1, h.2.1⟩

theorem agreeing_eq (s : State) (r : Raw) (a : Issuer) : s.agreeing r a = (withLeader r s a, leadersTarget r s a) := rfl

/-- Both forms of an operation whose body folds `branchOne` over its agents, under H. -/
theorem branchesBoth_of_fold {base : Base → Instr} {ext : Ext → Instr} {op : Op} {dst : ODst} {q : Raw → Option Nat} {H : Raw → State → Prop}
    {T : Raw → State → Issuer → Mask} {tgt join val : Raw → State → Issuer → Nat} (body : Raw → State → State)
    (F : Raw → State → Issuer → State → State) (hbody : ∀ r s, body r s = foldS (F r s) s.agents s)
    (hb : ∀ b s, exec (base b) s = issue (.base op b) s (body (.base op b))) (hx : ∀ x s, exec (ext x) s = issue (.ext op x) s (body (.ext op x)))
    (hd : ∀ r : Raw, r.op = op → OneDest r dst) (hT : ∀ r s a, ∀ l ∈ maskList (T r s a), l ∈ maskList (s.acts a r.x))
    (hF : ∀ r s, H r s → ∀ a ∈ s.agents, ∀ t,
      F r s a t = t.branchOne r a (q r) dst (fun _ => { val := val r s a }) (T r s a) (tgt r s a) (join r s a)) :
    BranchesBoth base ext op dst q H T tgt join val :=
  have fold (r : Raw) : body r = fun s => foldS (F r s) s.agents s := funext (hbody r)
  ⟨fun b => branches_of_fold _ (.base op b) dst (hd _ rfl) (q _) (H _) (T _) (tgt _) (join _) (val _) (F _)
      (fun s => fold (.base op b) ▸ hb b s) (fun s _ a _ => hT _ s a) (hF _),
    fun x => branches_of_fold _ (.ext op x) dst (hd _ rfl) (q _) (H _) (T _) (tgt _) (join _) (val _) (F _)
      (fun s => fold (.ext op x) ▸ hx x s) (fun s _ a _ => hT _ s a) (hF _)⟩

theorem oneDest_link (r : Raw) (h : r.op = .call ∨ r.op = .callx) : OneDest r .reg :=
  oneDest_of_shape r .reg ⟨true, by rcases h with h | h <;> rw [h] <;> rfl⟩

/-- Settles O19: BRA and CALL are `branchOne` of the acting lanes to the target of the literal or the offset. -/
theorem branchAndCallTargets : Obligations.BranchAndCallTargets := by
  refine ⟨?bra, ?call⟩
  case bra =>
    refine branchesBoth_of_fold bodyBra _ (fun _ _ => rfl) (fun _ _ => rfl) (fun _ _ => rfl) (fun r _ => oneDest_none r) (fun _ _ _ _ hl => hl)
      (fun r s _ a _ t => ?_)
    simp only [litTarget_iff, beq_iff_eq, Bool.or_eq_true, or_assoc]
    rfl
  case call =>
    refine branchesBoth_of_fold bodyCall _ (fun _ _ => rfl) (fun _ _ => rfl) (fun _ _ => rfl) (fun r h => oneDest_link r (.inl h))
      (fun _ _ _ _ hl => hl) (fun r s _ a _ t => ?_)
    simp only [litTarget_iff]
    rfl

/-- Settles O20: BRX, CALLX and RET are `branchOne` of the lanes that agree with the lowest acting lane. -/
theorem indirectBranchTargets : Obligations.IndirectBranchTargets := by
  refine ⟨?brx, ?callx, ?ret⟩
  case brx =>
    exact branchesBoth_of_fold bodyBrx _ (fun _ _ => rfl) (fun _ _ => rfl) (fun _ _ => rfl) (fun r _ => oneDest_none r)
      (fun _ _ _ _ hl => mem_maskList_and hl) (fun _ _ _ _ _ _ => rfl)
  case callx =>
    exact branchesBoth_of_fold bodyCallx _ (fun _ _ => rfl) (fun _ _ => rfl) (fun _ _ => rfl) (fun r h => oneDest_link r (.inr h))
      (fun _ _ _ _ hl => mem_maskList_and hl) (fun _ _ _ _ _ _ => rfl)
  case ret =>
    refine branchesBoth_of_fold bodyRet _ (fun _ _ => rfl) (fun _ _ => rfl) (fun _ _ => rfl) (fun r _ => oneDest_none r)
      (fun _ _ _ _ hl => mem_maskList_and hl) (fun r s hs a ha t => ?_)
    simp only [agreeing_eq]
    exact if_pos (hs a ha)

/-! ## The region stack -/

theorem mupd_of_forall_eq {α : Type} (m : Map α) (k : Nat) (f : α → α) (h : ∀ x, f x = x) : mupd m k f = m := by
  simp [mupd, h]

theorem modSlice_of_forall_eq (s : State) (u i : Nat) (f : Slice → Slice) (h : ∀ x, f x = x) : s.modSlice u i f = s := by
  have ht (t : Team) : t.modSlice i f = t := by simp only [Team.modSlice, mupd_of_forall_eq _ _ f h]
  simp only [State.modSlice, State.modTeam, mupd_of_forall_eq _ _ _ ht]

/-- All that a region edge can do (R464): traps join those pending, and none when BKPT is masked or in a handler. -/
theorem regionEdge_eq (s : State) (u i pc id : Nat) (leave : Bool) : ∃ ps : Mask → List PTrap,
    s.regionEdge u i pc id leave = s.modSlice u i (fun x => { x with pend := x.pend ++ ps x.act }) ∧
      ((s.sliceOr u i).depth ≠ 0 ∨ s.masks u kBkpt = true → ps = fun _ => []) := by
  have same : s = s.modSlice u i (fun x => { x with pend := x.pend ++ [] }) :=
    (modSlice_of_forall_eq s u i _ (fun x => by rw [List.append_nil])).symm
  cases ht : s.team u with
  | none => exact ⟨fun _ => [], by simpa only [State.regionEdge, ht, true_or, if_true] using same, fun _ => rfl⟩
  | some tm =>
    simp only [State.regionEdge, State.masks, ht]
    by_cases hm : tm.trapMask.getLsbD 18 = true ∨ (s.sliceOr u i).depth ≠ 0
    · exact ⟨fun _ => [], (if_pos hm).trans same, fun _ => rfl⟩
    · rw [if_neg hm]
      split
      · exact ⟨fun m => [{ kind := 18, cause := 2, aux := _, amask := m, fpc := some pc }], rfl, fun h => absurd h.symm hm⟩
      · split
        · exact ⟨fun m => [{ kind := 18, cause := 3, aux := _, amask := m, fpc := some pc }], rfl, fun h => absurd h.symm hm⟩
        · exact ⟨fun _ => [], same, fun _ => rfl⟩

theorem kept_masks {W : Issuer → Nat → Nat → Prop} {as : List Issuer} {s t : State} (h : LaneKept W as s t) (u k : Nat) :
    t.masks u k = s.masks u k := by
  have hm : (t.team u).map Team.trapMask = (s.team u).map Team.trapMask := by
    simpa only [Option.map_map, Function.comp_def] using congrArg (Option.map Team.trapMask) (h.teams u)
  have hs (w : State) : w.masks u k = ((w.team u).map (fun t => t.trapMask.getLsbD k)).getD false := by
    simp only [State.masks]
    cases w.team u <;> rfl
  have hk := congrArg (fun o => (o.map (fun m : Word => m.getLsbD k)).getD false) hm
  simp only [Option.map_map, Function.comp_def] at hk
  rw [hs, hs]
  exact hk

/-- ENTER or LEAVE on an agent: its region stack becomes g, and the edge may make BKPT pending. -/
theorem region_touches (W : Issuer → Nat → Nat → Prop) (s t : State) (a : Issuer) (ds : List Issuer) (hk : LaneKept W ds s t)
    (g : List (BitVec 16)) (len pc id : Nat) (leave : Bool) :
    Touches W (fun a t => ((t.setRegion a g).advance a len).edge a pc id leave)
      (fun u _ x y => ∃ ps, (x.depth ≠ 0 ∨ s.masks u kBkpt → ps = []) ∧ y = { x.stepped len with region := g, pend := x.pend ++ ps })
      (fun _ x y => y = { x.stepped len with region := g }) a t := by
  cases a with
  | ctx k =>
    exact touches_become W _ _ t (fun x => x) (fun x => { x.stepped len with region := g })
      (by simp only [State.setRegion, State.advance, State.edge, modCtx_modCtx]; rfl) _ _ (fun _ _ _ e => nomatch e) (fun _ _ => rfl)
  | slice u i =>
    have hadv : (t.setRegion (.slice u i) g).advance (.slice u i) len = t.modSlice u i (fun x => { x.stepped len with region := g }) :=
      modSlice_modSlice t u i _ _
    obtain ⟨ps, hps, hno⟩ := regionEdge_eq (t.modSlice u i (fun x => { x.stepped len with region := g })) u i pc id leave
    refine touches_become W _ _ t (fun x => { x.stepped len with region := g, pend := x.pend ++ ps x.act }) (fun x => x) ?_ _ _
      (fun v j x e hx => ?_) (fun _ e => nomatch e)
    · simp only [State.edge, hadv, hps, modSlice_modSlice]
      rfl
    · cases e
      refine ⟨ps x.act, fun h => ?_, rfl⟩
      have hd : ((t.modSlice u i (fun x => { x.stepped len with region := g })).sliceOr u i).depth = x.depth := by
        simp only [State.sliceOr, slice_modSlice, and_self, if_true, hx, Option.map_some, Option.getD_some, Slice.stepped]
      have hm : (t.modSlice u i (fun x => { x.stepped len with region := g })).masks u kBkpt = s.masks u kBkpt :=
        (kept_masks (modSlice_kept W t u i _) u kBkpt).trans (kept_masks hk u kBkpt)
      rw [hno (by rw [hd, hm]; exact h)]

theorem touches_congr {W : Issuer → Nat → Nat → Prop} {F G : Issuer → State → State} {P : Nat → Nat → Slice → Slice → Prop}
    {Q : Nat → Ctx → Ctx → Prop} {a : Issuer} {t : State} (h : F a t = G a t) (hG : Touches W G P Q a t) : Touches W F P Q a t := by
  cases a <;> simpa only [Touches, h] using hG

theorem touches_mono {W : Issuer → Nat → Nat → Prop} {F : Issuer → State → State} {P P' : Nat → Nat → Slice → Slice → Prop}
    {Q Q' : Nat → Ctx → Ctx → Prop} {a : Issuer} {t : State} (h : Touches W F P Q a t)
    (hP : ∀ u i x y, a = .slice u i → t.slice u i = some x → P u i x y → P' u i x y)
    (hQ : ∀ k y, a = .ctx k → Q k (t.ctx k) y → Q' k (t.ctx k) y) : Touches W F P' Q' a t := by
  obtain ⟨hk, h⟩ := h
  refine ⟨hk, ?_⟩
  cases a with
  | slice u i =>
    intro x hx
    obtain ⟨y, hy, hp⟩ := h x hx
    exact ⟨y, hy, hP u i x y rfl hx hp⟩
  | ctx k => exact hQ k _ rfl h

theorem kept_regionOf {W : Issuer → Nat → Nat → Prop} {ds : List Issuer} {s t : State} (hk : LaneKept W ds s t) (a : Issuer) (ha : a ∉ ds) :
    t.regionOf a = s.regionOf a := by
  cases a with
  | slice u i => simp only [State.regionOf, State.sl, hk.slices u i ha]
  | ctx k => simp only [State.regionOf, hk.ctxs k ha]

theorem regionOf_slice (t : State) (u i : Nat) (x : Slice) (hx : t.slice u i = some x) : t.regionOf (.slice u i) = x.region := by
  simp only [State.regionOf, State.sl, hx, Option.getD_some]

/-- An instruction that, under H, gives each agent the region stack `f` of its own. -/
theorem region_does (i : Instr) (r : Raw) (H : State → Prop) (F : State → Issuer → State → State) (f : List (BitVec 16) → List (BitVec 16))
    (id : State → Issuer → Nat) (leave : Bool) (h : ∀ s, exec i s = issue r s (fun s => foldS (F s) s.agents s))
    (hF : ∀ s, H s → ∀ a ∈ s.agents, ∀ t,
      F s a t = ((t.setRegion a (f (s.regionOf a))).advance a r.len.bytes).edge a (s.pcOf a) (id s a) leave) :
    Does i r H
      (fun s u _ x y => ∃ ps, (x.depth ≠ 0 ∨ s.masks u kBkpt → ps = []) ∧
        y = { x.stepped r.len.bytes with region := f x.region, pend := x.pend ++ ps })
      (fun _ _ x y => y = { x.stepped r.len.bytes with region := f x.region }) := by
  refine does_of_fold i r _ _ _ F h (fun s hs _ a ha ds t hd hk => ?_)
  refine touches_congr (hF s hs a ha t) (touches_mono (region_touches _ s t a ds hk _ _ _ _ leave) ?_ ?_)
  · rintro u j x y rfl hx ⟨ps, hps, rfl⟩
    exact ⟨ps, hps, by rw [← kept_regionOf hk _ hd, regionOf_slice t u j x hx]⟩
  · rintro k y rfl rfl
    rw [← kept_regionOf hk _ hd]
    rfl

theorem enter_does (i : Instr) (r : Raw) (h : ∀ s, exec i s = issue r s (bodyEnter r)) :
    Does i r (fun s => regionId r.x ≠ 0 ∧ ∀ a ∈ s.agents, (s.regionOf a).length < 16)
      (fun s u _ x y => ∃ ps, (x.depth ≠ 0 ∨ s.masks u kBkpt → ps = []) ∧
        y = { x.stepped r.len.bytes with region := BitVec.ofNat 16 (regionId r.x) :: x.region, pend := x.pend ++ ps })
      (fun _ _ x y => y = { x.stepped r.len.bytes with region := BitVec.ofNat 16 (regionId r.x) :: x.region }) := by
  refine region_does i r _ _ (BitVec.ofNat 16 (regionId r.x) :: ·) (fun _ _ => regionId r.x) false h (fun s ⟨hid, hlen⟩ a ha t => ?_)
  exact if_neg (fun h => h.elim hid (fun h => absurd (hlen a ha) (by omega)))

theorem leave_does (i : Instr) (r : Raw) (h : ∀ s, exec i s = issue r s (bodyLeave r)) :
    Does i r (fun s => ∀ a ∈ s.agents, ∃ g, (s.regionOf a).head? = some g ∧ (regionId r.x = 0 ∨ g.toNat = regionId r.x))
      (fun s u _ x y => ∃ ps, (x.depth ≠ 0 ∨ s.masks u kBkpt → ps = []) ∧
        y = { x.stepped r.len.bytes with region := x.region.tail, pend := x.pend ++ ps })
      (fun _ _ x y => y = { x.stepped r.len.bytes with region := x.region.tail }) := by
  refine region_does i r _ _ List.tail (fun s a => ((s.regionOf a).headD 0).toNat) true h (fun s hs a ha t => ?_)
  obtain ⟨g, hg, hid⟩ := hs a ha
  obtain ⟨gs, hgs⟩ := List.head?_eq_some_iff.1 hg
  simp only [hgs, List.tail_cons, List.headD_cons]
  exact if_neg (fun h => hid.elim h.1 h.2)

/-- Settles O21: ENTER conses its identifier to the region stack and LEAVE takes the tail. -/
theorem regionStackChanges : Obligations.RegionStackChanges :=
  ⟨⟨fun _ => enter_does _ _ (fun _ => rfl), fun _ => enter_does _ _ (fun _ => rfl)⟩,
    ⟨fun _ => leave_does _ _ (fun _ => rfl), fun _ => leave_does _ _ (fun _ => rfl)⟩⟩

end Sys2Proof.Machine

/-!
PROOFS. The words written out from the encodings, and what reset leaves: an empty machine, whose registers read their reset values.
-/
namespace Sys2Proof.Machine

/-- Settles O56: each word is decoded by evaluation. -/
theorem wordsDecodeAsWritten : Obligations.WordsDecodeAsWritten := by
  unfold Obligations.WordsDecodeAsWritten
  exact ⟨rfl, rfl, rfl, rfl, rfl, rfl, rfl⟩

/-- Settles O59: reset lists no byte. -/
theorem resetMemoryCanonical : Obligations.ResetMemoryCanonical := ⟨rfl, rfl⟩

/-- A graph engine register at reset (R106, R326, R397). -/
theorem ge_reset (off : Nat) : State.reset.ge off =
    if off = 0x20040 then 0x400 * 2 ^ 16 else if off = 0x20080 then 0x1000 * 2 ^ 16 else if off = 0x34200 then 0x10000 else 0 := by
  show (regReset (geBase + off)).toNat = _
  simp only [regReset, Nat.add_left_cancel_iff]
  split
  · rfl
  · split
    · rfl
    · split <;> rfl

/-- The translation registers read 0 at reset: no register with another reset value lies among them. -/
theorem tc_reset (off : Nat) : State.reset.tc off = 0 := by
  show (regReset (tcBase + off)).toNat = 0
  have hge (n : Nat) (hn : n < 0x100000) : tcBase + off ≠ geBase + n := by unfold tcBase geBase; omega
  rw [regReset, if_neg (hge _ (by decide)), if_neg (hge _ (by decide)), if_neg (hge _ (by decide))]
  rfl

/-- No pool node has its link up at reset. -/
theorem nodeUp_reset (l : Nat) (hl : l < 36) : State.reset.nodeUp l = false := by
  have h : State.reset.ge (0x34000 + 8 * l) = 0 := by
    rw [ge_reset, if_neg (by omega), if_neg (by omega), if_neg (by omega)]
  rw [State.nodeUp, h]
  rfl

/-- Settles O58: every map of the reset state is empty, so that each component is its default; the registers by `ge_reset`, `tc_reset`. -/
theorem resetLeavesNothing : Obligations.ResetLeavesNothing := by
  unfold Obligations.ResetLeavesNothing
  refine ⟨rfl, rfl, rfl, rfl, rfl, rfl, rfl, rfl, rfl, rfl, rfl, rfl, rfl, rfl, rfl, rfl, rfl, rfl, rfl, rfl, rfl, rfl, rfl, rfl, rfl, rfl,
    rfl, rfl, fun l hl => ⟨nodeUp_reset l hl, ?_⟩, fun _ => ⟨fun h => ?_, rfl, rfl, rfl, rfl, fun _ => rfl, fun _ => rfl, rfl⟩,
    fun _ => ⟨rfl, rfl, rfl, rfl, rfl, rfl⟩, fun _ => ⟨rfl, rfl⟩, fun _ => ⟨rfl, rfl, rfl, rfl, rfl, rfl, rfl⟩, ge_reset, fun off _ => tc_reset off⟩
  · rw [State.nodeAtt, nodeUp_reset l hl]
    rfl
  · cases h

end Sys2Proof.Machine

/-!
PROOFS. The integer helpers as numbers: an element of a packed value, the value of a wrapped integer, shifts by any amount, and the
involutions of rotation and bit reversal.
-/
namespace Sys2Proof.Machine

/-! ## Packed elements -/

theorem elemOf_zero (w v : Nat) : elemOf w v 0 = v % 2 ^ w := by simp [elemOf]

theorem elemOf_lt (w v i : Nat) : elemOf w v i < 2 ^ w := Nat.mod_lt _ (Nat.two_pow_pos w)

theorem elemOf_succ (w v i : Nat) : elemOf w v (i + 1) = elemOf w (v / 2 ^ w) i := by
  simp only [elemOf, Nat.shiftRight_eq_div_pow, Nat.div_div_eq_div_mul, ← Nat.pow_add]
  congr 3
  rw [Nat.mul_succ, Nat.add_comm]

/-- The elements of a packed value are those that were packed (R143). -/
theorem elemOf_packElems (w : Nat) : ∀ (l : List Nat) (i : Nat), elemOf w (packElems w l) i = l.getD i 0 % 2 ^ w
  | [], i => by simp [packElems, elemOf]
  | e :: es, 0 => by simp [packElems, elemOf_zero]
  | e :: es, i + 1 => by
    have h : (e % 2 ^ w + packElems w es * 2 ^ w) / 2 ^ w = packElems w es := by
      rw [Nat.add_mul_div_right _ _ (Nat.two_pow_pos w), Nat.div_eq_of_lt (Nat.mod_lt _ (Nat.two_pow_pos w)), Nat.zero_add]
    rw [packElems, elemOf_succ, h, elemOf_packElems w es i, List.getD_cons_succ]

/-- An operation on packed values acts on each element. -/
theorem elemOf_map2 {t i : Nat} (f : Nat → Nat → Nat) (a b : Nat) (hi : i < tyCount t) :
    elemOf (tyBits t) (map2 t f a b) i = f (elemOf (tyBits t) a i) (elemOf (tyBits t) b i) % 2 ^ tyBits t := by
  rw [map2, elemOf_packElems]
  simp [elemsOf, List.getD_eq_getElem?_getD, hi]

/-! ## Wrapping and clamping -/

theorem wrapTo_lt (w : Nat) (v : Int) : wrapTo w v < 2 ^ w := by
  have hw : (0 : Int) < ((2 ^ w : Nat) : Int) := by exact_mod_cast Nat.two_pow_pos w
  have h0 := Int.emod_nonneg v (Int.ne_of_gt hw)
  have h1 := Int.emod_lt_of_pos v hw
  rw [wrapTo]
  omega

theorem wrapTo_cast (w : Nat) (v : Int) : ((wrapTo w v : Nat) : Int) = v % ((2 ^ w : Nat) : Int) := by
  have hw : (0 : Int) < ((2 ^ w : Nat) : Int) := by exact_mod_cast Nat.two_pow_pos w
  exact Int.toNat_of_nonneg (Int.emod_nonneg v (Int.ne_of_gt hw))

/-- The value of an element is its bits up to a multiple of 2^w (R199). -/
theorem valTy_emod (t v : Nat) : valTy t v % ((2 ^ tyBits t : Nat) : Int) = (v : Int) % ((2 ^ tyBits t : Nat) : Int) := by
  have hmod : ((v % 2 ^ tyBits t : Nat) : Int) % ((2 ^ tyBits t : Nat) : Int) = (v : Int) % ((2 ^ tyBits t : Nat) : Int) := by
    rw [Int.natCast_emod, Int.emod_emod]
  rw [valTy, sintOf]
  split
  · split
    · exact hmod
    · rw [Int.sub_emod_right, hmod]
  · exact hmod

/-- A sum or difference is wrapped the same whatever the sign of its type (R203). -/
theorem fitTy_wrap (t : Nat) (sub : Bool) (x y : Nat) (hy : y < 2 ^ tyBits t) :
    fitTy t false (if sub then valTy t x - valTy t y else valTy t x + valTy t y) = (x + if sub then 2 ^ tyBits t - y else y) % 2 ^ tyBits t := by
  apply Int.ofNat_inj.mp
  rw [fitTy, if_neg (by simp), wrapTo_cast, Int.natCast_emod]
  cases sub with
  | false =>
    simp only [Bool.false_eq_true, if_false]
    rw [Int.add_emod, valTy_emod, valTy_emod, ← Int.add_emod, Int.natCast_add]
  | true =>
    have hc : ((x + (2 ^ tyBits t - y) : Nat) : Int) = (x : Int) - y + ((2 ^ tyBits t : Nat) : Int) := by omega
    simp only [if_true]
    rw [hc, Int.add_emod_right, Int.sub_emod, valTy_emod, valTy_emod, ← Int.sub_emod]

/-- The integer format of a type. -/
def ifmtOf (t : Nat) : IFmt := { signed := tySigned t, w := tyBits t }

/-- A value within a type's range is its own wrapped value read back (R199). -/
theorem valTy_wrapTo {t : Nat} {v : Int} (hw : 0 < tyBits t) (hlo : (ifmtOf t).lo ≤ v) (hhi : v ≤ (ifmtOf t).hi) :
    valTy t (wrapTo (tyBits t) v) = v := by
  have hlt := wrapTo_lt (tyBits t) v
  have hcast := wrapTo_cast (tyBits t) v
  obtain ⟨n, hn⟩ : ∃ n, tyBits t = n + 1 := ⟨tyBits t - 1, by omega⟩
  rw [valTy, sintOf, Nat.mod_eq_of_lt hlt]
  simp only [IFmt.lo, IFmt.hi, ifmtOf] at hlo hhi
  rw [hn] at hlo hhi hlt hcast ⊢
  simp only [Nat.add_sub_cancel, Nat.pow_succ] at hlo hhi hlt hcast ⊢
  have hH : 0 < 2 ^ n := Nat.two_pow_pos n
  generalize 2 ^ n = H at *
  generalize wrapTo _ v = x at *
  split at hlo <;> rename_i hs
  · simp only [hs, if_true] at hhi ⊢
    by_cases hv : 0 ≤ v
    · rw [Int.emod_eq_of_lt hv (by push_cast; omega)] at hcast
      rw [if_pos (by omega), hcast]
    · rw [← Int.add_emod_right, Int.emod_eq_of_lt (by push_cast; omega) (by push_cast; omega)] at hcast
      rw [if_neg (by push_cast at hcast; omega), hcast]
      omega
  · simp only [if_neg hs] at hhi ⊢
    rw [Int.emod_eq_of_lt hlo (by omega)] at hcast
    exact hcast

/-- Saturation clamps to the type's range (R199). -/
theorem sat_eq_clamp (f : IFmt) (v : Int) (h : f.lo ≤ f.hi) : f.sat v = max f.lo (min f.hi v) := by
  rw [IFmt.sat]
  split
  · omega
  · split <;> omega

/-! ## Shifts -/

/-- A shift left by any amount (R207): an amount above the width shifts everything out. -/
theorem shiftElem_shl (w x s : Nat) : shiftElem .shl w x s = x * 2 ^ s % 2 ^ w := by
  show (x <<< min s w) % 2 ^ w = _
  rw [Nat.shiftLeft_eq]
  rcases Nat.le_total s w with h | h
  · rw [Nat.min_eq_left h]
  · obtain ⟨d, rfl⟩ := Nat.exists_eq_add_of_le h
    rw [Nat.min_eq_right h, Nat.mul_mod_left, Nat.pow_add, ← Nat.mul_assoc, Nat.mul_right_comm, Nat.mul_mod_left]

/-- A shift right by any amount. -/
theorem shiftElem_shr {w x : Nat} (s : Nat) (hx : x < 2 ^ w) : shiftElem .shr w x s = x / 2 ^ s := by
  show x >>> min s w = _
  rw [Nat.shiftRight_eq_div_pow]
  rcases Nat.le_total s w with h | h
  · rw [Nat.min_eq_left h]
  · rw [Nat.min_eq_right h, Nat.div_eq_of_lt hx, Nat.div_eq_of_lt (Nat.lt_of_lt_of_le hx (Nat.pow_le_pow_right (by omega) h))]

theorem sintOf_bounds (w x : Nat) (hw : 0 < w) : -(2 ^ (w - 1)) ≤ sintOf w x ∧ sintOf w x ≤ 2 ^ (w - 1) - 1 := by
  obtain ⟨n, rfl⟩ : ∃ n, w = n + 1 := ⟨w - 1, by omega⟩
  have hlt : x % 2 ^ (n + 1) < 2 ^ (n + 1) := Nat.mod_lt _ (Nat.two_pow_pos _)
  have hHI : ((2 ^ n : Nat) : Int) = (2 : Int) ^ n := Int.natCast_pow 2 n
  rw [sintOf]
  simp only [Nat.add_sub_cancel, Nat.pow_succ] at hlt ⊢
  rw [← hHI]
  generalize 2 ^ n = H at *
  generalize x % (H * 2) = y at *
  split <;> constructor <;> omega

/-- A signed quotient by a power of two is the same once the dividend is within w bits and the amount reaches w. -/
theorem sint_div_min (w x s : Nat) (hw : 0 < w) : sintOf w x / ((2 ^ min s w : Nat) : Int) = sintOf w x / ((2 ^ s : Nat) : Int) := by
  rcases Nat.le_total s w with h | h
  · rw [Nat.min_eq_left h]
  · have hb := sintOf_bounds w x hw
    have hH : (2 : Int) ^ (w - 1) ≤ ((2 ^ w : Nat) : Int) := by exact_mod_cast Nat.pow_le_pow_right (by omega) (Nat.sub_le w 1)
    have hS : ((2 ^ w : Nat) : Int) ≤ ((2 ^ s : Nat) : Int) := by exact_mod_cast Nat.pow_le_pow_right (by omega) h
    have hpos : (0 : Int) < (2 : Int) ^ (w - 1) := Int.pow_pos (by omega)
    rw [Nat.min_eq_right h]
    by_cases h0 : 0 ≤ sintOf w x
    · rw [Int.ediv_eq_zero_of_lt h0 (by omega), Int.ediv_eq_zero_of_lt h0 (by omega)]
    · rw [Int.ediv_eq_neg_one_of_neg_of_le (by omega) (by omega), Int.ediv_eq_neg_one_of_neg_of_le (by omega) (by omega)]

/-- An arithmetic shift right of a signed element (R207), read back as a number. -/
theorem valTy_shiftElem_sar {t : Nat} (hs : tySigned t = true) (hw : 0 < tyBits t) (x s : Nat) :
    valTy t (shiftElem .sar (tyBits t) x s) = valTy t x / (2 ^ s : Nat) := by
  have hb := sintOf_bounds (tyBits t) x hw
  have hq : shiftElem .sar (tyBits t) x s = wrapTo (tyBits t) (sintOf (tyBits t) x / ((2 ^ s : Nat) : Int)) := by
    rw [← sint_div_min (tyBits t) x s hw]
    rfl
  have hx : valTy t x = sintOf (tyBits t) x := by rw [valTy, if_pos hs]
  have hp : (1 : Int) ≤ ((2 ^ s : Nat) : Int) := by exact_mod_cast Nat.one_le_two_pow
  rw [hq, hx]
  generalize ((2 ^ s : Nat) : Int) = S at *
  refine valTy_wrapTo hw ?_ ?_
  · rw [IFmt.lo, ifmtOf, if_pos hs]
    push_cast
    refine (Int.le_ediv_iff_mul_le (by omega)).mpr (Int.le_trans ?_ hb.1)
    have hpos : (0 : Int) < (2 : Int) ^ (tyBits t - 1) := Int.pow_pos (by omega)
    have hmul := Int.mul_le_mul_of_nonneg_left hp (Int.le_of_lt hpos)
    rw [Int.neg_mul]
    omega
  · rw [IFmt.hi, ifmtOf, if_pos hs]
    push_cast
    refine Int.le_of_lt_add_one ((Int.ediv_lt_iff_lt_mul (by omega)).mpr ?_)
    have hpos : (0 : Int) < (2 : Int) ^ (tyBits t - 1) := Int.pow_pos (by omega)
    have hmul := Int.mul_le_mul_of_nonneg_left hp (Int.le_of_lt hpos)
    rw [Int.sub_add_cancel]
    omega

/-- An element of a shift is the shift of that element, by the amount it is given (R207). -/
theorem elemOf_shift (op : Op) (t a b i : Nat) (hi : i < tyCount t) :
    elemOf (tyBits t) (shift op t a b) i =
      if tyCount t = 1 then shiftElem op (tyBits t) a b % 2 ^ tyBits t
      else shiftElem op (tyBits t) (elemOf (tyBits t) a i) (elemOf (tyBits t) b i) % 2 ^ tyBits t := by
  rw [shift]
  split
  · next h =>
    have h0 : i = 0 := by omega
    rw [h0, elemOf_zero]
  · exact elemOf_map2 _ a b hi

/-! ## Rotation and bit reversal -/

/-- The two parts of a value of s + r bits change places in a rotation left by s. -/
theorem rotate_left_split {s r a : Nat} (ha : a < 2 ^ (s + r)) :
    (a * 2 ^ (s + r) + a) / 2 ^ (s + r - s) % 2 ^ (s + r) = (a % 2 ^ r) * 2 ^ s + a / 2 ^ r := by
  have hR : 0 < 2 ^ r := Nat.two_pow_pos r
  have hl : a % 2 ^ r < 2 ^ r := Nat.mod_lt _ hR
  rw [Nat.pow_add] at ha ⊢
  have hh : a / 2 ^ r < 2 ^ s := (Nat.div_lt_iff_lt_mul hR).mpr ha
  have hdm := Nat.div_add_mod a (2 ^ r)
  rw [Nat.add_sub_cancel_left, ← Nat.mul_assoc, Nat.add_comm, Nat.add_mul_div_right _ _ hR]
  generalize 2 ^ r = R at *
  generalize 2 ^ s = S at *
  generalize a / R = h at *
  generalize a % R = l at *
  subst hdm
  rw [show h + (R * h + l) * S = l * S + h + h * (S * R) by grind, Nat.add_mul_mod_self_right, Nat.mod_eq_of_lt]
  have hmul := Nat.mul_le_mul_right S (show l + 1 ≤ R from hl)
  rw [Nat.add_mul, Nat.mul_comm R S] at hmul
  omega

/-- And back in a rotation right by s. -/
theorem rotate_right_split {s r a : Nat} (ha : a < 2 ^ (s + r)) :
    (((a % 2 ^ r) * 2 ^ s + a / 2 ^ r) * 2 ^ (s + r) + ((a % 2 ^ r) * 2 ^ s + a / 2 ^ r)) / 2 ^ s % 2 ^ (s + r) = a := by
  have hR : 0 < 2 ^ r := Nat.two_pow_pos r
  have hS : 0 < 2 ^ s := Nat.two_pow_pos s
  have hl : a % 2 ^ r < 2 ^ r := Nat.mod_lt _ hR
  rw [Nat.pow_add] at ha ⊢
  have hh : a / 2 ^ r < 2 ^ s := (Nat.div_lt_iff_lt_mul hR).mpr ha
  have hdm := Nat.div_add_mod a (2 ^ r)
  generalize 2 ^ r = R at *
  generalize 2 ^ s = S at *
  generalize a / R = h at *
  generalize a % R = l at *
  subst hdm
  rw [show (l * S + h) * (S * R) + (l * S + h) = h + (l + (l * S + h) * R) * S by grind, Nat.add_mul_div_right _ _ hS, Nat.div_eq_of_lt hh, Nat.zero_add,
    show l + (l * S + h) * R = R * h + l + l * (S * R) by grind, Nat.add_mul_mod_self_right, Nat.mod_eq_of_lt ha]

/-- A rotation right after one left by the same amount gives the value back (R208). -/
theorem rotate_right_left {w a : Nat} (b : Nat) (hw : 0 < w) (ha : a < 2 ^ w) : rotate true w (rotate false w a b) b = a := by
  have hs : b % w < w := Nat.mod_lt _ hw
  obtain ⟨r, hr⟩ : ∃ r, w = b % w + r := ⟨w - b % w, by omega⟩
  have hleft : rotate false w a b = (a % 2 ^ r) * 2 ^ (b % w) + a / 2 ^ r := by
    simp only [rotate, Bool.false_eq_true, if_false, Nat.shiftRight_eq_div_pow]
    generalize b % w = s at *
    subst hr
    exact rotate_left_split ha
  rw [hleft]
  simp only [rotate, if_true, Nat.shiftRight_eq_div_pow]
  generalize b % w = s at *
  subst hr
  exact rotate_right_split ha

/-! ### Bit reversal -/

theorem sum_map_two_mul {α : Type} (f : α → Nat) : ∀ l : List α, (l.map (fun x => 2 * f x)).sum = 2 * (l.map f).sum
  | [] => rfl
  | x :: l => by simp only [List.map_cons, List.sum_cons, sum_map_two_mul f l, Nat.mul_add]

theorem brev_succ (w a : Nat) : brev (w + 1) a = 2 * brev w a + if bitAt a w then 1 else 0 := by
  simp only [brev, List.range_succ, List.map_append, List.sum_append, List.map_cons, List.map_nil, List.sum_singleton, Nat.add_sub_cancel, Nat.sub_self, Nat.pow_zero]
  congr 1
  rw [← sum_map_two_mul]
  refine congrArg List.sum (List.map_congr_left fun j hj => ?_)
  have hjw : j < w := List.mem_range.mp hj
  rw [show w - j = w - 1 - j + 1 by omega, Nat.pow_succ]
  split <;> omega

/-- Bit j of a reversal is bit w - 1 - j (R210). -/
theorem testBit_brev : ∀ (w a j : Nat), Nat.testBit (brev w a) j = (decide (j < w) && Nat.testBit a (w - 1 - j))
  | 0, a, j => by simp [brev]
  | w + 1, a, 0 => by
    rw [brev_succ, bitAt_eq_testBit, Nat.testBit_zero]
    cases h : Nat.testBit a w <;> simp [h, Nat.add_mod]
  | w + 1, a, j + 1 => by
    have h : (2 * brev w a + if bitAt a w then 1 else 0) / 2 = brev w a := by split <;> omega
    rw [brev_succ, Nat.testBit_succ, h, testBit_brev w a j]
    simp [show w - (j + 1) = w - 1 - j by omega]

/-- Reversing twice gives the value back. -/
theorem brev_brev {w a : Nat} (ha : a < 2 ^ w) : brev w (brev w a) = a := by
  refine Nat.eq_of_testBit_eq fun j => ?_
  rw [testBit_brev, testBit_brev]
  by_cases hj : j < w
  · simp [hj, show w - 1 - j < w by omega, show w - 1 - (w - 1 - j) = j by omega]
  · simp [hj, Nat.testBit_lt_two_pow (Nat.lt_of_lt_of_le ha (Nat.pow_le_pow_right (by omega) (by omega : w ≤ j)))]

/-! ## The statement -/

theorem tyBits_pos (t : Nat) : 0 < tyBits t := by
  unfold tyBits
  split <;> decide

theorem IFmt.lo_le_hi (f : IFmt) : f.lo ≤ f.hi := by
  have h1 : 1 ≤ 2 ^ (f.w - 1) := Nat.one_le_two_pow
  have h2 : 1 ≤ 2 ^ f.w := Nat.one_le_two_pow
  rw [IFmt.lo, IFmt.hi]
  generalize 2 ^ (f.w - 1) = H at *
  generalize 2 ^ f.w = W at *
  split <;> omega

theorem valTy_mod (t v : Nat) : valTy t (v % 2 ^ tyBits t) = valTy t v := by simp only [valTy, sintOf, Nat.mod_mod]

/-- An element of a saturating sum or difference is the exact value clamped to its type (R199, R203). -/
theorem valTy_addSub_sat (t : Nat) (sub : Bool) (a b i : Nat) (hi : i < tyCount t) :
    let x := valTy t (elemOf (tyBits t) a i)
    let y := valTy t (elemOf (tyBits t) b i)
    valTy t (elemOf (tyBits t) (addSub t sub true a b) i) = max (ifmtOf t).lo (min (ifmtOf t).hi (if sub then x - y else x + y)) := by
  intro x y
  have hle := IFmt.lo_le_hi (ifmtOf t)
  rw [addSub, elemOf_map2 _ a b hi, fitTy, if_pos rfl, valTy_mod]
  show valTy t (wrapTo (tyBits t) ((ifmtOf t).sat (if sub then x - y else x + y))) = _
  rw [sat_eq_clamp _ _ hle]
  exact valTy_wrapTo (tyBits_pos t) (by omega) (by omega)

/-- Settles O53: each clause is the law of its element operation. -/
theorem integerResultsAsNumbers : Obligations.IntegerResultsAsNumbers := by
  unfold Obligations.IntegerResultsAsNumbers
  refine ⟨?wrap, ?sat, ?shl, ?sar, ?rot, ?brev⟩
  case wrap =>
    intro t sub a b i _ hi
    show elemOf (tyBits t) (addSub t sub false a b) i = _
    rw [addSub, elemOf_map2 _ a b hi, fitTy_wrap t sub _ _ (elemOf_lt _ b i), Nat.mod_mod]
  case sat =>
    intro t sub a b i ht hi
    have hs : tySigned t = decide (t ≤ 8) := by
      have h5 : 5 ≤ t := by simp only [List.mem_range'_1] at ht; omega
      simp [tySigned, h5]
    have h := valTy_addSub_sat t sub a b i hi
    simpa only [IFmt.lo, IFmt.hi, ifmtOf, hs, decide_eq_true_eq, Int.natCast_pow, Int.cast_ofNat_Int] using h
  case shl =>
    intro t a b i _ hi
    have hl := elemOf_shift .shl t a b i hi
    have hr := elemOf_shift .shr t a b i hi
    by_cases h1 : tyCount t = 1
    · have h0 : i = 0 := by omega
      simp only [h1, if_true, Nat.mul_one] at hl hr ⊢
      refine ⟨?_, fun ha => ?_⟩
      · rw [hl, shiftElem_shl, Nat.mod_mod, h0, elemOf_zero, Nat.mod_mul_mod]
      · rw [hr, shiftElem_shr b ha, h0, elemOf_zero, Nat.mod_eq_of_lt ha, Nat.mod_eq_of_lt (Nat.lt_of_le_of_lt (Nat.div_le_self _ _) ha)]
    · simp only [h1, if_false] at hl hr ⊢
      refine ⟨?_, fun _ => ?_⟩
      · rw [hl, shiftElem_shl, Nat.mod_mod]
      · rw [hr, shiftElem_shr _ (elemOf_lt _ a i), Nat.mod_eq_of_lt (Nat.lt_of_le_of_lt (Nat.div_le_self _ _) (elemOf_lt _ a i))]
  case sar =>
    intro t a b i ht hi
    have hs : tySigned t = true := by
      simp only [List.mem_cons, List.not_mem_nil, or_false] at ht
      simp only [tySigned, Bool.and_eq_true, decide_eq_true_eq]
      omega
    show valTy t (elemOf (tyBits t) (shift .sar t a b) i) = _
    rw [elemOf_shift .sar t a b i hi]
    by_cases h1 : tyCount t = 1
    · have h0 : i = 0 := by omega
      simp only [h1, if_true, h0, elemOf_zero, valTy_mod]
      exact valTy_shiftElem_sar hs (tyBits_pos t) a b
    · simp only [h1, if_false, valTy_mod]
      exact valTy_shiftElem_sar hs (tyBits_pos t) _ _
  case rot => exact fun w a b hw ha => rotate_right_left b (by omega) ha
  case brev => exact fun w a _ ha => brev_brev ha

end Sys2Proof.Machine

/-!
PROOFS. Reads and writes of memory: bytes at their home, a masked line, an L1, a scratchpad.
-/
namespace Sys2Proof.Machine

/-! ## Bytes written and read -/

theorem length_toBytes : ∀ (n x : Nat), (toBytes n x).length = n
  | 0, _ => rfl
  | n + 1, x => by rw [toBytes, List.length_cons, length_toBytes]

/-- Byte i of a number (R9). -/
theorem getD_toBytes : ∀ (n x i : Nat), i < n → (toBytes n x).getD i 0 = BitVec.ofNat 8 (x >>> (8 * i))
  | n + 1, x, 0, _ => by simp [toBytes]
  | n + 1, x, i + 1, h => by
    rw [toBytes, List.getD_cons_succ, getD_toBytes n (x / 256) i (by omega), show 8 * (i + 1) = 8 + 8 * i by omega, Nat.shiftRight_add,
      Nat.shiftRight_eq_div_pow x 8]

theorem length_lineBytes (d : BitVec 1024) (off n : Nat) : (lineBytes d off n).length = n := length_toBytes n _

/-- A byte of a line. -/
theorem getD_lineBytes (d : BitVec 1024) (off n i : Nat) (h : i < n) : (lineBytes d off n).getD i 0 = d.extractLsb' (8 * (off + i)) 8 := by
  rw [lineBytes, getD_toBytes _ _ _ h, ← Nat.shiftRight_add, Nat.mul_add]
  rfl

/-- The byte read at an address just written. -/
theorem get_write_in : ∀ (bs : List Byte) (m : Mem) (a i : Nat), m.wf = true → i < bs.length → Mem.get (Mem.write m a bs) (a + i) = bs.getD i 0
  | b :: bs, m, a, 0, h, _ => by
    rw [Nat.add_zero, Mem.write, get_write_out bs _ (a + 1) a (set_wf m a b h) (by omega), get_set m a b a h, if_pos rfl]
    rfl
  | b :: bs, m, a, i + 1, h, hi => by
    rw [Mem.write, show a + (i + 1) = a + 1 + i by omega, get_write_in bs _ (a + 1) i (set_wf m a b h) (by simpa using hi), List.getD_cons_succ]

/-! ## The home -/

theorem homeWrite_inv {s : State} (pa : Nat) (bs : List Byte) (h : MemInv s) : MemInv (s.homeWrite pa bs) := write_wf bs s.mem pa h

theorem dieWrite_mem (s : State) (die pa : Nat) (bs : List Byte) : (s.dieWrite die pa bs).mem = Mem.write s.mem pa bs := by
  rw [State.dieWrite]
  split <;> rfl

theorem dieWrite_cores (s : State) (die pa : Nat) (bs : List Byte) : (s.dieWrite die pa bs).cores = s.cores := by
  rw [State.dieWrite]
  split <;> rfl

theorem dieWrite_teams (s : State) (die pa : Nat) (bs : List Byte) : (s.dieWrite die pa bs).teams = s.teams := by
  rw [State.dieWrite]
  split <;> rfl

theorem dieWrite_inv {s : State} (die pa : Nat) (bs : List Byte) (h : MemInv s) : MemInv (s.dieWrite die pa bs) := by
  rw [MemInv, dieWrite_mem]
  exact write_wf bs s.mem pa h

/-! ## A masked line -/

/-- The writes of single bytes of a line, in the order of `is`. -/
def State.lineWrites (s : State) (die line : Nat) (data : BitVec 1024) (is : List Nat) : State :=
  foldS (fun i s => s.dieWrite die (128 * line + i) (lineBytes data i 1)) is s

theorem lineWrites_inv {s : State} (die line : Nat) (data : BitVec 1024) (is : List Nat) (h : MemInv s) : MemInv (s.lineWrites die line data is) :=
  foldS_keeps MemInv _ (fun _ _ hs => dieWrite_inv _ _ _ hs) is s h

/-- A byte after the writes: the one written where the list names it, else what was there. -/
theorem get_lineWrites (die line : Nat) (data : BitVec 1024) (a : Nat) : ∀ (is : List Nat) (s : State), MemInv s →
    Mem.get (s.lineWrites die line data is).mem a =
      if 128 * line ≤ a ∧ a - 128 * line ∈ is then data.extractLsb' (8 * (a - 128 * line)) 8 else Mem.get s.mem a
  | [], s, _ => by simp [State.lineWrites]
  | i :: is, s, h => by
    have hone := length_lineBytes data i 1
    show Mem.get ((s.dieWrite die (128 * line + i) (lineBytes data i 1)).lineWrites die line data is).mem a = _
    rw [get_lineWrites die line data a is _ (dieWrite_inv _ _ _ h), dieWrite_mem]
    by_cases hin : 128 * line ≤ a ∧ a - 128 * line ∈ is
    · rw [if_pos hin, if_pos ⟨hin.1, List.mem_cons_of_mem _ hin.2⟩]
    · rw [if_neg hin]
      by_cases ha : a = 128 * line + i
      · subst ha
        have hi : 128 * line ≤ 128 * line + i ∧ 128 * line + i - 128 * line ∈ i :: is := by simp
        rw [if_pos hi, ← Nat.add_zero (128 * line + i), get_write_in _ _ _ 0 h (by omega), getD_lineBytes _ _ _ _ (by omega)]
        simp
      · rw [get_write_out _ _ _ _ h (by omega), if_neg]
        rintro ⟨hle, hmem⟩
        rcases List.mem_cons.mp hmem with e | e
        · omega
        · exact hin ⟨hle, e⟩

/-- A whole line is written at once, a part of it byte by byte; what is hidden of it stays so. -/
theorem maskedWrite_eq (s : State) (die line : Nat) (data : BitVec 1024) (mask : BitVec 128) : s.maskedWrite die line data mask =
    { (if mask = BitVec.allOnes 128 then s.dieWrite die (128 * line) (lineBytes data 0 128)
       else s.lineWrites die line data ((List.range 128).filter (fun i => mask.getLsbD i))) with hid := s.hid } := rfl

theorem maskedWrite_inv {s : State} (die line : Nat) (data : BitVec 1024) (mask : BitVec 128) (h : MemInv s) : MemInv (s.maskedWrite die line data mask) := by
  rw [maskedWrite_eq]
  show MemInv (ite _ _ _)
  split
  · exact dieWrite_inv _ _ _ h
  · exact lineWrites_inv _ _ _ _ h

/-- What a masked write leaves: the bytes of the mask, and no core or team changed. -/
theorem get_maskedWrite {s : State} (die line : Nat) (data : BitVec 1024) (mask : BitVec 128) (h : MemInv s) (a : Nat) :
    Mem.get (s.maskedWrite die line data mask).mem a =
      if a / 128 = line ∧ mask.getLsbD (a % 128) then data.extractLsb' (8 * (a % 128)) 8 else Mem.get s.mem a := by
  rw [maskedWrite_eq]
  show Mem.get (ite _ _ _ : State).mem a = _
  split
  · next hm =>
    rw [dieWrite_mem]
    by_cases hl : a / 128 = line
    · have ha : a = 128 * line + a % 128 := by omega
      have hr : a % 128 < 128 := by omega
      rw [if_pos ⟨hl, by rw [hm, BitVec.getLsbD_allOnes, decide_eq_true hr]⟩, ha, get_write_in _ _ _ _ h (by rw [length_lineBytes]; omega), getD_lineBytes _ _ _ _ hr, ← ha,
        Nat.zero_add]
    · rw [if_neg (fun hc => hl hc.1), get_write_out _ _ _ _ h (by rw [length_lineBytes]; omega)]
  · rw [get_lineWrites _ _ _ _ _ _ h]
    by_cases hl : a / 128 = line
    · have ha : a - 128 * line = a % 128 := by omega
      have hle : 128 * line ≤ a := by omega
      have hr : a % 128 < 128 := by omega
      simp [ha, hl, hle, hr]
    · rw [if_neg, if_neg (fun hc => hl hc.1)]
      simp only [List.mem_filter, List.mem_range]
      omega

theorem maskedWrite_cores (s : State) (die line : Nat) (data : BitVec 1024) (mask : BitVec 128) : (s.maskedWrite die line data mask).cores = s.cores := by
  rw [maskedWrite_eq]
  show (ite _ _ _ : State).cores = _
  split
  · exact dieWrite_cores s _ _ _
  · exact foldS_same State.cores _ _ (fun _ _ t => dieWrite_cores t _ _ _) s

theorem maskedWrite_teams (s : State) (die line : Nat) (data : BitVec 1024) (mask : BitVec 128) : (s.maskedWrite die line data mask).teams = s.teams := by
  rw [maskedWrite_eq]
  show (ite _ _ _ : State).teams = _
  split
  · exact dieWrite_teams s _ _ _
  · exact foldS_same State.teams _ _ (fun _ _ t => dieWrite_teams t _ _ _) s

/-! ## The L1 -/

theorem l1Back_inv {s : State} (c : CoreId) (line : Nat) (h : MemInv s) : MemInv (s.l1Back c line) := by
  rw [State.l1Back]
  split
  · exact h
  · exact maskedWrite_inv c.die line _ _ h

theorem l1Drop_inv {s : State} (c : CoreId) (line : Nat) (h : MemInv s) : MemInv (s.l1Drop c line) := l1Back_inv c line h

theorem l1BackAll_inv {s : State} (c : CoreId) (h : MemInv s) : MemInv (s.l1BackAll c) :=
  foldS_keeps MemInv _ (fun p _ hs => l1Back_inv c p.1 hs) _ s h

/-! ## The statement -/

/-- A team after a write of its scratchpad, which cures the poison of the bytes written (R456). -/
def Team.scrWritten (t : Team) (off : Nat) (bs : List Byte) : Team :=
  { t with scratch := Mem.write t.scratch off bs
           hid := t.hid.filter (fun e => !(decide (off ≤ e.1) && decide (e.1 < off + bs.length)))
           scrBad := t.scrBad.filter (fun b => !(decide (off ≤ b) && decide (b < off + bs.length))) }

theorem team_scrWrite {s : State} {u : Nat} {t : Team} (off : Nat) (bs : List Byte) (h : s.team u = some t) :
    (s.scrWrite u off bs).team u = some (t.scrWritten off bs) := by
  rw [State.scrWrite, State.modTeam, State.team, mget_mupd, if_pos rfl, show mget s.teams u = some t from h]
  rfl

/-- Settles O54: each access goes through `Mem.write`, which keeps the canonical form and every byte outside what it writes. -/
theorem readsSeeWrites : Obligations.ReadsSeeWrites := by
  unfold Obligations.ReadsSeeWrites
  refine ⟨?home, ?masked, ?scratch, ?l1⟩
  case home =>
    intro s pa bs h
    exact ⟨homeWrite_inv pa bs h, read_write bs s.mem pa h, fun a ha => get_write_out bs s.mem pa a h ha, rfl, rfl⟩
  case masked =>
    intro s d line data mask h
    refine ⟨maskedWrite_inv d line data mask h, maskedWrite_cores s d line data mask, maskedWrite_teams s d line data mask, fun i hi => ?_, fun a ha => ?_⟩
    · have hd : (128 * line + i) / 128 = line := by omega
      have hr : (128 * line + i) % 128 = i := by omega
      rw [get_maskedWrite d line data mask h, hd, hr]
      simp
    · rw [get_maskedWrite d line data mask h, if_neg (fun hc => ha hc.1)]
  case scratch =>
    intro s u t off bs ht hwf
    have hteam := team_scrWrite off bs ht
    refine ⟨?_, rfl, _, hteam, write_wf bs t.scratch off hwf, rfl, fun b => ?_, fun a ha => get_write_out bs t.scratch off a hwf ha⟩
    · rw [State.scrRead, hteam]
      exact read_write bs t.scratch off hwf
    · simp only [Team.scrWritten, List.mem_filter, Bool.not_eq_true', Bool.and_eq_false_iff, decide_eq_false_iff_not]
      constructor
      · rintro ⟨hc, hn⟩
        exact ⟨hc, fun h => hn.elim (· h.1) (· h.2)⟩
      · rintro ⟨hc, hn⟩
        exact ⟨hc, Decidable.not_and_iff_or_not.mp hn⟩
  case l1 => exact fun s c l h => ⟨l1Back_inv c l h, l1Drop_inv c l h, l1BackAll_inv c h⟩

end Sys2Proof.Machine

/-!
PROOFS. The management plane: throttle offers, resets, the firmware image, the life cycle, SPDM.
-/
namespace Sys2Proof.Machine

/-! ## Registers and dies -/

/-- A register keeps the 64 low bits of what it is given. -/
theorem ge_setGe (s : State) (off v off' : Nat) : (s.setGe off v).ge off' = if off = off' then v % 2 ^ 64 else s.ge off' := by
  show (((mget (mset s.regs (geBase + off) (BitVec.ofNat 64 v)) (geBase + off')).getD (regReset (geBase + off')))).toNat = _
  rw [mget_mset]
  by_cases h : off = off'
  · rw [if_pos (by rw [h]), if_pos h]
    exact BitVec.toNat_ofNat v 64
  · rw [if_neg (by omega), if_neg h]
    rfl

theorem die_modDie (s : State) (d : Nat) (f : Die → Die) (d' : Nat) : (s.modDie d f).die d' = if d = d' then f (s.die d') else s.die d' := by
  rw [State.die, State.modDie, mget_mset]
  split
  · next h => rw [h]; rfl
  · rfl

/-- One change to each of several dies. -/
theorem die_foldS_modDie (f : Die → Die) (d : Nat) : ∀ (ds : List Nat) (s : State), ds.Nodup →
    (foldS (fun d s => s.modDie d f) ds s).die d = if d ∈ ds then f (s.die d) else s.die d
  | [], s, _ => by simp
  | e :: ds, s, h => by
    obtain ⟨hnot, hds⟩ := List.nodup_cons.mp h
    rw [foldS_cons, die_foldS_modDie f d ds _ hds, die_modDie]
    by_cases he : e = d
    · subst he
      simp [hnot]
    · simp [he, Ne.symm he]

/-! ## Offers of a throttling pattern (R107, R492) -/

/-- The pattern that an offer describes. -/
def bubbleOf (p : Throttle) : Bubble := { plog := p.plog.toNat, bcnt := p.bcnt.toNat, estart := p.estart.toNat }

/-- A die to which a pattern has been committed. -/
def Die.commit (b : Bubble) (d : Die) : Die := { d with pending := d.pending ++ [b] }

/-- Every die accepts an offer. -/
def State.accepts (s : State) (p : Throttle) : Prop :=
  (8 ≤ (bubbleOf p).plog ∧ (bubbleOf p).plog ≤ 16 ∧ (bubbleOf p).bcnt < 2 ^ (bubbleOf p).plog) ∧ ∀ d, d < 8 → s.cyc d + 2 ^ 16 ≤ (bubbleOf p).estart

theorem accepts_iff (s : State) (p : Throttle) :
    s.accepts p ↔ (Throttle.ok p = true ∧ (List.range 8).all (fun d => decide (s.cyc d + 2 ^ 16 ≤ p.estart.toNat)) = true) := by
  simp only [State.accepts, bubbleOf, Throttle.ok, Bool.and_eq_true, decide_eq_true_eq, List.all_eq_true, List.mem_range, and_assoc]

theorem throttle_refused {s : State} {p : Throttle} (h : ¬ s.accepts p) : s.throttle p = s.tell .throttleRefused := by
  rw [accepts_iff] at h
  exact if_neg h

/-- A pattern that every die accepts is committed on all of them. -/
theorem throttle_committed {s : State} {p : Throttle} (h : s.accepts p) :
    (∀ d, d < 8 → ((s.throttle p).die d).pending = (s.die d).pending ++ [bubbleOf p]) ∧
      (s.throttle p).ge 0x20060 = (bubbleOf p).plog * 2 ^ 16 + (bubbleOf p).bcnt ∧ (s.throttle p).ge 0x20068 = (bubbleOf p).estart ∧ (s.throttle p).mem = s.mem := by
  rw [accepts_iff] at h
  have heq : s.throttle p = ((foldS (fun d s => s.modDie d (Die.commit (bubbleOf p))) (List.range 8) s).setGe 0x20060
      (p.plog.toNat * 2 ^ 16 + p.bcnt.toNat)).setGe 0x20068 p.estart.toNat := if_pos h
  have hlog := p.plog.isLt
  have hcnt := p.bcnt.isLt
  rw [heq]
  refine ⟨fun d hd => ?_, ?_, ?_, foldS_same State.mem (fun d s => s.modDie d (Die.commit (bubbleOf p))) (List.range 8) (fun _ _ _ => rfl) s⟩
  · show ((foldS _ _ s).die d).pending = _
    rw [die_foldS_modDie _ d _ s (List.nodup_range), if_pos (List.mem_range.mpr hd)]
    rfl
  · rw [ge_setGe, if_neg (by decide), ge_setGe, if_pos rfl, Nat.mod_eq_of_lt (by omega)]
    rfl
  · rw [ge_setGe, if_pos rfl, Nat.mod_eq_of_lt p.estart.isLt]
    rfl

/-! ## The life cycle (R494) -/

/-- The package after a reset or a transition. -/
def Blank (s t : State) : Prop :=
  t.teams = [] ∧ t.tasks = [] ∧ t.ctxs = [] ∧ t.cores = [] ∧ t.dies = State.reset.dies ∧ t.subs = [] ∧ t.regs = State.reset.regs ∧
    t.mem = s.mem.filter (fun p => decide (2 ^ 47 ≤ p.1)) ∧ t.pkgId = s.pkgId ∧ t.mgmt.started = false ∧ t.mgmt.session = 0 ∧ t.mgmt.keys = []

theorem blank_wipe (s : State) : Blank s s.wipe := ⟨rfl, rfl, rfl, rfl, rfl, rfl, rfl, rfl, rfl, rfl, rfl, rfl⟩

/-- The transitions of the table. -/
def LifeCycle.leadsTo : LifeCycle → LifeCycle → Bool
  | .blank, .provisioned => true
  | .provisioned, .deployed => true
  | .provisioned, .returned => true
  | .deployed, .returned => true
  | _, _ => false

theorem transition_taken {s : State} {life : LifeCycle} (h : s.mgmt.life.leadsTo life = true) :
    s.transition life = (s.wipe).modMgmt (fun m => { m with life := life, identity := life != .returned }) := if_pos h

theorem transition_refused {s : State} {life : LifeCycle} (h : s.mgmt.life.leadsTo life = false) : s.transition life = s := if_neg (ne_true_of_eq_false h)

/-! ## The statement -/

/-- A transition from the lives that `ok` names. -/
theorem transition_moves (s : State) (life : LifeCycle) (ok : LifeCycle → Bool) (hok : ∀ l, ok l = l.leadsTo life) :
    (ok s.mgmt.life = true → Blank s (s.transition life) ∧ (s.transition life).mgmt.life = life ∧
      ((s.transition life).mgmt.identity = true ↔ life ≠ .returned)) ∧ (ok s.mgmt.life = false → s.transition life = s) := by
  rw [hok]
  refine ⟨fun h => ?_, transition_refused⟩
  rw [transition_taken h]
  exact ⟨⟨rfl, rfl, rfl, rfl, rfl, rfl, rfl, rfl, rfl, rfl, rfl, rfl⟩, rfl, by cases life <;> simp [State.modMgmt]⟩

/-- An image is measured, and starts the compute plane where R494 lets it. -/
theorem firmwareLoad_stopped {s : State} (f : Firmware) (h : s.mgmt.started = false) :
    let t := s.firmwareLoad f
    let runs := f.signatureOk = true ∧ s.mgmt.life ≠ .blank ∧ (s.mgmt.life = .returned → f.test = true)
    t.mgmt.measurement = f.measurement ∧ t.mem = s.mem ∧ (runs → t.mgmt.started = true ∧ t.ge 0x20048 = f.features.toNat % 256) ∧
      (¬ runs → t.mgmt.started = false ∧ t.regs = s.regs) := by
  intro t runs
  have hstop : ¬ s.mgmt.started = true := by simp [h]
  by_cases hr : runs
  · have ht : t = ((s.modMgmt (fun m => { m with measurement := f.measurement })).modMgmt (fun m => { m with started := true })).setGe 0x20048
        (f.features.toNat % 256) := (if_neg hstop).trans (if_pos hr)
    rw [ht]
    refine ⟨rfl, rfl, fun _ => ⟨rfl, ?_⟩, fun hn => absurd hr hn⟩
    rw [ge_setGe, if_pos rfl]
    omega
  · have ht : t = s.modMgmt (fun m => { m with measurement := f.measurement }) := (if_neg hstop).trans (if_neg hr)
    rw [ht]
    exact ⟨rfl, rfl, fun hy => absurd hy hr, fun _ => ⟨h, rfl⟩⟩

/-- An event of a package that has started. -/
theorem awake_of_started {s : State} (h : s.mgmt.started = true) (t : State) : s.awake t = t := if_pos h

/-- Settles O52: offers by `throttle_committed`, life-cycle events by `transition_moves`, the image by `firmwareLoad_stopped`. -/
theorem managementPlaneEvents : Obligations.ManagementPlaneEvents := by
  unfold Obligations.ManagementPlaneEvents
  have hoffer : ∀ (i : Throttle → Instr), (∀ p s, exec (i p) s = .next (s.awake (s.throttle p))) → ∀ s p, s.mgmt.started = true →
      (s.accepts p → Answers (i p) s (fun t => (∀ d, d < 8 → (t.die d).pending = (s.die d).pending ++ [bubbleOf p]) ∧
        t.ge 0x20060 = (bubbleOf p).plog * 2 ^ 16 + (bubbleOf p).bcnt ∧ t.ge 0x20068 = (bubbleOf p).estart ∧ t.mem = s.mem)) ∧
      (¬ s.accepts p → Answers (i p) s (fun t => t = s.tell .throttleRefused)) := by
    intro i hi s p hs
    have hx : exec (i p) s = .next (s.throttle p) := by rw [hi, awake_of_started hs]
    exact ⟨fun h => ⟨_, hx, throttle_committed h⟩, fun h => ⟨_, hx, throttle_refused h⟩⟩
  have hmoves : ∀ (i : Instr) (life : LifeCycle) (ok : LifeCycle → Bool), (∀ s, exec i s = .next (s.transition life)) →
      (∀ l, ok l = LifeCycle.leadsTo l life) → ∀ s : State,
      (ok s.mgmt.life = true → Answers i s (fun t => Blank s t ∧ t.mgmt.life = life ∧ (t.mgmt.identity = true ↔ life ≠ .returned))) ∧
      (ok s.mgmt.life = false → Answers i s (fun t => t = s)) := by
    intro i life ok hi hok s
    obtain ⟨htaken, hrefused⟩ := transition_moves s life ok hok
    exact ⟨fun h => ⟨_, hi s, htaken h⟩, fun h => ⟨_, hi s, hrefused h⟩⟩
  refine ⟨hoffer _ (fun _ _ => rfl), fun die => hoffer _ (fun _ _ => rfl), fun s => ⟨_, rfl, blank_wipe s, rfl⟩,
    fun s die => ⟨_, rfl, blank_wipe (s.tell (.critical die)), rfl⟩, fun s f h => ⟨_, rfl, firmwareLoad_stopped f h⟩,
    fun s f h => ⟨_, rfl, if_pos h⟩, hmoves .toProvisioned .provisioned (fun l => l == .blank) (fun _ => rfl) (fun l => by cases l <;> rfl), hmoves .toDeployed .deployed (fun l => l == .provisioned) (fun _ => rfl) (fun l => by cases l <;> rfl),
    hmoves .toReturned .returned (fun l => l == .provisioned || l == .deployed) (fun _ => rfl) (fun l => by cases l <;> rfl), ?_⟩
  exact ⟨fun s => ⟨_, rfl, rfl, rfl, rfl, rfl⟩, fun s => ⟨_, rfl, rfl, rfl, rfl, rfl⟩, fun s => ⟨_, rfl, rfl, rfl, rfl, rfl⟩,
    fun s => ⟨_, rfl, rfl, rfl, rfl, rfl⟩, fun s => ⟨_, rfl, rfl, rfl, rfl, rfl⟩, fun s => ⟨_, rfl, rfl, rfl, rfl, rfl⟩, fun s => ⟨_, rfl, rfl, rfl, rfl, rfl⟩,
    fun s => ⟨_, rfl, rfl, rfl, rfl, rfl⟩, fun s => ⟨_, rfl, rfl, rfl, rfl, rfl⟩, fun s => ⟨_, rfl, rfl, rfl, rfl, rfl⟩,
    fun s => ⟨_, rfl, by show (_ ++ [_] : List _).length ≠ 0; simp⟩, fun s h => ⟨_, rfl, if_neg h, rfl⟩⟩

end Sys2Proof.Machine

/-!
PROOFS. One agent alone: how an instruction of a gang of one slice ends, by a change of that slice or by a result in its lanes.
-/
namespace Sys2Proof.Machine

/-! ## An agent that issues alone -/

theorem Alone.agents {r : Raw} {s : State} {u j : Nat} {x : Slice} (h : Alone r s u j x) : s.agents = [.slice u j] := by
  rw [State.agents, h.cur]
  rfl

theorem OnCtx.agents {r : Raw} {s : State} {m : Bool} {c : CoreId} (h : OnCtx r s m c) : s.agents = [.ctx (ctxKey c m)] := by
  rw [State.agents, h.cur]

theorem Alone.sl {r : Raw} {s : State} {u j : Nat} {x : Slice} (h : Alone r s u j x) : s.sl u j = x := by
  rw [State.sl, h.slice]
  rfl

theorem Alone.engine {r : Raw} {s : State} {u j : Nat} {x : Slice} (h : Alone r s u j x) : s.engine = .g := by
  rw [State.engine, h.cur]

theorem Alone.next {i : Instr} {r : Raw} {s : State} {u j : Nat} {x : Slice} {body : State → State} (h : Alone r s u j x)
    (hx : exec i s = issue r s body) : exec i s = .next (body s) := hx.trans (issue_of_issues r s body h.issues)

theorem OnCtx.next {i : Instr} {r : Raw} {s : State} {m : Bool} {c : CoreId} {body : State → State} (h : OnCtx r s m c)
    (hx : exec i s = issue r s body) : exec i s = .next (body s) := hx.trans (issue_of_issues r s body h.issues)

/-- An instruction has the meaning `body` in its form r. -/
structure Means (i : Instr) (r : Raw) (body : State → State) : Prop where
  raw : i.raw = some r
  exec : ∀ s, exec i s = issue r s body

/-- A statement of both forms of an operation, by the meaning of each form. -/
theorem both_of_means {base : Base → Instr} {ext : Ext → Instr} {op : Op} {S : Instr → Raw → Prop} (body : Raw → State → State)
    (hb : ∀ b, Means (base b) (.base op b) (body (.base op b))) (hx : ∀ x, Means (ext x) (.ext op x) (body (.ext op x)))
    (h : ∀ i r, r.op = op → Means i r (body r) → S i r) : Both base ext op S :=
  ⟨fun b => h _ _ rfl (hb b), fun x => h _ _ rfl (hx x)⟩

theorem writesOf_of_raw {i : Instr} {r : Raw} (h : i.raw = some r) (s : State) : writesOf i s = writesRaw r s := by rw [writesOf, h]

/-! ## Teams and slices -/

theorem team_modTeam (s : State) (u : Nat) (f : Team → Team) (v : Nat) : (s.modTeam u f).team v = if u = v then (s.team v).map f else s.team v := by
  simp only [State.team, State.modTeam, mget_mupd]

theorem team_modTeam_self {s : State} {u : Nat} {tm : Team} (f : Team → Team) (h : s.team u = some tm) : (s.modTeam u f).team u = some (f tm) := by
  rw [team_modTeam, if_pos rfl, h]
  rfl

theorem team_modTeam_other (s : State) {u v : Nat} (f : Team → Team) (h : v ≠ u) : (s.modTeam u f).team v = s.team v := by
  rw [team_modTeam, if_neg (Ne.symm h)]

/-- A change of a team that leaves its slices. -/
theorem slice_modTeam (s : State) (u : Nat) (f : Team → Team) (hf : ∀ t, (f t).slices = t.slices) (v k : Nat) :
    (s.modTeam u f).slice v k = s.slice v k := by
  rw [State.slice, State.slice, team_modTeam]
  split
  · cases s.team v with
    | none => rfl
    | some t => exact congrArg (mget · k) (hf t)
  · rfl

theorem slice_of_team {s t : State} (h : ∀ v, t.team v = s.team v) (u j : Nat) : t.slice u j = s.slice u j := by
  rw [State.slice, State.slice, h]

/-! ## Ends -/

/-- A change of the slice alone, after s'. -/
theorem ends_modSlice {i : Instr} {s s' : State} {u j : Nat} {x : Slice} {f : Slice → Slice} {P : Slice → Prop}
    (he : exec i s = .next (s'.modSlice u j f)) (hx : s'.slice u j = some x) (hP : P (f x)) : Ends i s s' u j P := by
  refine ⟨_, he, modSlice_kept _ s' u j f, ⟨fun _ _ => rfl, rfl⟩, f x, ?_, hP⟩
  rw [slice_modSlice, if_pos ⟨rfl, rfl⟩, hx]
  rfl

theorem advance_slice (s : State) (u j len : Nat) : s.advance (.slice u j) len = s.modSlice u j (·.stepped len) := rfl
theorem advance_ctx (s : State) (k len : Nat) : s.advance (.ctx k) len = s.modCtx k (·.stepped len) := rfl

/-- Only the PC of the slice moves, after s'. -/
theorem ends_advance {i : Instr} {r : Raw} {s s' : State} {u j : Nat} {x : Slice}
    (he : exec i s = .next (s'.advance (.slice u j) r.len.bytes)) (hx : s'.slice u j = some x) :
    Ends i s s' u j (fun y => y = x.stepped r.len.bytes) := ends_modSlice he hx rfl

/-- A committed result takes nothing from operations and submissions that s' has not added. -/
theorem committed_fresh {W : Issuer → Nat → Nat → Prop} {s s' t : State} {as : List Issuer} (h : LaneKept W as s' t)
    (hops : ∀ id, mget s.mops id = none → mget s'.mops id = none) (hsubs : s'.subs.length = s.subs.length) : Fresh s s' t where
  ops id hn := by rw [hops id hn, h.noOps id (hops id hn)]
  subs := by
    have ht : t.subs.length = s.subs.length := h.subs.1.trans hsubs
    rw [List.drop_of_length_le (by omega), List.drop_of_length_le (by omega)]

/-- A result in the lanes of the slice, after s'. -/
theorem ends_commit {i : Instr} {r : Raw} {s s' : State} {u j : Nat} {x : Slice} {dst : ODst} {f : Nat → Out} (hraw : i.raw = some r)
    (ha : s.agents = [.slice u j]) (he : exec i s = .next (s'.commit r (.slice u j) (s.acts (.slice u j) r.x) dst f))
    (hx : s'.slice u j = some x) (hroom : s'.room (.slice u j) r = true) (hd : OneDest r dst)
    (hops : ∀ id, mget s.mops id = none → mget s'.mops id = none) (hsubs : s'.subs.length = s.subs.length) :
    Ends i s s' u j (SliceGot r (s.acts (.slice u j) r.x) dst f x) := by
  have hk : LaneKept (writesOf i s) [.slice u j] s' (s'.committed r (.slice u j) (s.acts (.slice u j) r.x) dst f) := by
    rw [writesOf_of_raw hraw]
    exact committed_kept _ s' r _ _ dst f (fun n hn l hl => ⟨by rw [ha]; exact List.mem_singleton_self _, hn, hl⟩)
  rw [commit_of_room s' r _ _ dst f hroom] at he
  refine ⟨_, he, hk, committed_fresh hk hops hsubs, _, ?_, sliceGot x r _ dst f hd⟩
  rw [committed_slice, hx]
  rfl

/-- A state that differs from s' in the list of teams alone, but not in any team. -/
theorem laneKept_of_sameTeams (W : Issuer → Nat → Nat → Prop) (as : List Issuer) {s t : State} (hw : t = { s with teams := t.teams })
    (ht : ∀ u, t.team u = s.team u) : LaneKept W as s t where
  whole := hw ▸ rfl
  teams u := by rw [ht]
  slices u i _ := by rw [State.slice, State.slice, ht]
  ctxs k _ := by rw [hw]; rfl
  ops id op h := ⟨[], by rw [hw, List.append_nil]; exact h, fun p hp => absurd hp List.not_mem_nil⟩
  noOps id h := by rw [hw]; exact h
  subs := by
    rw [hw]
    exact ⟨rfl, fun _ b h => ⟨b, h, .refl W b⟩⟩

/-- The same end, seen from a state with the same teams. -/
theorem ends_of_sameTeams {i : Instr} {s s1 s' : State} {u j : Nat} {P : Slice → Prop} (hw : s1 = { s' with teams := s1.teams })
    (ht : ∀ v, s1.team v = s'.team v) (h : Ends i s s1 u j P) : Ends i s s' u j P := by
  obtain ⟨t, he, hk, ⟨hops, hsubs⟩, hy⟩ := h
  refine ⟨t, he, laneKept_trans (laneKept_of_sameTeams _ _ hw ht) hk, ⟨fun id hn => (hops id hn).trans ?_, hsubs.trans ?_⟩, hy⟩
  · rw [hw]
  · rw [hw]

/-! ## The acting lanes of a slice that issues alone -/

theorem laneNo_lt (u j a b : Nat) : (laneNo (.slice u j) a < laneNo (.slice u j) b) ↔ a < b := by simp [laneNo]

/-- Insertion of a lane below all others of a list puts it first. -/
theorem lane_insert (u j l : Nat) (ls : List Nat) (h : ∀ k ∈ ls, l < k) :
    (ls.map (fun k => (Issuer.slice u j, k))).takeWhile (fun q => laneNo q.1 q.2 < laneNo (.slice u j) l) ++
      (Issuer.slice u j, l) :: (ls.map (fun k => (Issuer.slice u j, k))).dropWhile (fun q => laneNo q.1 q.2 < laneNo (.slice u j) l) =
      (l :: ls).map (fun k => (Issuer.slice u j, k)) := by
  cases ls with
  | nil => rfl
  | cons k ks =>
    have hk : ¬ laneNo (.slice u j) k < laneNo (.slice u j) l := by
      rw [laneNo_lt]
      exact Nat.lt_asymm (h k List.mem_cons_self)
    simp [hk]

theorem maskList_sorted (m : Mask) : (maskList m).Pairwise (· < ·) := List.Pairwise.filter _ (by decide)

theorem actingLanes_alone {s : State} {u j : Nat} (h : s.agents = [.slice u j]) (x : Ext) :
    s.actingLanes x = (maskList (s.acts (.slice u j) x)).map (fun l => (Issuer.slice u j, l)) := by
  rw [State.actingLanes, h]
  simp only [List.flatMap_cons, List.flatMap_nil, List.append_nil]
  have key : ∀ ls : List Nat, ls.Pairwise (· < ·) → List.foldr (fun (p : Issuer × Nat) l =>
      (l.takeWhile (fun q => laneNo q.1 q.2 < laneNo p.1 p.2)) ++ p :: (l.dropWhile (fun q => laneNo q.1 q.2 < laneNo p.1 p.2))) []
      (ls.map (fun l => (Issuer.slice u j, l))) = ls.map (fun l => (Issuer.slice u j, l)) := by
    intro ls
    induction ls with
    | nil => intro _; rfl
    | cons l ls ih =>
      intro hs
      obtain ⟨hl, hs'⟩ := List.pairwise_cons.mp hs
      rw [List.map_cons, List.foldr_cons, ih hs']
      exact lane_insert u j l ls hl
  exact key _ (maskList_sorted _)

end Sys2Proof.Machine

/-!
PROOFS. The flags, seeds and registers that instructions of chapter 9 write, the end of lanes, and the end of a sequencer program.
-/
namespace Sys2Proof.Machine

/-! ## A result and a further change of the slice -/

/-- An agent's result, and on a slice a further change g of it. -/
def State.commitThen (t : State) (r : Raw) (a : Issuer) (m : Mask) (dst : ODst) (f : Nat → Out) (g : Slice → Slice) : State :=
  match a with
  | .slice u i => (t.commit r a m dst f).modSlice u i g
  | .ctx _ => t.commit r a m dst f

theorem touches_commitThen {W : Issuer → Nat → Nat → Prop} {r : Raw} {a : Issuer} {m : Mask} {dst : ODst} {f : Nat → Out} {g : Slice → Slice} {t : State}
    (hroom : t.room a r = true) (hW : ∀ n ∈ destsOn a r, ∀ l ∈ maskList m, W a n l) :
    Touches W (fun a t => t.commitThen r a m dst f g) (fun _ _ x y => y = g ((x.result r m dst f).stepped r.len.bytes))
      (fun _ x y => y = (x.result r m dst f).stepped r.len.bytes) a t := by
  have hk := committed_kept W t r a m dst f hW
  cases a with
  | slice u i =>
    have he : t.commitThen r (.slice u i) m dst f g = (t.committed r (.slice u i) m dst f).modSlice u i g := by
      rw [State.commitThen, commit_of_room t r _ m dst f hroom]
    refine ⟨by show LaneKept W _ t (t.commitThen r (.slice u i) m dst f g); rw [he]; exact laneKept_trans hk (modSlice_kept W _ u i g), fun x hx => ⟨_, ?_, rfl⟩⟩
    show (t.commitThen r (.slice u i) m dst f g).slice u i = _
    rw [he, slice_modSlice, if_pos ⟨rfl, rfl⟩, committed_slice, hx]
    rfl
  | ctx k =>
    have he : t.commitThen r (.ctx k) m dst f g = t.committed r (.ctx k) m dst f := commit_of_room t r _ m dst f hroom
    refine ⟨by show LaneKept W _ t (t.commitThen r (.ctx k) m dst f g); rw [he]; exact hk, ?_⟩
    show (t.commitThen r (.ctx k) m dst f g).ctx k = _
    rw [he, committed_ctx]

/-- An instruction that folds such results over its agents. -/
theorem does_of_commitThen {i : Instr} {r : Raw} {dst : ODst} (hd : OneDest r dst) (f : State → Issuer → Nat → Out) (g : State → Issuer → Slice → Slice)
    (F : State → Issuer → State → State) {P : State → Nat → Nat → Slice → Slice → Prop} {Q : State → Nat → Ctx → Ctx → Prop}
    (h : ∀ s, exec i s = issue r s (fun s => foldS (F s) s.agents s))
    (hF : ∀ s a t, s.room a r = true → F s a t = t.commitThen r a (s.acts a r.x) dst (f s a) (g s a))
    (hP : ∀ s u j x z, s.slice u j = some x → SliceGot r (s.acts (.slice u j) r.x) dst (f s (.slice u j)) x z →
      z = (x.result r (s.acts (.slice u j) r.x) dst (f s (.slice u j))).stepped r.len.bytes → P s u j x (g s (.slice u j) z))
    (hQ : ∀ s k y, CtxGot r (s.acts (.ctx k) r.x) dst (f s (.ctx k)) (s.ctx k) y → Q s k (s.ctx k) y) :
    Does i r (fun s => ∀ a ∈ s.agents, s.room a r = true) P Q := by
  refine does_of_fold i r _ P Q F h (fun s hroom _ a ha ds t hnot hk => ?_)
  have ht : t.room a r = true := by rw [kept_room hk a hnot]; exact hroom a ha
  refine touches_congr (hF s a t (hroom a ha)) (touches_mono (touches_commitThen ht (fun n hn l hl => ⟨ha, hn, hl⟩)) ?_ ?_)
  · rintro u j x y rfl hx rfl
    rw [hk.slices u j hnot] at hx
    exact hP s u j x _ hx (sliceGot x r _ dst _ hd) rfl
  · rintro k y rfl rfl
    rw [hk.ctxs k hnot]
    exact hQ s k _ (ctxGot _ r _ dst _)

/-! ## FCLASS.rdfl and SRSEED -/

theorem result_fstk (x : Slice) (r : Raw) (m : Mask) (dst : ODst) (f : Nat → Out) (h : ∀ l, (f l).fl = 0) : (x.result r m dst f).fstk = x.fstk := by
  rw [result_eq]
  exact four_upd_self x.fstk m (fun l => x.fstk.get l ||| ((f l).fl).setWidth 32) (fun l => by rw [h]; simp)

theorem result_srcnt (x : Slice) (r : Raw) (m : Mask) (dst : ODst) (f : Nat → Out) (h : ∀ l, (f l).draws = 0) : (x.result r m dst f).srcnt = x.srcnt := by
  rw [result_eq]
  exact four_upd_self x.srcnt m (fun l => x.srcnt.get l + BitVec.ofNat 64 (f l).draws) (fun l => by rw [h]; simp)

theorem result_seed (x : Slice) (r : Raw) (m : Mask) (dst : ODst) (f : Nat → Out) : (x.result r m dst f).seed = x.seed := by rw [result_eq]

/-- The sticky flags of a lane as a number; a context has none to read. -/
def State.flagsOf (s : State) (a : Issuer) (l : Nat) : Nat := match a with | .slice u i => ((s.sl u i).fstk.get l).toNat | .ctx _ => 0

/-- What .clr leaves of a slice's flags. -/
def Slice.cleared (c : Bool) (m : Mask) (x : Slice) : Slice := if c then { x with fstk := x.fstk.upd m (fun _ => 0) } else x

theorem sl_of_slice {s : State} {u j : Nat} {x : Slice} (h : s.slice u j = some x) : s.sl u j = x := by rw [State.sl, h]; rfl

theorem oneDest_fclass (x : Ext) : OneDest (.ext .fclass x) .reg := oneDest_of_shape _ _ ⟨_, rfl⟩

/-- FCLASS.rdfl reads each acting lane's flags (R245). -/
theorem fclassRdfl_does (x : Ext) (hx : bitAt x.scope.toNat 0 = true) :
    Does (.fclassRdfl x) (.ext .fclass x) (fun s => ∀ a ∈ s.agents, s.room a (.ext .fclass x) = true)
      (fun s u i y z => ∃ w, SliceGot (.ext .fclass x) (s.acts (.slice u i) x) .reg (fun l => { val := (y.fstk.get l).toNat }) y w ∧
        z = { w with fstk := if bitAt x.scope.toNat 1 then y.fstk.upd (s.acts (.slice u i) x) (fun _ => 0) else y.fstk })
      (fun s k y z => CtxGot (.ext .fclass x) (s.acts (.ctx k) x) .reg (fun _ => {}) y z) := by
  let r : Raw := .ext .fclass x
  refine does_of_commitThen (r := r) (oneDest_fclass x) (fun s a l => { val := s.flagsOf a l })
    (fun s a => Slice.cleared (bitAt x.scope.toNat 1) (s.acts a x))
    (fun s a t =>
      let m := s.acts a r.x
      let t := t.commit r a m .reg (fun l => { val := s.flagsOf a l })
      match a with
      | .slice u i => if bitAt r.x.scope.toNat 1 ∧ s.room a r then t.modSlice u i (fun x => { x with fstk := x.fstk.upd m (fun _ => 0) }) else t
      | .ctx _ => t) (fun s => issue_congr (funext fun s => if_pos hx)) ?_ ?_ (fun _ _ _ h => h)
  · intro s a t hroom
    cases a with
    | ctx k => rfl
    | slice u i =>
      cases hc : bitAt x.scope.toNat 1 with
      | true => exact if_pos ⟨hc, hroom⟩
      | false =>
        refine (if_neg (fun h => by rw [show r.x = x from rfl, hc] at h; cases h.1)).trans ?_
        exact (modSlice_of_forall_eq _ u i (Slice.cleared false _) (fun _ => rfl)).symm
  · intro s u j y z hy hgot hz
    have hv : (fun l => ({ val := s.flagsOf (.slice u j) l } : Out)) = fun l => { val := (y.fstk.get l).toNat } := by
      simp only [State.flagsOf, sl_of_slice hy]
    have hf : z.fstk = y.fstk := by
      rw [hz]
      exact result_fstk y r _ .reg (fun l => { val := s.flagsOf (.slice u j) l }) (fun _ => rfl)
    refine ⟨z, hv ▸ hgot, ?_⟩
    cases hc : bitAt x.scope.toNat 1
    · show z = { z with fstk := y.fstk }
      rw [← hf]
    · show { z with fstk := z.fstk.upd _ _ } = _
      rw [hf]
      rfl

/-- SRSEED seeds each acting lane and sets its count of draws to 0 (R263). -/
theorem srseed_does {i : Instr} {r : Raw} (h : ∀ s, exec i s = issue r s (bodySrseed r)) :
    Does i r (fun s => ∀ a ∈ s.agents, s.room a r = true)
      (fun s u i x y => ∃ z, SliceGot r (s.acts (.slice u i) r.x) .none (fun _ => {}) x z ∧
        y = { z with seed := x.seed.upd (s.acts (.slice u i) r.x) (fun l => BitVec.ofNat 64 (s.srcB (.slice u i) r 0 l))
                     srcnt := x.srcnt.upd (s.acts (.slice u i) r.x) (fun _ => 0) })
      (fun s k x y => CtxGot r (s.acts (.ctx k) r.x) .none (fun _ => {}) x y) := by
  refine does_of_commitThen (oneDest_none r) (fun _ _ _ => {})
    (fun s a x => { x with seed := x.seed.upd (s.acts a r.x) (fun l => BitVec.ofNat 64 (s.srcB a r 0 l)), srcnt := x.srcnt.upd (s.acts a r.x) (fun _ => 0) })
    _ h (fun s a t _ => by cases a <;> rfl) ?_ (fun _ _ _ h => h)
  intro s u j x z hx hgot hz
  have hseed : z.seed = x.seed := by
    rw [hz]
    exact result_seed x r (s.acts (.slice u j) r.x) .none (fun _ => {})
  have hcnt : z.srcnt = x.srcnt := by
    rw [hz]
    exact result_srcnt x r (s.acts (.slice u j) r.x) .none (fun _ => {}) (fun _ => rfl)
  refine ⟨z, hgot, ?_⟩
  rw [hseed, hcnt]

/-! ## Writes of k and trap registers -/

theorem foldS_map {α β : Type} (f : β → State → State) (g : α → β) : ∀ (as : List α) (s : State), foldS f (as.map g) s = foldS (fun a => f (g a)) as s
  | [], _ => rfl
  | a :: as, s => foldS_map f g as (f (g a) s)

theorem acts_of_slice {s t : State} {u j : Nat} (h : t.slice u j = s.slice u j) (x : Ext) : t.acts (.slice u j) x = s.acts (.slice u j) x := by
  have hsl : t.sl u j = s.sl u j := by rw [State.sl, State.sl, h]
  have hok : t.predOk (.slice u j) x = s.predOk (.slice u j) x := by
    funext l
    simp only [State.predOk, State.pred, State.predsOf, hsl]
  simp only [State.acts, State.actOf, hok, hsl]

theorem room_of_slice {s t : State} {u j : Nat} (h : t.slice u j = s.slice u j) (ht : (t.team u).map Team.task = (s.team u).map Team.task)
    (hk : t.tasks = s.tasks) (r : Raw) : t.room (.slice u j) r = s.room (.slice u j) r := by
  have hsl : t.sl u j = s.sl u j := by rw [State.sl, State.sl, h]
  have htask (w : State) : w.taskOf u = ((w.team u).map Team.task).bind w.task := by
    rw [State.taskOf]
    cases w.team u <;> rfl
  have hof : t.taskOf u = s.taskOf u := by
    rw [htask, htask, ht]
    congr 1
    funext n
    rw [State.task, State.task, hk]
  have hceil : t.ceilOf u = s.ceilOf u := by rw [State.ceilOf, State.ceilOf, hof]
  show (t.acts (.slice u j) r.x == 0 || decide ((t.sl u j).heldAfter _ _ ≤ t.ceilOf u)) = (s.acts (.slice u j) r.x == 0 || decide ((s.sl u j).heldAfter _ _ ≤ s.ceilOf u))
  rw [acts_of_slice h, hceil, hsl]

/-- What a state before an instruction's last part has in common with the state at issue. -/
structure SameAgent (s s1 : State) (u j : Nat) : Prop where
  cur : s1.cur = s.cur
  slice : s1.slice u j = s.slice u j
  task : (s1.team u).map Team.task = (s.team u).map Team.task
  tasks : s1.tasks = s.tasks
  ops : ∀ id, mget s.mops id = none → mget s1.mops id = none
  subs : s1.subs.length = s.subs.length

/-- An instruction of one slice that writes no register of it in its last part. -/
theorem ends_perLane_none {i : Instr} {r : Raw} {s s1 : State} {u j : Nat} {x : Slice} (h : Alone r s u j x) (hraw : i.raw = some r)
    (he : exec i s = .next (perLane r .none (fun _ _ _ => {}) s1)) (hs : SameAgent s s1 u j) (hroom : s.room (.slice u j) r = true) :
    Ends i s s1 u j (SliceGot r (s.acts (.slice u j) r.x) .none (fun _ => {}) x) := by
  have hag : s1.agents = [.slice u j] := by
    rw [← h.agents, State.agents, State.agents, hs.cur]
  have he' : exec i s = .next (s1.commit r (.slice u j) (s.acts (.slice u j) r.x) .none (fun _ => {})) := by
    rw [he, perLane, hag, foldS_cons, foldS_nil, acts_of_slice hs.slice]
  have hroom1 : s1.room (.slice u j) r = true := by rw [room_of_slice hs.slice hs.task hs.tasks, hroom]
  exact ends_commit hraw h.agents he' (hs.slice.trans h.slice) hroom1 (oneDest_none r) hs.ops hs.subs

/-! ## KMOV -/

/-- The k registers that KMOV names. -/
def kmovNames (r : Raw) : List Nat := (List.range (if rty r 3 == 4 then 2 else 1)).map (r.x.d.toNat + ·)

/-- KMOV in one lane of a slice, its value from the state at issue. -/
def State.kmovLane (s : State) (r : Raw) (u j l : Nat) (t : State) : State :=
  (t.takeOverK u j (kmovNames r)).putK u j r.x.d.toNat (rty r 3 == 4) (s.srcB (.slice u j) r 0 l)

/-- The names that the lanes of a KMOV take from earlier LDKs, in their order. -/
def kmovTaken (r : Raw) (ls : List Nat) : List (Nat × Nat) :=
  ls.flatMap (fun _ => if rty r 3 = 4 then [(r.x.d.toNat, 0), (r.x.d.toNat + 1, 0)] else [(r.x.d.toNat, 0)])

theorem kmovNames_taken (r : Raw) (l : Nat) : (kmovNames r).map (fun n => (n, 0)) = kmovTaken r [l] := by
  by_cases h : rty r 3 = 4 <;> simp [kmovNames, kmovTaken, h, List.range_succ]

/-- The LDKs of a slice's home gang, of other cycles than c, after they have lost names. -/
def losesK (u j c : Nat) (lost : List (Nat × Nat)) (p : Nat × MemOp) : Nat × MemOp :=
  if p.2.ldkOf u j && p.2.since != c then (p.1, { p.2 with skip := p.2.skip ++ lost }) else p

theorem losesK_nil (u j c : Nat) : losesK u j c [] = id := by
  funext p
  simp only [losesK, List.append_nil]
  split <;> rfl

theorem losesK_losesK (u j c : Nat) (l1 l2 : List (Nat × Nat)) : losesK u j c l2 ∘ losesK u j c l1 = losesK u j c (l1 ++ l2) := by
  funext p
  simp only [Function.comp, losesK]
  by_cases h : (p.2.ldkOf u j && p.2.since != c) = true
  · have h' : (({ p.2 with skip := p.2.skip ++ l1 } : MemOp).ldkOf u j && p.2.since != c) = true := h
    rw [if_pos h]
    simp only [h', if_true, List.append_assoc]
    rw [if_pos h]
  · rw [if_neg h, if_neg h, if_neg h]

/-- The k file of a team after one lane of KMOV. -/
theorem mget_putK (m : Map Word) (j d v n : Nat) (wide : Bool) :
    mget (if wide then mset (mset m (kKey j d) (BitVec.ofNat 32 v)) (kKey j (d + 1)) (BitVec.ofNat 32 (v / 2 ^ 32)) else mset m (kKey j d) (BitVec.ofNat 32 v)) n =
      if n = kKey j d then some (BitVec.ofNat 32 v) else if wide = true ∧ n = kKey j (d + 1) then some (BitVec.ofNat 32 (v / 2 ^ 32)) else mget m n := by
  have hne : kKey j d ≠ kKey j (d + 1) := by unfold kKey; omega
  cases wide <;> simp only [Bool.false_eq_true, if_false, if_true, mget_mset, false_and, true_and, eq_comm (a := n)]
  by_cases h1 : kKey j (d + 1) = n
  · rw [if_pos h1, if_neg (fun h => hne (h.trans h1.symm)), if_pos h1]
  · rw [if_neg h1, if_neg h1]

/-- The k file after the lanes of a KMOV. -/
def kfileAfter (s : State) (r : Raw) (u j : Nat) (m : Map Word) (ls : List Nat) : Map Word :=
  ls.foldl (fun m l =>
    let v := s.srcB (.slice u j) r 0 l
    let f := mset m (kKey j r.x.d.toNat) (BitVec.ofNat 32 v)
    if rty r 3 == 4 then mset f (kKey j (r.x.d.toNat + 1)) (BitVec.ofNat 32 (v / 2 ^ 32)) else f) m

/-- The last lane's value stays (R202). -/
theorem mget_kfileAfter (s : State) (r : Raw) (u j n : Nat) (ls : List Nat) (m : Map Word) :
    mget (kfileAfter s r u j m ls) n = match ls.getLast? with
      | some l =>
        if n = kKey j r.x.d.toNat then some (BitVec.ofNat 32 (s.srcB (.slice u j) r 0 l))
        else if rty r 3 = 4 ∧ n = kKey j (r.x.d.toNat + 1) then some (BitVec.ofNat 32 (s.srcB (.slice u j) r 0 l / 2 ^ 32))
        else mget m n
      | none => mget m n := by
  induction ls generalizing m with
  | nil => rfl
  | cons l ls ih =>
    rw [kfileAfter, List.foldl_cons, ← kfileAfter, ih, mget_putK, List.getLast?_cons]
    simp only [beq_iff_eq]
    cases ls.getLast? with
    | none => rfl
    | some l' =>
      simp only [Option.getD_some]
      split
      · rfl
      · split <;> rfl


/-- What the lanes of a KMOV leave: LDKs have lost their names, and the k file of the team is the one given. -/
theorem kmovLanes_frame (s : State) (r : Raw) (u j : Nat) (tm : Team) : ∀ (ls : List Nat) (t : State) (m : Map Word),
    t.team u = some { tm with kfile := m } →
    let w := foldS (s.kmovLane r u j) ls t
    w = { t with mops := t.mops.map (losesK u j (t.cyc tm.core.die) (kmovTaken r ls)), teams := w.teams } ∧
      w.team u = some { tm with kfile := kfileAfter s r u j m ls } ∧ ∀ v, v ≠ u → w.team v = t.team v
  | [], t, m, ht => by
    refine ⟨?_, ht, fun _ _ => rfl⟩
    show t = { t with mops := t.mops.map (losesK u j _ []) }
    rw [losesK_nil, List.map_id]
  | l :: ls, t, m, ht => by
    have hcore : t.coreOf (.slice u j) = tm.core := by rw [State.coreOf, ht]
    have hmops : (s.kmovLane r u j l t).mops = t.mops.map (losesK u j (t.cyc tm.core.die) (kmovTaken r [l])) := by
      rw [← kmovNames_taken, ← hcore]
      rfl
    have hteam : (s.kmovLane r u j l t).team u = some { tm with kfile := kfileAfter s r u j m [l] } :=
      team_modTeam_self _ (show (t.takeOverK u j (kmovNames r)).team u = _ from ht)
    have hother (v : Nat) (hv : v ≠ u) : (s.kmovLane r u j l t).team v = t.team v := team_modTeam_other _ _ hv
    obtain ⟨hw, hu, hv⟩ := kmovLanes_frame s r u j tm ls (s.kmovLane r u j l t) _ hteam
    refine ⟨?_, hu, fun v hne => (hv v hne).trans (hother v hne)⟩
    rw [foldS_cons]
    refine hw.trans ?_
    rw [hmops, List.map_map]
    show ({ t with mops := t.mops.map (losesK u j (t.cyc tm.core.die) (kmovTaken r ls) ∘ losesK u j (t.cyc tm.core.die) (kmovTaken r [l])), teams := _ } : State) = _
    rw [losesK_losesK, kmovTaken, kmovTaken, ← List.flatMap_append, List.singleton_append, ← kmovTaken]

/-- The state in which KMOV leaves the k file of its team: LDKs have lost what its lanes wrote. -/
def State.kmoved (s : State) (r : Raw) (u j : Nat) (tm : Team) (ls : List Nat) : State :=
  ({ s with mops := s.mops.map (losesK u j (s.cyc tm.core.die) (kmovTaken r ls)) } : State).modTeam u
    (fun t => { t with kfile := kfileAfter s r u j tm.kfile ls })

theorem losesK_none (u j c : Nat) (lost : List (Nat × Nat)) (m : Map MemOp) (id : Nat) (h : mget m id = none) : mget (m.map (losesK u j c lost)) id = none := by
  have he : m.map (losesK u j c lost) = m.map (fun p => (p.1, (losesK u j c lost p).2)) := by
    refine List.map_congr_left fun p _ => ?_
    simp only [losesK]
    split <;> rfl
  rw [he, mget_map m (fun p => (losesK u j c lost p).2), h]
  rfl

/-- KMOV of a gang of one slice. -/
theorem kmov_ends {i : Instr} {r : Raw} (hi : Means i r (bodyKmov r)) {s : State} {u j : Nat} {x : Slice} {tm : Team} (h : Alone r s u j x)
    (ht : s.team u = some tm) (hroom : s.room (.slice u j) r = true) :
    Ends i s (s.kmoved r u j tm (maskList (s.acts (.slice u j) r.x))) u j (SliceGot r (s.acts (.slice u j) r.x) .none (fun _ => {}) x) := by
  generalize hls : maskList (s.acts (.slice u j) r.x) = ls
  obtain ⟨hw, hu, hv⟩ := kmovLanes_frame s r u j tm ls s tm.kfile ht
  have he : exec i s = .next (perLane r .none (fun _ _ _ => {}) (foldS (s.kmovLane r u j) ls s)) := by
    rw [h.next (hi.exec s), bodyKmov, actingLanes_alone h.agents, foldS_map, hls]
    rfl
  generalize foldS (s.kmovLane r u j) ls s = t at *
  have hteams (v : Nat) : t.team v = (s.kmoved r u j tm ls).team v := by
    by_cases hvu : v = u
    · subst hvu
      exact hu.trans (team_modTeam_self (fun t => { t with kfile := kfileAfter s r v j tm.kfile ls }) ht).symm
    · exact (hv v hvu).trans (team_modTeam_other _ (fun t => { t with kfile := kfileAfter s r u j tm.kfile ls }) hvu).symm
  have hsame : SameAgent s t u j :=
    { cur := by rw [hw]
      slice := (slice_of_team hteams u j).trans (slice_modTeam { s with mops := s.mops.map (losesK u j (s.cyc tm.core.die) (kmovTaken r ls)) } u
        (fun t => { t with kfile := kfileAfter s r u j tm.kfile ls }) (fun _ => rfl) u j)
      task := by rw [hu, ht]; rfl
      tasks := by rw [hw]
      ops := fun id hn => by rw [hw]; exact losesK_none _ _ _ _ _ _ hn
      subs := by rw [hw] }
  exact ends_of_sameTeams hw hteams (ends_perLane_none h hi.raw he hsame hroom)

/-- SSET of a gang of one slice (R195). -/
theorem sset_ends {i : Instr} {r : Raw} (hi : Means i r (bodySset r)) {s : State} {u j : Nat} {x : Slice} (h : Alone r s u j x)
    (hroom : s.room (.slice u j) r = true) :
    Ends i s (match (maskList (s.acts (.slice u j) r.x)).getLast? with
        | some l => s.modTeam u (fun t =>
            if r.x.d = 0x20 then { t with trapBase := BitVec.ofNat 64 (bits (s.srcA (.slice u j) r 0 l) 56 12 * 4096) }
            else { t with trapMask := BitVec.ofNat 32 (s.srcA (.slice u j) r 0 l) &&& 0xC6200#32 })
        | none => s) u j (SliceGot r (s.acts (.slice u j) r.x) .none (fun _ => {}) x) := by
  have he := h.next (hi.exec s)
  rw [bodySset, actingLanes_alone h.agents, List.getLast?_map] at he
  cases hl : (maskList (s.acts (.slice u j) r.x)).getLast? with
  | none =>
    rw [hl] at he
    exact ends_perLane_none h hi.raw he ⟨rfl, rfl, rfl, rfl, fun _ hn => hn, rfl⟩ hroom
  | some l =>
    rw [hl] at he
    refine ends_perLane_none h hi.raw he ⟨rfl, slice_modTeam s u _ (fun t => ?_) u j, ?_, rfl, fun _ hn => hn, rfl⟩ hroom
    · split <;> rfl
    · rw [team_modTeam, if_pos rfl]
      cases s.team u with
      | none => rfl
      | some t =>
        simp only [Option.map_some]
        split <;> rfl

/-- Settles O22: FCLASS.rdfl and SRSEED on each agent, KMOV and SSET through the lanes of the one slice. -/
theorem flagSeedAndRegisterWrites : Obligations.FlagSeedAndRegisterWrites := by
  unfold Obligations.FlagSeedAndRegisterWrites
  refine ⟨fclassRdfl_does, ⟨fun b => srseed_does fun _ => rfl, fun x => srseed_does fun _ => rfl⟩, ?kmov, ?sset⟩
  case kmov =>
    refine both_of_means bodyKmov (fun _ => ⟨rfl, fun _ => rfl⟩) (fun _ => ⟨rfl, fun _ => rfl⟩) (fun i r _ hi s u j x tm h ht hroom => ?_)
    exact ⟨_, fun n => mget_kfileAfter s r u j n _ tm.kfile, kmov_ends hi h ht hroom⟩
  case sset =>
    exact both_of_means bodySset (fun _ => ⟨rfl, fun _ => rfl⟩) (fun _ => ⟨rfl, fun _ => rfl⟩) (fun i r _ hi s u j x h hroom => sset_ends hi h hroom)

end Sys2Proof.Machine

/-!
PROOFS. The end of lanes (EXIT, KILL) and of a sequencer program (SEQEND): what ends, and which slices stay.
-/
namespace Sys2Proof.Machine

/-! ## What leaves every slice as it was -/

theorem sendCells_teams (link cls k : Nat) : ∀ (ps : List (BitVec 1024)) (s : State), (s.sendCells link cls k ps).teams = s.teams
  | [], _ => rfl
  | [_], _ => rfl
  | _ :: q :: ps, _ => sendCells_teams link cls k (q :: ps) _

theorem podTold_teams (s : State) (t : Option (PodBind × Nat × Nat × PodCell)) : (s.podTold t).teams = s.teams := by cases t <;> rfl

theorem send_teams (s : State) (m : Sending) : (s.send m).teams = s.teams := by
  rw [State.send]
  split
  · exact (podTold_teams _ _).trans (sendCells_teams _ _ _ _ s)
  · rfl

theorem podSend_teams (s : State) (k : Task) (u : Nat) (c : PodCell) : (s.podSend k u c).teams = s.teams := by
  rw [State.podSend]
  split
  · exact send_teams _ _
  · rfl

theorem earlyRelease_teams (s : State) (serial : Nat) : (s.earlyRelease serial).teams = s.teams := by
  rw [State.earlyRelease]
  split
  · rfl
  · simp only
    split <;> rfl

theorem ringWrite_teams (s : State) (r : Ring) (rec : List Byte) : (s.ringWrite r rec).teams = s.teams := by
  simp only [State.ringWrite]
  split
  · rfl
  · split <;> rfl

theorem trace_teams (s : State) (u i kind pc : Nat) (ma mb : Mask) (scope aux : Nat) : (s.trace u i kind pc ma mb scope aux).teams = s.teams := by
  rw [State.trace]
  split
  · rfl
  · simp only
    split
    · exact ringWrite_teams s _ _
    · rfl

theorem slice_of_teams {s t : State} (h : t.teams = s.teams) (v k : Nat) : t.slice v k = s.slice v k := by
  rw [State.slice, State.slice, State.team, State.team, h]

/-- A change of every team that leaves its slices. -/
theorem slice_mapTeams (s : State) (f : Nat × Team → Team) (hf : ∀ p, (f p).slices = p.2.slices) (v k : Nat) :
    ({ s with teams := s.teams.map (fun p => (p.1, f p)) } : State).slice v k = s.slice v k := by
  rw [State.slice, State.slice, State.team, State.team, mget_map]
  cases mget s.teams v with
  | none => rfl
  | some t => exact congrArg (mget · k) (hf (v, t))

/-- A change of the teams that satisfy p, which leaves their slices. -/
theorem slice_mapTeamsIf (s : State) (p : Nat × Team → Prop) [DecidablePred p] (f : Team → Team) (hf : ∀ t, (f t).slices = t.slices) (v k : Nat) :
    ({ s with teams := s.teams.map (fun q => if p q then (q.1, f q.2) else q) } : State).slice v k = s.slice v k := by
  have he : s.teams.map (fun q => if p q then (q.1, f q.2) else q) = s.teams.map (fun q => (q.1, if p q then f q.2 else q.2)) := by
    refine List.map_congr_left fun q _ => ?_
    split <;> rfl
  rw [he]
  refine slice_mapTeams s (fun q => if p q then f q.2 else q.2) (fun q => ?_) v k
  split
  · exact hf q.2
  · rfl

theorem settleLevel_slice (s : State) (serial key v k : Nat) : (s.settleLevel serial key).slice v k = s.slice v k := by
  rw [State.settleLevel]
  cases s.task serial with
  | none => rfl
  | some t =>
    refine iteInduction (motive := fun w : State => w.slice v k = s.slice v k) (fun _ => ?_) (fun _ => rfl)
    exact slice_mapTeamsIf _ (fun p => p.2.task = serial) (fun t => { t with lvl := mdel t.lvl key }) (fun _ => rfl) v k

theorem levelArrive_slice (s : State) (u key v k : Nat) : (s.levelArrive u key).slice v k = s.slice v k := by
  rw [State.levelArrive]
  split
  · rfl
  · split
    · simp only
      split
      · refine (settleLevel_slice _ _ _ v k).trans (slice_of_teams ?_ v k)
        show (ite _ _ _ : State).teams = _
        split
        · exact podSend_teams s _ _ _
        · rfl
      · rfl
    · rfl

theorem settleLevels_slice (s : State) (u v k : Nat) : (s.settleLevels u).slice v k = s.slice v k := by
  rw [State.settleLevels]
  split
  · rfl
  · exact foldS_same (fun s => s.slice v k) _ _ (fun _ _ t => levelArrive_slice t _ _ v k) s

theorem settleBars_slice (s : State) (u v k : Nat) : (s.settleBars u).slice v k = s.slice v k :=
  slice_modTeam s u (fun t => { t with bars := t.bars.map (fun p => (p.1, if p.2.expect = 0 then p.2.settle t.liveSet else p.2)) }) (fun _ => rfl) v k

/-! ## Slices that end -/

/-- A team without one of its slices. -/
def Team.lose (i : Nat) (t : Team) : Team :=
  if (mdel t.slices i).isEmpty then { t with slices := mdel t.slices i, status := .ending } else { t with slices := mdel t.slices i }

theorem lose_slices (i : Nat) (t : Team) : (t.lose i).slices = mdel t.slices i := by
  rw [Team.lose]
  split <;> rfl

theorem sliceEnd_eq (s : State) (u i : Nat) : s.sliceEnd u i = s.modTeam u (Team.lose i) := rfl

theorem slice_sliceEnd (s : State) (u i v k : Nat) : (s.sliceEnd u i).slice v k = if v = u ∧ k = i then none else s.slice v k := by
  rw [sliceEnd_eq, State.slice, State.slice, team_modTeam]
  by_cases hu : u = v
  · subst hu
    rw [if_pos rfl]
    cases s.team u with
    | none => simp
    | some t => simp only [Option.map_some, Option.bind_some, lose_slices, mget_mdel, true_and, eq_comm (a := k)]
  · rw [if_neg hu, if_neg (fun h => hu h.1.symm)]

/-- R174's loop ends no lane. -/
theorem rejoinGo_live (n : Nat) : ∀ (x : Slice) (ps : List Pop), (x.rejoinGo ps n).1.live = x.live := by
  induction n with
  | zero => exact fun _ _ => rfl
  | succ n ih =>
    intro x ps
    rw [Slice.rejoinGo]
    split
    · rfl
    · split
      · split
        · exact ih _ _
        · exact ih _ _
      · rfl

theorem normal_live (x : Slice) : x.normal.1.live = x.live := rejoinGo_live _ x []

theorem normal_of_noRejoin (x : Slice) (h : x.rejoin = []) : x.normal = (x, []) := by rw [Slice.normal, h, List.length_nil, Slice.rejoinGo, h]

/-- What R174 leaves of the slices: the one it acts on in its normal form, or ended without a lane. -/
theorem slice_normalize {s : State} {u i : Nat} {x : Slice} (h : s.slice u i = some x) (v k : Nat) :
    (s.normalize u i).slice v k =
      if v = u ∧ k = i then (if x.normal.1.act = 0 ∧ x.normal.1.rejoin = [] then none else some x.normal.1) else s.slice v k := by
  have htr : ∀ (ps : List Pop) (w : State), (foldS (fun (p : Pop) s => s.trace u i 2 p.jpc p.after p.before 0 p.depth) ps w).slice v k = w.slice v k :=
    fun ps w => slice_of_teams (foldS_same State.teams _ ps (fun _ _ t => trace_teams t _ _ _ _ _ _ _ _) w) v k
  have hmod : (s.modSlice u i (fun _ => x.normal.1)).slice v k = if v = u ∧ k = i then some x.normal.1 else s.slice v k := by
    rw [slice_modSlice]
    by_cases hv : v = u ∧ k = i
    · obtain ⟨rfl, rfl⟩ := hv
      rw [if_pos ⟨rfl, rfl⟩, if_pos ⟨rfl, rfl⟩, h]
      rfl
    · rw [if_neg (fun h => hv ⟨h.1.symm, h.2.symm⟩), if_neg hv]
  rw [State.normalize, h]
  simp only
  split
  · rw [slice_sliceEnd, htr, hmod]
    split <;> rfl
  · rw [htr, hmod]

/-- The slices after lanes of one have ended (R175). -/
theorem slice_endLanes {s : State} {u i : Nat} {x : Slice} (h : s.slice u i = some x) (m : Mask) (exit : Bool) (v k : Nat) :
    (s.endLanes u i m exit).slice v k =
      if v = u ∧ k = i then (if (x.without m).normal.1.act = 0 ∧ (x.without m).normal.1.rejoin = [] then none else some (x.without m).normal.1)
      else s.slice v k := by
  let marked (t : Team) : Team := if exit then { t with exiting := t.exiting ++ [(i, m, s.nextId)] } else { t with counted := t.counted ||| laneSet i m }
  let s1 := (s.dropWrites u i m exit).modTeam u (fun t => marked (t.modSlice i (fun x => x.without m)))
  have hs1 (v k : Nat) : s1.slice v k = if v = u ∧ k = i then some (x.without m) else s.slice v k := by
    have hsplit : s1 = ((s.dropWrites u i m exit).modSlice u i (fun x => x.without m)).modTeam u marked := by
      simp only [s1, State.modSlice, State.modTeam, mupd_mupd]
    have hmark : ∀ t : Team, (marked t).slices = t.slices := fun t => by simp only [marked]; split <;> rfl
    rw [hsplit, slice_modTeam _ u marked hmark, slice_modSlice]
    by_cases hv : v = u ∧ k = i
    · obtain ⟨rfl, rfl⟩ := hv
      rw [if_pos ⟨rfl, rfl⟩, if_pos ⟨rfl, rfl⟩, show (s.dropWrites v k m exit).slice v k = some x from h]
      rfl
    · rw [if_neg (fun h => hv ⟨h.1.symm, h.2.symm⟩), if_neg hv]
      rfl
  have hself : s1.slice u i = some (x.without m) := by rw [hs1, if_pos ⟨rfl, rfl⟩]
  let w := ((s1.normalize u i).settleBars u).settleLevels u
  have hw : w.slice v k = (s1.normalize u i).slice v k := (settleLevels_slice _ u v k).trans (settleBars_slice _ u v k)
  have hend : (s.endLanes u i m exit).slice v k = w.slice v k := by
    show (match w.team u with | some t => if exit then w else w.earlyRelease t.task | none => w : State).slice v k = _
    cases w.team u with
    | none => rfl
    | some t => exact iteInduction (motive := fun y : State => y.slice v k = w.slice v k) (fun _ => rfl) (fun _ => slice_of_teams (earlyRelease_teams w _) v k)
  rw [hend, hw, slice_normalize hself, hs1]
  split <;> rfl

/-! ## EXIT and KILL -/

/-- An instruction of one slice that ends its acting lanes, where no store holds it back. -/
theorem endsLanes {i : Instr} {s : State} {u j : Nat} {x : Slice} {len : Nat} {m : Mask} {exit : Bool} (hx : s.slice u j = some x)
    (he : exec i s = .next ((s.advance (.slice u j) len).endLanes u j m exit)) :
    ∃ t, exec i s = .next t ∧ (∀ y, t.slice u j = some y → y.live = x.live &&& ~~~m) ∧
      (x.act &&& ~~~m = 0 → x.rejoin = [] → t.slice u j = none) ∧ ∀ v k, v ≠ u ∨ k ≠ j → t.slice v k = s.slice v k := by
  have hadv : (s.advance (.slice u j) len).slice u j = some (x.stepped len) := by
    rw [advance_slice, slice_modSlice, if_pos ⟨rfl, rfl⟩, hx]
    rfl
  have hall := slice_endLanes hadv m exit
  refine ⟨_, he, fun y hy => ?_, fun ha hr => ?_, fun v k hv => ?_⟩
  · rw [hall, if_pos ⟨rfl, rfl⟩] at hy
    split at hy
    · cases hy
    · cases hy
      exact normal_live _
  · have hn : ((x.stepped len).without m).rejoin = [] := by
      show x.rejoin.map _ = []
      rw [hr]
      rfl
    rw [hall, if_pos ⟨rfl, rfl⟩, normal_of_noRejoin _ hn, if_pos ⟨ha, hn⟩]
  · rw [hall, if_neg (by omega), advance_slice, slice_modSlice, if_neg (by omega)]

theorem exitKillEndLanes_of {i : Instr} {r : Raw} {body : State → State} (hi : Means i r body) (stores exit : Bool)
    (hbody : ∀ s u j, s.agents = [.slice u j] → (stores = true → s.storesOf (.slice u j) (s.acts (.slice u j) r.x) s.nextId = false) →
      body s = if s.acts (.slice u j) r.x = 0 then s.advance (.slice u j) r.len.bytes
        else (s.advance (.slice u j) r.len.bytes).endLanes u j (s.acts (.slice u j) r.x) exit)
    (s : State) (u j : Nat) (x : Slice) (h : Alone r s u j x) (hst : stores = true → s.storesOf (.slice u j) (s.acts (.slice u j) r.x) s.nextId = false) :
    let m := s.acts (.slice u j) r.x
    (m = 0 → Ends i s s u j (fun y => y = x.stepped r.len.bytes)) ∧
    (m ≠ 0 → ∃ t, exec i s = .next t ∧ (∀ y, t.slice u j = some y → y.live = x.live &&& ~~~m) ∧
      (x.act &&& ~~~m = 0 → x.rejoin = [] → t.slice u j = none) ∧ ∀ v k, v ≠ u ∨ k ≠ j → t.slice v k = s.slice v k) := by
  have he := h.next (hi.exec s)
  rw [hbody s u j h.agents hst] at he
  refine ⟨fun hm => ?_, fun hm => ?_⟩
  · rw [if_pos hm] at he
    exact ends_advance he h.slice
  · rw [if_neg hm] at he
    exact endsLanes h.slice he

/-- Settles O23: EXIT and KILL of a slice are `endLanes` of its acting lanes. -/
theorem exitKillEndLanes : Obligations.ExitKillEndLanes := by
  unfold Obligations.ExitKillEndLanes
  refine ⟨?exit, ?kill⟩
  case exit =>
    refine both_of_means bodyExit (fun _ => ⟨rfl, fun _ => rfl⟩) (fun _ => ⟨rfl, fun _ => rfl⟩) (fun i r _ hi =>
      exitKillEndLanes_of hi true true (fun s u j ha hst => ?_))
    rw [bodyExit, ha, foldS_cons, foldS_nil]
    show (if s.acts (.slice u j) r.x = 0 then _ else if s.storesOf (.slice u j) (s.acts (.slice u j) r.x) s.nextId = true then _ else _) = _
    rw [if_neg (c := s.storesOf _ _ _ = true) (by rw [hst rfl]; decide)]
  case kill =>
    refine both_of_means bodyKill (fun _ => ⟨rfl, fun _ => rfl⟩) (fun _ => ⟨rfl, fun _ => rfl⟩) (fun i r _ hi =>
      exitKillEndLanes_of hi false false (fun s u j ha _ => ?_))
    rw [bodyKill, ha, foldS_cons, foldS_nil]

/-! ## SEQEND -/

/-- The end of a copy team's program touches no context and no byte of memory. -/
theorem ctxDone_frame (s : State) (k : Nat) : s.ctxDone k = { s with teams := (s.ctxDone k).teams } := by
  rw [State.ctxDone]
  split
  · rfl
  · split
    · split <;> rfl
    · rfl

/-- The program of an idle context ends (R329). -/
theorem seqEnd_ends {s : State} {k len : Nat} (h : s.ctxBusy k = false) :
    ((s.seqEnd k len).ctx k).run = .ended ∧ ((s.seqEnd k len).ctx k).exit = ((mget (s.ctx k).regs 0).getD 0).toNat % 2 ^ 16 ∧
      ((s.seqEnd k len).ctx k).pc = (s.ctx k).pc + len ∧ (s.seqEnd k len).mem = s.mem ∧ ∀ q, q ≠ k → (s.seqEnd k len).ctx q = s.ctx q := by
  have he : s.seqEnd k len =
      (s.modCtx k (fun x => { x with run := .ended, exit := ((mget x.regs 0).getD 0).toNat % 2 ^ 16, wait := .none, pc := x.pc + len })).ctxDone k := by
    rw [State.seqEnd, if_neg (by rw [h]; decide)]
  have hctx (q : Nat) : (s.seqEnd k len).ctx q =
      (s.modCtx k (fun x => { x with run := .ended, exit := ((mget x.regs 0).getD 0).toNat % 2 ^ 16, wait := .none, pc := x.pc + len })).ctx q := by
    rw [he, ctxDone_frame]
    rfl
  have hmem : (s.seqEnd k len).mem = s.mem := by
    rw [he, ctxDone_frame]
    rfl
  have hself := hctx k
  rw [ctx_modCtx, if_pos rfl] at hself
  refine ⟨by rw [hself], by rw [hself], by rw [hself], hmem, fun q hq => ?_⟩
  rw [hctx, ctx_modCtx, if_neg (Ne.symm hq)]

theorem sequencerProgramEnds_of {i : Instr} {r : Raw} {body : State → State} (hi : Means i r body)
    (hbody : ∀ s k, s.agents = [.ctx k] → body s = if s.acts (.ctx k) r.x = 0 then s.advance (.ctx k) r.len.bytes else s.seqEnd k r.len.bytes)
    (s : State) (matrix : Bool) (c : CoreId) (h : OnCtx r s matrix c) :
    let k := ctxKey c matrix
    s.acts (.ctx k) r.x ≠ 0 → s.ctxBusy k = false →
    ∃ t, exec i s = .next t ∧ (t.ctx k).run = .ended ∧ (t.ctx k).exit = ((mget (s.ctx k).regs 0).getD 0).toNat % 2 ^ 16 ∧
      (t.ctx k).pc = (s.ctx k).pc + r.len.bytes ∧ t.mem = s.mem ∧ ∀ q, q ≠ k → t.ctx q = s.ctx q := by
  intro k hm hb
  have he := h.next (hi.exec s)
  rw [hbody s k h.agents, if_neg hm] at he
  exact ⟨_, he, seqEnd_ends hb⟩

/-- Settles O24: SEQEND, EXIT and KILL of a context are `seqEnd`. -/
theorem sequencerProgramEnds : Obligations.SequencerProgramEnds := by
  unfold Obligations.SequencerProgramEnds
  refine ⟨?seqend, ?exit, ?kill⟩
  case seqend =>
    exact both_of_means bodySeqend (fun _ => ⟨rfl, fun _ => rfl⟩) (fun _ => ⟨rfl, fun _ => rfl⟩) (fun i r _ hi =>
      sequencerProgramEnds_of hi (fun s k ha => by rw [bodySeqend, ha, foldS_cons, foldS_nil]))
  case exit =>
    exact both_of_means bodyExit (fun _ => ⟨rfl, fun _ => rfl⟩) (fun _ => ⟨rfl, fun _ => rfl⟩) (fun i r _ hi =>
      sequencerProgramEnds_of hi (fun s k ha => by rw [bodyExit, ha, foldS_cons, foldS_nil]))
  case kill =>
    exact both_of_means bodyKill (fun _ => ⟨rfl, fun _ => rfl⟩) (fun _ => ⟨rfl, fun _ => rfl⟩) (fun i r _ hi =>
      sequencerProgramEnds_of hi (fun s k ha => by rw [bodyKill, ha, foldS_cons, foldS_nil]))

end Sys2Proof.Machine

/-!
PROOFS. The memory hierarchy: reads and writes of bytes, caches and buffers change nothing of the machine but memory, caches and dies, and
keep the canonical form of memory.
-/
namespace Sys2Proof.Machine

/-- From s to t only the memory hierarchy has changed: memory, its hidden and poisoned bytes, cores and dies; memory stays canonical. -/
structure MemStep (s t : State) : Prop where
  frame : t = { s with mem := t.mem, hid := t.hid, poison := t.poison, cores := t.cores, dies := t.dies }
  inv : MemInv s → MemInv t

theorem MemStep.refl (s : State) : MemStep s s := ⟨rfl, id⟩

theorem MemStep.trans {s t w : State} (h : MemStep s t) (g : MemStep t w) : MemStep s w where
  frame := g.frame.trans (congrArg (fun v : State => { v with mem := w.mem, hid := w.hid, poison := w.poison, cores := w.cores, dies := w.dies }) h.frame)
  inv hs := g.inv (h.inv hs)

theorem MemStep.of_ite {c : Prop} [Decidable c] {s a b : State} (ha : c → MemStep s a) (hb : ¬ c → MemStep s b) : MemStep s (if c then a else b) :=
  iteInduction (motive := MemStep s) ha hb

theorem MemStep.foldS {α : Type} (f : α → State → State) (h : ∀ a s, MemStep s (f a s)) : ∀ (as : List α) (s : State), MemStep s (Machine.foldS f as s)
  | [], s => .refl s
  | a :: as, s => (h a s).trans (MemStep.foldS f h as (f a s))

section
variable {s t : State} (h : MemStep s t)
include h

theorem MemStep.teams : t.teams = s.teams := by rw [h.frame]
theorem MemStep.ctxs : t.ctxs = s.ctxs := by rw [h.frame]
theorem MemStep.mops : t.mops = s.mops := by rw [h.frame]
theorem MemStep.subs : t.subs = s.subs := by rw [h.frame]
theorem MemStep.tasks : t.tasks = s.tasks := by rw [h.frame]
theorem MemStep.cur : t.cur = s.cur := by rw [h.frame]
theorem MemStep.nextId : t.nextId = s.nextId := by rw [h.frame]
theorem MemStep.regs : t.regs = s.regs := by rw [h.frame]
theorem MemStep.team (u : Nat) : t.team u = s.team u := by rw [State.team, State.team, h.teams]
theorem MemStep.slice (u j : Nat) : t.slice u j = s.slice u j := slice_of_teams h.teams u j
theorem MemStep.ctx (k : Nat) : t.ctx k = s.ctx k := by rw [State.ctx, State.ctx, h.ctxs]

end

/-! ## Cores and dies -/

theorem modCore_memStep (s : State) (c : CoreId) (f : Core → Core) : MemStep s (s.modCore c f) := ⟨rfl, id⟩
theorem modDie_memStep (s : State) (d : Nat) (f : Die → Die) : MemStep s (s.modDie d f) := ⟨rfl, id⟩

/-! ## The home, the RDC and the L1 -/

theorem homeWrite_memStep (s : State) (pa : Nat) (bs : List Byte) : MemStep s (s.homeWrite pa bs) := ⟨rfl, homeWrite_inv pa bs⟩

theorem dieWrite_memStep (s : State) (die pa : Nat) (bs : List Byte) : MemStep s (s.dieWrite die pa bs) := by
  rw [State.dieWrite]
  exact .of_ite (fun _ => homeWrite_memStep s pa bs) (fun _ => (homeWrite_memStep s pa bs).trans (modDie_memStep _ _ _))

theorem dieWrites_memStep (s : State) (die pa : Nat) (bs : List Byte) : MemStep s (s.dieWrites die pa bs) :=
  .foldS _ (fun _ t => dieWrite_memStep t _ _ _) _ s

theorem rdcRead_memStep (s : State) (c : CoreId) (pa cache n : Nat) : MemStep s (s.rdcRead c pa cache n).2 := by
  simp only [State.rdcRead]
  split
  · exact .refl s
  · split
    · exact ⟨rfl, id⟩
    · split
      · split
        · exact .refl s
        · exact ⟨rfl, id⟩
      · exact ⟨rfl, id⟩

theorem rdcReads_memStep (c : CoreId) (cache : Nat) : ∀ (sp : List (Nat × Nat)) (s : State), MemStep s (s.rdcReads c cache sp).2
  | [], s => .refl s
  | (a, k) :: sp, s => (rdcRead_memStep s c a cache k).trans (rdcReads_memStep c cache sp _)

theorem engineRead_memStep (s : State) (c : CoreId) (pa cache n : Nat) : MemStep s (s.engineRead c pa cache n).2 := rdcReads_memStep c cache _ s

theorem maskedWrite_memStep (s : State) (die line : Nat) (data : BitVec 1024) (mask : BitVec 128) : MemStep s (s.maskedWrite die line data mask) := by
  have hw : MemStep s (if mask = BitVec.allOnes 128 then s.dieWrite die (128 * line) (lineBytes data 0 128)
      else s.lineWrites die line data ((List.range 128).filter (fun i => mask.getLsbD i))) :=
    .of_ite (fun _ => dieWrite_memStep s _ _ _) (fun _ => .foldS _ (fun _ t => dieWrite_memStep t _ _ _) _ s)
  rw [maskedWrite_eq]
  exact hw.trans ⟨rfl, id⟩

theorem l1Back_memStep (s : State) (c : CoreId) (line : Nat) : MemStep s (s.l1Back c line) := by
  rw [State.l1Back]
  split
  · exact .refl s
  · exact (maskedWrite_memStep s _ _ _ _).trans ⟨rfl, id⟩

theorem l1BackAll_memStep (s : State) (c : CoreId) : MemStep s (s.l1BackAll c) := .foldS _ (fun _ t => l1Back_memStep t _ _) _ s

theorem l1Drop_memStep (s : State) (c : CoreId) (line : Nat) : MemStep s (s.l1Drop c line) := (l1Back_memStep s c line).trans (modCore_memStep _ _ _)

theorem l1Room_memStep (s : State) (c : CoreId) : MemStep s (s.l1Room c) := by
  rw [State.l1Room]
  split
  · exact .refl s
  · exact .of_ite (fun _ => l1Drop_memStep s _ _) (fun _ => .refl s)

theorem l1Read_memStep (s : State) (c : CoreId) (pa cache n : Nat) (byp : Bool) : MemStep s (s.l1Read c pa cache n byp).2 := by
  simp only [State.l1Read]
  split
  · exact (l1Drop_memStep s c _).trans (rdcRead_memStep _ _ _ _ _)
  · split
    · exact rdcRead_memStep s _ _ _ _
    · split
      · exact .refl s
      · have hroom : MemStep s (if (mget (s.core c).l1 (pa / 128)).isNone then (s.rdcRead c (128 * (pa / 128)) cache 128).2.l1Room c
            else (s.rdcRead c (128 * (pa / 128)) cache 128).2) :=
          .of_ite (fun _ => (rdcRead_memStep s _ _ _ _).trans (l1Room_memStep _ _)) (fun _ => rdcRead_memStep s _ _ _ _)
        exact hroom.trans ⟨rfl, id⟩

theorem l1Reads_memStep (c : CoreId) (cache : Nat) : ∀ (sp : List (Nat × Nat)) (s : State), MemStep s (s.l1Reads c cache sp).2
  | [], s => .refl s
  | (a, k) :: sp, s => (l1Read_memStep s c a cache k false).trans (l1Reads_memStep c cache sp _)

theorem l1Write_memStep (s : State) (c : CoreId) (pa cache : Nat) (bs : List Byte) (byp : Bool) : MemStep s (s.l1Write c pa cache bs byp) := by
  rw [State.l1Write]
  refine .of_ite (fun _ => (l1Drop_memStep s c _).trans (dieWrite_memStep _ _ _ _)) (fun _ => .of_ite (fun _ => dieWrite_memStep s _ _ _) (fun _ => ?_))
  exact MemStep.trans (.of_ite (fun _ => l1Room_memStep s c) (fun _ => .refl s)) (modCore_memStep _ _ _)

theorem l1Writes_memStep (s : State) (c : CoreId) (pa cache : Nat) (bs : List Byte) : MemStep s (s.l1Writes c pa cache bs) :=
  .foldS _ (fun _ t => l1Write_memStep t _ _ _ _ _) _ s

theorem engineWrite_memStep (s : State) (c : CoreId) (pa : Nat) (bs : List Byte) : MemStep s (s.engineWrite c pa bs) :=
  ((MemStep.foldS _ (fun _ t => l1Back_memStep t _ _) _ s).trans (dieWrites_memStep _ _ _ _)).trans (.foldS _ (fun _ t => modCore_memStep t _ _) _ _)

/-! ## Releases, acquires and the write-combining buffer -/

theorem wcDrain_memStep (s : State) (c : CoreId) (p : WcEntry → Bool) : MemStep s (s.wcDrain c p) := modCore_memStep s c _

theorem releaseL1_memStep (s : State) (c : CoreId) (scope : Nat) : MemStep s (s.releaseL1 c scope) :=
  .of_ite (fun _ => l1BackAll_memStep s c) (fun _ => .refl s)

theorem acqStamp_memStep (s : State) (c : CoreId) : MemStep s (s.acqStamp c) :=
  .of_ite (fun _ => (modCore_memStep s _ _).trans (modDie_memStep _ _ _)) (fun _ => ⟨rfl, id⟩)

theorem acquire_memStep (s : State) (c : CoreId) (scope : Nat) : MemStep s (s.acquire c scope) :=
  .of_ite (fun _ => ((l1BackAll_memStep s c).trans (modCore_memStep _ _ _)).trans (acqStamp_memStep _ _)) (fun _ => .refl s)

/-- A release of a context moves nothing out of an L1. -/
def State.releaseOut (s : State) (a : Issuer) (scope : Nat) : State := match a with | .slice _ _ => s.releaseL1 (s.coreOf a) scope | .ctx _ => s

theorem release_eq (s : State) (a : Issuer) (scope : Nat) : s.release a scope =
    if s.unperformed a s.nextId then (false, s)
    else if scope = 6 ∧ !(s.releaseOut a scope).wcEmpty (s.coreOf a) then (false, (s.releaseOut a scope).wcDrain (s.coreOf a) (fun _ => true))
    else (true, s.releaseOut a scope) := by cases a <;> rfl

theorem release_memStep (s : State) (a : Issuer) (scope : Nat) : MemStep s (s.release a scope).2 := by
  have hout : MemStep s (s.releaseOut a scope) := by
    cases a with
    | slice u i => exact releaseL1_memStep s _ _
    | ctx k => exact .refl s
  rw [release_eq]
  split
  · exact .refl s
  · split
    · exact hout.trans (wcDrain_memStep _ _ _)
    · exact hout

/-- A release that has completed. -/
theorem release_of_eq {s s1 : State} {a : Issuer} {scope : Nat} {b : Bool} (h : s.release a scope = (b, s1)) : MemStep s s1 := by
  have hs := release_memStep s a scope
  rwa [h] at hs

/-! ## The context save area -/

theorem csaWrite_memStep {s s1 : State} {u off : Nat} {bs : List Byte} (h : s.csaWrite u off bs = .done s1) : MemStep s s1 := by
  rw [State.csaWrite] at h
  split at h
  · cases h
  · split at h
    · cases h
    · split at h
      · cases h
        exact engineWrite_memStep s _ _ _
      · cases h
      · cases h
      · cases h

end Sys2Proof.Machine

/-!
PROOFS. Taking a trap (R437, R441), the instructions that take one or are passed over, and the return from a handler (R452).
-/
namespace Sys2Proof.Machine

/-! ## Taking a trap -/

/-- A slice that enters the handler of the trap p at depth d. -/
def Slice.intoTrap (base d : Nat) (p : PTrap) (x : Slice) : Slice :=
  { x with depth := d, act := x.live, rejoin := [], region := [], pc := base + 64 * p.kind, wait := .none, barTok := .none,
           nwTok := .none, nwKept := match x.nwTok with | some m => mset x.nwKept d m | none => mdel x.nwKept d,
           rrTok := .none, gateSince := .none, waitCyc := 0, xf := [], starved := false, due := 0, yieldEnd := if p.kind = kHalt then 0 else x.yieldEnd,
           pend := x.pend.filter (· != p),
           haltFrames := if p.kind = kHalt then d :: x.haltFrames else x.haltFrames,
           restoring := if p.kind = kHalt then false else x.restoring,
           sfDue := if p.kind = kSfault then false else x.sfDue, sfCount := if p.kind = kSfault then 0 else x.sfCount, sfMask := if p.kind = kSfault then 0 else x.sfMask,
           sfVa := if p.kind = kSfault then 0 else x.sfVa }

/-- With a handler, room for a further level and a frame that can be written, the slice enters the handler (R437). -/
theorem takeTrapAt_done {s s1 : State} {u j fpc rpc : Nat} {tm : Team} {x : Slice} {p : PTrap} {nest restore : Bool} (ht : s.team u = some tm)
    (hx : s.slice u j = some x) (hbase : tm.vbase ≠ 0) (hcsa : tm.csa ≠ none) (hd : x.depth < 2 ∨ (x.depth = 2 ∧ p.kind = kHalt))
    (hw : s.csaWrite u (frameOff (x.depth + 1) j)
      (wordsToBytes (trapRecord p (x.depth + 1) fpc rpc (s.cyc tm.core.die) nest restore x.live ++ x.frameBody)) = .done s1) :
    s.takeTrapAt u j p fpc rpc nest restore = (s1.frameResults u j (x.depth + 1)).modSlice u j (Slice.intoTrap tm.vbase (x.depth + 1) p) := by
  have hgo : ¬ (tm.vbase = 0 ∨ tm.csa = none ∨ x.depth + 1 = 4 ∨ (x.depth + 1 = 3 ∧ p.kind ≠ kHalt)) := by
    rintro (h | h | h | ⟨h1, h2⟩)
    · exact hbase h
    · exact hcsa h
    · omega
    · rcases hd with hd | ⟨_, hk⟩
      · omega
      · exact h2 hk
  rw [State.takeTrapAt, ht, hx]
  simp only [if_neg hgo, hw]
  rfl

theorem frameResults_slice (s : State) (u i d v k : Nat) : (s.frameResults u i d).slice v k = s.slice v k := rfl

/-- An instruction whose slice takes a trap, its frame written. -/
theorem ends_takeTrapAt {i : Instr} {s s1 : State} {u j fpc rpc : Nat} {tm : Team} {x : Slice} {p : PTrap} {nest restore : Bool} {P : Slice → Prop}
    (he : exec i s = .next (s.takeTrapAt u j p fpc rpc nest restore)) (ht : s.team u = some tm) (hx : s.slice u j = some x) (hbase : tm.vbase ≠ 0)
    (hcsa : tm.csa ≠ none) (hd : x.depth < 2 ∨ (x.depth = 2 ∧ p.kind = kHalt))
    (hw : s.csaWrite u (frameOff (x.depth + 1) j)
      (wordsToBytes (trapRecord p (x.depth + 1) fpc rpc (s.cyc tm.core.die) nest restore x.live ++ x.frameBody)) = .done s1)
    (hP : P (x.intoTrap tm.vbase (x.depth + 1) p)) : Ends i s (s1.frameResults u j (x.depth + 1)) u j P := by
  rw [takeTrapAt_done ht hx hbase hcsa hd hw] at he
  exact ends_modSlice he (((csaWrite_memStep hw).slice u j).trans hx) hP

/-! ## Instructions without an acting lane -/

/-- Without an acting lane nothing is taken over. -/
theorem takeOver_none (s : State) (a : Issuer) : s.takeOver a [] 0 = s := by
  have hops : (s.takeOver a [] 0).mops = s.mops := by simp [State.takeOver]
  have hsubs : (s.takeOver a [] 0).subs = s.subs := by
    simp only [State.takeOver, mask_zero_lane, Bool.false_eq_true, and_false, if_false]
    refine (List.map_congr_left fun b _ => ?_).trans (List.map_id _)
    split <;> rfl
  show { s with mops := (s.takeOver a [] 0).mops, subs := (s.takeOver a [] 0).subs } = s
  rw [hops, hsubs]

theorem free_nil (x : Slice) : x.free [] = x := by
  show { x with names := x.names.filter (fun _ => true) } = x
  rw [List.filter_eq_self.mpr fun _ _ => rfl]

/-- A commit that frees and writes nothing moves the PC alone. -/
theorem commit_zero {s : State} {r : Raw} {u j : Nat} (hfree : rawFrees r = []) (hm : s.acts (.slice u j) r.x = 0) :
    s.commit r (.slice u j) 0 .none (fun _ => {}) = s.advance (.slice u j) r.len.bytes := by
  have hroom : s.room (.slice u j) r = true := by
    show (s.acts (.slice u j) r.x == 0 || _) = true
    rw [hm]
    rfl
  have hres (x : Slice) : x.result r 0 .none (fun _ => {}) = x := by
    simp only [Slice.result, hfree, free_nil, ODst.isReg, ODst.pred?, Bool.not_false, true_or, if_true]
    rw [four_upd_self x.fstk 0 _ (fun l => by simp), four_upd_self x.srcnt 0 _ (fun l => by simp)]
  rw [commit_of_room s r _ _ _ _ hroom]
  show (s.takeOver (.slice u j) [] 0).modSlice u j (fun x => (x.result r 0 .none (fun _ => {})).stepped r.len.bytes) = _
  simp only [takeOver_none, hres]
  rfl

/-- What eachSlice does to a slice that issues alone. -/
theorem eachSlice_alone {r : Raw} {s : State} {u j : Nat} {x : Slice} (h : Alone r s u j x) (f : Nat → Nat → Mask → State → State) :
    eachSlice s r f = if s.acts (.slice u j) r.x = 0 then s.commit r (.slice u j) 0 .none (fun _ => {}) else f u j (s.acts (.slice u j) r.x) s := by
  rw [eachSlice, h.agents]
  rfl

/-- No source of an operation is a name that could be marked last-read (R144). -/
theorem rawFrees_of_fields {r : Raw} (ha : ∀ f l s, lastNames (shapeOf r.op r.len r.x).a f l s = []) (hb : ∀ f l s, lastNames (shapeOf r.op r.len r.x).b f l s = [])
    (hc : ∀ f l s, lastNames (shapeOf r.op r.len r.x).c f l s = []) : rawFrees r = [] := by
  simp only [rawFrees, ha, hb, hc, List.flatten_cons, List.flatten_nil, List.append_nil]

theorem lastNames_none (f : Nat) (l : Bool) (s : Sel) : lastNames .none f l s = [] := by cases l <;> rfl
theorem lastNames_field (f : Nat) (l : Bool) (s : Sel) : lastNames .field f l s = [] := by cases l <;> rfl

/-- TRAP, GKILL, TRIGGER and DRAINST read no name. -/
theorem rawFrees_noNames {r : Raw} (h : r.op = .trap ∨ r.op = .gkill ∨ r.op = .trigger ∨ r.op = .drainst) : rawFrees r = [] := by
  rcases h with h | h | h | h
  · exact rawFrees_of_fields (by rw [h]; exact lastNames_field) (by rw [h]; exact lastNames_field) (by rw [h]; exact lastNames_none)
  · exact rawFrees_of_fields (by rw [h]; exact lastNames_none) (by rw [h]; exact lastNames_none) (by rw [h]; exact lastNames_none)
  · exact rawFrees_of_fields (by rw [h]; exact lastNames_none) (by rw [h]; exact lastNames_none) (by rw [h]; exact lastNames_none)
  · exact rawFrees_of_fields (by rw [h]; exact lastNames_none) (by rw [h]; exact lastNames_none) (by rw [h]; exact lastNames_none)

/-- An instruction over slices passes over one without an acting lane. -/
theorem eachSlice_skips {i : Instr} {r : Raw} {f : State → Nat → Nat → Mask → State → State} (hi : Means i r (fun s => eachSlice s r (f s)))
    (hfree : rawFrees r = []) {s : State} {u j : Nat} {x : Slice} (h : Alone r s u j x) (hm : s.acts (.slice u j) r.x = 0) :
    Ends i s s u j (fun y => y = x.stepped r.len.bytes) := by
  have he := h.next (hi.exec s)
  simp only [eachSlice_alone h, if_pos hm, commit_zero hfree hm] at he
  exact ends_advance he h.slice

/-! ## TRAP and BKPT -/

/-- The trap of TRAP (cause 0) and BKPT (cause 1). -/
def instrTrap (kind cause : Nat) (r : Raw) (m : Mask) : PTrap := { kind := kind, cause := cause, amask := m, aux := trapCode r.x }

/-- TRAP of a lone slice whose lanes act and which awaits nothing. -/
theorem bodyTrap_alone {r : Raw} {s : State} {u j : Nat} {x : Slice} (h : Alone r s u j x) (hm : s.acts (.slice u j) r.x ≠ 0)
    (haw : s.awaits (.slice u j) = false) :
    bodyTrap r s = s.takeTrapAt u j (instrTrap kTrapi 0 r (s.acts (.slice u j) r.x)) x.pc (x.pc + r.len.bytes) false false := by
  rw [bodyTrap, eachSlice_alone h, if_neg hm, if_neg (by rw [haw]; decide), h.sl]
  rfl

/-- BKPT is taken in a slice: a lane acts, outside a handler, and it is not masked (R465). -/
def State.breaks (s : State) (r : Raw) (u j : Nat) : Bool := s.acts (.slice u j) r.x != 0 && (s.sl u j).depth == 0 && !s.masks u kBkpt

theorem bodyBkpt_alone {r : Raw} {s : State} {u j : Nat} {x : Slice} (h : Alone r s u j x) (haw : s.breaks r u j = true → s.awaits (.slice u j) = false) :
    bodyBkpt r s = if s.breaks r u j
      then s.takeTrapAt u j (instrTrap kBkpt 1 r (s.acts (.slice u j) r.x)) x.pc (x.pc + r.len.bytes) false false
      else s.advance (.slice u j) r.len.bytes := by
  rw [bodyBkpt, h.agents]
  simp only [List.any_cons, List.any_nil, Bool.or_false, foldS_cons, foldS_nil]
  show (if !s.breaks r u j then _ else if s.breaks r u j && s.awaits (.slice u j) then _ else _) = _
  cases hb : s.breaks r u j with
  | false => rfl
  | true =>
    rw [haw hb, h.sl]
    rfl

/-- TRAP or BKPT of a slice that meets the conditions of R437 enters its handler. -/
theorem enters_of {kind cause : Nat} {i : Instr} {r : Raw} {body : State → State} (hi : Means i r body)
    (hbody : ∀ s u j x, Alone r s u j x → s.acts (.slice u j) r.x ≠ 0 → s.awaits (.slice u j) = false → (kind = kBkpt → x.depth = 0 ∧ s.masks u kBkpt = false) →
      body s = s.takeTrapAt u j (instrTrap kind cause r (s.acts (.slice u j) r.x)) x.pc (x.pc + r.len.bytes) false false)
    (s : State) (u j : Nat) (x : Slice) (tm : Team) (s1 : State) (h : Alone r s u j x) (ht : s.team u = some tm) :
    let m := s.acts (.slice u j) r.x
    m ≠ 0 → s.awaits (.slice u j) = false → x.depth < 2 → tm.vbase ≠ 0 → tm.csa ≠ none →
    (kind = kBkpt → x.depth = 0 ∧ s.masks u kBkpt = false) →
    s.csaWrite u (frameOff (x.depth + 1) j) (wordsToBytes (trapRecord { kind := kind, cause := cause, amask := m, aux := r.x.a.toNat * 2 ^ 7 + r.x.b.toNat }
      (x.depth + 1) x.pc (x.pc + r.len.bytes) (s.cyc tm.core.die) false false x.live ++ x.frameBody)) = .done s1 →
    Ends i s (s1.frameResults u j (x.depth + 1)) u j (fun y => y.pc = bits tm.trapBase.toNat 56 12 * 4096 + 64 * kind ∧ y.depth = x.depth + 1 ∧ y.act = x.live ∧ y.rejoin = [] ∧
      y.region = [] ∧ y.names = x.names ∧ y.preds = x.preds ∧ y.fstk = x.fstk ∧ y.live = x.live) := by
  intro m hm haw hd hbase hcsa hbk hw
  have he := h.next (hi.exec s)
  rw [hbody s u j x h hm haw hbk] at he
  exact ends_takeTrapAt he ht h.slice hbase hcsa (.inl hd) hw ⟨rfl, rfl, rfl, rfl, rfl, rfl, rfl, rfl, rfl⟩

/-- Settles O25: TRAP and BKPT take their trap through `takeTrapAt`; the others are passed over by `eachSlice`. -/
theorem trapEntrySavesFrame : Obligations.TrapEntrySavesFrame := by
  unfold Obligations.TrapEntrySavesFrame
  refine ⟨?trap, ?bkpt, ?bkptOver, ?trapOver, ?gkillOver, ?triggerOver, ?drainstOver⟩
  case trap =>
    exact both_of_means bodyTrap (fun _ => ⟨rfl, fun _ => rfl⟩) (fun _ => ⟨rfl, fun _ => rfl⟩) (fun i r _ hi =>
      enters_of hi (fun s u j x h hm haw _ => bodyTrap_alone h hm haw))
  case bkpt =>
    refine both_of_means bodyBkpt (fun _ => ⟨rfl, fun _ => rfl⟩) (fun _ => ⟨rfl, fun _ => rfl⟩) (fun i r _ hi =>
      enters_of hi (fun s u j x h hm haw hbk => ?_))
    obtain ⟨hd, hmask⟩ := hbk rfl
    have hb : s.breaks r u j = true := by
      rw [State.breaks, bne_iff_ne.mpr hm, h.sl, hd, hmask]
      rfl
    rw [bodyBkpt_alone h (fun _ => haw), if_pos hb]
  case bkptOver =>
    refine both_of_means bodyBkpt (fun _ => ⟨rfl, fun _ => rfl⟩) (fun _ => ⟨rfl, fun _ => rfl⟩) (fun i r _ hi s u j x h hover => ?_)
    have hb : s.breaks r u j = false := by
      rw [State.breaks, h.sl]
      rcases hover with hm | hd | hk
      · simp [hm]
      · simp [hd]
      · simp [hk]
    have he := h.next (hi.exec s)
    rw [bodyBkpt_alone h (fun ht => by rw [hb] at ht; cases ht), if_neg (by rw [hb]; decide)] at he
    exact ends_advance he h.slice
  case trapOver =>
    exact both_of_means bodyTrap (fun _ => ⟨rfl, fun _ => rfl⟩) (fun _ => ⟨rfl, fun _ => rfl⟩) (fun i r hop hi s u j x h hm =>
      eachSlice_skips hi (rawFrees_noNames (.inl hop)) h hm)
  case gkillOver =>
    exact both_of_means bodyGkill (fun _ => ⟨rfl, fun _ => rfl⟩) (fun _ => ⟨rfl, fun _ => rfl⟩) (fun i r hop hi s u j x h hm =>
      eachSlice_skips hi (rawFrees_noNames (.inr (.inl hop))) h hm)
  case triggerOver =>
    exact both_of_means bodyTrigger (fun _ => ⟨rfl, fun _ => rfl⟩) (fun _ => ⟨rfl, fun _ => rfl⟩) (fun i r hop hi s u j x h hm =>
      eachSlice_skips hi (rawFrees_noNames (.inr (.inr (.inl hop)))) h hm)
  case drainstOver =>
    refine both_of_means bodyDrainst (fun _ => ⟨rfl, fun _ => rfl⟩) (fun _ => ⟨rfl, fun _ => rfl⟩) (fun i r hop hi s u j x h hover => ?_)
    by_cases hm : s.acts (.slice u j) r.x = 0
    · exact eachSlice_skips hi (rawFrees_noNames (.inr (.inr (.inr hop)))) h hm
    · obtain ⟨hst, hsf⟩ := hover.resolve_left hm
      have he := h.next (hi.exec s)
      rw [bodyDrainst, eachSlice_alone h, if_neg hm, if_neg (by rw [hst]; decide), if_neg (by rw [h.sl, hsf]; decide)] at he
      exact ends_advance he h.slice

/-! ## RETT -/

/-- RETT's reload of the lone slice that x describes, before R174. -/
theorem reload_normalize {s : State} {u j : Nat} {x : Slice} (hx : s.slice u j = some x) (f : Slice → Slice) :
    (s.modSlice u j f).normalize u j = (s.modSlice u j (fun _ => f x)).normalize u j := by
  have hf : (s.modSlice u j f).slice u j = some (f x) := by
    rw [slice_modSlice, if_pos ⟨rfl, rfl⟩, hx]
    rfl
  have hc : (s.modSlice u j (fun _ => f x)).slice u j = some (f x) := by
    rw [slice_modSlice, if_pos ⟨rfl, rfl⟩, hx]
    rfl
  rw [State.normalize, State.normalize, hf, hc]
  simp only [modSlice_modSlice]

section
variable {s : State} {u j pa cache st : Nat} {x : Slice} {tm : Team} (hx : s.sl u j = x) (ht : s.team u = some tm)
  (hst : s.storesOf (.slice u j) 0xF s.nextId = false)
  (htr : s.translate { asid := s.asidOf u, core := tm.core, priv := true } (tm.csa.getD 0 + frameOff x.depth j) accRead 0 = .ok pa cache st)
  (hok : frameOk (bytesToWords (s.l1Reads tm.core cache (spans 1025 pa 1024)).1) = true)
include hx ht hst htr hok

/-- RETT of a slice whose frame can be read and is good, with nothing owed to it and room for its names. -/
theorem rettOne_reloads (howes : s.frameOwes u j x.depth = false ∧ s.owes u = false)
    (hroom : x.heldAfter (List.range 8) ((List.range 8).filter (bitAt ((bytesToWords (s.l1Reads tm.core cache (spans 1025 pa 1024)).1).getD 13 0))) ≤
      (s.l1Reads tm.core cache (spans 1025 pa 1024)).2.ceilOf u) :
    s.rettOne u j false = (((s.l1Reads tm.core cache (spans 1025 pa 1024)).2.takeOver (.slice u j) (List.range 8) 0xF).modSlice u j
      (fun x => x.reload (bytesToWords (s.l1Reads tm.core cache (spans 1025 pa 1024)).1))).normalize u j := by
  obtain ⟨howes, hare⟩ := howes
  rw [State.rettOne]
  simp only [hx, ht, hst, howes, hare, htr, hok, Bool.false_eq_true, or_self, and_false, false_and, if_false, Bool.not_true,
    Bool.not_false, true_and, if_neg (Nat.not_lt.mpr hroom)]

/-- RETT.h of a slice whose frame is that of a HALT, its release complete. -/
theorem rettOne_parks (hk : bits ((bytesToWords (s.l1Reads tm.core cache (spans 1025 pa 1024)).1).getD 0 0) 63 56 = kHalt)
    (hrel : ((s.l1Reads tm.core cache (spans 1025 pa 1024)).2.release (.slice u j) 5).1 = true) :
    s.rettOne u j true = ((s.l1Reads tm.core cache (spans 1025 pa 1024)).2.release (.slice u j) 5).2.modSlice u j
      (fun x => { x with parked := true, wait := .none }) := by
  rw [State.rettOne]
  simp only [hx, ht, hst, htr, hok, hk, ne_eq, not_true_eq_false, and_false, Bool.false_eq_true, false_and, or_self, if_false, Bool.not_true,
    if_true, hrel]

end

/-- Settles O26: RETT reloads the slice through `rettOne_reloads`, RETT.h parks it through `rettOne_parks`. -/
theorem rettReloadsFrame : Obligations.RettReloadsFrame := by
  unfold Obligations.RettReloadsFrame
  refine ⟨?rett, ?halt⟩
  case rett =>
    intro s u j x tm pa cache st h ht hst htr got hok howes hare hroom
    have hread : MemStep s got.2 := l1Reads_memStep tm.core cache _ s
    have he : exec .rett s = .next (bodyRett false s) := h.next rfl
    rw [he, bodyRett, h.agents]
    show Host.Outcome.next (s.rettOne u j false) = _
    rw [rettOne_reloads h.sl ht hst htr hok ⟨howes, hare⟩ hroom,
      reload_normalize (s := got.2.takeOver (.slice u j) (List.range 8) 0xF) (x := x) ((hread.slice u j).trans h.slice)]
  case halt =>
    intro s u j x tm pa cache st h ht hst htr got hok hk hrel
    have hread : MemStep s got.2 := l1Reads_memStep tm.core cache _ s
    have hslice : (got.2.release (.slice u j) 5).2.slice u j = some x :=
      (((release_memStep _ _ _).slice u j).trans (hread.slice u j)).trans h.slice
    have he : exec .rettH s = .next (bodyRett true s) := h.next rfl
    refine ends_modSlice (f := fun x => { x with parked := true, wait := .none }) ?_ hslice rfl
    rw [he, bodyRett, h.agents]
    show Host.Outcome.next (s.rettOne u j true) = _
    rw [rettOne_parks h.sl ht hst htr hok hk hrel]

/-! ## TRIGGER and GKILL -/

/-- The slices after every lane of one has ended. -/
theorem slice_killSlice (s : State) (u i v k : Nat) : (s.killSlice u i).slice v k = if v = u ∧ k = i then none else s.slice v k := by
  let s1 := (s.dropWrites u i 0xF false).modTeam u (fun t => { t with counted := t.counted ||| laneSet i 0xF })
  let w := ((s1.sliceEnd u i).settleBars u).settleLevels u
  have hs1 : s1.slice v k = s.slice v k := slice_modTeam (s.dropWrites u i 0xF false) u (fun t => { t with counted := t.counted ||| laneSet i 0xF }) (fun _ => rfl) v k
  have hw : w.slice v k = (s1.sliceEnd u i).slice v k := (settleLevels_slice _ u v k).trans (settleBars_slice _ u v k)
  have hend : (s.killSlice u i).slice v k = w.slice v k := by
    show (match w.team u with | some t => w.earlyRelease t.task | none => w : State).slice v k = _
    cases w.team u with
    | none => rfl
    | some t => exact slice_of_teams (earlyRelease_teams w _) v k
  rw [hend, hw, slice_sliceEnd, hs1]

theorem slice_killSlices (u v k : Nat) : ∀ (is : List Nat) (s : State),
    (foldS (fun j t => t.killSlice u j) is s).slice v k = if v = u ∧ k ∈ is then none else s.slice v k
  | [], s => by simp
  | i :: is, s => by
    rw [foldS_cons, slice_killSlices u v k is, slice_killSlice]
    by_cases hk : k = i
    · subst hk
      by_cases hv : v = u <;> simp [hv]
    · simp [hk]

/-- The slices of a team that stand in the home gang of one. -/
def Team.homeOf (t : Team) (i : Nat) : List Nat := (t.slices.map (·.1)).filter (fun j => j / 8 == i / 8)

theorem mget_none_of_key {α : Type} (m : Map α) (k : Nat) (h : k ∉ m.map (·.1)) : mget m k = none := by
  induction m with
  | nil => rfl
  | cons p m ih =>
    obtain ⟨a, v⟩ := p
    simp only [List.map_cons, List.mem_cons, not_or] at h
    rw [mget, if_neg (Ne.symm h.1), ih h.2]

/-- GKILL of a lone slice ends its home gang (R454). -/
theorem gkill_ends {s : State} {u j : Nat} {tm : Team} (ht : s.team u = some tm) :
    let t := foldS (fun j t => t.killSlice u j) (tm.homeOf j) s
    (∀ k, k / 8 = j / 8 → t.slice u k = none) ∧ ∀ v k, v ≠ u ∨ k / 8 ≠ j / 8 → t.slice v k = s.slice v k := by
  intro t
  refine ⟨fun k hk => ?_, fun v k hv => ?_⟩
  · show (foldS _ _ s).slice u k = none
    rw [slice_killSlices]
    by_cases hmem : k ∈ tm.homeOf j
    · rw [if_pos ⟨rfl, hmem⟩]
    · rw [if_neg (fun h => hmem h.2), State.slice, ht]
      refine mget_none_of_key _ _ (fun hkey => hmem ?_)
      exact List.mem_filter.mpr ⟨hkey, beq_iff_eq.mpr hk⟩
  · show (foldS _ _ s).slice v k = _
    rw [slice_killSlices, if_neg]
    rintro ⟨rfl, hmem⟩
    have hk := beq_iff_eq.mp (List.mem_filter.mp hmem).2
    rcases hv with hv | hv
    · exact hv rfl
    · exact hv hk

end Sys2Proof.Machine

/-!
PROOFS. TRIGGER, GKILL and RRCHK (R454, R477, R488): the log is written beside the machine's agents.
-/
namespace Sys2Proof.Machine

/-! ## The log (R473) -/

/-- From s to t only the memory hierarchy and the model's record of the tasks' logs have changed. -/
structure LogStep (s t : State) : Prop where
  frame : t = { s with mem := t.mem, hid := t.hid, poison := t.poison, cores := t.cores, dies := t.dies, tasks := t.tasks }
  cards : ∀ n, (t.task n).map Task.card = (s.task n).map Task.card
  inv : MemInv s → MemInv t

theorem LogStep.refl (s : State) : LogStep s s := ⟨rfl, fun _ => rfl, id⟩

theorem LogStep.trans {s t w : State} (h : LogStep s t) (g : LogStep t w) : LogStep s w where
  frame := g.frame.trans (congrArg (fun v : State =>
    { v with mem := w.mem, hid := w.hid, poison := w.poison, cores := w.cores, dies := w.dies, tasks := w.tasks }) h.frame)
  cards n := (g.cards n).trans (h.cards n)
  inv hs := g.inv (h.inv hs)

theorem LogStep.of_memStep {s t : State} (h : MemStep s t) : LogStep s t where
  frame := h.frame.trans (by rw [h.tasks])
  cards n := by rw [State.task, State.task, h.tasks]
  inv := h.inv

theorem modTask_logStep (s : State) (n : Nat) (f : Task → Task) (hf : ∀ k, (f k).card = k.card) : LogStep s (s.modTask n f) where
  frame := rfl
  cards m := by
    rw [State.task, State.task, State.modTask, mget_mupd]
    split
    · cases mget s.tasks m with
      | none => rfl
      | some k => exact congrArg some (hf k)
    · rfl
  inv := id

theorem put_logStep (L : Log) (serial : Nat) (c : CoreId) (off n v : Nat) : LogStep L.s (L.put serial c off n v).s := by
  rw [Log.put]
  split
  · exact .refl _
  · simp only
    split
    · exact .of_memStep (homeWrite_memStep _ _ _)
    · exact .refl _
    · exact .refl _

theorem foldl_logStep {α : Type} (f : Log → α → Log) (h : ∀ L a, LogStep L.s (f L a).s) : ∀ (as : List α) (L : Log), LogStep L.s (as.foldl f L).s
  | [], L => .refl L.s
  | a :: as, L => (h L a).trans (foldl_logStep f h as (f L a))

/-- An entry written into a chunk, and the chunk's header. -/
def Log.writeEntry (L : Log) (serial : Nat) (c : CoreId) (st base : Nat) (ws : List Nat) (j n : Nat) : Log :=
  (((List.range ws.length).zip ws).foldl (fun (L : Log) p => L.put serial c (chunkOff j + base + 8 * ws.length * n + 8 * p.1) 8 p.2) L).put serial c
    (chunkOff j) 8 (noChunk * 2 ^ 32 + st * 2 ^ 16 + (n + 1))

theorem writeEntry_logStep (L : Log) (serial : Nat) (c : CoreId) (st base : Nat) (ws : List Nat) (j n : Nat) :
    LogStep L.s (L.writeEntry serial c st base ws j n).s :=
  (foldl_logStep _ (fun L _ => put_logStep L _ _ _ _ _) _ L).trans (put_logStep _ _ _ _ _ _)

theorem append_logStep (L : Log) (serial : Nat) (c : CoreId) (st base cap : Nat) (ws : List Nat) : LogStep L.s (L.append serial c st base cap ws).s := by
  rw [Log.append]
  split
  · exact .refl _
  · next k _ =>
    simp only
    split
    · exact .refl _
    · split
      · exact (writeEntry_logStep L serial c st base ws _ _).trans (modTask_logStep _ _ _ (fun _ => rfl))
      · split
        · exact (put_logStep L _ _ _ _ _).trans (modTask_logStep _ _ _ (fun _ => rfl))
        · refine LogStep.trans ?_ ((put_logStep _ _ _ _ _ _).trans (modTask_logStep _ _ _ (fun _ => rfl)))
          refine (writeEntry_logStep L serial c st base ws k.nextChunk 0).trans ?_
          split
          · exact put_logStep _ _ _ _ _ _
          · exact put_logStep _ _ _ _ _ _

/-- What the log says to a checkpoint that passes. -/
theorem rrLog_pass {s s1 : State} {u j : Nat} {h : DWord} (hp : s.rrLog u j h = .pass s1) : LogStep s s1 := by
  rw [State.rrLog] at hp
  split at hp
  · simp only at hp
    split at hp
    · split at hp
      · cases hp
      · cases hp
        exact append_logStep { s := s } _ _ _ _ _ _
    · split at hp
      · split at hp
        · cases hp
        · split at hp
          · cases hp
          · split at hp
            · cases hp
              exact modTask_logStep s _ _ (fun _ => rfl)
            · cases hp
      · cases hp
        exact .refl s
  · cases hp
    exact .refl s

/-! ## What a log leaves of the agents -/

theorem LogStep.slice {s t : State} (h : LogStep s t) (u j : Nat) : t.slice u j = s.slice u j := slice_of_teams (by rw [h.frame]) u j

theorem LogStep.ceilOf {s t : State} (h : LogStep s t) (u : Nat) : t.ceilOf u = s.ceilOf u := by
  have hteam : t.team u = s.team u := by rw [State.team, State.team, h.frame]
  have hceil (w : State) : w.ceilOf u = (((w.team u).bind (fun tm => (w.task tm.task).map Task.card)).map (fun card => bits (cardWord card 8) 20 13)).getD 128 := by
    rw [State.ceilOf, State.taskOf]
    cases w.team u with
    | none => rfl
    | some tm =>
      show (match w.task tm.task with | some t => t.ceil | none => 128) = (((w.task tm.task).map Task.card).map _).getD 128
      cases w.task tm.task <;> rfl
  have hcard : (fun tm : Team => (t.task tm.task).map Task.card) = fun tm => (s.task tm.task).map Task.card := funext fun tm => h.cards tm.task
  rw [hceil, hceil, hteam, hcard]

theorem LogStep.room {s t : State} (h : LogStep s t) (u j : Nat) (r : Raw) : t.room (.slice u j) r = s.room (.slice u j) r := by
  have hsl : t.sl u j = s.sl u j := by rw [State.sl, State.sl, h.slice]
  show (t.acts (.slice u j) r.x == 0 || decide ((t.sl u j).heldAfter _ _ ≤ t.ceilOf u)) = (s.acts (.slice u j) r.x == 0 || decide ((s.sl u j).heldAfter _ _ ≤ s.ceilOf u))
  rw [acts_of_slice (h.slice u j), h.ceilOf, hsl]

/-! ## TRIGGER, GKILL, RRCHK -/

/-- RRCHK returns the hash of what has contributed, once nothing earlier is open and the log lets it pass. -/
theorem rrchk_ends {i : Instr} {r : Raw} (hop : r.op = .rrchk) (hi : Means i r (bodyRrchk r)) {s s1 : State} {u j : Nat} {x : Slice} {tm : Team}
    (h : Alone r s u j x) (ht : s.team u = some tm) (hm : s.acts (.slice u j) r.x ≠ 0) (hroom : s.room (.slice u j) r = true)
    (haw : s.awaits (.slice u j) = false) (hbusy : s.hashBusy u (x.rrTok.getD s.nextId) = false)
    (hlog : s.rrLog u j ((tm.late.filter (fun p => decide (x.rrTok.getD s.nextId ≤ p.1))).foldl (fun h p => h - p.2) tm.sthash) = .pass s1) :
    Ends i s s1 u j (SliceGot r (s.acts (.slice u j) r.x) .reg
      (fun _ => { val := ((tm.late.filter (fun p => decide (x.rrTok.getD s.nextId ≤ p.1))).foldl (fun h p => h - p.2) tm.sthash).toNat }) x) := by
  have hstep := rrLog_pass hlog
  have hd : OneDest r .reg := oneDest_of_shape r .reg ⟨true, by rw [hop]; rfl⟩
  refine ends_commit hi.raw h.agents ?_ ((hstep.slice u j).trans h.slice) ((hstep.room u j r).trans hroom) hd
    (fun id hn => by rw [hstep.frame]; exact hn) (by rw [hstep.frame])
  rw [h.next (hi.exec s), bodyRrchk, eachSlice_alone h, if_neg hm, State.rrchkOne]
  simp only [hroom, h.sl, hbusy, haw, ht, hlog, Bool.not_true, Bool.false_eq_true, if_false]

/-- Settles O27: TRIGGER begins a release, GKILL is `killSlice` over the home gang, RRCHK commits the hash. -/
theorem triggerGkillRrchkEffects : Obligations.TriggerGkillRrchkEffects := by
  unfold Obligations.TriggerGkillRrchkEffects
  refine ⟨?trigger, ?gkill, ?rrchk⟩
  case trigger =>
    refine both_of_means bodyTrigger (fun _ => ⟨rfl, fun _ => rfl⟩) (fun _ => ⟨rfl, fun _ => rfl⟩) (fun i r _ hi s u j x h hm => ?_)
    have he := h.next (hi.exec s)
    rw [bodyTrigger, eachSlice_alone h, if_neg hm] at he
    exact ends_advance he ((slice_modTeam s u (fun t => { t with marking := t.marking ++ [(j, s.acts (.slice u j) r.x, s.nextId)] }) (fun _ => rfl) u j).trans h.slice)
  case gkill =>
    refine both_of_means bodyGkill (fun _ => ⟨rfl, fun _ => rfl⟩) (fun _ => ⟨rfl, fun _ => rfl⟩) (fun i r _ hi s u j x h hm => ?_)
    obtain ⟨tm, ht⟩ : ∃ tm, s.team u = some tm := by
      cases ht : s.team u with
      | none => exact absurd h.slice (by rw [State.slice, ht]; exact nofun)
      | some tm => exact ⟨tm, rfl⟩
    have he := h.next (hi.exec s)
    rw [bodyGkill, eachSlice_alone h, if_neg hm] at he
    simp only [ht] at he
    exact ⟨_, he, gkill_ends ht⟩
  case rrchk =>
    exact both_of_means bodyRrchk (fun _ => ⟨rfl, fun _ => rfl⟩) (fun _ => ⟨rfl, fun _ => rfl⟩)
      (fun i r hop hi s u j x tm s1 h ht hm hroom haw hbusy hlog => rrchk_ends hop hi h ht hm hroom haw hbusy hlog)

end Sys2Proof.Machine

/-!
PROOFS. Fences and named barriers (R373 to R377, R382).
-/
namespace Sys2Proof.Machine

/-! ## Changes that no agent sees -/

/-- From s to t no slice and no context has changed, and no operation or submission has been added. -/
structure AgentsKept (s t : State) : Prop where
  ops : ∀ id, mget s.mops id = none → mget t.mops id = none
  subs : t.subs.length = s.subs.length
  slice : ∀ u j, t.slice u j = s.slice u j
  ctx : ∀ k, t.ctx k = s.ctx k

theorem AgentsKept.refl (s : State) : AgentsKept s s := ⟨fun _ h => h, rfl, fun _ _ => rfl, fun _ => rfl⟩

theorem AgentsKept.trans {s t w : State} (h : AgentsKept s t) (g : AgentsKept t w) : AgentsKept s w where
  ops id hn := g.ops id (h.ops id hn)
  subs := g.subs.trans h.subs
  slice u j := (g.slice u j).trans (h.slice u j)
  ctx k := (g.ctx k).trans (h.ctx k)

theorem MemStep.agentsKept {s t : State} (h : MemStep s t) : AgentsKept s t where
  ops id hn := by rw [h.mops]; exact hn
  subs := by rw [h.subs]
  slice := h.slice
  ctx := h.ctx

theorem AgentsKept.of_ite {c : Prop} [Decidable c] {s a b : State} (ha : c → AgentsKept s a) (hb : ¬ c → AgentsKept s b) : AgentsKept s (if c then a else b) :=
  iteInduction (motive := AgentsKept s) ha hb

/-- A team of whose scratchpad the writes that satisfy p are published. -/
def Team.publish (p : Unpub → Bool) (t : Team) : Team :=
  { t with hid := t.hid.filterMap (fun e => ((e.2.mark p).settle (fun _ => false) (fun _ => false)).map (fun h => (e.1, h))) }

theorem team_publish (s : State) (p : Unpub → Bool) (u : Nat) : (s.publish p).team u = (s.team u).map (Team.publish p) :=
  mget_map s.teams (fun t => t.2.publish p) u

theorem publish_agentsKept (s : State) (p : Unpub → Bool) : AgentsKept s (s.publish p) where
  ops _ h := h
  subs := rfl
  slice := slice_mapTeams s (fun t => t.2.publish p) (fun _ => rfl)
  ctx _ := rfl

/-- A change of a team that leaves its slices. -/
theorem modTeam_agentsKept (s : State) (u : Nat) (f : Team → Team) (hf : ∀ t, (f t).slices = t.slices) : AgentsKept s (s.modTeam u f) :=
  ⟨fun _ h => h, rfl, slice_modTeam s u f hf, fun _ => rfl⟩

/-- An agent steps past the instruction after a change that it does not see. -/
theorem part_advance (W : Issuer → Nat → Nat → Prop) {v v' : State} (h : AgentsKept v v') (a : Issuer) (len : Nat) :
    Part W (fun _ _ => v') (fun _ _ x y => y = x.stepped len) (fun _ x y => y = x.stepped len) a v (v'.advance a len) := by
  cases a with
  | slice u j =>
    have hk : LaneKept W [.slice u j] v' (v'.advance (.slice u j) len) := modSlice_kept _ v' u j (·.stepped len)
    refine ⟨hk, committed_fresh hk h.ops h.subs, fun x hx => ⟨x.stepped len, ?_, rfl⟩⟩
    rw [advance_slice, slice_modSlice, if_pos ⟨rfl, rfl⟩, h.slice, hx]
    rfl
  | ctx k =>
    have hk : LaneKept W [.ctx k] v' (v'.advance (.ctx k) len) := modCtx_kept _ v' k (·.stepped len)
    refine ⟨hk, committed_fresh hk h.ops h.subs, ?_⟩
    show (v'.advance (.ctx k) len).ctx k = (v.ctx k).stepped len
    rw [advance_ctx, ctx_modCtx, if_pos rfl, h.ctx]

/-! ## FENCE -/

/-- What a fence makes of the machine before its agent goes on, its release complete. -/
def State.fenced (s : State) (r : Raw) (a : Issuer) : State :=
  match a with | .slice u i => if fenceX r.x then s.publishSlice u i else s | .ctx _ => s

theorem fenced_agentsKept (s : State) (r : Raw) (a : Issuer) : AgentsKept s (s.fenced r a) := by
  cases a with
  | slice u i => exact .of_ite (fun _ => publish_agentsKept s _) (fun _ => .refl s)
  | ctx k => exact .refl s

/-- A fence that need not wait. -/
theorem fenceOne_eq {v v1 : State} {r : Raw} {a : Issuer}
    (hrel : (fenceKind r.x ≠ 1 ∧ scopeOf r.x.scope.toNat ≠ 1) ∨ fenceX r.x = true →
      v.release a (if fenceKind r.x ≠ 1 ∧ scopeOf r.x.scope.toNat ≠ 1 then scopeOf r.x.scope.toNat else 2) = (true, v1))
    (hnrel : ¬ ((fenceKind r.x ≠ 1 ∧ scopeOf r.x.scope.toNat ≠ 1) ∨ fenceX r.x = true) → v1 = v)
    (hreads : fenceKind r.x ≠ 2 ∧ scopeOf r.x.scope.toNat ≠ 1 → v1.readsOut a = false) :
    v.fenceOne r a = (if fenceKind r.x ≠ 2 ∧ scopeOf r.x.scope.toNat ≠ 1 then (v1.fenced r a).acquireBy a (scopeOf r.x.scope.toNat)
      else v1.fenced r a).advance a r.len.bytes := by
  have hstart : (if (fenceKind r.x ≠ 1 ∧ scopeOf r.x.scope.toNat ≠ 1) ∨ fenceX r.x = true then
      v.release a (if fenceKind r.x ≠ 1 ∧ scopeOf r.x.scope.toNat ≠ 1 then scopeOf r.x.scope.toNat else 2) else (true, v)) = (true, v1) := by
    split
    case isTrue h => exact hrel h
    case isFalse h => rw [hnrel h]
  have hgo : ¬ ((fenceKind r.x ≠ 2 ∧ scopeOf r.x.scope.toNat ≠ 1) ∧ v1.readsOut a = true) := fun ⟨h, ho⟩ => by simp [hreads h] at ho
  unfold State.fenceOne
  simp only [hstart, Bool.not_true, Bool.false_eq_true, if_false, if_neg hgo]
  cases a <;> rfl

/-- Settles O28: a fence that need not wait is a step of its agent after the acquire (`fenceOne_eq`). -/
theorem fenceReleasesAcquires : Obligations.FenceReleasesAcquires := by
  unfold Obligations.FenceReleasesAcquires
  refine both_of_means bodyFence (fun _ => ⟨rfl, fun _ => rfl⟩) (fun _ => ⟨rfl, fun _ => rfl⟩) fun i r _ hi => ⟨?_, ?_, ?_⟩
  · intro s hs
    rw [hi.exec, issue_of_issues r s _ hs]
    rfl
  · intro v a
    exact part_advance _ (.refl v) a _
  · intro v v1 a scope rel acq hrel hnrel hreads v2
    have hv1 : AgentsKept v v1 := by
      by_cases h : rel
      · exact (release_of_eq (hrel h)).agentsKept
      · rw [hnrel h]
        exact .refl v
    have hv2 : v2 = v1.fenced r a := by cases a <;> rfl
    have hacq : AgentsKept v2 (if acq then v2.acquire (v2.coreOf a) scope else v2) := .of_ite (fun _ => (acquire_memStep _ _ _).agentsKept) (fun _ => .refl _)
    have hone : v.fenceOne r a = (if acq then v2.acquire (v2.coreOf a) scope else v2).advance a r.len.bytes := by
      rw [hv2]
      exact fenceOne_eq hrel hnrel hreads
    rw [hone]
    refine part_advance _ ((hv1.trans ?_).trans hacq) a _
    rw [hv2]
    exact fenced_agentsKept v1 r a

/-! ## Named barriers -/

/-- From s to t nothing has changed that an instruction at a named barrier of team u reads. -/
structure SeesSame (u : Nat) (s t : State) : Prop where
  agents : AgentsKept s t
  team : (t.team u).map (fun v => (v.bars, v.slices, v.core, v.task)) = (s.team u).map (fun v => (v.bars, v.slices, v.core, v.task))
  tasks : t.tasks = s.tasks
  regs : t.regs = s.regs

theorem SeesSame.refl (u : Nat) (s : State) : SeesSame u s s := ⟨.refl s, rfl, rfl, rfl⟩

theorem SeesSame.trans {u : Nat} {s t w : State} (h : SeesSame u s t) (g : SeesSame u t w) : SeesSame u s w :=
  ⟨h.agents.trans g.agents, g.team.trans h.team, g.tasks.trans h.tasks, g.regs.trans h.regs⟩

theorem MemStep.seesSame {s t : State} (h : MemStep s t) (u : Nat) : SeesSame u s t := ⟨h.agentsKept, by rw [h.team], h.tasks, h.regs⟩

theorem publish_seesSame (s : State) (p : Unpub → Bool) (u : Nat) : SeesSame u s (s.publish p) where
  agents := publish_agentsKept s p
  team := by
    rw [team_publish]
    cases s.team u <;> rfl
  tasks := rfl
  regs := rfl

theorem barPublish_seesSame (s : State) (u j : Nat) (x : Ext) (v : Nat) : SeesSame v s (s.barPublish u j x) :=
  iteInduction (motive := SeesSame v s) (fun _ => publish_seesSame s _ v) (fun _ => .refl v s)

section
variable {u : Nat} {s t : State} (h : SeesSame u s t)
include h

theorem SeesSame.team_eq {tm : Team} (ht : s.team u = some tm) : ∃ tm', t.team u = some tm' ∧ tm'.bars = tm.bars ∧ tm'.slices = tm.slices ∧ tm'.core = tm.core := by
  have hteam := h.team
  rw [ht] at hteam
  cases ht' : t.team u with
  | none => rw [ht'] at hteam; cases hteam
  | some tm' =>
    rw [ht'] at hteam
    simp only [Option.map_some, Option.some.injEq, Prod.mk.injEq] at hteam
    obtain ⟨hb, hs, hc, -⟩ := hteam
    exact ⟨tm', rfl, hb, hs, hc⟩

theorem SeesSame.sl (j : Nat) : t.sl u j = s.sl u j := by rw [State.sl, State.sl, h.agents.slice]

theorem SeesSame.ge (off : Nat) : t.ge off = s.ge off := by rw [State.ge, State.ge, State.reg, State.reg, h.regs]

theorem SeesSame.room (j : Nat) (r : Raw) : t.room (.slice u j) r = s.room (.slice u j) r := by
  refine room_of_slice (h.agents.slice u j) ?_ h.tasks r
  have hteam := congrArg (Option.map (fun p : Map Bar × Map Slice × CoreId × Nat => p.2.2.2)) h.team
  rw [Option.map_map, Option.map_map] at hteam
  exact hteam

end

/-- A barrier's trace record that is not asked for. -/
theorem barTrace_off {s : State} (h : bits (s.ge 0x22128) 47 44 = 0) (u j pc : Nat) (ma mb : Mask) (x : Ext) :
    s.barTrace u j 3 pc ma mb x = s ∧ s.barTrace u j 4 pc ma mb x = s := by
  have hb : bitAt (s.ge 0x22128) (44 + 3 - 1) = false ∧ bitAt (s.ge 0x22128) (44 + 4 - 1) = false := by
    simp only [bits, bitAt, Nat.shiftRight_eq_div_pow, beq_eq_false_iff_ne] at h ⊢
    omega
  exact ⟨trace_off s u j 3 pc ma mb _ _ hb.1, trace_off s u j 4 pc ma mb _ _ hb.2⟩

theorem barView_named {s : State} {u : Nat} {x : Ext} {tm : Team} (hs : barScope x = 2) (ht : s.team u = some tm) :
    s.barView u x = { phase := ((mget tm.bars x.b.toNat).getD {}).phase, busy := decide (((mget tm.bars x.b.toNat).getD {}).count ≠ 0),
                      mine := ((mget tm.bars x.b.toNat).getD {}).arrived, expect := ((mget tm.bars x.b.toNat).getD {}).expect } := by
  rw [State.barView, ht]
  exact if_pos hs

/-- A named barrier that the task has: the slice that issues alone goes on to its part. -/
theorem barGang_alone {r : Raw} {s : State} {u j : Nat} {x : Slice} {k : Task} (h : Alone r s u j x) (hk : s.taskOf u = some k) (hs : barScope r.x = 2)
    (hb : r.x.b.toNat < k.nbar) (hm : s.acts (.slice u j) r.x ≠ 0) (f : Nat → Nat → Mask → State → State) :
    s.barGang r f = f u j (s.acts (.slice u j) r.x) s := by
  have hcheck : s.barCheck u r.x = none := by
    simp only [State.barCheck, hk, hs, if_true, if_neg (Nat.not_le.mpr hb)]
  have hun : s.unbound u j r.x = false := by simp [State.unbound, hs]
  have hal : s.podAlign u r.x = s := by simp [State.podAlign, hs]
  simp only [State.barGang, h.cur, hcheck]
  rw [eachSlice_alone h, if_neg hm, hun, hal]
  rfl

/-- The team after its slice has arrived at a named barrier. -/
def Team.withBar (idx : Nat) (b : Bar) (t : Team) : Team := { t with bars := mset t.bars idx b }

theorem barArrive_named {s : State} {u j : Nat} {m : Mask} {x : Ext} {tm tm' : Team} (hs : barScope x = 2) (ht : s.team u = some tm') (hb : tm'.bars = tm.bars)
    (hsl : tm'.slices = tm.slices) :
    let b' := ((mget tm.bars x.b.toNat).getD {}).arrive j m tm.liveSet
    let t := s.barArrive u j m x
    t = { s.modTeam u (Team.withBar x.b.toNat b') with teams := t.teams } ∧ ∀ v, t.team v = (s.modTeam u (Team.withBar x.b.toNat b')).team v := by
  intro b' t
  have ht' : t = s.modTeam u (fun t => { t with bars := mset t.bars x.b.toNat (((mget t.bars x.b.toNat).getD {}).arrive j m t.liveSet) }) := if_pos hs
  rw [ht']
  refine ⟨rfl, fun v => ?_⟩
  rw [team_modTeam, team_modTeam]
  split
  · next hv =>
    subst hv
    rw [ht]
    simp only [Option.map_some, Team.withBar, hb, Team.liveSet, hsl]
    rfl
  · rfl

/-- The view of the barrier after the arrival. -/
theorem barView_arrived {s : State} {u j : Nat} {m : Mask} {x : Ext} {tm tm' : Team} (hs : barScope x = 2) (ht : s.team u = some tm') (hb : tm'.bars = tm.bars)
    (hsl : tm'.slices = tm.slices) :
    ((s.barArrive u j m x).barView u x).phase = (((mget tm.bars x.b.toNat).getD {}).arrive j m tm.liveSet).phase := by
  have hteam : (s.barArrive u j m x).team u = some (tm'.withBar x.b.toNat (((mget tm.bars x.b.toNat).getD {}).arrive j m tm.liveSet)) := by
    rw [(barArrive_named hs ht hb hsl).2, team_modTeam_self _ ht]
  rw [barView_named hs hteam]
  simp only [Team.withBar, mget_mset_self, Option.getD_some]

theorem barArrive_regs {s : State} {u j : Nat} {m : Mask} {x : Ext} (hs : barScope x = 2) : (s.barArrive u j m x).regs = s.regs := by
  rw [State.barArrive, if_pos hs]
  rfl

/-- A slice leaves a named barrier: no acquire acts at `.core`, and it steps past the instruction. -/
theorem barLeave_named {s : State} {r : Raw} (hs : barScope r.x = 2) (htr : bits (s.ge 0x22128) 47 44 = 0) (u j : Nat) :
    s.barLeave r u j = s.advance (.slice u j) r.len.bytes := by
  have hacq : s.acquire (s.coreOf (.slice u j)) (barScope r.x) = s := by rw [hs]; rfl
  rw [State.barLeave, hacq, (barTrace_off htr u j _ _ _ _).2]

/-- The checks of a slice that arrives (R373). -/
theorem barSliceCheck_passes {s : State} {u j : Nat} {m : Mask} {x : Ext} {partialRule : Bool} {y : Slice} {tm : Team} (hs : barScope x = 2) (ht : s.team u = some tm)
    (hy : s.sl u j = y)
    (h : ((mget tm.bars x.b.toNat).getD {}).expect = 0 → (partialRule = true → m = y.live) ∧ ((mget tm.bars x.b.toNat).getD {}).arrived &&& laneSet j m = 0) :
    s.barSliceCheck u j m x partialRule = none := by
  rw [State.barSliceCheck, barView_named hs ht, hy]
  by_cases he : ((mget tm.bars x.b.toNat).getD {}).expect = 0
  · obtain ⟨hpart, hnot⟩ := h he
    have hnone : ¬ (partialRule = true ∧ laneSet j (y.live &&& ~~~m) &&& ~~~((mget tm.bars x.b.toNat).getD {}).arrived ≠ 0) := by
      rintro ⟨hp, hne⟩
      refine hne ?_
      rw [hpart hp, BitVec.and_not_self]
      simp [laneSet]
    simp only [he, hnot, ne_eq, not_true_eq_false, if_false, if_neg hnone]
  · simp only [ne_eq, he, not_false_eq_true, if_true]

section
variable {i : Instr} {r : Raw} {s s0 : State} {u j : Nat} {x : Slice} {tm : Team} (h : Alone r s u j x) (ht : s.team u = some tm)
  (hs : barScope r.x = 2) (htr : bits (s.ge 0x22128) 47 44 = 0)
include h ht hs htr

/-- A BAR whose phase is over. -/
theorem barOne_over {tok : Word} (htok : x.barTok = some tok) (hph : ((mget tm.bars r.x.b.toNat).getD {}).phase ≠ tok) (m : Mask) :
    s.barOne r u j m = s.advance (.slice u j) r.len.bytes := by
  have hv : (s.barView u r.x).phase ≠ tok := by rw [barView_named hs ht]; exact hph
  rw [State.barOne, h.sl, htok]
  exact (if_pos hv).trans (barLeave_named hs htr u j)

/-- A BAR that arrives: it waits when the arrival leaves the phase, and goes on when it completes the phase. -/
theorem barOne_arrives (hnew : x.barTok = none) {m : Mask}
    (hcheck : ((mget tm.bars r.x.b.toNat).getD {}).expect = 0 → m = x.live ∧ ((mget tm.bars r.x.b.toNat).getD {}).arrived &&& laneSet j m = 0)
    (hrel : s.release (.slice u j) 2 = (true, s0)) :
    let b := (mget tm.bars r.x.b.toNat).getD {}
    let t := (s0.barPublish u j r.x).barArrive u j m r.x
    s.barOne r u j m = if (b.arrive j m tm.liveSet).phase ≠ b.phase then t.advance (.slice u j) r.len.bytes
      else t.modSlice u j (fun y => { y with barTok := some b.phase, wait := .bar 2 r.x.b.toNat, waitMask := m }) := by
  intro b t
  have hs0 : SeesSame u s s0 := (release_of_eq hrel).seesSame u
  have hs1 : SeesSame u s (s0.barPublish u j r.x) := hs0.trans (barPublish_seesSame s0 u j r.x u)
  obtain ⟨tm0, ht0, hb0, -, -⟩ := hs0.team_eq ht
  obtain ⟨tm1, ht1, hb1, hsl1, -⟩ := hs1.team_eq ht
  have htr1 : bits ((s0.barPublish u j r.x).ge 0x22128) 47 44 = 0 := by rw [hs1.ge]; exact htr
  have htr2 : bits (t.ge 0x22128) 47 44 = 0 := by
    rw [State.ge, State.reg, barArrive_regs hs]
    exact htr1
  have hchk : s.barSliceCheck u j m r.x true = none := barSliceCheck_passes hs ht h.sl (fun he => ⟨fun _ => (hcheck he).1, (hcheck he).2⟩)
  have hv0 : (s0.barView u r.x).phase = b.phase := by rw [barView_named hs ht0, hb0]
  have hvt : (t.barView u r.x).phase = (b.arrive j m tm.liveSet).phase := barView_arrived hs ht1 hb1 hsl1
  rw [State.barOne, h.sl]
  simp only [hnew, hchk, hs, hrel, Bool.not_true, Bool.false_eq_true, if_false, (barTrace_off htr1 u j _ _ _ _).1, hv0]
  rw [hvt]
  exact congrArg (fun w => if (b.arrive j m tm.liveSet).phase ≠ b.phase then w else _) (barLeave_named hs htr2 u j)

end

/-- Settles O29: `barOne_over` for a phase that is over, `barOne_arrives` for an arrival, which completes the phase or waits. -/
theorem barWaitsForPhase : Obligations.BarWaitsForPhase := by
  unfold Obligations.BarWaitsForPhase
  refine both_of_means bodyBar (fun _ => ⟨rfl, fun _ => rfl⟩) (fun _ => ⟨rfl, fun _ => rfl⟩) fun i r _ hi => ?_
  intro s u j x tm k h ht hk hs hb htr a m b b' hm
  refine ⟨?_, ?_⟩
  · intro tok htok hph
    have hone := (h.next (hi.exec s)).trans (congrArg Host.Outcome.next ((barGang_alone h hk hs hb hm _).trans (barOne_over h ht hs htr htok hph m)))
    exact ends_advance hone h.slice
  · intro hnew hcheck s0 hrel s1
    have hone := (h.next (hi.exec s)).trans (congrArg Host.Outcome.next ((barGang_alone h hk hs hb hm _).trans (barOne_arrives h ht hs htr hnew hcheck hrel)))
    have hs1 : SeesSame u s s1 := ((release_of_eq hrel).seesSame u).trans (barPublish_seesSame s0 u j r.x u)
    obtain ⟨tm1, ht1, hb1, hsl1, -⟩ := hs1.team_eq ht
    obtain ⟨hw, hteams⟩ := barArrive_named (j := j) (m := m) (x := r.x) hs ht1 hb1 hsl1
    have hx : (s1.barArrive u j m r.x).slice u j = some x := by
      rw [slice_of_team hteams, slice_modTeam s1 u (Team.withBar r.x.b.toNat b') (fun _ => rfl), hs1.agents.slice, h.slice]
    refine ⟨fun hph => ?_, fun hph => ?_⟩
    · rw [if_neg (not_not_intro hph)] at hone
      exact ends_of_sameTeams hw hteams (ends_modSlice hone hx rfl)
    · rw [if_pos hph] at hone
      exact ends_of_sameTeams hw hteams (ends_advance hone hx)

/-! ## BARA, BARW, BARINIT -/

/-- A result in the lanes of the slice after a change of its team's barriers, s' being that change up to other entries of the list of teams. -/
theorem ends_commit_withBar {i : Instr} {r : Raw} {s s1 t : State} {u j idx : Nat} {x : Slice} {b : Bar} {dst : ODst} {f : Nat → Out} (hraw : i.raw = some r)
    (h : Alone r s u j x) (he : exec i s = .next (t.commit r (.slice u j) (s.acts (.slice u j) r.x) dst f)) (hsee : SeesSame u s s1)
    (hw : t = { s1.modTeam u (Team.withBar idx b) with teams := t.teams }) (ht : ∀ v, t.team v = (s1.modTeam u (Team.withBar idx b)).team v)
    (hroom : s.room (.slice u j) r = true) (hd : OneDest r dst) :
    Ends i s (s1.modTeam u (Team.withBar idx b)) u j (SliceGot r (s.acts (.slice u j) r.x) dst f x) := by
  have hx : t.slice u j = s1.slice u j := by
    rw [slice_of_team ht, slice_modTeam s1 u (Team.withBar idx b) (fun _ => rfl)]
  have htask : (t.team u).map Team.task = (s1.team u).map Team.task := by
    rw [ht, team_modTeam, if_pos rfl]
    cases s1.team u <;> rfl
  have hroom' : t.room (.slice u j) r = true := by
    rw [room_of_slice hx htask (by rw [hw]; rfl), hsee.room, hroom]
  refine ends_of_sameTeams hw ht (ends_commit hraw h.agents he (hx.trans ((hsee.agents.slice u j).trans h.slice)) hroom' hd (fun id hn => ?_) ?_)
  · rw [hw]
    exact hsee.agents.ops id hn
  · rw [hw]
    exact hsee.agents.subs

section
variable {i : Instr} {r : Raw} {s : State} {u j : Nat} {x : Slice} {tm : Team} {k : Task} (h : Alone r s u j x) (ht : s.team u = some tm)
  (hk : s.taskOf u = some k) (hs : barScope r.x = 2) (hb : r.x.b.toNat < k.nbar) (htr : bits (s.ge 0x22128) 47 44 = 0)
  (hm : s.acts (.slice u j) r.x ≠ 0) (hroom : s.room (.slice u j) r = true)
include h ht hk hs hb htr hm hroom

/-- BARA of a slice that passes the checks, its release complete. -/
theorem bara_ends (hop : r.op = .bara) (hi : Means i r (bodyBara r)) {s1 : State}
    (hcheck : ((mget tm.bars r.x.b.toNat).getD {}).expect = 0 → ((mget tm.bars r.x.b.toNat).getD {}).arrived &&& laneSet j (s.acts (.slice u j) r.x) = 0)
    (hrel : s.release (.slice u j) 2 = (true, s1)) :
    let b := (mget tm.bars r.x.b.toNat).getD {}
    Ends i s ((s1.barPublish u j r.x).modTeam u (Team.withBar r.x.b.toNat (b.arrive j (s.acts (.slice u j) r.x) tm.liveSet))) u j
      (SliceGot r (s.acts (.slice u j) r.x) .reg (fun _ => { val := b.phase.toNat }) x) := by
  intro b
  have hs0 : SeesSame u s s1 := (release_of_eq hrel).seesSame u
  have hs1 : SeesSame u s (s1.barPublish u j r.x) := hs0.trans (barPublish_seesSame s1 u j r.x u)
  obtain ⟨tm0, ht0, hb0, -, -⟩ := hs0.team_eq ht
  obtain ⟨tm1, ht1, hb1, hsl1, -⟩ := hs1.team_eq ht
  have htr1 : bits ((s1.barPublish u j r.x).ge 0x22128) 47 44 = 0 := by rw [hs1.ge]; exact htr
  have hchk : s.barSliceCheck u j (s.acts (.slice u j) r.x) r.x false = none := barSliceCheck_passes hs ht h.sl (fun he => ⟨nofun, hcheck he⟩)
  have hv0 : (s1.barView u r.x).phase = b.phase := by rw [barView_named hs ht0, hb0]
  obtain ⟨hw, hteams⟩ := barArrive_named (j := j) (m := s.acts (.slice u j) r.x) (x := r.x) hs ht1 hb1 hsl1
  refine ends_commit_withBar hi.raw h ?_ hs1 hw hteams hroom (oneDest_of_shape r .reg ⟨false, by rw [hop]; rfl⟩)
  rw [h.next (hi.exec s), bodyBara, barGang_alone h hk hs hb hm]
  simp only [hchk, hroom, hs, hrel, hv0, (barTrace_off htr1 u j _ _ _ _).1, Bool.not_true, Bool.false_eq_true, if_false]

/-- BARW of a slice whose lanes all wait for another phase. -/
theorem barw_ends (hi : Means i r (bodyBarw r))
    (hph : ∀ l ∈ maskList (s.acts (.slice u j) r.x), s.srcA (.slice u j) r 0 l % 2 ^ 32 ≠ ((mget tm.bars r.x.b.toNat).getD {}).phase.toNat)
    (hreads : s.readsOut (.slice u j) = false) :
    Ends i s s u j (SliceGot r (s.acts (.slice u j) r.x) .none (fun _ => {}) x) := by
  have hall : (maskList (s.acts (.slice u j) r.x)).all (fun l => s.srcA (.slice u j) r 0 l % 2 ^ 32 != (s.barView u r.x).phase.toNat) = true := by
    rw [barView_named hs ht, List.all_eq_true]
    exact fun l hl => bne_iff_ne.mpr (hph l hl)
  refine ends_commit hi.raw h.agents ?_ h.slice hroom (oneDest_none r) (fun _ hn => hn) rfl
  rw [h.next (hi.exec s), bodyBarw, barGang_alone h hk hs hb hm]
  have hacq : s.acquire (s.coreOf (.slice u j)) (barScope r.x) = s := by rw [hs]; rfl
  simp only [hall, hreads, hacq, (barTrace_off htr u j _ _ _ _).2, Bool.false_eq_true, if_false, if_true]

omit htr in
/-- BARINIT of a barrier at which nobody has arrived. -/
theorem barinit_ends (hi : Means i r (bodyBarinit r)) {l : Nat} (hl : (maskList (s.acts (.slice u j) r.x)).getLast? = some l)
    (hcount : ((mget tm.bars r.x.b.toNat).getD {}).count = 0) (hn : s.srcA (.slice u j) r 0 l % 2 ^ 32 ≤ k.lanes) :
    Ends i s (s.modTeam u (Team.withBar r.x.b.toNat { (mget tm.bars r.x.b.toNat).getD {} with expect := s.srcA (.slice u j) r 0 l % 2 ^ 32 })) u j
      (SliceGot r (s.acts (.slice u j) r.x) .none (fun _ => {}) x) := by
  let n := s.srcA (.slice u j) r 0 l % 2 ^ 32
  let t := s.modTeam u (fun t => { t with bars := mset t.bars r.x.b.toNat { ((mget t.bars r.x.b.toNat).getD {}) with expect := n } })
  have hteams (v : Nat) : t.team v = (s.modTeam u (Team.withBar r.x.b.toNat { (mget tm.bars r.x.b.toNat).getD {} with expect := n })).team v := by
    show (s.modTeam u _).team v = _
    rw [team_modTeam, team_modTeam]
    split
    · next hv =>
      rw [← hv, ht]
      rfl
    · rfl
  have hbusy : (s.barView u r.x).busy = false := by
    rw [barView_named hs ht, hcount]
    rfl
  have hlim : s.barLimit u r.x = k.lanes := by simp only [State.barLimit, hk, hs]
  refine ends_commit_withBar hi.raw h (t := t) ?_ (.refl u s) rfl hteams hroom (oneDest_none r)
  rw [h.next (hi.exec s), bodyBarinit, barGang_alone h hk hs hb hm]
  simp only [hl, Option.getD_some, hbusy, hlim, if_neg (Nat.not_lt.mpr hn), hs, Bool.false_eq_true, if_false, if_true]
  rfl

end

/-- Settles O30 by `bara_ends`, `barw_ends` and `barinit_ends`. -/
theorem splitBarrierAndCount : Obligations.SplitBarrierAndCount := by
  unfold Obligations.SplitBarrierAndCount
  refine ⟨both_of_means bodyBara (fun _ => ⟨rfl, fun _ => rfl⟩) (fun _ => ⟨rfl, fun _ => rfl⟩) ?_,
    both_of_means bodyBarw (fun _ => ⟨rfl, fun _ => rfl⟩) (fun _ => ⟨rfl, fun _ => rfl⟩) ?_,
    both_of_means bodyBarinit (fun _ => ⟨rfl, fun _ => rfl⟩) (fun _ => ⟨rfl, fun _ => rfl⟩) ?_⟩
  · rintro i r hop hi s u j x tm k s1 ⟨h, ht, hk, hs, hb, htr, hm⟩ hroom a m b hcheck hrel
    exact bara_ends h ht hk hs hb htr hm hroom hop hi hcheck hrel
  · rintro i r - hi s u j x tm k ⟨h, ht, hk, hs, hb, htr, hm⟩ hroom a hph hreads
    exact barw_ends h ht hk hs hb htr hm hroom hi hph hreads
  · rintro i r - hi s u j x tm k l ⟨h, ht, hk, hs, hb, htr, hm⟩ hroom a b n hl hcount hn
    exact barinit_ends h ht hk hs hb hm hroom hi hl hcount hn

end Sys2Proof.Machine

/-!
PROOFS. Instructions whose agents enter an operation in flight (R168, R292 to R297, R309).
-/
namespace Sys2Proof.Machine

/-! ## Agents in turn -/

/-- A fold over distinct agents is their parts in turn, G being what an agent needs and every other agent's part leaves it. -/
theorem turns_of_fold {R : Issuer → State → State → Prop} {F : Issuer → State → State} (G : Issuer → State → Prop) :
    ∀ (as : List Issuer) (s : State), as.Nodup → (∀ a ∈ as, G a s) → (∀ a v, a ∈ as → G a v → R a v (F a v)) →
      (∀ a b v, a ∈ as → b ∈ as → b ≠ a → G a v → G b v → G b (F a v)) → Turns R as s (foldS F as s)
  | [], s, _, _, _, _ => .nil s
  | a :: as, s, hn, hG, hR, hkeep => by
    obtain ⟨ha, hn'⟩ := List.nodup_cons.mp hn
    have hGa : G a s := hG a List.mem_cons_self
    refine .cons (hR a s List.mem_cons_self hGa) (turns_of_fold G as (F a s) hn' (fun b hb => ?_) (fun b v hb => hR b v (List.mem_cons_of_mem a hb))
      (fun b c v hb hc => hkeep b c v (List.mem_cons_of_mem a hb) (List.mem_cons_of_mem a hc)))
    exact hkeep a b s List.mem_cons_self (List.mem_cons_of_mem a hb) (fun h => ha (h ▸ hb)) hGa (hG b (List.mem_cons_of_mem a hb))

/-- The gang of an instruction that issues has agents, and its slices exist. -/
theorem curOk_of_issues {r : Raw} {s : State} (h : Issues r s = true) : s.curOk = true := by
  simp only [Issues, Bool.and_eq_true] at h
  exact h.1.1.1.1.1

/-! ## Names mapped at issue (R168) -/

/-- Names with 0 where some of ds was not mapped. -/
def mapFresh (ns : Map (Four Word)) (ds : List Nat) : Map (Four Word) :=
  ds.foldl (fun ns n => match mget ns n with | some _ => ns | none => mset ns n ⟨0, 0, 0, 0⟩) ns

theorem mget_mapFresh (ds : List Nat) : ∀ (ns : Map (Four Word)) (n : Nat),
    mget (mapFresh ns ds) n = match mget ns n with | some e => some e | none => if n ∈ ds then some ⟨0, 0, 0, 0⟩ else none := by
  induction ds with
  | nil => intro ns n; cases h : mget ns n <;> simp [mapFresh, h]
  | cons d ds ih =>
    intro ns n
    have hstep : mapFresh ns (d :: ds) = mapFresh (match mget ns d with | some _ => ns | none => mset ns d ⟨0, 0, 0, 0⟩) ds := rfl
    rw [hstep, ih]
    cases hd : mget ns d with
    | some e =>
      cases hn : mget ns n with
      | some f => rfl
      | none =>
        have hne : n ≠ d := fun h => by rw [h, hd] at hn; cases hn
        simp [hne]
    | none =>
      simp only [mget_mset]
      by_cases hdn : d = n
      · subst hdn
        simp [hd]
      · have hnd : n ≠ d := fun h => hdn h.symm
        cases hn : mget ns n <;> simp [hdn, hnd]

/-- A slice after the names of an instruction are freed and mapped. -/
def Slice.mapDests (x : Slice) (r : Raw) (m : Mask) : Slice :=
  if m = 0 then x.free (rawFrees r) else { x.free (rawFrees r) with names := mapFresh (x.free (rawFrees r)).names (rawDests r) }

theorem mapped_mapDests (r : Raw) (m : Mask) (x : Slice) : Mapped r m x (x.mapDests r m) := by
  have hnames : (x.mapDests r m).names = if m = 0 then (x.free (rawFrees r)).names else mapFresh (x.free (rawFrees r)).names (rawDests r) := by
    rw [Slice.mapDests]
    split <;> rfl
  have hget (n : Nat) : mget (x.mapDests r m).names n =
      match (if n ∈ rawFrees r then none else mget x.names n) with | some e => some e | none => if m ≠ 0 ∧ n ∈ rawDests r then some ⟨0, 0, 0, 0⟩ else none := by
    rw [hnames]
    by_cases hm : m = 0
    · simp only [hm, if_true, free_names, ne_eq, not_true_eq_false, false_and, if_false]
      cases (if n ∈ rawFrees r then none else mget x.names n) <;> rfl
    · simp only [hm, if_false, mget_mapFresh, free_names, ne_eq, not_false_eq_true, true_and]
  refine ⟨fun n l => ?_, fun n => ?_, ?_⟩
  · rw [reg_of_names, reg_of_names, hget]
    by_cases hf : n ∈ rawFrees r
    · by_cases hd : m ≠ 0 ∧ n ∈ rawDests r
      · simp only [hf, if_true, if_pos hd, getD_four_zero]
      · simp only [hf, if_true, if_neg hd]
    · cases hx : mget x.names n with
      | some e => simp only [hf, if_false]
      | none =>
        by_cases hd : m ≠ 0 ∧ n ∈ rawDests r
        · simp only [hf, if_false, if_pos hd, getD_four_zero]
        · simp only [hf, if_false, if_neg hd]
  · rw [hget]
    by_cases hf : n ∈ rawFrees r
    · by_cases hd : m ≠ 0 ∧ n ∈ rawDests r <;> simp [hf, hd]
    · cases hx : mget x.names n <;> by_cases hd : m ≠ 0 ∧ n ∈ rawDests r <;> simp [hf, hd]
  · rw [Slice.mapDests]
    split <;> rfl

/-! ## An operation enters flight -/

theorem withOp_teams (s : State) (op : MemOp) : (s.withOp op).teams = s.teams := by rw [State.withOp]; split <;> rfl
theorem withOp_ctxs (s : State) (op : MemOp) : (s.withOp op).ctxs = s.ctxs := by rw [State.withOp]; split <;> rfl
theorem withOp_tasks (s : State) (op : MemOp) : (s.withOp op).tasks = s.tasks := by rw [State.withOp]; split <;> rfl
theorem withOp_subs (s : State) (op : MemOp) : (s.withOp op).subs = s.subs := by rw [State.withOp]; split <;> rfl

theorem mget_withOp (s : State) (op : MemOp) (id : Nat) :
    mget (s.withOp op).mops id = if ¬ (op.todo.isEmpty = true ∧ op.got.isEmpty = true) ∧ s.nextId = id then some op else mget s.mops id := by
  rw [State.withOp]
  by_cases h : op.todo.isEmpty = true ∧ op.got.isEmpty = true
  · rw [if_pos h, if_neg (fun hn => hn.1 h)]
  · rw [if_neg h]
    show mget (mset s.mops s.nextId op) id = _
    rw [mget_mset]
    by_cases hid : s.nextId = id
    · rw [if_pos hid, if_pos ⟨h, hid⟩]
    · rw [if_neg hid, if_neg (fun hn => hid hn.2)]

theorem takeOver_nextId (s : State) (a : Issuer) (ns : List Nat) (m : Mask) : (s.takeOver a ns m).nextId = s.nextId := rfl

/-- Names taken over before an operation enters flight. -/
theorem withOp_takeOver_kept (W : Issuer → Nat → Nat → Prop) (s : State) (a : Issuer) (ns : List Nat) (m : Mask) (op : MemOp)
    (hW : ∀ n ∈ ns, ∀ l ∈ maskList m, W a n l) : LaneKept W [] (s.withOp op) ((s.takeOver a ns m).withOp op) where
  whole := by simp only [State.withOp]; split <;> rfl
  teams _ := by rw [State.team, State.team, withOp_teams, withOp_teams]; rfl
  slices _ _ _ := slice_of_teams (by rw [withOp_teams, withOp_teams]; rfl) _ _
  ctxs _ _ := by rw [State.ctx, State.ctx, withOp_ctxs, withOp_ctxs]; rfl
  ops id o h := by
    rw [mget_withOp] at h
    rw [mget_withOp, takeOver_nextId]
    split at h
    · next hid =>
      cases h
      exact ⟨[], by rw [if_pos hid, List.append_nil], fun p hp => absurd hp List.not_mem_nil⟩
    · next hid =>
      rw [if_neg hid]
      exact takeOver_ops W s a ns m hW id o h
  noOps id h := by
    rw [mget_withOp] at h
    rw [mget_withOp, takeOver_nextId]
    split at h
    · cases h
    · next hid =>
      rw [if_neg hid]
      exact (takeOver_kept W s a ns m hW).noOps id h
  subs := by
    rw [withOp_subs, withOp_subs]
    exact (takeOver_kept W s a ns m hW).subs

/-- The names that an instruction writes later, as an agent names them. -/
def mapNames (a : Issuer) (r : Raw) : List Nat := match a with | .slice _ _ => rawDests r | .ctx _ => destsOn a r

theorem mapNames_eq (a : Issuer) (r : Raw) : mapNames a r = destsOn a r := by cases a <;> rfl

/-- An agent past an instruction, its names mapped. -/
def State.mapped (s : State) (a : Issuer) (r : Raw) (m : Mask) : State :=
  match a with
  | .slice u j => s.modSlice u j (fun x => (x.mapDests r m).stepped r.len.bytes)
  | .ctx k => s.modCtx k (·.stepped r.len.bytes)

theorem mapped_kept (W : Issuer → Nat → Nat → Prop) (s : State) (a : Issuer) (r : Raw) (m : Mask) : LaneKept W [a] s (s.mapped a r m) := by
  cases a with
  | slice u j => exact modSlice_kept W s u j (fun x => (x.mapDests r m).stepped r.len.bytes)
  | ctx k => exact modCtx_kept W s k (·.stepped r.len.bytes)

theorem mapped_mops (s : State) (a : Issuer) (r : Raw) (m : Mask) : (s.mapped a r m).mops = s.mops ∧ (s.mapped a r m).subs = s.subs := by cases a <;> exact ⟨rfl, rfl⟩

theorem withOp_modSlice (s : State) (u j : Nat) (f : Slice → Slice) (op : MemOp) : (s.modSlice u j f).withOp op = (s.withOp op).modSlice u j f := by
  simp only [State.withOp]
  split <;> rfl

theorem launchOp_eq {s : State} {a : Issuer} {r : Raw} (m : Mask) (op : MemOp) (h : s.room a r = true) :
    s.launchOp a r m op = ((s.takeOver a (mapNames a r) m).withOp op).mapped a r m := by
  rw [State.launchOp, h]
  cases a with
  | slice u j =>
    have hm : s.mapDests (.slice u j) r m = (s.takeOver (.slice u j) (mapNames (.slice u j) r) m).modSlice u j (fun x => x.mapDests r m) := rfl
    show ((s.mapDests (.slice u j) r m).withOp op).advance (.slice u j) r.len.bytes = _
    rw [hm, withOp_modSlice, advance_slice, modSlice_modSlice]
    rfl
  | ctx k => rfl

/-- A watch changes nothing, or makes a trap pending at depth 0 where WATCH is not masked. -/
theorem watch_cases (s : State) (u j pc kinds : Nat) (m : Mask) (eas : List Nat) : s.watch u j pc kinds m eas = s ∨
    (∃ p, s.watch u j pc kinds m eas = s.modSlice u j (fun x => { x with pend := x.pend ++ [p] })) ∧ (s.sliceOr u j).depth = 0 ∧ s.masks u kWatch = false := by
  unfold State.watch
  cases ht : s.team u with
  | none => exact .inl (if_pos (.inl rfl))
  | some tm =>
    by_cases hm : tm.trapMask.getLsbD 13 = true ∨ (s.sliceOr u j).depth ≠ 0
    · exact .inl (if_pos hm)
    · simp only [if_neg hm]
      obtain ⟨hmask, hdepth⟩ := not_or.mp hm
      split
      · exact .inl rfl
      · refine .inr ⟨⟨_, rfl⟩, Decidable.not_not.mp hdepth, ?_⟩
        simp only [State.masks, ht, kWatch, Bool.not_eq_true] at hmask ⊢
        exact hmask

/-- What a watch may add to a slice. -/
theorem watchAgent_kept (W : Issuer → Nat → Nat → Prop) (s : State) (a : Issuer) (kinds : Nat) (m : Mask) (pc : Nat) (eas : List Nat) :
    LaneKept W [a] s (s.watchAgent a kinds m pc eas) ∧ (s.watchAgent a kinds m pc eas).mops = s.mops ∧ (s.watchAgent a kinds m pc eas).subs = s.subs := by
  cases a with
  | slice u j =>
    show LaneKept W [.slice u j] s (s.watch u j pc kinds m eas) ∧ (s.watch u j pc kinds m eas).mops = s.mops ∧ (s.watch u j pc kinds m eas).subs = s.subs
    rcases watch_cases s u j pc kinds m eas with h | ⟨⟨p, h⟩, -, -⟩ <;> rw [h]
    · exact ⟨laneKept_refl W _ s, rfl, rfl⟩
    · exact ⟨modSlice_kept W s u j _, rfl, rfl⟩
  | ctx k => exact ⟨laneKept_refl W _ s, rfl, rfl⟩

/-- What a watch leaves of its slice. -/
theorem watchAgent_slice {s : State} {u j : Nat} {y : Slice} (hy : s.slice u j = some y) (kinds : Nat) (m : Mask) (pc : Nat) (eas : List Nat) :
    ∃ ps, (s.watchAgent (.slice u j) kinds m pc eas).slice u j = some { y with pend := y.pend ++ ps } ∧ (y.depth ≠ 0 ∨ s.masks u kWatch = true → ps = []) := by
  show ∃ ps, (s.watch u j pc kinds m eas).slice u j = _ ∧ _
  have hor : s.sliceOr u j = y := by rw [State.sliceOr, hy]; rfl
  rcases watch_cases s u j pc kinds m eas with h | ⟨⟨p, h⟩, hdepth, hmask⟩ <;> rw [h]
  · exact ⟨[], by rw [hy, List.append_nil], fun _ => rfl⟩
  · refine ⟨[p], by rw [slice_modSlice, if_pos ⟨rfl, rfl⟩, hy]; rfl, ?_⟩
    rw [hor] at hdepth
    rw [hdepth, hmask]
    rintro (h0 | h0)
    · exact absurd rfl h0
    · cases h0

section
variable {W : Issuer → Nat → Nat → Prop} {s v v1 : State} {a : Issuer} {r : Raw} {m : Mask} (hroom : v1.room a r = true)
  (hW : ∀ n ∈ destsOn a r, ∀ l ∈ maskList m, W a n l)
include hroom

theorem launchOp_fresh (op : MemOp) (hops : ∀ id, mget v.mops id = none → mget v1.mops id = none) (hsubs : v1.subs.length = v.subs.length) :
    Fresh v (v1.withOp op) (v1.launchOp a r m op) := by
  rw [launchOp_eq m op hroom]
  refine ⟨fun id hn => ?_, ?_⟩
  · rw [(mapped_mops _ a r m).1, mget_withOp, mget_withOp, hops id hn]
    have hto : mget (v1.takeOver a (mapNames a r) m).mops id = none := by
      refine (takeOver_kept (fun _ _ _ => True) v1 a (mapNames a r) m (fun _ _ _ _ => trivial)).noOps id (hops id hn)
    rw [hto]
    rfl
  · have hlen : (v1.takeOver a (mapNames a r) m).subs.length = v1.subs.length := List.length_map _
    rw [(mapped_mops _ a r m).2, withOp_subs, withOp_subs, List.drop_of_length_le (by omega), List.drop_of_length_le (by omega)]

include hW

theorem launchOp_kept (op : MemOp) : LaneKept W [a] (v1.withOp op) (v1.launchOp a r m op) := by
  rw [launchOp_eq m op hroom]
  exact laneKept_trans (laneKept_mono (withOp_takeOver_kept W v1 a (mapNames a r) m op (by rw [mapNames_eq]; exact hW)) (by simp)) (mapped_kept W _ a r m)

end

theorem launchOp_slice {v : State} {u j : Nat} {x : Slice} {r : Raw} (m : Mask) (op : MemOp) (hroom : v.room (.slice u j) r = true) (hx : v.slice u j = some x) :
    (v.launchOp (.slice u j) r m op).slice u j = some ((x.mapDests r m).stepped r.len.bytes) := by
  rw [launchOp_eq m op hroom]
  show (State.modSlice _ u j _).slice u j = _
  rw [slice_modSlice, if_pos ⟨rfl, rfl⟩, slice_of_teams (withOp_teams _ op), slice_takeOver, hx]
  rfl

theorem launchOp_ctx {v : State} {k : Nat} {r : Raw} (m : Mask) (op : MemOp) : (v.launchOp (.ctx k) r m op).ctx k = (v.ctx k).stepped r.len.bytes := by
  rw [launchOp_eq m op rfl]
  show (State.modCtx _ k _).ctx k = _
  rw [ctx_modCtx, if_pos rfl, State.ctx, withOp_ctxs]
  rfl

theorem withOp_team (s : State) (op : MemOp) (u : Nat) : (s.withOp op).team u = s.team u := by rw [State.team, State.team, withOp_teams]

theorem withOp_masks (s : State) (op : MemOp) (u k : Nat) : (s.withOp op).masks u k = s.masks u k := by rw [State.masks, State.masks, withOp_team]

/-- An agent's operation enters flight after a change, from v by way of v0 outside the agent, that maps its slice by g. -/
theorem launchOp_part {W : Issuer → Nat → Nat → Prop} {s v v0 v1 : State} {a : Issuer} {r : Raw} {m : Mask} {op : MemOp} (g : Slice → Slice)
    (hops : ∀ id, mget v.mops id = none → mget v1.mops id = none) (hsubs : v1.subs.length = v.subs.length) (hroom : v1.room a r = true)
    (hW : ∀ n ∈ destsOn a r, ∀ l ∈ maskList m, W a n l) (h01 : LaneKept W [a] (v0.withOp op) (v1.withOp op))
    (hsame : (v1.withOp op).mops = (v0.withOp op).mops ∧ (v1.withOp op).subs = (v0.withOp op).subs)
    (hslice : ∀ u j x, a = .slice u j → v.slice u j = some x → v1.slice u j = some (g x)) (hctx : ∀ k, a = .ctx k → v1.ctx k = v.ctx k) :
    Part W (fun _ _ => v0.withOp op) (fun u _ x => GoesOn s r u m (g x)) (fun _ x y => y = x.stepped r.len.bytes) a v (v1.launchOp a r m op) := by
  have hf := launchOp_fresh (v := v) (m := m) hroom op hops hsubs
  refine ⟨laneKept_trans h01 (launchOp_kept hroom hW op), ⟨fun id hn => (hf.ops id hn).trans (by rw [hsame.1]), hf.subs.trans (by rw [hsame.2])⟩, ?_⟩
  cases a with
  | slice u j =>
    intro x hx
    refine ⟨_, launchOp_slice m op hroom (hslice u j x rfl hx), (g x).mapDests r m, [], mapped_mapDests r m (g x), fun _ => rfl, ?_⟩
    have hp : ((g x).mapDests r m).pend = (g x).pend := by rw [(mapped_mapDests r m (g x)).rest]
    rw [List.append_nil, ← hp]
    rfl
  | ctx k =>
    show (v1.launchOp (.ctx k) r m op).ctx k = _
    rw [launchOp_ctx, hctx k rfl]

/-- The same where a watch may see the access. -/
theorem launchSeen_part {W : Issuer → Nat → Nat → Prop} {s v v0 v1 : State} {a : Issuer} {r : Raw} {m : Mask} {op : MemOp} (g : Slice → Slice) (kinds pc : Nat)
    (eas : List Nat) (hops : ∀ id, mget v.mops id = none → mget v1.mops id = none) (hsubs : v1.subs.length = v.subs.length) (hroom : v1.room a r = true)
    (hW : ∀ n ∈ destsOn a r, ∀ l ∈ maskList m, W a n l) (h01 : LaneKept W [a] (v0.withOp op) (v1.withOp op))
    (hsame : (v1.withOp op).mops = (v0.withOp op).mops ∧ (v1.withOp op).subs = (v0.withOp op).subs)
    (hslice : ∀ u j x, a = .slice u j → v.slice u j = some x → v1.slice u j = some (g x)) (hctx : ∀ k, a = .ctx k → v1.ctx k = v.ctx k)
    (hmask : ∀ u, v1.masks u kWatch = s.masks u kWatch) :
    Part W (fun _ _ => v0.withOp op) (fun u _ x => GoesOn s r u m (g x)) (fun _ x y => y = x.stepped r.len.bytes) a v (v1.launchSeen a r m op kinds pc eas) := by
  obtain ⟨hk, ⟨hfo, hfs⟩, ha⟩ := launchOp_part (s := s) g hops hsubs hroom hW h01 hsame hslice hctx
  have hseen : v1.launchSeen a r m op kinds pc eas = (v1.launchOp a r m op).watchAgent a kinds m pc eas := if_pos hroom
  obtain ⟨hwk, hwo, hws⟩ := watchAgent_kept W (v1.launchOp a r m op) a kinds m pc eas
  rw [hseen]
  refine ⟨laneKept_trans hk hwk, ⟨fun id hn => by rw [hwo]; exact hfo id hn, by rw [hws]; exact hfs⟩, ?_⟩
  cases a with
  | slice u j =>
    intro x hx
    obtain ⟨ps, hy, hps⟩ := watchAgent_slice (launchOp_slice m op hroom (hslice u j x rfl hx)) kinds m pc eas
    have hrest := (mapped_mapDests r m (g x)).rest
    have hd : (((g x).mapDests r m).stepped r.len.bytes).depth = (g x).depth := by rw [hrest]; rfl
    have hp : (((g x).mapDests r m).stepped r.len.bytes).pend = (g x).pend := by rw [hrest]; rfl
    have hm : (v1.launchOp (.slice u j) r m op).masks u kWatch = s.masks u kWatch := by
      rw [kept_masks (launchOp_kept hroom hW op), withOp_masks, hmask]
    refine ⟨_, hy, (g x).mapDests r m, ps, mapped_mapDests r m (g x), fun h => hps ?_, by rw [hp]⟩
    rw [hd, hm]
    exact h
  | ctx k => exact ha

/-! ## A gang whose agents enter flight in turn -/

theorem Part.of_const {W : Issuer → Nat → Nat → Prop} {eff : Issuer → State → State} {P : Nat → Nat → Slice → Slice → Prop} {Q : Nat → Ctx → Ctx → Prop}
    {a : Issuer} {v w : State} (h : Part W (fun _ _ => eff a v) P Q a v w) : Part W eff P Q a v w := by
  cases a <;> exact ⟨h.kept, h.fresh, h.agent⟩

/-- What an agent of the gang finds when its turn comes: room for its names, the masks as at issue, and a slice that exists. -/
structure InTurn (r : Raw) (s : State) (a : Issuer) (v : State) : Prop where
  room : v.room a r = true
  masks : ∀ u, v.masks u kWatch = s.masks u kWatch
  slice : ∀ u j, a = .slice u j → ∃ x, v.slice u j = some x

/-- The teams and tasks alone decide what an agent finds in its turn. -/
theorem InTurn.of_teams {r : Raw} {s v w : State} {a : Issuer} (h : InTurn r s a v) (ht : w.teams = v.teams) (hk : w.tasks = v.tasks) : InTurn r s a w where
  room := by
    cases a with
    | slice u j => rw [room_of_slice (slice_of_teams ht u j) (by rw [State.team, State.team, ht]) hk, h.room]
    | ctx k => rfl
  masks u := by rw [← h.masks u, State.masks, State.masks, State.team, State.team, ht]
  slice u j ha := by rw [slice_of_teams ht]; exact h.slice u j ha

/-- The part of another agent leaves it. -/
theorem InTurn.of_kept {W : Issuer → Nat → Nat → Prop} {r : Raw} {s v w : State} {a b : Issuer} (h : InTurn r s b v) (hk : LaneKept W [a] v w) (hne : b ≠ a) :
    InTurn r s b w where
  room := by rw [kept_room hk b (fun hb => hne (List.mem_singleton.mp hb)) r, h.room]
  masks u := by rw [kept_masks hk, h.masks]
  slice u j hb := by rw [hk.slices u j (fun hm => hne (hb ▸ List.mem_singleton.mp hm))]; exact h.slice u j hb

theorem inTurn_of_ready {r : Raw} {s : State} (h : Ready r s) {a : Issuer} (ha : a ∈ s.agents) : InTurn r s a s where
  room := h.2.2 a ha
  masks _ := rfl
  slice u j hj := agents_slice s (curOk_of_issues h.1) u j (hj ▸ ha)

/-- An instruction whose agents, each in its turn, do their parts, which leave what the others find. -/
theorem completes_of_turns {i : Instr} {r : Raw} {s : State} {F eff : Issuer → State → State} {P : Nat → Nat → Slice → Slice → Prop} {Q : Nat → Ctx → Ctx → Prop}
    (he : exec i s = .next (foldS F s.agents s)) (h : Ready r s) (heff : ∀ a b v, InTurn r s b v → InTurn r s b (eff a v))
    (hpart : ∀ a v, a ∈ s.agents → InTurn r s a v → Part (writesOf i s) eff P Q a v (F a v)) : Completes i s eff P Q := by
  refine ⟨_, he, turns_of_fold (InTurn r s) s.agents s h.2.1 (fun a ha => inTurn_of_ready h ha) hpart (fun a b v ha _ hne hGa hGb => ?_)⟩
  exact (heff a b v hGb).of_kept (hpart a v ha hGa).kept hne

/-- The same, the machine outside the agents changed in no team and no task. -/
theorem completes_of_parts {i : Instr} {r : Raw} {s : State} {F eff : Issuer → State → State} {P : Nat → Nat → Slice → Slice → Prop} {Q : Nat → Ctx → Ctx → Prop}
    (he : exec i s = .next (foldS F s.agents s)) (h : Ready r s) (heff : ∀ a v, (eff a v).teams = v.teams ∧ (eff a v).tasks = v.tasks)
    (hpart : ∀ a v, a ∈ s.agents → InTurn r s a v → Part (writesOf i s) eff P Q a v (F a v)) : Completes i s eff P Q :=
  completes_of_turns he h (fun a _ v hv => hv.of_teams (heff a v).1 (heff a v).2) hpart

theorem access_of_go {s : State} {r : Raw} {acc : Nat} {lanes : List (Issuer × Want)} {rows : List (Issuer × El)} (f : Issuer → List El → State → State)
    (h : s.precise acc lanes = .go rows []) :
    s.access r acc lanes f = foldS (fun a t => f a ((rows.filter (fun p => p.1 == a)).map (·.2)) t) s.agents s := by
  rw [State.access, h]
  rfl

theorem checked_of_wants {s : State} {r : Raw} {lanes : List (Issuer × Want)} {rows : List (Issuer × El)} (f : Issuer → List El → State → State)
    (h : wants lanes = .ok rows) :
    s.checked r lanes f = foldS (fun a t => f a ((rows.filter (fun p => p.1 == a)).map (·.2)) t) s.agents s := by
  rw [State.checked, h]

/-- The registers that an agent of the gang writes. -/
theorem writesOf_lanes {i : Instr} {r : Raw} (hraw : i.raw = some r) {s : State} {a : Issuer} (ha : a ∈ s.agents) :
    ∀ n ∈ destsOn a r, ∀ l ∈ maskList (s.acts a r.x), writesOf i s a n l := by
  rw [writesOf_of_raw hraw]
  exact fun n hn l hl => ⟨ha, hn, hl⟩

theorem withOp_quiet (s : State) (op : MemOp) : (s.withOp op).teams = s.teams ∧ (s.withOp op).tasks = s.tasks := ⟨withOp_teams s op, withOp_tasks s op⟩

/-- An operation that a watch may see enters flight, nothing else being changed. -/
theorem launchSeen_plain {i : Instr} {r : Raw} (hraw : i.raw = some r) {s v : State} {a : Issuer} (ha : a ∈ s.agents) (hv : InTurn r s a v) (op : MemOp)
    (kinds pc : Nat) (eas : List Nat) :
    Part (writesOf i s) (fun _ _ => v.withOp op) (fun u j => GoesOn s r u (s.acts (.slice u j) r.x)) (fun _ x y => y = x.stepped r.len.bytes) a v
      (v.launchSeen a r (s.acts a r.x) op kinds pc eas) := by
  have h := launchSeen_part (s := s) (v0 := v) id kinds pc eas (fun _ h => h) rfl hv.room (writesOf_lanes hraw ha) (laneKept_refl _ _ (v.withOp op)) ⟨rfl, rfl⟩
    (fun _ _ _ _ hx => hx) (fun _ _ => rfl) hv.masks
  cases a <;> exact ⟨h.kept, h.fresh, h.agent⟩

/-! ## LD, LDK, EXPHIST -/

/-- The k registers that an LDK takes from those of its home gang before. -/
def State.ldkLoses (s : State) (a : Issuer) (ns : List Nat) : State := match a with | .slice u j => s.takeOverK u j ns | .ctx _ => s

theorem ldkLoses_quiet (s : State) (a : Issuer) (ns : List Nat) : (s.ldkLoses a ns).teams = s.teams ∧ (s.ldkLoses a ns).tasks = s.tasks := by cases a <;> exact ⟨rfl, rfl⟩

theorem ldkLoses_agentsKept (s : State) (a : Issuer) (ns : List Nat) : AgentsKept s (s.ldkLoses a ns) := by
  cases a with
  | slice u j =>
    refine ⟨fun id h => ?_, rfl, fun _ _ => rfl, fun _ => rfl⟩
    have hmap : (s.takeOverK u j ns).mops = s.mops.map (fun p => (p.1, if p.2.ldkOf u j && p.2.since != s.cyc (s.coreOf (.slice u j)).die
        then { p.2 with skip := p.2.skip ++ ns.map (fun n => (n, 0)) } else p.2)) := by
      simp only [State.takeOverK]
      refine List.map_congr_left fun p _ => ?_
      split <;> rfl
    show mget (s.takeOverK u j ns).mops id = none
    rw [hmap, mget_map s.mops (fun p => if p.2.ldkOf u j && p.2.since != s.cyc (s.coreOf (.slice u j)).die
        then { p.2 with skip := p.2.skip ++ ns.map (fun n => (n, 0)) } else p.2), h]
    rfl
  | ctx k => exact .refl s

/-- An LDK of an agent that gives its home gang's address. -/
theorem launchSeen_ldk {i : Instr} {r : Raw} (hraw : i.raw = some r) {s v : State} {a : Issuer} (ha : a ∈ s.agents) (hv : InTurn r s a v) (op : MemOp)
    (kinds pc : Nat) (eas : List Nat) :
    Part (writesOf i s) (fun _ _ => (v.ldkLoses a op.dests).withOp op) (fun u j => GoesOn s r u (s.acts (.slice u j) r.x)) (fun _ x y => y = x.stepped r.len.bytes) a v
      ((v.ldkLoses a op.dests).launchSeen a r (s.acts a r.x) op kinds pc eas) := by
  have hk := ldkLoses_agentsKept v a op.dests
  have hv1 : InTurn r s a (v.ldkLoses a op.dests) := hv.of_teams (ldkLoses_quiet v a _).1 (ldkLoses_quiet v a _).2
  have h := launchSeen_part (s := s) (v := v) (v0 := v.ldkLoses a op.dests) id kinds pc eas hk.ops hk.subs hv1.room (writesOf_lanes hraw ha)
    (laneKept_refl _ _ ((v.ldkLoses a op.dests).withOp op)) ⟨rfl, rfl⟩ (fun u j x _ hx => (hk.slice u j).trans hx) (fun k _ => hk.ctx k) hv1.masks
  cases a <;> exact ⟨h.kept, h.fresh, h.agent⟩

/-- An LDK of an agent whose home gang has its address from another: nothing enters flight. -/
theorem launchOp_none {i : Instr} {r : Raw} (hraw : i.raw = some r) {s v : State} {a : Issuer} (ha : a ∈ s.agents) (hv : InTurn r s a v) {op : MemOp}
    (hop : op.todo.isEmpty = true ∧ op.got.isEmpty = true) :
    Part (writesOf i s) (fun _ _ => v) (fun u j => GoesOn s r u (s.acts (.slice u j) r.x)) (fun _ x y => y = x.stepped r.len.bytes) a v
      (v.launchOp a r (s.acts a r.x) op) := by
  have h := launchOp_part (s := s) (op := op) (v0 := v) id (fun _ h => h) rfl hv.room (writesOf_lanes hraw ha) (laneKept_refl _ _ (v.withOp op)) ⟨rfl, rfl⟩
    (fun _ _ _ _ hx => hx) (fun _ _ => rfl)
  have hnone : v.withOp op = v := if_pos hop
  rw [hnone] at h
  cases a <;> exact ⟨h.kept, h.fresh, h.agent⟩

/-- Settles O31: each agent's load enters flight through `launchSeen_plain`, an LDK through `launchSeen_ldk` where the agent gives its
home gang's address. -/
theorem loadsEnterFlight : Obligations.LoadsEnterFlight := by
  unfold Obligations.LoadsEnterFlight
  refine ⟨both_of_means bodyLd (fun _ => ⟨rfl, fun _ => rfl⟩) (fun _ => ⟨rfl, fun _ => rfl⟩) ?ld,
    both_of_means bodyLdk (fun _ => ⟨rfl, fun _ => rfl⟩) (fun _ => ⟨rfl, fun _ => rfl⟩) ?ldk⟩
  case ld =>
    intro i r _ hi s rows h t hgo
    have he := (hi.exec s).trans (issue_of_issues r s _ h.1)
    rw [bodyLd, access_of_go _ hgo] at he
    exact completes_of_parts he h (fun a v => withOp_quiet v _) (fun a v ha hv => .of_const (launchSeen_plain hi.raw ha hv _ _ _ _))
  case ldk =>
    intro i r _ hi s rows h t arg size words hgo
    have he := (hi.exec s).trans (issue_of_issues r s _ h.1)
    rw [bodyLdk, access_of_go _ hgo] at he
    refine completes_of_parts he h (fun a v => ?_) (fun a v ha hv => ?_)
    · show (if _ then (v.ldkLoses a _).withOp _ else v : State).teams = _ ∧ _
      split
      · exact ⟨(withOp_quiet _ _).1.trans (ldkLoses_quiet v a _).1, (withOp_quiet _ _).2.trans (ldkLoses_quiet v a _).2⟩
      · exact ⟨rfl, rfl⟩
    · refine .of_const ?_
      by_cases hl : (s.ldkLanes r).any (fun p => p.1 == a) = true
      · simp only [if_pos hl]
        exact launchSeen_ldk hi.raw ha hv _ _ _ _
      · simp only [if_neg hl]
        exact launchOp_none hi.raw ha hv ⟨rfl, rfl⟩

/-! ## ST -/

theorem podPut_ctxs (s : State) (c : CoreId) (n : Nat) (data : BitVec 1024) : (s.podPut c n data).ctxs = s.ctxs := rfl

theorem podWrite_ctxs (s : State) (c : CoreId) (pa : Nat) (bs : List Byte) : (s.podWrite c pa bs).ctxs = s.ctxs := by
  refine foldS_same State.ctxs _ _ (fun p _ t => ?_) s
  cases podNode p.1 <;> rfl

theorem wrote_ctxs (s : State) (a : Issuer) (p : Place) (bs : List Byte) : (s.wrote a p bs).ctxs = s.ctxs := by
  rw [State.wrote]
  cases s.team (s.teamOf a) with
  | none => rfl
  | some t => cases p <;> rfl

/-- A context's write. -/
theorem placeWrite_ctxs (s : State) (k op : Nat) (p : Place) (bs : List Byte) (byp : Bool) : ((s.placeWrite (.ctx k) op p bs byp).getD s).ctxs = s.ctxs := by
  cases p with
  | scr u off => rfl
  | phys pa cache =>
    show (if 2 ^ 47 ≤ pa then _ else _ : State).ctxs = s.ctxs
    split
    · exact podWrite_ctxs s _ pa bs
    · exact (engineWrite_memStep s _ pa bs).ctxs

theorem storeNow_ctxs (s : State) (k size : Nat) (els : List El) : (s.storeNow (.ctx k) size els).ctxs = s.ctxs := by
  refine foldS_same State.ctxs _ els (fun e _ t => ?_) s
  cases e.place with
  | none => rfl
  | some p => exact (wrote_ctxs _ _ _ _).trans (placeWrite_ctxs t k 0 p _ false)

/-- A slice with its store counted (R441). -/
def Slice.counted (m : Mask) (x : Slice) : Slice := { x with sseq := if m = 0 then x.sseq else x.sseq + 1 }

theorem countStore_eq (s : State) (u j : Nat) (m : Mask) : s.countStore (.slice u j) m = if m = 0 then s else s.modSlice u j (Slice.counted m) := by
  by_cases hm : m = 0
  · rw [if_pos hm]
    exact if_pos hm
  · have hc : Slice.counted m = fun x => { x with sseq := x.sseq + 1 } := by
      funext x
      rw [Slice.counted, if_neg hm]
    rw [if_neg hm, hc]
    exact if_neg hm

theorem countStore_slice {s : State} {u j : Nat} {x : Slice} (hx : s.slice u j = some x) (m : Mask) : (s.countStore (.slice u j) m).slice u j = some (x.counted m) := by
  rw [countStore_eq]
  split
  · next hm => rw [hx, Slice.counted, if_pos hm]
  · rw [slice_modSlice, if_pos ⟨rfl, rfl⟩, hx]
    rfl

/-- What a change of a slice that keeps its lanes, predicates and names leaves of an instruction's room. -/
theorem room_of_slFields {s t : State} {u j : Nat} (hact : (t.sl u j).act = (s.sl u j).act) (hpreds : (t.sl u j).preds = (s.sl u j).preds)
    (hnames : (t.sl u j).names = (s.sl u j).names) (hceil : t.ceilOf u = s.ceilOf u) (r : Raw) : t.room (.slice u j) r = s.room (.slice u j) r := by
  have hok : t.predOk (.slice u j) r.x = s.predOk (.slice u j) r.x := by
    funext l
    simp only [State.predOk, State.pred, State.predsOf, hpreds]
  have hacts : t.acts (.slice u j) r.x = s.acts (.slice u j) r.x := by simp only [State.acts, State.actOf, hok, hact]
  have hheld (f d : List Nat) : (t.sl u j).heldAfter f d = (s.sl u j).heldAfter f d := by simp only [Slice.heldAfter, Slice.free, hnames]
  show (t.acts (.slice u j) r.x == 0 || decide ((t.sl u j).heldAfter _ _ ≤ t.ceilOf u)) = (s.acts (.slice u j) r.x == 0 || decide ((s.sl u j).heldAfter _ _ ≤ s.ceilOf u))
  rw [hacts, hheld, hceil]

theorem ceilOf_modSlice (s : State) (u j : Nat) (f : Slice → Slice) (v : Nat) : (s.modSlice u j f).ceilOf v = s.ceilOf v :=
  kept_ceil (modSlice_kept (fun _ _ _ => True) s u j f) v

theorem sl_modSlice {s : State} {u j : Nat} {x : Slice} (hx : s.slice u j = some x) (f : Slice → Slice) : (s.modSlice u j f).sl u j = f x := by
  rw [State.sl, slice_modSlice, if_pos ⟨rfl, rfl⟩, hx]
  rfl

theorem countStore_kept (W : Issuer → Nat → Nat → Prop) (s : State) (u j : Nat) (m : Mask) : LaneKept W [.slice u j] s (s.countStore (.slice u j) m) := by
  rw [countStore_eq]
  split
  · exact laneKept_refl W _ s
  · exact modSlice_kept W s u j _

theorem countStore_room {s : State} {u j : Nat} {x : Slice} (hx : s.slice u j = some x) (m : Mask) (r : Raw) :
    (s.countStore (.slice u j) m).room (.slice u j) r = s.room (.slice u j) r := by
  rw [countStore_eq]
  split
  · rfl
  · have hsl := sl_modSlice hx (Slice.counted m)
    exact room_of_slFields (by rw [hsl, sl_of_slice hx]; rfl) (by rw [hsl, sl_of_slice hx]; rfl) (by rw [hsl, sl_of_slice hx]; rfl) (ceilOf_modSlice s u j _ u) r

theorem withOp_countStore (s : State) (u j : Nat) (m : Mask) (op : MemOp) :
    (s.countStore (.slice u j) m).withOp op = (s.withOp op).countStore (.slice u j) m := by
  rw [countStore_eq, countStore_eq]
  split
  · rfl
  · exact withOp_modSlice s u j _ op

theorem sseqOf_countStore {s : State} {u j : Nat} {x : Slice} (hx : s.slice u j = some x) (m : Mask) :
    (s.countStore (.slice u j) m).sseqOf (.slice u j) = if m = 0 then s.sseqOf (.slice u j) else s.sseqOf (.slice u j) + 1 := by
  have hy : ((s.countStore (.slice u j) m).sl u j) = x.counted m := sl_of_slice (countStore_slice hx m)
  show ((s.countStore (.slice u j) m).sl u j).sseq = if m = 0 then (s.sl u j).sseq else (s.sl u j).sseq + 1
  rw [hy, sl_of_slice hx]
  rfl

/-- An agent of a gang's slices. -/
theorem slice_of_engine_g {s : State} (h : s.engine = .g) {a : Issuer} (ha : a ∈ s.agents) : ∃ u j, a = .slice u j := by
  unfold State.engine at h
  unfold State.agents at ha
  cases hc : s.cur with
  | idle => rw [hc] at ha; cases ha
  | gang u is =>
    rw [hc] at ha
    obtain ⟨j, -, rfl⟩ := List.mem_map.mp ha
    exact ⟨u, j, rfl⟩
  | ctx m c => rw [hc] at h; cases m <;> cases h

/-- A context that issues is the one agent. -/
theorem ctx_of_engine {s : State} (hok : s.curOk = true) (h : s.engine ≠ .g) : ∃ k, s.agents = [.ctx k] := by
  unfold State.engine at h
  unfold State.agents
  unfold State.curOk at hok
  cases hc : s.cur with
  | idle => rw [hc] at hok; cases hok
  | gang u is => rw [hc] at h; exact absurd rfl h
  | ctx m c => exact ⟨_, rfl⟩

/-- A store of a slice enters flight, counted. -/
theorem launchSeen_store {i : Instr} {r : Raw} (hraw : i.raw = some r) {s v : State} {u j : Nat} (ha : .slice u j ∈ s.agents) (hv : InTurn r s (.slice u j) v) (op : MemOp)
    (kinds pc : Nat) (eas : List Nat) :
    Part (writesOf i s) (fun _ _ => v.withOp op) (fun u j x => GoesOn s r u (s.acts (.slice u j) r.x) (x.counted (s.acts (.slice u j) r.x))) (fun _ _ _ => False)
      (.slice u j) v ((v.countStore (.slice u j) (s.acts (.slice u j) r.x)).launchSeen (.slice u j) r (s.acts (.slice u j) r.x) op kinds pc eas) := by
  have hk := countStore_kept (writesOf i s) v u j (s.acts (.slice u j) r.x)
  suffices h : Part (writesOf i s) (fun _ _ => v.withOp op) (fun u' _ x => GoesOn s r u' (s.acts (.slice u j) r.x) (x.counted (s.acts (.slice u j) r.x)))
      (fun _ x y => y = x.stepped r.len.bytes) (.slice u j) v _ from ⟨h.kept, h.fresh, h.agent⟩
  refine launchSeen_part (Slice.counted (s.acts (.slice u j) r.x)) kinds pc eas hk.noOps hk.subs.1 ?_ (writesOf_lanes hraw ha) ?_ ?_ ?_ nofun ?_
  · obtain ⟨x, hx⟩ := hv.slice u j rfl
    rw [countStore_room hx, hv.room]
  · rw [withOp_countStore]
    exact countStore_kept _ _ u j _
  · rw [withOp_countStore, countStore_eq]
    split <;> exact ⟨rfl, rfl⟩
  · rintro u' j' x ⟨⟩ hx
    exact countStore_slice hx _
  · exact fun u' => (kept_masks hk u' _).trans (hv.masks u')

/-- Settles O32: a slice's store enters flight through `launchSeen_store`; a context's is performed by `storeNow` before its PC moves. -/
theorem storesEnterFlight : Obligations.StoresEnterFlight := by
  unfold Obligations.StoresEnterFlight
  refine both_of_means bodySt (fun _ => ⟨rfl, fun _ => rfl⟩) (fun _ => ⟨rfl, fun _ => rfl⟩) ?_
  intro i r _ hi s rows h t size lanes els seq
  have he := (hi.exec s).trans (issue_of_issues r s _ h.1)
  refine ⟨fun hg hw => ?_, fun hg hgo hperf => ?_⟩
  · rw [bodySt, hg] at he
    simp only at he
    refine completes_of_parts (he.trans (congrArg Host.Outcome.next (checked_of_wants _ hw))) h (fun a v => withOp_quiet v _) (fun a v ha hv => .of_const ?_)
    obtain ⟨u, j, rfl⟩ := slice_of_engine_g hg ha
    obtain ⟨x, hx⟩ := hv.slice u j rfl
    simp only [sseqOf_countStore hx]
    exact launchSeen_store hi.raw ha hv _ _ _ _
  · obtain ⟨k, hk⟩ := ctx_of_engine (curOk_of_issues h.1) hg
    have ha : Issuer.ctx k ∈ s.agents := by rw [hk]; exact List.mem_singleton_self _
    obtain ⟨hun, hopen⟩ := hperf _ ha
    have hbody : bodySt r s = (s.storeNow (.ctx k) size (els (.ctx k))).advance (.ctx k) r.len.bytes := by
      rw [bodySt]
      split
      · next hg' => exact absurd hg' hg
      · refine (access_of_go _ hgo).trans ?_
        rw [hk]
        show (if (s.unperformed (.ctx k) s.nextId || !s.elsOpen (.ctx k) size (els (.ctx k))) = true then _ else _) = _
        rw [hun, hopen]
        rfl
    refine ⟨_, he, ?_⟩
    rw [hk, hbody]
    refine .cons ⟨modCtx_kept _ _ k (·.stepped r.len.bytes), ⟨fun _ _ => rfl, rfl⟩, ?_⟩ (.nil _)
    show ((s.storeNow (.ctx k) size (els (.ctx k))).advance (.ctx k) r.len.bytes).ctx k = (s.ctx k).stepped r.len.bytes
    rw [advance_ctx, ctx_modCtx, if_pos rfl, State.ctx, storeNow_ctxs]
    rfl

/-! ## ATOM and RED -/

/-- A slice with its RED and its draws counted. -/
def Slice.atomCounted (red draws : Bool) (m : Mask) (x : Slice) : Slice :=
  let y := if red then x.counted m else x
  if draws then { y with srcnt := y.srcnt.upd m (fun l => y.srcnt.get l + 1) } else y

/-- The counts of an ATOM or RED as it issues. -/
def State.countAtom (s : State) (a : Issuer) (red draws : Bool) (m : Mask) : State :=
  let t := if red then s.countStore a m else s
  if draws then t.countDraws a m else t

theorem countAtom_slice {s : State} {u j : Nat} {x : Slice} (hx : s.slice u j = some x) (red draws : Bool) (m : Mask) :
    (s.countAtom (.slice u j) red draws m).slice u j = some (x.atomCounted red draws m) := by
  have hstore : (if red then s.countStore (.slice u j) m else s).slice u j = some (if red then x.counted m else x) := by
    cases red with
    | true => exact countStore_slice hx m
    | false => exact hx
  cases draws with
  | false => exact hstore
  | true =>
    show (State.modSlice _ u j _).slice u j = _
    rw [slice_modSlice, if_pos ⟨rfl, rfl⟩, hstore]
    rfl

/-- On a slice the counts are a change of the slice alone. -/
theorem countAtom_eq (s : State) (u j : Nat) (red draws : Bool) (m : Mask) :
    s.countAtom (.slice u j) red draws m = s ∨ ∃ f, s.countAtom (.slice u j) red draws m = s.modSlice u j f := by
  have hstore : (if red then s.countStore (.slice u j) m else s) = s ∨ ∃ f, (if red then s.countStore (.slice u j) m else s) = s.modSlice u j f := by
    cases red with
    | false => exact .inl rfl
    | true =>
      show s.countStore (.slice u j) m = s ∨ ∃ f, s.countStore (.slice u j) m = s.modSlice u j f
      rw [countStore_eq]
      split
      · exact .inl rfl
      · exact .inr ⟨_, rfl⟩
  cases draws with
  | false => exact hstore
  | true =>
    refine .inr ?_
    show ∃ f, (State.modSlice _ u j _) = _
    rcases hstore with h | ⟨f, h⟩ <;> rw [h]
    · exact ⟨_, rfl⟩
    · exact ⟨_, modSlice_modSlice s u j f _⟩

theorem countAtom_room {s : State} {u j : Nat} {x : Slice} (hx : s.slice u j = some x) (red draws : Bool) (m : Mask) (r : Raw) :
    (s.countAtom (.slice u j) red draws m).room (.slice u j) r = s.room (.slice u j) r := by
  have hy : (s.countAtom (.slice u j) red draws m).sl u j = x.atomCounted red draws m := sl_of_slice (countAtom_slice hx red draws m)
  have hceil : (s.countAtom (.slice u j) red draws m).ceilOf u = s.ceilOf u := by
    rcases countAtom_eq s u j red draws m with h | ⟨f, h⟩ <;> rw [h]
    exact ceilOf_modSlice s u j f u
  refine room_of_slFields ?_ ?_ ?_ hceil r <;> rw [hy, sl_of_slice hx] <;> cases red <;> cases draws <;> rfl

/-- An ATOM or RED past its release and its gate (R292, R296, R475). -/
theorem atomIssue_eq {s v v1 : State} {r : Raw} {kind : MemKind} {a : Issuer} {els : List El} (hroom : v.room a r = true) (hroom1 : v1.room a r = true)
    (hrr : v1.rrmodeOf a ≠ 2) (hout : v1.gateOutOf a = false)
    (hrel : bits r.x.imm.toNat 5 4 / 2 = 1 ∧ s.acts a r.x ≠ 0 → v.release a (scopeOf r.x.scope.toNat) = (true, v1))
    (hnrel : ¬ (bits r.x.imm.toNat 5 4 / 2 = 1 ∧ s.acts a r.x ≠ 0) → v1 = v) (seq : Word) (draws : Bool)
    (hdraws : draws = true ↔ rty r 11 = 14 ∧ bits r.x.imm.toNat 3 0 = 0 ∧ Contract.mode (s.contractOf a) r.x.rm.toNat = .sr)
    (hseq : (v1.countAtom a (decide (kind = .red)) draws (s.acts a r.x)).sseqOf a = seq) :
    s.atomIssue r kind a els v = (v1.countAtom a (decide (kind = .red)) draws (s.acts a r.x)).launchSeen a r (s.acts a r.x)
      { s.opOf a r kind (rty r 11) 1 (s.acts a r.x) els with
        opc := bits r.x.imm.toNat 3 0, order := bits r.x.imm.toNat 5 4, scope := scopeOf r.x.scope.toNat, seq := seq, vas := els.map (fun e => (e.lane, e.va)) }
      (if kind = .red then 1 else 3) (s.pcOf a) ((maskList (s.acts a r.x)).map (s.atomEa a r)) := by
  have hstart : (if bits r.x.imm.toNat 5 4 / 2 = 1 ∧ s.acts a r.x ≠ 0 ∧ v.room a r = true then v.release a (scopeOf r.x.scope.toNat) else (true, v)) = (true, v1) := by
    by_cases h : bits r.x.imm.toNat 5 4 / 2 = 1 ∧ s.acts a r.x ≠ 0
    · rw [if_pos ⟨h.1, h.2, hroom⟩, hrel h]
    · rw [if_neg (fun hn => h ⟨hn.1, hn.2.1⟩), hnrel h]
  have hgate : v1.gateOf a els = .pass none := by
    have hk : ∀ k, v1.taskOf (v1.teamOf a) = some k → k.rrmode ≠ 2 := fun k hk => by
      rw [State.rrmodeOf, hk] at hrr
      exact hrr
    simp only [State.gateOf]
    split
    · next t k _ htask => exact if_pos (.inl (hk k htask))
    · rfl
  have hcount : (if rty r 11 = 14 ∧ bits r.x.imm.toNat 3 0 = 0 ∧ Contract.mode (s.contractOf a) r.x.rm.toNat = .sr
      then (if kind = .red then v1.countStore a (s.acts a r.x) else v1).countDraws a (s.acts a r.x) else if kind = .red then v1.countStore a (s.acts a r.x) else v1) =
      v1.countAtom a (decide (kind = .red)) draws (s.acts a r.x) := by
    simp only [State.countAtom, hdraws, decide_eq_true_eq]
  unfold State.atomIssue
  simp only [hstart, hroom1, hout, hgate, hcount, hseq, Bool.not_true, Bool.false_eq_true, if_false]

/-- A slice's ATOM or RED, its counts made, enters flight. -/
theorem launchSeen_atom_slice {W : Issuer → Nat → Nat → Prop} {v v1 : State} {u j : Nat} {r : Raw} {m : Mask} (hW : ∀ n ∈ destsOn (.slice u j) r, ∀ l ∈ maskList m, W (.slice u j) n l)
    (hv : AgentsKept v v1) (hex : ∃ x, v1.slice u j = some x) (hroom : v1.room (.slice u j) r = true) (red draws : Bool) (op : MemOp) (kinds pc : Nat) (eas : List Nat) :
    Part W (fun _ _ => v1.withOp op) (fun u' _ x => GoesOn v1 r u' m (x.atomCounted red draws m)) (fun _ x y => y = x.stepped r.len.bytes) (.slice u j) v
      ((v1.countAtom (.slice u j) red draws m).launchSeen (.slice u j) r m op kinds pc eas) := by
  have hkept (t : State) : (∃ f, t = v1.modSlice u j f) ∨ t = v1 → LaneKept W [.slice u j] v1 t ∧ LaneKept W [.slice u j] (v1.withOp op) (t.withOp op) ∧
      (t.withOp op).mops = (v1.withOp op).mops ∧ (t.withOp op).subs = (v1.withOp op).subs := by
    rintro (⟨f, rfl⟩ | rfl)
    · rw [withOp_modSlice]
      exact ⟨modSlice_kept W v1 u j f, modSlice_kept W _ u j f, rfl, rfl⟩
    · exact ⟨laneKept_refl W _ _, laneKept_refl W _ _, rfl, rfl⟩
  obtain ⟨hk, hk', hsame⟩ := hkept _ (countAtom_eq v1 u j red draws m).symm
  obtain ⟨x, hx⟩ := hex
  refine launchSeen_part (Slice.atomCounted red draws m) kinds pc eas (fun id h => hk.noOps id (hv.ops id h)) (hk.subs.1.trans hv.subs) ?_ hW hk' hsame ?_ nofun
    (fun u' => kept_masks hk u' _)
  · rw [countAtom_room hx, hroom]
  · rintro u' j' y ⟨⟩ hy
    exact countAtom_slice ((hv.slice u j).trans hy) red draws m

/-- A context's ATOM or RED enters flight. -/
theorem launchSeen_atom_ctx {W : Issuer → Nat → Nat → Prop} {v v2 : State} {k : Nat} {r : Raw} {m : Mask} {P : Nat → Nat → Slice → Slice → Prop}
    (hW : ∀ n ∈ destsOn (.ctx k) r, ∀ l ∈ maskList m, W (.ctx k) n l) (hv : AgentsKept v v2) (op : MemOp) (kinds pc : Nat) (eas : List Nat) :
    Part W (fun _ _ => v2.withOp op) P (fun _ x y => y = x.stepped r.len.bytes) (.ctx k) v (v2.launchSeen (.ctx k) r m op kinds pc eas) := by
  have hroom : v2.room (.ctx k) r = true := rfl
  have h := launchSeen_part (s := v2) (v0 := v2) id kinds pc eas hv.ops hv.subs hroom hW (laneKept_refl W _ (v2.withOp op)) ⟨rfl, rfl⟩ (fun _ _ _ h => nomatch h)
    (fun k' _ => hv.ctx k') (fun _ => rfl)
  exact ⟨h.kept, h.fresh, h.agent⟩

/-- What every lane of an ATOM or RED asks for. -/
def State.atomWants (s : State) (r : Raw) : List (Issuer × Want) :=
  s.laneWants r (fun a l => match s.laneEls a l (s.atomEa a r l) (tyBits (rty r 11) / 8) 1 (tyBits (rty r 11) / 8) { priv := false, spill := false } with
    | .ok es => .ok (es.map (fun e => { e with data := s.srcB a r (rty r 11) l, cmp := s.readV a (tyBits (rty r 11) / 8 == 8) r.x.d.toNat l, draw := s.atomDraw a l }))
    | .error e => .error e)

/-- An ATOM or RED whose addresses pass their checks issues agent by agent. -/
theorem atom_exec {kind : MemKind} {i : Instr} {r : Raw} (hi : Means i r (bodyAtom r kind)) {s : State} {rows : List (Issuer × El)} (h : Issues r s = true)
    (hgo : if kind = .red ∧ s.engine = .g then wants (s.atomWants r) = .ok rows else s.precise accAtomic (s.atomWants r) = .go rows []) :
    exec i s = .next (foldS (fun a v => s.atomIssue r kind a ((rows.filter (fun p => p.1 == a)).map (·.2)) v) s.agents s) := by
  rw [hi.exec, issue_of_issues r s _ h]
  refine congrArg Host.Outcome.next ?_
  by_cases hg : kind = .red ∧ s.engine = .g
  · rw [if_pos hg] at hgo
    have hb : bodyAtom r kind s = s.checked r (s.atomWants r) (s.atomIssue r kind) := by
      unfold bodyAtom
      rw [hg.1, hg.2]
      rfl
    rw [hb, checked_of_wants _ hgo]
  · rw [if_neg hg] at hgo
    have hb : bodyAtom r kind s = s.access r accAtomic (s.atomWants r) (s.atomIssue r kind) := by
      unfold bodyAtom
      split
      · next he => exact absurd ⟨rfl, he⟩ hg
      · rfl
    rw [hb, access_of_go _ hgo]

/-- The count of stores that an ATOM or RED of a slice leaves. -/
theorem countAtom_sseq {s : State} {u j : Nat} {x : Slice} (hx : s.slice u j = some x) (red draws : Bool) (m : Mask) :
    (s.countAtom (.slice u j) red draws m).sseqOf (.slice u j) = if red = true ∧ m ≠ 0 then x.sseq + 1 else x.sseq := by
  show ((s.countAtom (.slice u j) red draws m).sl u j).sseq = _
  rw [sl_of_slice (countAtom_slice hx red draws m)]
  by_cases hm : m = 0 <;> cases red <;> cases draws <;> simp [Slice.atomCounted, Slice.counted, hm]

/-- A slice after its counts, by its fields. -/
theorem atomCounted_eq (red draws : Bool) (m : Mask) (x : Slice) : x.atomCounted red draws m =
    { x with sseq := if red = true ∧ m ≠ 0 then x.sseq + 1 else x.sseq, srcnt := if draws = true then x.srcnt.upd m (fun l => x.srcnt.get l + 1) else x.srcnt } := by
  by_cases hm : m = 0 <;> cases red <;> cases draws <;> simp [Slice.atomCounted, Slice.counted, hm]

/-- The counts of a context's ATOM or RED: one draw of its team's copy stream. -/
theorem countAtom_ctx (s : State) (k : Nat) (red draws : Bool) (m : Mask) : s.countAtom (.ctx k) red draws m =
    if draws = true ∧ m ≠ 0 then s.modTeam (s.teamOf (.ctx k)) (fun t => { t with copyCnt := t.copyCnt + 1 }) else s := by
  have hred : (if red then s.countStore (.ctx k) m else s) = s := by cases red <;> rfl
  show (if draws then (if red then s.countStore (.ctx k) m else s).countDraws (.ctx k) m else (if red then s.countStore (.ctx k) m else s)) = _
  rw [hred]
  by_cases hm : m = 0 <;> cases draws <;> simp [State.countDraws, hm]

/-- What O33 says of an instruction that is an ATOM or a RED. -/
theorem atomics_of {kind : MemKind} {i : Instr} {r : Raw} (hi : Means i r (bodyAtom r kind)) :
    (∀ s rows, Ready r s → (if kind = .red ∧ s.engine = .g then wants (s.atomWants r) = .ok rows else s.precise accAtomic (s.atomWants r) = .go rows []) →
      exec i s = .next (foldS (fun a v => s.atomIssue r kind a ((rows.filter (fun p => p.1 == a)).map (·.2)) v) s.agents s)) ∧
    ∀ (s v v1 : State) a els, let m := s.acts a r.x
      let draws := rty r 11 = 14 ∧ bits r.x.imm.toNat 3 0 = 0 ∧ Contract.mode (s.contractOf a) r.x.rm.toNat = .sr
      a ∈ s.agents → (∀ u j, a = .slice u j → (v1.slice u j).isSome = true) → v.room a r = true → v1.room a r = true → v1.rrmodeOf a ≠ 2 → v1.gateOutOf a = false →
      (bits r.x.imm.toNat 5 4 / 2 = 1 ∧ m ≠ 0 → v.release a (scopeOf r.x.scope.toNat) = (true, v1)) → (¬(bits r.x.imm.toNat 5 4 / 2 = 1 ∧ m ≠ 0) → v1 = v) →
      let seq : Word := match a with | .slice _ _ => if kind = .red ∧ m ≠ 0 then v1.sseqOf a + 1 else v1.sseqOf a | .ctx _ => 0
      let v2 := match a with
        | .slice _ _ => v1
        | .ctx _ => if draws ∧ m ≠ 0 then v1.modTeam (v1.teamOf a) (fun t => { t with copyCnt := t.copyCnt + 1 }) else v1
      Part (writesRaw r s) (fun _ _ => v2.withOp
          { s.opOf a r kind (rty r 11) 1 m els with
            opc := bits r.x.imm.toNat 3 0, order := bits r.x.imm.toNat 5 4, scope := scopeOf r.x.scope.toNat, seq := seq, vas := els.map (fun e => (e.lane, e.va)) })
        (fun u _ x => GoesOn v1 r u m { x with sseq := seq, srcnt := if draws then x.srcnt.upd m (fun l => x.srcnt.get l + 1) else x.srcnt })
        (fun _ x y => y = x.stepped r.len.bytes) a v (s.atomIssue r kind a els v) := by
  refine ⟨fun s rows h hgo => atom_exec hi h.1 hgo, ?_⟩
  intro s v v1 a els m draws ha hex hroom hroom1 hrr hout hrel hnrel seq v2
  have hv : AgentsKept v v1 := by
    by_cases h : bits r.x.imm.toNat 5 4 / 2 = 1 ∧ m ≠ 0
    · exact (release_of_eq (hrel h)).agentsKept
    · rw [hnrel h]
      exact .refl v
  have hW : ∀ n ∈ destsOn a r, ∀ l ∈ maskList m, writesRaw r s a n l := fun n hn l hl => ⟨ha, hn, hl⟩
  cases a with
  | slice u j =>
    obtain ⟨x1, hx1⟩ := Option.isSome_iff_exists.mp (hex u j rfl)
    have hs1 : v1.sseqOf (.slice u j) = x1.sseq := congrArg Slice.sseq (sl_of_slice hx1)
    have hseq : (v1.countAtom (.slice u j) (decide (kind = .red)) (decide draws) m).sseqOf (.slice u j) = seq := by
      rw [countAtom_sseq hx1, ← hs1]
      simp only [decide_eq_true_eq]
      rfl
    rw [atomIssue_eq hroom hroom1 hrr hout hrel hnrel seq (decide draws) decide_eq_true_iff hseq]
    obtain ⟨hk, hf, hagent⟩ := launchSeen_atom_slice (W := writesRaw r s) hW hv ⟨x1, hx1⟩ hroom1 (decide (kind = .red)) (decide draws)
      { s.opOf (.slice u j) r kind (rty r 11) 1 m els with
        opc := bits r.x.imm.toNat 3 0, order := bits r.x.imm.toNat 5 4, scope := scopeOf r.x.scope.toNat, seq := seq, vas := els.map (fun e => (e.lane, e.va)) }
      (if kind = .red then 1 else 3) (s.pcOf (.slice u j)) ((maskList m).map (s.atomEa (.slice u j) r))
    refine ⟨hk, hf, fun x hx => ?_⟩
    obtain ⟨y, hy, hgo⟩ := hagent x hx
    refine ⟨y, hy, ?_⟩
    have hxx : x1 = x := by
      rw [hv.slice, hx] at hx1
      exact (Option.some.inj hx1).symm
    have hsx : (if decide (kind = .red) = true ∧ m ≠ 0 then x.sseq + 1 else x.sseq) = seq := by
      rw [← hxx, ← hs1]
      simp only [decide_eq_true_eq]
      rfl
    rw [atomCounted_eq, hsx] at hgo
    simp only [decide_eq_true_eq] at hgo
    exact hgo
  | ctx k =>
    have hc : v1.countAtom (.ctx k) (decide (kind = .red)) (decide draws) m = v2 := by
      rw [countAtom_ctx]
      simp only [decide_eq_true_eq]
      rfl
    rw [atomIssue_eq hroom hroom1 hrr hout hrel hnrel seq (decide draws) decide_eq_true_iff rfl, hc]
    refine launchSeen_atom_ctx hW (hv.trans ?_) _ _ _ _
    exact .of_ite (fun _ => modTeam_agentsKept v1 _ _ (fun _ => rfl)) (fun _ => .refl v1)

/-- Settles O33: `atom_exec` for the gang; one agent by `atomIssue_eq`, with `launchSeen_atom_slice` or `launchSeen_atom_ctx`. -/
theorem atomicsEnterFlight : Obligations.AtomicsEnterFlight := by
  unfold Obligations.AtomicsEnterFlight
  refine ⟨both_of_means (bodyAtom · .atom) (fun _ => ⟨rfl, fun _ => rfl⟩) (fun _ => ⟨rfl, fun _ => rfl⟩) (fun i r _ hi => ?_),
    both_of_means (bodyAtom · .red) (fun _ => ⟨rfl, fun _ => rfl⟩) (fun _ => ⟨rfl, fun _ => rfl⟩) (fun i r _ hi => ?_)⟩
  · exact atomics_of hi
  · exact atomics_of hi

/-! ## EXPHIST and the caches -/

/-- An agent's result after a change that it does not see. -/
theorem commit_part {W : Issuer → Nat → Nat → Prop} {v v' : State} {a : Issuer} {r : Raw} {m : Mask} {dst : ODst} {f : Nat → Out} (hd : OneDest r dst)
    (hv : AgentsKept v v') (hroom : v'.room a r = true) (hW : ∀ n ∈ destsOn a r, ∀ l ∈ maskList m, W a n l) :
    Part W (fun _ _ => v') (fun _ _ => SliceGot r m dst f) (fun _ => CtxGot r m dst f) a v (v'.commit r a m dst f) := by
  rw [commit_of_room v' r a m dst f hroom]
  have hk := committed_kept W v' r a m dst f hW
  refine ⟨hk, committed_fresh hk hv.ops hv.subs, ?_⟩
  cases a with
  | slice u j =>
    intro x hx
    refine ⟨_, ?_, sliceGot x r m dst f hd⟩
    rw [committed_slice, hv.slice, hx]
    rfl
  | ctx k =>
    show CtxGot r m dst f (v.ctx k) ((v'.committed r (.ctx k) m dst f).ctx k)
    rw [committed_ctx, hv.ctx]
    exact ctxGot _ r m dst f

theorem askWalk_memStep (s : State) (r : Req) (va : Nat) (w : Waiter) : MemStep s (s.askWalk r va w) := ⟨rfl, id⟩

theorem rdcDrop_memStep (s : State) (d line : Nat) : MemStep s (s.rdcDrop d line) := modDie_memStep s _ _

theorem cacheTr_memStep (s : State) (a : Issuer) (e : El) : MemStep s (s.cacheTr a e).2 := by
  rw [State.cacheTr]
  split
  · exact askWalk_memStep s _ _ _
  · exact .refl s

theorem cacheLane_memStep (s : State) (r : Raw) (a : Issuer) (e : El) : MemStep s (s.cacheLane r a e) := by
  have htr := cacheTr_memStep s a e
  unfold State.cacheLane
  simp only
  split
  · exact .refl s
  · exact .refl s
  · split
    · next heq =>
      rw [heq] at htr
      refine .of_ite (fun _ => .of_ite (fun _ => (htr.trans (wcDrain_memStep _ _ _)).trans (modCore_memStep _ _ _)) (fun _ => htr)) (fun _ => .of_ite (fun _ => htr) (fun _ => ?_))
      split
      · exact htr.trans (l1Back_memStep _ _ _)
      · exact (htr.trans (l1Drop_memStep _ _ _)).trans (rdcDrop_memStep _ _ _)
      · split
        · exact .of_ite (fun _ => htr.trans (l1Read_memStep _ _ _ _ _ _)) (fun _ => htr.trans (rdcRead_memStep _ _ _ _ _))
        · exact htr.trans (rdcRead_memStep _ _ _ _ _)
    · next heq =>
      rw [heq] at htr
      exact htr

/-- PREF, CFLUSH or CINV of an agent: its result writes nothing, after the effect on each lane's line. -/
theorem cache_completes {i : Instr} {r : Raw} (hi : Means i r (bodyCache r)) {s : State} {rows : List (Issuer × El)} (h : Ready r s)
    (hw : wants (s.laneWants r (fun a l => s.laneEls a l (s.ea a r l) 1 1 1 {})) = .ok rows) :
    Completes i s (fun a v => foldS (fun e v => v.cacheLane r a e) ((rows.filter (fun p => p.1 == a)).map (·.2)) v)
      (fun u j => SliceGot r (s.acts (.slice u j) r.x) .none (fun _ => {})) (fun k => CtxGot r (s.acts (.ctx k) r.x) .none (fun _ => {})) := by
  have hstep (a : Issuer) (v : State) := MemStep.foldS (fun e v => v.cacheLane r a e) (fun e t => cacheLane_memStep t r a e) ((rows.filter (fun p => p.1 == a)).map (·.2)) v
  have he := (hi.exec s).trans (issue_of_issues r s _ h.1)
  rw [bodyCache, checked_of_wants _ hw] at he
  refine completes_of_parts he h (fun a v => ⟨(hstep a v).teams, (hstep a v).tasks⟩) (fun a v ha hv => .of_const ?_)
  have hv1 := hv.of_teams (hstep a v).teams (hstep a v).tasks
  have hp := commit_part (m := s.acts a r.x) (f := fun _ => {}) (oneDest_none r) (hstep a v).agentsKept hv1.room (writesOf_lanes hi.raw ha)
  cases a <;> exact ⟨hp.kept, hp.fresh, hp.agent⟩

/-- Settles O34: `launchSeen_plain` for EXPHIST, `cache_completes` for the others. -/
theorem exphistAndCacheControl : Obligations.ExphistAndCacheControl := by
  unfold Obligations.ExphistAndCacheControl
  refine ⟨both_of_means bodyExphist (fun _ => ⟨rfl, fun _ => rfl⟩) (fun _ => ⟨rfl, fun _ => rfl⟩) ?_,
    both_of_means bodyCache (fun _ => ⟨rfl, fun _ => rfl⟩) (fun _ => ⟨rfl, fun _ => rfl⟩) (fun i r _ hi s rows h hw => cache_completes hi h hw),
    both_of_means bodyCache (fun _ => ⟨rfl, fun _ => rfl⟩) (fun _ => ⟨rfl, fun _ => rfl⟩) (fun i r _ hi s rows h hw => cache_completes hi h hw),
    both_of_means bodyCache (fun _ => ⟨rfl, fun _ => rfl⟩) (fun _ => ⟨rfl, fun _ => rfl⟩) (fun i r _ hi s rows h hw => cache_completes hi h hw)⟩
  intro i r _ hi s rows h hgo
  have he := (hi.exec s).trans (issue_of_issues r s _ h.1)
  rw [bodyExphist, access_of_go _ hgo] at he
  exact completes_of_parts he h (fun a v => withOp_quiet v _) (fun a v ha hv => .of_const (launchSeen_plain hi.raw ha hv _ _ _ _))

end Sys2Proof.Machine

/-!
PROOFS. Instructions on arrival words (R300) and copies (R301 to R306).
-/
namespace Sys2Proof.Machine

/-! ## Changes of scratchpads -/

/-- From s to t no slice, context or task has changed, and of no team its task and its masks. -/
structure TeamsKept (s t : State) : Prop where
  agents : AgentsKept s t
  team : ∀ u, (t.team u).map (fun v => (v.task, v.trapMask)) = (s.team u).map (fun v => (v.task, v.trapMask))
  tasks : t.tasks = s.tasks

theorem TeamsKept.refl (s : State) : TeamsKept s s := ⟨.refl s, fun _ => rfl, rfl⟩

theorem TeamsKept.trans {s t w : State} (h : TeamsKept s t) (g : TeamsKept t w) : TeamsKept s w :=
  ⟨h.agents.trans g.agents, fun u => (g.team u).trans (h.team u), g.tasks.trans h.tasks⟩

theorem TeamsKept.of_ite {c : Prop} [Decidable c] {s a b : State} (ha : c → TeamsKept s a) (hb : ¬ c → TeamsKept s b) : TeamsKept s (if c then a else b) :=
  iteInduction (motive := TeamsKept s) ha hb

theorem TeamsKept.foldS {α : Type} (f : α → State → State) (h : ∀ a s, TeamsKept s (f a s)) : ∀ (as : List α) (s : State), TeamsKept s (Machine.foldS f as s)
  | [], s => .refl s
  | a :: as, s => (h a s).trans (TeamsKept.foldS f h as (f a s))

theorem MemStep.teamsKept {s t : State} (h : MemStep s t) : TeamsKept s t := ⟨h.agentsKept, fun u => by rw [h.team], h.tasks⟩

theorem publish_teamsKept (s : State) (p : Unpub → Bool) : TeamsKept s (s.publish p) where
  agents := publish_agentsKept s p
  team u := by
    rw [team_publish]
    cases s.team u <;> rfl
  tasks := rfl

theorem modTeam_teamsKept (s : State) (u : Nat) (f : Team → Team) (hs : ∀ t, (f t).slices = t.slices) (hf : ∀ t, ((f t).task, (f t).trapMask) = (t.task, t.trapMask)) :
    TeamsKept s (s.modTeam u f) where
  agents := modTeam_agentsKept s u f hs
  team v := by
    rw [team_modTeam]
    split
    · cases s.team v with
      | none => rfl
      | some t => exact congrArg some (hf t)
    · rfl
  tasks := rfl

theorem scrWrite_teamsKept (s : State) (u off : Nat) (bs : List Byte) : TeamsKept s (s.scrWrite u off bs) := modTeam_teamsKept s u _ (fun _ => rfl) (fun _ => rfl)

theorem awPut_teamsKept (s : State) (u off : Nat) (w : AWord) : TeamsKept s (s.awPut u off w) := scrWrite_teamsKept s u off _

theorem awUpdate_teamsKept (s : State) (w : Option (Nat × Nat)) (f : AWord → AWord) : TeamsKept s (s.awUpdate w f) := by
  cases w with
  | none => exact .refl s
  | some p => exact .of_ite (fun _ => awPut_teamsKept s _ _ _) (fun _ => .refl s)

section
variable {s t : State} (h : TeamsKept s t)
include h

theorem TeamsKept.masks (u k : Nat) : t.masks u k = s.masks u k := by
  have hs (w : State) : w.masks u k = (((w.team u).map (fun v => (v.task, v.trapMask))).map (fun p => p.2.getLsbD k)).getD false := by
    rw [State.masks]
    cases w.team u <;> rfl
  rw [hs, hs, h.team]

theorem TeamsKept.room (a : Issuer) (r : Raw) : t.room a r = s.room a r := by
  cases a with
  | slice u j =>
    refine room_of_slice (h.agents.slice u j) ?_ h.tasks r
    have ht := congrArg (Option.map (fun p : Nat × Word => p.1)) (h.team u)
    rw [Option.map_map, Option.map_map] at ht
    exact ht
  | ctx k => rfl

theorem TeamsKept.inTurn {r : Raw} {s0 : State} {a : Issuer} (hv : InTurn r s0 a s) : InTurn r s0 a t where
  room := by rw [h.room, hv.room]
  masks u := by rw [h.masks, hv.masks]
  slice u j ha := by rw [h.agents.slice]; exact hv.slice u j ha

end

/-! ## Arrival words -/

theorem awLanes_teamsKept (r : Raw) (src : State) : ∀ (ps : List (Issuer × Nat × Nat × Nat)) (s : State), TeamsKept s (s.awLanes r src ps).2
  | [], s => .refl s
  | (a, l, u, o) :: ps, s => by
    simp only [State.awLanes]
    split
    · exact (awPut_teamsKept s u o _).trans (awLanes_teamsKept r src ps _)
    · exact (awPut_teamsKept s u o _).trans (awLanes_teamsKept r src ps _)
    · exact awLanes_teamsKept r src ps s

theorem awAcquire_memStep (s : State) (ps : List (Issuer × Nat × Nat × Nat)) (seen : List AwSeen) : MemStep s (s.awAcquire ps seen) :=
  .foldS _ (fun _ t => .of_ite (fun _ => acquire_memStep t _ _) (fun _ => .refl t)) ps s

/-- No lane that found GEN changed: nothing is acquired. -/
theorem awAcquire_none {seen : List AwSeen} (h : seen.any (·.q) = false) : ∀ (ps : List (Issuer × Nat × Nat × Nat)) (s : State), s.awAcquire ps seen = s
  | [], _ => rfl
  | p :: ps, s => by
    have hp : seen.any (fun x => x.a == p.1 && x.lane == p.2.1 && x.q) = false := by
      rw [List.any_eq_false] at h ⊢
      intro x hx
      have hq := h x hx
      simp_all
    have hstep : s.awAcquire (p :: ps) seen = State.awAcquire s ps seen := by
      rw [State.awAcquire, foldS_cons, hp]
      rfl
    rw [hstep, awAcquire_none h ps s]

/-- An agent that need not wait does its part. -/
theorem awOne_part {r : Raw} {dst : ODst} (hd : OneDest r dst) {s v : State} {ps : List (Issuer × Nat × Nat × Nat)} {a : Issuer} (ha : a ∈ s.agents)
    (hroom : s.room a r = true) (hroomv : v.room a r = true) (hbusy : (ps.filter (fun p => p.1 == a)).any s.awBusy = false)
    (hgen : r.op = .await → ∀ p ∈ ps.filter (fun p => p.1 == a), (v.awGet p.2.2.1 p.2.2.2).gen ≠ s.srcB a r 0 p.2.1 % 2 ^ 32) :
    let mine := ps.filter (fun p => p.1 == a)
    let got := v.awLanes r s mine
    let waited := r.op = .await ∨ r.op = .awtest
    (waited → got.1.any (·.q) = true → s.readsOut a = false) →
    let out (l : Nat) : Out := match got.1.find? (fun x => x.lane == l) with | some x => { val := x.val, q := x.q } | none => {}
    Part (writesRaw r s) (fun _ _ => if waited then got.2.awAcquire mine got.1 else got.2) (fun _ _ => SliceGot r (s.acts a r.x) dst out)
      (fun _ => CtxGot r (s.acts a r.x) dst out) a v (v.awOne s r dst ps a) := by
  intro mine got waited hreads out
  have hstay : ¬ (r.op = .await ∧ mine.any (fun p => (v.awGet p.2.2.1 p.2.2.2).gen == s.srcB a r 0 p.2.1 % 2 ^ 32) = true) := by
    rintro ⟨hop, hany⟩
    obtain ⟨p, hp, he⟩ := List.any_eq_true.mp hany
    exact hgen hop p hp (beq_iff_eq.mp he)
  have hgo : ¬ ((waited ∧ got.1.any (·.q) = true) ∧ s.readsOut a = true) := fun ⟨⟨hw, hq⟩, ho⟩ => by simp [hreads hw hq] at ho
  have hacq : (if waited ∧ got.1.any (·.q) = true then got.2.awAcquire mine got.1 else got.2) = if waited then got.2.awAcquire mine got.1 else got.2 := by
    by_cases hw : waited
    · cases hq : got.1.any (·.q) with
      | true => rw [if_pos ⟨hw, rfl⟩, if_pos hw]
      | false => rw [if_neg (fun h => nomatch h.2), if_pos hw, awAcquire_none hq]
    · rw [if_neg (fun h => hw h.1), if_neg hw]
  have hone : v.awOne s r dst ps a = (if waited then got.2.awAcquire mine got.1 else got.2).commit r a (s.acts a r.x) dst out := by
    rw [← hacq]
    unfold State.awOne
    simp only [hroom, hbusy, Bool.not_true, Bool.false_eq_true, if_false]
    exact (if_neg hstay).trans (if_neg hgo)
  have hkept : TeamsKept v (if waited then got.2.awAcquire mine got.1 else got.2) := by
    have hl := awLanes_teamsKept r s mine v
    exact .of_ite (fun _ => hl.trans (awAcquire_memStep _ _ _).teamsKept) (fun _ => hl)
  rw [hone]
  exact commit_part hd hkept.agents (by rw [hkept.room, hroomv]) (fun n hn l hl => ⟨ha, hn, hl⟩)

/-- An arrival-word instruction whose words can be reached. -/
theorem aw_exec {i : Instr} {r : Raw} {dst : ODst} (hi : Means i r (bodyAw r dst)) {s : State} {ps : List (Issuer × Nat × Nat × Nat)} (h : Issues r s = true)
    (hp : s.awPlaces r (s.actingLanes r.x) = .ok ps) : exec i s = .next (foldS (fun a v => v.awOne s r dst ps a) s.agents s) := by
  rw [hi.exec, issue_of_issues r s _ h, bodyAw, hp]

/-- Settles O36 by `aw_exec` for the gang and `awOne_part` for one agent. -/
theorem arrivalWordResults : Obligations.ArrivalWordResults := by
  unfold Obligations.ArrivalWordResults
  have key (dst : ODst) (op : Op) (hd : ∀ r : Raw, r.op = op → OneDest r dst) (i : Instr) (r : Raw) (hop : r.op = op) (hi : Means i r (bodyAw r dst)) :=
    And.intro (fun s ps (h : Issues r s = true) hp => aw_exec hi (s := s) (ps := ps) h hp)
      (fun s v ps a ha hroom hroomv hbusy hgen => awOne_part (hd r hop) (s := s) (v := v) (ps := ps) (a := a) ha hroom hroomv hbusy hgen)
  have hreg (op : Op) (h : op = .awexp ∨ op = .await) (r : Raw) (hop : r.op = op) : OneDest r .reg :=
    oneDest_of_shape r .reg ⟨false, by rcases h with rfl | rfl <;> rw [hop] <;> rfl⟩
  refine ⟨both_of_means (bodyAw · .none) (fun _ => ⟨rfl, fun _ => rfl⟩) (fun _ => ⟨rfl, fun _ => rfl⟩) (key .none .awinit (fun r _ => oneDest_none r)),
    both_of_means (bodyAw · .reg) (fun _ => ⟨rfl, fun _ => rfl⟩) (fun _ => ⟨rfl, fun _ => rfl⟩) (key .reg .awexp (hreg _ (.inl rfl))),
    both_of_means (bodyAw · .reg) (fun _ => ⟨rfl, fun _ => rfl⟩) (fun _ => ⟨rfl, fun _ => rfl⟩) (key .reg .await (hreg _ (.inr rfl))),
    both_of_means (bodyAw · .pred) (fun _ => ⟨rfl, fun _ => rfl⟩) (fun _ => ⟨rfl, fun _ => rfl⟩) (key .pred .awtest (fun r _ => oneDest_pred r))⟩

/-! ## Copies -/

theorem addCopy_teamsKept (s : State) (c : Copy) : TeamsKept s (s.addCopy c) := .of_ite (fun _ => .refl s) (fun _ => ⟨⟨fun _ h => h, rfl, fun _ _ => rfl, fun _ => rfl⟩, fun _ => rfl, rfl⟩)

/-- What a copy instruction of an agent makes of the machine: its release, which publishes a slice's writes, and the copies of its lanes. -/
def State.copyLanes (v s : State) (r : Raw) (mine : List (Issuer × List Copy × List (Option (Nat × Nat)))) (a : Issuer) : State :=
  foldS (fun (p : Issuer × List Copy × List (Option (Nat × Nat))) v =>
      foldS (fun w v => v.awUpdate w (fun x => x.faulted 0x50)) p.2.2 (foldS (fun c v => v.addCopy c) p.2.1 v)) mine
    (match a with | .slice u j => if s.acts a r.x = 0 then v else (v.releaseL1 (s.coreOf a) 2).publishSlice u j | .ctx _ => v)

theorem copyLanes_teamsKept (v s : State) (r : Raw) (mine : List (Issuer × List Copy × List (Option (Nat × Nat)))) (a : Issuer) : TeamsKept v (v.copyLanes s r mine a) := by
  have hrel : TeamsKept v (match a with | .slice u j => if s.acts a r.x = 0 then v else (v.releaseL1 (s.coreOf a) 2).publishSlice u j | .ctx _ => v) := by
    cases a with
    | slice u j => exact .of_ite (fun _ => .refl v) (fun _ => (releaseL1_memStep v _ _).teamsKept.trans (publish_teamsKept _ _))
    | ctx k => exact .refl v
  refine hrel.trans (.foldS _ (fun p t => ?_) mine _)
  exact (TeamsKept.foldS _ (fun c t => addCopy_teamsKept t c) p.2.1 t).trans (.foldS _ (fun w t => awUpdate_teamsKept t w _) p.2.2 _)

/-- A copy instruction whose checks pass puts its copies in flight. -/
theorem copies_complete {i : Instr} {r : Raw} (hi : Means i r (bodyCopy r)) {s : State} {cs : List (Issuer × List Copy × List (Option (Nat × Nat)))} (h : Ready r s)
    (hperf : ∀ a ∈ s.agents, s.unperformed a s.nextId = false)
    (hw : copyWants ((s.actingLanes r.x).map (fun p => (p.1, if r.op = .acp16 then s.acpLane p.1 r p.2 else s.tileLane p.1 r p.2))) = .ok cs)
    (hfull : ∀ a ∈ s.agents, if r.op = .acp16 then s.acpsOut a + (cs.filter (fun p => p.1 == a)).length ≤ 256
      else s.tilesOut a + (cs.filter (fun p => p.1 == a)).length ≤ 64) :
    Completes i s (fun a v => v.copyLanes s r (cs.filter (fun p => p.1 == a)) a)
      (fun u j => SliceGot r (s.acts (.slice u j) r.x) .none (fun _ => {})) (fun k => CtxGot r (s.acts (.ctx k) r.x) .none (fun _ => {})) := by
  have hfind : s.agents.find? (fun a => s.unperformed a s.nextId) = none := by
    rw [List.find?_eq_none]
    intro a ha
    rw [hperf a ha]
    exact Bool.false_ne_true
  have he := (hi.exec s).trans (issue_of_issues r s _ h.1)
  rw [bodyCopy, hfind] at he
  simp only [hw] at he
  refine completes_of_turns he h (fun a b v hv => (copyLanes_teamsKept v s r _ a).inTurn hv) (fun a v ha hv => .of_const ?_)
  have hk := copyLanes_teamsKept v s r (cs.filter (fun p => p.1 == a)) a
  have hnot : ¬ (if r.op = .acp16 then 256 < s.acpsOut a + (cs.filter (fun p => p.1 == a)).length else 64 < s.tilesOut a + (cs.filter (fun p => p.1 == a)).length) := by
    have hf := hfull a ha
    split at hf
    · next hop => rw [if_pos hop]; exact Nat.not_lt.mpr hf
    · next hop => rw [if_neg hop]; exact Nat.not_lt.mpr hf
  simp only [if_neg hnot]
  have hp := commit_part (m := s.acts a r.x) (f := fun _ => {}) (oneDest_none r) hk.agents (by rw [hk.room, hv.room]) (writesOf_lanes hi.raw ha)
  cases a <;> exact ⟨hp.kept, hp.fresh, hp.agent⟩

/-- Settles O35 by `copies_complete` for each of the three instructions. -/
theorem copiesEnterFlight : Obligations.CopiesEnterFlight := by
  unfold Obligations.CopiesEnterFlight
  refine ⟨fun x s cs h hperf hw hfull => ?_, both_of_means bodyCopy (fun _ => ⟨rfl, fun _ => rfl⟩) (fun _ => ⟨rfl, fun _ => rfl⟩) ?_,
    both_of_means bodyCopy (fun _ => ⟨rfl, fun _ => rfl⟩) (fun _ => ⟨rfl, fun _ => rfl⟩) ?_⟩
  · exact copies_complete (i := .acp16 x) ⟨rfl, fun _ => rfl⟩ h hperf hw hfull
  · exact fun i r _ hi s cs h hperf hw hfull => copies_complete hi h hperf hw hfull
  · exact fun i r _ hi s cs h hperf hw hfull => copies_complete hi h hperf hw hfull

end Sys2Proof.Machine

/-!
PROOFS. LAUNCH and NWAIT (R81 to R84).
-/
namespace Sys2Proof.Machine

/-! ## Masks -/

theorem maskOf_bit (p : Nat → Bool) {l : Nat} (h : l < 4) : (maskOf p).getLsbD l = p l := by
  have h4 : l = 0 ∨ l = 1 ∨ l = 2 ∨ l = 3 := by omega
  rcases h4 with rfl | rfl | rfl | rfl <;> cases h0 : p 0 <;> cases h1 : p 1 <;> cases h2 : p 2 <;> cases h3 : p 3 <;> simp [maskOf, h0, h1, h2, h3]

theorem bit_of_mem_maskList {m : Mask} {l : Nat} (h : l ∈ maskList m) : m.getLsbD l = true := (List.mem_filter.mp h).2

/-- A mask restricted to the lanes that satisfy p keeps all its lanes. -/
theorem and_maskOf_eq (m : Mask) (p : Nat → Bool) : m &&& maskOf p = m ↔ ∀ l ∈ maskList m, p l = true := by
  constructor
  · intro h l hl
    have hb := congrArg (BitVec.getLsbD · l) h
    have hm := bit_of_mem_maskList hl
    simp only [BitVec.getLsbD_and, maskOf_bit p (BitVec.lt_of_getLsbD hm), hm, Bool.true_and] at hb
    exact hb
  · intro h
    refine BitVec.eq_of_getLsbD_eq fun l hl => ?_
    rw [BitVec.getLsbD_and, maskOf_bit p hl]
    cases hm : m.getLsbD l with
    | false => rfl
    | true => rw [h l (mem_maskList m l hm)]; rfl

/-- It keeps none. -/
theorem and_maskOf_zero (m : Mask) (p : Nat → Bool) : m &&& maskOf p = 0 ↔ ∀ l ∈ maskList m, p l = false := by
  constructor
  · intro h l hl
    have hb := congrArg (BitVec.getLsbD · l) h
    have hm := bit_of_mem_maskList hl
    simp only [BitVec.getLsbD_and, maskOf_bit p (BitVec.lt_of_getLsbD hm), hm, Bool.true_and, mask_zero_lane] at hb
    exact hb
  · intro h
    refine BitVec.eq_of_getLsbD_eq fun l hl => ?_
    rw [BitVec.getLsbD_and, maskOf_bit p hl, mask_zero_lane]
    cases hm : m.getLsbD l with
    | false => rfl
    | true => rw [h l (mem_maskList m l hm)]; rfl

/-! ## LAUNCH -/

/-- Submissions reach the graph engine behind those before. -/
def State.submit (s : State) (bs : List Submission) : State := { s with subs := s.subs ++ bs }

/-- Submissions added to both states. -/
theorem laneKept_appendSubs {W : Issuer → Nat → Nat → Prop} {as : List Issuer} {s t : State} (h : LaneKept W as s t) (new : List Submission) :
    LaneKept W as (s.submit new) (t.submit new) where
  whole := by
    have hw := congrArg (fun v : State => ({ v with subs := t.subs ++ new } : State)) h.whole
    exact hw
  teams := h.teams
  slices := h.slices
  ctxs := h.ctxs
  ops := h.ops
  noOps := h.noOps
  subs := by
    obtain ⟨hlen, hsub⟩ := h.subs
    refine ⟨by simp [State.submit, hlen], fun i b hb => ?_⟩
    simp only [State.submit, List.getElem?_append] at hb ⊢
    by_cases hi : i < s.subs.length
    · rw [if_pos hi] at hb
      rw [if_pos (hlen ▸ hi)]
      exact hsub i b hb
    · rw [if_neg hi] at hb
      rw [if_neg (hlen ▸ hi), hlen]
      exact ⟨b, hb, .refl W b⟩

/-- An agent past an instruction that writes its destinations later. -/
theorem mapDests_advance (s : State) (u j : Nat) (r : Raw) (m : Mask) :
    (s.mapDests (.slice u j) r m).advance (.slice u j) r.len.bytes = (s.takeOver (.slice u j) (rawDests r) m).mapped (.slice u j) r m := by
  have hm : s.mapDests (.slice u j) r m = (s.takeOver (.slice u j) (rawDests r) m).modSlice u j (fun x => x.mapDests r m) := rfl
  rw [hm, advance_slice, modSlice_modSlice]
  rfl

theorem takeOver_mapped_kept {W : Issuer → Nat → Nat → Prop} {s : State} {u j : Nat} {r : Raw} {m : Mask}
    (hW : ∀ n ∈ destsOn (.slice u j) r, ∀ l ∈ maskList m, W (.slice u j) n l) :
    LaneKept W [.slice u j] s ((s.takeOver (.slice u j) (rawDests r) m).mapped (.slice u j) r m) :=
  laneKept_trans (laneKept_mono (takeOver_kept W s _ _ m hW) (by simp)) (mapped_kept W _ _ r m)

theorem takeOver_mapped_slice {s : State} {u j : Nat} {x : Slice} (hx : s.slice u j = some x) (r : Raw) (m : Mask) :
    ((s.takeOver (.slice u j) (rawDests r) m).mapped (.slice u j) r m).slice u j = some ((x.mapDests r m).stepped r.len.bytes) := by
  show (State.modSlice _ u j _).slice u j = _
  rw [slice_modSlice, if_pos ⟨rfl, rfl⟩, slice_takeOver, hx]
  rfl

/-- The submissions of the lanes of a LAUNCH. -/
def State.launches (s : State) (r : Raw) (u j : Nat) (task : Nat) : List Submission :=
  (maskList (s.acts (.slice u j) r.x)).map (fun l =>
    ({ src := .launch u j l task r.x.d.toNat [] [], asid := s.asidOf u, addr := s.srcA (.slice u j) r 0 l } : Submission))

/-- A LAUNCH of a lone slice whose release is complete. -/
theorem bodyLaunch_eq {r : Raw} {s s1 : State} {u j : Nat} {x : Slice} {tm : Team} (h : Alone r s u j x) (ht : s.team u = some tm)
    (hroom : s.room (.slice u j) r = true) (hm : s.acts (.slice u j) r.x ≠ 0) (hperf : s.unperformed (.slice u j) s.nextId = false)
    (hrel : s.release (.slice u j) 5 = (true, s1)) :
    let t := ((s1.publishSlice u j).takeOver (.slice u j) (rawDests r) (s.acts (.slice u j) r.x)).mapped (.slice u j) r (s.acts (.slice u j) r.x)
    bodyLaunch r s = t.submit (s.launches r u j tm.task) := by
  intro t
  have hnew : ((s.actingLanes r.x).filter (fun p => s.room p.1 r && !s.unperformed p.1 s.nextId)).filterMap (fun p =>
      match p.1 with
      | .slice u i =>
        let task := match s.team u with | some v => v.task | none => 0
        some ({ src := .launch u i p.2 task r.x.d.toNat [] [], asid := s.asidOf u, addr := s.srcA p.1 r 0 p.2 } : Submission)
      | .ctx _ => none) = s.launches r u j tm.task := by
    rw [actingLanes_alone h.agents, State.launches, List.filter_eq_self.mpr, List.filterMap_map]
    · simp only [Function.comp_def, ht]
      exact congrFun List.filterMap_eq_map' _
    · intro p hp
      obtain ⟨l, -, rfl⟩ := List.mem_map.mp hp
      simp only [hroom, hperf, Bool.not_false, Bool.and_self]
  have hslice : eachSlice s r (fun u i m t =>
      let a := Issuer.slice u i
      if !t.room a r then t.trapOne a kIllegal cRegspace 0 0 m
      else
        let (ok, t) := t.release a 5
        if ok then ((t.publishSlice u i).mapDests a r m).advance a r.len.bytes else t.setWait a .stores) = t := by
    rw [eachSlice_alone h, if_neg hm]
    simp only [hroom, hrel, Bool.not_true, Bool.false_eq_true, if_false, if_true, mapDests_advance]
    rfl
  exact congr (congrArg State.submit hslice) hnew

theorem launch_ends {i : Instr} {r : Raw} (hi : Means i r (bodyLaunch r)) {s s1 : State} {u j : Nat} {x : Slice} {tm : Team} (h : Alone r s u j x)
    (ht : s.team u = some tm) (hroom : s.room (.slice u j) r = true) (hm : s.acts (.slice u j) r.x ≠ 0) (hperf : s.unperformed (.slice u j) s.nextId = false)
    (hrel : s.release (.slice u j) 5 = (true, s1)) :
    Ends i s ((s1.publishSlice u j).submit (s.launches r u j tm.task)) u j
      (fun y => ∃ z, Mapped r (s.acts (.slice u j) r.x) x z ∧ y = z.stepped r.len.bytes) := by
  have hstep := (release_of_eq hrel).agentsKept
  have hx : (s1.publishSlice u j).slice u j = some x := ((publish_agentsKept s1 _).slice u j).trans ((hstep.slice u j).trans h.slice)
  have hkept : LaneKept (writesOf i s) [.slice u j] (s1.publishSlice u j)
      (((s1.publishSlice u j).takeOver (.slice u j) (rawDests r) (s.acts (.slice u j) r.x)).mapped (.slice u j) r (s.acts (.slice u j) r.x)) :=
    takeOver_mapped_kept (writesOf_lanes hi.raw (by rw [h.agents]; exact List.mem_singleton_self _))
  refine ⟨_, (h.next (hi.exec s)).trans (congrArg Host.Outcome.next (bodyLaunch_eq h ht hroom hm hperf hrel)), laneKept_appendSubs hkept _, ⟨fun id hn => ?_, ?_⟩,
    _, takeOver_mapped_slice hx r _, _, mapped_mapDests r _ x, rfl⟩
  · have hn1 : mget (s1.publishSlice u j).mops id = none := hstep.ops id hn
    exact (hkept.noOps id hn1).trans hn1.symm
  · have hlen : (s1.publishSlice u j).subs.length = s.subs.length := hstep.subs
    show List.drop _ (_ ++ _) = List.drop _ (_ ++ _)
    have hlenK := hkept.subs.1.trans hlen
    rw [List.drop_append_of_le_length (Nat.le_of_eq hlenK.symm), List.drop_append_of_le_length (Nat.le_of_eq hlen.symm),
      List.drop_of_length_le (Nat.le_of_eq hlenK), List.drop_of_length_le (Nat.le_of_eq hlen)]

/-! ## NWAIT -/

theorem nwait_ends {i : Instr} {r : Raw} (hop : r.op = .nwait) (hi : Means i r (bodyNwait r)) {s : State} {u j : Nat} {x : Slice} (h : Alone r s u j x)
    (hroom : s.room (.slice u j) r = true) (hm : s.acts (.slice u j) r.x ≠ 0) :
    let a := Issuer.slice u j
    let m := s.acts a r.x
    let st := s.nwStatus a r x.nwTok
    (r.x.b = 0 → ∀ l ∈ maskList m, (st l).isSome = true) → (¬(∀ l ∈ maskList m, st l = none) → s.readsOut a = false) →
    Ends i s (if ∀ l ∈ maskList m, st l = none then s else s.acquire (s.coreOf a) 5) u j (SliceGot r m .reg (fun l => { val := (st l).getD 2 }) x) := by
  intro a m st hover hreads
  have hall : m &&& maskOf (fun l => (st l).isNone) = m ↔ ∀ l ∈ maskList m, st l = none := by
    rw [and_maskOf_eq]
    simp only [Option.isNone_iff_eq_none]
  have hwait : ¬ (r.x.b = 0 ∧ m &&& maskOf (fun l => (st l).isNone) ≠ 0) := by
    rintro ⟨hb, hne⟩
    refine hne ((and_maskOf_zero _ _).mpr fun l hl => ?_)
    have hs := hover hb l hl
    cases hst : st l with
    | none => rw [hst] at hs; cases hs
    | some v => rfl
  have hout : ¬ (m &&& maskOf (fun l => (st l).isNone) ≠ m ∧ s.readsOut a = true) := fun ⟨hne, ho⟩ => by
    rw [hreads (fun hn => hne (hall.mpr hn))] at ho
    cases ho
  have hs1 : MemStep s (if ∀ l ∈ maskList m, st l = none then s else s.acquire (s.coreOf a) 5) :=
    .of_ite (fun _ => .refl s) (fun _ => acquire_memStep s _ _)
  have he : exec i s = .next ((if ∀ l ∈ maskList m, st l = none then s else s.acquire (s.coreOf a) 5).commit r a m .reg (fun l => { val := (st l).getD 2 })) := by
    rw [h.next (hi.exec s), bodyNwait, eachSlice_alone h, if_neg hm, State.nwaitOne, h.sl]
    simp only [hroom, Bool.not_true, Bool.false_eq_true, if_false]
    refine congrArg Host.Outcome.next ((if_neg hwait).trans ((if_neg hout).trans ?_))
    exact congrArg (fun t : State => t.commit r a m .reg _) (ite_congr (propext hall) (fun _ => rfl) fun _ => rfl)
  exact ends_commit hi.raw h.agents he ((hs1.slice u j).trans h.slice) (by rw [hs1.teamsKept.room, hroom]) (oneDest_of_shape r .reg ⟨_, by rw [hop]; rfl⟩)
    (fun id hn => by rw [hs1.mops]; exact hn) (by rw [hs1.subs])

/-- Settles O37 by `launch_ends` and `nwait_ends`. -/
theorem launchSubmitsNwaitAnswers : Obligations.LaunchSubmitsNwaitAnswers := by
  unfold Obligations.LaunchSubmitsNwaitAnswers
  refine ⟨both_of_means bodyLaunch (fun _ => ⟨rfl, fun _ => rfl⟩) (fun _ => ⟨rfl, fun _ => rfl⟩) ?launch,
    both_of_means bodyNwait (fun _ => ⟨rfl, fun _ => rfl⟩) (fun _ => ⟨rfl, fun _ => rfl⟩) ?nwait, ?timed⟩
  case launch => exact fun i r _ hi s u j x tm s1 h ht hroom hm hperf hrel => launch_ends hi h ht hroom hm hperf hrel
  case nwait => exact fun i r hop hi s u j x h hroom hm hover hreads => nwait_ends hop hi h hroom hm hover hreads
  case timed => exact fun b s u j x h hroom hm hover hreads => nwait_ends (i := .nwaitT b) rfl ⟨rfl, fun _ => rfl⟩ h hroom hm hover hreads

end Sys2Proof.Machine

/-!
PROOFS. SPLICE, FORK and RDV (R328, R330, R400).
-/
namespace Sys2Proof.Machine

/-! ## Splices that start -/

theorem TeamsKept.of_teams {s t : State} (ht : t.teams = s.teams) (hm : t.mops = s.mops) (hs : t.subs = s.subs) (hc : t.ctxs = s.ctxs) (hk : t.tasks = s.tasks) :
    TeamsKept s t :=
  ⟨⟨fun id h => by rw [hm]; exact h, by rw [hs], slice_of_teams ht, fun k => by rw [State.ctx, State.ctx, hc]⟩, fun u => by rw [State.team, State.team, ht], hk⟩

theorem sendCells_teamsKept (link cls k : Nat) : ∀ (ps : List (BitVec 1024)) (s : State), TeamsKept s (s.sendCells link cls k ps)
  | [], s => .refl s
  | [_], _ => .of_teams rfl rfl rfl rfl rfl
  | _ :: q :: ps, s => TeamsKept.trans (t := s.sendCell link cls k false _) (.of_teams rfl rfl rfl rfl rfl) (sendCells_teamsKept link cls k (q :: ps) _)

theorem send_teamsKept (s : State) (m : Sending) : TeamsKept s (s.send m) := by
  rw [State.send]
  split
  · refine (sendCells_teamsKept m.link m.cls m.flow m.body s).trans ?_
    refine TeamsKept.trans (t := (s.sendCells m.link m.cls m.flow m.body).podTold m.pod) ?_ (.of_teams rfl rfl rfl rfl rfl)
    cases m.pod <;> exact .of_teams rfl rfl rfl rfl rfl
  · exact .of_teams rfl rfl rfl rfl rfl

theorem sendOpen_teamsKept (s : State) (m : Nat → Sending) : TeamsKept s (s.sendOpen m) :=
  TeamsKept.trans (t := { s with opens := s.opens + 1 }) (.of_teams rfl rfl rfl rfl rfl) (send_teamsKept _ _)

theorem dropSplice_teamsKept (s : State) (p : Splice) : TeamsKept s (s.dropSplice p) := .of_teams rfl rfl rfl rfl rfl

theorem spliceFail_teamsKept (s : State) (p : Splice) (cause : Nat) : TeamsKept s (s.spliceFail p cause) := by
  have hstat : TeamsKept s (if cause = endPoison then s else s.scrWrite p.team p.stat (statBytes p.seq 0 0 (if cause = endDrop then 2 else 1) cause 0)) :=
    .of_ite (fun _ => .refl s) (fun _ => scrWrite_teamsKept s _ _ _)
  rw [State.spliceFail]
  exact (hstat.trans (awUpdate_teamsKept _ (some (p.team, p.daw)) _)).trans (awUpdate_teamsKept _ (some (p.team, p.daw)) _)

theorem spliceStop_teamsKept (s : State) (cause : Nat) (p : Splice) : TeamsKept s (s.spliceStop cause p) :=
  .of_ite (fun _ => .refl s) (fun _ => .of_ite (fun _ => .of_teams rfl rfl rfl rfl rfl) (fun _ => (dropSplice_teamsKept s p).trans (spliceFail_teamsKept _ _ _)))

theorem spliceShut_teamsKept (s : State) (cause : Nat) (p : Splice) : TeamsKept s (s.spliceShut cause p) :=
  .of_ite (fun _ => .of_teams rfl rfl rfl rfl rfl) (fun _ => spliceFail_teamsKept _ _ _)

theorem spliceAbort_teamsKept (s : State) (comm seq cause : Nat) : TeamsKept s (s.spliceAbort comm seq cause) :=
  TeamsKept.trans (t := { s with forming := s.forming.filter (fun f => !(f.comm == comm && f.seq == seq)),
                                 flying := s.flying.filter (fun m => !(m.comm == comm && m.seq == seq)), outbox := s.outbox ++ [.abort comm seq cause] })
    (.of_teams rfl rfl rfl rfl rfl) (.foldS _ (fun p t => spliceStop_teamsKept t cause p) _ _)

theorem fly_teamsKept (s : State) (m : SpliceMsg) (b : Bool) : TeamsKept s (if b then { s with flying := s.flying ++ [m] } else s) :=
  .of_ite (fun _ => .of_teams rfl rfl rfl rfl rfl) (fun _ => .refl s)

theorem sendSplice_teamsKept (s : State) (src : SpliceLoc) (via : Nat) (m : SpliceMsg) : TeamsKept s (s.sendSplice src via m) := by
  cases src with
  | node k =>
    refine .of_ite (fun _ => spliceAbort_teamsKept s _ _ _) (fun _ => .of_ite (fun _ => spliceAbort_teamsKept s _ _ _) (fun _ => .of_ite (fun _ => ?_) (fun _ => ?_)))
    · exact fly_teamsKept s m _
    · exact .of_teams rfl rfl rfl rfl rfl
  | endpoint k =>
    refine .of_ite (fun _ => fly_teamsKept s m _) (fun _ => .of_ite (fun _ => spliceAbort_teamsKept s _ _ _) (fun _ => ?_))
    exact (fly_teamsKept s m _).trans (sendOpen_teamsKept _ _)

theorem spliceStart_teamsKept (s : State) (r : Raw) (poisoned : Bool) (p : Splice) (plan : Nat) (elems : List Nat) : TeamsKept s (s.spliceStart r poisoned p plan elems) := by
  refine .of_ite (fun _ => spliceShut_teamsKept s _ _) (fun _ => .of_ite (fun _ => spliceShut_teamsKept s _ _) (fun _ => ?_))
  have hadd : TeamsKept s { s with splices := s.splices ++ [p], spliceSeen := s.spliceSeen ++ [(p.comm, p.seq, p.member)] } := .of_teams rfl rfl rfl rfl rfl
  refine hadd.trans ?_
  split
  · exact spliceAbort_teamsKept _ _ _ _
  · exact .of_ite (fun _ => spliceAbort_teamsKept _ _ _ _) (fun _ => sendSplice_teamsKept _ _ _ _)

theorem spliceWants_length : ∀ {ws : List SpliceWant} {ps : List (Splice × Nat × List Nat)}, spliceWants ws = .ok ps → ps.length = ws.length
  | [], ps, h => by cases h; rfl
  | .go p n es :: ws, ps, h => by
    rw [spliceWants] at h
    split at h
    · next l hl =>
      cases h
      rw [List.length_cons, List.length_cons, spliceWants_length hl]
    · cases h
  | .trap k c va :: ws, ps, h => by simp [spliceWants] at h
  | .hold k c va :: ws, ps, h => by simp [spliceWants] at h

/-- A fold over two lists of one length whose step asks of the first that no lane's source is poisoned. -/
theorem foldS_zip {α β : Type} (F : Bool → β → State → State) (p : α → Bool) (as : List α) (hp : ∀ a ∈ as, p a = false) (bs : List β) (hl : bs.length = as.length)
    (s : State) : foldS (fun (q : α × β) t => F (p q.1) q.2 t) (as.zip bs) s = foldS (F false) bs s := by
  induction as generalizing bs s with
  | nil =>
    rw [List.length_eq_zero_iff.mp hl]
    rfl
  | cons a as ih =>
    obtain ⟨b, bs, rfl⟩ := List.exists_cons_of_length_eq_add_one hl
    rw [List.zip_cons_cons, foldS_cons, foldS_cons, hp a List.mem_cons_self]
    exact ih (fun c hc => hp c (List.mem_cons_of_mem a hc)) bs (by simpa using hl) _

/-- A SPLICE of a lone slice whose descriptors pass their checks and whose sources are not poisoned. -/
theorem splice_ends {i : Instr} {r : Raw} (hi : Means i r (bodySplice r)) {s s1 : State} {u j : Nat} {x : Slice} {ps : List (Splice × Nat × List Nat)}
    (h : Alone r s u j x) (hroom : s.room (.slice u j) r = true) (hm : s.acts (.slice u j) r.x ≠ 0)
    (hw : spliceWants ((maskList (s.acts (.slice u j) r.x)).map (s.spliceLane (.slice u j) r)) = .ok ps) (hrel : s.release (.slice u j) 2 = (true, s1))
    (hp : ∀ l ∈ maskList (s.acts (.slice u j) r.x), s1.splicePoison (.slice u j) r l = false) :
    Ends i s (foldS (fun (p : Splice × Nat × List Nat) t => t.spliceStart r false p.1 p.2.1 p.2.2) ps (s1.publishSlice u j)) u j
      (SliceGot r (s.acts (.slice u j) r.x) .none (fun _ => {}) x) := by
  have hk : TeamsKept s (foldS (fun (p : Splice × Nat × List Nat) t => t.spliceStart r false p.1 p.2.1 p.2.2) ps (s1.publishSlice u j)) :=
    ((release_of_eq hrel).teamsKept.trans (publish_teamsKept _ _)).trans (.foldS _ (fun p t => spliceStart_teamsKept t _ _ _ _ _) _ _)
  have hfold := foldS_zip (fun b (p : Splice × Nat × List Nat) t => t.spliceStart r b p.1 p.2.1 p.2.2) (s1.splicePoison (.slice u j) r)
    (maskList (s.acts (.slice u j) r.x)) hp ps (by rw [spliceWants_length hw, List.length_map]) (s1.publishSlice u j)
  have hnone : (maskList (s.acts (.slice u j) r.x)).any (s1.splicePoison (.slice u j) r) = false := by
    rw [List.any_eq_false]
    intro l hl
    rw [hp l hl]
    exact Bool.false_ne_true
  refine ends_commit hi.raw h.agents ?_ ((hk.agents.slice u j).trans h.slice) (by rw [hk.room, hroom]) (oneDest_none r) hk.agents.ops hk.agents.subs
  rw [h.next (hi.exec s), bodySplice, eachSlice_alone h, if_neg hm, State.spliceOne]
  simp only [hw, hrel, hnone, Bool.not_true, Bool.false_eq_true, if_false]
  rw [hfold]

/-! ## FORK -/

/-- The context that a FORK starts. -/
def State.forked (s s1 : State) (r : Raw) (u j : Nat) (m : Mask) : Ctx :=
  let a := Issuer.slice u j
  let l := lowest m
  { (s.ctx (s.pairedCtx a (flag0 r))).started (!flag0 r) u (s1.special a l 0x0C) (target (s1.pcOf a) (sintOf 32 (s1.srcA a r 0 l))) ((s1.sl u j).seed.get l)
      ((List.range 8).map (fun j => (j, BitVec.ofNat 64 (s1.readK a true (2 * j)))) ++ [(8, BitVec.ofNat 64 (s1.special a l 3))]) with
    readySince := (s1.die (s1.coreOf a).die).open_ }

theorem mget_forkRegs (f : Nat → DWord) (v : DWord) : (∀ n, n < 8 → mget ((List.range 8).map (fun j => (j, f j)) ++ [(8, v)]) n = some (f n)) ∧
    mget ((List.range 8).map (fun j => (j, f j)) ++ [(8, v)]) 8 = some v := by
  refine ⟨fun n hn => ?_, rfl⟩
  have h8 : n = 0 ∨ n = 1 ∨ n = 2 ∨ n = 3 ∨ n = 4 ∨ n = 5 ∨ n = 6 ∨ n = 7 := by omega
  rcases h8 with rfl | rfl | rfl | rfl | rfl | rfl | rfl | rfl <;> rfl

/-- A FORK of a free context that none before the slice waits for, its release complete. -/
theorem forkOne_eq {r : Raw} {s s1 : State} {u j : Nat} {m : Mask} (hfree : (s.ctx (s.pairedCtx (.slice u j) (flag0 r))).holder = none)
    (hbehind : s.forkBehind u j (s.pairedCtx (.slice u j) (flag0 r)) = false) (hrel : s.release (.slice u j) 2 = (true, s1)) :
    s.forkOne r u j m =
      ((s1.publishSlice u j).setCtx (s.pairedCtx (.slice u j) (flag0 r)) (s.forked s1 r u j m)).commit r (.slice u j) m .none (fun _ => {}) := by
  rw [State.forkOne]
  simp only [hfree, hbehind, hrel, Option.isSome_none, Bool.false_eq_true, or_self, if_false, Bool.not_true, reduceCtorEq]
  rfl

theorem fork_ends (x0 : Ext) {r : Raw} (hr : r = .ext .fork x0) {s s1 : State} {u j : Nat} {x : Slice} (h : Alone r s u j x) (hroom : s.room (.slice u j) r = true)
    (hm : s.acts (.slice u j) r.x ≠ 0) (hfree : (s.ctx (s.pairedCtx (.slice u j) (flag0 r))).holder = none)
    (hbehind : s.forkBehind u j (s.pairedCtx (.slice u j) (flag0 r)) = false) (hrel : s.release (.slice u j) 2 = (true, s1)) :
    Ends (.fork x0) s ((s1.publishSlice u j).setCtx (s.pairedCtx (.slice u j) (flag0 r)) (s.forked s1 r u j (s.acts (.slice u j) r.x))) u j
      (SliceGot r (s.acts (.slice u j) r.x) .none (fun _ => {}) x) := by
  have hk : TeamsKept s (s1.publishSlice u j) := (release_of_eq hrel).teamsKept.trans (publish_teamsKept _ _)
  have hi : Means (.fork x0) r (bodyFork r) := by
    subst hr
    exact ⟨rfl, fun _ => rfl⟩
  refine ends_commit hi.raw h.agents ?_ ((hk.agents.slice u j).trans h.slice) ((hk.room _ _).trans hroom) (oneDest_none _) hk.agents.ops hk.agents.subs
  rw [h.next (hi.exec s), bodyFork, eachSlice_alone h, if_neg hm, forkOne_eq hfree hbehind hrel]

/-! ## RDV -/

/-- A result that sets no flags, of a slice whose flags have changed before it. -/
theorem result_with_fstk (x : Slice) (F : Four Word) (r : Raw) (m : Mask) (v : Nat) :
    ({ x with fstk := F } : Slice).result r m .reg (fun _ => { val := v }) = { x.result r m .reg (fun _ => { val := v }) with fstk := F } := by
  have hnames : ((({ x with fstk := F } : Slice).free (rawFrees r)).putDests r m .reg (fun _ => { val := v })).names =
      ((x.free (rawFrees r)).putDests r m .reg (fun _ => { val := v })).names := by
    unfold Slice.putDests
    split
    · rfl
    · split <;> rfl
  have hflags : F.upd m (fun l => F.get l ||| (0 : Flags).setWidth 32) = F := four_upd_self F m _ (fun l => by simp)
  rw [result_eq, result_eq, hnames]
  simp only [hflags]

/-- The contexts that an RDV frees, k0 and k1 where b0 and b1 say. -/
def heldKeys (b0 b1 : Bool) (k0 k1 : Nat) : List Nat := (if b0 then [k0] else []) ++ (if b1 then [k1] else [])

theorem heldKeys_any (b0 b1 : Bool) (k0 k1 : Nat) (p : Nat → Bool) : (heldKeys b0 b1 k0 k1).any p = (b0 && p k0 || b1 && p k1) := by
  cases b0 <;> cases b1 <;> simp [heldKeys]

theorem heldKeys_isEmpty (b0 b1 : Bool) (k0 k1 : Nat) : (!(heldKeys b0 b1 k0 k1).isEmpty) = (b0 || b1) := by cases b0 <;> cases b1 <;> rfl

theorem heldKeys_contains (b0 b1 : Bool) {k0 k1 : Nat} (h : k0 ≠ k1) : (heldKeys b0 b1 k0 k1).contains k0 = b0 ∧ (heldKeys b0 b1 k0 k1).contains k1 = b1 := by
  cases b0 <;> cases b1 <;> simp [heldKeys, h, h.symm]

theorem heldKeys_or (b0 b1 : Bool) (k0 k1 : Nat) (g : Nat → Word) :
    (heldKeys b0 b1 k0 k1).foldl (fun f k => f ||| g k) 0 = (if b0 then g k0 else 0) ||| (if b1 then g k1 else 0) := by
  cases b0 <;> cases b1 <;> simp [heldKeys]

theorem heldKeys_fold (b0 b1 : Bool) (k0 k1 : Nat) (f : Nat → State → State) (s : State) :
    foldS f (heldKeys b0 b1 k0 k1) s = (if b1 then f k1 (if b0 then f k0 s else s) else if b0 then f k0 s else s) := by cases b0 <;> cases b1 <;> rfl

section
variable (s : State) (b0 b1 : Bool) (k0 k1 : Nat)

/-- The state with the contexts of an RDV free. -/
def State.freedCtx : State :=
  let f (k : Nat) (t : State) : State := t.modCtx k (fun c => { c with holder := none, run := .idle })
  if b1 then f k1 (if b0 then f k0 s else s) else if b0 then f k0 s else s

theorem freedCtx_frame : s.freedCtx b0 b1 k0 k1 = { s with ctxs := (s.freedCtx b0 b1 k0 k1).ctxs } := by cases b0 <;> cases b1 <;> rfl

theorem freedCtx_slice (v i : Nat) : (s.freedCtx b0 b1 k0 k1).slice v i = s.slice v i := by rw [freedCtx_frame]; rfl

theorem freedCtx_ceilOf (u : Nat) : (s.freedCtx b0 b1 k0 k1).ceilOf u = s.ceilOf u := by rw [freedCtx_frame]; rfl

theorem freedCtx_ops : (s.freedCtx b0 b1 k0 k1).mops = s.mops ∧ (s.freedCtx b0 b1 k0 k1).subs = s.subs := by rw [freedCtx_frame]; exact ⟨rfl, rfl⟩

end

/-- The contexts that an RDV names and its team holds, in order. -/
theorem rdvKeys_held {r : Raw} {s : State} {u j : Nat} :
    let k (csq : Bool) := s.pairedCtx (.slice u j) csq
    let named (csq : Bool) : Bool := bitAt r.x.scope.toNat (if csq then 1 else 0) && (s.ctx (k csq)).holder == some u
    (s.rdvKeys r (.slice u j)).filter (fun k => (s.ctx k).holder == some u) = heldKeys (named false) (named true) (k false) (k true) := by
  intro k named
  have hone (b : Bool) (key : Nat) : (if b then [key] else []).filter (fun k => (s.ctx k).holder == some u) = if b && (s.ctx key).holder == some u then [key] else [] := by
    cases b <;> cases h : (s.ctx key).holder == some u <;> simp [h]
  rw [State.rdvKeys, List.filter_append, hone, hone]
  rfl

theorem pairedCtx_ne (s : State) (a : Issuer) : s.pairedCtx a false ≠ s.pairedCtx a true := by
  show (s.coreOf a).key * 2 + 1 ≠ (s.coreOf a).key * 2 + 0
  omega

/-- An RDV whose contexts have ended. -/
theorem rdv_ends {x0 : Ext} {r : Raw} (hr : r = .ext .rdv x0) {s : State} {u j : Nat} {x : Slice} (h : Alone r s u j x) (hroom : s.room (.slice u j) r = true) :
    let a := Issuer.slice u j
    let m := s.acts a r.x
    let k (csq : Bool) := s.pairedCtx a csq
    let named (csq : Bool) : Bool := bitAt r.x.scope.toNat (if csq then 1 else 0) && (s.ctx (k csq)).holder == some u
    let code (csq : Bool) : Nat := if named csq then (s.ctx (k csq)).exit % 2 ^ 16 else 0
    let fl (csq : Bool) : Word := if named csq then (s.ctx (k csq)).fstk else 0
    let freed (csq : Bool) (t : State) : State := if named csq then t.modCtx (k csq) (fun c => { c with holder := none, run := .idle }) else t
    (named false = true → (s.ctx (k false)).isOver = true) → (named true = true → (s.ctx (k true)).isOver = true) →
    (named false = true ∨ named true = true → s.readsOut a = false) →
    Ends (.rdv x0) s (freed true (freed false s)) u j (fun y => ∃ z, SliceGot r m .reg (fun _ => { val := code true * 2 ^ 16 + code false }) x z ∧
      y = { z with fstk := x.fstk.upd m (fun l => x.fstk.get l ||| (fl false ||| fl true)) }) := by
  intro a m k named code fl freed hover0 hover1 hreads
  have hi : Means (.rdv x0) r (bodyRdv r) := by
    subst hr
    exact ⟨rfl, fun _ => rfl⟩
  let held := heldKeys (named false) (named true) (k false) (k true)
  have hheld : (s.rdvKeys r (.slice u j)).filter (fun k => (s.ctx k).holder == some u) = held := rdvKeys_held
  have hne : k false ≠ k true := pairedCtx_ne s a
  have hany : held.any (fun k => !(s.ctx k).isOver) = false := by
    rw [heldKeys_any]
    cases h0 : named false <;> cases h1 : named true <;> simp_all
  have hwait : ¬ ((!held.isEmpty) = true ∧ s.readsOut a = true) := by
    rw [heldKeys_isEmpty]
    rintro ⟨he, ho⟩
    rw [hreads (by simpa using he)] at ho
    cases ho
  have hcode : (if held.contains (k true) then (s.ctx (k true)).exit % 2 ^ 16 else 0) = code true ∧
      (if held.contains (k false) then (s.ctx (k false)).exit % 2 ^ 16 else 0) = code false := by
    obtain ⟨hc0, hc1⟩ := heldKeys_contains (named false) (named true) hne
    exact ⟨by rw [hc1], by rw [hc0]⟩
  have hfl : held.foldl (fun (f : Word) k => f ||| (s.ctx k).fstk) 0 = fl false ||| fl true := heldKeys_or _ _ _ _ (fun k => (s.ctx k).fstk)
  let t := freed true (freed false s)
  have hfreed : foldS (fun k s => s.modCtx k (fun x => { x with holder := none, run := .idle })) held s = t := heldKeys_fold _ _ _ _ _ s
  let F := x.fstk.upd m (fun l => x.fstk.get l ||| (fl false ||| fl true))
  let f : Slice → Slice := fun x => { x with fstk := x.fstk.upd m (fun l => x.fstk.get l ||| (fl false ||| fl true)) }
  have hone : s.rdvOne r u j m = (t.modSlice u j f).commit r a m .reg (fun _ => { val := code true * 2 ^ 16 + code false }) := by
    rw [State.rdvOne]
    simp only [hroom, hheld, hany, Bool.not_true, Bool.false_eq_true, if_false]
    refine (if_neg hwait).trans ?_
    rw [hfl, hfreed]
    exact congrArg (fun v : Nat => (t.modSlice u j f).commit r a m .reg (fun _ => { val := v })) (congr (congrArg (fun c d => c * 2 ^ 16 + d) hcode.1) hcode.2)
  have hsl : ∀ v i, t.slice v i = s.slice v i := freedCtx_slice s _ _ _ _
  have hx : (t.modSlice u j f).slice u j = some (f x) := by
    rw [slice_modSlice, if_pos ⟨rfl, rfl⟩, hsl, h.slice]
    rfl
  have hroom' : (t.modSlice u j f).room a r = true := by
    have hy : (t.modSlice u j f).sl u j = f x := sl_of_slice hx
    have hceil : (t.modSlice u j f).ceilOf u = s.ceilOf u := (ceilOf_modSlice t u j f u).trans (freedCtx_ceilOf s _ _ _ _ u)
    rw [← hroom]
    exact room_of_slFields (by rw [hy, h.sl]) (by rw [hy, h.sl]) (by rw [hy, h.sl]) hceil r
  have hk : LaneKept (writesOf (.rdv x0) s) [a] t ((t.modSlice u j f).committed r a m .reg (fun _ => { val := code true * 2 ^ 16 + code false })) :=
    laneKept_trans (modSlice_kept _ t u j f) (committed_kept _ _ r a m .reg _ (writesOf_lanes hi.raw (by rw [h.agents]; exact List.mem_singleton_self _)))
  have hm : t.mops = s.mops ∧ t.subs = s.subs := freedCtx_ops s _ _ _ _
  refine ⟨_, ?_, hk, committed_fresh hk (fun id hn => by rw [hm.1]; exact hn) (by rw [hm.2]), _, ?_, (x.result r m .reg (fun _ => { val := code true * 2 ^ 16 + code false })).stepped r.len.bytes,
    sliceGot x r m .reg _ (oneDest_of_shape r .reg ⟨false, by rw [hr]; rfl⟩), rfl⟩
  · rw [h.next (hi.exec s), bodyRdv, h.agents, ← commit_of_room _ r a m .reg _ hroom', ← hone]
    rfl
  · rw [committed_slice, hx, Option.map_some, result_with_fstk x F]
    rfl

/-- Settles O38 by `splice_ends`, `fork_ends` and `rdv_ends`. -/
theorem spliceForkRdvEffects : Obligations.SpliceForkRdvEffects := by
  unfold Obligations.SpliceForkRdvEffects
  refine ⟨both_of_means bodySplice (fun _ => ⟨rfl, fun _ => rfl⟩) (fun _ => ⟨rfl, fun _ => rfl⟩) ?splice, ?fork, ?rdv⟩
  case splice => exact fun i r _ hi s u j x ps s1 h hroom hm hw hrel hp => splice_ends hi h hroom hm hw hrel hp
  case fork =>
    intro x0 r s u j x s1 h hroom a m l k hm hfree hbehind hrel
    obtain ⟨hregs, hreg8⟩ := mget_forkRegs (fun j => BitVec.ofNat 64 (s1.readK a true (2 * j))) (BitVec.ofNat 64 (s1.special a (lowest m) 3))
    have hsl : s1.sl u j = x := sl_of_slice (((release_of_eq hrel).slice u j).trans h.slice)
    refine ⟨s.forked s1 r u j m, rfl, rfl, ?_, rfl, ?_, hregs, hreg8, fork_ends x0 rfl h hroom hm hfree hbehind hrel⟩
    · show target ((s1.sl u j).pc) _ = _
      rw [hsl]
      rfl
    · show (s1.sl u j).seed.get l = _
      rw [hsl]
  case rdv => exact fun x0 s u j x h hroom hover0 hover1 hreads => rdv_ends rfl h hroom hover0 hover1 hreads

end Sys2Proof.Machine

/-!
PROOFS. The hitch instructions (R416 to R422).
-/
namespace Sys2Proof.Machine

/-! ## Answers -/

theorem geForget_teamsKept (s : State) (g : GeUser) : TeamsKept s (s.geForget g) := .of_teams rfl rfl rfl rfl rfl

theorem putObject_memStep (s : State) (pa : Nat) (h : Hitch) : MemStep s (s.putObject pa h) :=
  ((homeWrite_memStep s _ _).trans (homeWrite_memStep _ _ _)).trans (homeWrite_memStep _ _ _)

/-- An object's unit holds h. -/
def State.withHitch (s : State) (pa : Nat) (h : Hitch) : State := { s with hitches := mset s.hitches pa h }

theorem withHitch_teamsKept (s : State) (pa : Nat) (h : Hitch) : TeamsKept s (s.withHitch pa h) := .of_teams rfl rfl rfl rfl rfl

theorem hinitAnswer_teamsKept {s t : State} {g : GeUser} {asid obj pa con code : Nat} (h : s.hinitAnswer g asid obj pa con = .ok (code, t)) : TeamsKept s t := by
  have same {c : Nat} (he : (GeRes.ok (c, s) : GeRes (Nat × State)) = .ok (code, t)) : TeamsKept s t := by
    cases he
    exact .refl s
  rw [State.hinitAnswer] at h
  split at h
  · exact same h
  · split at h
    · cases h
    · exact same h
    · next ws _ =>
      dsimp only at h
      split at h
      · exact same h
      · split at h
        · cases h
        · exact same h
        · split at h
          · exact same h
          · generalize (if bits (ws.getD (8 / 8) 0) 63 52 = 0 then con else bits (ws.getD (8 / 8) 0) 63 52) = c at h
            split at h
            · exact same h
            · split at h
              · cases h
              · exact same h
              · cases h
                exact (withHitch_teamsKept s pa _).trans (putObject_memStep (s.withHitch pa _) pa _).teamsKept

theorem joinAnswer_teamsKept (s : State) (u obj pa b : Nat) : TeamsKept s (s.joinAnswer u obj pa b).2.2 := by
  rw [State.joinAnswer]
  split
  · split
    · exact .refl s
    · refine iteInduction (motive := fun p : Nat × Nat × State => TeamsKept s p.2.2) (fun _ => .refl s) (fun _ => ?_)
      refine iteInduction (motive := fun p : Nat × Nat × State => TeamsKept s p.2.2) (fun _ => .refl s) (fun _ => ?_)
      exact (withHitch_teamsKept s pa _).trans (modTeam_teamsKept (s.withHitch pa _) u (fun t => { t with joins := t.joins.filter (fun e => e.obj != obj) ++ [_] }) (fun _ => rfl) (fun _ => rfl))
  · exact .refl s

/-- An answer of a lone slice: a result in its acting lanes, after a change of nothing but the hitch, memory and the joins. -/
theorem gives_of_out {i : Instr} {r : Raw} {f : Nat → Nat → Mask → State → State} {s s' : State} {u j : Nat} {x : Slice} {v : Nat}
    (hi : Means i r (fun s => eachSlice s r f)) (h : Alone r s u j x) (hm : s.acts (.slice u j) r.x ≠ 0)
    (he : f u j (s.acts (.slice u j) r.x) s = s'.hitchOut r u j (s.acts (.slice u j) r.x) v) (hk : TeamsKept s s')
    (hroom : s.room (.slice u j) r = true) (hd : OneDest r .reg) :
    Ends i s s' u j (SliceGot r (s.acts (.slice u j) r.x) .reg (fun _ => { val := v }) x) := by
  refine ends_commit hi.raw h.agents ?_ ((hk.agents.slice u j).trans h.slice) ((hk.room _ _).trans hroom) hd hk.agents.ops hk.agents.subs
  rw [h.next (hi.exec s), eachSlice_alone h, if_neg hm, he]
  rfl

section
variable {s : State} {r : Raw} {u j : Nat} {m : Mask} (hroom : s.room (.slice u j) r = true)
include hroom

theorem hinitOne_eq {pa code : Nat} {s1 : State} (hc : s.hitchCheck u j (s.hitchA r u j m) none false 0 = none)
    (hpa : s.hitchPa u j (s.hitchA r u j m) = .ok pa) (hway : s.hitchWay pa = true) (hbusy : s.unitBusy pa = false)
    (ha : s.hinitAnswer (.slice u j) (s.asidOf u) (s.hitchA r u j m) pa (s.special (.slice u j) (lowest m) 0x0C) = .ok (code, s1)) :
    s.hinitOne r u j m = (s1.geForget (.slice u j)).hitchOut r u j m (code + 1 * 2 ^ 32) := by
  rw [State.hinitOne]
  simp only [hc, hroom, hpa, hway, hbusy, ha, Bool.not_true, Bool.false_eq_true, if_false, or_self]
  rfl

theorem hjoinOne_eq {pa : Nat} (hc : s.hitchCheck u j (s.hitchA r u j m) none true (if 2 ^ 56 ≤ s.hitchA r u j m then 6 else 0) = none)
    (hfull : ∀ tm, s.team u = some tm → tm.joins.length < 8) (hpa : s.hitchPa u j (s.hitchA r u j m) = .ok pa) (hway : s.hitchWay pa = true)
    (hbusy : s.unitBusy pa = false) :
    let ans := s.joinAnswer u (s.hitchA r u j m) pa (s.hitchB r u j m % 2 ^ 32)
    s.hjoinOne r u j m = ans.2.2.hitchOut r u j m (ans.1 + ans.2.1 % 2 ^ 32 * 2 ^ 32) := by
  have hnot : (match s.team u with | some t => decide (8 ≤ t.joins.length) | none => false) = false := by
    cases ht : s.team u with
    | none => rfl
    | some tm => exact decide_eq_false (Nat.not_le.mpr (hfull tm ht))
  rw [State.hjoinOne]
  simp only [hc, hroom, hpa, hway, hbusy, Bool.not_true, Bool.false_eq_true, if_false, or_self]
  exact if_neg (fun hf => Bool.false_ne_true (hnot.symm.trans hf))

theorem hqueryOne_eq {pa : Nat} (hc : s.hitchCheck u j (s.hitchA r u j m) none false 0 = none)
    (hpa : s.hitchPa u j (s.hitchA r u j m) = .ok pa) (hway : s.hitchWay pa = true) (hbusy : s.unitBusy pa = false) :
    s.hqueryOne r u j m = s.hitchOut r u j m (match mget s.hitches pa with
      | some h => h.query (bits r.x.imm.toNat 2 0) (s.hitchB r u j m % 2 ^ 32)
      | none => 0xFFFFFFFF) := by
  rw [State.hqueryOne]
  simp only [hc, hroom, hpa, hway, hbusy, Bool.not_true, Bool.false_eq_true, if_false, or_self]
  rfl

theorem hwaitOne_eq {e : Join} {h : Hitch} (hc : s.hitchCheck u j (s.hitchA r u j m) none false 0 = none) (hj : s.joinOf u (s.hitchA r u j m) = some e)
    (hh : mget s.hitches e.pa = some h) (hclosing : h.closing = false) (hreads : s.readsOut (.slice u j) = false) (hway : s.hitchWay e.pa = true) :
    let b := s.hitchB r u j m % 2 ^ 32
    let back := (h.round + 2 ^ 32 - b) % 2 ^ 32
    let status := if 2 ^ h.rdepth < back then 2 ^ 13 else (mget h.status (h.round - back)).getD 0
    roundOver (h.round % 2 ^ 32) b = true → bitAt status 12 = false →
    s.hwaitOne r u j m = (s.acquire (s.coreOf (.slice u j)) e.scope).hitchOut r u j m status := by
  intro b back status hover hstatus
  have hval : (if decide (2 ^ h.rdepth < back) = true then 2 ^ 13 else (mget h.status (h.round - back)).getD 0) = status := ite_congr (propext decide_eq_true_iff) (fun _ => rfl) fun _ => rfl
  rw [State.hwaitOne]
  simp only [hc, hj, hroom, hh, hover, hclosing, hway, hreads, hval, hstatus, b, back, Bool.not_true, Bool.not_false, Bool.false_eq_true, if_false, if_true, or_self]

end

/-! ## HCONTRIB -/

/-- A contribution on its way: its operation waits for the answer. -/
def State.giving (s : State) (op : MemOp) (c : Contrib) : State := { s.addOp op with contribs := mset s.contribs s.nextId c }

theorem mget_giving (s : State) (op : MemOp) (c : Contrib) (id : Nat) : mget (s.giving op c).mops id = if s.nextId = id then some op else mget s.mops id :=
  mget_mset s.mops s.nextId op id

/-- Names taken over before a contribution is on its way. -/
theorem giving_takeOver_kept (W : Issuer → Nat → Nat → Prop) (s : State) (a : Issuer) (ns : List Nat) (m : Mask) (op : MemOp) (c : Contrib)
    (hW : ∀ n ∈ ns, ∀ l ∈ maskList m, W a n l) : LaneKept W [] (s.giving op c) ((s.takeOver a ns m).giving op c) where
  whole := rfl
  teams _ := rfl
  slices _ _ _ := rfl
  ctxs _ _ := rfl
  ops id o h := by
    rw [mget_giving] at h
    rw [mget_giving, takeOver_nextId]
    split at h
    · next hid =>
      cases h
      exact ⟨[], by rw [if_pos hid, List.append_nil], fun p hp => absurd hp List.not_mem_nil⟩
    · next hid =>
      rw [if_neg hid]
      exact takeOver_ops W s a ns m hW id o h
  noOps id h := by
    rw [mget_giving] at h
    rw [mget_giving, takeOver_nextId]
    split at h
    · cases h
    · next hid =>
      rw [if_neg hid]
      exact (takeOver_kept W s a ns m hW).noOps id h
  subs := (takeOver_kept W s a ns m hW).subs

/-- The operation of a contribution. -/
def State.contribOp (s : State) (r : Raw) (u j : Nat) (m : Mask) : MemOp :=
  { kind := .hitch, by_ := .slice u j, asid := s.asidOf u, pc := s.pcOf (.slice u j), ty := 4, size := 8, dst := r.x.d.toNat, wide := true, mask := m, todo := [] }

theorem contribIssue_eq (s : State) (r : Raw) (u j : Nat) (m : Mask) (c : Contrib) :
    s.contribIssue r u j m c = ((s.takeOver (.slice u j) (rawDests r) m).giving (s.contribOp r u j m) c).mapped (.slice u j) r m := by
  have hm : s.mapDests (.slice u j) r m = (s.takeOver (.slice u j) (rawDests r) m).modSlice u j (fun x => x.mapDests r m) := rfl
  show ((s.mapDests (.slice u j) r m).giving (s.contribOp r u j m) c).advance (.slice u j) r.len.bytes = _
  rw [hm]
  show (((s.takeOver (.slice u j) (rawDests r) m).giving (s.contribOp r u j m) c).modSlice u j (fun x => x.mapDests r m)).advance (.slice u j) r.len.bytes = _
  rw [advance_slice, modSlice_modSlice]
  rfl

theorem hcontribOne_eq {s s1 : State} {r : Raw} {u j : Nat} {m : Mask} {e : Join} {ps : List (Sum Place Nat × Nat)} {bs : List Byte} (hroom : s.room (.slice u j) r = true)
    (hj : s.joinOf u (s.hitchA r u j m) = some e) (hc : s.hitchCheck u j (s.hitchA r u j m) (some (s.hitchB r u j m)) false 0 = none)
    (hps : s.sourcePieces u (s.hitchB r u j m) (e.count * spliceBytes e.ty) = .ok ps) (hg : s.hitchCheck u j (s.hitchA r u j m) none true e.scope = none)
    (hread : s.readSource (.slice u j) e.contract ps = .ok bs false 0) (hrel : s.release (.slice u j) e.scope = (true, s1)) :
    s.hcontribOne r u j m = s1.contribIssue r u j m
      { pa := e.pa, member := e.member, tag := s1.hitchC r u j m, fault := false
        elems := bytesElems (spliceBytes e.ty) (match s1.readSource (.slice u j) e.contract ps with | .ok b _ _ => b | _ => []) e.count } := by
  rw [State.hcontribOne]
  simp only [hj, hc, hps, hg, hread, hrel, hroom, Bool.not_true, Bool.false_eq_true, if_false, false_and, if_true]
  rfl

theorem hcontrib_ends {i : Instr} {r : Raw} (hi : Means i r (fun s => eachSlice s r (fun u i m t => t.hcontribOne r u i m))) {s s1 : State} {u j : Nat} {x : Slice}
    {c : Contrib} (h : Alone r s u j x) (hm : s.acts (.slice u j) r.x ≠ 0) (hk : TeamsKept s s1)
    (he : s.hcontribOne r u j (s.acts (.slice u j) r.x) = s1.contribIssue r u j (s.acts (.slice u j) r.x) c) :
    Ends i s (s1.giving (s1.contribOp r u j (s.acts (.slice u j) r.x)) c) u j
      (fun y => ∃ z, Mapped r (s.acts (.slice u j) r.x) x z ∧ y = z.stepped r.len.bytes) := by
  let m := s.acts (.slice u j) r.x
  have hW : ∀ n ∈ destsOn (.slice u j) r, ∀ l ∈ maskList m, writesOf i s (.slice u j) n l := writesOf_lanes hi.raw (by rw [h.agents]; exact List.mem_singleton_self _)
  have hkept : LaneKept (writesOf i s) [.slice u j] (s1.giving (s1.contribOp r u j m) c) (s1.contribIssue r u j m c) := by
    rw [contribIssue_eq]
    exact laneKept_trans (laneKept_mono (giving_takeOver_kept _ s1 _ _ m _ c hW) (by simp)) (mapped_kept _ _ _ r m)
  refine ⟨_, ?_, hkept, ⟨fun id hn => ?_, ?_⟩, (x.mapDests r m).stepped r.len.bytes, ?_, _, mapped_mapDests r m x, rfl⟩
  · rw [h.next (hi.exec s), eachSlice_alone h, if_neg hm, he]
  · rw [contribIssue_eq, (mapped_mops _ (.slice u j) r m).1, mget_giving, mget_giving, takeOver_nextId, hk.agents.ops id hn,
      (takeOver_kept _ s1 (.slice u j) (rawDests r) m hW).noOps id (hk.agents.ops id hn)]
  · have hlen : (s1.contribIssue r u j m c).subs.length = s.subs.length := hkept.subs.1.trans hk.agents.subs
    have hlen1 : (s1.giving (s1.contribOp r u j m) c).subs.length = s.subs.length := hk.agents.subs
    exact (List.drop_of_length_le (Nat.le_of_eq hlen)).trans (List.drop_of_length_le (Nat.le_of_eq hlen1)).symm
  · rw [contribIssue_eq]
    show (State.modSlice _ u j _).slice u j = _
    rw [slice_modSlice, if_pos ⟨rfl, rfl⟩]
    have hx : ((s1.takeOver (.slice u j) (rawDests r) m).giving (s1.contribOp r u j m) c).slice u j = some x := (slice_takeOver s1 (.slice u j) (rawDests r) m u j).trans ((hk.agents.slice u j).trans h.slice)
    rw [hx]
    rfl

/-- Settles O39 by what each instruction comes to on a slice that issues alone. -/
theorem hitchInstructionResults : Obligations.HitchInstructionResults := by
  unfold Obligations.HitchInstructionResults
  refine ⟨?hinit, ?hjoin, ?hquery, ?hwait, ?hcontrib⟩
  case hinit =>
    intro x0 r s u j x h hroom hm hc pa code s1 hpa hway hbusy ha
    exact gives_of_out (r := r) (f := fun u i m t => t.hinitOne r u i m) ⟨rfl, fun _ => rfl⟩ h hm (hinitOne_eq hroom hc hpa hway hbusy ha)
      ((hinitAnswer_teamsKept ha).trans (geForget_teamsKept s1 _)) hroom (oneDest_of_shape r .reg ⟨true, rfl⟩)
  case hjoin =>
    intro x0 r s u j x h hroom hm hc hfull pa hpa hway hbusy
    exact gives_of_out (r := r) (f := fun u i m t => t.hjoinOne r u i m) ⟨rfl, fun _ => rfl⟩ h hm (hjoinOne_eq hroom hc hfull hpa hway hbusy)
      (joinAnswer_teamsKept s _ _ _ _) hroom (oneDest_of_shape r .reg ⟨true, rfl⟩)
  case hquery =>
    intro x0 r s u j x h hroom hm hc pa hpa hway hbusy
    exact gives_of_out (r := r) (f := fun u i m t => t.hqueryOne r u i m) ⟨rfl, fun _ => rfl⟩ h hm (hqueryOne_eq hroom hc hpa hway hbusy) (.refl s) hroom
      (oneDest_of_shape r .reg ⟨false, rfl⟩)
  case hwait =>
    intro x0 r s u j x h hroom hm hc e g hj hg b back status hover hclosing hreads hway hstatus
    exact gives_of_out (r := r) (f := fun u i m t => t.hwaitOne r u i m) ⟨rfl, fun _ => rfl⟩ h hm (hwaitOne_eq hroom hc hj hg hclosing hreads hway hover hstatus)
      (acquire_memStep s _ _).teamsKept hroom (oneDest_of_shape r .reg ⟨false, rfl⟩)
  case hcontrib =>
    intro x0 r s u j x h hroom hm e ps bs s1 hj hc hps hg hread hrel data out
    exact ⟨s1.contribOp r u j (s.acts (.slice u j) r.x), rfl, rfl, rfl, rfl,
      hcontrib_ends ⟨rfl, fun _ => rfl⟩ h hm (release_of_eq hrel).teamsKept (hcontribOne_eq hroom hj hc hps hg hread hrel)⟩

end Sys2Proof.Machine

/-!
PROOFS. The matrix group (R333 to R346).
-/
namespace Sys2Proof.Machine

/-! ## A matrix context that issues -/

theorem MatrixReady.agents {r : Raw} {s : State} {c : CoreId} (h : MatrixReady r s c) : s.agents = [.ctx (ctxKey c true)] := h.1.agents

/-- The matrix instruction of a context that is ready does what it says. -/
theorem mx_ready {r : Raw} {s : State} {c : CoreId} (h : MatrixReady r s c) (f : Nat → State → State) : mx r s f = f (ctxKey c true) s := by
  obtain ⟨hon, hacts, hflight⟩ := h
  rw [mx, hon.agents]
  show (if s.acts (.ctx (ctxKey c true)) r.x = 0 then _ else if (s.ctx (ctxKey c true)).flight.isSome then _ else _) = _
  rw [if_neg hacts, if_neg (by rw [hflight]; exact Bool.false_ne_true)]

/-- A change of the context alone, after s'. -/
theorem ends_modCtx {i : Instr} {s s' : State} {k : Nat} {f : Ctx → Ctx} {P : Ctx → Prop} (he : exec i s = .next (s'.modCtx k f))
    (hP : P (f (s'.ctx k))) : EndsCtx i s s' k P := by
  refine ⟨_, he, modCtx_kept _ s' k f, ⟨fun _ _ => rfl, rfl⟩, ?_⟩
  rw [ctx_modCtx, if_pos rfl]
  exact hP

/-- The instruction of a matrix context changes the context, as `f` makes it, and goes on. -/
theorem ends_matrix {i : Instr} {r : Raw} {g : Nat → State → State} {s s' : State} {c : CoreId} {f : Ctx → Ctx} {P : Ctx → Prop}
    (hi : Means i r (fun s => mx r s g)) (h : MatrixReady r s c)
    (he : g (ctxKey c true) s = (s'.modCtx (ctxKey c true) f).advance (.ctx (ctxKey c true)) r.len.bytes)
    (hP : P ((f (s'.ctx (ctxKey c true))).stepped r.len.bytes)) : EndsCtx i s s' (ctxKey c true) P := by
  refine ends_modCtx (f := fun x => (f x).stepped r.len.bytes) ?_ hP
  rw [h.1.next (hi.exec s)]
  refine congrArg Host.Outcome.next ((mx_ready h g).trans (he.trans ?_))
  rw [advance_ctx, modCtx_modCtx]

/-! ## Tile state -/

/-- Settles O40: each writes the tile or accumulator that it names. -/
theorem tileStateWrites : Obligations.TileStateWrites := by
  unfold Obligations.TileStateWrites
  refine ⟨?tcfg, ?tzero, ?tzeroA, ?aprom⟩
  case tcfg =>
    intro x0 s c r h k v hv
    refine ends_matrix (r := r) ⟨rfl, fun _ => rfl⟩ h (f := fun x => x.setTile x0.d.toNat { x.tile x0.d.toNat with cfg := BitVec.ofNat 32 v }) (if_neg ?_) rfl
    rintro ⟨hne, hbad⟩
    obtain ⟨hok, hfeature⟩ := hv.resolve_left hne
    rcases hbad with hbad | ⟨hvq, hbad⟩
    · rw [hok] at hbad
      cases hbad
    · rw [hfeature hvq] at hbad
      cases hbad
  case tzero =>
    intro x0 s c r h k
    exact ends_matrix (r := r) ⟨rfl, fun _ => rfl⟩ h (f := fun x => x.setTile x0.d.toNat { x.tile x0.d.toNat with bits := 0, scales := 0, count := 0 }) rfl rfl
  case tzeroA =>
    intro x0 s c r h k v hv
    refine ends_matrix (r := r) ⟨rfl, fun _ => rfl⟩ h (f := fun x => x.setAcc x0.d.toNat { cells := 0, shape := some (BitVec.ofNat 32 v) }) (if_neg ?_) rfl
    rw [hv]
    exact Bool.false_ne_true
  case aprom =>
    intro x0 s c w r h k acc kind from_ n hshape hkind hsize
    let cells := packCells kind ((List.range n).map (fun j =>
      let v := cellDecode from_ (acc.cell from_ j)
      (cellEncode kind (if v.isNaN ∧ kind = 3 then (nanTo fp64 v).1 else v)).1))
    refine ends_matrix (r := r) ⟨rfl, fun _ => rfl⟩ h (f := fun x => x.setAcc x0.d.toNat { cells := cells, shape := some (BitVec.ofNat 32 (setBits w.toNat 17 16 kind)) }) ?_ rfl
    have hshape' : ((s.ctx (ctxKey c true)).acc (Raw.ext .aprom x0).x.d.toNat).shape = some w := hshape
    simp only [hshape']
    exact (if_neg (fun hf => Bool.false_ne_true ((congrArg not (decide_eq_true hkind)).symm.trans hf))).trans (if_neg (Nat.not_lt.mpr hsize))

/-! ## Operations -/

theorem mat_ends {i : Instr} {r : Raw} (hi : Means i r (bodyMat r)) {s : State} {c : CoreId} (h : MatrixReady r s c)
    (hopen : r.op = .olapply → (s.ctx (ctxKey c true)).opened.isSome = true)
    (hcheck : s.matCheck (ctxKey c true) r.op r.x.d.toNat r.x.a.toNat r.x.b.toNat = none) :
    EndsCtx i s (s.modQuad (ctxCore (ctxKey c true)) (fun q => { q with since := q.since + 1 })) (ctxKey c true) (fun y =>
      y = { (s.ctx (ctxKey c true)).stepped r.len.bytes with flight := some (.op r.op r.x.d.toNat r.x.a.toNat r.x.b.toNat r.x.rm.toNat) }) := by
  refine ends_matrix (f := fun x => { x with flight := some (.op r.op r.x.d.toNat r.x.a.toNat r.x.b.toNat r.x.rm.toNat) }) ⟨hi.raw, hi.exec⟩ h ?_ rfl
  simp only [hcheck]
  refine if_neg ?_
  rintro ⟨hop, hnone⟩
  rw [Option.isNone_iff_eq_none] at hnone
  have hs := hopen hop
  rw [hnone] at hs
  cases hs

theorem acc_setAcc (x : Ctx) (d : Nat) (v : Acc) (n : Nat) : (x.setAcc d v).acc n = if d = n then v else x.acc n := by
  simp only [Ctx.setAcc, Ctx.acc, mget_mset]
  split <;> rfl

theorem tile_setTile (x : Ctx) (d : Nat) (v : Tile) (n : Nat) : (x.setTile d v).tile n = if d = n then v else x.tile n := by
  simp only [Ctx.setTile, Ctx.tile, mget_mset]
  split <;> rfl

/-- Settles O41 by `mat_ends`; a completion is read off. -/
theorem matrixOperationsIssueComplete : Obligations.MatrixOperationsIssueComplete := by
  unfold Obligations.MatrixOperationsIssueComplete
  refine ⟨?mma, ?mmav, ?olapply, ?complete⟩
  case mma => exact fun x0 s c h hopen hcheck => mat_ends ⟨rfl, fun _ => rfl⟩ h hopen hcheck
  case mmav => exact fun x0 s c h hopen hcheck => mat_ends ⟨rfl, fun _ => rfl⟩ h hopen hcheck
  case olapply => exact fun x0 s c h hopen hcheck => mat_ends ⟨rfl, fun _ => rfl⟩ h hopen hcheck
  case complete =>
    intro c s op d ta tb rm k x hflight
    have hflight' : (s.ctx (ctxKey c true)).flight = some (.op op d ta tb rm) := hflight
    have he : exec (.matrixOpComplete c) s = .next (s.matrixComplete c) := rfl
    by_cases hvq : op = .mmav ∧ cfgFmt (x.tile tb).cfg.toNat = 0x1A
    · refine ends_modCtx (f := fun x => { x with flight := none, opened := some (d, ta, tb, rm), ops := x.ops + 1 }) ?_ ?_
      · rw [he, State.matrixComplete]
        simp only [hflight']
        exact congrArg Host.Outcome.next (if_pos hvq)
      · exact (if_pos hvq).mpr rfl
    · refine ends_modCtx (f := fun x => { x.setAcc d { cells := packCells (shapeKind ((s.ctx k).acc d |>.shape.getD 0).toNat) (s.matMul k op d ta tb rm).1, shape := ((s.ctx k).acc d).shape } with
          flight := none, opened := none, part := none, ops := x.ops + 1, fstk := x.fstk ||| (s.matMul k op d ta tb rm).2.setWidth 32
          opseq := if Contract.mode (s.contractOf (.ctx k)) rm = .sr then x.opseq + 1 else x.opseq }) ?_ ?_
      · rw [he, State.matrixComplete]
        simp only [hflight']
        exact congrArg Host.Outcome.next (if_neg hvq)
      · refine (if_neg hvq).mpr ?_
        have hacc (n : Nat) := acc_setAcc (s.ctx k) d
          { cells := packCells (shapeKind ((s.ctx k).acc d |>.shape.getD 0).toNat) (s.matMul k op d ta tb rm).1, shape := ((s.ctx k).acc d).shape } n
        have hd := (hacc d).trans (if_pos rfl)
        have hcells := congrArg Acc.cells hd
        have hshape := congrArg Acc.shape hd
        exact ⟨hcells, hshape, rfl, rfl, rfl, rfl, rfl, rfl, rfl, fun n hn => (hacc n).trans (if_neg (Ne.symm hn))⟩

end Sys2Proof.Machine

/-!
PROOFS. AOUT, STEST and the tile transfers (R334, R339, R342 to R346).
-/
namespace Sys2Proof.Machine

/-! ## Access to memory -/

/-- The translations of pieces that all have a place, without CMIX. -/
def placed (ps : List (List (Place × Nat))) : List (List SegTr) := ps.map (fun l => l.map (fun p => .ok p.1 p.2 false))

theorem mem_placed {ps : List (List (Place × Nat))} {t : SegTr} (h : t ∈ (placed ps).flatten) : ∃ p n, t = .ok p n false := by
  obtain ⟨l, hl, ht⟩ := List.mem_flatten.mp h
  obtain ⟨m, -, rfl⟩ := List.mem_map.mp hl
  obtain ⟨p, -, rfl⟩ := List.mem_map.mp ht
  exact ⟨p.1, p.2, rfl⟩

section
variable (ps : List (List (Place × Nat)))

theorem placed_filterMap {β : Type} (g : SegTr → Option β) (hg : ∀ p n, g (.ok p n false) = none) : (placed ps).flatten.filterMap g = [] := by
  rw [List.filterMap_eq_nil_iff]
  intro t ht
  obtain ⟨p, n, rfl⟩ := mem_placed ht
  exact hg p n

theorem placed_findSome {β : Type} (g : SegTr → Option β) (hg : ∀ p n, g (.ok p n false) = none) : (placed ps).flatten.findSome? g = none := by
  rw [List.findSome?_eq_none_iff]
  exact List.filterMap_eq_nil_iff.mp (placed_filterMap ps g hg)

theorem placed_any (g : SegTr → Bool) (hg : ∀ p n, g (.ok p n false) = false) : (placed ps).flatten.any g = false := by
  rw [List.any_eq_false]
  intro t ht
  obtain ⟨p, n, rfl⟩ := mem_placed ht
  rw [hg]
  exact Bool.false_ne_true

theorem placed_places (g : SegTr → Option (Place × Nat)) (hg : ∀ p n, g (.ok p n false) = some (p, n)) : (placed ps).map (fun l => l.filterMap g) = ps := by
  rw [placed, List.map_map]
  refine (List.map_congr_left fun l _ => ?_).trans (List.map_id ps)
  rw [Function.comp_apply, List.filterMap_map]
  refine (congrArg (fun h => l.filterMap h) (funext fun p => hg p.1 p.2)).trans List.filterMap_some

end

/-- An access whose segments are reached acts on their places. -/
theorem mxAccess_reached {s : State} {r : Raw} {k acc : Nat} {stamps : Bool} {segs : List (Nat × Nat)} {ps : List (List (Place × Nat))}
    (h : Reached s k acc stamps segs ps) (f : List (List (Place × Nat)) → State → State) : s.mxAccess r k acc stamps segs f = f ps s := by
  obtain ⟨hperf, ws, hws, htr⟩ := h
  rw [State.mxAccess, hperf, hws]
  have htr' : ws.map (fun l => l.map (s.segTr k acc stamps)) = placed ps := htr
  simp only [htr', Bool.false_eq_true, if_false]
  rw [placed_findSome _ _ (fun _ _ => rfl)]
  dsimp only
  rw [placed_filterMap _ _ (fun _ _ => rfl)]
  dsimp only
  rw [placed_filterMap _ _ (fun _ _ => rfl)]
  dsimp only
  rw [placed_any _ _ (fun _ _ => rfl), placed_places _ _ (fun _ _ => rfl)]
  rfl

/-- A transfer enters flight, after s'. -/
theorem ends_mxStart {i : Instr} {r : Raw} {g : Nat → State → State} {s s' : State} {c : CoreId} {f : Flight} (hi : Means i r (fun s => mx r s g))
    (h : MatrixReady r s c) (he : g (ctxKey c true) s = s'.mxStart r (ctxKey c true) f) :
    EndsCtx i s s' (ctxKey c true) (fun y => y = { (s'.ctx (ctxKey c true)).stepped r.len.bytes with flight := some f }) :=
  ends_matrix (f := fun x => { x with flight := some f }) hi h he rfl

/-! ## The tile transfers -/

/-- TLD and TST under the conditions of the tile's config and of the alignment. -/
theorem tile_ends {i : Instr} {r : Raw} (hi : Means i r (bodyTile r)) {s : State} {c : CoreId} (h : MatrixReady r s c) {st : Bool} (hst : (r.op == .tst) = st)
    {mf : MatFmt} {ps : List (List (Place × Nat))} :
    let k := ctxKey c true
    let g := ((s.ctx k).tile r.x.d.toNat).cfg.toNat
    let base := s.srcA (.ctx k) r 0 0
    let pitch := s.srcB (.ctx k) r 0 0
    let cadr := s.readV (.ctx k) true r.x.c.toNat 0
    let count := if st then 0 else r.x.imm.toNat
    matFmt (cfgFmt g) = some mf → (st = false → bitAt r.x.scope.toNat 0 = cfgCol g) → (count ≠ 0 → cfgFmt g = 0x1A) → (r.x.c ≠ 0 → mf.block.isSome = true) →
    (st = true → 1 < (tileLines g mf).1 → (tileLines g mf).2 ≤ pitch) → base % 16 = 0 → pitch % 16 = 0 → (mf.block.isSome = true → cadr % 16 = 0) →
    Reached s k (if st then accWrite else accRead) true
      ((List.range (tileLines g mf).1).map (fun i => (base + i * pitch, (tileLines g mf).2)) ++
        [(cadr, scaleBytes g mf), (cadr + (scaleBytes g mf + 15) / 16 * 16, 4 * count)]) ps →
    EndsCtx i s s k (fun y => y = { (s.ctx k).stepped r.len.bytes with flight := some (.xfer (if st then .tst else .tld) r.x.d.toNat g count ps) }) := by
  intro k g base pitch cadr count hmf hlayout hcount hblock hpitch hbase hp16 hcadr hreach
  refine ends_mxStart ⟨hi.raw, hi.exec⟩ h ?_
  have hmf' : matFmt (cfgFmt ((s.ctx (ctxKey c true)).tile r.x.d.toNat).cfg.toNat) = some mf := hmf
  have hshape : ¬ (((!st && (bitAt r.x.scope.toNat 0 != cfgCol g)) || (count != 0 && cfgFmt g != 0x1A) || (r.x.c != 0 && mf.block.isNone) ||
      (st && decide (1 < (tileLines g mf).1) && decide (pitch < (tileLines g mf).2))) = true) := by
    simp only [Bool.or_eq_true, Bool.and_eq_true, Bool.not_eq_true', bne_iff_ne, decide_eq_true_eq]
    rintro (((⟨h0, hl⟩ | ⟨h0, hf⟩) | ⟨h0, hb⟩) | ⟨⟨h0, h1⟩, h2⟩)
    · exact hl (hlayout h0)
    · exact hf (hcount h0)
    · rw [← Option.not_isSome, hblock h0] at hb
      cases hb
    · exact Nat.not_lt.mpr (hpitch h0 h1) h2
  have halign : ¬ (base % 16 ≠ 0 ∨ pitch % 16 ≠ 0 ∨ (mf.block.isSome = true ∧ cadr % 16 ≠ 0)) := by
    rintro (hn | hn | ⟨hs, hn⟩)
    · exact hn hbase
    · exact hn hp16
    · exact hn (hcadr hs)
  simp only [hmf', hst]
  exact (if_neg hshape).trans ((if_neg halign).trans (mxAccess_reached hreach _))

/-- The header that ARST reads is good, and its contract the context's. -/
theorem arst_ends (x0 : Ext) {r : Raw} (hr : r = .ext .arst x0) {s : State} {c : CoreId} {ps0 ps1 : List (List (Place × Nat))} (h : MatrixReady r s c) :
    let k := ctxKey c true
    let base := s.srcA (.ctx k) r 0 0
    let got := s.mxRead k ps0.flatten
    let w0 := ofBytes (got.1.take 8)
    let w := w0 % 2 ^ 32
    base % 64 = 0 → Reached s k accRead true [(base, 64)] ps0 → (s.core (ctxCore k)).wc.any (fun e => e.meets ps0.flatten) = false → s.mxReach k ps0 = true →
    imageOk got.1 = true → bits w0 43 32 = (got.2.ctx k).contract →
    Reached got.2 k accRead true [(base + 64, shapeRows w * shapeCols w * cellBytes (shapeKind w))] ps1 →
    EndsCtx (.arst x0) s got.2 k (fun y => y = { (got.2.ctx k).stepped r.len.bytes with flight := some (.xfer .arst r.x.d.toNat w 0 ps1) }) := by
  intro k base got w0 w hbase hreach0 hwc hway himage hcontract hreach1
  have hi : Means (.arst x0) r (bodyArst r) := by
    subst hr
    exact ⟨rfl, fun _ => rfl⟩
  refine ends_mxStart ⟨hi.raw, hi.exec⟩ h ?_
  have hsame : ¬ (bits w0 43 32 != (got.2.ctx k).contract) = true := by
    rw [hcontract, bne_self_eq_false]
    exact Bool.false_ne_true
  refine (if_neg (not_not_intro hbase)).trans ((mxAccess_reached hreach0 _).trans ?_)
  refine (if_neg (fun hf => Bool.false_ne_true (hwc.symm.trans hf))).trans ((if_neg (by rw [hway]; exact Bool.false_ne_true)).trans ?_)
  refine (if_neg (by rw [himage]; exact Bool.false_ne_true)).trans ?_
  refine (if_pos (by rw [Bool.not_eq_true', Bool.eq_false_iff]; exact hsame)).trans ?_
  exact mxAccess_reached hreach1 _

/-- The core paired with a context of a core has the core's key. -/
theorem core_ctxCore (s : State) (c : CoreId) (m : Bool) : s.core (ctxCore (ctxKey c m)) = s.core c := by
  have hk : (ctxCore (ctxKey c m)).key = c.key := by
    have hb : bit01 m < 2 := by cases m <;> decide
    have h2 : (c.key * 2 + bit01 m) / 2 = c.key := by omega
    rw [ctxCore, ctxKey, h2, coreOf, CoreId.key]
    show c.key / 128 * 128 + c.key / 4 % 32 * 4 + c.key % 4 = c.key
    omega
  rw [State.core, State.core, hk]

/-! ## AOUT and STEST -/

/-- The one lane of a context. -/
theorem lanes_ctx (s : State) (k : Nat) (x : Ext) (h : s.acts (.ctx k) x ≠ 0) : maskList (s.acts (.ctx k) x) = [0] := by
  have hcases : ∀ m : Mask, 1 &&& m ≠ 0 → maskList (1 &&& m) = [0] := by decide
  exact hcases _ h

theorem stest_ends {i : Instr} {r : Raw} (hi : Means i r (bodyStest r)) (hd : ∀ k, destsOn (.ctx k) r = [r.x.d.toNat]) {s : State} {c : CoreId} (h : MatrixReady r s c) :
    EndsCtx i s s (ctxKey c true) (fun y => y = { (s.ctx (ctxKey c true)).stepped r.len.bytes with flight := some (.test r.x.d.toNat) }) := by
  have hW : ∀ n ∈ [r.x.d.toNat], ∀ l ∈ maskList 1, writesOf i s (.ctx (ctxKey c true)) n l := by
    intro n hn l hl
    refine writesOf_lanes hi.raw (by rw [h.agents]; exact List.mem_singleton_self _) n ?_ l ?_
    · rw [hd]
      exact hn
    · rw [lanes_ctx s _ _ h.2.1]
      exact hl
  have hk : LaneKept (writesOf i s) [.ctx (ctxKey c true)] s ((s.takeOver (.ctx (ctxKey c true)) [r.x.d.toNat] 1).modCtx (ctxKey c true)
      (fun x => ({ x with flight := some (.test r.x.d.toNat) } : Ctx).stepped r.len.bytes)) :=
    laneKept_trans (laneKept_mono (takeOver_kept _ s _ _ 1 hW) (by simp)) (modCtx_kept _ _ _ _)
  refine ⟨_, ?_, hk, committed_fresh hk (fun _ hn => hn) rfl, ?_⟩
  · rw [h.1.next (hi.exec s), bodyStest, mx_ready h, State.mxStart, advance_ctx, modCtx_modCtx]
  · rw [ctx_modCtx, if_pos rfl]
    rfl

theorem aout_ends {i : Instr} {r : Raw} (hi : Means i r (bodyAout r)) {s : State} {c : CoreId} (h : MatrixReady r s c) {w : Nat} {mf : MatFmt} :
    let k := ctxKey c true
    let x := s.ctx k
    let g := (x.tile r.x.d.toNat).cfg.toNat
    let acc := x.acc r.x.a.toNat
    let row0 := s.srcB (.ctx k) r 0 0 % 128
    let rows := cfgRows g
    let cols := cfgCols g
    let fm := Contract.mode (s.contractOf (.ctx k)) r.x.rm.toNat
    let es := (List.range (rows * cols)).map (fun n => aoutElem (s.contractOf (.ctx k)) mf.elem
      (cellDecode (shapeKind w) (acc.cell (shapeKind w) ((row0 + n / cols) * cols + n % cols))) fm
      (if fm = .sr then s.matrixDraw k (row0 + n / cols) (n % cols) else 0))
    matFmt (cfgFmt g) = some mf → cfgFmt g ≤ 0x10 → acc.shape = some (BitVec.ofNat 32 w) → w < 2 ^ 32 → cols = shapeCols w → row0 + rows ≤ shapeRows w →
    EndsCtx i s s k (fun y => y.pc = x.pc + r.len.bytes ∧ y.accs = x.accs ∧ y.fstk = x.fstk ||| (orFlags (es.map (·.2))).setWidth 32 ∧
      y.opseq = (if fm = .sr then x.opseq + 1 else x.opseq) ∧ (y.tile r.x.d.toNat).cfg = (x.tile r.x.d.toNat).cfg ∧
      (y.tile r.x.d.toNat).bits = BitVec.ofNat 131072 ((x.tile r.x.d.toNat).bits.toNat / 2 ^ (rows * cols * mf.w) * 2 ^ (rows * cols * mf.w) + packElems mf.w (es.map (·.1))) ∧
      ∀ n, n ≠ r.x.d.toNat → y.tile n = x.tile n) := by
  intro k x g acc row0 rows cols fm es hmf hfmt hshape hw hcols hrows
  let v : Tile := { x.tile r.x.d.toNat with
    bits := BitVec.ofNat 131072 ((x.tile r.x.d.toNat).bits.toNat / 2 ^ (rows * cols * mf.w) * 2 ^ (rows * cols * mf.w) + packElems mf.w (es.map (·.1))) }
  have hmf' : matFmt (cfgFmt ((s.ctx (ctxKey c true)).tile r.x.d.toNat).cfg.toNat) = some mf := hmf
  have hshape' : ((s.ctx (ctxKey c true)).acc r.x.a.toNat).shape = some (BitVec.ofNat 32 w) := hshape
  have hwn : (BitVec.ofNat 32 w).toNat = w := by rw [BitVec.toNat_ofNat, Nat.mod_eq_of_lt hw]
  refine ends_matrix (f := fun y => { y.setTile r.x.d.toNat v with
      fstk := y.fstk ||| (orFlags (es.map (·.2))).setWidth 32, opseq := if fm = .sr then y.opseq + 1 else y.opseq }) ⟨hi.raw, hi.exec⟩ h ?_ ?_
  · simp only [hmf', hshape', hwn]
    exact (if_neg (Nat.not_lt.mpr hfmt)).trans (if_neg (fun hf => hf.elim (fun hne => hne hcols) (fun hlt => Nat.not_lt.mpr hrows hlt)))
  · have htile (n : Nat) := tile_setTile x r.x.d.toNat v n
    have hd := (htile r.x.d.toNat).trans (if_pos rfl)
    have hcfg := congrArg Tile.cfg hd
    have hbits := congrArg Tile.bits hd
    exact ⟨rfl, rfl, rfl, rfl, hcfg, hbits, fun n hn => (htile n).trans (if_neg (Ne.symm hn))⟩

/-- Settles O42: of each transfer, the checks that its conditions pass. -/
theorem tileTransfersEnterFlight : Obligations.TileTransfersEnterFlight := by
  unfold Obligations.TileTransfersEnterFlight
  refine ⟨?stest, ?tld, ?tst, ?cbld, ?asav, ?ahist, ?arst, ?aout⟩
  case stest =>
    rintro x0 s c f r h k rfl
    exact stest_ends ⟨rfl, fun _ => rfl⟩ (fun _ => rfl) h
  case tld =>
    rintro x0 s c f r h k ⟨mf, hmf, hlayout, hcount, hblock, hpitch, hbase, hp16, hcadr, ps, rfl, hreach⟩
    exact tile_ends (r := r) (st := false) ⟨rfl, fun _ => rfl⟩ h rfl hmf hlayout hcount hblock hpitch hbase hp16 hcadr hreach
  case tst =>
    rintro x0 s c f r h k ⟨mf, hmf, hlayout, hcount, hblock, hpitch, hbase, hp16, hcadr, ps, rfl, hreach⟩
    exact tile_ends (r := r) (st := true) ⟨rfl, fun _ => rfl⟩ h rfl hmf hlayout hcount hblock hpitch hbase hp16 hcadr hreach
  case cbld =>
    rintro x0 s c f r h k ⟨hbase, ps, rfl, hreach⟩
    exact ends_mxStart (r := r) ⟨rfl, fun _ => rfl⟩ h ((if_neg (not_not_intro hbase)).trans (mxAccess_reached hreach _))
  case asav =>
    rintro x0 s c f r h k ⟨w, hshape, hbase, ps, rfl, hreach⟩
    refine ends_mxStart (r := r) ⟨rfl, fun _ => rfl⟩ h ?_
    have hshape' : ((s.ctx (ctxKey c true)).acc (Raw.ext .asav x0).x.d.toNat).shape = some w := hshape
    simp only [hshape']
    exact (if_neg (not_not_intro hbase)).trans (mxAccess_reached hreach _)
  case ahist =>
    rintro x0 s c f r h k ⟨w, hshape, hbase, hwin, ps, rfl, hreach⟩
    refine ends_mxStart (r := r) ⟨rfl, fun _ => rfl⟩ h ?_
    have hshape' : ((s.ctx (ctxKey c true)).acc (Raw.ext .ahist x0).x.d.toNat).shape = some w := hshape
    simp only [hshape']
    refine (if_neg (not_not_intro hbase)).trans ((if_neg ?_).trans (mxAccess_reached hreach _))
    rw [List.any_eq_true]
    rintro ⟨p, hp, hf⟩
    have hle := hwin p hp
    rw [Bool.not_eq_true', Bool.or_eq_false_iff, decide_eq_false_iff_not] at hf
    exact hf.1 hle
  case arst =>
    intro x0 s c ps0 ps1 r h k base got w0 w hbase hreach0 hwc
    exact arst_ends x0 rfl h hbase hreach0 (by rw [core_ctxCore]; exact hwc)
  case aout => exact fun x0 s c w mf h hmf hfmt hshape hw hcols hrows => aout_ends ⟨rfl, fun _ => rfl⟩ h hmf hfmt hshape hw hcols hrows

end Sys2Proof.Machine

/-!
PROOFS. The events that perform memory operations in flight (R286, R296, R309, R391, R442).
-/
namespace Sys2Proof.Machine

/-! ## What a write of a scratchpad leaves -/

/-- Memory, the bytes of the scratchpads and the operations in flight are the same. -/
structure BytesKept (s t : State) : Prop where
  mem : t.mem = s.mem
  scratch : ∀ u, (t.team u).map Team.scratch = (s.team u).map Team.scratch
  mops : t.mops = s.mops

theorem BytesKept.refl (s : State) : BytesKept s s := ⟨rfl, fun _ => rfl, rfl⟩

theorem BytesKept.trans {s t w : State} (h : BytesKept s t) (g : BytesKept t w) : BytesKept s w :=
  ⟨g.mem.trans h.mem, fun u => (g.scratch u).trans (h.scratch u), g.mops.trans h.mops⟩

theorem BytesKept.scrRead {s t : State} (h : BytesKept s t) (u off n : Nat) : t.scrRead u off n = s.scrRead u off n := by
  have hs (w : State) : w.scrRead u off n = ((w.team u).map Team.scratch).elim (List.replicate n 0) (fun m => Mem.read m off n) := by
    rw [State.scrRead]
    cases w.team u <;> rfl
  rw [hs, hs, h.scratch]

theorem modTeam_bytesKept (s : State) (u : Nat) (f : Team → Team) (hf : ∀ t, (f t).scratch = t.scratch) : BytesKept s (s.modTeam u f) where
  mem := rfl
  scratch v := by
    rw [team_modTeam]
    split
    · cases s.team v with
      | none => rfl
      | some t => exact congrArg some (hf t)
    · rfl
  mops := rfl

theorem wrote_scr (s : State) (a : Issuer) (u off : Nat) (bs : List Byte) : s.wrote a (.scr u off) bs = s := by
  rw [State.wrote]
  cases s.team (s.teamOf a) <;> rfl

theorem hideBy_scr_bytesKept (s old : State) (a : Issuer) (lane op u off : Nat) (bs : List Byte) : BytesKept s (s.hideBy old a lane op (.scr u off) bs) := by
  cases a with
  | ctx k =>
    rw [State.hideBy, wrote_scr]
    exact .refl s
  | slice v i =>
    rw [State.hideBy, wrote_scr, State.hide]
    cases old.team u with
    | none => exact .refl s
    | some o => exact modTeam_bytesKept s u _ (fun _ => rfl)

theorem hashEl_bytesKept (s : State) (id : Nat) (op : MemOp) (e : El) (kind size value : Nat) : BytesKept s (s.hashEl id op e kind size value) := by
  rw [State.hashEl]
  cases op.by_ with
  | ctx k => exact .refl s
  | slice u i => exact modTeam_bytesKept s u _ (fun _ => rfl)

theorem scrRead_scrWrite {s : State} {u : Nat} {tm : Team} (off : Nat) (bs : List Byte) (h : s.team u = some tm) (hwf : tm.scratch.wf = true) :
    (s.scrWrite u off bs).scrRead u off bs.length = bs := by
  rw [State.scrRead, team_scrWrite off bs h]
  exact read_write bs tm.scratch off hwf

theorem scrRead_scrWrite_toBytes {s : State} {u : Nat} {tm : Team} (off n v : Nat) (h : s.team u = some tm) (hwf : tm.scratch.wf = true) :
    (s.scrWrite u off (toBytes n v)).scrRead u off n = toBytes n v := by
  have hr := scrRead_scrWrite off (toBytes n v) h hwf
  rwa [length_toBytes] at hr

/-! ## Loads and atomics that return -/

theorem loadReply_of_home {s : State} {id : Nat} {op : MemOp} (hop : mget s.mops id = some op) (hkind : op.kind = .ld ∨ op.kind = .ldk)
    (hpod : op.pod = true → op.answered = true) (hwait : op.todo.any (s.mustWait id op) = false) (hhome : ∀ e ∈ op.todo, e.podLine? = none) :
    s.loadReply id = { (s.readEls op op.todo).2.deliver op (op.got ++ (s.readEls op op.todo).1) with
      mops := mdel ((s.readEls op op.todo).2.deliver op (op.got ++ (s.readEls op op.todo).1)).mops id } := by
  have hans : ¬ (op.pod = true ∧ (!op.answered) = true) := by
    rintro ⟨hp, ha⟩
    rw [hpod hp] at ha
    cases ha
  have hlines : op.todo.findSome? El.podLine? = none := List.findSome?_eq_none_iff.mpr hhome
  rw [State.loadReply]
  simp only [hop]
  rw [if_neg hans]
  rcases hkind with hk | hk <;> simp only [hk, hwait, hlines, Bool.false_eq_true, if_false]

/-- A context's load of one element of a scratchpad. -/
theorem loadReply_scr {s : State} {id : Nat} {op : MemOp} {e : El} {u off k : Nat} (hop : mget s.mops id = some op) (hkind : op.kind = .ld) (hby : op.by_ = .ctx k)
    (hpod : op.pod = false) (hskip : op.skip = []) (hgot : op.got = []) (htodo : op.todo = [e]) (hplace : e.place = some (.scr u off)) (hwait : s.mustWait id op e = false) :
    mget (s.loadReply id).mops id = none ∧
      mget ((s.loadReply id).ctx k).regs (op.dst + e.elem) = some (BitVec.ofNat 64 (extendTy op.ty (ofBytes (s.scrSeen u off op.size)))) := by
  have hline : e.podLine? = none := by rw [El.podLine?, hplace]; rfl
  have hread : s.readEls op op.todo = ([(e.lane, e.elem, ofBytes (s.scrSeen u off op.size))], s) := by
    rw [htodo, State.readEls]
    simp only [hplace, State.placeRead, hby]
    rfl
  rw [loadReply_of_home hop (.inl hkind) (by rw [hpod]; exact fun h => nomatch h) (by rw [htodo]; simp [hwait]) (by rw [htodo]; simpa using hline), hread, hgot]
  refine ⟨by rw [mget_mdel, if_pos rfl], ?_⟩
  simp only [State.deliver, List.nil_append, foldS_cons, foldS_nil, hby, hskip, List.contains_nil, Bool.false_eq_true, if_false]
  show mget ((s.modCtx k (fun x => { x with regs := mset x.regs _ _ })).ctx k).regs _ = _
  rw [ctx_modCtx, if_pos rfl]
  exact mget_mset_self _ _ _

/-- A context's atomic that has been performed and acquires nothing. -/
theorem loadReply_atom {s : State} {id : Nat} {op : MemOp} {k v : Nat} (hop : mget s.mops id = some op) (hkind : op.kind = .atom) (hby : op.by_ = .ctx k)
    (htodo : op.todo = []) (hpod : op.pod = true → op.answered = true) (hgot : op.got = [(0, 0, v)]) (hskip : op.skip = []) (horder : op.order % 2 = 0) :
    mget (s.loadReply id).mops id = none ∧ mget ((s.loadReply id).ctx k).regs op.dst = some (BitVec.ofNat 64 (extendTy op.ty v)) ∧
      ((s.loadReply id).ctx k).fstk = (s.ctx k).fstk ||| op.fl.p0 := by
  let t := (s.modCtx k (fun x => { x with regs := mset x.regs op.dst (BitVec.ofNat 64 (extendTy op.ty v)) })).modCtx k (fun x => { x with fstk := x.fstk ||| op.fl.p0 })
  have hans : ¬ (op.pod = true ∧ (!op.answered) = true) := by
    rintro ⟨hp, ha⟩
    rw [hpod hp] at ha
    cases ha
  have hd : s.deliver op [(0, 0, v)] = s.modCtx k (fun x => { x with regs := mset x.regs op.dst (BitVec.ofNat 64 (extendTy op.ty v)) }) := by
    simp only [State.deliver, foldS_cons, foldS_nil, hby, hskip, List.contains_nil, Bool.false_eq_true, if_false]
    rfl
  have he : s.loadReply id = { t with mops := mdel t.mops id } := by
    rw [State.loadReply]
    simp only [hop]
    rw [if_neg hans]
    simp only [hkind, htodo, horder, hgot, List.isEmpty_nil, Bool.not_true, Bool.false_eq_true, Nat.zero_ne_one, false_and, if_false, foldS_cons, foldS_nil, hby, hd, State.orFlags]
    rfl
  rw [he]
  refine ⟨by rw [mget_mdel, if_pos rfl], ?_, ?_⟩
  · show mget (t.ctx k).regs op.dst = _
    rw [ctx_modCtx, if_pos rfl, ctx_modCtx, if_pos rfl]
    exact mget_mset_self _ _ _
  · show (t.ctx k).fstk = _
    rw [ctx_modCtx, if_pos rfl, ctx_modCtx, if_pos rfl]

/-! ## Stores and atomics that are performed -/

theorem storeTranslate_scr {s : State} {id : Nat} {op : MemOp} {e : El} {u off : Nat} {tm : Team} (hop : mget s.mops id = some op) (hkind : op.kind = .st)
    (htodo : op.todo = [e]) (hheld : e.held = false) (hflt : e.flt = none) (hplace : e.place = some (.scr u off)) (hwait : s.mustWait id op e = false)
    (ht : s.team u = some tm) (hwf : tm.scratch.wf = true) :
    mget (s.storeTranslate id).mops id = none ∧ (s.storeTranslate id).scrRead u off op.size = toBytes op.size e.data ∧ (s.storeTranslate id).mem = s.mem := by
  let w := s.scrWrite u off (toBytes op.size e.data)
  let t := (w.hideBy s op.by_ e.lane id (.scr u off) (toBytes op.size e.data)).hashEl id op e 1 op.size e.data
  have hstep : s.storeStep id op [] e = (t, none) := by
    rw [State.storeStep]
    simp only [hheld, hflt, hplace, hwait, hkind, bne_self_eq_false, List.any_nil, Bool.or_self, Bool.false_eq_true, if_false, State.placeWrite]
    rfl
  have he : s.storeTranslate id = { t with mops := mdel t.mops id } := by
    rw [State.storeTranslate]
    simp only [hop, hkind, true_or, if_true, htodo, stepEls, hstep, State.keepEls, List.isEmpty_nil, and_self]
  have hk : BytesKept w t := (hideBy_scr_bytesKept w s _ _ _ _ _ _).trans (hashEl_bytesKept _ _ _ _ _ _ _)
  rw [he]
  refine ⟨by rw [mget_mdel, if_pos rfl], ?_, hk.mem⟩
  show t.scrRead u off op.size = _
  rw [hk.scrRead, scrRead_scrWrite_toBytes off op.size e.data ht hwf]

/-- An atomic of a task that neither records nor replays is logged nowhere. -/
theorem logAtomic_off {s : State} {op : MemOp} {e : El} (h : s.rrmodeOf op.by_ = 0) : s.logAtomic op e = .ok s := by
  rw [State.logAtomic, h]
  cases s.team (s.teamOf op.by_) with
  | none => rfl
  | some t =>
    simp only [ite_self]

/-- The operation after one of its elements has been performed. -/
def MemOp.performed (op : MemOp) (e : El) (old : Nat) (fl : Flags) : MemOp :=
  { op with
    todo := op.todo.filter (· != e)
    got := if op.kind = .atom then op.got ++ [(e.lane, 0, old)] else op.got
    pod := op.pod || e.podLine?.isSome
    fl := if op.kind = .atom then op.fl.upd (BitVec.ofNat 4 (2 ^ e.lane)) (fun l => op.fl.get l ||| fl.setWidth 32) else op.fl }

section
variable {s : State} {id : Nat} {op : MemOp} {e : El} {u off : Nat}

/-- The state with an element performed at a scratchpad: v is what it writes. -/
def State.scrUpdated (s : State) (id : Nat) (op : MemOp) (e : El) (u off : Nat) (v : Option Nat) : State :=
  match v with
  | some v => (s.scrWrite u off (toBytes op.size v)).hideBy s op.by_ e.lane id (.scr u off) (toBytes op.size v)
  | none => s

/-- The hash of a performed element of a RED. -/
def State.hashRed (s : State) (id : Nat) (op : MemOp) (e : El) : State := if op.kind = .red then s.hashEl id op e 2 (op.size + 16 * op.opc) e.data else s

theorem hashRed_bytesKept (w : State) : BytesKept w (w.hashRed id op e) :=
  iteInduction (motive := BytesKept w) (fun _ => hashEl_bytesKept w id op e _ _ _) (fun _ => .refl w)

theorem scrUpdated_mem (v : Option Nat) : (s.scrUpdated id op e u off v).mem = s.mem ∧ (s.scrUpdated id op e u off v).mops = s.mops := by
  cases v with
  | none => exact ⟨rfl, rfl⟩
  | some v =>
    have hk := hideBy_scr_bytesKept (s.scrWrite u off (toBytes op.size v)) s op.by_ e.lane id u off (toBytes op.size v)
    exact ⟨hk.mem, hk.mops⟩

theorem scrUpdated_scrRead {tm : Team} (v : Nat) (ht : s.team u = some tm) (hwf : tm.scratch.wf = true) :
    (s.scrUpdated id op e u off (some v)).scrRead u off op.size = toBytes op.size v := by
  rw [State.scrUpdated, (hideBy_scr_bytesKept _ s op.by_ e.lane id u off _).scrRead, scrRead_scrWrite_toBytes off op.size v ht hwf]

theorem atomicPerform_scr {p : Option Nat × Flags} (hop : mget s.mops id = some op) (hkind : op.kind = .atom ∨ op.kind = .red)
    (hnext : op.nextAtom = some (e, .scr u off)) (hwait : s.mustWait id op e = false) (hmode : s.rrmodeOf op.by_ = 0)
    (hp : p = (let c := (Config.contract? op.contract).getD default
      atomOp c op.opc op.ty (ofBytes (s.scrRead u off op.size)) e.data e.cmp (Contract.mode c op.rm) e.draw)) :
    let t := (s.scrUpdated id op e u off p.1).hashRed id op e
    let op' := op.performed e (ofBytes (s.scrRead u off op.size)) p.2
    s.atomicPerform id = if op'.todo.isEmpty = true ∧ op.kind = .red then { t with mops := mdel t.mops id } else t.modOp id (fun _ => op') := by
  intro t op'
  have hturn : s.turnWaits id op e = false := by simp [State.turnWaits, hmode]
  have hhist : (op.kind == .hist) = false := by rcases hkind with h | h <;> rw [h] <;> rfl
  have hkind' : op.kind = .atom ∨ op.kind = .red ∨ op.kind = .hist := hkind.elim .inl (fun h => .inr (.inl h))
  rw [State.atomicPerform]
  simp only [hop, if_pos hkind', hnext, hwait, hturn, Bool.or_self, Bool.false_eq_true, if_false, Place.podLine?]
  rw [State.atomPerform]
  simp only [hhist, Bool.false_eq_true, if_false, logAtomic_off hmode, or_false, ← hp, State.placeUpdate]
  rcases p with ⟨_ | v, f⟩ <;> rfl

/-- An atomic of a scratchpad: what its element leaves there, and the operation brought up to date. -/
theorem atomicPerform_scr_leaves {tm : Team} (hop : mget s.mops id = some op) (hkind : op.kind = .atom ∨ op.kind = .red)
    (hnext : op.nextAtom = some (e, .scr u off)) (hwait : s.mustWait id op e = false) (hmode : s.rrmodeOf op.by_ = 0)
    (ht : s.team u = some tm) (hwf : tm.scratch.wf = true) :
    let c := (Config.contract? op.contract).getD default
    let old := ofBytes (s.scrRead u off op.size)
    let res := atomOp c op.opc op.ty old e.data e.cmp (Contract.mode c op.rm) e.draw
    let t := s.atomicPerform id
    t.mem = s.mem ∧ (∀ v, res.1 = some v → t.scrRead u off op.size = toBytes op.size v) ∧ (res.1 = none → t.scrRead u off op.size = s.scrRead u off op.size) ∧
      (op.kind = .red → op.todo = [e] → mget t.mops id = none) ∧
      (op.kind = .atom → ∃ o, mget t.mops id = some o ∧ o.todo = op.todo.filter (· != e) ∧ o.got = op.got ++ [(e.lane, 0, old)]) := by
  intro c old res t
  let w := s.scrUpdated id op e u off res.1
  let op' := op.performed e old res.2
  have he : t = if op'.todo.isEmpty = true ∧ op.kind = .red then { w.hashRed id op e with mops := mdel (w.hashRed id op e).mops id } else (w.hashRed id op e).modOp id (fun _ => op') :=
    atomicPerform_scr hop hkind hnext hwait hmode rfl
  have hk : BytesKept w (w.hashRed id op e) := hashRed_bytesKept w
  obtain ⟨hm, ho⟩ := scrUpdated_mem (s := s) (id := id) (op := op) (e := e) (u := u) (off := off) res.1
  have hmem : t.mem = s.mem := by
    rw [he]
    refine iteInduction (motive := fun t : State => t.mem = s.mem) (fun _ => ?_) (fun _ => ?_) <;> exact hk.mem.trans hm
  have hread : t.scrRead u off op.size = w.scrRead u off op.size := by
    rw [he]
    refine iteInduction (motive := fun t : State => t.scrRead u off op.size = w.scrRead u off op.size) (fun _ => ?_) (fun _ => ?_) <;> exact hk.scrRead u off op.size
  refine ⟨hmem, fun v hv => ?_, fun hnone => ?_, fun hred htodo => ?_, fun hatom => ?_⟩
  · rw [hread]
    show (s.scrUpdated id op e u off res.1).scrRead u off op.size = _
    rw [hv, scrUpdated_scrRead v ht hwf]
  · rw [hread]
    show (s.scrUpdated id op e u off res.1).scrRead u off op.size = _
    rw [hnone]
    rfl
  · have hempty : op'.todo.isEmpty = true := by
      show (op.todo.filter (· != e)).isEmpty = true
      rw [htodo]
      simp
    rw [he, if_pos ⟨hempty, hred⟩]
    exact (mget_mdel _ _ _).trans (if_pos rfl)
  · have hne : ¬ (op'.todo.isEmpty = true ∧ op.kind = .red) := by
      rintro ⟨-, hr⟩
      rw [hatom] at hr
      cases hr
    refine ⟨op', ?_, rfl, if_pos hatom⟩
    rw [he, if_neg hne]
    show mget (mupd (w.hashRed id op e).mops id (fun _ => op')) id = _
    rw [mget_mupd, if_pos rfl, hk.mops, ho, hop]
    rfl

end

/-! ## Pool nodes -/

/-- The pool nodes perform the elements `go` of a load. -/
def State.podLoad (s : State) (id : Nat) (op : MemOp) (go : List El) : State :=
  if go.isEmpty then s
  else (s.readEls op go).2.modOp id (fun o => { o with todo := o.todo.filter (fun e => !go.contains e), got := o.got ++ (s.readEls op go).1, pod := true })

/-- The elements of an operation that are in turn at their pool node. -/
theorem podRequest_load {s : State} {id : Nat} {op : MemOp} (hop : mget s.mops id = some op) (hkind : op.kind = .ld ∨ op.kind = .ldk)
    (hwait : op.todo.any (s.mustWait id op) = false) (hwc : ∀ e ∈ op.todo, ∀ l, e.podLine? = some l → s.wcHolds op.by_ l = false) (inTurn : El → Bool)
    (hturn : ∀ e, inTurn e = match e.podLine? with | some l => s.podTurn id op l | none => false) :
    s.podRequest id = if op.todo.filter inTurn = [] then s
      else (s.readEls op (op.todo.filter inTurn)).2.modOp id (fun o => { o with
        todo := o.todo.filter (fun e => !(op.todo.filter inTurn).contains e), got := o.got ++ (s.readEls op (op.todo.filter inTurn)).1, pod := true }) := by
  have hgo : (op.todo.filter (fun e => e.podLine?.isSome)).filter (fun e => match e.podLine? with | some l => s.podTurn id op l | none => false) = op.todo.filter inTurn := by
    rw [List.filter_filter]
    refine List.filter_congr fun e _ => ?_
    rw [hturn]
    cases e.podLine? <;> simp
  have hheld : (op.todo.filter (fun e => e.podLine?.isSome)).any (fun e => match e.podLine? with | some l => s.wcHolds op.by_ l | none => false) = false := by
    rw [List.any_eq_false]
    intro e he
    cases hl : e.podLine? with
    | none => exact Bool.false_ne_true
    | some l =>
      show ¬ s.wcHolds op.by_ l = true
      rw [hwc e (List.mem_filter.mp he).1 l hl]
      exact Bool.false_ne_true
  have hact : s.podRequest id = s.podLoad id op (op.todo.filter inTurn) := by
    rw [State.podRequest]
    simp only [hop, if_pos hkind]
    by_cases hnone : (op.todo.filter (fun e => e.podLine?.isSome)).isEmpty = true
    · rw [if_pos (.inl hnone), ← hgo, List.isEmpty_iff.mp hnone]
      rfl
    · rw [if_neg (fun h => h.elim hnone (fun hw => by rw [hwait] at hw; cases hw))]
      exact (if_neg (fun h => Bool.false_ne_true (hheld.symm.trans h))).trans (congrArg (s.podLoad id op) hgo)
  rw [hact]
  exact ite_congr (propext List.isEmpty_iff) (fun _ => rfl) fun _ => rfl

theorem podResponse_answered {s : State} {id : Nat} {op : MemOp} (hop : mget s.mops id = some op) (hpod : op.pod = true) (htodo : ∀ e ∈ op.todo, e.podLine? = none) :
    s.podResponse id = s.modOp id (fun o => { o with answered := true }) := by
  have hno : op.todo.any (fun e => e.podLine?.isSome) = false := by
    rw [List.any_eq_false]
    intro e he
    rw [htodo e he]
    exact Bool.false_ne_true
  rw [State.podResponse]
  simp only [hop]
  rw [if_pos ⟨hpod, by rw [hno]; rfl⟩]

/-! ## The write-combining buffer -/

theorem core_modCore (s : State) (c : CoreId) (f : Core → Core) : (s.modCore c f).core c = f (s.core c) := by
  rw [State.core, State.modCore, mget_mset_self]
  rfl

/-- The same bytes written to the same memory. -/
theorem dieWrites_mem_congr {s t : State} (h : t.mem = s.mem) (die pa : Nat) (bs : List Byte) : (t.dieWrite die pa bs).mem = (s.dieWrite die pa bs).mem := by
  rw [dieWrite_mem, dieWrite_mem, h]

theorem lineWrites_mem_congr (die line : Nat) (data : BitVec 1024) : ∀ (is : List Nat) (s t : State), t.mem = s.mem →
    (t.lineWrites die line data is).mem = (s.lineWrites die line data is).mem
  | [], _, _, h => h
  | i :: is, s, t, h => lineWrites_mem_congr die line data is (s.dieWrite die (128 * line + i) (lineBytes data i 1)) (t.dieWrite die (128 * line + i) (lineBytes data i 1))
      (dieWrites_mem_congr h _ _ _)

theorem maskedWrite_mem_congr {s t : State} (h : t.mem = s.mem) (die line : Nat) (data : BitVec 1024) (mask : BitVec 128) :
    (t.maskedWrite die line data mask).mem = (s.maskedWrite die line data mask).mem := by
  rw [maskedWrite_eq, maskedWrite_eq]
  show (ite _ _ _ : State).mem = (ite _ _ _ : State).mem
  split
  · exact dieWrites_mem_congr h _ _ _
  · exact lineWrites_mem_congr _ _ _ _ s t h

/-- The first element that satisfies p is the first that satisfies more, where it does. -/
theorem find?_of_and {α : Type} {p r : α → Bool} {l : List α} {e : α} (h : l.find? p = some e) (hr : ∀ x, r x = true → p x = true) (he : r e = true) :
    l.find? r = some e := by
  rw [List.find?_eq_some_iff_append] at h ⊢
  obtain ⟨-, as, bs, hl, has⟩ := h
  refine ⟨he, as, bs, hl, fun x hx => ?_⟩
  have hp := has x hx
  rw [Bool.not_eq_true'] at hp ⊢
  exact Bool.eq_false_iff.mpr (fun hrx => Bool.false_ne_true (hp.symm.trans (hr x hrx)))

/-- The request cells of a drained entry leave memory and the cores. -/
theorem drainCells_kept (s : State) (c : CoreId) (e : WcEntry) : let t := match podNode (128 * e.line) with | some n => s.podPut c n e.data | none => s
    t.mem = s.mem ∧ t.cores = s.cores := by
  cases podNode (128 * e.line) <;> exact ⟨rfl, rfl⟩

/-- A drained entry whose turn it is at its pool node is performed: its bytes are written. -/
theorem wcPerform_first {c : CoreId} {id : Nat} {s : State} {e : WcEntry} (hturn : (s.core c).wcTurn e = true)
    (hfind : (s.core c).wc.find? (fun x => x.id == id && x.draining && !x.performed) = some e) :
    (s.wcPerform c id).mem = (s.maskedWrite c.die e.line e.data e.mask).mem ∧
      ((s.wcPerform c id).core c).wc = (s.core c).wc.map (fun e' => if e'.id == id then { e' with performed := true } else e') := by
  have hp := List.find?_some hfind
  have hfirst : (s.core c).wc.find? (fun e => e.id == id && e.draining && !e.performed && (s.core c).wcTurn e) = some e :=
    find?_of_and hfind (fun x hx => (Bool.and_eq_true_iff.mp hx).1) (Bool.and_eq_true_iff.mpr ⟨hp, hturn⟩)
  obtain ⟨hm, hc⟩ := drainCells_kept s c e
  rw [State.wcPerform]
  simp only [hfirst]
  refine ⟨maskedWrite_mem_congr hm c.die e.line e.data e.mask, ?_⟩
  refine (congrArg Core.wc (core_modCore (State.maskedWrite _ c.die e.line e.data e.mask) c
    (fun k => { k with wc := k.wc.map (fun e' => if e'.id == id then { e' with performed := true } else e') }))).trans ?_
  refine congrArg (fun k : Core => k.wc.map (fun e' => if e'.id == id then { e' with performed := true } else e')) ?_
  rw [State.core, maskedWrite_cores]
  exact congrArg (fun cs => (mget cs c.key).getD {}) hc

/-- A drained entry that is the first of its pool node and is not performed: its bytes are written and it frees. -/
theorem wcDrainAck_first {c : CoreId} {id : Nat} {s : State} {e : WcEntry} {es : List WcEntry}
    (hfirst : (s.core c).wc.filter (fun x => x.draining && !x.performed && podNode (128 * x.line) == podNode (128 * e.line)) = e :: es)
    (hfind : (s.core c).wc.find? (fun x => x.id == id && x.draining && !x.performed) = some e) (hup : s.lineUp c e.line = true) :
    (s.wcDrainAck c id).mem = (s.maskedWrite c.die e.line e.data e.mask).mem ∧ ((s.wcDrainAck c id).core c).wc = (s.core c).wc.filter (fun x => x.id != id) := by
  have hturn : (s.core c).wcTurn e = true := by
    rw [Core.wcTurn, ← List.head?_filter, hfirst]
    exact beq_self_eq_true _
  have hmem := List.mem_of_find?_eq_some hfind
  have hp := List.find?_some hfind
  simp only [Bool.and_eq_true] at hp
  obtain ⟨⟨hid, hdrain⟩, -⟩ := hp
  have hack : s.wcDrainAck c id = (s.wcPerform c id).modCore c (fun k => { k with wc := k.wc.filter (fun e => e.id != id) }) := by
    rw [State.wcDrainAck, if_pos (List.any_eq_true.mpr ⟨e, hmem, by rw [hid, hup]; rfl⟩), State.wcAck,
      if_pos (List.any_eq_true.mpr ⟨e, hmem, by rw [hid, hdrain, hturn, Bool.or_true]; rfl⟩)]
  obtain ⟨hbytes, hwc⟩ := wcPerform_first hturn hfind
  rw [hack]
  refine ⟨hbytes, ?_⟩
  rw [core_modCore]
  show ((s.wcPerform c id).core c).wc.filter _ = _
  rw [hwc, List.filter_map]
  have hsame : ∀ x : WcEntry, ((fun e : WcEntry => e.id != id) ∘ (fun e' => if e'.id == id then { e' with performed := true } else e')) x = (x.id != id) := by
    intro x
    rw [Function.comp_apply]
    split <;> rfl
  rw [List.filter_congr (fun x _ => hsame x)]
  refine (List.map_congr_left fun x hx => if_neg ?_).trans (List.map_id _)
  have hne := (List.mem_filter.mp hx).2
  rw [bne_iff_ne] at hne
  exact fun h => hne (beq_iff_eq.mp h)

/-- Settles O43, each event by what it comes to when it is due. -/
theorem memoryEventsPerformAccesses : Obligations.MemoryEventsPerformAccesses := by
  unfold Obligations.MemoryEventsPerformAccesses
  refine ⟨?reply, ?scratchReply, ?atomReply, ?store, ?atomic, ?podRequest, ?podResponse, ?drain, ?ack⟩
  case reply => exact fun id s op hop hkind hpod hwait hhome => ⟨_, rfl, loadReply_of_home hop hkind hpod hwait hhome⟩
  case scratchReply =>
    exact fun id s op e u off k hop hkind hby hpod hskip hgot htodo hplace hwait => ⟨_, rfl, loadReply_scr hop hkind hby hpod hskip hgot htodo hplace hwait⟩
  case atomReply =>
    exact fun id s op k v hop hkind hby htodo hpod hgot hskip horder => ⟨_, rfl, loadReply_atom hop hkind hby htodo hpod hgot hskip horder⟩
  case store =>
    exact fun id s op e u tm off hop hkind htodo hheld hflt hplace hwait ht hwf => ⟨_, rfl, storeTranslate_scr hop hkind htodo hheld hflt hplace hwait ht hwf⟩
  case atomic =>
    exact fun id s op e u tm off hop hkind hnext hwait hmode ht hwf => ⟨_, rfl, atomicPerform_scr_leaves hop hkind hnext hwait hmode ht hwf⟩
  case podRequest =>
    intro id s op hop hkind hwait hwc inTurn
    exact ⟨_, rfl, podRequest_load hop hkind hwait hwc inTurn (fun _ => rfl)⟩
  case podResponse => exact fun id s op hop hpod htodo => ⟨_, rfl, podResponse_answered hop hpod htodo⟩
  case drain => exact fun c s => ⟨_, rfl, rfl, by rw [State.wcAgeDrain, State.wcDrain, core_modCore]; rfl⟩
  case ack => exact fun c id s e es hfirst _ hfind hup => ⟨_, rfl, wcDrainAck_first hfirst hfind hup⟩

end Sys2Proof.Machine

/-!
PROOFS. The events of copy cells, tile transfers and self-tests (R306, R324, R325, R334, R347).
-/
namespace Sys2Proof.Machine

/-! ## Copy cells -/

/-- A cell of n bytes with the number 0, from the start of team 0's scratchpad. -/
def cellOf (n : Nat) : CopyCell := { id := 0, src := .scr 0 0, n := n }

/-- A copy with two cells of one number, which differ in their length. -/
def twinCopy : Copy := { kind := .acp16, by_ := .ctx 0, team := 0, core := { die := 0, quad := 0, core := 0 }, asid := 0, contract := 0, cells := [cellOf 1, cellOf 2] }

/-- The state with that copy and a team. -/
def twinState : State :=
  { teams := [(0, { task := 0, index := 0, core := { die := 0, quad := 0, core := 0 }, age := 0, lanes := 0, slices := [] })], copies := [(0, twinCopy)] }

/-- The lengths of what the cells of a copy hold. -/
def State.cellLengths (s : State) (k : Nat) : Option (List (Option Nat)) := (mget s.copies k).map (fun c => c.cells.map (fun x => x.data.map List.length))

/-- Refutes O44. COPY_CELL_READ gives every cell of the number the bytes of the cell found; the statement gives each of them bytes of its own
length, since `x` there is bound again. The two differ where a copy has two cells of one number, which the statement does not exclude. -/
theorem not_copyCellsMoveBytes : ¬ Obligations.CopyCellsMoveBytes := by
  unfold Obligations.CopyCellsMoveBytes
  rintro ⟨hread, -⟩
  obtain ⟨t, he, ht⟩ := hread 0 twinState 0 twinCopy (cellOf 1) 0 0 rfl rfl rfl rfl rfl rfl
  have hcode : t.cellLengths 0 = some [some 1, some 1] := by
    cases he
    rfl
  have hsaid : t.cellLengths 0 = some [some 1, some 2] := by
    rw [ht]
    rfl
  exact absurd (hcode.symm.trans hsaid) (by decide)

/-! ## Tile transfers -/

/-- A copy context with a CBLD of no segment in flight, while an invalidation waits for it. -/
def waitedFor : State := { ctxs := [(0, { flight := some (.xfer .cbld 0 0 0 []) })], invalCtxs := [0] }

/-- Refutes O45. A transfer that completes leaves the list of those that the invalidation in progress waits for (R125); the statement lets nothing
but the context and the memory change. -/
theorem not_transfersAndSelfTestsComplete : ¬ Obligations.TransfersAndSelfTestsComplete := by
  unfold Obligations.TransfersAndSelfTestsComplete
  rintro ⟨-, hcbld, -⟩
  obtain ⟨t, he, ht⟩ := hcbld { die := 0, quad := 0, core := 0 } false waitedFor 0 0 0 [] rfl rfl rfl
  have hcode : t.invalCtxs = [] := by
    cases he
    rfl
  have hsaid : t.invalCtxs = [0] := by
    rw [ht]
    rfl
  exact absurd (hcode.symm.trans hsaid) (by decide)

end Sys2Proof.Machine

/-!
PROOFS. The events that end a wait (R380, R383, R397, R408, R424, R447, R475, R488, R489).
-/
namespace Sys2Proof.Machine

/-! ## Traps -/

theorem entersTrap_takeTrapAt (s : State) (u j : Nat) (p : PTrap) (nest : Bool) :
    EntersTrap s p nest u j (s.takeTrapAt u j p (s.sl u j).pc (s.sl u j).pc nest false) := by
  intro tm x s1 ht hx hbase hcsa hd hw
  rw [sl_of_slice hx, takeTrapAt_done ht hx hbase hcsa hd hw]
  refine ⟨modSlice_kept _ _ u j _, x.intoTrap tm.vbase (x.depth + 1) p, ?_, rfl, rfl, rfl, rfl, rfl, rfl, rfl⟩
  rw [slice_modSlice, if_pos ⟨rfl, rfl⟩, frameResults_slice, (csaWrite_memStep hw).slice, hx]
  rfl

section
variable {s : State} {u j : Nat} {x : Slice} (hx : s.slice u j = some x)
include hx

/-- A barrier wait whose limit has come. -/
theorem barrierWatchdog_due {scope idx : Nat} (hat : x.wait.atBar = some (scope, idx)) (hlim : bits (s.ge 0x200C0) 31 0 ≠ 0)
    (hcyc : 1024 * bits (s.ge 0x200C0) 31 0 ≤ x.waitCyc) (hover : s.barOver u x = false) (haw : s.awaits (.slice u j) = false) :
    s.barrierWatchdog u j = (if x.barTok.isSome then (s.barWithdraw u j scope idx x.waitMask).modSlice u j (fun y => { y with barTok := none }) else s).takeTrap u j
      { kind := kBarx, cause := 7, amask := x.waitMask } := by
  rw [State.barrierWatchdog]
  simp only [hx, hat]
  refine if_neg ?_
  rintro (h | h | h | h)
  · exact hlim h
  · exact Nat.not_lt.mpr hcyc h
  · rw [hover] at h
    cases h
  · rw [haw] at h
    cases h

/-- A hitch wait whose limit has come and whose round has not closed. -/
theorem hitchWatchdog_due {obj round : Nat} (hat : x.wait = .hitch obj round) (hlim : bits (s.ge 0x200C8) 31 0 ≠ 0) (hround : round ≠ 0)
    (hcyc : 1024 * bits (s.ge 0x200C8) 31 0 ≤ x.waitCyc) (haw : s.awaits (.slice u j) = false)
    (hopen : ∀ h, mget s.hitches obj = some h → h.closing = true ∨ roundOver (h.round % 2 ^ 32) (round - 1) = false) :
    s.hitchWatchdog u j = s.takeTrap u j { kind := kHitchx, cause := 1, amask := x.waitMask } := by
  have hpassed : (match mget s.hitches obj with | some h => !h.closing && roundOver (h.round % 2 ^ 32) (round - 1) | none => false) = false := by
    cases hh : mget s.hitches obj with
    | none => rfl
    | some h =>
      rcases hopen h hh with hc | hr
      · show (!h.closing && _) = false
        rw [hc]
        rfl
      · show (!h.closing && _) = false
        rw [hr, Bool.and_false]
  rw [State.hitchWatchdog]
  simp only [hx, hat]
  refine if_neg ?_
  rintro (h | h | h | h | h)
  · exact Bool.false_ne_true (hpassed.symm.trans h)
  · exact hlim h
  · exact hround h
  · exact Nat.not_lt.mpr hcyc h
  · rw [haw] at h
    cases h

/-- A slice still in a handler 4,000 cycles after the request. -/
theorem haltNest_due {tm : Team} {c : Nat} (ht : s.team u = some tm) (hhalt : tm.halt = some c) (hdepth : x.depth ≠ 0) (hin : x.inHalt = false)
    (hparked : x.parked = false) (hcyc : c + 4000 ≤ s.cyc tm.core.die) (haw : s.awaitsHalt (.slice u j) = false) :
    s.haltNest u j = s.takeTrapAt u j { kind := kHalt, cause := 0 } (s.sl u j).pc (s.sl u j).pc true false := by
  rw [State.haltNest, sl_of_slice hx]
  simp only [hx, ht, hhalt]
  refine if_neg ?_
  rintro (h | h | h | h | h)
  · exact hdepth h
  · rw [hin] at h
    cases h
  · rw [hparked] at h
    cases h
  · exact Nat.not_lt.mpr hcyc h
  · rw [haw] at h
    cases h

/-- A slice that has waited at the gate for 2^24 cycles. -/
theorem gateTimeout_slice {tm : Team} {c : Nat} (ht : s.team u = some tm) (hg : x.gateSince = some c) (hcyc : c + 2 ^ 24 ≤ s.cyc tm.core.die) :
    LaneKept (fun _ _ _ => False) [.slice u j] s (s.gateTimeout (.gang u [j])) ∧ (s.gateTimeout (.gang u [j])).slice u j = some { x with gateOut := true } := by
  have he : s.gateTimeout (.gang u [j]) = s.modSlice u j (fun x => if (match x.gateSince with | some c => decide (c + 2 ^ 24 ≤ s.cyc tm.core.die) | none => false)
      then { x with gateOut := true } else x) := by
    rw [State.gateTimeout, ht]
    rfl
  rw [he]
  refine ⟨modSlice_kept _ s u j _, ?_⟩
  rw [slice_modSlice, if_pos ⟨rfl, rfl⟩, hx, Option.map_some]
  simp only [hg, hcyc, decide_true, if_true]

end

/-- A context that has waited at the gate for 2^24 cycles. -/
theorem gateTimeout_ctx {s : State} {m : Bool} {c : CoreId} {g : Nat} (hg : (s.ctx (ctxKey c m)).gateSince = some g) (hcyc : g + 2 ^ 24 ≤ s.cyc c.die)
    (hhalt : ∀ tm, s.team (s.teamOf (.ctx (ctxKey c m))) = some tm → tm.halt = none) :
    s.gateTimeout (.ctx m c) = s.modCtx (ctxKey c m) (fun x => { x with gateOut := true }) := by
  have hno : (match s.team (s.teamOf (.ctx (ctxKey c m))) with | some t => t.halt.isSome | none => false) = false := by
    cases ht : s.team (s.teamOf (.ctx (ctxKey c m))) with
    | none => rfl
    | some tm => exact congrArg Option.isSome (hhalt tm ht)
  rw [State.gateTimeout, State.modCtx, State.modCtx]
  refine congrArg (s.setCtx (ctxKey c m)) ?_
  simp only [hg, hcyc, decide_true, Bool.true_and]
  exact if_pos (congrArg not hno)

/-! ## Splices -/

theorem spliceStop_forming (s : State) (cause : Nat) (p : Splice) : (s.spliceStop cause p).forming = s.forming ∧ (s.spliceStop cause p).flying = s.flying := by
  have hw (t : State) (w : Option (Nat × Nat)) (f : AWord → AWord) : (t.awUpdate w f).forming = t.forming ∧ (t.awUpdate w f).flying = t.flying := by
    cases w with
    | none => exact ⟨rfl, rfl⟩
    | some p => exact iteInduction (motive := fun v : State => v.forming = t.forming ∧ v.flying = t.flying) (fun _ => ⟨rfl, rfl⟩) (fun _ => ⟨rfl, rfl⟩)
  have hfail (t : State) : (t.spliceFail p cause).forming = t.forming ∧ (t.spliceFail p cause).flying = t.flying := by
    have hstat : (if cause = endPoison then t else t.scrWrite p.team p.stat (statBytes p.seq 0 0 (if cause = endDrop then 2 else 1) cause 0)).forming = t.forming ∧
        (if cause = endPoison then t else t.scrWrite p.team p.stat (statBytes p.seq 0 0 (if cause = endDrop then 2 else 1) cause 0)).flying = t.flying :=
      iteInduction (motive := fun v : State => v.forming = t.forming ∧ v.flying = t.flying) (fun _ => ⟨rfl, rfl⟩) (fun _ => ⟨rfl, rfl⟩)
    rw [State.spliceFail]
    exact ⟨(hw _ _ _).1.trans ((hw _ _ _).1.trans hstat.1), (hw _ _ _).2.trans ((hw _ _ _).2.trans hstat.2)⟩
  exact iteInduction (motive := fun v : State => v.forming = s.forming ∧ v.flying = s.flying) (fun _ => ⟨rfl, rfl⟩)
    (fun _ => iteInduction (motive := fun v : State => v.forming = s.forming ∧ v.flying = s.flying) (fun _ => ⟨rfl, rfl⟩) (fun _ => hfail (s.dropSplice p)))

/-- What is formed and on its way after an abort. -/
theorem spliceAbort_forming (s : State) (comm seq cause : Nat) :
    (s.spliceAbort comm seq cause).forming = s.forming.filter (fun f => !(f.comm == comm && f.seq == seq)) ∧
      (s.spliceAbort comm seq cause).flying = s.flying.filter (fun m => !(m.comm == comm && m.seq == seq)) :=
  ⟨foldS_same State.forming _ _ (fun p _ t => (spliceStop_forming t cause p).1) _, foldS_same State.flying _ _ (fun p _ t => (spliceStop_forming t cause p).2) _⟩

theorem spliceTimeout_due {s : State} {l : SpliceLoc} {comm seq lo hi : Nat} {f : Forming}
    (hf : s.forming.find? (fun f => f.loc == l && f.comm == comm && f.seq == seq && f.lo == lo && f.hi == hi) = some f) (hlim : bits (s.ge 0x34200) 31 0 ≠ 0)
    (hcyc : f.since + 1024 * bits (s.ge 0x34200) 31 0 ≤ s.ioCyc) : s.spliceTimeout l comm seq lo hi = s.spliceAbort comm seq 5 := by
  rw [State.spliceTimeout]
  simp only [hf]
  exact if_neg (fun h => h.elim hlim (fun h => Nat.not_lt.mpr hcyc h))

/-! ## Pod barriers -/

/-- What a task that follows the slot hears of its new phase. -/
theorem podHears_follows {s : State} {phase : Word} {k : Task} {l : Level} {c : PodBind} (hl : mget k.levels (levelKey 6 0) = some l) (hseen : l.seen = some c)
    (hslot : (s.podSlot c.node c.slot 0).phase = phase) (hnew : c.phase ≠ phase) (hbound : ∀ b, l.bound = some b → b.phase ≠ phase) :
    ∃ l', s.podHears c.binding phase k = some l' ∧ l'.phase = l.phase + (phase - c.phase) ∧ l'.seen = some { c with phase := phase } ∧ l'.arrived = [] ∧ l'.bound = none := by
  rw [State.podHears, hl]
  simp only [Option.getD_some, hseen, hslot, ne_eq, hnew, not_false_eq_true, and_self, if_true]
  cases hb : l.bound with
  | none => exact ⟨_, rfl, rfl, rfl, rfl, hb⟩
  | some b =>
    refine ⟨_, congrArg some (if_neg (hbound b hb)), rfl, rfl, rfl, rfl⟩

theorem podBarrierComplete_task {s : State} {phase : Word} {n : Nat} {k : Task} {l : Level} {binding : Nat} (hk : s.task n = some k)
    (hl : s.podHears binding phase k = some l) :
    (s.podBarrierComplete binding phase).task n = some { k with levels := mset k.levels (levelKey 6 0) l } := by
  have htasks : (s.podBarrierComplete binding phase).tasks =
      s.tasks.map (fun p => (p.1, match s.podHears binding phase p.2 with | some l => { p.2 with levels := mset p.2.levels (levelKey 6 0) l } | none => p.2)) := by
    refine List.map_congr_left fun p _ => ?_
    cases s.podHears binding phase p.2 <;> rfl
  rw [State.task, htasks, mget_map]
  rw [show mget s.tasks n = some k from hk, Option.map_some]
  simp only [hl]

/-! ## Marks and exits -/

theorem laneRelease_memStep {s s1 : State} {u i n : Nat} {b : Bool} (h : s.laneRelease u i n = (b, s1)) : MemStep s s1 := by
  rw [State.laneRelease] at h
  simp only at h
  split at h
  · cases h
    exact .refl s
  · cases h
    exact (releaseL1_memStep s _ 5).trans (wcDrain_memStep _ _ _)

/-- The writes that a lane's release publishes. -/
def laneWrites (u lane n : Nat) (w : Unpub) : Bool := w.team == u && w.slice == lane / 4 && w.lane == lane % 4 && decide (w.op < n)

/-- A team with the mark of a lane. -/
def Team.withMark (lane : Nat) (e : Nat × Mask × Nat) (t : Team) : Team :=
  let b := laneSet (lane / 4) (BitVec.ofNat 4 (2 ^ (lane % 4)))
  { t with marking := dropLane t.marking e lane, marked := t.marked ||| b, counted := t.counted ||| b }

/-- A team with the exit of a lane counted. -/
def Team.withExit (lane : Nat) (e : Nat × Mask × Nat) (t : Team) : Team :=
  { t with exiting := dropLane t.exiting e lane, counted := t.counted ||| laneSet (lane / 4) (BitVec.ofNat 4 (2 ^ (lane % 4))) }

/-- A release of a lane that has completed: the team after the publication. -/
theorem team_published_modTeam {s s1 : State} {u : Nat} {tm : Team} (h : s.team u = some tm) (hs : MemStep s s1) (p : Unpub → Bool) (f : Team → Team) :
    ((s1.publish p).modTeam u f).team u = some (f (tm.publish p)) := by
  refine team_modTeam_self f ?_
  rw [team_publish, hs.team, h]
  rfl

theorem team_of_teams {s t : State} (h : t.teams = s.teams) (u : Nat) : t.team u = s.team u := by rw [State.team, State.team, h]

/-! ## Contributions -/

theorem unitEvent_some {s : State} {pa : Nat} {h : Hitch} (hh : mget s.hitches pa = some h) (e : UnitEvent) :
    s.unitEvent pa e = if h.closing then { s with hitches := mset s.hitches pa { h with backlog := h.backlog ++ [e] } } else s.actUnit pa { h with backlog := h.backlog ++ [e] } := by
  rw [State.unitEvent, hh]

theorem giveUnit_some {s : State} {pa m : Nat} {g : Given} {h : Hitch} (hh : mget s.hitches pa = some h) : s.giveUnit pa m g = s.unitEvent pa (.give m g) := by
  rw [State.giveUnit, if_pos (by rw [hh]; rfl)]

/-- Settles O46, each event by what it comes to when it is due. -/
theorem waitsEndByEvents : Obligations.WaitsEndByEvents := by
  unfold Obligations.WaitsEndByEvents
  refine ⟨?barrier, ?hitch, ?halt, ?gate, ?gateCtx, ?splice, ?pod, ?mark, ?exit, ?own, ?other⟩
  case barrier =>
    intro s u j x scope idx lim hx hat hlim hcyc hover haw s0
    refine ⟨_, rfl, ?_⟩
    rw [barrierWatchdog_due hx hat hlim hcyc hover haw]
    exact entersTrap_takeTrapAt s0 u j _ false
  case hitch =>
    intro s u j x obj round lim hx hat hlim hround hcyc haw hopen
    refine ⟨_, rfl, ?_⟩
    rw [hitchWatchdog_due hx hat hlim hround hcyc haw hopen]
    exact entersTrap_takeTrapAt s u j _ false
  case halt =>
    intro s u j x tm c ht hx hhalt hdepth hin hparked hcyc haw
    refine ⟨_, rfl, ?_⟩
    rw [haltNest_due hx ht hhalt hdepth hin hparked hcyc haw]
    exact entersTrap_takeTrapAt s u j _ true
  case gate => exact fun s u j x tm c ht hx hg hcyc => ⟨_, rfl, gateTimeout_slice hx ht hg hcyc⟩
  case gateCtx => exact fun s m c g hg hcyc hhalt => ⟨_, rfl, gateTimeout_ctx hg hcyc hhalt⟩
  case splice =>
    intro s l comm seq lo hi f lim hf hlim hcyc
    obtain ⟨hforming, hflying⟩ := spliceAbort_forming s comm seq 5
    refine ⟨_, rfl, spliceTimeout_due hf hlim hcyc, ?_, fun m hm => ?_⟩
    · rw [spliceTimeout_due hf hlim hcyc, hforming]
    · rw [spliceTimeout_due hf hlim hcyc, hflying] at hm
      obtain ⟨hmem, hother⟩ := List.mem_filter.mp hm
      refine ⟨fun hc hs => ?_, fun _ => hmem⟩
      rw [hc, hs, beq_self_eq_true, beq_self_eq_true] at hother
      cases hother
  case pod =>
    intro s phase n k l c hk hl hseen hslot hnew hbound
    obtain ⟨l', hhears, hphase, hseen', harrived, hbound'⟩ := podHears_follows hl hseen hslot hnew hbound
    exact ⟨_, rfl, rfl, _, l', podBarrierComplete_task hk hhears, rfl, mget_mset_self _ _ _, hphase, hseen', harrived, hbound'⟩
  case mark =>
    intro s u lane tm e s1 ht hrel hdone b
    refine ⟨_, rfl, ?_⟩
    rw [State.triggerMark]
    simp only [ht, hrel, hdone, Bool.not_true, Bool.false_eq_true, if_false]
    exact ⟨(tm.publish (laneWrites u lane e.2.2)).hid,
      (team_of_teams (earlyRelease_teams _ _) u).trans (team_published_modTeam ht (laneRelease_memStep hdone) (laneWrites u lane e.2.2) (Team.withMark lane e))⟩
  case exit =>
    intro s u lane tm e s1 ht hrel hdone b
    refine ⟨_, rfl, ?_⟩
    rw [State.exitComplete]
    simp only [ht, hrel, hdone, Bool.not_true, Bool.false_eq_true, if_false]
    exact ⟨(tm.publish (laneWrites u lane e.2.2)).hid,
      (team_of_teams (earlyRelease_teams _ _) u).trans (team_published_modTeam ht (laneRelease_memStep hdone) (laneWrites u lane e.2.2) (Team.withExit lane e))⟩
  case own =>
    intro s id x h hx hfault hh given h' s1
    refine ⟨_, rfl, ?_⟩
    rw [State.hitchContribution]
    simp only [hx, hfault, Bool.false_eq_true, if_false]
    exact (giveUnit_some (s := s1) hh).trans (unitEvent_some (s := s1) hh given)
  case other =>
    intro s pa m tag es h y hh hm hjoined given h'
    refine ⟨_, rfl, ?_⟩
    have hfar : s.farMember pa m = true := by
      rw [State.farMember, hh, Option.bind_some, hm]
      exact beq_iff_eq.mpr hjoined
    rw [State.hitchContribution]
    simp only [hfar, if_true]
    exact (giveUnit_some hh).trans (unitEvent_some hh given)

end Sys2Proof.Machine

/-!
PROOFS. Fields of numbers and registers (R10): what `bits`, `bitAt` and `setBits` read and leave.
-/
namespace Sys2Proof.Machine

theorem bitAt_eq (x i : Nat) : bitAt x i = x.testBit i := by
  rw [bitAt, Nat.testBit_eq_decide_div_mod_eq, Nat.shiftRight_eq_div_pow]
  rfl

theorem testBit_bits (x hi lo i : Nat) : (bits x hi lo).testBit i = (decide (i < hi + 1 - lo) && x.testBit (lo + i)) := by
  rw [bits, Nat.testBit_mod_two_pow, Nat.testBit_shiftRight]

/-- The bits of a number with a field replaced. -/
theorem testBit_setBits {hi lo : Nat} (h : lo ≤ hi) (x v i : Nat) :
    (setBits x hi lo v).testBit i = if i < lo then x.testBit i else if i ≤ hi then v.testBit (i - lo) else x.testBit i := by
  have hv : v % 2 ^ (hi + 1 - lo) < 2 ^ (hi + 1 - lo) := Nat.mod_lt _ (Nat.two_pow_pos _)
  have hlow : (v % 2 ^ (hi + 1 - lo)) <<< lo ||| x % 2 ^ lo < 2 ^ (hi + 1) := by
    refine Nat.or_lt_two_pow ?_ (Nat.lt_of_lt_of_le (Nat.mod_lt _ (Nat.two_pow_pos lo)) (Nat.pow_le_pow_right (by omega) (by omega)))
    rw [Nat.shiftLeft_eq]
    calc v % 2 ^ (hi + 1 - lo) * 2 ^ lo < 2 ^ (hi + 1 - lo) * 2 ^ lo := Nat.mul_lt_mul_of_pos_right hv (Nat.two_pow_pos lo)
      _ = 2 ^ (hi + 1) := by rw [← Nat.pow_add]; congr 1; omega
  have he : setBits x hi lo v = (x >>> (hi + 1)) <<< (hi + 1) ||| ((v % 2 ^ (hi + 1 - lo)) <<< lo ||| x % 2 ^ lo) := by
    rw [← Nat.shiftLeft_add_eq_or_of_lt hlow, ← Nat.shiftLeft_add_eq_or_of_lt (Nat.mod_lt x (Nat.two_pow_pos lo)), setBits, Nat.add_assoc]
  rw [he, Nat.testBit_or, Nat.testBit_or, Nat.testBit_shiftLeft, Nat.testBit_shiftLeft, Nat.testBit_shiftRight, Nat.testBit_mod_two_pow, Nat.testBit_mod_two_pow]
  by_cases h1 : i < lo
  · have h2 : ¬ hi + 1 ≤ i := by omega
    have h3 : ¬ lo ≤ i := by omega
    simp [h1, h2, h3]
  · by_cases h2 : i ≤ hi
    · have h3 : ¬ hi + 1 ≤ i := by omega
      have h4 : lo ≤ i := by omega
      have h5 : i - lo < hi + 1 - lo := by omega
      simp [h1, h2, h3, h4, h5]
    · have h3 : hi + 1 ≤ i := by omega
      have h5 : ¬ i - lo < hi + 1 - lo := by omega
      simp [h1, h2, h3, h5, show hi + 1 + (i - (hi + 1)) = i by omega]

/-- The field just written. -/
theorem bits_setBits {hi lo : Nat} (h : lo ≤ hi) (x v : Nat) : bits (setBits x hi lo v) hi lo = v % 2 ^ (hi + 1 - lo) := by
  refine Nat.eq_of_testBit_eq fun i => ?_
  rw [testBit_bits, Nat.testBit_mod_two_pow, testBit_setBits h]
  by_cases hi' : i < hi + 1 - lo
  · rw [if_neg (by omega), if_pos (by omega), Nat.add_sub_cancel_left]
  · simp [hi']

/-- A field beside the one written. -/
theorem bits_setBits_other {hi lo hi' lo' : Nat} (h : lo ≤ hi) (hd : hi' < lo ∨ hi < lo') (x v : Nat) : bits (setBits x hi lo v) hi' lo' = bits x hi' lo' := by
  refine Nat.eq_of_testBit_eq fun i => ?_
  rw [testBit_bits, testBit_bits, testBit_setBits h]
  by_cases hi' : i < hi' + 1 - lo'
  · rcases hd with hd | hd
    · rw [if_pos (by omega)]
    · rw [if_neg (by omega), if_neg (by omega)]
  · simp [hi']

theorem bitAt_setBits {hi lo : Nat} (h : lo ≤ hi) (x v i : Nat) :
    bitAt (setBits x hi lo v) i = if i < lo then bitAt x i else if i ≤ hi then bitAt v (i - lo) else bitAt x i := by
  rw [bitAt_eq, bitAt_eq, bitAt_eq, testBit_setBits h]

/-- A number of 64 bits with one of its fields replaced is one of 64 bits. -/
theorem setBits_lt {hi lo x v : Nat} (h : lo ≤ hi) (hhi : hi < 64) (hx : x < 2 ^ 64) : setBits x hi lo v < 2 ^ 64 := by
  refine Nat.lt_pow_two_of_testBit _ fun i hi' => ?_
  rw [testBit_setBits h, if_neg (by omega), if_neg (by omega)]
  exact Nat.testBit_lt_two_pow (Nat.lt_of_lt_of_le hx (Nat.pow_le_pow_right (by omega) hi'))

theorem ge_lt (s : State) (off : Nat) : s.ge off < 2 ^ 64 := (s.reg (geBase + off)).isLt

/-- A register with one of its fields written. -/
theorem ge_setGe_setBits {s : State} {off hi lo v : Nat} (h : lo ≤ hi) (hhi : hi < 64) : (s.setGe off (setBits (s.ge off) hi lo v)).ge off = setBits (s.ge off) hi lo v := by
  rw [ge_setGe, if_pos rfl, Nat.mod_eq_of_lt (setBits_lt h hhi (ge_lt s off))]

end Sys2Proof.Machine

/-!
PROOFS. Cells, links, flows and splice messages (R386 to R390, R395 to R402).
-/
namespace Sys2Proof.Machine

theorem awake_started {s t : State} (h : s.mgmt.started = true) : s.awake t = t := if_pos h

theorem awake_stopped {s t : State} (h : s.mgmt.started = false) : s.awake t = s := if_neg (by rw [h]; exact Bool.false_ne_true)

theorem awake_same (s : State) : s.awake s = s := ite_self s

/-! ## Sending -/

/-- The state of a flow but for the count of what it has sent. -/
def Flow.still (f : Flow) : Bool × Nat × Nat := (f.closed, f.last, f.rekeys)

/-- Memory, the teams and the registers are the same, and every flow but for the count of what it has sent. -/
structure FlowsKept (s t : State) : Prop where
  mem : t.mem = s.mem
  teams : t.teams = s.teams
  regs : t.regs = s.regs
  flow : ∀ k, (t.flow k).still = (s.flow k).still

theorem FlowsKept.refl (s : State) : FlowsKept s s := ⟨rfl, rfl, rfl, fun _ => rfl⟩

theorem FlowsKept.trans {s t w : State} (h : FlowsKept s t) (g : FlowsKept t w) : FlowsKept s w :=
  ⟨g.mem.trans h.mem, g.teams.trans h.teams, g.regs.trans h.regs, fun k => (g.flow k).trans (h.flow k)⟩

theorem flow_mset (s : State) (w : Nat) (f : Flow) (k : Nat) : ({ s with flows := mset s.flows w f } : State).flow k = if w = k then f else s.flow k := by
  rw [State.flow, State.flow, mget_mset]
  split <;> rfl

theorem sendCell_flowsKept (s : State) (link cls k : Nat) (last : Bool) (p : BitVec 1024) : FlowsKept s (s.sendCell link cls k last p) where
  mem := rfl
  teams := rfl
  regs := rfl
  flow j := by
    have hf : (s.sendCell link cls k last p).flow j = if wireKey k = j then { s.flow (wireKey k) with sent := (s.flow (wireKey k)).sent + 1 } else s.flow j :=
      flow_mset s (wireKey k) _ j
    rw [hf]
    split
    · next h =>
      rw [← h]
      rfl
    · rfl

theorem sendCells_flowsKept (link cls k : Nat) : ∀ (ps : List (BitVec 1024)) (s : State), FlowsKept s (s.sendCells link cls k ps)
  | [], s => .refl s
  | [p], s => sendCell_flowsKept s link cls k true p
  | p :: q :: ps, s => (sendCell_flowsKept s link cls k false p).trans (sendCells_flowsKept link cls k (q :: ps) _)

theorem send_flowsKept (s : State) (m : Sending) : FlowsKept s (s.send m) := by
  have hsent : FlowsKept s (((s.sendCells m.link m.cls m.flow m.body).podTold m.pod).spliceTold m.splice) := by
    refine (sendCells_flowsKept m.link m.cls m.flow m.body s).trans ?_
    cases m.pod <;> exact ⟨rfl, rfl, rfl, fun _ => rfl⟩
  exact iteInduction (motive := FlowsKept s) (fun _ => hsent) (fun _ => ⟨rfl, rfl, rfl, fun _ => rfl⟩)

theorem flushSends_flowsKept (s : State) : FlowsKept s s.flushSends := by
  have key : ∀ (ms : List Sending) (t : State), FlowsKept t (ms.foldl (fun s m => s.send m) t) := by
    intro ms
    induction ms with
    | nil => exact .refl
    | cons m ms ih => exact fun t => (send_flowsKept t m).trans (ih _)
  exact FlowsKept.trans (t := { s with toSend := [] }) ⟨rfl, rfl, rfl, fun _ => rfl⟩ (key s.toSend _)

theorem FlowsKept.ge {s t : State} (h : FlowsKept s t) (off : Nat) : t.ge off = s.ge off := by rw [State.ge, State.ge, State.reg, State.reg, h.regs]

/-- A message of one cell sets out. -/
theorem send_oneCell {s : State} {m : Sending} {p : BitVec 1024} (h : s.canSend m = true) (hwait : s.toSend = []) (hbody : m.body = [p]) (hpod : m.pod = none) :
    s.send m = (s.sendCell m.link m.cls m.flow true p).spliceTold m.splice := by
  rw [State.send, h, hwait, hbody, hpod]
  rfl

/-! ## Slots of a link -/

theorem filterMap_flow (link : Nat) (l : List (Nat × Cell)) :
    l.filterMap (fun x => if x.1 = link then some (Cell.flow x.2) else none) = (l.filter (fun x => x.1 == link)).map (fun x => Cell.flow x.2) := by
  induction l with
  | nil => rfl
  | cons x l ih =>
    by_cases hx : x.1 = link
    · simp [hx, ih]
    · simp [hx, ih]

/-- A data slot of a link that is up carries the first ready cell, where it serves its flow. -/
theorem slot_carries {s : State} {link : Nat} {c : Cell} {rest : List (Nat × Cell)} {f : Frame} (hready : s.ready = (link, c) :: rest)
    (hf : mget s.frames link = some f) (h0 : f.slot ≠ 0) (h64 : f.slot < 64) (hup : s.nodeUp link = true)
    (hserves : f.serves (s.ready.filterMap (fun x => if x.1 = link then some (Cell.flow x.2) else none)) = some (Cell.flow c)) :
    (s.slot link).ready = rest ∧ (s.slot link).sent = s.sent ++ [(link, c)] ∧
      mget (s.slot link).frames link = some { f with slot := f.slot + 1, last := Cell.flow c } := by
  rw [filterMap_flow] at hserves
  have hmine : (s.ready.filter (fun x => x.1 == link)).find? (fun x => Cell.flow x.2 == Cell.flow c) = some (link, c) := by
    simp [hready]
  have hslot : ¬ (f.slot = 64 ∨ (!s.nodeUp link) = true) := by
    rintro (h | h)
    · omega
    · rw [hup] at h
      cases h
  have he : s.slot link = { s with frames := mset s.frames link { f with slot := (f.slot + 1) % 65, last := Cell.flow c }, ready := s.ready.erase (link, c), sent := s.sent ++ [(link, c)] } := by
    rw [State.slot]
    simp only [hf, Option.getD_some, if_neg h0, if_neg hslot, hserves, Option.bind_some, hmine]
  rw [he]
  refine ⟨by rw [hready, List.erase_cons_head], rfl, ?_⟩
  have hnext : (f.slot + 1) % 65 = f.slot + 1 := Nat.mod_eq_of_lt (by omega)
  show mget (mset s.frames link _) link = _
  rw [mget_mset_self, hnext]

theorem serves_reserved {f : Frame} {flows : List Nat} {n k : Nat} (ht : f.table[f.slot]? = some (some n)) (hk : k ∈ flows) (hn : k % 2 ^ 20 = n) :
    ∃ k', f.serves flows = some k' ∧ k' % 2 ^ 20 = n := by
  obtain ⟨k', hfind⟩ := Option.isSome_iff_exists.mp (List.find?_isSome (p := fun k => k % 2 ^ 20 == n).mpr ⟨k, hk, beq_iff_eq.mpr hn⟩)
  have hk' := List.find?_some hfind
  refine ⟨k', ?_, beq_iff_eq.mp hk'⟩
  rw [Frame.serves, ht, Option.getD_some, Option.bind_some, hfind]

/-! ## Aborts -/

/-- From s to t splices have only ended, and flows, registers, signals and what has come in are the same. -/
structure SplicesEnd (s t : State) : Prop where
  splices : ∀ p ∈ t.splices, p.ended = false → p ∈ s.splices
  flows : t.flows = s.flows
  regs : t.regs = s.regs
  rx : t.rx = s.rx
  signals : t.signals = s.signals

theorem SplicesEnd.refl (s : State) : SplicesEnd s s := ⟨fun _ h _ => h, rfl, rfl, rfl, rfl⟩

theorem SplicesEnd.trans {s t w : State} (h : SplicesEnd s t) (g : SplicesEnd t w) : SplicesEnd s w :=
  ⟨fun p hp he => h.splices p (g.splices p hp he) he, g.flows.trans h.flows, g.regs.trans h.regs, g.rx.trans h.rx, g.signals.trans h.signals⟩

theorem SplicesEnd.foldS {α : Type} (f : α → State → State) (h : ∀ a s, SplicesEnd s (f a s)) : ∀ (as : List α) (s : State), SplicesEnd s (Machine.foldS f as s)
  | [], s => .refl s
  | a :: as, s => (h a s).trans (SplicesEnd.foldS f h as (f a s))

/-- Only the teams have changed. -/
def TeamsOnly (s t : State) : Prop := t = { s with teams := t.teams }

theorem TeamsOnly.trans {s t w : State} (h : TeamsOnly s t) (g : TeamsOnly t w) : TeamsOnly s w := Eq.trans g (congrArg (fun v : State => { v with teams := w.teams }) h)

theorem awUpdate_teamsOnly (s : State) (w : Option (Nat × Nat)) (f : AWord → AWord) : TeamsOnly s (s.awUpdate w f) := by
  cases w with
  | none => rfl
  | some p => exact iteInduction (motive := TeamsOnly s) (fun _ => rfl) (fun _ => rfl)

theorem spliceFail_teamsOnly (s : State) (p : Splice) (cause : Nat) : TeamsOnly s (s.spliceFail p cause) := by
  have hstat : TeamsOnly s (if cause = endPoison then s else s.scrWrite p.team p.stat (statBytes p.seq 0 0 (if cause = endDrop then 2 else 1) cause 0)) :=
    iteInduction (motive := TeamsOnly s) (fun _ => rfl) (fun _ => rfl)
  rw [State.spliceFail]
  exact (hstat.trans (awUpdate_teamsOnly _ _ _)).trans (awUpdate_teamsOnly _ _ _)

theorem TeamsOnly.splicesEnd {s t : State} (h : TeamsOnly s t) : SplicesEnd s t := by
  rw [show t = { s with teams := t.teams } from h]
  exact ⟨fun _ hp _ => hp, rfl, rfl, rfl, rfl⟩

/-- A splice with the notice of its end has ended. -/
theorem ended_notice (x : Splice) (cause : Nat) : ({ x with words := [x.notice cause] } : Splice).ended = true := rfl

/-- A splice that is stopped has ended or is gone. -/
theorem spliceStop_end (s : State) (cause : Nat) (p : Splice) :
    SplicesEnd s (s.spliceStop cause p) ∧ ∀ q ∈ (s.spliceStop cause p).splices, q.ended = false → q ≠ p := by
  rw [State.spliceStop]
  split
  · next he =>
    refine ⟨.refl s, fun q _ hq hqp => ?_⟩
    rw [hqp, he] at hq
    cases hq
  · split
    · have hmem : ∀ q ∈ s.splices.map (fun x => if x == p then { x with words := [x.notice cause] } else x), q.ended = false → q ∈ s.splices ∧ q ≠ p := by
        intro q hq he
        obtain ⟨x, hx, rfl⟩ := List.mem_map.mp hq
        by_cases hxp : x = p
        · rw [if_pos (beq_iff_eq.mpr hxp), ended_notice] at he
          cases he
        · rw [if_neg (by rw [beq_iff_eq]; exact hxp)]
          exact ⟨hx, hxp⟩
      exact ⟨⟨fun q hq he => (hmem q hq he).1, rfl, rfl, rfl, rfl⟩, fun q hq he => (hmem q hq he).2⟩
    · have hdrop : SplicesEnd s (s.dropSplice p) := ⟨fun q hq _ => (List.mem_filter.mp hq).1, rfl, rfl, rfl, rfl⟩
      have hfail := (spliceFail_teamsOnly (s.dropSplice p) p cause).splicesEnd
      refine ⟨hdrop.trans hfail, fun q hq he => ?_⟩
      exact bne_iff_ne.mp (List.mem_filter.mp (hfail.splices q hq he)).2

/-- Of steps that each end the splices that they say, all have ended. -/
theorem ended_of_foldS {α : Type} (f : α → State → State) (bad : α → Splice → Prop)
    (h : ∀ a s, SplicesEnd s (f a s) ∧ ∀ q ∈ (f a s).splices, q.ended = false → ¬ bad a q) : ∀ (as : List α) (s : State),
    ∀ q ∈ (Machine.foldS f as s).splices, q.ended = false → ∀ a ∈ as, ¬ bad a q
  | [], _, _, _, _, _, ha => absurd ha List.not_mem_nil
  | a :: as, s, q, hq, he, b, hb => by
    rw [foldS_cons] at hq
    rcases List.mem_cons.mp hb with rfl | hb
    · exact (h b s).2 q ((SplicesEnd.foldS f (fun a s => (h a s).1) as (f b s)).splices q hq he) he
    · exact ended_of_foldS f bad h as (f a s) q hq he b hb

/-- After an abort no splice of it waits here. -/
theorem spliceAbort_end (s : State) (comm seq cause : Nat) :
    SplicesEnd s (s.spliceAbort comm seq cause) ∧ ∀ q ∈ (s.spliceAbort comm seq cause).splices, q.ended = false → (q.comm, q.seq) ≠ (comm, seq) := by
  let s1 : State := { s with forming := s.forming.filter (fun f => !(f.comm == comm && f.seq == seq)),
                             flying := s.flying.filter (fun m => !(m.comm == comm && m.seq == seq)), outbox := s.outbox ++ [.abort comm seq cause] }
  have h1 : SplicesEnd s s1 := ⟨fun _ hp _ => hp, rfl, rfl, rfl, rfl⟩
  have hall : SplicesEnd s (s.spliceAbort comm seq cause) := h1.trans (.foldS _ (fun p t => (spliceStop_end t cause p).1) _ s1)
  refine ⟨hall, fun q hq he hqs => ?_⟩
  refine ended_of_foldS (fun p t => t.spliceStop cause p) (fun p q => q = p) (fun p t => spliceStop_end t cause p) _ s1 q hq he q ?_ rfl
  obtain ⟨hc, hs⟩ := Prod.mk.inj hqs
  exact List.mem_filter.mpr ⟨hall.splices q hq he, by rw [hc, hs]; simp⟩

/-- Splices that use a flow that has closed. -/
theorem closeFlow_end (s : State) (link cls k : Nat) : let t := s.closeFlow link cls k
    (t.flow k).closed = true ∧ (t.flow k).last = (s.flow k).last ∧ t.rx = s.rx ∧ t.signals = s.signals ++ [k] ∧ t.regs = s.regs ∧
      ∀ p ∈ t.splices, p.ended = false → p ∈ s.splices ∧ ¬ (bits (t.comm p.slot 8) 31 16 = k / 2 ^ 20 ∧ ∃ e ∈ p.route, t.spliceClosed p.slot (entryNode e) = true) := by
  intro t
  let s1 : State := { s with flows := mset s.flows k { s.flow k with closed := true, part := [], link := link, cls := cls }, signals := s.signals ++ [k] }
  let hit := (s1.splices.filter (fun p => bits (s1.comm p.slot 8) 31 16 == k / 2 ^ 20 && p.route.any (fun e => s1.spliceClosed p.slot (entryNode e)))).map (fun p => (p.comm, p.seq))
  have hstep (x : Nat × Nat) (v : State) := spliceAbort_end v x.1 x.2 3
  have hend : SplicesEnd s1 t := .foldS _ (fun x v => (hstep x v).1) hit.eraseDups s1
  have hflow : t.flow k = { s.flow k with closed := true, part := [], link := link, cls := cls } := by
    rw [State.flow, hend.flows]
    exact (flow_mset s k _ k).trans (if_pos rfl)
  refine ⟨by rw [hflow], by rw [hflow], hend.rx, hend.signals, hend.regs, fun p hp he => ⟨hend.splices p hp he, fun hbad => ?_⟩⟩
  refine ended_of_foldS (fun (x : Nat × Nat) v => v.spliceAbort x.1 x.2 3) (fun x q => (q.comm, q.seq) = x) (fun x v => hstep x v) hit.eraseDups s1 p hp he (p.comm, p.seq) ?_ rfl
  rw [List.mem_eraseDups]
  refine List.mem_map.mpr ⟨p, List.mem_filter.mpr ⟨hend.splices p hp he, ?_⟩, rfl⟩
  obtain ⟨hdomain, e, hmem, hclosed⟩ := hbad
  have hcomm (slot off : Nat) : t.comm slot off = s1.comm slot off := by rw [State.comm, State.comm, State.ge, State.ge, State.reg, State.reg, hend.regs]
  have hsc (slot l : Nat) : t.spliceClosed slot l = s1.spliceClosed slot l := by
    rw [State.spliceClosed, State.spliceClosed, State.flowClosed, State.flowClosed, State.spliceKey, State.spliceKey, hcomm, hend.flows]
  rw [Bool.and_eq_true, beq_iff_eq, List.any_eq_true, ← hcomm]
  exact ⟨hdomain, e, hmem, by rw [← hsc]; exact hclosed⟩

/-! ## Cells that come in -/

section
variable {s : State} {link : Nat} {c : Cell} (hcrc : c.crcOk = true) (hup : s.nodeUp link = true)
include hcrc hup

theorem cellReceive_open (hopen : (s.flow (flowKey (bits c.tag.toNat 59 44) (bits c.tag.toNat 43 24))).closed = false) :
    let t := c.tag.toNat
    let cls := bits t 63 61
    let k := flowKey (bits t 59 44) (bits t 43 24)
    let f := s.flow k
    let cnt := nextCount f.last (bits t 23 0)
    s.cellReceive link c = if 2 ^ 56 ≤ cnt ∨ gtag k f.rekeys cnt (c.tag.setWidth 64) c.payload ≠ (c.tag >>> 64).setWidth 64 then
        (if cls = 3 then s.discard (s.portOf (launchEp k)) else s).closeFlow link cls k
      else
        let ps := f.part ++ [opened cls k f.rekeys cnt c.payload]
        let s1 : State := { s with flows := mset s.flows k { f with last := cnt, part := if bitAt t 60 then [] else ps } }
        if bitAt t 60 then s1.received link cls k ps else s1 := by
  intro t cls k f cnt
  have hgo : ¬ ((!c.crcOk) = true ∨ (!s.nodeUp link) = true) := by
    rw [hcrc, hup]
    exact fun h => h.elim Bool.false_ne_true Bool.false_ne_true
  rw [State.cellReceive, if_neg hgo]
  exact if_neg (by rw [hopen]; exact Bool.false_ne_true)

end

theorem discard_flows (s : State) (port : Option Nat) : s.discard port = { s with regs := (s.discard port).regs } := rfl

/-- A cell that is not taken. -/
theorem cellReceive_ignored {s : State} {link : Nat} {c : Cell}
    (h : c.crcOk = false ∨ s.nodeUp link = false ∨ (s.flow (flowKey (bits c.tag.toNat 59 44) (bits c.tag.toNat 43 24))).closed = true) : s.cellReceive link c = s := by
  rw [State.cellReceive]
  by_cases hgo : (!c.crcOk) = true ∨ (!s.nodeUp link) = true
  · exact if_pos hgo
  · refine (if_neg hgo).trans (if_pos ?_)
    rcases h with h | h | h
    · exact absurd (Or.inl (by rw [h]; rfl)) hgo
    · exact absurd (Or.inr (by rw [h]; rfl)) hgo
    · exact h

/-! ## Links and re-keys -/

theorem nodeUp_setGe (s : State) (l : Nat) (b : Bool) : (s.setGe (0x34000 + 8 * l) (setBits (s.ge (0x34000 + 8 * l)) 3 3 (bit01 b))).nodeUp l = b := by
  rw [State.nodeUp, ge_setGe_setBits (by omega) (by omega), bitAt_setBits (by omega), if_neg (by omega), if_pos (by omega)]
  cases b <;> rfl

theorem linkUp_up {s : State} {l : Nat} (hl : l < 36) : (s.linkUp l).nodeUp l = true ∧ (s.linkUp l).mem = s.mem ∧ (s.linkUp l).teams = s.teams := by
  have hk := flushSends_flowsKept (s.setGe (0x34000 + 8 * l) (setBits (s.ge (0x34000 + 8 * l)) 3 3 1))
  rw [State.linkUp, if_pos hl]
  refine ⟨?_, hk.mem, hk.teams⟩
  rw [State.nodeUp, hk.ge]
  exact nodeUp_setGe s l true

theorem linkDown_idle {s : State} {l : Nat} (hl : l < 36) (hup : s.nodeUp l = true) (hflying : s.flying = []) (hforming : s.forming = []) (hsplices : s.splices = []) :
    (s.linkDown l).nodeUp l = false ∧ (s.linkDown l).mgmt.reports = s.mgmt.reports ++ [.linkFailure l s.ioCyc] ∧ (s.linkDown l).mem = s.mem := by
  have he : s.linkDown l = (s.setGe (0x34000 + 8 * l) (setBits (s.ge (0x34000 + 8 * l)) 3 3 0)).tell (.linkFailure l s.ioCyc) := by
    have hf : ((s.setGe (0x34000 + 8 * l) (setBits (s.ge (0x34000 + 8 * l)) 3 3 0)).tell (.linkFailure l s.ioCyc)).flying = [] := hflying
    have hg : ((s.setGe (0x34000 + 8 * l) (setBits (s.ge (0x34000 + 8 * l)) 3 3 0)).tell (.linkFailure l s.ioCyc)).forming = [] := hforming
    have hs : ((s.setGe (0x34000 + 8 * l) (setBits (s.ge (0x34000 + 8 * l)) 3 3 0)).tell (.linkFailure l s.ioCyc)).splices = [] := hsplices
    rw [State.linkDown, if_pos ⟨hl, hup⟩]
    simp only [hf, hg, hs]
    rfl
  rw [he]
  exact ⟨nodeUp_setGe s l false, rfl, rfl⟩

theorem flowRekey_closed {s : State} {domain flow : Nat} (h : (s.flow (flowKey domain flow)).closed = true) :
    let t := s.flowRekey domain flow
    let k := flowKey domain flow
    (t.flow k).closed = false ∧ (t.flow k).last = (s.flow k).last ∧ (t.flow k).rekeys = (s.flow k).rekeys + 1 := by
  intro t k
  let s1 : State := { s with flows := mset s.flows k { s.flow k with closed := false, rekeys := (s.flow k).rekeys + 1 } }
  have ht : t = s1.flushSends := if_pos h
  have hf : s1.flow k = { s.flow k with closed := false, rekeys := (s.flow k).rekeys + 1 } := (flow_mset s k _ k).trans (if_pos rfl)
  have hstill := (flushSends_flowsKept s1).flow k
  rw [← ht, hf] at hstill
  obtain ⟨hc, hl, hr⟩ := And.intro (congrArg Prod.fst hstill) (Prod.mk.inj (congrArg Prod.snd hstill))
  exact ⟨hc, hl, hr⟩

/-- Settles O47, each event by what it comes to; a closed flow by `closeFlow_end`. -/
theorem cellsLinksSplicesAdvance : Obligations.CellsLinksSplicesAdvance := by
  unfold Obligations.CellsLinksSplicesAdvance
  refine ⟨?send, ?slot, ?serves, ?cell, ?ignored, ?up, ?down, ?rekey, ?arrive, ?done, ?held, ?stopped⟩
  case send =>
    intro s m p h hwait hbody hpod k f t body clear
    have ht : t = (s.sendCell m.link m.cls m.flow true p).spliceTold m.splice := send_oneCell h hwait hbody hpod
    rw [ht]
    refine ⟨hwait, ?_, rfl⟩
    have hf : ((s.sendCell m.link m.cls m.flow true p).spliceTold m.splice).flow k = { f with sent := f.sent + 1 } := (flow_mset s k _ k).trans (if_pos rfl)
    rw [hf]
  case slot => exact fun s link c rest f hready hf h0 h64 hup hserves => slot_carries hready hf h0 h64 hup hserves
  case serves => exact fun f flows n k ht hk hn => serves_reserved ht hk hn
  case cell =>
    intro s link c hcrc hup t cls k f cnt hstarted hopen
    have he := cellReceive_open hcrc hup hopen
    refine ⟨?good, fun hbad => ?bad⟩
    case good =>
      intro hcnt htag ps
      have he' := he.trans (if_neg (fun h => h.elim (Nat.not_le.mpr hcnt) (fun hne => hne htag)))
      refine ⟨fun hlast => ⟨_, rfl, ?_⟩, fun hlast h2 h3 => ⟨_, rfl, ?_⟩, fun hlast h3 => ⟨_, rfl, ?_⟩⟩
      · have hlast' : ¬ bitAt c.tag.toNat 60 = true := by rw [hlast]; exact Bool.false_ne_true
        rw [awake_started hstarted, he']
        simp only [if_neg hlast']
        rfl
      · have hlast' : bitAt c.tag.toNat 60 = true := hlast
        rw [awake_started hstarted, he']
        simp only [if_pos hlast']
        rw [State.received]
        exact (if_neg h3).trans (if_neg h2)
      · have hlast' : bitAt c.tag.toNat 60 = true := hlast
        rw [awake_started hstarted, he']
        simp only [if_pos hlast']
        rw [State.received]
        exact if_pos h3
    case bad =>
      have he' := he.trans (if_pos hbad)
      refine ⟨_, rfl, ?_⟩
      rw [awake_started hstarted, he']
      by_cases h3 : bits c.tag.toNat 63 61 = 3
      · rw [if_pos h3]
        exact closeFlow_end (s.discard (s.portOf (launchEp k))) link cls k
      · rw [if_neg h3]
        exact closeFlow_end s link cls k
  case ignored =>
    intro s link c h
    refine ⟨_, rfl, ?_⟩
    rw [cellReceive_ignored h, awake_same]
  case up =>
    intro s l hl hstarted
    refine ⟨_, rfl, ?_⟩
    rw [awake_started hstarted]
    exact linkUp_up hl
  case down =>
    intro s l hl hstarted hup hflying hforming hsplices
    refine ⟨_, rfl, ?_⟩
    rw [awake_started hstarted]
    exact linkDown_idle hl hup hflying hforming hsplices
  case rekey =>
    intro s domain flow k hstarted hclosed
    refine ⟨_, rfl, ?_⟩
    rw [awake_started hstarted]
    exact flowRekey_closed hclosed
  case arrive =>
    intro s m l hstarted hword hway hdest hhere
    refine ⟨_, rfl, ?_⟩
    rw [awake_started hstarted, State.spliceMessage]
    simp only [hword, hway, hdest, Bool.not_true, Bool.false_eq_true, if_false]
    cases l with
    | node n => rfl
    | endpoint p => exact if_pos (beq_iff_eq.mpr (hhere p rfl))
  case done =>
    intro s m i p hstarted hword hway hdest hkind hp hheld
    refine ⟨_, rfl, ?_⟩
    rw [awake_started hstarted, State.spliceMessage]
    simp only [hword, hway, hdest, hp, hkind, hheld, Bool.not_true, Bool.false_eq_true, if_false, ne_eq, not_true_eq_false]
  case held =>
    intro s m p hword hheld
    refine ⟨_, rfl, ?_⟩
    have he : s.spliceMessage m = s := by
      rw [State.spliceMessage, hword]
      exact if_pos hheld
    rw [he, awake_same]
  case stopped =>
    intro s link c l domain flow m h
    exact ⟨⟨_, rfl, awake_stopped h⟩, ⟨_, rfl, awake_stopped h⟩, ⟨_, rfl, awake_stopped h⟩, ⟨_, rfl, awake_stopped h⟩, ⟨_, rfl, awake_stopped h⟩⟩

end Sys2Proof.Machine

/-!
PROOFS. Submissions from the host complex, launch packets and launch ports (R77, R80, R86 to R89, R493).
-/
namespace Sys2Proof.Machine

/-! ## Reports -/

theorem sendReport_kept (s : State) (p : ReportPkt) : TeamsKept s (s.sendReport p) ∧ FlowsKept s (s.sendReport p) := by
  refine iteInduction (motive := fun t => TeamsKept s t ∧ FlowsKept s t) (fun _ => ?_) (fun _ => ?_)
  · refine ⟨TeamsKept.trans (t := { s with packets := s.packets ++ [p] }) (.of_teams rfl rfl rfl rfl rfl) (sendOpen_teamsKept _ _), ?_⟩
    exact FlowsKept.trans (t := { s with packets := s.packets ++ [p], opens := s.opens + 1 }) ⟨rfl, rfl, rfl, fun _ => rfl⟩ (send_flowsKept _ _)
  · exact ⟨.of_teams rfl rfl rfl rfl rfl, rfl, rfl, rfl, fun _ => rfl⟩

/-- The refusal of a launch packet: LASTSEQ follows, and its report sets out. -/
theorem refuse_port (s : State) (n : Nat) (cookie : DWord) (pseq reason stream tag : Nat) :
    (s.refuse (.port n cookie pseq) reason stream tag).ge (portOff n + 0x18) = pseq % 2 ^ 64 ∧ (s.refuse (.port n cookie pseq) reason stream tag).tasks = s.tasks := by
  obtain ⟨hteams, hflows⟩ := sendReport_kept (s.setGe (portOff n + 0x18) pseq)
    { ep := (s.setGe (portOff n + 0x18) pseq).reg (geBase + portOff n + 0x10), port := n, pseq := pseq, cookie := cookie,
      report := [3 * 2 ^ 56 + reason * 2 ^ 48 + stream * 2 ^ 32 + tag, 0, 0 + (Source.port n cookie pseq).code * 2 ^ 24, (s.setGe (portOff n + 0x18) pseq).ioCyc].map (BitVec.ofNat 64) }
  refine ⟨(hflows.ge _).trans ?_, hteams.tasks⟩
  rw [ge_setGe, if_pos rfl]

/-! ## The header of a packet (R89) -/

theorem badHead_seqgap {s : State} {b : Submission} {n pseq : Nat} {cookie : DWord} (hb : b.src = .port n cookie pseq)
    (h : ¬ (pseq ≠ 0 ∧ pseq = if bits (s.ge (portOff n + 0x18)) 31 0 = 2 ^ 32 - 1 then 1 else bits (s.ge (portOff n + 0x18)) 31 0 + 1)) : s.badHead b = some rSeqgap := by
  rw [State.badHead, hb]
  exact if_pos (Decidable.or_iff_not_imp_left.mpr fun h0 he => h ⟨h0, he⟩)

/-- What the header of a packet in its turn comes to. -/
theorem badHead_inTurn {s : State} {b : Submission} {n pseq : Nat} {cookie : DWord} (hb : b.src = .port n cookie pseq)
    (h : pseq ≠ 0 ∧ pseq = if bits (s.ge (portOff n + 0x18)) 31 0 = 2 ^ 32 - 1 then 1 else bits (s.ge (portOff n + 0x18)) 31 0 + 1) :
    s.badHead b = if ((b.head.drop 2).any (· != 0) || bits (b.head.getD 0 0).toNat 63 56 != 1 || bits (b.head.getD 0 0).toNat 55 48 != 1 ||
      bits (b.head.getD 0 0).toNat 47 32 != n) = true then some rBadcard else none := by
  rw [State.badHead, hb]
  exact if_neg fun hn => hn.elim h.1 fun he => he h.2

theorem formed_iff (head : List DWord) (h0 n : Nat) :
    (((head.drop 2).all (· == 0) = true ∧ bits h0 63 56 = 1 ∧ bits h0 55 48 = 1 ∧ bits h0 47 32 = n)) ↔
      ¬ ((head.drop 2).any (· != 0) || bits h0 63 56 != 1 || bits h0 55 48 != 1 || bits h0 47 32 != n) = true := by
  have hall : (head.drop 2).any (· != 0) = !(head.drop 2).all (· == 0) := (List.not_all_eq_any_not).symm
  rw [hall]
  simp only [Bool.or_eq_true, Bool.not_eq_true', bne_iff_ne, ne_eq, not_or, Decidable.not_not, Bool.not_eq_false, and_assoc]

theorem judge_badHead {s : State} {b : Submission} {r : Nat} (h : s.badHead b = some r) : ∃ st tg, s.judge b = .refuse r st tg :=
  ⟨_, _, by rw [State.judge, h]⟩

/-! ## Words of a port (R87) -/

/-- Word 0x00 of a port from V, ASID and DISC. -/
theorem portWord_fields {v : Bool} {asid disc : Nat} (ha : asid < 2 ^ 16) (hd : disc < 2 ^ 32) :
    (bit01 v * 2 ^ 63 + asid * 2 ^ 32 + disc) % 2 ^ 64 = bit01 v * 2 ^ 63 + asid * 2 ^ 32 + disc ∧
      bitAt (bit01 v * 2 ^ 63 + asid * 2 ^ 32 + disc) 63 = v ∧ bits (bit01 v * 2 ^ 63 + asid * 2 ^ 32 + disc) 47 32 = asid := by
  cases v
  · simp only [bit01, bitAt, bits, Nat.shiftRight_eq_div_pow, Bool.false_eq_true, if_false, beq_eq_false_iff_ne]
    omega
  · simp only [bit01, bitAt, bits, Nat.shiftRight_eq_div_pow, if_true, beq_iff_eq]
    omega

/-- DISC after a write that clears some of its bits. -/
theorem disc_lt (old val : Nat) : bits old 31 0 &&& (2 ^ 32 - 1 - bits val 31 0) < 2 ^ 32 :=
  Nat.lt_of_le_of_lt Nat.and_le_left (Nat.mod_lt _ (by decide))

theorem portOff_ne (p : Nat) : portOff p ≠ portOff p + 0x18 := by omega

theorem portConfigure_sets {s : State} {p : Nat} {val : DWord} (hp : p < 16) (hold : bitAt (s.ge (portOff p)) 63 = false) (hnew : bitAt val.toNat 63 = true) :
    bitAt ((s.portConfigure p val).ge (portOff p)) 63 = true ∧ bits ((s.portConfigure p val).ge (portOff p)) 47 32 = bits val.toNat 47 32 ∧
      (s.portConfigure p val).ge (portOff p + 0x18) = 0 ∧ (s.portConfigure p val).mem = s.mem := by
  have hw : s.portConfigure p val = s.portWrite p val.toNat := if_pos ⟨hp, by rw [hold]; rfl, hnew⟩
  rw [hw, State.portWrite]
  simp only [hold, hnew, Bool.not_false, Bool.and_self, if_true, Bool.false_eq_true, if_false]
  obtain ⟨hmod, hv, ha⟩ := portWord_fields (v := true) (asid := bits val.toNat 47 32) (Nat.mod_lt _ (by decide)) (disc_lt (s.ge (portOff p)) val.toNat)
  rw [ge_setGe, if_neg (portOff_ne p).symm, ge_setGe, if_pos rfl, ge_setGe, if_pos rfl, hmod]
  exact ⟨hv, ha, rfl, rfl⟩

theorem portUnconfigure_clears {s : State} {p : Nat} {val : DWord} (hp : p < 16) (hold : bitAt (s.ge (portOff p)) 63 = true) (hnew : bitAt val.toNat 63 = false) :
    bitAt ((s.portUnconfigure p val).ge (portOff p)) 63 = false ∧ bits ((s.portUnconfigure p val).ge (portOff p)) 47 32 = bits (s.ge (portOff p)) 47 32 ∧
      (s.portUnconfigure p val).ge (portOff p + 0x18) = s.ge (portOff p + 0x18) ∧ (s.portUnconfigure p val).mem = s.mem := by
  have hw : s.portUnconfigure p val = s.portWrite p val.toNat := if_pos ⟨hp, hold, by rw [hnew]; rfl⟩
  rw [hw, State.portWrite]
  simp only [hold, hnew, Bool.not_true, Bool.and_self, if_true, Bool.false_eq_true, if_false]
  obtain ⟨hmod, hv, ha⟩ := portWord_fields (v := false) (asid := bits (s.ge (portOff p)) 47 32) (Nat.mod_lt _ (by decide)) (disc_lt (s.ge (portOff p)) val.toNat)
  rw [ge_setGe, if_pos rfl, ge_setGe, if_neg (portOff_ne p), hmod]
  exact ⟨hv, ha, rfl, rfl⟩

/-! ## The host complex -/

theorem hostdone_call {s : State} {handle : DWord} {k : Task} (hk : s.byHandle handle.toNat = some k) (hcls : k.cls = 1) (hst : k.started = true) (hleft : k.left ≠ 0)
    (hend : k.ending = none) : (s.hostdone handle).tasks = mupd s.tasks k.serial (fun k => { k with left := k.left - 1 }) ∧ (s.hostdone handle).mem = s.mem := by
  have hc : k.cls = 1 ∧ k.started = true ∧ k.left ≠ 0 ∧ k.ending.isNone = true := ⟨hcls, hst, hleft, by rw [hend]; rfl⟩
  rw [State.hostdone, hk]
  simp only [if_pos hc, and_self]

/-- Settles O48: each event by its branches; a refused packet by what its report leaves. -/
theorem submissionsAndPorts : Obligations.SubmissionsAndPorts := by
  unfold Obligations.SubmissionsAndPorts
  refine ⟨?subaddr, ?refused, ?accepted, ?done, ?nobody, ?kill, ?packet, ?head, ?foreign, ?configure, ?unconfigure, ?stopped⟩
  case subaddr =>
    intro s h addr hh hstarted hfree
    have he : s.subaddrWrite h addr = ({ s with subs := s.subs ++ [{ src := .host h, asid := bits (s.ge (0x1000 * h + 0x18)) 15 0, addr := bits addr.toNat 56 0 }] } : State).setGe
        (0x1000 * h + 8) (2 ^ 62) := if_neg fun hn => hn.elim (fun h' => absurd hh (by omega)) fun h' => h'.elim (fun h'' => by simp [hstarted] at h'') hfree
    refine ⟨_, rfl, ?_⟩
    rw [he]
    exact ⟨(ge_setGe _ _ _ _).trans (if_pos rfl), rfl, rfl⟩
  case refused =>
    intro s b rest reason stream tag hsubs hjudge
    refine ⟨_, rfl, ?_⟩
    rw [State.taskAccept, hsubs]
    simp only [hjudge]
  case accepted =>
    intro s b rest card foots preds hsubs hjudge
    refine ⟨_, rfl, ?_⟩
    rw [State.taskAccept, hsubs]
    simp only [hjudge]
  case done =>
    intro s h handle k hstarted hk hcls hst hleft hend
    refine ⟨_, rfl, ?_⟩
    rw [awake_started hstarted]
    exact hostdone_call hk hcls hst hleft hend
  case nobody =>
    intro s handle hk
    refine ⟨⟨_, rfl, ?_⟩, fun h => ⟨_, rfl, ?_⟩⟩
    · rw [State.tkill, hk]
      exact awake_same s
    · rw [State.hostdone, hk]
      exact awake_same s
  case kill =>
    intro s handle k hstarted hk hend
    refine ⟨_, rfl, ?_⟩
    rw [awake_started hstarted, State.tkill, hk]
    exact if_neg (by rw [hend]; exact Bool.false_ne_true)
  case packet =>
    intro s p n hport hintact hfeature hstarted hlife
    refine ⟨_, rfl, ?_⟩
    rw [awake_started hstarted, State.launchPacket]
    simp only [hport, hintact, hfeature, hlife, Bool.not_true, Bool.false_eq_true, ne_eq, not_true_eq_false, or_self, if_false]
  case head =>
    intro s b n cookie pseq hb last h0 next formed
    refine ⟨fun h => judge_badHead (badHead_seqgap hb h), fun hn hf => judge_badHead ((badHead_inTurn hb hn).trans (if_pos (Classical.not_not.mp (mt (formed_iff _ _ _).mpr hf)))),
      fun hn hf => (badHead_inTurn hb hn).trans (if_neg ((formed_iff _ _ _).mp hf)), ?_⟩
    intro rest reason st tg hsubs hjudge
    refine ⟨_, rfl, ?_⟩
    have he : s.taskAccept = (({ s with subs := rest } : State).geForget .accept).refuse b.src reason st tg := by
      rw [State.taskAccept, hsubs]
      simp only [hjudge]
    rw [he, hb]
    exact refuse_port _ n cookie pseq reason st tg
  case foreign =>
    intro s p hstarted hport
    refine ⟨_, rfl, ?_⟩
    have he : s.launchPacket p = s.discard none := by
      rw [State.launchPacket]
      simp only [hport]
    rw [awake_started hstarted, he]
    exact ⟨rfl, ge_setGe_setBits (by decide) (by decide)⟩
  case configure =>
    intro s p val hstarted hp hold hnew
    refine ⟨_, rfl, ?_⟩
    rw [awake_started hstarted]
    exact portConfigure_sets hp hold hnew
  case unconfigure =>
    intro s p val hstarted hp hold hnew
    refine ⟨_, rfl, ?_⟩
    rw [awake_started hstarted]
    exact portUnconfigure_clears hp hold hnew
  case stopped =>
    intro s h addr handle p q val hst
    exact ⟨⟨_, rfl, if_pos (Or.inr (Or.inl (by rw [hst]; rfl)))⟩, ⟨_, rfl, awake_stopped hst⟩, ⟨_, rfl, awake_stopped hst⟩, ⟨_, rfl, awake_stopped hst⟩,
      ⟨_, rfl, awake_stopped hst⟩, ⟨_, rfl, awake_stopped hst⟩⟩

end Sys2Proof.Machine

/-!
PROOFS. What a unit of a hitch does as it acts leaves every task as it is, and memory canonical (R405 to R410, R419, R424).
-/
namespace Sys2Proof.Machine

/-- Every task is the same, and memory stays in canonical form. -/
structure TasksKept (s t : State) : Prop where
  tasks : t.tasks = s.tasks
  inv : MemInv s → MemInv t

theorem TasksKept.refl (s : State) : TasksKept s s := ⟨rfl, id⟩

theorem TasksKept.trans {s t w : State} (h : TasksKept s t) (g : TasksKept t w) : TasksKept s w := ⟨g.tasks.trans h.tasks, fun hs => g.inv (h.inv hs)⟩

theorem TasksKept.of_ite {c : Prop} [Decidable c] {s a b : State} (ha : c → TasksKept s a) (hb : ¬ c → TasksKept s b) : TasksKept s (if c then a else b) :=
  iteInduction (motive := TasksKept s) ha hb

theorem TasksKept.foldS {α : Type} (f : α → State → State) (h : ∀ a s, TasksKept s (f a s)) : ∀ (as : List α) (s : State), TasksKept s (Machine.foldS f as s)
  | [], s => .refl s
  | a :: as, s => by
    rw [foldS_cons]
    exact (h a s).trans (TasksKept.foldS f h as _)

theorem TasksKept.of_memStep {s t : State} (h : MemStep s t) : TasksKept s t := ⟨h.tasks, h.inv⟩

/-- A step that touches neither the tasks nor memory. -/
theorem TasksKept.of_same {s t : State} (ht : t.tasks = s.tasks) (hm : t.mem = s.mem) : TasksKept s t := ⟨ht, fun h => by rw [MemInv, hm]; exact h⟩

/-! ## Results that come to a slice -/

theorem areaWrite_tasksKept (s : State) (w : Owed) : TasksKept s (s.areaWrite w) := by
  rw [State.areaWrite]
  dsimp only
  split
  case h_1 t h => exact .of_memStep (csaWrite_memStep h)
  case h_2 => exact .refl s
  case h_3 => exact .of_same rfl rfl

theorem frameReg_tasksKept (s : State) (u i d n lane w : Nat) : TasksKept s (s.frameReg u i d n lane w) :=
  .of_ite (fun _ => areaWrite_tasksKept s _) (fun _ => .refl s)

theorem deliverFrames_tasksKept (s : State) (u i : Nat) (op : MemOp) (lane elem v : Nat) : TasksKept s (s.deliverFrames u i op lane elem v) :=
  .of_ite (fun _ => .refl s) fun _ => .foldS _ (fun _ t => .foldS _ (fun _ w => .of_ite (fun _ => .refl w) (fun _ => frameReg_tasksKept w _ _ _ _ _ _)) _ t) _ s

theorem deliver_tasksKept (s : State) (op : MemOp) (vs : List (Nat × Nat × Nat)) : TasksKept s (s.deliver op vs) := by
  refine .foldS _ (fun p t => ?_) vs s
  have hk (u i n w : Nat) (t : State) : TasksKept t (if op.skip.contains (n, 0) then t else t.putK u i n false w) := .of_ite (fun _ => .refl t) (fun _ => .of_same rfl rfl)
  have hv (u i : Nat) (f : Slice → Slice) (v : Nat) : TasksKept t ((t.modSlice u i f).deliverFrames u i op p.1 p.2.1 v) :=
    TasksKept.trans (t := t.modSlice u i f) (.of_same rfl rfl) (deliverFrames_tasksKept _ _ _ _ _ _ _)
  dsimp only
  split
  · exact .of_ite (fun _ => (hk _ _ _ _ t).trans (hk _ _ _ _ _)) (fun _ => hk _ _ _ _ t)
  · exact hv _ _ _ _
  · exact .of_ite (fun _ => .refl t) (fun _ => .of_same rfl rfl)

/-! ## A unit's acts -/

theorem unitWrite_tasksKept : ∀ (l : List (Nat × Nat)) (bs : List Byte) (s : State), TasksKept s (s.unitWrite l bs)
  | [], _, s => .refl s
  | (_, _) :: l, _, s => TasksKept.trans (.of_memStep (homeWrite_memStep s _ _)) (unitWrite_tasksKept l _ _)

theorem geHold_tasksKept (s : State) (g : GeUser) (asid kind cause va acc : Nat) : TasksKept s (s.geHold g asid kind cause va acc) := .of_same rfl rfl

theorem geForget_tasksKept (s : State) (g : GeUser) : TasksKept s (s.geForget g) := .of_same rfl rfl

theorem putObject_tasksKept (s : State) (pa : Nat) (h : Hitch) : TasksKept s (s.putObject pa h) :=
  .of_memStep (((homeWrite_memStep s _ _).trans (homeWrite_memStep _ _ _)).trans (homeWrite_memStep _ _ _))

theorem hitchAnswer_tasksKept (s : State) (op : Option Nat) (code j round : Nat) : TasksKept s (s.hitchAnswer op code j round) := by
  cases op with
  | none => exact .refl s
  | some id =>
    rw [State.hitchAnswer]
    split
    · exact .refl s
    · exact (deliver_tasksKept s _ _).trans (.of_same rfl rfl)

theorem foldTerm_tasksKept (s : State) (h : Hitch) (m : Nat) (g : Given) : TasksKept s (s.foldTerm h m g).2 := hitchAnswer_tasksKept s _ _ _ _

theorem closeRound_tasksKept (s : State) (pa : Nat) (h : Hitch) : TasksKept s (s.closeRound pa h).2.1 := by
  rw [State.closeRound]
  dsimp only
  have close {L : Option (List (Nat × Nat))} {st : Nat} {write : Nat → State → State} (hw : ∀ n t, TasksKept t (write n t)) (g : Hitch) :
      TasksKept s (((write st (match L with | some l => s.unitWrite l (h.logRecord st) | none => s)).geForget (.unit pa)).putObject pa g) := by
    refine TasksKept.trans ?_ ((hw _ _).trans ((geForget_tasksKept _ _).trans (putObject_tasksKept _ pa g)))
    cases L
    · exact .refl s
    · exact unitWrite_tasksKept _ _ s
  have hsame : ∀ (_ : Nat) (t : State), TasksKept t t := fun _ t => .refl t
  split
  · exact geHold_tasksKept s _ _ _ _ _ _
  · exact geHold_tasksKept s _ _ _ _ _ _
  · split
    · split
      · exact geHold_tasksKept s _ _ _ _ _ _
      · exact close hsame _
    · split
      · exact geHold_tasksKept s _ _ _ _ _ _
      · exact close (fun _ t => (unitWrite_tasksKept _ _ t).trans (unitWrite_tasksKept _ _ _)) _
  · split
    · exact geHold_tasksKept s _ _ _ _ _ _
    · exact close hsame _

theorem runUnit_tasksKept (pa : Nat) : ∀ (n : Nat) (h : Hitch) (s : State), TasksKept s (s.runUnit pa n h).2
  | 0, _, s => .refl s
  | n + 1, h, s => by
    rw [State.runUnit]
    split
    · have hc := closeRound_tasksKept s pa h
      dsimp only
      split
      · exact hc.trans (runUnit_tasksKept pa n _ _)
      · exact hc
    · split
      · dsimp only
        split
        · exact (hitchAnswer_tasksKept s _ _ _ _).trans (runUnit_tasksKept pa n _ _)
        · exact (foldTerm_tasksKept s _ _ _).trans (runUnit_tasksKept pa n _ _)
      · split
        · exact .refl s
        · exact runUnit_tasksKept pa n _ s
        · dsimp only
          split
          · exact (foldTerm_tasksKept s _ _ _).trans (runUnit_tasksKept pa n _ _)
          · exact runUnit_tasksKept pa n _ s
          · exact (hitchAnswer_tasksKept s _ _ _ _).trans (runUnit_tasksKept pa n _ _)

theorem actUnit_tasksKept (s : State) (pa : Nat) (h : Hitch) : TasksKept s (s.actUnit pa h) := by
  rw [State.actUnit]
  dsimp only
  have hr := runUnit_tasksKept pa h.fuel h s
  split
  · exact hr.trans (TasksKept.trans (.of_memStep (homeWrite_memStep _ pa (toBytes 8 (setBits ((s.runUnit pa h.fuel h).2.home64 pa) 63 63 0)))) (.of_same rfl rfl))
  · exact hr.trans (.of_same rfl rfl)

theorem unitEvent_tasksKept (s : State) (pa : Nat) (e : UnitEvent) : TasksKept s (s.unitEvent pa e) := by
  rw [State.unitEvent]
  split
  · exact .refl s
  · exact .of_ite (fun _ => .of_same rfl rfl) (fun _ => actUnit_tasksKept s pa _)

theorem giveUnit_tasksKept (s : State) (pa m : Nat) (g : Given) : TasksKept s (s.giveUnit pa m g) :=
  .of_ite (fun _ => unitEvent_tasksKept s pa _) (fun _ => hitchAnswer_tasksKept s _ _ _ _)

theorem hitchContribution_tasksKept (s : State) (c : Contribution) : TasksKept s (s.hitchContribution c) := by
  cases c with
  | own id =>
    rw [State.hitchContribution]
    split
    · exact .refl s
    · refine TasksKept.trans (t := { s with contribs := mdel s.contribs id }) (.of_same rfl rfl) ?_
      exact .of_ite (fun _ => hitchAnswer_tasksKept _ _ _ _ _) (fun _ => giveUnit_tasksKept _ _ _ _)
  | other obj m tag es => exact .of_ite (fun _ => giveUnit_tasksKept s _ _ _) (fun _ => .refl s)

theorem depart_tasksKept (s : State) (u : Nat) : TasksKept s (s.depart u) :=
  .foldS _ (fun _ t => .foldS _ (fun _ w => (TasksKept.foldS _ (fun _ v => hitchContribution_tasksKept v _) _ w).trans (unitEvent_tasksKept _ _ _)) _ t) _ s

end Sys2Proof.Machine

/-!
PROOFS. Placement, pre-emption and the ends of teams and tasks (R24, R78, R85, R101, R103, R106, R107, R170, R447, R484, R485).
-/
namespace Sys2Proof.Machine

/-! ## HALT_REQUEST (R85, R447) -/

/-- A team as the request to halt leaves it. -/
def State.halting (s : State) (tm : Team) : Team := { tm with halt := some (s.cyc tm.core.die), haltAt := s.nextId, nwHold := tm.nwaits }

theorem able_of {tm : Team} (hcsa : tm.csa ≠ none) (hst : tm.status = .resident) (hhalt : tm.halt = none) (hsl : tm.slices ≠ []) :
    (tm.csa.isSome && tm.status == .resident && tm.halt.isNone && !tm.slices.isEmpty) = true := by
  obtain ⟨base, hbase⟩ := Option.ne_none_iff_exists'.mp hcsa
  have he : tm.slices.isEmpty = false := by simpa using hsl
  rw [hbase, hst, hhalt, he]
  rfl

/-- A map of the teams changes the team at a key as it does its pair. -/
theorem team_mapTeams {s : State} {u : Nat} {tm : Team} (h : s.team u = some tm) (c : Nat × Team → Bool) (f : Team → Team) :
    ({ s with teams := s.teams.map (fun p => if c p then (p.1, f p.2) else p) } : State).team u = some (if c (u, tm) then f tm else tm) := by
  have hm : s.teams.map (fun p => if c p then (p.1, f p.2) else p) = s.teams.map (fun p => (p.1, if c p then f p.2 else p.2)) :=
    List.map_congr_left fun p _ => by split <;> rfl
  have hg : mget s.teams u = some tm := h
  rw [State.team, hm, mget_map s.teams (fun p => if c p then f p.2 else p.2), hg]
  rfl

theorem haltRequest_wanted {s : State} {u : Nat} {tm : Team} (ht : s.team u = some tm) (hw : tm.wanted = true) (hcsa : tm.csa ≠ none) (hst : tm.status = .resident)
    (hhalt : tm.halt = none) (hsl : tm.slices ≠ []) : (s.haltRequest u).team u = some (s.halting tm) ∧ (s.haltRequest u).mem = s.mem := by
  rw [State.haltRequest, ht]
  dsimp only
  rw [if_pos (by rw [able_of hcsa hst hhalt hsl, hw]; rfl)]
  refine ⟨(team_mapTeams ht _ s.halting).trans ?_, rfl⟩
  rw [if_pos (by simp [hhalt])]

/-- A team chosen is wanted. -/
theorem team_want {s : State} {u : Nat} {tm : Team} (ht : s.team u = some tm) (hk : (s.taskOf u).isSome = true) : (s.want u).team u = some { tm with wanted := true } := by
  obtain ⟨k, hk⟩ := Option.isSome_iff_exists.mp hk
  rw [State.want, ht, hk]
  refine (team_mapTeams ht _ (fun t => { t with wanted := true })).trans ?_
  rw [if_pos (by simp)]

theorem want_rest (s : State) (u : Nat) : (s.want u).mem = s.mem ∧ (s.want u).nextId = s.nextId ∧ (s.want u).dies = s.dies ∧ (s.want u).tasks = s.tasks ∧ (s.want u).passDue = s.passDue := by
  rw [State.want]
  split
  · exact ⟨rfl, rfl, rfl, rfl, rfl⟩
  · exact ⟨rfl, rfl, rfl, rfl, rfl⟩

theorem haltRequest_idle {s : State} {u : Nat} {tm : Team} (ht : s.team u = some tm) (hw : tm.wanted = false) (hcsa : tm.csa ≠ none) (hst : tm.status = .resident)
    (hhalt : tm.halt = none) (hsl : tm.slices ≠ []) (hidle : s.nwaitIdle u = true) (hk : (s.taskOf u).isSome = true)
    (hp : s.tasks.any (fun p => s.unplaced p.2) = true) :
    (s.haltRequest u).team u = some { s.halting tm with wanted := true } ∧ (s.haltRequest u).mem = s.mem := by
  obtain ⟨hmem, hid, hdies, -, -⟩ := want_rest s u
  rw [State.haltRequest, ht]
  dsimp only
  rw [if_neg (by rw [hw]; simp), if_pos (by rw [able_of hcsa hst hhalt hsl, hidle, hp]; rfl)]
  refine ⟨(team_mapTeams (team_want ht hk) _ (s.want u).halting).trans ?_, hmem⟩
  rw [if_pos (by simp [hhalt]), State.halting, State.halting, State.cyc, State.cyc, State.die, State.die, hdies, hid]
  rfl

/-! ## RESERVE_GRANT (R170) -/

theorem reserveGrant_grants {s : State} {c : CoreId} {u i : Nat} {x : Slice} (hall : (s.runnableOn c).all (fun p => s.blockedAt p.1 p.2) = true)
    (hfirst : (s.allocOn c).find? (fun p => s.blockedAt p.1 p.2) = some (u, i)) (hx : s.slice u i = some x) (hg : x.grant = false)
    (hroom : s.above c u i (x.names.length + 1) ≤ s.spareTotal c + 64) : s.reserveGrant c = s.modSlice u i (fun x => { x with grant := true }) := by
  have hsl : s.sl u i = x := sl_of_slice hx
  rw [State.reserveGrant, if_neg (by rw [hall]; exact Bool.false_ne_true), hfirst]
  exact if_pos (by rw [hsl, hg]; exact ⟨hroom, rfl⟩)

/-! ## CONTEXT_SAVE_COMPLETE (R447) -/

theorem partFlags_ctxs (s : State) (k : Nat) : s.partFlags k = { s with ctxs := (s.partFlags k).ctxs } := by
  rw [State.partFlags]
  split <;> rfl

theorem partFlags_team (ks : List Nat) (s : State) (u : Nat) : (foldS (fun k s => s.partFlags k) ks s).team u = s.team u :=
  foldS_same (fun s => s.team u) _ ks (fun k _ s => by rw [partFlags_ctxs]; rfl) s

theorem csaAll_memStep (u : Nat) : ∀ (ps : List (Nat × List Byte)) {s t : State}, s.csaAll u ps = .done t → MemStep s t
  | [], s, t, h => by
    obtain rfl : s = t := CsaRes.done.inj h
    exact .refl s
  | (off, bs) :: ps, s, t, h => by
    rw [State.csaAll] at h
    split at h
    case h_1 w hw => exact (csaWrite_memStep hw).trans (csaAll_memStep u ps h)
    case h_2 => exact nomatch h
    case h_3 => exact nomatch h

theorem contextSave_saves {s s1 : State} {u : Nat} {tm : Team} (ht : s.team u = some tm) (hready : s.saveReady u = true)
    (hwc : ((foldS (fun k s => s.partFlags k) (s.heldKeys u) s).core tm.core).wc.any (fun e => e.teams.contains u) = false)
    (hall : (foldS (fun k s => s.partFlags k) (s.heldKeys u) s).csaAll u
      (((foldS (fun k s => s.partFlags k) (s.heldKeys u) s).saveParts u).flatMap (fun p => csaPieces p.1 p.2 (p.2.length + 1))) = .done s1) :
    (s.contextSave u).passDue = true ∧ (s.contextSave u).mem = s1.mem ∧ ∃ tm', (s.contextSave u).team u = some tm' ∧ tm'.status = .saved ∧ tm'.halt = none ∧
      tm'.wanted = false ∧ tm'.scratch = [] ∧ tm'.kfile = [] ∧ tm'.task = tm.task ∧ tm'.index = tm.index := by
  have h1 : s1.team u = some tm := ((csaAll_memStep u _ hall).team u).trans ((partFlags_team (s.heldKeys u) s u).trans ht)
  have hteam (ks : List Nat) (f : Ctx → Ctx) : (foldS (fun k s => State.modCtx s k f) ks s1).team u = some tm :=
    (foldS_same (fun s => s.team u) (fun k s => State.modCtx s k f) ks (fun _ _ _ => rfl) s1).trans h1
  have hmem (ks : List Nat) (f : Ctx → Ctx) : (foldS (fun k s => State.modCtx s k f) ks s1).mem = s1.mem := foldS_same (fun s => s.mem) (fun k s => State.modCtx s k f) ks (fun _ _ _ => rfl) s1
  have hteam' (w : State) (hw : w.team u = some tm) (f : Team → Team) (n : Nat) : ({ w.modTeam u f with passDue := true, opens := n } : State).team u = some (f tm) :=
    team_modTeam_self f hw
  rw [State.contextSave, ht]
  dsimp only
  rw [if_neg (by rw [hready]; exact Bool.false_ne_true), if_neg (by rw [hwc]; exact Bool.false_ne_true), hall]
  dsimp only
  refine ⟨rfl, hmem _ _, _, hteam' _ (hteam _ _) _ _, ?_⟩
  exact ⟨rfl, rfl, rfl, rfl, rfl, rfl, rfl⟩

/-! ## TEAM_END (R484) -/

/-- Where team u has ended: every task has the same teams left, and no pass is taken back. -/
structure EndKept (u : Nat) (s t : State) : Prop where
  gone : s.team u = none → t.team u = none
  left : ∀ n, (t.task n).map (·.left) = (s.task n).map (·.left)
  due : s.passDue = true → t.passDue = true

theorem EndKept.refl (u : Nat) (s : State) : EndKept u s s := ⟨id, fun _ => rfl, id⟩

theorem EndKept.trans {u : Nat} {s t w : State} (h : EndKept u s t) (g : EndKept u t w) : EndKept u s w :=
  ⟨fun hs => g.gone (h.gone hs), fun n => (g.left n).trans (h.left n), fun hs => g.due (h.due hs)⟩

theorem left_mupd (ts : Map Task) (n m : Nat) (f : Task → Task) (hf : ∀ k, (f k).left = k.left) : (mget (mupd ts n f) m).map (·.left) = (mget ts m).map (·.left) := by
  rw [mget_mupd]
  split
  · cases mget ts m with
    | none => rfl
    | some k => exact congrArg some (hf k)
  · rfl

theorem left_satisfyEdges (s : State) (serial n : Nat) : ((s.satisfyEdges serial).task n).map (·.left) = (s.task n).map (·.left) := by
  have h := mget_map s.tasks (fun p => { p.2 with edges := p.2.edges.filter (· != serial) }) n
  have he : (s.satisfyEdges serial).task n = _ := h
  rw [he, State.task]
  cases mget s.tasks n <;> rfl

theorem earlyRelease_endKept (u : Nat) (s : State) (serial : Nat) : EndKept u s (s.earlyRelease serial) := by
  rw [State.earlyRelease]
  split
  · exact .refl u s
  · refine iteInduction (motive := EndKept u s) (fun _ => ?_) (fun _ => .refl u s)
    exact ⟨id, fun n => (left_satisfyEdges _ serial n).trans (left_mupd s.tasks serial n (fun k => { k with released := true }) (fun _ => rfl)), fun _ => rfl⟩

/-- A level barrier whose phase is over (R376). -/
def Level.over (l : Level) : Level := { l with phase := l.phase + 1, arrived := [] }

theorem settleLevel_endKept (u : Nat) (s : State) (serial key : Nat) : EndKept u s (s.settleLevel serial key) := by
  rw [State.settleLevel]
  split
  · exact .refl u s
  · next k hk =>
    refine iteInduction (motive := EndKept u s) (fun _ => ?_) (fun _ => .refl u s)
    refine ⟨fun hu => ?_, fun n => left_mupd s.tasks serial n (fun t => { t with levels := mset t.levels key ((mget k.levels key).getD {}).over }) (fun _ => rfl), id⟩
    have hm : (s.teams.map (fun p => if p.2.task = serial then (p.1, { p.2 with lvl := mdel p.2.lvl key }) else p)) =
        s.teams.map (fun p => (p.1, if p.2.task = serial then { p.2 with lvl := mdel p.2.lvl key } else p.2)) := List.map_congr_left fun p _ => by split <;> rfl
    have hu' : mget s.teams u = none := hu
    show mget (s.teams.map _) u = none
    rw [hm, mget_map s.teams (fun p => if p.2.task = serial then { p.2 with lvl := mdel p.2.lvl key } else p.2), hu']
    rfl

theorem EndKept.foldS {α : Type} (u : Nat) (f : α → State → State) (h : ∀ a s, EndKept u s (f a s)) : ∀ (as : List α) (s : State), EndKept u s (Machine.foldS f as s)
  | [], s => .refl u s
  | a :: as, s => by
    rw [foldS_cons]
    exact (h a s).trans (EndKept.foldS u f h as _)

theorem settleAll_endKept (u : Nat) (s : State) (serial : Nat) : EndKept u s (s.settleAll serial) := by
  rw [State.settleAll]
  split
  · exact .refl u s
  · exact .foldS u (fun (p : Nat × Level) t => t.settleLevel serial p.1) (fun p t => settleLevel_endKept u t serial p.1) _ s

theorem EndKept.of_same {u : Nat} {s t : State} (ht : t.teams = s.teams) (hk : t.tasks = s.tasks) (hp : t.passDue = s.passDue) : EndKept u s t :=
  ⟨fun h => by rw [State.team, ht]; exact h, fun n => by rw [State.task, State.task, hk], fun h => hp.trans h⟩

theorem sendCells_passDue (link cls k : Nat) : ∀ (ps : List (BitVec 1024)) (s : State), (s.sendCells link cls k ps).passDue = s.passDue
  | [], _ => rfl
  | [_], _ => rfl
  | p :: q :: ps, s => sendCells_passDue link cls k (q :: ps) (s.sendCell link cls k false p)

theorem send_passDue (s : State) (m : Sending) : (s.send m).passDue = s.passDue := by
  have hsent : (((s.sendCells m.link m.cls m.flow m.body).podTold m.pod).spliceTold m.splice).passDue = s.passDue :=
    Eq.trans (by cases m.pod <;> rfl) (sendCells_passDue m.link m.cls m.flow m.body s)
  exact iteInduction (motive := fun t : State => t.passDue = s.passDue) (fun _ => hsent) (fun _ => rfl)

theorem podLeave_endKept (v : Nat) (s : State) (u : Nat) (k : Task) : EndKept v s (s.podLeave u k) := by
  refine iteInduction (motive := EndKept v s) (fun _ => .refl v s) (fun _ => ?_)
  dsimp only
  rw [State.podSend]
  split
  · exact .of_same (send_teams _ _) (sendOpen_teamsKept s _).tasks (send_passDue _ _)
  · exact .refl v s

/-- The state of a team that has ended, once its contexts are free, its members have departed and its core has released. -/
def State.emptied (s : State) (u : Nat) (tm : Team) : State :=
  let s := (foldS (fun k s => s.modCtx k (fun x => { x with holder := none, run := .idle })) (s.heldKeys u) s).depart u
  if tm.away then s else s.releaseL1 tm.core 5

theorem emptied_tasks (s : State) (u : Nat) (tm : Team) : (s.emptied u tm).tasks = s.tasks := by
  have hd : ((foldS (fun k s => State.modCtx s k (fun x => { x with holder := none, run := .idle })) (s.heldKeys u) s).depart u).tasks = s.tasks :=
    (depart_tasksKept _ u).tasks.trans (foldS_same (fun s => s.tasks) (fun k s => State.modCtx s k (fun x => { x with holder := none, run := .idle })) _ (fun _ _ _ => rfl) s)
  exact iteInduction (motive := fun t : State => t.tasks = s.tasks) (fun _ => hd) (fun _ => (releaseL1_memStep _ tm.core 5).tasks.trans hd)

/-- The state without a team, and its task with one team fewer to end. -/
def State.withoutTeam (s : State) (u : Nat) (tm : Team) : State :=
  let s : State := { s with teams := mdel s.teams u, passDue := true, mops := s.mops.filter (fun p => !p.2.ofTeam u || p.2.kind == MemKind.hitch) }
  let s := match s.task tm.task with | some k => s.podLeave u k | none => s
  s.modTask tm.task (fun k => { k with left := k.left - 1 })

theorem withoutTeam_ends (s : State) (u : Nat) (tm : Team) : (s.withoutTeam u tm).team u = none ∧ (s.withoutTeam u tm).passDue = true ∧
    ((s.withoutTeam u tm).task tm.task).map (·.left) = (s.task tm.task).map (fun k => k.left - 1) := by
  let s1 : State := { s with teams := mdel s.teams u, passDue := true, mops := s.mops.filter (fun p => !p.2.ofTeam u || p.2.kind == MemKind.hitch) }
  let s2 : State := match s1.task tm.task with | some k => s1.podLeave u k | none => s1
  have hk : EndKept u s1 s2 := by
    cases h : s1.task tm.task with
    | none => simp only [s2, h]; exact .refl u s1
    | some k => simp only [s2, h]; exact podLeave_endKept u s1 u k
  have hgone : s1.team u = none := (mget_mdel s.teams u u).trans (if_pos rfl)
  refine ⟨hk.gone hgone, hk.due rfl, ?_⟩
  have hm : (s.withoutTeam u tm).task tm.task = (s2.task tm.task).map (fun k => { k with left := k.left - 1 }) := 
    (mget_mupd s2.tasks tm.task (fun k => { k with left := k.left - 1 }) tm.task).trans (if_pos rfl)
  have hl : ((s2.task tm.task).map (·.left)).map (· - 1) = ((s.task tm.task).map (·.left)).map (· - 1) := congrArg (Option.map (· - 1)) (hk.left tm.task)
  rw [hm, Option.map_map]
  rw [Option.map_map, Option.map_map] at hl
  exact hl

theorem teamEnd_eq {s : State} {u : Nat} {tm : Team} (ht : s.team u = some tm) (hst : tm.status = .ending) (hstores : s.storesOut u = false)
    (hinto : s.copiesInto u s.nextId = false) (hfrom : s.copiesFrom u = false) (hreach : s.reachedFrom u = false) (hspl : s.splicesInto u = false)
    (howes : s.owes u = false) (hmark : tm.marking = [])
    (hctx : ∀ k ∈ s.heldKeys u, (s.ctx k).run ≠ .running ∧ (s.ctx k).flight = none ∧ s.mops.any (fun p => p.2.by_ == .ctx k) = false)
    (hwc : (s.core tm.core).wc.any (fun e => e.teams.contains u) = false) :
    s.teamEnd u = (((s.emptied u tm).withoutTeam u tm).settleAll tm.task).earlyRelease tm.task := by
  have hkeys : (s.heldKeys u).any (fun k => (s.ctx k).run == .running || (s.ctx k).flight.isSome || s.mops.any (fun p => p.2.by_ == .ctx k)) = false := by
    refine List.any_eq_false.mpr fun k hk => ?_
    obtain ⟨hrun, hflight, hops⟩ := hctx k hk
    rw [hflight, hops, beq_eq_false_iff_ne.mpr hrun]
    exact Bool.false_ne_true
  rw [State.teamEnd, ht]
  dsimp only
  rw [hstores, hinto, hfrom, hreach, hspl, howes, hmark, hkeys, hst, hwc]
  exact (if_neg (by simp)).trans (if_neg Bool.false_ne_true)

/-- PLCTL after a write: PRE, AGELIM and the reservations. -/
theorem plctl_fields (s : State) (off n v : Nat) {a : Nat} (ha : a < 2 ^ 16) :
    bitAt ((s.setGe off (n * 2 ^ 32 + a * 2 ^ 16 + v % 2)).ge off) 0 = bitAt v 0 ∧ bits ((s.setGe off (n * 2 ^ 32 + a * 2 ^ 16 + v % 2)).ge off) 31 16 = a := by
  rw [ge_setGe, if_pos rfl]
  constructor
  · rw [Bool.eq_iff_iff]
    simp only [bitAt, Nat.shiftRight_zero, beq_iff_eq]
    omega
  · simp only [bits, Nat.shiftRight_eq_div_pow]
    omega

theorem retire_gone (s : State) (k : Task) : (s.retire k).task k.serial = none := by
  exact (mget_mdel _ k.serial k.serial).trans (if_pos rfl)

/-- Settles O49: each event by its branches; the end of a team by what each of its steps leaves of the tasks and the teams. -/
theorem placementAndEnds : Obligations.PlacementAndEnds := by
  unfold Obligations.PlacementAndEnds
  refine ⟨?pass, ?noPass, ?plctl, ?throttle, ?grant, ?wanted, ?idle, ?save, ?teamEnd, ?taskEnd, ?doneWord⟩
  case pass =>
    intro s hdue
    refine ⟨_, rfl, ?_⟩
    exact if_neg (by rw [hdue]; exact Bool.false_ne_true)
  case noPass =>
    intro s hdue
    exact ⟨_, rfl, if_pos (by rw [hdue]; rfl)⟩
  case plctl =>
    intro s val hstarted
    refine ⟨_, rfl, ?_⟩
    have hr : 1 < 2 ^ 16 := by decide
    have ha : (if bits val.toNat 31 16 = 0 then 1 else bits val.toNat 31 16) < 2 ^ 16 := iteInduction (motive := (· < 2 ^ 16)) (fun _ => hr) (fun _ => Nat.mod_lt _ (by decide))
    rw [State.plctlWrite, hstarted]
    obtain ⟨hpre, hage⟩ := plctl_fields s 0x20040 s.resvs val.toNat ha
    exact ⟨rfl, hpre, rfl, hage⟩
  case throttle =>
    intro s die
    exact ⟨_, rfl, rfl, by rw [State.throttleStart, State.die, State.modDie, mget_mset_self]; rfl⟩
  case grant =>
    intro s c u i x hall hfirst hx hg hroom
    refine ⟨_, rfl, ?_⟩
    rw [reserveGrant_grants hall hfirst hx hg hroom]
    exact ⟨modSlice_kept _ s u i _, by rw [slice_modSlice, if_pos ⟨rfl, rfl⟩, hx]; rfl⟩
  case wanted =>
    intro s u tm ht hw hcsa hst hhalt hsl
    exact ⟨_, rfl, haltRequest_wanted ht hw hcsa hst hhalt hsl⟩
  case idle =>
    intro s u tm ht hw hcsa hst hhalt hsl hidle hk hp
    exact ⟨_, rfl, haltRequest_idle ht hw hcsa hst hhalt hsl hidle hk hp⟩
  case save =>
    intro s u tm s1 ht hready s0 hwc hall
    exact ⟨_, rfl, contextSave_saves ht hready hwc hall⟩
  case teamEnd =>
    intro s u tm ht hst hstores hinto hfrom hreach hspl howes hmark hctx hwc
    refine ⟨_, rfl, ?_⟩
    obtain ⟨hgone, hdue, hleft⟩ := withoutTeam_ends (s.emptied u tm) u tm
    have hk := (settleAll_endKept u ((s.emptied u tm).withoutTeam u tm) tm.task).trans (earlyRelease_endKept u _ tm.task)
    have htask : (s.emptied u tm).task tm.task = s.task tm.task := by rw [State.task, State.task, emptied_tasks]
    rw [teamEnd_eq ht hst hstores hinto hfrom hreach hspl howes hmark hctx hwc]
    exact ⟨hk.gone hgone, hk.due hdue, (hk.left tm.task).trans (htask ▸ hleft)⟩
  case taskEnd =>
    intro s handle k hk hend hcopies hdone
    refine ⟨_, rfl, ?_⟩
    have he : s.taskEnd handle = ((s.publishTask k.serial).modTask k.serial (fun k => { k with ending := some 2 })).retire k := by
      rw [State.taskEnd, hk]
      exact (if_neg (by rw [hend, hcopies]; simp)).trans (if_pos hdone)
    rw [he]
    exact ⟨rfl, retire_gone _ k, rfl⟩
  case doneWord =>
    intro s handle k pa ch st hk hend hcopies hdone s1 htr
    refine ⟨_, rfl, ?_⟩
    have he : s.taskEnd handle = (s1.homeWrite pa (toBytes 8 k.doneWord)).retire k := by
      rw [State.taskEnd, hk]
      refine (if_neg (by rw [hend, hcopies]; simp)).trans ((if_neg hdone).trans ?_)
      rw [htr]
    rw [he]
    exact ⟨rfl, retire_gone _ k⟩

end Sys2Proof.Machine

/-!
PROOFS. Walks, answers to faults, the fault rings and invalidations (R122, R125, R126, R128 to R130).
-/
namespace Sys2Proof.Machine

/-! ## Waiting slices -/

theorem wake_slice {s : State} {u i : Nat} {x : Slice} {w : Wait} (hx : s.slice u i = some x) (hw : x.wait = w) :
    (s.wake (.slice u i) w).slice u i = some { x with wait := .none } := by
  have h := slice_modSlice s u i (fun x => if x.wait = w then { x with wait := .none } else x) u i
  rw [if_pos ⟨rfl, rfl⟩, hx] at h
  exact h.trans (congrArg some (if_pos hw))

theorem coreOf_of_teams {s t : State} (h : t.teams = s.teams) (u i : Nat) : t.coreOf (.slice u i) = s.coreOf (.slice u i) := by
  rw [State.coreOf, State.coreOf, State.team, State.team, h]

theorem die_of_dies {s t : State} (h : t.dies = s.dies) (die : Nat) : t.die die = s.die die := by rw [State.die, State.die, h]

/-! ## WALK (R129, R130) -/

/-- The die's walkers after the end of a walk. -/
def State.walkEnded (s : State) (die : Nat) (q : WalkReq) : State := s.modDie die (fun d => Die.startWalk { d with walks := d.walks.erase q })

theorem walkOne_of_ok {s : State} {die : Nat} {q : WalkReq} {w : Waiter} {tr : Tlb} (hq : (s.die die).walks.find? (·.busy) = some q) (hw : q.waiters = [w])
    (h : (s.walkEnded die q).walk q.asid q.va = .ok tr) :
    s.walkOne die = ((s.walkEnded die q).tlbFill ((s.walkEnded die q).waiterCore w) tr).walked w := by
  rw [State.walkOne, hq]
  dsimp only
  rw [hw]
  rw [State.walkEnded] at h
  rw [h]
  rfl

theorem walkOne_of_error {s : State} {die : Nat} {q : WalkReq} {w : Waiter} {c : Nat} (hq : (s.die die).walks.find? (·.busy) = some q) (hw : q.waiters = [w])
    (h : (s.walkEnded die q).walk q.asid q.va = .error c) :
    s.walkOne die = ((s.walkEnded die q).keepFault w { asid := q.asid, page := q.va / 4096, kind := kXlate, cause := c, replay := (s.walkEnded die q).demand q.asid }).walked w := by
  rw [State.walkOne, hq]
  dsimp only
  rw [hw]
  rw [State.walkEnded] at h
  rw [h]
  rfl

theorem tlb_tlbFill (s : State) (c : CoreId) (t : Tlb) : ((s.tlbFill c t).core c).tlb.head? = some t := by
  have h : (s.tlbFill c t).core c = (s.modCore c (fun k => { k with tlb := (t :: k.tlb.filter (· != t)).take 128 })).core c := rfl
  rw [h, core_modCore]
  rfl

theorem walk_fills {s : State} {die u i : Nat} {q : WalkReq} {x : Slice} {tr : Tlb} (hq : (s.die die).walks.find? (·.busy) = some q) (hw : q.waiters = [.slice u i])
    (hx : s.slice u i = some x) (hwait : x.wait = .walk) (h : (s.walkEnded die q).walk q.asid q.va = .ok tr) :
    ((s.walkOne die).die die).walks = ((s.walkEnded die q).die die).walks ∧ (s.walkOne die).mem = s.mem ∧
      ((s.walkOne die).core (s.coreOf (.slice u i))).tlb.head? = some tr ∧ (s.walkOne die).slice u i = some { x with wait := .none } := by
  rw [walkOne_of_ok hq hw h]
  exact ⟨rfl, rfl, tlb_tlbFill (s.walkEnded die q) (s.coreOf (.slice u i)) tr, wake_slice (s := (s.walkEnded die q).tlbFill (s.coreOf (.slice u i)) tr) hx hwait⟩

theorem walk_faults {s : State} {die u i c : Nat} {q : WalkReq} {x : Slice} (hq : (s.die die).walks.find? (·.busy) = some q) (hw : q.waiters = [.slice u i])
    (hx : s.slice u i = some x) (hwait : x.wait = .walk) (h : (s.walkEnded die q).walk q.asid q.va = .error c) :
    ((s.walkOne die).die die).walks = ((s.walkEnded die q).die die).walks ∧ (s.walkOne die).mem = s.mem ∧ (s.walkOne die).cores = s.cores ∧
      (s.walkOne die).slice u i = some { x with wait := .none, xf := x.xf ++ [{ asid := q.asid, page := q.va / 4096, kind := kXlate, cause := c, replay := s.demand q.asid }] } := by
  let f : WalkFault := { asid := q.asid, page := q.va / 4096, kind := kXlate, cause := c, replay := s.demand q.asid }
  have hkept : ((s.walkEnded die q).keepFault (.slice u i) f).slice u i = some { x with xf := x.xf ++ [f] } := by
    have hk := slice_modSlice (s.walkEnded die q) u i (fun x => if x.wait = .walk then { x with xf := x.xf ++ [f] } else x) u i
    rw [if_pos ⟨rfl, rfl⟩] at hk
    exact hk.trans ((congrArg (Option.map _) hx).trans (congrArg some (if_pos hwait)))
  rw [walkOne_of_error hq hw h]
  exact ⟨rfl, rfl, rfl, wake_slice hkept hwait⟩

/-! ## Answers to a fault (R122, R126, R128) -/

theorem any_mset_congr {α : Type} (p : Nat × α → Bool) (k : Nat) {v w : α} (h : p (k, v) = p (k, w)) : ∀ m : Map α, (mset m k v).any p = (mset m k w).any p
  | [] => by simp only [mset, List.any_cons, h]
  | (k', v') :: m => by
    rw [mset, mset]
    by_cases h1 : k' = k
    · simp only [if_pos h1, List.any_cons, h]
    · rw [if_neg h1, if_neg h1]
      by_cases h2 : k < k'
      · simp only [if_pos h2, List.any_cons, h]
      · rw [if_neg h2, if_neg h2, List.any_cons, List.any_cons, any_mset_congr p k h m]

/-- Who waits, of a die changed in two ways that leave it the same faults. -/
theorem faultWaits_modDie (s : State) (die : Nat) {f g : Die → Die} (h : (f (s.die die)).faults = (g (s.die die)).faults) (w : Waiter) :
    (s.modDie die f).faultWaits w = (s.modDie die g).faultWaits w :=
  any_mset_congr (fun p : Nat × Die => p.2.faults.any (fun f => f.waiters.contains w)) die (v := f (s.die die)) (w := g (s.die die))
    (congrArg (fun fs : List FaultEntry => fs.any (fun f => f.waiters.contains w)) h) s.dies

theorem die_modDie_self (s : State) (die : Nat) (f : Die → Die) : (s.modDie die f).die die = f (s.die die) := (die_modDie s die f die).trans (if_pos rfl)

/-- FQHEAD after a ring index has freed. -/
def Die.headAfter (d : Die) (idx : Nat) : Nat :=
  let fs := d.faults.filter (fun g => g.ring != some idx)
  if fs.any (fun g => g.ring == some d.fqHead) then (freeIndex fs d.fqHead 1024).getD d.fqHead else d.fqHead

/-- A die whose entry of a ring index has freed. -/
def Die.freed (d : Die) (idx : Nat) : Die := { d with faults := d.faults.filter (fun g => g.ring != some idx), fqHead := d.headAfter idx }

/-- The entry of a ring index has freed. -/
def State.freed (s : State) (die idx : Nat) : State :=
  ((s.modDie die (·.freed idx)).setTc (0x1000 * die + 8) ((s.die die).headAfter idx)).setTc (0x1000 * die + 0x10)
    ((((s.die die).freed idx).faults.filter (fun x => x.ring.isSome)).length)

theorem freed_faults (s : State) (die idx : Nat) : ((s.freed die idx).die die).faults = (s.die die).faults.filter (fun g => g.ring != some idx) :=
  congrArg Die.faults (die_modDie_self s die (·.freed idx))

theorem freed_faultWaits (s : State) (die idx : Nat) (w : Waiter) :
    (s.freed die idx).faultWaits w = (s.modDie die (fun d => { d with faults := d.faults.filter (fun g => g.ring != some idx) })).faultWaits w :=
  have h : (s.freed die idx).faultWaits w = (s.modDie die (·.freed idx)).faultWaits w := rfl
  h.trans (faultWaits_modDie s die (f := (·.freed idx)) (g := fun d => { d with faults := d.faults.filter (fun g => g.ring != some idx) }) rfl w)

/-- From s to t only what the tasks fetch has changed. -/
theorem leafImages_frame (s : State) (asid va : Nat) : s.leafImages asid va = { s with tasks := (s.leafImages asid va).tasks } := by
  delta State.leafImages
  generalize s.walk asid va = r
  cases r with
  | ok t => rfl
  | error c => rfl

theorem answerFault_one {s : State} {die idx : Nat} {f : FaultEntry} {w : Waiter} (hf : (s.die die).faults.find? (fun f => f.ring == some idx) = some f) (hw : f.waiters = [w]) :
    s.answerFault die idx true = ((s.freed die idx).leafImages f.asid f.va).retryOne f w ∧ s.answerFault die idx false = (s.freed die idx).failOne f w := by
  constructor
  · rw [State.answerFault, hf]
    dsimp only
    rw [hw]
    rfl
  · rw [State.answerFault, hf]
    dsimp only
    rw [hw]
    rfl

/-- A slice whose last fault is answered. -/
theorem answered_slice {s : State} {u i : Nat} {x : Slice} (f : FaultEntry) (xs : List WalkFault) (hx : s.slice u i = some x) (hwait : x.wait = .replay)
    (hno : s.faultWaits (.slice u i) = false) (hnoEngine : s.faultWaits (.engine (.slice u i)) = false) :
    (s.answered (.slice u i) f xs).slice u i = some { x with wait := .none, xf := x.xf.filter (fun y => y.page != f.va / 4096 || y.asid != f.asid) ++ xs } ∧
      (s.answered (.slice u i) f xs).mem = s.mem ∧ (s.answered (.slice u i) f xs).dies = s.dies := by
  let s1 := s.modSlice u i (fun x => { x with xf := x.xf.filter (fun y => y.page != f.va / 4096 || y.asid != f.asid) ++ xs })
  have he : s.answered (.slice u i) f xs = s1.wake (.slice u i) .replay := if_neg (by
    have h1 : s1.faultWaits (.slice u i) = false := hno
    have h2 : s1.faultWaits (.engine (.slice u i)) = false := hnoEngine
    show ¬ (s1.faultWaits (.slice u i) || s1.faultWaits (.engine (.slice u i))) = true
    rw [h1, h2]
    exact Bool.false_ne_true)
  have h1 : s1.slice u i = some { x with xf := x.xf.filter (fun y => y.page != f.va / 4096 || y.asid != f.asid) ++ xs } := by
    rw [slice_modSlice, if_pos ⟨rfl, rfl⟩, hx]
    rfl
  rw [he]
  exact ⟨wake_slice h1 hwait, rfl, rfl⟩

theorem answerFault_none {s : State} {die idx : Nat} (h : (s.die die).faults.find? (fun f => f.ring == some idx) = none) (retry : Bool) : s.answerFault die idx retry = s := by
  rw [State.answerFault, h]

/-! ## FAULT_QUEUE_WRITE (R126) -/

/-- The first of those that meet p, where it meets q too. -/
theorem find?_filter_first {α : Type} {p q : α → Bool} {l : List α} {a : α} (h : l.find? p = some a) (hq : q a = true) : (l.filter p).find? q = some a := by
  rw [List.find?_filter]
  induction l with
  | nil => exact nomatch h
  | cons b l ih =>
    rw [List.find?_cons] at h ⊢
    cases hb : p b with
    | true =>
      rw [hb] at h
      obtain rfl : b = a := Option.some.inj h
      rw [hq]
      rfl
    | false =>
      rw [hb] at h
      exact ih h

theorem rawWrite_dies (s : State) (pa : Nat) (bs : List Byte) : (s.rawWrite pa bs).dies = s.dies ∧ (s.rawWrite pa bs).faultSignals = s.faultSignals :=
  iteInduction (motive := fun t : State => t.dies = s.dies ∧ t.faultSignals = s.faultSignals) (fun _ => ⟨rfl, rfl⟩) (fun _ => ⟨rfl, rfl⟩)

theorem rawWrite_mem {s t : State} (h : t.mem = s.mem) (pa : Nat) (bs : List Byte) : (t.rawWrite pa bs).mem = (s.rawWrite pa bs).mem := by
  rw [State.rawWrite, State.rawWrite]
  split
  · exact congrArg (fun m => Mem.write m pa bs) h
  · exact h

theorem faults_mset {t : State} {die : Nat} {fs : List FaultEntry} (h : ∃ m d, t.dies = mset m die d ∧ d.faults = fs) : (t.die die).faults = fs := by
  obtain ⟨m, d, h, rfl⟩ := h
  rw [State.die, h, mget_mset_self]
  rfl

theorem faults_rawWrite {t : State} {die : Nat} {fs : List FaultEntry} (h : ∃ m d, t.dies = mset m die d ∧ d.faults = fs) (pa : Nat) (bs : List Byte) :
    ((t.rawWrite pa bs).die die).faults = fs := faults_mset (by rw [(rawWrite_dies t pa bs).1]; exact h)

theorem faults_rawWrite_setTc {t : State} {die : Nat} {fs : List FaultEntry} (h : ∃ m d, t.dies = mset m die d ∧ d.faults = fs) (pa : Nat) (bs : List Byte) (a v b w : Nat) :
    ((((t.rawWrite pa bs).setTc a v).setTc b w).die die).faults = fs := faults_rawWrite h pa bs

/-- The oldest fault takes a ring entry. -/
theorem queueFault_enters {s : State} {die i : Nat} {f : FaultEntry} (hf : (s.die die).faults.find? (fun f => f.ring.isNone) = some f) (hj : (s.die die).joins f = none)
    (hfree : freeIndex (s.die die).faults (s.die die).fqHead 1024 = some i) :
    (s.queueFault die).mem = (s.rawWrite (bits (s.tc (0x1000 * die)) 51 15 * 2 ^ 15 + 32 * i) (faultWords f)).mem ∧
      ((s.queueFault die).die die).faults = (s.die die).faults.map (fun x => if x == f then { f with ring := some i } else x) ∧
      (s.queueFault die).faultSignals = s.faultSignals ++ [(die, i)] := by
  rw [State.queueFault]
  dsimp only
  rw [find?_filter_first hf (by rw [hfree]; simp)]
  dsimp only
  rw [hj]
  dsimp only
  rw [hfree]
  dsimp only
  refine ⟨rawWrite_mem (s := s) ?_ _ _, ?_, (rawWrite_dies _ _ _).2⟩
  · rfl
  refine faults_rawWrite_setTc ?_ _ _ _ _ _ _
  exact ⟨_, _, rfl, rfl⟩

/-- The oldest fault joins the entry of its page. -/
theorem queueFault_joins {s : State} {die : Nat} {f g : FaultEntry} (hf : (s.die die).faults.find? (fun f => f.ring.isNone) = some f) (hj : (s.die die).joins f = some g) :
    (s.queueFault die).faultSignals = s.faultSignals ∧ ((s.queueFault die).die die).faults = ((s.die die).faults.erase f).map (fun x =>
      if x.ring == g.ring then { g with merged := min (g.merged + 1) 65535, waiters := g.waiters ++ f.waiters } else x) := by
  rw [State.queueFault]
  dsimp only
  rw [find?_filter_first hf (by rw [hj]; rfl)]
  dsimp only
  rw [hj]
  dsimp only
  refine ⟨(rawWrite_dies _ _ _).2, ?_⟩
  refine faults_rawWrite ?_ _ _
  exact ⟨_, _, rfl, rfl⟩

/-! ## Invalidations (R125) -/

theorem tc_setTc (s : State) (off v : Nat) : (s.setTc off v).tc off = v % 2 ^ 64 := by
  show ((mget (mset s.regs (tcBase + off) (BitVec.ofNat 64 v)) (tcBase + off)).getD (regReset (tcBase + off))).toNat = _
  rw [mget_mset_self]
  exact BitVec.toNat_ofNat v 64

theorem invalidate_starts {s : State} (h : s.inval = none) (scope asid npg : Nat) :
    (s.invalidate scope asid npg).inval = some (scope, asid, bits (s.tc 0x8008) 56 12 * 4096, npg) ∧ (s.invalidate scope asid npg).tc 0x8018 = 1 ∧
      (s.invalidate scope asid npg).mem = s.mem := by
  have hm : (foldS (fun (p : Nat × Core) s => s.wcDrain (Sys2Proof.Machine.coreOf p.1) (fun _ => true)) s.cores s).mem = s.mem :=
    foldS_same (fun s => s.mem) (fun (p : Nat × Core) s => s.wcDrain (Sys2Proof.Machine.coreOf p.1) (fun _ => true)) s.cores (fun _ _ _ => rfl) s
  rw [State.invalidate, h]
  exact ⟨rfl, tc_setTc _ 0x8018 1, hm⟩

theorem invalidate_busy {s : State} (h : s.inval.isSome = true) (scope asid npg : Nat) : s.invalidate scope asid npg = s := if_pos h

/-- No TLB holds an entry of a scope. -/
def NoEntries (v : Nat × Nat × Nat × Nat) (t : State) : Prop :=
  (∀ p ∈ t.cores, ∀ e ∈ p.2.tlb, inScope v e.asid e.base (e.base + 2 ^ e.log) = false) ∧ ∀ p ∈ t.quads, ∀ e ∈ p.2.tlb, inScope v e.asid e.base (e.base + 2 ^ e.log) = false

theorem dropTlbs_noEntries (v : Nat × Nat × Nat × Nat) (s : State) : NoEntries v (s.dropTlbs v) := by
  have keep {l : List Tlb} {e : Tlb} (he : e ∈ l.filter (fun t => !inScope v t.asid t.base (t.base + 2 ^ t.log))) : inScope v e.asid e.base (e.base + 2 ^ e.log) = false := by
    simpa using (List.mem_filter.mp he).2
  constructor
  · intro p hp e he
    obtain ⟨q, -, rfl⟩ := List.mem_map.mp hp
    exact keep he
  · intro p hp e he
    obtain ⟨q, -, rfl⟩ := List.mem_map.mp hp
    exact keep he

/-- What becomes of a core beside its TLB. -/
theorem NoEntries.mapCores {v : Nat × Nat × Nat × Nat} {s t : State} (h : NoEntries v s) (f : Core → Core) (hf : ∀ k, (f k).tlb = k.tlb)
    (hc : t.cores = s.cores.map (fun p => (p.1, f p.2))) (hq : t.quads = s.quads) : NoEntries v t := by
  obtain ⟨hcores, hquads⟩ := h
  refine ⟨fun p hp e he => ?_, fun p hp => hquads p (hq ▸ hp)⟩
  rw [hc] at hp
  obtain ⟨q, hqm, rfl⟩ := List.mem_map.mp hp
  exact hcores q hqm e (hf q.2 ▸ he)

theorem invalDone_completes {s : State} {v : Nat × Nat × Nat × Nat} (hv : s.inval = some v) (hold : s.usesOld v = false)
    (hwc : ∀ p ∈ s.cores, (s.core (Sys2Proof.Machine.coreOf p.1)).wc.any (s.wcOld v) = false) :
    s.invalDone.inval = none ∧ s.invalDone.tc 0x8018 = 0 ∧ NoEntries v s.invalDone := by
  have hnone : ((s.cores.map (fun p => Sys2Proof.Machine.coreOf p.1)).filter (fun c => (s.core c).wc.any (s.wcOld v))).isEmpty = true := by
    rw [List.isEmpty_iff, List.filter_eq_nil_iff]
    intro c hc
    obtain ⟨p, hp, rfl⟩ := List.mem_map.mp hc
    rw [hwc p hp]
    exact Bool.false_ne_true
  rw [State.invalDone, hv]
  dsimp only
  rw [if_neg (by rw [hold]; exact Bool.false_ne_true), if_neg (by rw [hnone]; exact Bool.false_ne_true)]
  exact ⟨rfl, tc_setTc _ 0x8018 0, (dropTlbs_noEntries v _).mapCores (fun k => { k with icache := [], l1 := [] }) (fun _ => rfl) rfl rfl⟩

/-- Settles O50: each event by its branches. -/
theorem walksFaultsInvalidations : Obligations.WalksFaultsInvalidations := by
  unfold Obligations.WalksFaultsInvalidations
  refine ⟨?walk, ?answer, ?unknown, ?enters, ?joins, ?starts, ?busy, ?completes⟩
  case walk =>
    intro s die q u i x hq hw hx hwait s1
    exact ⟨fun tr h => ⟨_, rfl, walk_fills hq hw hx hwait h⟩, fun c h => ⟨_, rfl, walk_faults hq hw hx hwait h⟩⟩
  case answer =>
    intro s die idx f u i x hstarted hf hw hx hwait s1 others hno hnoEngine
    obtain ⟨hretry, hfail⟩ := answerFault_one hf hw
    have hno' : (s.freed die idx).faultWaits (.slice u i) = false := (freed_faultWaits s die idx _).trans hno
    have hnoEngine' : (s.freed die idx).faultWaits (.engine (.slice u i)) = false := (freed_faultWaits s die idx _).trans hnoEngine
    constructor
    · refine ⟨_, rfl, ?_⟩
      have hl := leafImages_frame (s.freed die idx) f.asid f.va
      obtain ⟨hsl, hm, hd⟩ := answered_slice (s := (s.freed die idx).leafImages f.asid f.va) (u := u) (i := i) (x := x) f [] (by rw [hl]; exact hx) hwait
        (by rw [hl]; exact hno') (by rw [hl]; exact hnoEngine')
      rw [awake_started hstarted, hretry]
      refine ⟨hsl.trans (by rw [List.append_nil]), hm.trans (by rw [hl]; rfl), ?_⟩
      refine (congrArg Die.faults (die_of_dies hd die)).trans ?_
      rw [hl]
      exact freed_faults s die idx
    · refine ⟨_, rfl, ?_⟩
      obtain ⟨hsl, hm, hd⟩ := answered_slice (s := s.freed die idx) (u := u) (i := i) (x := x) f
        [{ asid := f.asid, page := f.va / 4096, kind := if f.kind = kOwn then kProt else f.kind, cause := f.cause, replay := false, final := true }] hx hwait hno' hnoEngine'
      have he : (s.freed die idx).failOne f (.slice u i) = (s.freed die idx).answered (.slice u i) f
          [{ asid := f.asid, page := f.va / 4096, kind := if f.kind = kOwn then kProt else f.kind, cause := f.cause, replay := false, final := true }] :=
        if_pos (by rw [sl_of_slice (s := s.freed die idx) hx]; exact hwait)
      rw [awake_started hstarted, hfail, he]
      exact ⟨hm, (congrArg Die.faults (die_of_dies hd die)).trans (freed_faults s die idx), hsl⟩
  case unknown =>
    intro s die idx h
    exact ⟨⟨_, rfl, by rw [answerFault_none h]; exact awake_same s⟩, ⟨_, rfl, by rw [answerFault_none h]; exact awake_same s⟩⟩
  case enters =>
    intro s die f i d base hf hj hfree
    exact ⟨_, rfl, queueFault_enters hf hj hfree⟩
  case joins =>
    intro s die f g d hf hj
    exact ⟨_, rfl, queueFault_joins hf hj⟩
  case starts =>
    intro s hstarted h
    exact ⟨⟨_, rfl, by rw [awake_started hstarted]; exact invalidate_starts h 0 0 0⟩, fun a => ⟨_, rfl, by rw [awake_started hstarted]; exact invalidate_starts h 1 a.toNat 0⟩,
      fun a n => ⟨_, rfl, by rw [awake_started hstarted]; exact invalidate_starts h 2 a.toNat n.toNat⟩⟩
  case busy =>
    intro s h
    have hsame (scope asid npg : Nat) : s.awake (s.invalidate scope asid npg) = s := by
      rcases h with h | h
      · rw [invalidate_busy h, awake_same]
      · exact awake_stopped h
    exact ⟨⟨_, rfl, hsame 0 0 0⟩, fun a => ⟨_, rfl, hsame 1 a.toNat 0⟩, fun a n => ⟨_, rfl, hsame 2 a.toNat n.toNat⟩⟩
  case completes =>
    intro s v hv hold hwc
    exact ⟨_, rfl, invalDone_completes hv hold hwc⟩

end Sys2Proof.Machine

/-!
PROOFS. Storage errors, samples, and what the host complex reads, writes and sets up (R10, R49, R61, R68, R279, R326, R455, R456, R467,
R469, R471, R490, R493).
-/
namespace Sys2Proof.Machine

/-! ## Storage errors (R455, R456) -/

/-- From s to t neither memory nor the management plane's record has changed. -/
def MgmtKept (s t : State) : Prop := t.mem = s.mem ∧ t.mgmt = s.mgmt

theorem want_mgmtKept (s : State) (u : Nat) : MgmtKept s (s.want u) := by
  rw [State.want]
  split
  · exact ⟨rfl, rfl⟩
  · exact ⟨rfl, rfl⟩

theorem fenceCore_mgmtKept (s : State) (c : CoreId) : MgmtKept s (s.fenceCore c) := by
  have hstep (p : Nat × Team) (t : State) : MgmtKept t (if p.2.core = c ∧ p.2.status = .resident ∧ p.2.csa.isSome then t.want p.1 else t) :=
    iteInduction (motive := MgmtKept t) (fun _ => want_mgmtKept t p.1) (fun _ => ⟨rfl, rfl⟩)
  have h := foldS_same (fun s => (s.mem, s.mgmt)) (fun (p : Nat × Team) s => if p.2.core = c ∧ p.2.status = .resident ∧ p.2.csa.isSome then s.want p.1 else s) s.teams
    (fun p _ t => Prod.ext (hstep p t).1 (hstep p t).2) (s.modCore c (fun k => { k with fenced := true }))
  exact ⟨congrArg Prod.fst h, congrArg Prod.snd h⟩

/-- A lasting location is told of, whatever else it brings. -/
theorem lasting_mgmtKept (s : State) (die : Nat) (loc : ErrLoc) : MgmtKept (s.tell (.lasting die loc (s.cyc die))) (s.lasting die loc) := by
  cases loc with
  | regFile c e => exact fenceCore_mgmtKept _ c
  | sram c b => exact fenceCore_mgmtKept _ c
  | _ => exact ⟨rfl, rfl⟩

theorem correctedError_first {s : State} {die : Nat} {loc l : ErrLoc} (hl : s.errPlace loc = some l) (hnew : (s.die die).errors.find? (fun e => e.loc == l) = none)
    (hroom : (s.die die).errors.length < 64) : ((s.correctedError die loc).die die).errors = (s.die die).errors ++ [{ loc := l, count := 1, first := s.cyc die }] ∧
      (s.correctedError die loc).mem = s.mem ∧ (s.correctedError die loc).mgmt = s.mgmt := by
  rw [State.correctedError, hl]
  dsimp only
  rw [State.countError]
  dsimp only
  rw [hnew]
  dsimp only
  refine ⟨(congrArg Die.errors (die_modDie_self s die _)).trans (if_pos hroom), rfl, rfl⟩

theorem correctedError_third {s : State} {die : Nat} {loc l : ErrLoc} {e : ErrEntry} (hl : s.errPlace loc = some l)
    (he : (s.die die).errors.find? (fun e => e.loc == l) = some e) (hrecent : s.cyc die - e.first < 2 ^ 32) (hcount : e.count = 2) :
    (s.correctedError die loc).mem = s.mem ∧ (s.correctedError die loc).mgmt.reports = s.mgmt.reports ++ [.lasting die l (s.cyc die)] := by
  let e' : ErrEntry := if s.cyc die - e.first < 2 ^ 32 then { e with count := e.count + 1 } else { loc := l, count := 1, first := s.cyc die }
  let s1 := s.modDie die (fun d => { d with errors := d.errors.map (fun x => if x = e then e' else x) })
  have hc : e'.count = 3 := by rw [show e' = { e with count := e.count + 1 } from if_pos hrecent, hcount]
  have hs : s.correctedError die loc = s1.lasting die l := by
    rw [State.correctedError, hl]
    dsimp only
    rw [State.countError]
    dsimp only
    rw [he]
    exact if_pos hc
  have hcyc : s1.cyc die = s.cyc die := by
    rw [State.cyc, die_modDie_self]
    rfl
  obtain ⟨hmem, hmgmt⟩ := lasting_mgmtKept s1 die l
  rw [hs]
  exact ⟨hmem, (congrArg Mgmt.reports hmgmt).trans (by rw [hcyc]; rfl)⟩

/-- A line is poisoned. -/
theorem homeBad_mset (s : State) (line v l : Nat) : ({ s with poison := mset s.poison line v } : State).homeBad l = if l = line then v else s.homeBad l := by
  rw [State.homeBad, State.homeBad, mget_mset]
  by_cases h : l = line
  · rw [if_pos h, if_pos h.symm]
    rfl
  · rw [if_neg h, if_neg (Ne.symm h)]

/-- A byte of a scratchpad is poisoned. -/
theorem scrPoison_lose {s : State} {u : Nat} {tm : Team} (ht : s.team u = some tm) (off o : Nat) (v : Byte) :
    ((s.scrWrite u off [v]).modTeam u (fun t => { t with scrBad := t.scrBad ++ [off] })).scrPoison u o 1 = (o == off || s.scrPoison u o 1) := by
  have h1 : (s.scrWrite u off [v]).team u = _ := team_modTeam_self _ ht
  rw [State.scrPoison, State.scrPoison, team_modTeam_self _ h1, ht]
  dsimp only
  rw [List.any_append, Bool.eq_iff_iff]
  simp only [Bool.or_eq_true, List.any_eq_true, List.mem_filter, List.mem_singleton, Bool.and_eq_true, decide_eq_true_eq, Bool.not_eq_true', beq_iff_eq,
    List.length_singleton, exists_eq_left]
  constructor
  · rintro (⟨b, ⟨hb, -⟩, h⟩ | h)
    · exact Or.inr ⟨b, hb, h⟩
    · exact Or.inl (by omega)
  · rintro (rfl | ⟨b, hb, h⟩)
    · exact Or.inr (by omega)
    · by_cases hoff : b = off
      · exact Or.inr (by omega)
      · refine Or.inl ⟨b, ⟨hb, ?_⟩, h⟩
        rw [Bool.and_eq_false_iff, decide_eq_false_iff_not, decide_eq_false_iff_not]
        omega

/-! ## Samples (R471) -/

/-- What a sample says of a slice. -/
def State.sampleOf (s : State) (c : CoreId) (u i : Nat) (x : Slice) : Option (List Byte) :=
  match x.issued with
  | some (n, pc) => if n = s.cyc c.die then s.sampleRecord u i 0 true pc else s.sampleRecord u i (s.stallReason u i) false x.pc
  | none => s.sampleRecord u i (s.stallReason u i) false x.pc

theorem sampleTake_only {s : State} {c : CoreId} {u age i : Nat} (h : s.sampled c = [(u, age, i)]) :
    s.sampleTake c = s.modCore c (fun k => { k with lastSample := some (age, i), samples := k.samples ++ (s.sampleOf c u i (s.sl u i)).toList }) := by
  have hhead (p : Nat × Nat × Nat → Bool) : ∃ r, [(u, age, i)].filter p ++ [(u, age, i)] = (u, age, i) :: r := by
    rw [List.filter_cons, List.filter_nil]
    cases p (u, age, i) with
    | true => exact ⟨_, rfl⟩
    | false => exact ⟨_, rfl⟩
  rw [State.sampleTake, h]
  dsimp only
  cases (s.core c).lastSample with
  | none => rfl
  | some q =>
    obtain ⟨r, hr⟩ := hhead (fun e => decide (q.1 < e.2.1) || (e.2.1 == q.1 && decide (q.2 < e.2.2)))
    dsimp only
    rw [hr]
    rfl

theorem sampleCycles_off {s : State} {c : CoreId} (n : Nat) (h : s.feature 7 = false ∨ bits (s.ge 0x22228) 31 0 = 0 ∨ s.sampled c = []) : s.sampleCycles c n = s :=
  if_pos (h.imp (fun h => by rw [h]; rfl) (Or.imp_right fun h => by rw [h]; rfl))

/-- A period that does not expire. -/
theorem sampleCycles_within {s : State} {c : CoreId} {n : Nat} (hf : s.feature 7 = true) (hp : bits (s.ge 0x22228) 31 0 ≠ 0) (hs : s.sampled c ≠ [])
    (hn : (s.core c).sampled + n < max (bits (s.ge 0x22228) 31 0) 64) :
    (s.sampleCycles c n).core c = { s.core c with sampled := (s.core c).sampled + n } ∧ (s.sampleCycles c n).cyc c.die = s.cyc c.die := by
  have hs' : (s.sampled c).isEmpty = false := by simpa using hs
  have he : s.sampleCycles c n = (s.modCore c (fun k => { k with sampled := k.sampled + n })).modDie c.die (fun d => { d with cyc := s.cyc c.die }) := by
    refine (if_neg (by rw [hf, hs']; simp [hp])).trans ?_
    have hcount : s.sampleCount c (max (bits (s.ge 0x22228) 31 0) 64) (n / max (bits (s.ge 0x22228) 31 0) 64 + 2) n = s.modCore c (fun k => { k with sampled := k.sampled + n }) :=
      if_pos (by omega)
    rw [hcount]
  rw [he]
  exact ⟨core_modCore s c (fun k => { k with sampled := k.sampled + n }), congrArg Die.cyc (die_modDie_self _ c.die _)⟩

/-! ## Registers (R10) -/

theorem fieldWrite_lt {old val : Nat} (rw_ w1c : Nat) (ho : old < 2 ^ 64) (hv : val < 2 ^ 64) : fieldWrite old val rw_ w1c < 2 ^ 64 :=
  Nat.or_lt_two_pow (Nat.xor_lt_two_pow ho (Nat.lt_of_le_of_lt Nat.and_le_left ho)) (Nat.lt_of_le_of_lt Nat.and_le_left hv)

/-- A writable bit takes the value's. -/
theorem testBit_fieldWrite_rw {old val rw_ w1c i : Nat} (h : rw_.testBit i = true) : (fieldWrite old val rw_ w1c).testBit i = val.testBit i := by
  rw [fieldWrite, Nat.testBit_or, Nat.testBit_xor, Nat.testBit_and, Nat.testBit_or, Nat.testBit_and, Nat.testBit_and, h, Bool.true_or, Bool.and_true, Bool.and_true, Bool.xor_self, Bool.false_or]

/-- A register after a write under R10, and the others. -/
theorem plainWrite_ge {s : State} {off v : Nat} (rw_ w1c : Nat) (hv : v < 2 ^ 64) (o : Nat) :
    (s.setGe off (fieldWrite (s.ge off) v rw_ w1c)).ge o = if off = o then fieldWrite (s.ge off) v rw_ w1c else s.ge o := by
  rw [ge_setGe, Nat.mod_eq_of_lt (fieldWrite_lt rw_ w1c (ge_lt s off) hv)]

theorem clearSlots_ge (s : State) (off : Nat) : s.clearSlots.ge off = if 0x22500 ≤ off ∧ off < 0x22780 then 0 else s.ge off := by
  have h := mget_filter s.regs (fun a => !(decide (geBase + 0x22500 ≤ a) && decide (a < geBase + 0x22780))) (geBase + off)
  have he : s.clearSlots.ge off = ((mget (s.regs.filter (fun p => !(decide (geBase + 0x22500 ≤ p.1) && decide (p.1 < geBase + 0x22780)))) (geBase + off)).getD (regReset (geBase + off))).toNat := rfl
  rw [he, h]
  by_cases hr : 0x22500 ≤ off ∧ off < 0x22780
  · rw [if_pos hr, if_neg (by simp; omega), Option.getD_none, regReset, if_neg (by omega), if_neg (by omega), if_neg (by omega)]
    rfl
  · rw [if_neg hr, if_pos (by simp; omega)]
    rfl

theorem registerWrite_ge {s : State} {off : Nat} (hst : s.mgmt.started = true) (hoff : off < 0x40000) (halign : off % 8 = 0) (v : Nat) :
    s.registerWrite (geBase + off) v = s.geWrite off v := by
  have hmod : (geBase + off) % 8 = 0 := by unfold geBase; omega
  rw [State.registerWrite, if_neg (by rw [hst, hmod]; simp), if_pos (by omega), Nat.add_sub_cancel_left]

theorem registerWrite_tc {s : State} {off : Nat} (hst : s.mgmt.started = true) (hoff : off < 0x9000) (halign : off % 8 = 0) (v : Nat) :
    s.registerWrite (tcBase + off) v = s.tcWrite off v := by
  have hmod : (tcBase + off) % 8 = 0 := by unfold tcBase; omega
  rw [State.registerWrite, if_neg (by rw [hst, hmod]; simp), if_neg (by unfold geBase tcBase; omega), if_pos (by omega), Nat.add_sub_cancel_left]

/-- A register that has no behaviour of its own. -/
theorem geWrite_plain {s : State} {off : Nat} (v : Nat) (hhost : ¬ (off < 0x20000 ∧ (off % 0x1000 = 0 ∨ off % 0x1000 = 0x20))) (h38 : off ≠ 0x20038) (h40 : off ≠ 0x20040)
    (h50 : off ≠ 0x20050) (hport : ¬ (0x20200 ≤ off ∧ off < 0x20400)) (hclear : off ≠ 0x22780) (hpod : ¬ (0x3C000 ≤ off ∧ off < 0x3D000)) :
    s.geWrite off v = s.setGe off (fieldWrite (s.ge off) v (geRw off) (geW1c off)) := by
  rw [State.geWrite]
  dsimp only
  rw [if_neg (by omega), if_neg (by omega), if_neg h38, if_neg h40, if_neg h50, if_neg hport, if_neg hclear, if_neg hpod]

theorem geWrite_clear (s : State) (v : Nat) : s.geWrite 0x22780 v =
    if bitAt v 1 = true then (s.setGe 0x22780 (fieldWrite (s.ge 0x22780) v (geRw 0x22780) 0)).clearSlots else s.setGe 0x22780 (fieldWrite (s.ge 0x22780) v (geRw 0x22780) 0) := rfl

theorem geWrite_pod {s : State} {off : Nat} (v : Nat) (hlo : 0x3C000 ≤ off) (hhi : off < 0x3D000) :
    s.geWrite off v = (s.setGe off (fieldWrite (s.ge off) v (geRw off) 0)).podConfigure ((off - 0x3C000) / 16) := by
  have hw : geW1c off = 0 := if_neg (by omega)
  rw [State.geWrite]
  dsimp only
  rw [if_neg (by omega), if_neg (by omega), if_neg (by omega), if_neg (by omega), if_neg (by omega), if_neg (by omega), if_neg (by omega), if_pos ⟨hlo, hhi⟩, hw]

theorem podConfigure_rest (s : State) (i : Nat) : (s.podConfigure i).regs = s.regs ∧ (s.podConfigure i).mem = s.mem := by
  rw [State.podConfigure]
  split
  · exact ⟨rfl, rfl⟩
  · exact ⟨rfl, rfl⟩

/-- The endpoints of a configured port keep what they hold. -/
theorem geWrite_port {s : State} {p : Nat} (hp : p < 16) (hv : bitAt (s.ge (portOff p)) 63 = true) (v d : Nat) (hd : d = 8 ∨ d = 16) : s.geWrite (portOff p + d) v = s := by
  have hoff : portOff p + d = 0x20200 + 32 * p + d := rfl
  have hport : (portOff p + d - 0x20200) / 32 = p := by rw [hoff]; omega
  rw [State.geWrite]
  dsimp only
  rw [hport, if_neg (by omega), if_neg (by omega), if_neg (by omega), if_neg (by omega), if_neg (by omega), if_pos (by omega), if_neg (by omega), if_pos hv]

theorem tc_setTc_other (s : State) {off o : Nat} (v : Nat) (h : o ≠ off) : (s.setTc off v).tc o = s.tc o := by
  show ((mget (mset s.regs (tcBase + off) (BitVec.ofNat 64 v)) (tcBase + o)).getD (regReset (tcBase + o))).toNat = _
  rw [mget_mset, if_neg (by omega)]
  rfl

theorem tcWrite_plain {s : State} {off : Nat} (v : Nat) (hscope : off ≠ 0x8010) (hfact : ¬ (off < 0x8000 ∧ off % 0x1000 = 0x18)) :
    s.tcWrite off v = s.setTc off (fieldWrite (s.tc off) v (tcRw off) 0) := by
  rw [State.tcWrite, if_neg hscope, if_neg hfact]

/-! ## The contract table (R49, R61) -/

theorem hostRead_ct (s : State) {off : Nat} (h : off < 0x20000) : s.hostRead (ctBase + off) = s.ctRead off := by
  rw [State.hostRead, if_pos (by omega), Nat.add_sub_cancel_left]

/-- The two words of a number's entry. -/
theorem hostRead_entry (s : State) {n : Nat} (h : n < 4096) : s.hostRead (ctBase + 16 * n) = ((Config.contract? n).map (fun c => (Contract.entry c).1)).getD 0 ∧
    s.hostRead (ctBase + 16 * n + 8) = ((Config.contract? n).map (fun c => (Contract.entry c).2)).getD 0 := by
  constructor
  · rw [hostRead_ct s (by omega), State.ctRead, if_pos (by omega), show 16 * n / 16 = n by omega]
    cases Config.contract? n with
    | none => rfl
    | some c =>
      rw [Option.map_some, Option.getD_some]
      exact if_pos (by omega)
  · rw [Nat.add_assoc, hostRead_ct s (by omega), State.ctRead, if_pos (by omega), show (16 * n + 8) / 16 = n by omega]
    cases Config.contract? n with
    | none => rfl
    | some c =>
      rw [Option.map_some, Option.getD_some]
      exact if_neg (by omega)

/-- The fields of an entry (R49). -/
def EntryFields (c : Contract) : Prop :=
  bits (Contract.entry c).2 63 52 = c.num ∧ bits (Contract.entry c).2 51 44 = 0 ∧ bits (Contract.entry c).2 43 40 = c.pexp ∧ bits (Contract.entry c).2 39 32 = c.pfrac ∧ bits (Contract.entry c).2 28 24 = c.prom ∧
    bits (Contract.entry c).2 23 16 = c.align ∧ bits (Contract.entry c).2 15 13 = c.groupLog ∧ bitAt (Contract.entry c).2 12 = c.tree ∧ bitAt (Contract.entry c).2 11 = c.subnRes ∧ bitAt (Contract.entry c).2 10 = c.subnProd ∧
    bitAt (Contract.entry c).2 9 = c.subnIn ∧ bitAt (Contract.entry c).2 8 = c.gr ∧ RMode.ofCode .rne (bits (Contract.entry c).2 7 5) = c.rim ∧ RMode.ofCode .rne (bits (Contract.entry c).2 4 2) = c.rfm ∧
    bits (Contract.entry c).2 1 0 = c.ftab ∧ bitAt (Contract.entry c).1 63 = c.nan ∧ bits (Contract.entry c).1 62 59 = c.srv ∧ (Contract.entry c).1 % 2 ^ 59 = 0

theorem catalogue_fields : ∀ c ∈ Config.catalogue, c.num < 4096 ∧ Config.contract? c.num = some c ∧ EntryFields c := by
  unfold EntryFields
  decide

theorem entry_fields (s : State) {c : Contract} (hc : c ∈ Config.catalogue) :
    s.hostRead (ctBase + 16 * c.num) = (Contract.entry c).1 ∧ s.hostRead (ctBase + 16 * c.num + 8) = (Contract.entry c).2 ∧ EntryFields c := by
  obtain ⟨hn, hfind, hf⟩ := catalogue_fields c hc
  obtain ⟨hlo, hhi⟩ := hostRead_entry s hn
  rw [hfind, Option.map_some, Option.getD_some] at hlo hhi
  exact ⟨hlo, hhi, hf⟩

/-! ## Capability classes (R61) -/

theorem matrixClass_le (q : Quad) (n : Nat) : matrixClass q n ≤ 3 := by
  rw [matrixClass, stepDown]
  split
  · omega
  · split
    · omega
    · next h => omega

/-- The best class of a list: absent only where every one is. -/
theorem betterClass_foldl (f : Nat → Nat) (hf : ∀ q, f q ≤ 3) : ∀ (qs : List Nat) (b : Nat), b ≤ 3 →
    qs.foldl (fun b q => betterClass b (f q)) b ≤ 3 ∧ (qs.foldl (fun b q => betterClass b (f q)) b = 0 ↔ b = 0 ∧ ∀ q ∈ qs, f q = 0)
  | [], b, hb => ⟨hb, by simp⟩
  | q :: qs, b, hb => by
    have hfq := hf q
    have hle : betterClass b (f q) ≤ 3 := by
      rw [betterClass]
      split
      · exact hfq
      · split
        · exact hb
        · omega
    have hz : betterClass b (f q) = 0 ↔ b = 0 ∧ f q = 0 := by
      rw [betterClass]
      split
      · next h => simp [h]
      · next h =>
        split
        · next h' => simp [h, h']
        · next h' => omega
    obtain ⟨h1, h2⟩ := betterClass_foldl f hf qs (betterClass b (f q)) hle
    refine ⟨h1, h2.trans ?_⟩
    rw [hz, List.forall_mem_cons, and_assoc]

/-- The MATRIX class of the package. -/
def State.packageClass (s : State) (n : Nat) : Nat :=
  (List.range 256).foldl (fun b q => betterClass b (matrixClass (s.quad { die := q / 32, quad := q % 32, core := 0 }) n)) 0

theorem packageClass_eq (s : State) (n : Nat) : s.packageClass n ≤ 3 ∧
    (s.packageClass n = 0 ↔ ∀ d q, d < 8 → q < 32 → matrixClass (s.quad { die := d, quad := q, core := 0 }) n = 0) := by
  obtain ⟨hle, hz⟩ := betterClass_foldl (fun q => matrixClass (s.quad { die := q / 32, quad := q % 32, core := 0 }) n) (fun q => matrixClass_le _ n) (List.range 256) 0 (by omega)
  refine ⟨hle, hz.trans ⟨fun ⟨_, h⟩ d q hd hq => ?_, fun h => ⟨rfl, fun q hq => h _ _ (by have := List.mem_range.mp hq; omega) (by omega)⟩⟩⟩
  have h' := h (32 * d + q) (List.mem_range.mpr (by omega))
  rwa [show (32 * d + q) / 32 = d by omega, show (32 * d + q) % 32 = q by omega] at h'

theorem spliceClass_le (n : Nat) : spliceClass n ≤ 1 := iteInduction (motive := (· ≤ 1)) (fun _ => Nat.le_refl 1) (fun _ => Nat.zero_le 1)

theorem packageCapc_fields (s : State) (n : Nat) : s.packageCapc n < 2 ^ 32 ∧ s.packageCapc n / 64 = 0 ∧ bits (s.packageCapc n) 5 4 = spliceClass n ∧
    bits (s.packageCapc n) 1 0 = vectorClass n ∧ bits (s.packageCapc n) 3 2 = s.packageClass n := by
  have he : s.packageCapc n = spliceClass n * 16 + s.packageClass n * 4 + vectorClass n := rfl
  have h1 := spliceClass_le n
  have h2 : vectorClass n ≤ 1 := spliceClass_le n
  have h3 := (packageClass_eq s n).1
  rw [he]
  simp only [bits, Nat.shiftRight_eq_div_pow]
  omega

theorem hostRead_capc (s : State) {n : Nat} (h : n < 4096) : s.hostRead (ctBase + 0x10000 + 4 * n) % 2 ^ 32 = s.packageCapc n := by
  have h1 := (packageCapc_fields s n).1
  rw [Nat.add_assoc, hostRead_ct s (by omega), State.ctRead, if_neg (by omega), if_pos (by omega), show (0x10000 + 4 * n - 0x10000) / 4 = n by omega]
  omega

theorem hostRead_mxstat (s : State) {d q : Nat} (hd : d < 8) (hq : q < 32) :
    s.hostRead (geBase + 0x21000 + 8 * (32 * d + q)) = Quad.mxstat (s.quad { die := d, quad := q, core := 0 }) := by
  have hq' : (geBase + 0x21000 + 8 * (32 * d + q) - geBase - 0x21000) / 8 = 32 * d + q := by omega
  rw [State.hostRead, if_neg (by unfold geBase ctBase; omega), if_pos (by omega)]
  dsimp only
  rw [hq', show (32 * d + q) / 32 = d by omega, show (32 * d + q) % 32 = q by omega]

/-! ## Set-ups (R68) -/

theorem le_foldl_max : ∀ (cs : List Nat) (b : Nat), b ≤ cs.foldl max b ∧ ∀ x ∈ cs, x ≤ cs.foldl max b
  | [], b => ⟨Nat.le_refl b, fun _ h => nomatch h⟩
  | c :: cs, b => by
    obtain ⟨h1, h2⟩ := le_foldl_max cs (max b c)
    exact ⟨Nat.le_trans (Nat.le_max_left b c) h1, List.forall_mem_cons.mpr ⟨Nat.le_trans (Nat.le_max_right b c) h1, h2⟩⟩

theorem foldl_max_mem : ∀ (cs : List Nat) (b : Nat), cs.foldl max b = b ∨ cs.foldl max b ∈ cs
  | [], _ => Or.inl rfl
  | c :: cs, b => by
    rcases foldl_max_mem cs (max b c) with h | h
    · rw [List.foldl_cons, h]
      rcases Nat.le_total c b with hm | hm
      · exact Or.inl (Nat.max_eq_left hm)
      · rw [Nat.max_eq_right hm]
        exact Or.inr List.mem_cons_self
    · exact Or.inr (List.mem_cons_of_mem c h)

/-- The contract negotiated is the highest candidate, or the one requested. -/
theorem negotiate_some {s : State} {q : SetUp} {c : Nat} (h : s.negotiate q = some c) :
    c ∈ s.candidates q ∧ (q.request = 0 → ∀ x ∈ s.candidates q, x ≤ c) ∧ (q.request ≠ 0 → c = q.request) := by
  rw [State.negotiate] at h
  split at h
  · next h0 =>
    split at h
    · exact nomatch h
    · next hne =>
      obtain rfl : (s.candidates q).foldl max 0 = c := Option.some.inj h
      have hmax := (le_foldl_max (s.candidates q) 0).2
      refine ⟨?_, fun _ => hmax, fun hn => absurd h0 hn⟩
      rcases foldl_max_mem (s.candidates q) 0 with hz | hm
      · obtain ⟨x, hx⟩ := List.exists_mem_of_ne_nil _ (by simpa using hne)
        have := hmax x hx
        rw [hz] at this ⊢
        rwa [Nat.le_zero.mp this] at hx
      · exact hm
  · next h0 =>
    split at h
    · next hin =>
      obtain rfl : q.request = c := Option.some.inj h
      exact ⟨by simpa using hin, fun hz => absurd hz h0, fun _ => rfl⟩
    · exact nomatch h

theorem negotiate_none {s : State} {q : SetUp} (h : s.negotiate q = none) : (q.request = 0 → s.candidates q = []) ∧ q.request ∉ s.candidates q := by
  rw [State.negotiate] at h
  split at h
  · next h0 =>
    split at h
    · next he =>
      have hnil : s.candidates q = [] := by simpa using he
      exact ⟨fun _ => hnil, by rw [hnil]; exact List.not_mem_nil⟩
    · exact nomatch h
  · next h0 =>
    split at h
    · exact nomatch h
    · next hin => exact ⟨fun hz => absurd hz h0, by simpa using hin⟩

theorem candidates_lt {s : State} {q : SetUp} {c : Nat} (h : c ∈ s.candidates q) : c < 4096 := by
  obtain ⟨k, hk, rfl⟩ := List.mem_map.mp (List.mem_filter.mp h).1
  exact (catalogue_fields k hk).1

theorem setUp_none {s : State} {q : SetUp} (h : s.negotiate q = none) : (s.setUp q).mem = s.mem ∧ (s.setUp q).regs = s.regs := by
  have h0 : ({ s with setUps := s.setUps ++ [(q, s.negotiate q)] } : State).negotiate q = none := h
  rw [State.setUp]
  split
  · exact ⟨rfl, rfl⟩
  · dsimp only
    rw [h0]
    exact ⟨rfl, rfl⟩

/-- A word of a communicator record, as the host complex writes it. -/
theorem geWrite_comm (s : State) {slot i : Nat} (hs : slot < 256) (hi : i < 8) (v o : Nat) (hv : v < 2 ^ 64) :
    (s.geWrite (0x38000 + 64 * slot + 8 * i) v).ge o = if 0x38000 + 64 * slot + 8 * i = o then fieldWrite (s.ge (0x38000 + 64 * slot + 8 * i)) v (geRw (0x38000 + 64 * slot + 8 * i)) (geW1c (0x38000 + 64 * slot + 8 * i)) else s.ge o := by
  rw [geWrite_plain v (by omega) (by omega) (by omega) (by omega) (by omega) (by omega) (by omega), plainWrite_ge _ _ hv]

theorem word_lt (q : SetUp) (c i : Nat) : q.word c i < 2 ^ 64 := by
  rw [SetUp.word]
  have hw := (q.words.getD i 0).isLt
  split
  · exact hw
  · split
    · exact setBits_lt (by omega) (by omega) hw
    · exact setBits_lt (by omega) (by omega) hw

theorem geRw_comm {slot : Nat} (hs : slot < 256) : geRw (0x38000 + 64 * slot + 8 * 1) = ones 63 16 + ones 11 0 := by
  rw [geRw, if_neg (by omega), if_neg (by omega), if_neg (by omega), if_neg (by omega), if_neg (by omega), if_neg (by omega), if_neg (by omega), if_neg (by omega), if_neg (by omega),
    if_neg (by omega), if_neg (by omega), if_neg (by omega), if_neg (by omega), if_pos (by omega), show (0x38000 + 64 * slot + 8 * 1) % 64 / 8 = 1 by omega]
  rfl

/-- Word 1 of a communicator record: its contract. -/
theorem comm_contract {c slot : Nat} (hc : c < 4096) (hs : slot < 256) (old w w1c : Nat) :
    bits (fieldWrite old (setBits w 11 0 c) (geRw (0x38000 + 64 * slot + 8 * 1)) w1c) 11 0 = c := by
  have hrw : ∀ i, i < 12 → (ones 63 16 + ones 11 0).testBit i = true := by decide
  refine Nat.eq_of_testBit_eq fun i => ?_
  rw [testBit_bits, geRw_comm hs]
  by_cases hi : i < 12
  · rw [Nat.zero_add, testBit_fieldWrite_rw (hrw i hi), testBit_setBits (by omega), if_neg (by omega), if_pos (by omega)]
    simp [hi]
  · have hbit : c.testBit i = false := Nat.testBit_lt_two_pow (Nat.lt_of_lt_of_le hc (Nat.pow_le_pow_right (n := 2) (by omega) (show 12 ≤ i by omega)))
    simp [hi, hbit]

/-- The record of a communicator that a set-up makes names the contract negotiated. -/
theorem setUp_communicator {s : State} {q : SetUp} {c slot : Nat} (hn : s.negotiate q = some c) (hwhat : q.what = .communicator slot) (hs : slot < 256) (hst : s.mgmt.started = true) :
    bits ((s.setUp q).comm slot 8) 11 0 = c := by
  let base := 0x38000 + 64 * slot
  let s0 : State := { s with setUps := s.setUps ++ [(q, s.negotiate q)] }
  let after (is : List Nat) : State := foldS (fun i s => s.geWrite (base + 8 * i) (q.word c i)) is s0
  have he : s.setUp q = (((after [7, 6, 5, 4, 3, 2]).geWrite (base + 8 * 1) (q.word c 1)).geWrite (base + 8 * 0) (q.word c 0)) := by
    refine (if_neg (by rw [hst]; exact Bool.false_ne_true)).trans ?_
    have hn' : s0.negotiate q = some c := hn
    dsimp only
    rw [hn', hwhat]
    exact if_neg (by omega)
  have hword : q.word c 1 = setBits (q.words.getD 1 0).toNat 11 0 c := by
    rw [SetUp.word, hwhat]
    rfl
  rw [he, State.comm, geWrite_comm _ hs (by omega) _ _ (word_lt q c 0), if_neg (by omega), geWrite_comm _ hs (by omega) _ _ (word_lt q c 1), if_pos (by omega), hword]
  exact comm_contract (candidates_lt (negotiate_some hn).1) hs _ _ _

/-- Settles O51: each event and each read by its branches; a register write bit by bit. -/
theorem hostWritesErrorsSamples : Obligations.HostWritesErrorsSamples := by
  unfold Obligations.HostWritesErrorsSamples
  refine ⟨?first, ?third, ?hbm, ?l2, ?scratch, ?stopped, ?noSample, ?sample, ?take, ?cycles, ?clear, ?plain, ?counting, ?binding, ?port, ?tc, ?fact, ?nowhere, ?read, ?write,
    ?features, ?noEntry, ?entry, ?capc, ?mxstat, ?setUp⟩
  case first =>
    intro s die loc l hst hl hnew hroom
    refine ⟨_, rfl, ?_⟩
    rw [awake_started hst]
    exact correctedError_first hl hnew hroom
  case third =>
    intro s die loc l e hst hl he hrecent hcount
    refine ⟨_, rfl, ?_⟩
    rw [awake_started hst]
    exact correctedError_third hl he hrecent hcount
  case hbm =>
    intro s die pa hst
    refine ⟨_, rfl, ?_⟩
    rw [awake_started hst]
    exact ⟨fun l => homeBad_mset (s.tell (.uncorrectable die (.hbm pa) (s.cyc die))) (pa / 128) 4 l, rfl, rfl⟩
  case l2 =>
    intro s die pa hst
    refine ⟨_, rfl, ?_⟩
    rw [awake_started hst]
    exact ⟨fun l => homeBad_mset (s.tell (.uncorrectable die (.l2Line pa) (s.cyc die))) (pa / 128) 3 l, rfl⟩
  case scratch =>
    intro s die u tm off hst ht hoff
    refine ⟨_, rfl, ?_⟩
    let s1 : State := { s.tell (.uncorrectable die (.scratch u off) (s.cyc die)) with opens := s.opens + 1 }
    have he : s.uncorrectable die (.scratch u off) = (s1.scrWrite u off [(Config.freeWord s.opens).setWidth 8]).modTeam u (fun t => { t with scrBad := t.scrBad ++ [off] }) :=
      if_neg (Nat.not_le.mpr hoff)
    rw [awake_started hst, he]
    exact ⟨rfl, fun o => scrPoison_lose (s := s1) ht off o _⟩
  case stopped =>
    intro s die loc hst
    exact ⟨⟨_, rfl, awake_stopped hst⟩, ⟨_, rfl, awake_stopped hst⟩⟩
  case noSample =>
    intro s c h
    refine ⟨_, rfl, ?_⟩
    rw [State.stallSample, h]
  case sample =>
    intro s c r rest h
    have he : s.stallSample c = (s.ringWrite sampleRing r).modCore c (fun k => { k with samples := rest }) := by rw [State.stallSample, h]
    refine ⟨_, rfl, ?_⟩
    rw [he]
    exact ⟨congrArg Core.samples (core_modCore _ c (fun k => { k with samples := rest })), rfl, ringWrite_teams s sampleRing r⟩
  case take =>
    intro s c u age i x hs hx rec_
    have hsl : s.sl u i = x := sl_of_slice hx
    rw [sampleTake_only hs, core_modCore, hsl]
    rfl
  case cycles =>
    intro s c n per
    exact ⟨sampleCycles_off n, sampleCycles_within⟩
  case clear =>
    intro s hst
    refine ⟨_, rfl, ?_⟩
    rw [awake_started hst]
    exact ⟨rfl, clearSlots_ge s⟩
  case plain =>
    intro s off val hst hoff halign hhost h38 h40 h50 hport hclear hpod
    refine ⟨_, rfl, ?_⟩
    rw [registerWrite_ge hst hoff halign, geWrite_plain _ hhost h38 h40 h50 hport hclear hpod]
    exact ⟨(plainWrite_ge _ _ val.isLt off).trans (if_pos rfl), fun o ho => (plainWrite_ge _ _ val.isLt o).trans (if_neg (Ne.symm ho)), rfl, rfl⟩
  case counting =>
    intro s val hst
    refine ⟨_, rfl, ?_⟩
    rw [registerWrite_ge hst (by omega) (by omega), geWrite_clear]
    by_cases hb : bitAt val.toNat 1 = true
    · rw [if_pos hb]
      refine ⟨rfl, ?_, fun o ho => ?_⟩
      · rw [clearSlots_ge, if_neg (by omega), plainWrite_ge _ _ val.isLt, if_pos rfl]
      · rw [clearSlots_ge, plainWrite_ge _ _ val.isLt, if_neg (Ne.symm ho)]
        simp only [hb, true_and]
    · rw [if_neg hb]
      refine ⟨rfl, (plainWrite_ge _ _ val.isLt _).trans (if_pos rfl), fun o ho => ?_⟩
      rw [plainWrite_ge _ _ val.isLt, if_neg (Ne.symm ho), if_neg (fun h => hb h.1)]
  case binding =>
    intro s off val hst hlo hhi halign
    refine ⟨_, rfl, ?_⟩
    rw [registerWrite_ge hst (by omega) halign, geWrite_pod _ hlo hhi]
    obtain ⟨hregs, hmem⟩ := podConfigure_rest (s.setGe off (fieldWrite (s.ge off) val.toNat (geRw off) 0)) ((off - 0x3C000) / 16)
    have hge (o : Nat) : ((s.setGe off (fieldWrite (s.ge off) val.toNat (geRw off) 0)).podConfigure ((off - 0x3C000) / 16)).ge o =
        (s.setGe off (fieldWrite (s.ge off) val.toNat (geRw off) 0)).ge o :=
      congrArg (fun m : Map DWord => ((mget m (geBase + o)).getD (regReset (geBase + o))).toNat) hregs
    exact ⟨(hge off).trans ((plainWrite_ge _ _ val.isLt off).trans (if_pos rfl)), fun o ho => (hge o).trans ((plainWrite_ge _ _ val.isLt o).trans (if_neg (Ne.symm ho))), hmem⟩
  case port =>
    intro s p val hst hp hv
    have hoff : portOff p = 0x20200 + 32 * p := rfl
    refine ⟨⟨_, rfl, ?_⟩, ⟨_, rfl, ?_⟩⟩
    · rw [Nat.add_assoc, registerWrite_ge hst (by omega) (by omega)]
      exact geWrite_port hp hv _ 8 (Or.inl rfl)
    · rw [Nat.add_assoc, registerWrite_ge hst (by omega) (by omega)]
      exact geWrite_port hp hv _ 16 (Or.inr rfl)
  case tc =>
    intro s off val hst hoff halign hscope hfact
    have hlt : s.tc off < 2 ^ 64 := (s.reg (tcBase + off)).isLt
    refine ⟨_, rfl, ?_⟩
    rw [registerWrite_tc hst hoff halign, tcWrite_plain _ hscope hfact]
    exact ⟨(tc_setTc s off _).trans (Nat.mod_eq_of_lt (fieldWrite_lt _ _ hlt val.isLt)), fun o ho => tc_setTc_other s _ ho, rfl⟩
  case fact =>
    intro s die val hst hdie hval
    refine ⟨_, rfl, ?_⟩
    rw [Nat.add_assoc, registerWrite_tc hst (by omega) (by omega), State.tcWrite, if_neg (by omega), if_pos (by omega), if_pos hval, show (0x1000 * die + 0x18) / 0x1000 = die by omega]
  case nowhere =>
    intro s pa val h
    exact ⟨_, rfl, if_pos (h.imp (fun h => by rw [h]; rfl) id)⟩
  case read =>
    intro s pa n
    exact ⟨_, rfl, rfl⟩
  case write =>
    intro s pa bs hst hne hreach hinv
    have hne' : bs.isEmpty = false := by simpa using hne
    have he : s.hostAccess (.write pa bs) = s.homeWrite pa bs := if_pos ⟨hst, by rw [hne']; rfl, hreach⟩
    refine ⟨_, rfl, ?_⟩
    rw [he]
    exact ⟨read_write bs s.mem pa hinv, fun a ha => get_write_out bs s.mem pa a hinv ha, rfl, rfl⟩
  case features =>
    intro s val hst
    refine ⟨fun h => ⟨_, rfl, ?_⟩, fun h => ⟨_, rfl, if_pos (Or.inl h)⟩⟩
    have he : s.featdrvWrite val.toNat = s.setGe 0x20050 (val.toNat % 256 &&& s.ge 0x20048) := if_neg (by rw [h, hst]; simp)
    rw [he]
    refine ⟨?_, rfl⟩
    rw [ge_setGe, if_pos rfl, Nat.mod_eq_of_lt (Nat.lt_of_le_of_lt Nat.and_le_right (ge_lt s 0x20048))]
  case noEntry =>
    intro s n hn h
    obtain ⟨hlo, hhi⟩ := hostRead_entry s hn
    rw [h] at hlo hhi
    exact ⟨hlo, hhi⟩
  case entry =>
    intro s c hc lo hi
    obtain ⟨hlo, hhi, hf⟩ := entry_fields s hc
    have hlo' : lo = (Contract.entry c).1 := hlo
    have hhi' : hi = (Contract.entry c).2 := hhi
    rw [hlo', hhi']
    exact hf
  case capc =>
    intro s n hn v
    have hv : v = s.packageCapc n := hostRead_capc s hn
    obtain ⟨-, hhigh, hsplice, hvector, hmatrix⟩ := packageCapc_fields s n
    rw [hv, hmatrix]
    exact ⟨hhigh, hsplice, hvector, (packageClass_eq s n).2⟩
  case mxstat =>
    intro s d q hd hq
    exact hostRead_mxstat s hd hq
  case setUp =>
    intro s q
    refine ⟨fun c h => negotiate_some h, fun h => ?_, fun c slot hn hwhat hs hst => setUp_communicator hn hwhat hs hst⟩
    obtain ⟨hnil, hnot⟩ := negotiate_none h
    exact ⟨hnil, hnot, setUp_none h⟩

end Sys2Proof.Machine

/-!
PROOFS. An agent's turn runs the instruction that its PC reads (R151, R153, R174, R177, R178).
-/
namespace Sys2Proof.Machine

/-! ## The choice of a slice offered alone (R178) -/

/-- The pick of a slice alone whose fetch gives an instruction of no home gang. -/
theorem pickLed_single {s : State} {x : Seat} {ins : Instr} {r : Raw} (hf : s.fetch (.slice x.team x.slice) = .ok ins r) (hc : crossLane r.op = false) :
    s.pickLed x [x] = .run ins (.gang x.team [x.slice]) := by
  have hg (ok : Nat → Bool) : gangOf x [x] ok = [x.slice] := by
    simp [gangOf, rotated, Seat.from_]
  rw [State.pickLed]
  dsimp only
  rw [hf]
  dsimp only
  rw [if_neg (by rw [hc]; exact Bool.false_ne_true), hg]

theorem apart_nil (s : State) (x : Seat) : s.apart [] x = true := by
  rw [State.apart, List.any_nil, Bool.and_false]
  rfl

theorem rotated_single (ptr : Nat × Nat) (x : Seat) : rotated ptr [x] = [x] := by
  simp only [rotated, List.filter_cons, List.filter_nil]
  cases x.from_ ptr with
  | true => rfl
  | false => rfl

theorem find?_only {α : Type} {p : α → Bool} {a : α} : ∀ {l : List α}, (∀ b ∈ l, b = a) → p a = true → l.find? p = none ∨ l.find? p = some a
  | [], _, _ => Or.inl rfl
  | b :: l, h, hp => by
    obtain rfl : b = a := h b List.mem_cons_self
    exact Or.inr (List.find?_cons_of_pos hp)

/-- The slice offered alone leads its pipe. -/
theorem leader_own {s : State} {c : CoreId} {x : Seat} {op : Op} (hop : s.opAt x = some op) (hover : ∀ y ∈ s.overdue c, y = x)
    (hw : s.wouldIssue x.team x.slice = true) : s.leader c (pipeOf op) [x] [] = some x := by
  have hpipe : s.pipeAt x = pipeOf op := by rw [State.pipeAt, hop]
  rw [State.leader]
  rcases find?_only (p := fun x => s.pipeAt x == pipeOf op && s.apart [] x) hover (by rw [hpipe, apart_nil]; simp) with h | h
  · rw [h, rotated_single]
    exact List.find?_cons_of_pos (by rw [State.seatReady, hw, hpipe, apart_nil]; simp)
  · rw [h]

/-- And no other. -/
theorem leader_other {s : State} {c : CoreId} {x : Seat} {op : Op} {p : Pipe} (hop : s.opAt x = some op) (hover : ∀ y ∈ s.overdue c, y = x) (hp : pipeOf op ≠ p) :
    s.leader c p [x] [] = none := by
  have hpipe : s.pipeAt x = pipeOf op := by rw [State.pipeAt, hop]
  have hne : (s.pipeAt x == p) = false := by rw [hpipe, beq_eq_false_iff_ne]; exact hp
  have hnone : (s.overdue c).find? (fun x => s.pipeAt x == p && s.apart [] x) = none := by
    refine List.find?_eq_none.mpr fun y hy => ?_
    rw [hover y hy, hne]
    exact Bool.false_ne_true
  rw [State.leader, hnone, rotated_single]
  dsimp only
  rw [List.find?_cons_of_neg (by rw [State.seatReady, hne, Bool.and_false]; exact Bool.false_ne_true), List.find?_nil]

/-- A pipe chooses the slice offered alone. -/
theorem choose_own {s : State} {c : CoreId} {x : Seat} {ins : Instr} {r : Raw} (hop : s.opAt x = some r.op) (hover : ∀ y ∈ s.overdue c, y = x)
    (hw : s.wouldIssue x.team x.slice = true) (hseat : (s.seats c).filter (fun y => y == x) = [x]) (hf : s.fetch (.slice x.team x.slice) = .ok ins r)
    (hc : crossLane r.op = false) : s.choose c (pipeOf r.op) [x] [] = some (.run ins (.gang x.team [x.slice]), s.movePtr c (pipeOf r.op) x) := by
  have hfilter : (s.seats c).filter (fun y => ([x].contains y || y == x) && !([] : List Seat).contains y) = [x] := by
    rw [← hseat]
    refine List.filter_congr fun y _ => ?_
    simp
  rw [State.choose, leader_own hop hover hw, Option.map_some, hfilter, pickLed_single hf hc]

theorem choose_other {s : State} {c : CoreId} {x : Seat} {op : Op} {p : Pipe} (hop : s.opAt x = some op) (hover : ∀ y ∈ s.overdue c, y = x) (hp : pipeOf op ≠ p) :
    s.choose c p [x] [] = none := by rw [State.choose, leader_other hop hover hp, Option.map_none]

/-- What a run of the slice alone comes to, with the number of pipes that issued. -/
def State.runAlone (s : State) (ins : Instr) (u j : Nat) : Result × Nat :=
  match s.run ins (.gang u [j]) with
  | .next t => (.next t, if s.issuedNow t u j then 1 else 0)
  | o => (o, 0)

theorem pipesUsed_single (s t : State) (ins : Instr) (u j : Nat) : s.pipesUsed t (.run ins (.gang u [j])) = if s.issuedNow t u j then 1 else 0 := by
  rw [State.pipesUsed, List.any_cons, List.any_nil, Bool.or_false]

/-- A core whose one offered slice is ready for its instruction, with no trap due. -/
theorem coreActs_single {s : State} {c : CoreId} {x : Seat} {ins : Instr} {r : Raw} (hdue : s.dueTrap x.team x.slice = none)
    (hop : ((s.prepare [x]).allocPass c).opAt x = some r.op) (hover : ∀ y ∈ ((s.prepare [x]).allocPass c).overdue c, y = x)
    (hw : ((s.prepare [x]).allocPass c).wouldIssue x.team x.slice = true) (hseat : (((s.prepare [x]).allocPass c).seats c).filter (fun y => y == x) = [x])
    (hf : ((s.prepare [x]).allocPass c).fetch (.slice x.team x.slice) = .ok ins r) (hc : crossLane r.op = false) :
    s.coreActs c [x] false = (((s.prepare [x]).allocPass c).movePtr c (pipeOf r.op) x).runAlone ins x.team x.slice := by
  have hdues : [x].filter (fun x => (s.dueTrap x.team x.slice).isSome) = [] := by
    rw [List.filter_cons_of_neg (by rw [hdue]; exact Bool.false_ne_true), List.filter_nil]
  have hkept : [x].filter (fun x => !([] : List Seat).contains x) = [x] := rfl
  have hfilter : (((s.prepare [x]).allocPass c).seats c).filter (fun y => [x].contains y && !([] : List Seat).contains y) = [x] := by
    refine Eq.trans (List.filter_congr fun y _ => ?_) hseat
    rw [Bool.eq_iff_iff]
    simp
  rw [State.coreActs]
  dsimp only
  rw [hdues, hkept, foldS_nil, hfilter]
  cases hp : pipeOf r.op with
  | memory =>
    have hch := choose_own hop hover hw hseat hf hc
    rw [hp] at hch
    rw [hch]
    dsimp only
    rw [State.act, State.runAlone]
    cases hrun : (((s.prepare [x]).allocPass c).movePtr c .memory x).run ins (.gang x.team [x.slice]) with
    | next t =>
      dsimp only
      rw [if_pos (by rfl), pipesUsed_single]
    | _ => rfl
  | vector =>
    have hch := choose_own hop hover hw hseat hf hc
    rw [hp] at hch
    rw [choose_other (p := .memory) hop hover (by rw [hp]; exact fun h => nomatch h)]
    dsimp only
    rw [State.vectorActs, hch]
    dsimp only
    rw [State.act, State.runAlone]
    cases hrun : (((s.prepare [x]).allocPass c).movePtr c .vector x).run ins (.gang x.team [x.slice]) with
    | next t =>
      dsimp only
      rw [pipesUsed_single, Nat.zero_add]
    | _ => rfl

theorem coreTurn_runAlone {s s2 : State} {c : CoreId} {x : Seat} {ins : Instr} {u j : Nat} (h : s.coreActs c [x] false = s2.runAlone ins u j) :
    s.coreTurn c [x] false = andThen (s2.run ins (.gang u [j])) (fun t => .next (t.pass c.die 1 [(c, if s2.issuedNow t u j then 1 else 0)])) := by
  rw [State.coreTurn, h, State.runAlone]
  cases s2.run ins (.gang u [j]) with
  | next t => rfl
  | _ => rfl

/-! ## A context's turn (R27, R315) -/

theorem pickCtx_run {s : State} {m : Bool} {c : CoreId} {ins : Instr} {r : Raw} (hok : c.ok = true) (hrun : (s.ctx (ctxKey c m)).run = .running)
    (hpend : (s.ctx (ctxKey c m)).pend = []) (hy : (s.ctx (ctxKey c m)).yieldEnd ≤ s.cyc c.die) (hf : s.fetch (.ctx (ctxKey c m)) = .ok ins r)
    (hready : s.ctxReady (ctxKey c m) r = true) : s.pickCtx m c = .run ins (.ctx m c) := by
  rw [State.pickCtx]
  rw [if_neg (by rw [hrun, hok]; simp; omega), hpend]
  dsimp only
  rw [hf]
  exact if_pos hready

/-! ## After the instruction -/

theorem fetch_ok {s : State} {a : Issuer} {w0 ws : List Word} {ins : Instr} {r : Raw} (halign : s.pcOf a % 4 = 0) (h0 : s.fetchWords a (s.pcOf a) 1 = .ok w0)
    (hs : s.fetchWords a (s.pcOf a + 4) ((lenOf (w0.getD 0 0)).words - 1) = .ok ws) (hd : decodeWords (w0 ++ ws) = .ok ins) (hr : ins.raw = some r) :
    s.fetch a = .ok ins r := by
  rw [State.fetch]
  rw [if_neg (by rw [halign]; exact not_not_intro rfl), h0]
  dsimp only
  rw [hs]
  dsimp only
  rw [hd]
  dsimp only
  rw [hr]

/-- Memory, the agent that acts and every slice are the same. -/
structure CoreOnly (s t : State) : Prop where
  mem : t.mem = s.mem
  cur : t.cur = s.cur
  teams : t.teams = s.teams

theorem keepPipe_coreOnly (s : State) (u : Nat) (r : Raw) : CoreOnly s (s.keepPipe u r) := by
  rw [State.keepPipe]
  split
  · exact iteInduction (motive := CoreOnly s) (fun _ => ⟨rfl, rfl, rfl⟩) (fun _ => ⟨rfl, rfl, rfl⟩)
  · exact ⟨rfl, rfl, rfl⟩

theorem countSlots_coreOnly (s : State) (pc cls n : Nat) : CoreOnly s (s.countSlots pc cls n) := by
  rw [State.countSlots]
  split
  · exact ⟨rfl, rfl, rfl⟩
  · exact ⟨rfl, rfl, rfl⟩

theorem addSlots_coreOnly (s : State) (pc : Nat) (ns : List Nat) : CoreOnly s (s.addSlots pc ns) where
  mem := foldS_same (fun s => s.mem) (fun (p : Nat × Nat) s => s.countSlots pc p.2 p.1) _ (fun p _ t => (countSlots_coreOnly t pc p.2 p.1).mem) s
  cur := foldS_same (fun s => s.cur) (fun (p : Nat × Nat) s => s.countSlots pc p.2 p.1) _ (fun p _ t => (countSlots_coreOnly t pc p.2 p.1).cur) s
  teams := foldS_same (fun s => s.teams) (fun (p : Nat × Nat) s => s.countSlots pc p.2 p.1) _ (fun p _ t => (countSlots_coreOnly t pc p.2 p.1).teams) s

theorem CoreOnly.trans {s t w : State} (h : CoreOnly s t) (g : CoreOnly t w) : CoreOnly s w := ⟨g.mem.trans h.mem, g.cur.trans h.cur, g.teams.trans h.teams⟩

/-- A slice after its instruction has had its turn, done or waiting. -/
def Slice.turned (x : Slice) (since : Nat) (issued : Option (Nat × Nat)) : Slice :=
  { x with readySince := since, grant := x.grant && x.wait != .none, starved := x.starved && x.wait != .none, due := if x.wait = .none then 0 else x.due,
           icount := if issued.isSome then x.icount + 1 else x.icount, issued := if issued.isSome then issued else x.issued }

theorem slice_modSlice_self {s : State} {u j : Nat} {x : Slice} (f : Slice → Slice) (h : s.slice u j = some x) : (s.modSlice u j f).slice u j = some (f x) := by
  rw [slice_modSlice, if_pos ⟨rfl, rfl⟩, h]
  rfl

/-- A slice changed where a condition holds. -/
theorem slice_foldS_filter {s : State} {u j : Nat} {x : Slice} (p : Nat → Bool) (f : Slice → Slice) (h : s.slice u j = some x) :
    (foldS (fun i s => s.modSlice u i f) ([j].filter p) s).slice u j = some (if p j then f x else x) := by
  rw [List.filter_cons, List.filter_nil]
  cases p j with
  | true => exact slice_modSlice_self f h
  | false => exact h

theorem foldS_modSlice_coreKept (u : Nat) (f : Slice → Slice) (is : List Nat) (s : State) :
    (foldS (fun i s => s.modSlice u i f) is s).mem = s.mem ∧ (foldS (fun i s => s.modSlice u i f) is s).cur = s.cur :=
  ⟨foldS_same (fun s => s.mem) (fun i s => State.modSlice s u i f) is (fun _ _ _ => rfl) s, foldS_same (fun s => s.cur) (fun i s => State.modSlice s u i f) is (fun _ _ _ => rfl) s⟩

/-- What a turn leaves of a slice before the counts: it is ready afresh, and done with its entries where it does not wait. -/
def State.readied (t : State) (u j since : Nat) : State :=
  let t1 := State.modSlice { t with cur := .idle } u j (fun x => { x with readySince := since })
  foldS (fun i t => t.modSlice u i (fun x => { x with grant := false, starved := false, due := 0 })) ([j].filter (t1.hasIssued u)) t1

theorem readied_slice {t : State} {u j : Nat} {x : Slice} (since : Nat) (hx : t.slice u j = some x) :
    (t.readied u j since).slice u j = some { x with readySince := since, grant := x.grant && x.wait != .none, starved := x.starved && x.wait != .none, due := if x.wait = .none then 0 else x.due } := by
  have h1 : (State.modSlice { t with cur := .idle } u j (fun x => { x with readySince := since })).slice u j = some { x with readySince := since } :=
    slice_modSlice_self (s := { t with cur := .idle }) _ hx
  have hdone : (State.modSlice { t with cur := .idle } u j (fun x => { x with readySince := since })).hasIssued u j = (x.wait == .none) := by
    rw [State.hasIssued, h1]
  refine (slice_foldS_filter _ _ h1).trans ?_
  rw [hdone]
  by_cases hw : x.wait = .none
  · simp [hw]
  · have hb : (x.wait == .none) = false := beq_eq_false_iff_ne.mpr hw
    simp [hw, hb, bne]

theorem counted_slice {s t : State} {ins : Instr} {r : Raw} {u j : Nat} {x : Slice} (hr : ins.raw = some r) (hx : t.slice u j = some x) :
    (s.counted (.gang u [j]) ins t).mem = t.mem ∧ (s.counted (.gang u [j]) ins t).cur = .idle ∧ (s.counted (.gang u [j]) ins t).slice u j =
      some (x.turned ((s.die (s.dieOf (.gang u [j]))).open_ + 1) (if s.issuedNow t u j then some (s.cyc (s.dieOf (.gang u [j])), (s.sl u j).pc) else none)) := by
  let since := (s.die (s.dieOf (.gang u [j]))).open_ + 1
  let count (x : Slice) : Slice := { x with icount := x.icount + 1, issued := some (s.cyc (s.dieOf (.gang u [j])), (s.sl u j).pc) }
  let did := [j].filter (s.issuedNow { t with cur := .idle } u)
  let t3 := foldS (fun i t => t.modSlice u i count) did (t.readied u j since)
  have hone : CoreOnly t3 (s.counted (.gang u [j]) ins t) := by
    unfold State.counted
    rw [hr]
    dsimp only
    refine iteInduction (motive := CoreOnly t3) (fun _ => ⟨rfl, rfl, rfl⟩) (fun _ => ?_)
    refine iteInduction (motive := CoreOnly t3) (fun _ => ?_) (fun _ => keepPipe_coreOnly t3 u r)
    exact (keepPipe_coreOnly t3 u r).trans (addSlots_coreOnly _ _ _)
  obtain ⟨hm3, hc3⟩ := foldS_modSlice_coreKept u count did (t.readied u j since)
  obtain ⟨hm2, hc2⟩ := foldS_modSlice_coreKept u (fun x => { x with grant := false, starved := false, due := 0 })
    ([j].filter ((State.modSlice { t with cur := .idle } u j (fun x => { x with readySince := since })).hasIssued u)) (State.modSlice { t with cur := .idle } u j (fun x => { x with readySince := since }))
  refine ⟨hone.mem.trans (hm3.trans hm2), hone.cur.trans (hc3.trans hc2), (slice_of_teams hone.teams u j).trans ?_⟩
  refine (slice_foldS_filter _ count (readied_slice since hx)).trans ?_
  have hi : s.issuedNow { t with cur := .idle } u j = s.issuedNow t u j := rfl
  rw [hi]
  cases s.issuedNow t u j with
  | true => rfl
  | false => rfl

/-- Settles O57: the choice of the one slice offered, or of the one context served, then what runs and what is counted. -/
theorem stepRunsDecodedInstruction : Obligations.StepRunsDecodedInstruction := by
  unfold Obligations.StepRunsDecodedInstruction
  refine ⟨?gang, ?ctx, ?fetch, ?word, ?code, ?fault, ?next, ?counted⟩
  case gang =>
    intro s rest u j tm ins r hin s0 c x s1 s2 hst ht hb hpress hoff hdue hseat hover hop hf hc hw
    have hturn : step s = s0.turn (.gang u [j]) := by
      have hdie : s0.dieOf (.gang u [j]) = c.die := by rw [State.dieOf, ht]
      have hstep : step s = s0.input (.issue (.gang u [j])) := by
        rw [step, State.advanceOne, hin]
      have hst0 : s0.mgmt.started = true := hst
      rw [hstep, State.input, if_neg (by rw [hst0]; exact Bool.false_ne_true)]
      exact if_neg (by rw [hdie, hpress]; exact Bool.false_ne_true)
    have hcore : s0.turn (.gang u [j]) = s0.coreTurn c [x] false := by
      have hdie : s0.dieOf (.gang u [j]) = c.die := by rw [State.dieOf, ht]
      rw [State.turn, hdie, if_neg (by rw [hb]; exact Bool.false_ne_true), ht]
      dsimp only
      rw [hoff]
    have hacts : s0.coreActs c [x] false = s2.runAlone ins u j := coreActs_single (x := x) hdue hop hover hw hseat hf hc
    exact hturn.trans (hcore.trans (coreTurn_runAlone hacts))
  case ctx =>
    intro s rest m c ins r hin s0 k hst hok hb hpress hnext hrun hpend hy hf hready
    have hstep : step s = s0.input (.issue (.ctx m c)) := by
      rw [step, State.advanceOne, hin]
    have hst0 : s0.mgmt.started = true := hst
    rw [hstep, State.input, if_neg (by rw [hst0]; exact Bool.false_ne_true)]
    refine (if_neg (by show ¬ s0.pressed c.die = true; rw [hpress]; exact Bool.false_ne_true)).trans ?_
    rw [State.turn]
    refine (if_neg (by show ¬ (s0.die c.die).inBubble = true; rw [hb]; exact Bool.false_ne_true)).trans ?_
    rw [State.ctxActs, hnext, pickCtx_run hok hrun hpend hy hf hready]
    rfl
  case fetch =>
    intro s a w0 ws ins r halign h0 hs hd hr
    exact fetch_ok halign h0 hs hd hr
  case word =>
    intro s c n pa cache
    rw [State.codeWord]
    cases (if cache = 2 then none else mget (s.core c).icache (codeKey n pa)) with
    | none => rfl
    | some w => rfl
  case code =>
    intro s ins a
    obtain ⟨hcores, hcode⟩ := withCode_same s ins a
    exact ⟨hcores, fun c => hcode c⟩
  case fault =>
    intro s ins a f h
    rw [State.run, h]
  case next =>
    intro s ins a t h
    rw [State.run, h]
  case counted =>
    intro s t ins r u j x hr hx v since
    obtain ⟨hm, hcur, hsl⟩ := counted_slice (s := s) hr hx
    refine ⟨hm, hcur, hsl.trans ?_⟩
    cases hi : s.issuedNow t u j with
    | true => rfl
    | false => rfl

end Sys2Proof.Machine

/-!
PROOFS. What every step keeps: memory in its canonical form. The accessors, the cells and messages of links, and the memory hierarchy.
-/
namespace Sys2Proof

/-- Memory stays in canonical form while it is the same. -/
theorem MemInv.of_mem {s t : Machine.State} (h : MemInv s) (e : t.mem = s.mem) : MemInv t := by rwa [MemInv, e]

end Sys2Proof

namespace Sys2Proof.Machine

theorem ite_memInv {c : Prop} [Decidable c] {a b : State} (ha : MemInv a) (hb : MemInv b) : MemInv (if c then a else b) :=
  iteInduction (fun _ => ha) (fun _ => hb)

theorem ite_snd_memInv {α : Type} {c : Prop} [Decidable c] {a b : α × State} (ha : MemInv a.2) (hb : MemInv b.2) : MemInv (if c then a else b).2 :=
  iteInduction (motive := fun p : α × State => MemInv p.2) (fun _ => ha) (fun _ => hb)

theorem ite_fst_memInv {α : Type} {c : Prop} [Decidable c] {a b : State × α} (ha : MemInv a.1) (hb : MemInv b.1) : MemInv (if c then a else b).1 :=
  iteInduction (motive := fun p : State × α => MemInv p.1) (fun _ => ha) (fun _ => hb)

theorem foldS_memInv {α : Type} {f : α → State → State} {as : List α} {s : State} (h : MemInv s) (hf : ∀ a s, MemInv s → MemInv (f a s)) : MemInv (foldS f as s) :=
  foldS_keeps MemInv f hf as s h

section
variable {s : State} (h : MemInv s)
include h

theorem awake_memInv {t} (ht : MemInv t) : MemInv (s.awake t) := ite_memInv ht h

/-! ## Components by key -/

theorem modTeam_memInv {u f} : MemInv (s.modTeam u f) := .of_mem h rfl

theorem modSlice_memInv {u i f} : MemInv (s.modSlice u i f) := modTeam_memInv h

theorem setCtx_memInv {k x} : MemInv (s.setCtx k x) := .of_mem h rfl

theorem modCtx_memInv {k f} : MemInv (s.modCtx k f) := setCtx_memInv h

theorem modCore_memInv {c f} : MemInv (s.modCore c f) := (modCore_memStep ..).inv h

theorem modQuad_memInv {c f} : MemInv (s.modQuad c f) := .of_mem h rfl

theorem modDie_memInv {d f} : MemInv (s.modDie d f) := (modDie_memStep ..).inv h

theorem modTask_memInv {n f} : MemInv (s.modTask n f) := .of_mem h rfl

theorem modOp_memInv {id f} : MemInv (s.modOp id f) := .of_mem h rfl

theorem addOp_memInv {m} : MemInv (s.addOp m) := .of_mem h rfl

theorem modMgmt_memInv {f} : MemInv (s.modMgmt f) := .of_mem h rfl

theorem tell_memInv {r} : MemInv (s.tell r) := modMgmt_memInv h

/-! ## Register regions (R79, R87, R93, R106, R125, R326, R383, R390, R423, R435, R463 to R469, R491) -/

theorem setReg_memInv {pa v} : MemInv (s.setReg pa v) := .of_mem h rfl

theorem setGe_memInv {off v} : MemInv (s.setGe off v) := setReg_memInv h

theorem setTc_memInv {off v} : MemInv (s.setTc off v) := setReg_memInv h

/-! ## Fresh values -/

theorem free_memInv : MemInv s.free.2 := .of_mem h rfl

theorem sendCell_memInv {link cls k last p} : MemInv (s.sendCell link cls k last p) := .of_mem h rfl

omit h in
theorem sendCells_memInv {link cls k} : ∀ ps {s}, MemInv s → MemInv (s.sendCells link cls k ps)
  | [], _, h => h
  | [_], _, h => sendCell_memInv h
  | _ :: q :: ps, _, h => sendCells_memInv (q :: ps) (sendCell_memInv h)

theorem slot_memInv {link} : MemInv (s.slot link) := by
  unfold State.slot
  dsimp only
  split
  · exact .of_mem h rfl
  · exact .of_mem h rfl

/-! ## Pod barrier slots (R378, R380) -/

theorem podTold_memInv {x2} : MemInv (s.podTold x2) := by
  unfold State.podTold
  split
  · exact .of_mem h rfl
  · exact h

theorem spliceTold_memInv {m} : MemInv (s.spliceTold m) := .of_mem h rfl

/-! ## Messages that set out (R387, R388, R390) -/

theorem send_memInv {m} : MemInv (s.send m) := ite_memInv (spliceTold_memInv (podTold_memInv (sendCells_memInv _ h))) (.of_mem h (by rfl))

theorem flushSends_memInv : MemInv s.flushSends :=
  List.foldlRecOn (motive := MemInv) s.toSend _ (.of_mem h (by rfl)) fun _ h _ _ => send_memInv h

theorem sendOpen_memInv {m} : MemInv (s.sendOpen m) := send_memInv (.of_mem h (by rfl))

/-! ## Pod accesses (R391) -/

theorem podAsk_memInv {c node} : MemInv (s.podAsk c node) := sendCell_memInv h

theorem podPut_memInv {c node data} : MemInv (s.podPut c node data) := sendCell_memInv (sendCell_memInv h)

/-! ## Publishing (R366) -/

theorem publish_memInv {p} : MemInv (s.publish p) := .of_mem h rfl

theorem publishSlice_memInv {u i} : MemInv (s.publishSlice u i) := publish_memInv h

theorem publishTask_memInv {serial} : MemInv (s.publishTask serial) := publish_memInv h

/-! ## The home (R279) -/

theorem homeWrite_memInv {pa bs} : MemInv (s.homeWrite pa bs) := homeWrite_inv pa bs h

/-! ## The RDC (R281 to R283) -/

theorem rdcDrop_memInv {die line} : MemInv (s.rdcDrop die line) := (rdcDrop_memStep ..).inv h

theorem engineRead_memInv {c pa cache n} : MemInv (s.engineRead c pa cache n).2 := (engineRead_memStep ..).inv h

/-! ## Pod accesses of engines and contexts (R284, R391) -/

theorem podRead_memInv {c pa n} : MemInv (s.podRead c pa n).2 := by
  refine foldS_memInv h (fun _ _ h => ?_)
  split
  · exact podAsk_memInv h
  · exact h

theorem podWrite_memInv {c pa bs} : MemInv (s.podWrite c pa bs) := by
  refine homeWrite_memInv (foldS_memInv h (fun _ _ h => ?_))
  split
  · exact podPut_memInv h
  · exact h

/-! ## The L1 (R275, R276) -/

theorem maskedWrite_memInv {die line data mask} : MemInv (s.maskedWrite die line data mask) := (maskedWrite_memStep ..).inv h

theorem l1BackAll_memInv {c} : MemInv (s.l1BackAll c) := (l1BackAll_memStep ..).inv h

theorem l1Drop_memInv {c line} : MemInv (s.l1Drop c line) := (l1Drop_memStep ..).inv h

theorem l1Read_memInv {c pa cache n byp} : MemInv (s.l1Read c pa cache n byp).2 := (l1Read_memStep ..).inv h

theorem l1Write_memInv {c pa cache bs byp} : MemInv (s.l1Write c pa cache bs byp) := (l1Write_memStep ..).inv h

theorem l1Reads_memInv {c cache sp} : MemInv (s.l1Reads c cache sp).2 := (l1Reads_memStep ..).inv h

theorem engineWrite_memInv {c pa bs} : MemInv (s.engineWrite c pa bs) := (engineWrite_memStep ..).inv h

/-! ## The write-combining buffer (R284 to R286) -/

theorem wcDrain_memInv {c p} : MemInv (s.wcDrain c p) := (wcDrain_memStep ..).inv h

theorem wcFull_memInv {c} : MemInv (s.wcFull c) := wcDrain_memInv h

theorem wcStore_memInv {c team op pa bs t} (e : s.wcStore c team op pa bs = some t) : MemInv t := by
  rw [State.wcStore] at e
  dsimp only at e
  split at e
  · cases e
    exact wcFull_memInv (modCore_memInv h)
  · split at e
    · cases e
      exact wcFull_memInv (modCore_memInv (.of_mem h (by rfl)))
    · cases e

theorem wcOldest_memInv {c} : MemInv (s.wcOldest c) := by
  unfold State.wcOldest
  split
  · exact h
  · exact wcDrain_memInv h

theorem wcPerform_memInv {c id} : MemInv (s.wcPerform c id) := by
  unfold State.wcPerform
  split
  · exact h
  · refine .of_mem (maskedWrite_memInv ?_) (by rfl)
    split
    · exact podPut_memInv h
    · exact h

theorem wcAck_memInv {c id} : MemInv (s.wcAck c id) := ite_memInv (modCore_memInv (wcPerform_memInv h)) h

/-! ## Releases and acquires of a core (R276, R282, R283) -/

theorem releaseL1_memInv {c scope} : MemInv (s.releaseL1 c scope) := (releaseL1_memStep ..).inv h

theorem acquire_memInv {c scope} : MemInv (s.acquire c scope) := (acquire_memStep ..).inv h

/-! ## Scratchpads (R99, R278) -/

theorem scrWrite_memInv {u off bs} : MemInv (s.scrWrite u off bs) := modTeam_memInv h

theorem hide_memInv {old w p bs} : MemInv (s.hide old w p bs) := by
  unfold State.hide
  dsimp only
  split
  · exact .of_mem h rfl
  · split
    · exact modTeam_memInv h
    · exact h

end

end Sys2Proof.Machine

/-!
PROOFS. Memory stays canonical: walks, faults and records, and the operations on slices, teams and contexts, traps among them.
-/
namespace Sys2Proof.Machine

section
variable {s : State} (h : MemInv s)
include h

/-! ## Accesses -/

theorem askWalk_memInv {r va w} : MemInv (s.askWalk r va w) := (askWalk_memStep ..).inv h

theorem tlbFill_memInv {c t} : MemInv (s.tlbFill c t) := modQuad_memInv (modCore_memInv h)

/-! ## The fault rings (R122, R126) -/

theorem raiseFault_memInv {r va kind cause acc w} : MemInv (s.raiseFault r va kind cause acc w) := modDie_memInv h

theorem rawWrite_memInv {pa bs} : MemInv (s.rawWrite pa bs) := ite_memInv (homeWrite_memInv h) h

theorem queueFault_memInv {die} : MemInv (s.queueFault die) := by
  unfold State.queueFault
  dsimp only
  split
  · exact h
  · split
    · exact rawWrite_memInv (modDie_memInv h)
    · split
      · exact h
      · exact setTc_memInv (setTc_memInv (rawWrite_memInv (.of_mem h (by rfl))))

/-! ## Rings -/

theorem ringWrite_memInv {r rec} : MemInv (s.ringWrite r rec) := ite_memInv (setGe_memInv (homeWrite_memInv h)) (ite_memInv h (setGe_memInv h))

/-! ## Trace and samples (R467, R468, R471) -/

theorem trace_memInv {u i kind pc ma mb scope aux} : MemInv (s.trace u i kind pc ma mb scope aux) := by
  unfold State.trace
  split
  · exact h
  · exact ite_memInv (ringWrite_memInv h) h

/-! ## Region edges (R464) -/

theorem regionEdge_memInv {u i pc id leave} : MemInv (s.regionEdge u i pc id leave) := by
  refine ite_memInv h ?_
  split
  · exact modSlice_memInv h
  · exact ite_memInv (modSlice_memInv h) h

/-! ## Watches (R466) -/

theorem watch_memInv {u i pc kinds amask eas} : MemInv (s.watch u i pc kinds amask eas) := by
  refine ite_memInv h ?_
  dsimp only
  split
  · exact h
  · exact modSlice_memInv h

/-! ## The lane-cycle record (R469, R470) -/

theorem countSlots_memInv {pc cls n} : MemInv (s.countSlots pc cls n) := by
  unfold State.countSlots
  split
  · exact h
  · exact setGe_memInv h

theorem addSlots_memInv {pc ns} : MemInv (s.addSlots pc ns) := foldS_memInv h (fun _ _ h => countSlots_memInv h)

theorem countIdle_memInv {c n} : MemInv (s.countIdle c n) := by
  unfold State.countIdle
  dsimp only
  split
  · exact h
  · split
    · exact countSlots_memInv h
    · exact h

/-! ## Agents -/

theorem setPc_memInv {a pc} : MemInv (s.setPc a pc) := by
  unfold State.setPc
  split
  · exact modSlice_memInv h
  · exact modCtx_memInv h

theorem setWait_memInv {a w} : MemInv (s.setWait a w) := by
  unfold State.setWait
  split
  · exact modSlice_memInv h
  · exact modCtx_memInv h

theorem setWaitAt_memInv {a w m} : MemInv (s.setWaitAt a w m) := by
  unfold State.setWaitAt
  split
  · exact modSlice_memInv h
  · exact setWait_memInv h

theorem advance_memInv {a len} : MemInv (s.advance a len) := by
  unfold State.advance
  split
  · exact modSlice_memInv h
  · exact modCtx_memInv h

/-! ## Edges and early release (R41, R44, R489) -/

theorem satisfyEdges_memInv {serial} : MemInv (s.satisfyEdges serial) := .of_mem h rfl

theorem earlyRelease_memInv {serial} : MemInv (s.earlyRelease serial) := by
  unfold State.earlyRelease
  split
  · exact h
  · exact ite_memInv (satisfyEdges_memInv (modTask_memInv h)) h

/-! ## Barriers (R376, R378, R384) -/

theorem settleBars_memInv {u} : MemInv (s.settleBars u) := modTeam_memInv h

theorem settleLevel_memInv {serial key} : MemInv (s.settleLevel serial key) := by
  unfold State.settleLevel
  split
  · exact h
  · exact ite_memInv (.of_mem h (by rfl)) h

theorem podSend_memInv {k u c} : MemInv (s.podSend k u c) := by
  unfold State.podSend
  split
  · exact sendOpen_memInv h
  · exact h

theorem podLeave_memInv {u k} : MemInv (s.podLeave u k) := ite_memInv h (podSend_memInv h)

theorem levelArrive_memInv {u key} : MemInv (s.levelArrive u key) := by
  unfold State.levelArrive
  split
  · exact h
  · split
    · exact ite_memInv (settleLevel_memInv (modTask_memInv (ite_memInv (podSend_memInv h) h))) h
    · exact h

theorem settleLevels_memInv {u} : MemInv (s.settleLevels u) := by
  unfold State.settleLevels
  split
  · exact h
  · exact foldS_memInv h (fun _ _ h => levelArrive_memInv h)

/-! ## Lanes and slices that end (R173 to R175, R483) -/

theorem sliceEnd_memInv {u i} : MemInv (s.sliceEnd u i) := modTeam_memInv h

theorem normalize_memInv {u i} : MemInv (s.normalize u i) := by
  unfold State.normalize
  split
  · exact h
  · exact ite_memInv (sliceEnd_memInv (foldS_memInv (modSlice_memInv h) (fun _ _ h => trace_memInv h)))
      (foldS_memInv (modSlice_memInv h) (fun _ _ h => trace_memInv h))

theorem dropWrites_memInv {u i m exit} : MemInv (s.dropWrites u i m exit) := .of_mem h rfl

theorem endLanes_memInv {u i m exit} : MemInv (s.endLanes u i m exit) := by
  unfold State.endLanes
  dsimp only
  split
  · exact ite_memInv (settleLevels_memInv (settleBars_memInv (normalize_memInv (modTeam_memInv (dropWrites_memInv h)))))
      (earlyRelease_memInv (settleLevels_memInv (settleBars_memInv (normalize_memInv (modTeam_memInv (dropWrites_memInv h))))))
  · exact settleLevels_memInv (settleBars_memInv (normalize_memInv (modTeam_memInv (dropWrites_memInv h))))

theorem killSlice_memInv {u i} : MemInv (s.killSlice u i) := by
  unfold State.killSlice
  dsimp only
  split
  · exact earlyRelease_memInv (settleLevels_memInv (settleBars_memInv (sliceEnd_memInv (modTeam_memInv (dropWrites_memInv h)))))
  · exact settleLevels_memInv (settleBars_memInv (sliceEnd_memInv (modTeam_memInv (dropWrites_memInv h))))

theorem killTeam_memInv {u} : MemInv (s.killTeam u) := by
  unfold State.killTeam
  split
  · exact h
  · exact foldS_memInv (modTeam_memInv h) (fun _ _ h => killSlice_memInv h)

/-! ## Writes to the context save area (R440, R496) -/

theorem csaWrite_memInv {u off bs t} (e : s.csaWrite u off bs = .done t) : MemInv t := (csaWrite_memStep e).inv h

theorem areaWrite_memInv {w} : MemInv (s.areaWrite w) := (areaWrite_tasksKept ..).inv h

theorem frameReg_memInv {u i d n lane w} : MemInv (s.frameReg u i d n lane w) := (frameReg_tasksKept ..).inv h

/-! ## Taking a trap (R437, R439) -/

theorem trapEnd_memInv {u kind cause pc} : MemInv (s.trapEnd u kind cause pc) := by
  unfold State.trapEnd
  dsimp only
  split
  · exact areaWrite_memInv h
  · exact killTeam_memInv (modTeam_memInv (ite_memInv (areaWrite_memInv h) (modTask_memInv (areaWrite_memInv h))))

theorem frameResults_memInv {u i d} : MemInv (s.frameResults u i d) := .of_mem h rfl

theorem takeTrapAt_memInv {u i p fpc rpc nest restore} : MemInv (s.takeTrapAt u i p fpc rpc nest restore) := by
  unfold State.takeTrapAt
  split
  · refine ite_memInv (trapEnd_memInv h) ?_
    dsimp only
    split
    · exact trapEnd_memInv h
    · exact setWait_memInv (raiseFault_memInv h)
    case h_3 t e => exact modSlice_memInv (frameResults_memInv (csaWrite_memInv h e))
  · exact h

theorem takeTrap_memInv {u i p} : MemInv (s.takeTrap u i p) := takeTrapAt_memInv h

/-! ## Sequencer contexts stopped (R446, R449) -/

theorem ctxDone_memInv {k} : MemInv (s.ctxDone k) := by
  unfold State.ctxDone
  split
  · exact h
  · split
    · exact ite_memInv (modTeam_memInv h) h
    · exact h

theorem stopCtx_memInv {k p} : MemInv (s.stopCtx k p) := ctxDone_memInv (modCtx_memInv (areaWrite_memInv h))

theorem trapOne_memInv {a kind cause va aux amask} : MemInv (s.trapOne a kind cause va aux amask) := by
  unfold State.trapOne
  dsimp only
  split
  · exact ite_memInv (setWait_memInv h) (takeTrap_memInv h)
  · exact ite_memInv (setWait_memInv h) (stopCtx_memInv h)

theorem trapAll_memInv {x kind cause va} : MemInv (s.trapAll x kind cause va) :=
  ite_memInv (foldS_memInv h (fun _ _ h => setWait_memInv h)) (foldS_memInv h (fun _ _ h => trapOne_memInv h))

theorem sticky_memInv {u kind} : MemInv (s.sticky u kind) := areaWrite_memInv h

end

end Sys2Proof.Machine

/-!
PROOFS. Memory stays canonical: branches, the instructions that act lane by lane, and the faults of a log.
-/
namespace Sys2Proof.Machine

section
variable {s : State} (h : MemInv s)
include h

/-! ## Names -/

theorem takeOver_memInv {a ns m} : MemInv (s.takeOver a ns m) := .of_mem h rfl

theorem takeOverK_memInv {u i ns} : MemInv (s.takeOverK u i ns) := .of_mem h rfl

/-! ## Results -/

theorem commit_memInv {r a m dst f} : MemInv (s.commit r a m dst f) := by
  refine ite_memInv (trapOne_memInv h) (advance_memInv ?_)
  split
  · exact modSlice_memInv (takeOver_memInv h)
  · exact modCtx_memInv (takeOver_memInv h)

theorem perLane_memInv {r dst f} : MemInv (perLane r dst f s) := foldS_memInv h (fun _ _ h => commit_memInv h)

/-! ## Branching (R182 to R187) -/

theorem branchOne_memInv {r a q dst f t tgt join} : MemInv (s.branchOne r a q dst f t tgt join) := by
  unfold State.branchOne
  dsimp only
  split
  · refine ite_memInv (trapOne_memInv h) ?_
    split
    · exact trapOne_memInv h
    · exact ite_memInv (modSlice_memInv (takeOver_memInv h)) (trace_memInv (modSlice_memInv (takeOver_memInv h)))
  · exact modCtx_memInv (takeOver_memInv h)

theorem bodyBra_memInv {r} : MemInv (bodyBra r s) := foldS_memInv h (fun _ _ h => branchOne_memInv h)

theorem bodyBrx_memInv {r} : MemInv (bodyBrx r s) := foldS_memInv h (fun _ _ h => branchOne_memInv h)

theorem bodyCall_memInv {r} : MemInv (bodyCall r s) := foldS_memInv h (fun _ _ h => branchOne_memInv h)

theorem bodyCallx_memInv {r} : MemInv (bodyCallx r s) := foldS_memInv h (fun _ _ h => branchOne_memInv h)

theorem bodyRet_memInv {r} : MemInv (bodyRet r s) := foldS_memInv h (fun _ _ h => ite_memInv (branchOne_memInv h) (trapOne_memInv h))

/-! ## NOP, YIELD, regions, PLOP (R189 to R192) -/

theorem bodyNop_memInv {r} : MemInv (bodyNop r s) := foldS_memInv h (fun _ _ h => advance_memInv h)

theorem bodyYield_memInv {r} : MemInv (bodyYield r s) := by
  refine foldS_memInv h (fun _ _ h => ite_memInv (advance_memInv h) ?_)
  dsimp only
  split
  · exact modSlice_memInv (advance_memInv h)
  · exact modCtx_memInv (advance_memInv h)

theorem setRegion_memInv {a g} : MemInv (s.setRegion a g) := by
  unfold State.setRegion
  split
  · exact modSlice_memInv h
  · exact modCtx_memInv h

theorem edge_memInv {a pc id leave} : MemInv (s.edge a pc id leave) := by
  unfold State.edge
  split
  · exact regionEdge_memInv h
  · exact h

theorem bodyEnter_memInv {r} : MemInv (bodyEnter r s) := by
  unfold bodyEnter
  exact foldS_memInv h (fun _ _ h => ite_memInv (trapOne_memInv h) (edge_memInv (advance_memInv (setRegion_memInv h))))

theorem bodyLeave_memInv {r} : MemInv (bodyLeave r s) := by
  unfold bodyLeave
  refine foldS_memInv h (fun _ _ h => ?_)
  split
  · exact trapOne_memInv h
  · exact ite_memInv (trapOne_memInv h) (edge_memInv (advance_memInv (setRegion_memInv h)))

theorem bodyPlop_memInv {r} : MemInv (bodyPlop r s) := perLane_memInv h

/-! ## Special registers (R193 to R195) -/

theorem bodySmov_memInv {r} : MemInv (bodySmov r s) := perLane_memInv h

theorem bodySset_memInv {r} : MemInv (bodySset r s) := by
  unfold bodySset
  refine perLane_memInv ?_
  split
  · exact h
  · exact modTeam_memInv h

/-! ## Ending lanes (R188) -/

theorem seqEnd_memInv {k len} : MemInv (s.seqEnd k len) := ite_memInv (setWait_memInv h) (ctxDone_memInv (modCtx_memInv h))

theorem bodyExit_memInv {r} : MemInv (bodyExit r s) := by
  refine foldS_memInv h (fun _ _ h => ?_)
  dsimp only
  split
  · exact ite_memInv (advance_memInv h) (ite_memInv (setWait_memInv h) (endLanes_memInv (advance_memInv h)))
  · exact ite_memInv (advance_memInv h) (seqEnd_memInv h)

theorem bodyKill_memInv {r} : MemInv (bodyKill r s) := by
  refine foldS_memInv h (fun _ _ h => ?_)
  dsimp only
  split
  · exact ite_memInv (advance_memInv h) (endLanes_memInv (advance_memInv h))
  · exact ite_memInv (advance_memInv h) (seqEnd_memInv h)

/-! ## Lane results -/

theorem bodyMov_memInv {r} : MemInv (bodyMov r s) := perLane_memInv h

theorem bodyAddSub_memInv {r base sub} : MemInv (bodyAddSub r base sub s) := perLane_memInv h

theorem bodyCarry_memInv {r sub} : MemInv (bodyCarry r sub s) := by
  unfold bodyCarry
  exact perLane_memInv h

theorem bodyImul_memInv {r} : MemInv (bodyImul r s) := perLane_memInv h

theorem bodyImulh_memInv {r} : MemInv (bodyImulh r s) := perLane_memInv h

theorem bodyImad_memInv {r} : MemInv (bodyImad r s) := perLane_memInv h

theorem bodyImad64_memInv {r} : MemInv (bodyImad64 r s) := perLane_memInv h

theorem bodyMinMax_memInv {r isMax} : MemInv (bodyMinMax r isMax s) := perLane_memInv h

theorem bodyIabs_memInv {r} : MemInv (bodyIabs r s) := perLane_memInv h

theorem bodyLogic_memInv {r} : MemInv (bodyLogic r s) := perLane_memInv h

theorem bodyShift_memInv {r} : MemInv (bodyShift r s) := perLane_memInv h

theorem bodyShf_memInv {r} : MemInv (bodyShf r s) := perLane_memInv h

theorem bodyRot_memInv {r} : MemInv (bodyRot r s) := perLane_memInv h

theorem bodyBfx_memInv {r} : MemInv (bodyBfx r s) := perLane_memInv h

theorem bodyBfi_memInv {r} : MemInv (bodyBfi r s) := perLane_memInv h

theorem bodyPopc_memInv {r} : MemInv (bodyPopc r s) := perLane_memInv h

theorem bodyClz_memInv {r} : MemInv (bodyClz r s) := perLane_memInv h

theorem bodyBrev_memInv {r} : MemInv (bodyBrev r s) := perLane_memInv h

theorem bodyPerm_memInv {r} : MemInv (bodyPerm r s) := perLane_memInv h

theorem bodyIcmp_memInv {r} : MemInv (bodyIcmp r s) := perLane_memInv h

theorem bodyIsel_memInv {r} : MemInv (bodyIsel r s) := perLane_memInv h

theorem bodyLea_memInv {r} : MemInv (bodyLea r s) := perLane_memInv h

theorem putK_memInv {u i n wide v} : MemInv (s.putK u i n wide v) := modTeam_memInv h

theorem bodyKmov_memInv {r} : MemInv (bodyKmov r s) := by
  unfold bodyKmov
  refine perLane_memInv (foldS_memInv h (fun _ _ h => ?_))
  split
  · exact putK_memInv (takeOverK_memInv h)
  · exact h

theorem bodyArith_memInv {r base op} : MemInv (bodyArith r base op s) := by
  unfold bodyArith
  exact perLane_memInv h

theorem bodyPacked_memInv {r op} : MemInv (bodyPacked r op s) := by
  unfold bodyPacked
  exact perLane_memInv h

theorem bodyFmin_memInv {r isMax} : MemInv (bodyFmin r isMax s) := perLane_memInv h

theorem bodyHmin_memInv {r isMax} : MemInv (bodyHmin r isMax s) := by
  unfold bodyHmin
  exact perLane_memInv h

theorem bodyFcmp_memInv {r base} : MemInv (bodyFcmp r base s) := by
  unfold bodyFcmp
  exact perLane_memInv h

theorem bodyFclass_memInv {r} : MemInv (bodyFclass r s) := by
  refine ite_memInv (foldS_memInv h (fun _ _ h => ?_)) (perLane_memInv h)
  dsimp only
  split
  · exact ite_memInv (modSlice_memInv (commit_memInv h)) (commit_memInv h)
  · exact commit_memInv h

theorem bodyFscale_memInv {r} : MemInv (bodyFscale r s) := perLane_memInv h

theorem bodyFdiv_memInv {r} : MemInv (bodyFdiv r s) := by
  unfold bodyFdiv
  exact perLane_memInv h

theorem bodyFsqrt_memInv {r} : MemInv (bodyFsqrt r s) := by
  unfold bodyFsqrt
  exact perLane_memInv h

theorem bodyTable_memInv {r g} : MemInv (bodyTable r g s) := perLane_memInv h

theorem bodyFdot_memInv {r} : MemInv (bodyFdot r s) := by
  unfold bodyFdot
  exact perLane_memInv h

/-! ## Conversion (R257, R258) -/

theorem bodyCvt_memInv {r} : MemInv (bodyCvt r s) := by
  unfold bodyCvt
  exact perLane_memInv h

theorem bodyCvtpk_memInv {r} : MemInv (bodyCvtpk r s) := by
  unfold bodyCvtpk
  exact perLane_memInv h

/-! ## Block quantisation (R259, R260) -/

theorem bodyQblk_memInv {r} : MemInv (bodyQblk r s) := by
  unfold bodyQblk
  exact perLane_memInv h

theorem bodyDqblk_memInv {r} : MemInv (bodyDqblk r s) := perLane_memInv h

/-! ## VQDEC (R261) -/

theorem bodyVqdec_memInv {r} : MemInv (bodyVqdec r s) := by
  unfold bodyVqdec
  exact perLane_memInv h

/-! ## SRSEED (R263) -/

theorem bodySrseed_memInv {r} : MemInv (bodySrseed r s) := by
  refine foldS_memInv h (fun _ _ h => ?_)
  dsimp only
  split
  · exact modSlice_memInv (commit_memInv h)
  · exact commit_memInv h

/-! ## Cross-lane instructions (R265 to R271) -/

theorem bodyXshf_memInv {r} : MemInv (bodyXshf r s) := perLane_memInv h

theorem bodyXbcast_memInv {r} : MemInv (bodyXbcast r s) := perLane_memInv h

theorem bodyXred_memInv {r} : MemInv (bodyXred r s) := by
  unfold bodyXred
  exact perLane_memInv h

theorem bodyXscan_memInv {r} : MemInv (bodyXscan r s) := by
  unfold bodyXscan
  exact perLane_memInv h

theorem bodyXdot_memInv {r} : MemInv (bodyXdot r s) := by
  unfold bodyXdot
  exact perLane_memInv h

theorem bodyXvote_memInv {r} : MemInv (bodyXvote r s) := by
  unfold bodyXvote
  exact perLane_memInv h

theorem bodyXmatch_memInv {r} : MemInv (bodyXmatch r s) := perLane_memInv h

/-! ## Ending a task by force (R485, R487) -/

theorem stopHeld_memInv {k} : MemInv (s.stopHeld k) := ite_memInv (stopCtx_memInv h) h

theorem abortTask_memInv {serial f} : MemInv (s.abortTask serial f) :=
  foldS_memInv (foldS_memInv (modTask_memInv h) (fun _ _ h => stopHeld_memInv h)) (fun _ _ h => modTeam_memInv (killTeam_memInv (modTeam_memInv h)))

/-! ## Store hashes (R476) -/

theorem contribute_memInv {u id x} : MemInv (s.contribute u id x) := modTeam_memInv h

/-! ## The log (R473) -/

theorem logFault_memInv {serial c e} : MemInv (s.logFault serial c e) := ite_memInv (raiseFault_memInv h) (abortTask_memInv h)

end

end Sys2Proof.Machine

/-!
PROOFS. Memory stays canonical: loads, stores, atomics, arrival words and copies, and the events that perform them.
-/
namespace Sys2Proof.Machine

section
variable {s : State} (h : MemInv s)
include h

/-! ## Addresses (R290, R295) -/

theorem waitWalks_memInv {ms} : MemInv (s.waitWalks ms) := foldS_memInv h (fun _ _ h => setWait_memInv (askWalk_memInv h))

theorem holdAgents_memInv {acc hs} : MemInv (s.holdAgents acc hs) := foldS_memInv h (fun _ _ h => setWait_memInv (raiseFault_memInv h))

theorem access_memInv {r acc lanes f} (hf : ∀ x0 x3 s, MemInv s → MemInv (f x0 x3 s)) : MemInv (s.access r acc lanes f) := by
  unfold State.access
  split
  · exact trapAll_memInv h
  · exact waitWalks_memInv h
  · exact foldS_memInv (holdAgents_memInv h) (fun _ _ h => ite_memInv h (hf _ _ _ h))

/-! ## Issue -/

theorem mapDests_memInv {a r m} : MemInv (s.mapDests a r m) := by
  unfold State.mapDests
  split
  · exact modSlice_memInv (takeOver_memInv h)
  · exact takeOver_memInv h

theorem launchOp_memInv {a r m op} : MemInv (s.launchOp a r m op) :=
  ite_memInv (trapOne_memInv h) (advance_memInv (ite_memInv (mapDests_memInv h) (addOp_memInv (mapDests_memInv h))))

theorem watchAgent_memInv {a kinds m pc eas} : MemInv (s.watchAgent a kinds m pc eas) := by
  unfold State.watchAgent
  split
  · exact watch_memInv h
  · exact h

theorem launchSeen_memInv {a r m op kinds pc eas} : MemInv (s.launchSeen a r m op kinds pc eas) :=
  ite_memInv (watchAgent_memInv (launchOp_memInv h)) (launchOp_memInv h)

theorem bodyLd_memInv {r} : MemInv (bodyLd r s) := by
  unfold bodyLd
  exact access_memInv h (fun _ _ _ h => launchSeen_memInv h)

/-! ## Memory at a place -/

theorem placeRead_memInv {a p n byp} : MemInv (s.placeRead a p n byp).2 := by
  unfold State.placeRead
  split
  · exact h
  · refine ite_snd_memInv ?_ ?_
    · split
      · exact podRead_memInv h
      · exact podRead_memInv h
    · split
      · exact l1Read_memInv h
      · exact engineRead_memInv h

theorem ownWrite_memInv {task p bs} : MemInv (s.ownWrite task p bs) := by
  unfold State.ownWrite
  split
  · exact modTask_memInv h
  · exact h

theorem wrote_memInv {a p bs} : MemInv (s.wrote a p bs) := by
  unfold State.wrote
  split
  · exact ownWrite_memInv h
  · exact h

theorem hideBy_memInv {old a lane op p bs} : MemInv (s.hideBy old a lane op p bs) := by
  unfold State.hideBy
  split
  · exact hide_memInv (wrote_memInv h)
  · exact wrote_memInv h

theorem placeWrite_memInv {a op p bs byp t} (e : s.placeWrite a op p bs byp = some t) : MemInv t := by
  unfold State.placeWrite at e
  split at e
  · cases e
    exact scrWrite_memInv h
  · split at e
    · split at e
      · exact wcStore_memInv h e
      · cases e
        exact l1Write_memInv h
    · cases e
      exact ite_memInv (podWrite_memInv h) (engineWrite_memInv h)

theorem placeUpdate_memInv {a p n f} : MemInv (s.placeUpdate a p n f).2 := by
  unfold State.placeUpdate
  dsimp only
  split
  · dsimp only
    split
    · exact scrWrite_memInv h
    · exact h
  · have hr {c : CoreId} {pa : Nat} : MemInv (if 2 ^ 47 ≤ pa then (s.podRead c pa n).2 else
        if hbmDie pa = some c.die then s.l1Drop c (pa / 128) else (s.l1Drop c (pa / 128)).rdcDrop c.die (pa / 128)) :=
      ite_memInv (podRead_memInv h) (ite_memInv (l1Drop_memInv h) (rdcDrop_memInv (l1Drop_memInv h)))
    dsimp only
    split
    · exact homeWrite_memInv hr
    · exact hr

/-! ## Releases (R276, R286, R360) -/

theorem release_memInv {a scope} : MemInv (s.release a scope).2 := (release_memStep ..).inv h

/-! ## Stores (R292, R293, R442 to R444) -/

theorem countStore_memInv {a m} : MemInv (s.countStore a m) := by
  unfold State.countStore
  split
  · exact ite_memInv h (modSlice_memInv h)
  · exact h

theorem checked_memInv {r lanes f} (hf : ∀ x0 x3 s, MemInv s → MemInv (f x0 x3 s)) : MemInv (s.checked r lanes f) := by
  unfold State.checked
  split
  · exact trapAll_memInv h
  · exact foldS_memInv h (fun _ _ h => hf _ _ _ h)

theorem getD_memInv {o : Option State} (ho : ∀ t, o = some t → MemInv t) : MemInv (o.getD s) := by
  cases o with
  | none => exact h
  | some t => exact ho t rfl

theorem storeNow_memInv {a size els} : MemInv (s.storeNow a size els) := by
  refine foldS_memInv h (fun _ _ h1 => ?_)
  split
  · exact wrote_memInv (getD_memInv h1 fun _ e => placeWrite_memInv h1 e)
  · exact h1

theorem bodySt_memInv {r} : MemInv (bodySt r s) := by
  unfold bodySt
  dsimp only
  split
  · exact checked_memInv h (fun _ _ _ h => launchSeen_memInv (countStore_memInv h))
  · exact access_memInv h (fun _ _ _ h => ite_memInv (setWait_memInv h) (advance_memInv (storeNow_memInv h)))

theorem countFault_memInv {op e lost} : MemInv (s.countFault op e lost) := by
  unfold State.countFault
  split
  · exact modSlice_memInv h
  · exact h

theorem hashEl_memInv {id op e kind size value} : MemInv (s.hashEl id op e kind size value) := by
  unfold State.hashEl
  split
  · exact contribute_memInv h
  · exact h

/-- The machine after a push. -/
def Push.state (p : Push) : State := match p with | .done t => t | .hold t => t

theorem pushRecord_memInv {id op x kind cause p} (e : s.pushRecord id op x kind cause = p) : MemInv p.state := by
  have hf {lost : Bool} : MemInv (Push.done (s.countFault op x lost)).state := countFault_memInv h
  have hh : MemInv (Push.hold s).state := h
  rw [← e, State.pushRecord]
  dsimp only
  split
  · exact hf
  · split
    · exact hh
    · split
      case h_1 t he =>
        refine countFault_memInv (s := t) ?_
        split at he
        · exact csaWrite_memInv h he
        · split at he
          case h_1 u hu => exact csaWrite_memInv (csaWrite_memInv h hu) he
          case h_2 hu => exact absurd he (hu t)
      · exact hf
      · exact raiseFault_memInv h

theorem storeStep_memInv {id op before x} : MemInv (s.storeStep id op before x).1 := by
  refine ite_fst_memInv h ?_
  dsimp only
  split
  · split
    case h_1 t e => exact pushRecord_memInv h e
    case h_2 t e => exact pushRecord_memInv h e
  · split
    · refine ite_fst_memInv h ?_
      split
      case h_1 t e => exact hashEl_memInv (hideBy_memInv (placeWrite_memInv h e))
      case h_2 => exact wcOldest_memInv h
    · split
      · refine ite_fst_memInv h ?_
        split
        case h_1 t e => exact hashEl_memInv (hideBy_memInv (placeWrite_memInv h e))
        case h_2 => exact wcOldest_memInv h
      · exact askWalk_memInv h
      · exact raiseFault_memInv h
      · split
        case h_1 t e => exact pushRecord_memInv h e
        case h_2 t e => exact pushRecord_memInv h e

omit h in
theorem stepEls_memInv {f} (hf : ∀ s kept e, MemInv s → MemInv (f s kept e).1) : ∀ (kept els : List El) {s : State}, MemInv s → MemInv (stepEls f kept els s).1
  | _, [], _, h => h
  | kept, e :: es, _, h => stepEls_memInv hf _ es (hf _ kept e h)

theorem keepEls_memInv {id op els} : MemInv (s.keepEls id op els) := ite_memInv (.of_mem h (by rfl)) (modOp_memInv h)

theorem storeTranslate_memInv {id} : MemInv (s.storeTranslate id) := by
  unfold State.storeTranslate
  split
  · exact h
  · exact ite_memInv (keepEls_memInv (stepEls_memInv (fun _ _ _ h => storeStep_memInv h) _ _ h)) h

/-! ## Atomics (R295, R296) -/

theorem countDraws_memInv {a m} : MemInv (s.countDraws a m) := by
  unfold State.countDraws
  split
  · exact modSlice_memInv h
  · exact ite_memInv h (modTeam_memInv h)

theorem gateWait_memInv {a} : MemInv (s.gateWait a) := by
  unfold State.gateWait
  dsimp only
  split
  · exact modSlice_memInv h
  · exact modCtx_memInv h

theorem gateTrap_memInv {a pc m} : MemInv (s.gateTrap a pc m) := by
  refine ite_memInv (sticky_memInv h) ?_
  split
  · exact modSlice_memInv h
  · exact modCtx_memInv h

theorem countedLaunch_memInv {a m r op n pc eas} {c d : Prop} [Decidable c] [Decidable d] :
    MemInv (State.launchSeen (if d then (if c then s.countStore a m else s).countDraws a m else if c then s.countStore a m else s) a r m op n pc eas) :=
  have hc : MemInv (if c then s.countStore a m else s) := ite_memInv (countStore_memInv h) h
  launchSeen_memInv (ite_memInv (countDraws_memInv hc) hc)

omit h in
theorem atomIssue_memInv {r kind a els t} (ht : MemInv t) : MemInv (s.atomIssue r kind a els t) := by
  have hr {c : Prop} [Decidable c] {n : Nat} : MemInv (if c then t.release a n else (true, t)).2 := ite_snd_memInv (release_memInv ht) ht
  unfold State.atomIssue
  refine ite_memInv (trapOne_memInv hr) (ite_memInv (setWait_memInv hr) (ite_memInv (gateTrap_memInv (countedLaunch_memInv hr)) ?_))
  dsimp only
  split
  · exact countedLaunch_memInv hr
  · refine countedLaunch_memInv ?_
    split
    · exact modTask_memInv hr
    · exact hr
  · exact gateWait_memInv hr
  · split
    · exact setWait_memInv (logFault_memInv hr)
    · exact hr

theorem bodyAtom_memInv {r kind} : MemInv (bodyAtom r kind s) := by
  unfold bodyAtom
  dsimp only
  split
  · exact checked_memInv h (fun _ _ _ h => atomIssue_memInv h)
  · exact access_memInv h (fun _ _ _ h => atomIssue_memInv h)

omit h in
theorem atomic_memInv {L : Log} {serial c st team tag} (h : MemInv L.s) : MemInv (L.atomic serial c st team tag).s := by
  have ha {ws : List Nat} : MemInv (L.append serial c st 8 511 ws).s := (append_logStep ..).inv h
  unfold Log.atomic
  dsimp only
  split
  · exact h
  · split
    · split
      · exact modTask_memInv ((put_logStep ..).inv h)
      · exact ha
    · exact ha

theorem logAtomic_memInv {op x t} (e : s.logAtomic op x = .ok t) : MemInv t := by
  rw [State.logAtomic] at e
  dsimp only at e
  split at e
  · cases e
    exact h
  · split at e
    · split at e
      · cases e
      · cases e
        exact atomic_memInv h
    · cases e
      exact h

theorem atomPerform_memInv {id op x p} : MemInv (s.atomPerform id op x p) := by
  unfold State.atomPerform
  dsimp -zeta only
  extract_lets c fm hist f
  split
  · split
    · exact modOp_memInv (logFault_memInv h)
    · exact h
  case h_2 t e =>
    have ht : MemInv t := by
      split at e
      · cases e
        exact h
      · exact logAtomic_memInv h e
    extract_lets s0 s1 s2 op'
    have h1 : MemInv s1 := by
      unfold s1
      split
      · exact hideBy_memInv (placeUpdate_memInv ht)
      · exact placeUpdate_memInv ht
    have h2 : MemInv s2 := ite_memInv (hashEl_memInv h1) h1
    exact ite_memInv (.of_mem h2 (by rfl)) (modOp_memInv h2)

theorem atomicPerform_memInv {id} : MemInv (s.atomicPerform id) := by
  unfold State.atomicPerform
  split
  · exact h
  · refine ite_memInv ?_ h
    split
    · exact h
    · refine ite_memInv h ?_
      split
      · exact ite_memInv (wcDrain_memInv h) (ite_memInv (atomPerform_memInv h) h)
      · exact atomPerform_memInv h

/-! ## Replies (R309) -/

theorem deliver_memInv {op vs} : MemInv (s.deliver op vs) := (deliver_tasksKept ..).inv h

omit h in
theorem readEls_memInv {op} : ∀ (els : List El) {s : State}, MemInv s → MemInv (s.readEls op els).2
  | [], _, h => h
  | x :: els, s, h => by
    rw [State.readEls]
    split
    · exact readEls_memInv els h
    · exact readEls_memInv els (placeRead_memInv h)

theorem orFlags_memInv {op} : MemInv (s.orFlags op) := by
  unfold State.orFlags
  split
  · exact modSlice_memInv h
  · exact modCtx_memInv h

theorem loadReply_memInv {id} : MemInv (s.loadReply id) := by
  unfold State.loadReply
  split
  · exact h
  · refine ite_memInv h ?_
    split
    · refine ite_memInv h
        (ite_memInv h
          (ite_memInv (acquire_memInv (.of_mem (orFlags_memInv (deliver_memInv (foldS_memInv h (fun _ _ h => ?_)))) (by rfl)))
            (.of_mem (orFlags_memInv (deliver_memInv (foldS_memInv h (fun _ _ h => ?_)))) (by rfl))))
      · split
        · exact contribute_memInv h
        · exact h
      · split
        · exact contribute_memInv h
        · exact h
    · exact h
    · exact h
    · exact h
    · exact h
    · refine ite_memInv h ?_
      split
      · exact ite_memInv (wcDrain_memInv h) h
      · exact .of_mem (deliver_memInv (readEls_memInv _ h)) (by rfl)

/-! ## LDK (R294) -/

theorem bodyLdk_memInv {r} : MemInv (bodyLdk r s) := by
  unfold bodyLdk
  refine access_memInv h (fun _ _ _ h => ite_memInv (launchSeen_memInv ?_) (launchOp_memInv h))
  split
  · exact takeOverK_memInv h
  · exact h

/-! ## EXPHIST (R262) -/

theorem bodyExphist_memInv {r} : MemInv (bodyExphist r s) := access_memInv h (fun _ _ _ h => launchSeen_memInv h)

/-! ## Cache control (R297) -/

theorem cacheLane_memInv {r a e} : MemInv (s.cacheLane r a e) := (cacheLane_memStep ..).inv h

theorem bodyCache_memInv {r} : MemInv (bodyCache r s) := checked_memInv h (fun _ _ _ h => commit_memInv (foldS_memInv h (fun _ _ h => cacheLane_memInv h)))

/-! ## Pool nodes (R391) and the write-combining buffer (R286) -/

theorem podRequest_memInv {id} : MemInv (s.podRequest id) := by
  unfold State.podRequest
  split
  · exact ite_memInv (ite_memInv h (ite_memInv (wcDrain_memInv h) (ite_memInv h (modOp_memInv (readEls_memInv _ h)))))
      (ite_memInv (atomicPerform_memInv h) h)
  · split
    · exact wcPerform_memInv h
    · exact h

theorem podResponse_memInv {id} : MemInv (s.podResponse id) := by
  unfold State.podResponse
  split
  · exact ite_memInv (modOp_memInv h) h
  · exact h

theorem wcDrainAck_memInv {c id} : MemInv (s.wcDrainAck c id) := ite_memInv (wcAck_memInv h) h

theorem wcAgeDrain_memInv {c} : MemInv (s.wcAgeDrain c) := wcDrain_memInv h

/-! ## Arrival words (R298, R299) -/

theorem awPut_memInv {u off w} : MemInv (s.awPut u off w) := scrWrite_memInv h

theorem awUpdate_memInv {w f} : MemInv (s.awUpdate w f) := by
  unfold State.awUpdate
  split
  · exact ite_memInv (awPut_memInv h) h
  · exact h

/-! ## The arrival-word instructions (R300) -/

omit h in
theorem awLanes_memInv {r src} : ∀ (ps : List (Issuer × Nat × Nat × Nat)) {s : State}, MemInv s → MemInv (s.awLanes r src ps).2
  | [], _, h => h
  | (a, l, u, o) :: ps, s, h => by
    rw [State.awLanes]
    dsimp only
    split
    · exact awLanes_memInv ps (awPut_memInv h)
    · exact awLanes_memInv ps (awPut_memInv h)
    · exact awLanes_memInv ps h

theorem awAcquire_memInv {ps seen} : MemInv (s.awAcquire ps seen) := (awAcquire_memStep ..).inv h

theorem awOne_memInv {w r dst ps a} : MemInv (s.awOne w r dst ps a) :=
  have hl {qs : List (Issuer × Nat × Nat × Nat)} : MemInv (s.awLanes r w qs).2 := awLanes_memInv qs h
  ite_memInv (trapOne_memInv h) (ite_memInv (setWait_memInv h) (ite_memInv (setWait_memInv h)
    (ite_memInv (setWait_memInv h) (commit_memInv (ite_memInv (awAcquire_memInv hl) hl)))))

theorem bodyAw_memInv {r dst} : MemInv (bodyAw r dst s) := by
  unfold bodyAw
  split
  · exact trapAll_memInv h
  · exact foldS_memInv h (fun _ _ h => awOne_memInv h)

/-! ## Issuing copies (R301, R302, R306) -/

theorem addCopy_memInv {c} : MemInv (s.addCopy c) := ite_memInv h (.of_mem h (by rfl))

/-! ## Tile descriptors (R303, R304) -/

theorem bodyCopy_memInv {r} : MemInv (bodyCopy r s) := by
  unfold bodyCopy
  dsimp only
  split
  · exact foldS_memInv h (fun _ _ h => ite_memInv (setWait_memInv h) h)
  · split
    · exact trapAll_memInv h
    · refine foldS_memInv h
        (fun _ _ h =>
          ite_memInv (setWait_memInv h)
            (commit_memInv
              (foldS_memInv ?_ (fun _ _ h => foldS_memInv (foldS_memInv h (fun _ _ h => addCopy_memInv h)) (fun _ _ h => awUpdate_memInv h)))))
      split
      · exact ite_memInv h (publishSlice_memInv (releaseL1_memInv h))
      · exact h

/-! ## Copy cells (R306 to R308) -/

theorem setCell_memInv {k id f} : MemInv (s.setCell k id f) := by
  unfold State.setCell
  split
  · exact h
  · exact ite_memInv (.of_mem h (by rfl)) (.of_mem h (by rfl))

theorem cellTr_memInv {c x va acc pa cache t} (e : s.cellTr c x va acc = .ok pa cache t) : MemInv t := by
  unfold State.cellTr at e
  split at e
  · cases e
  · split at e
    · split at e
      · cases e
        exact h
      · split at e
        · cases e
          exact sticky_memInv h
        · cases e
    · cases e
    · cases e
    · cases e

theorem eccTeam_memInv {u cause} : MemInv (s.eccTeam u cause) := modTeam_memInv h

theorem copyRead_memInv {id} : MemInv (s.copyRead id) := by
  unfold State.copyRead
  split
  · exact h
  · refine ite_memInv h ?_
    dsimp only
    split
    · exact ite_memInv (awUpdate_memInv (ite_memInv (setCell_memInv h) (awUpdate_memInv (setCell_memInv h))))
        (ite_memInv (eccTeam_memInv (awUpdate_memInv (ite_memInv (setCell_memInv h) (awUpdate_memInv (setCell_memInv h)))))
          (awUpdate_memInv (ite_memInv (setCell_memInv h) (awUpdate_memInv (setCell_memInv h)))))
    · refine ite_memInv (awUpdate_memInv (ite_memInv (setCell_memInv h) (awUpdate_memInv (setCell_memInv h)))) ?_
      split
      case h_1 t e =>
        exact ite_memInv
          (eccTeam_memInv (awUpdate_memInv (ite_memInv (setCell_memInv (cellTr_memInv h e)) (awUpdate_memInv (setCell_memInv (cellTr_memInv h e))))))
          (ite_memInv
            (ite_memInv (wcDrain_memInv (cellTr_memInv h e))
              (ite_memInv ((cellTr_memInv h e))
                (awUpdate_memInv
                  (ite_memInv (setCell_memInv (podRead_memInv (cellTr_memInv h e)))
                    (awUpdate_memInv (setCell_memInv (podRead_memInv (cellTr_memInv h e))))))))
            (awUpdate_memInv
              (ite_memInv (setCell_memInv (engineRead_memInv (cellTr_memInv h e)))
                (awUpdate_memInv (setCell_memInv (engineRead_memInv (cellTr_memInv h e)))))))
      · exact awUpdate_memInv (ite_memInv (setCell_memInv h) (awUpdate_memInv (setCell_memInv h)))
      · exact raiseFault_memInv (setCell_memInv h)

theorem cellDone_memInv {k id} : MemInv (s.cellDone k id) := setCell_memInv h

theorem dropReceiver_memInv {k u} : MemInv (s.dropReceiver k u) := .of_mem h rfl

theorem copyWrite_memInv {id} : MemInv (s.copyWrite id) := by
  unfold State.copyWrite
  split
  · exact h
  · split
    · exact h
    · dsimp only
      split
      · refine ite_memInv h (ite_memInv (cellDone_memInv (awUpdate_memInv (awUpdate_memInv (ite_memInv (awUpdate_memInv h) h)))) ?_)
        split
        case h_1 t e =>
          exact ite_memInv ((cellTr_memInv h e))
            (setCell_memInv (ownWrite_memInv (ite_memInv (podWrite_memInv (cellTr_memInv h e)) (engineWrite_memInv (cellTr_memInv h e)))))
        · exact cellDone_memInv (awUpdate_memInv (awUpdate_memInv (ite_memInv (awUpdate_memInv h) h)))
        · exact raiseFault_memInv (setCell_memInv h)
      · exact cellDone_memInv h
      · exact ite_memInv h
          (ite_memInv (ite_memInv (cellDone_memInv (dropReceiver_memInv (awUpdate_memInv h))) (dropReceiver_memInv (awUpdate_memInv h)))
            (ite_memInv
              (cellDone_memInv
                (ite_memInv h (awUpdate_memInv (ite_memInv (ite_memInv h (scrWrite_memInv h)) (awUpdate_memInv (ite_memInv h (scrWrite_memInv h)))))))
              (setCell_memInv
                (ite_memInv h (awUpdate_memInv (ite_memInv (ite_memInv h (scrWrite_memInv h)) (awUpdate_memInv (ite_memInv h (scrWrite_memInv h)))))))))

theorem copyAck_memInv {id} : MemInv (s.copyAck id) := by
  unfold State.copyAck
  split
  · exact ite_memInv (cellDone_memInv (awUpdate_memInv h)) h
  · exact h

end

end Sys2Proof.Machine

/-!
PROOFS. Memory stays canonical: fences and barriers, and the matrix engine.
-/
namespace Sys2Proof.Machine

section
variable {s : State} (h : MemInv s)
include h

/-! ## FENCE (R374) -/

theorem acquireBy_memInv {a scope} : MemInv (s.acquireBy a scope) := acquire_memInv h

theorem fenceOne_memInv {r a} : MemInv (s.fenceOne r a) := by
  refine ite_memInv (setWait_memInv (ite_snd_memInv (release_memInv h) h))
    (ite_memInv (setWait_memInv (ite_snd_memInv (release_memInv h) h)) (advance_memInv (ite_memInv (acquireBy_memInv ?_) ?_)))
  · split
    · exact ite_memInv (publishSlice_memInv (ite_snd_memInv (release_memInv h) h)) (ite_snd_memInv (release_memInv h) h)
    · exact ite_snd_memInv (release_memInv h) h
  · split
    · exact ite_memInv (publishSlice_memInv (ite_snd_memInv (release_memInv h) h)) (ite_snd_memInv (release_memInv h) h)
    · exact ite_snd_memInv (release_memInv h) h

theorem bodyFence_memInv {r} : MemInv (bodyFence r s) := foldS_memInv h (fun _ _ h => ite_memInv (advance_memInv h) (fenceOne_memInv h))

/-! ## Barrier objects (R375 to R382) -/

theorem barArrive_memInv {u i m x} : MemInv (s.barArrive u i m x) := by
  refine ite_memInv (modTeam_memInv h) ?_
  split
  · exact h
  · exact levelArrive_memInv (modTeam_memInv h)

theorem barTrace_memInv {u i kind pc ma mb x} : MemInv (s.barTrace u i kind pc ma mb x) := trace_memInv h

/-! ## BAR, BARA, BARW, BARINIT -/

theorem barLeave_memInv {r u i} : MemInv (s.barLeave r u i) := advance_memInv (barTrace_memInv (acquire_memInv h))

theorem barPublish_memInv {u i x} : MemInv (s.barPublish u i x) := ite_memInv (publishSlice_memInv h) h

theorem barOne_memInv {r u i m} : MemInv (s.barOne r u i m) := by
  unfold State.barOne
  dsimp only
  split
  · exact ite_memInv (barLeave_memInv h) (setWaitAt_memInv h)
  · split
    · exact trapOne_memInv h
    · exact ite_memInv (setWait_memInv (release_memInv h))
        (ite_memInv (barLeave_memInv (barArrive_memInv (barTrace_memInv (barPublish_memInv (release_memInv h)))))
          (modSlice_memInv (barArrive_memInv (barTrace_memInv (barPublish_memInv (release_memInv h))))))

theorem eachSlice_memInv {r f} (hf : ∀ x0 x3 x6 s, MemInv s → MemInv (f x0 x3 x6 s)) : MemInv (eachSlice s r f) := by
  refine foldS_memInv h (fun _ _ h => ?_)
  dsimp only
  split
  · exact ite_memInv (commit_memInv h) (hf _ _ _ _ h)
  · exact h

theorem podAlign_memInv {u x} : MemInv (s.podAlign u x) := by
  unfold State.podAlign
  split
  · exact h
  · exact ite_memInv h (modTask_memInv h)

theorem barGang_memInv {r f} (hf : ∀ x0 x3 x6 s, MemInv s → MemInv (f x0 x3 x6 s)) : MemInv (s.barGang r f) := by
  unfold State.barGang
  dsimp only
  split
  · exact trapAll_memInv h
  · exact eachSlice_memInv h (fun _ _ _ _ h => ite_memInv (trapOne_memInv h) (hf _ _ _ _ (podAlign_memInv h)))

theorem bodyBar_memInv {r} : MemInv (bodyBar r s) := barGang_memInv h (fun _ _ _ _ h => barOne_memInv h)

theorem bodyBara_memInv {r} : MemInv (bodyBara r s) := by
  refine barGang_memInv h (fun _ _ _ _ h => ?_)
  dsimp only
  split
  · exact trapOne_memInv h
  · exact ite_memInv (trapOne_memInv h)
      (ite_memInv (setWait_memInv (release_memInv h)) (commit_memInv (barArrive_memInv (barTrace_memInv (barPublish_memInv (release_memInv h))))))

theorem bodyBarw_memInv {r} : MemInv (bodyBarw r s) :=
  barGang_memInv h
    (fun _ _ _ _ h => ite_memInv (ite_memInv (setWait_memInv h) (commit_memInv (barTrace_memInv (acquire_memInv h)))) (setWaitAt_memInv h))

theorem bodyBarinit_memInv {r} : MemInv (bodyBarinit r s) := by
  refine barGang_memInv h
    (fun _ _ _ _ h => ite_memInv (trapOne_memInv h) (ite_memInv (trapOne_memInv h) (commit_memInv (ite_memInv (modTeam_memInv h) ?_))))
  split
  · exact h
  · refine ite_memInv ?_ (modTask_memInv h)
    split
    · exact podSend_memInv (modTask_memInv h)
    · exact modTask_memInv h

/-! ## The events of barriers (R380, R383) -/

theorem barWithdraw_memInv {u i scope idx m} : MemInv (s.barWithdraw u i scope idx m) := by
  unfold State.barWithdraw
  split
  · exact h
  · refine ite_memInv (modTeam_memInv h) (modTeam_memInv (modTask_memInv ?_))
    split
    · split
      · exact ite_memInv (podSend_memInv h) h
      · exact h
    · exact h

theorem barrierWatchdog_memInv {u i} : MemInv (s.barrierWatchdog u i) := by
  unfold State.barrierWatchdog
  dsimp only
  split
  · exact h
  · split
    · exact h
    · exact ite_memInv h (takeTrap_memInv (ite_memInv (modSlice_memInv (barWithdraw_memInv h)) h))

theorem podBarrierComplete_memInv {binding phase} : MemInv (s.podBarrierComplete binding phase) := .of_mem h rfl

/-! ## FORK, RDV, SEQEND (R328 to R330) -/

theorem forkOne_memInv {r u i m} : MemInv (s.forkOne r u i m) :=
  ite_memInv (trapOne_memInv h)
    (ite_memInv (setWait_memInv h)
      (ite_memInv (setWait_memInv (release_memInv h)) (commit_memInv (setCtx_memInv (publishSlice_memInv (release_memInv h))))))

theorem bodyFork_memInv {r} : MemInv (bodyFork r s) := eachSlice_memInv h (fun _ _ _ _ h => forkOne_memInv h)

theorem rdvOne_memInv {r u i m} : MemInv (s.rdvOne r u i m) :=
  ite_memInv (trapOne_memInv h)
    (ite_memInv (setWait_memInv h) (ite_memInv (setWait_memInv h) (commit_memInv (modSlice_memInv (foldS_memInv h (fun _ _ h => modCtx_memInv h))))))

theorem bodyRdv_memInv {r} : MemInv (bodyRdv r s) := by
  refine foldS_memInv h (fun _ _ h => ?_)
  split
  · exact rdvOne_memInv h
  · exact h

theorem bodySeqend_memInv {r} : MemInv (bodySeqend r s) := by
  refine foldS_memInv h (fun _ _ h => ?_)
  split
  · exact ite_memInv (advance_memInv h) (seqEnd_memInv h)
  · exact h

/-! ## Tile multiplication (R336, R338, R340) -/

theorem matrixComplete_memInv {c} : MemInv (s.matrixComplete c) := by
  unfold State.matrixComplete
  dsimp only
  split
  · exact ite_memInv (modCtx_memInv h) (modCtx_memInv h)
  · exact h

theorem mx_memInv {r f} (hf : ∀ x0 s, MemInv s → MemInv (f x0 s)) : MemInv (mx r s f) := by
  refine foldS_memInv h (fun _ _ h => ?_)
  split
  · exact ite_memInv (advance_memInv h) (ite_memInv (setWait_memInv h) (hf _ _ h))
  · exact h

theorem mxIll_memInv {k cause} : MemInv (s.mxIll k cause) := trapOne_memInv h

theorem bodyMat_memInv {r} : MemInv (bodyMat r s) := by
  refine mx_memInv h (fun _ _ h => ite_memInv (mxIll_memInv h) ?_)
  split
  · exact trapOne_memInv h
  · exact advance_memInv (modQuad_memInv (modCtx_memInv h))

/-! ## TCFG, TZERO, APROM, AOUT (R333, R335, R341, R342) -/

theorem bodyTcfg_memInv {r} : MemInv (bodyTcfg r s) := mx_memInv h (fun _ _ h => ite_memInv (mxIll_memInv h) (advance_memInv (modCtx_memInv h)))

theorem bodyTzero_memInv {r} : MemInv (bodyTzero r s) := mx_memInv h (fun _ _ h => advance_memInv (modCtx_memInv h))

theorem bodyTzeroA_memInv {r} : MemInv (bodyTzeroA r s) := mx_memInv h (fun _ _ h => ite_memInv (mxIll_memInv h) (advance_memInv (modCtx_memInv h)))

theorem bodyAprom_memInv {r} : MemInv (bodyAprom r s) := by
  refine mx_memInv h (fun _ _ h => ?_)
  dsimp only
  split
  · exact mxIll_memInv h
  · exact ite_memInv (mxIll_memInv h) (ite_memInv (mxIll_memInv h) (advance_memInv (modCtx_memInv h)))

theorem bodyAout_memInv {r} : MemInv (bodyAout r s) := by
  refine mx_memInv h (fun _ _ h => ?_)
  dsimp only
  split
  · exact mxIll_memInv h
  · refine ite_memInv (mxIll_memInv h) ?_
    split
    · exact mxIll_memInv h
    · exact ite_memInv (mxIll_memInv h) (advance_memInv (modCtx_memInv h))

/-! ## Memory of the matrix group (R334, R339, R343 to R345) -/

theorem cmixOr_memInv {k x mixed f} (hf : ∀ s, MemInv s → MemInv (f s)) : MemInv (s.cmixOr k x mixed f) :=
  ite_memInv (hf _ h) (ite_memInv (hf _ (sticky_memInv h)) (trapAll_memInv h))

theorem mxAccess_memInv {r k acc stamps segs f} (hf : ∀ x0 s, MemInv s → MemInv (f x0 s)) : MemInv (s.mxAccess r k acc stamps segs f) := by
  refine ite_memInv (setWait_memInv h) ?_
  split
  · exact trapAll_memInv h
  · dsimp only
    split
    · exact trapAll_memInv h
    · split
      · exact waitWalks_memInv h
      · split
        · exact holdAgents_memInv h
        · exact cmixOr_memInv h (fun _ h => hf _ _ h)

theorem mxStart_memInv {r k f} : MemInv (s.mxStart r k f) := advance_memInv (modCtx_memInv h)

theorem bodyTile_memInv {r} : MemInv (bodyTile r s) := by
  refine mx_memInv h (fun _ _ h => ?_)
  dsimp only
  split
  · exact mxIll_memInv h
  · exact ite_memInv (mxIll_memInv h) (ite_memInv (trapOne_memInv h) (mxAccess_memInv h (fun _ _ h => mxStart_memInv h)))

theorem bodyCbld_memInv {r} : MemInv (bodyCbld r s) :=
  mx_memInv h (fun _ _ h => ite_memInv (trapOne_memInv h) (mxAccess_memInv h (fun _ _ h => mxStart_memInv h)))

theorem bodyAsav_memInv {r} : MemInv (bodyAsav r s) := by
  refine mx_memInv h (fun _ _ h => ?_)
  dsimp only
  split
  · exact mxIll_memInv h
  · exact ite_memInv (trapOne_memInv h) (mxAccess_memInv h (fun _ _ h => mxStart_memInv h))

omit h in
theorem mxRead_memInv {k} : ∀ (ps : List (Place × Nat)) {s : State}, MemInv s → MemInv (s.mxRead k ps).2
  | [], _, h => h
  | (_, _) :: ps, _, h => by
    rw [State.mxRead]
    exact mxRead_memInv ps (placeRead_memInv h)

omit h in
theorem mxWrite_memInv {k} : ∀ (ps : List (Place × Nat)) (bs : List Byte) {s : State}, MemInv s → MemInv (s.mxWrite k ps bs)
  | [], _, _, h => h
  | (_, _) :: ps, _, _, h => mxWrite_memInv ps _ (wrote_memInv (getD_memInv h fun _ e => placeWrite_memInv h e))

theorem bodyArst_memInv {r} : MemInv (bodyArst r s) :=
  mx_memInv h
    (fun _ _ h =>
      ite_memInv (trapOne_memInv h)
        (mxAccess_memInv h
          (fun _ _ h =>
            ite_memInv (setWait_memInv (wcDrain_memInv h))
              (ite_memInv (setWait_memInv h)
                (ite_memInv (mxIll_memInv (mxRead_memInv _ h))
                  (cmixOr_memInv (mxRead_memInv _ h) (fun _ h => mxAccess_memInv h (fun _ _ h => mxStart_memInv h))))))))

theorem bodyAhist_memInv {r} : MemInv (bodyAhist r s) := by
  refine mx_memInv h (fun _ _ h => ?_)
  dsimp only
  split
  · exact mxIll_memInv h
  · exact ite_memInv (trapOne_memInv h) (ite_memInv (trapOne_memInv h) (mxAccess_memInv h (fun _ _ h => mxStart_memInv h)))

theorem partFlags_memInv {k} : MemInv (s.partFlags k) := by
  unfold State.partFlags
  split
  · exact modCtx_memInv h
  · exact h

omit h in
theorem mxReadAll_memInv {k} : ∀ (ps : List (List (Place × Nat))) {s : State}, MemInv s → MemInv (s.mxReadAll k ps).2
  | [], _, h => h
  | p :: ps, _, h => mxReadAll_memInv ps (mxRead_memInv p h)

theorem transferComplete_memInv {c matrix} : MemInv (s.transferComplete c matrix) := by
  unfold State.transferComplete
  dsimp only
  split
  · refine ite_memInv h (ite_memInv (wcDrain_memInv h) ?_)
    split
    · exact .of_mem (mxReadAll_memInv _ h) (by rfl)
    · exact .of_mem (mxReadAll_memInv _ h) (by rfl)
    · exact .of_mem (mxReadAll_memInv _ h) (by rfl)
    · exact .of_mem (foldS_memInv h (fun _ _ h => mxWrite_memInv _ _ h)) (by rfl)
    · exact .of_mem (mxWrite_memInv _ _ h) (by rfl)
    · exact .of_mem (foldS_memInv h (fun _ _ h => wrote_memInv (placeUpdate_memInv h))) (by rfl)
  · exact h

/-! ## Self-test (R324 to R326, R346) -/

theorem bodyStest_memInv {r} : MemInv (bodyStest r s) := mx_memInv h (fun _ _ h => mxStart_memInv (takeOver_memInv h))

theorem mxf_memInv {k} : MemInv (s.mxf k) := modCtx_memInv h

theorem selfTest_memInv {die quad fail} : MemInv (s.selfTest die quad fail) := by
  refine ite_memInv h
    (foldS_memInv
      (.of_mem
        (ite_memInv (foldS_memInv (modQuad_memInv (modQuad_memInv h)) (fun _ _ h => modCtx_memInv h))
          (foldS_memInv (tell_memInv (modQuad_memInv (modQuad_memInv h))) (fun _ _ h => ite_memInv h (mxf_memInv h))))
        ((by rfl)))
      (fun _ _ h => ?_))
  split
  · exact modCtx_memInv h
  · exact h

end

end Sys2Proof.Machine

/-!
PROOFS. Memory stays canonical: traps due, checkpoints, releases of lanes, and the submissions of tasks.
-/
namespace Sys2Proof.Machine

section
variable {s : State} (h : MemInv s)
include h

/-! ## Traps due at a boundary (R438, R442, R445) -/

theorem takePend_memInv {u i p} : MemInv (s.takePend u i p) := takeTrapAt_memInv h

theorem takeSfault_memInv {u i} : MemInv (s.takeSfault u i) := takeTrap_memInv h

theorem dueTrap_memInv {u i f} (e : s.dueTrap u i = some f) : MemInv (f s) := by
  unfold State.dueTrap at e
  split at e
  · split at e
    · cases e
    · split at e
      · cases e
        exact takeTrap_memInv h
      · split at e
        · cases e
          exact takePend_memInv h
        · split at e
          · cases e
            exact takeSfault_memInv h
          · split at e
            · cases e
              exact takePend_memInv h
            · split at e
              · cases e
                exact takePend_memInv h
              · split at e
                · cases e
                  exact takePend_memInv h
                · cases e
  · cases e

theorem boundary_memInv {u i t} (e : s.boundary u i = some t) : MemInv t := by
  unfold State.boundary at e
  split at e
  case h_1 => cases e
  case h_2 f hf =>
    cases e
    exact ite_memInv h (dueTrap_memInv h hf)

/-! ## TRAP and BKPT (R451, R465) -/

theorem bodyTrap_memInv {r} : MemInv (bodyTrap r s) := eachSlice_memInv h (fun _ _ _ _ h => ite_memInv (setWait_memInv h) (takeTrapAt_memInv h))

theorem bodyBkpt_memInv {r} : MemInv (bodyBkpt r s) := by
  unfold bodyBkpt
  refine foldS_memInv h (fun _ _ h => ?_)
  split
  · exact ite_memInv (advance_memInv h) (ite_memInv (setWait_memInv h) (takeTrapAt_memInv h))
  · exact h

/-! ## RETT (R452) -/

theorem rettOne_memInv {u i park} : MemInv (s.rettOne u i park) := by
  unfold State.rettOne
  dsimp only
  split
  · exact h
  · refine ite_memInv (setWait_memInv h) ?_
    split
    · exact setWait_memInv (raiseFault_memInv h)
    · exact trapOne_memInv h
    · exact h
    · exact ite_memInv (trapOne_memInv (l1Reads_memInv h))
        (ite_memInv (trapOne_memInv (l1Reads_memInv h))
          (ite_memInv (trapOne_memInv (l1Reads_memInv h))
            (ite_memInv (ite_memInv (modSlice_memInv (release_memInv (l1Reads_memInv h))) (setWait_memInv (release_memInv (l1Reads_memInv h))))
              (normalize_memInv (modSlice_memInv (takeOver_memInv (l1Reads_memInv h)))))))

theorem bodyRett_memInv {park} : MemInv (bodyRett park s) := by
  refine foldS_memInv h (fun _ _ h => ?_)
  split
  · exact rettOne_memInv h
  · exact h

/-! ## DRAINST and GKILL (R453, R454) -/

theorem bodyDrainst_memInv {r} : MemInv (bodyDrainst r s) :=
  eachSlice_memInv h
    (fun _ _ _ _ h => ite_memInv (setWait_memInv h) (ite_memInv (ite_memInv (setWait_memInv h) (takeSfault_memInv h)) (advance_memInv h)))

theorem bodyGkill_memInv {r} : MemInv (bodyGkill r s) := eachSlice_memInv h (fun _ _ _ _ h => foldS_memInv h (fun _ _ h => killSlice_memInv h))

/-! ## RRCHK (R477) -/

/-- The machine after the log has answered a checkpoint. -/
def Check.state (c : Check) : State := match c with | .pass t => t | .rply _ t => t | .fault _ t => t

theorem rrLog_memInv {u i x c} (e : s.rrLog u i x = c) : MemInv c.state := by
  have hs : MemInv (Check.pass s).state := h
  rw [← e, State.rrLog]
  split
  · have ha {a : Nat} {d : CoreId} {st base cap : Nat} {ws : List Nat} : MemInv (Log.append { s := s } a d st base cap ws).s := (append_logStep { s := s } ..).inv h
    dsimp only
    split
    · split
      · exact ite_memInv h ha
      · exact ha
    · split
      · split
        · exact h
        · split
          · exact h
          · split
            · exact modTask_memInv h
            · exact modTask_memInv h
      · exact hs
  · exact hs

theorem rrchkOne_memInv {r u i m} : MemInv (s.rrchkOne r u i m) := by
  refine ite_memInv (trapOne_memInv h) (ite_memInv (modSlice_memInv h) (ite_memInv (modSlice_memInv h) ?_))
  dsimp only
  split
  case h_1 t e => exact commit_memInv (rrLog_memInv h e)
  case h_2 c t e =>
    have ht : MemInv t := rrLog_memInv h e
    exact ite_memInv (commit_memInv (sticky_memInv ht)) (trapOne_memInv (modSlice_memInv (mapDests_memInv ht)))
  case h_3 f t e =>
    have ht : MemInv t := rrLog_memInv h e
    split
    · exact logFault_memInv (modSlice_memInv ht)
    · exact ht

theorem bodyRrchk_memInv {r} : MemInv (bodyRrchk r s) := eachSlice_memInv h (fun _ _ _ _ h => rrchkOne_memInv h)

/-! ## TRIGGER and the releases of EXIT (R488, R489) -/

theorem bodyTrigger_memInv {r} : MemInv (bodyTrigger r s) := eachSlice_memInv h (fun _ _ _ _ h => advance_memInv (modTeam_memInv h))

theorem laneRelease_memInv {u i n} : MemInv (s.laneRelease u i n).2 := ite_snd_memInv h (wcDrain_memInv (releaseL1_memInv h))

theorem triggerMark_memInv {u lane} : MemInv (s.triggerMark u lane) := by
  unfold State.triggerMark
  split
  · exact h
  · split
    · exact h
    · exact ite_memInv (laneRelease_memInv h) (earlyRelease_memInv (modTask_memInv (modTeam_memInv (publish_memInv (laneRelease_memInv h)))))

theorem exitComplete_memInv {u lane} : MemInv (s.exitComplete u lane) := by
  unfold State.exitComplete
  split
  · exact h
  · split
    · exact h
    · exact ite_memInv (laneRelease_memInv h) (earlyRelease_memInv (modTeam_memInv (publish_memInv (laneRelease_memInv h))))

/-! ## HALT inside a handler, and the order gate (R445, R475) -/

theorem haltNest_memInv {u i} : MemInv (s.haltNest u i) := by
  unfold State.haltNest
  split
  · split
    · exact h
    · exact ite_memInv h (takeTrapAt_memInv h)
  · exact h

theorem gateTimeout_memInv {a} : MemInv (s.gateTimeout a) := by
  unfold State.gateTimeout
  dsimp only
  split
  · exact h
  · split
    · exact h
    · exact foldS_memInv h (fun _ _ h => modSlice_memInv h)
  · exact modCtx_memInv h

/-! ## The graph engine's own accesses (R117) -/

theorem geHold_memInv {g asid kind cause va acc} : MemInv (s.geHold g asid kind cause va acc) := (geHold_tasksKept ..).inv h

theorem geForget_memInv {g} : MemInv (s.geForget g) := (geForget_tasksKept ..).inv h

/-! ## Residency reports (R90, R92) -/

theorem sendReport_memInv {p} : MemInv (s.sendReport p) := ite_memInv (sendOpen_memInv (.of_mem h (by rfl))) (.of_mem h (by rfl))

theorem report_memInv {src kind reason stream tag handle place} : MemInv (s.report src kind reason stream tag handle place) := by
  unfold State.report
  dsimp only
  split
  · exact sendReport_memInv h
  · exact ite_memInv (ringWrite_memInv h) h

/-! ## Acceptance (R70 to R73) -/

theorem answer_memInv {src reason handle} : MemInv (s.answer src reason handle) := by
  unfold State.answer
  split
  · exact setGe_memInv (setGe_memInv h)
  · exact foldS_memInv (modSlice_memInv h) (fun _ _ h => foldS_memInv h (fun _ _ h => ite_memInv h (frameReg_memInv h)))
  · exact setGe_memInv h

theorem refuse_memInv {src reason stream tag} : MemInv (s.refuse src reason stream tag) := report_memInv (answer_memInv h)

theorem enter_memInv {b card foots preds} : MemInv (s.enter b card foots preds) := report_memInv (answer_memInv (.of_mem h (by rfl)))

theorem taskAccept_memInv : MemInv s.taskAccept := by
  unfold State.taskAccept
  split
  · exact h
  · split
    · exact geHold_memInv h
    · exact refuse_memInv (geForget_memInv (.of_mem h (by rfl)))
    · exact enter_memInv (geForget_memInv (.of_mem h (by rfl)))

/-! ## Submission from the host complex and the ports (R77, R79, R80, R86 to R89) -/

theorem subaddrWrite_memInv {host addr} : MemInv (s.subaddrWrite host addr) := ite_memInv h (setGe_memInv (.of_mem h (by rfl)))

theorem hostdone_memInv {handle} : MemInv (s.hostdone handle) := by
  unfold State.hostdone
  split
  · exact h
  · exact ite_memInv (.of_mem h (by rfl)) h

theorem discard_memInv {port} : MemInv (s.discard port) := setGe_memInv h

theorem launchPacket_memInv {p} : MemInv (s.launchPacket p) := by
  unfold State.launchPacket
  dsimp only
  split
  · exact discard_memInv h
  · exact ite_memInv (discard_memInv h) (.of_mem h (by rfl))

theorem portWrite_memInv {p val} : MemInv (s.portWrite p val) := ite_memInv (setGe_memInv (setGe_memInv h)) (setGe_memInv h)

theorem portConfigure_memInv {p val} : MemInv (s.portConfigure p val) := ite_memInv (portWrite_memInv h) h

theorem portUnconfigure_memInv {p val} : MemInv (s.portUnconfigure p val) := ite_memInv (portWrite_memInv h) h

/-! ## The kill of a task (R487) -/

theorem tkill_memInv {handle} : MemInv (s.tkill handle) := by
  unfold State.tkill
  split
  · exact h
  · exact ite_memInv h (.of_mem (abortTask_memInv h) (by rfl))

/-! ## LAUNCH (R81 to R83) -/

theorem bodyLaunch_memInv {r} : MemInv (bodyLaunch r s) := by
  unfold bodyLaunch
  exact .of_mem
    (eachSlice_memInv h
      (fun _ _ _ _ h =>
        ite_memInv (trapOne_memInv h)
          (ite_memInv (advance_memInv (mapDests_memInv (publishSlice_memInv (release_memInv h)))) (setWait_memInv (release_memInv h)))))
    ((by rfl))

/-! ## NWAIT (R84) -/

theorem nwaitOne_memInv {r u i m} : MemInv (s.nwaitOne r u i m) :=
  ite_memInv (trapOne_memInv h)
    (ite_memInv (modSlice_memInv h) (ite_memInv (setWait_memInv (modSlice_memInv h)) (commit_memInv (ite_memInv h (acquire_memInv h)))))

theorem bodyNwait_memInv {r} : MemInv (bodyNwait r s) := eachSlice_memInv h (fun _ _ _ _ h => nwaitOne_memInv h)

end

end Sys2Proof.Machine

/-!
PROOFS. Memory stays canonical: splices, the cells that come in, and hitches.
-/
namespace Sys2Proof.Machine

section
variable {s : State} (h : MemInv s)
include h

/-! ## The ends of a splice (R401) -/

theorem dropSplice_memInv {p} : MemInv (s.dropSplice p) := .of_mem h rfl

theorem spliceFail_memInv {p cause} : MemInv (s.spliceFail p cause) := awUpdate_memInv (awUpdate_memInv (ite_memInv h (scrWrite_memInv h)))

theorem spliceStop_memInv {cause p} : MemInv (s.spliceStop cause p) := ite_memInv h (ite_memInv (.of_mem h (by rfl)) (spliceFail_memInv (dropSplice_memInv h)))

theorem spliceShut_memInv {cause p} : MemInv (s.spliceShut cause p) := ite_memInv (.of_mem h (by rfl)) (spliceFail_memInv h)

theorem spliceAbort_memInv {comm seq cause} : MemInv (s.spliceAbort comm seq cause) := foldS_memInv (.of_mem h (by rfl)) (fun _ _ h => spliceStop_memInv h)

theorem spliceDone_memInv {p m} : MemInv (s.spliceDone p m) := by
  refine ite_memInv h (ite_memInv (awUpdate_memInv (.of_mem h (by rfl))) (awUpdate_memInv ?_))
  split
  · exact scrWrite_memInv (scrWrite_memInv (dropSplice_memInv (scrWrite_memInv h)))
  · exact scrWrite_memInv (dropSplice_memInv (scrWrite_memInv h))

/-! ## Messages (R395, R398) -/

theorem sendSplice_memInv {src via m} : MemInv (s.sendSplice src via m) := by
  unfold State.sendSplice
  dsimp only
  split
  · exact ite_memInv (spliceAbort_memInv h) (ite_memInv (spliceAbort_memInv h) (ite_memInv (ite_memInv (.of_mem h (by rfl)) h) (spliceTold_memInv h)))
  · exact ite_memInv (ite_memInv (.of_mem h (by rfl)) h) (ite_memInv (spliceAbort_memInv h) (sendOpen_memInv (ite_memInv (.of_mem h (by rfl)) h)))

theorem stepFormed_memInv {c f via m ps} : MemInv (s.stepFormed c f via m ps) := by
  refine ite_memInv (foldS_memInv h (fun _ _ h => sendSplice_memInv h)) ?_
  split
  · exact spliceAbort_memInv h
  · exact sendSplice_memInv h

theorem spliceArrive_memInv {l m} : MemInv (s.spliceArrive l m) := by
  unfold State.spliceArrive
  split
  · exact spliceAbort_memInv h
  · exact spliceAbort_memInv h
  · refine ite_memInv (spliceAbort_memInv h) (ite_memInv h (ite_memInv (spliceAbort_memInv h) ?_))
    dsimp only
    split
    · exact .of_mem h rfl
    · exact stepFormed_memInv (.of_mem h (by rfl))

theorem spliceWord_memInv {p m} : MemInv (s.spliceWord p m) :=
  ite_memInv h (ite_memInv (spliceDone_memInv (.of_mem h (by rfl))) (spliceFail_memInv (dropSplice_memInv h)))

theorem spliceMessage_memInv {m} : MemInv (s.spliceMessage m) := by
  unfold State.spliceMessage
  split
  · exact spliceWord_memInv h
  · refine ite_memInv h ?_
    split
    · exact ite_memInv (spliceArrive_memInv (.of_mem h (by rfl))) (.of_mem h (by rfl))
    · split
      · exact .of_mem h rfl
      · exact ite_memInv (spliceAbort_memInv (.of_mem h (by rfl))) (ite_memInv (.of_mem h (by rfl)) (spliceDone_memInv (.of_mem h (by rfl))))

theorem spliceTimeout_memInv {l comm seq lo hi} : MemInv (s.spliceTimeout l comm seq lo hi) := by
  unfold State.spliceTimeout
  dsimp only
  split
  · exact h
  · exact ite_memInv h (spliceAbort_memInv h)

/-! ## SPLICE (R400) -/

theorem spliceStart_memInv {r poisoned p plan elems} : MemInv (s.spliceStart r poisoned p plan elems) := by
  refine ite_memInv (spliceShut_memInv h) (ite_memInv (spliceShut_memInv h) ?_)
  dsimp only
  split
  · exact spliceAbort_memInv (.of_mem h (by rfl))
  · exact ite_memInv (spliceAbort_memInv (.of_mem h (by rfl))) (sendSplice_memInv (.of_mem h (by rfl)))

theorem spliceOne_memInv {r u i m} : MemInv (s.spliceOne r u i m) := by
  unfold State.spliceOne
  dsimp only
  split
  · exact trapOne_memInv (geForget_memInv h)
  · exact setWait_memInv (geHold_memInv h)
  · exact h
  · exact ite_memInv (setWait_memInv (release_memInv h))
      (ite_memInv (eccTeam_memInv (commit_memInv (foldS_memInv (publishSlice_memInv (release_memInv h)) (fun _ _ h => spliceStart_memInv h))))
        (commit_memInv (foldS_memInv (publishSlice_memInv (release_memInv h)) (fun _ _ h => spliceStart_memInv h))))

theorem bodySplice_memInv {r} : MemInv (bodySplice r s) := eachSlice_memInv h (fun _ _ _ _ h => spliceOne_memInv h)

/-! ## Links, cells and flows (R386 to R390) -/

theorem linkUp_memInv {l} : MemInv (s.linkUp l) := ite_memInv (flushSends_memInv (setGe_memInv h)) h

theorem linkDown_memInv {l} : MemInv (s.linkDown l) := ite_memInv (foldS_memInv (tell_memInv (setGe_memInv h)) (fun _ _ h => spliceAbort_memInv h)) h

theorem closeFlow_memInv {link cls k} : MemInv (s.closeFlow link cls k) := foldS_memInv (.of_mem h (by rfl)) (fun _ _ h => spliceAbort_memInv h)

theorem received_memInv {link cls k ps} : MemInv (s.received link cls k ps) := by
  refine ite_memInv (launchPacket_memInv h) (ite_memInv ?_ (.of_mem h (by rfl)))
  split
  · exact .of_mem h rfl
  · exact .of_mem h rfl

theorem cellReceive_memInv {link c} : MemInv (s.cellReceive link c) :=
  ite_memInv h
    (ite_memInv h
      (ite_memInv (closeFlow_memInv (ite_memInv (discard_memInv h) h)) (ite_memInv (received_memInv (.of_mem h (by rfl))) (.of_mem h (by rfl)))))

theorem flowRekey_memInv {domain flow} : MemInv (s.flowRekey domain flow) := ite_memInv (flushSends_memInv (.of_mem h (by rfl))) h

/-! ## Rounds (R407 to R414) -/

theorem putObject_memInv {pa o} : MemInv (s.putObject pa o) := (putObject_memStep ..).inv h

/-! ## Answers (R417, R419) -/

theorem actUnit_memInv {pa o} : MemInv (s.actUnit pa o) := (actUnit_tasksKept ..).inv h

theorem unitEvent_memInv {pa e} : MemInv (s.unitEvent pa e) := (unitEvent_tasksKept ..).inv h

theorem hitchContribution_memInv {c} : MemInv (s.hitchContribution c) := (hitchContribution_tasksKept ..).inv h

theorem retryClose_memInv {pa} : MemInv (s.retryClose pa) := by
  unfold State.retryClose
  split
  · exact ite_memInv (actUnit_memInv h) h
  · exact h

theorem depart_memInv {u} : MemInv (s.depart u) := (depart_tasksKept ..).inv h

theorem farJoin_memInv {pa m} : MemInv (s.farJoin pa m) := by
  unfold State.farJoin
  split
  · exact ite_memInv h (.of_mem h (by rfl))
  · exact h

theorem farDepart_memInv {pa m} : MemInv (s.farDepart pa m) := ite_memInv (unitEvent_memInv h) h

theorem farRuns_memInv {pa m runs} : MemInv (s.farRuns pa m runs) := ite_memInv (.of_mem h (by rfl)) h

/-! ## Operands and checks (R415, R416) -/

theorem contribIssue_memInv {r u i m x} : MemInv (s.contribIssue r u i m x) := advance_memInv (.of_mem (mapDests_memInv h) (by rfl))

theorem hitchOut_memInv {r u i m v} : MemInv (s.hitchOut r u i m v) := commit_memInv h

theorem hitchHold_memInv {u i k c va} : MemInv (s.hitchHold u i k c va) := setWait_memInv (geHold_memInv h)

/-! ## HINIT and HJOIN (R418) -/

omit h in
theorem of_ite_eq {α : Type} {c p : Prop} [Decidable c] {a b x : α} (ha : a = x → p) (hb : b = x → p) (e : (if c then a else b) = x) : p := by
  split at e
  · exact ha e
  · exact hb e

theorem hinitAnswer_memInv {g asid obj pa con code t} (e : s.hinitAnswer g asid obj pa con = .ok (code, t)) : MemInv t := by
  unfold State.hinitAnswer at e
  split at e
  · cases e
    exact h
  · split at e
    · cases e
    · cases e
      exact h
    · dsimp only at e
      split at e
      · cases e
        exact h
      · split at e
        · cases e
        · cases e
          exact h
        · split at e
          · cases e
            exact h
          · refine of_ite_eq (fun e => ?_) (fun e => ?_) e
            · cases e
              exact h
            · split at e
              · cases e
              · cases e
                exact h
              · cases e
                exact putObject_memInv (.of_mem h (by rfl))

theorem farInit_memInv {asid obj} : MemInv (s.farInit asid obj) := by
  unfold State.farInit
  split
  · refine ite_memInv h ?_
    split
    case h_1 t e => exact (hinitAnswer_memInv h e)
    · exact h
  · exact h

theorem hinitOne_memInv {r u i m} : MemInv (s.hinitOne r u i m) := by
  unfold State.hinitOne
  dsimp only
  split
  · exact trapOne_memInv h
  · refine ite_memInv (trapOne_memInv h) ?_
    split
    · exact hitchOut_memInv (geForget_memInv h)
    · exact hitchHold_memInv h
    · refine ite_memInv (setWait_memInv h) ?_
      split
      · exact hitchOut_memInv (geForget_memInv h)
      · exact hitchHold_memInv h
      case h_3 t e => exact hitchOut_memInv (geForget_memInv (hinitAnswer_memInv h e))

theorem joinAnswer_memInv {u obj pa b} : MemInv (s.joinAnswer u obj pa b).2.2 := by
  unfold State.joinAnswer
  split
  · split
    · exact h
    · exact iteInduction (motive := fun p : Nat × Nat × State => MemInv p.2.2) (fun _ => h) fun _ =>
        iteInduction (motive := fun p : Nat × Nat × State => MemInv p.2.2) (fun _ => h) fun _ => modTeam_memInv (.of_mem h (by rfl))
  · exact h

theorem hjoinOne_memInv {r u i m} : MemInv (s.hjoinOne r u i m) := by
  unfold State.hjoinOne
  dsimp only
  split
  · exact trapOne_memInv h
  · refine ite_memInv (trapOne_memInv h) (ite_memInv (trapOne_memInv h) ?_)
    split
    · exact hitchHold_memInv h
    · exact hitchOut_memInv (geForget_memInv h)
    · exact ite_memInv (setWait_memInv h) (hitchOut_memInv (joinAnswer_memInv h))

/-! ## HCONTRIB, HWAIT and HQUERY (R419 to R422) -/

theorem hcontribOne_memInv {r u i m} : MemInv (s.hcontribOne r u i m) := by
  unfold State.hcontribOne
  dsimp only
  split
  · exact trapOne_memInv h
  · exact trapOne_memInv h
  · split
    · exact trapOne_memInv h
    · exact trapOne_memInv h
    · split
      · exact trapOne_memInv h
      · exact setWait_memInv (askWalk_memInv h)
      · exact setWait_memInv (raiseFault_memInv h)
      · exact ite_memInv (trapOne_memInv h)
          (ite_memInv (trapOne_memInv h)
            (ite_memInv (setWait_memInv (release_memInv h))
              (contribIssue_memInv
                (ite_memInv (ite_memInv (sticky_memInv (release_memInv h)) (release_memInv h))
                  (eccTeam_memInv (ite_memInv (sticky_memInv (release_memInv h)) (release_memInv h)))))))

theorem hwaitOne_memInv {r u i m} : MemInv (s.hwaitOne r u i m) := by
  unfold State.hwaitOne
  dsimp only
  split
  · exact trapOne_memInv h
  · exact trapOne_memInv h
  · refine ite_memInv (trapOne_memInv h) ?_
    split
    · exact setWaitAt_memInv h
    · exact ite_memInv (setWaitAt_memInv h)
        (ite_memInv (setWait_memInv h)
          (ite_memInv (hitchOut_memInv (acquire_memInv h))
            (ite_memInv (sticky_memInv (hitchOut_memInv (acquire_memInv h))) (trapOne_memInv (setPc_memInv (hitchOut_memInv (acquire_memInv h)))))))

theorem hqueryOne_memInv {r u i m} : MemInv (s.hqueryOne r u i m) := by
  unfold State.hqueryOne
  dsimp only
  split
  · exact trapOne_memInv h
  · refine ite_memInv (trapOne_memInv h) ?_
    split
    · exact hitchHold_memInv h
    · exact hitchOut_memInv (geForget_memInv h)
    · exact ite_memInv (setWait_memInv h) (hitchOut_memInv h)

/-! ## The watchdog (R423) -/

theorem hitchWatchdog_memInv {u i} : MemInv (s.hitchWatchdog u i) := by
  unfold State.hitchWatchdog
  dsimp only
  split
  · exact h
  · split
    · exact ite_memInv h (takeTrap_memInv h)
    · exact h

end

end Sys2Proof.Machine

/-!
PROOFS. Memory stays canonical: the placing of teams, context saves, and the ends of teams and tasks.
-/
namespace Sys2Proof.Machine

section
variable {s : State} (h : MemInv s)
include h

/-! ## Starting a team (R31, R37, R78, R97 to R99) -/

omit h in
theorem l1Fit_memInv {c} : ∀ (n : Nat) {s : State}, MemInv s → MemInv (s.l1Fit c n)
  | 0, _, h => h
  | n + 1, s, h => by
    rw [State.l1Fit]
    refine ite_memInv ?_ h
    split
    · exact h
    · exact l1Fit_memInv n (l1Drop_memInv h)

theorem admitted_memInv {k index c} : MemInv (s.admitted k index c) := report_memInv (.of_mem h (by rfl))

theorem freshCode_memInv {k index} : MemInv (s.freshCode k index) := ite_memInv (modTask_memInv h) h

theorem startTeam_memInv {k index c slot bs} : MemInv (s.startTeam k index c slot bs) :=
  admitted_memInv
    (ite_memInv (freshCode_memInv (acquire_memInv (l1Fit_memInv _ (.of_mem h (by rfl)))))
      (modCtx_memInv (freshCode_memInv (acquire_memInv (l1Fit_memInv _ (.of_mem h (by rfl)))))))

/-! ## Restoring a team (R448) -/

theorem reloadTeam_memInv {u} : MemInv (s.reloadTeam u) := by
  unfold State.reloadTeam
  dsimp only
  split
  · split
    · split
      · exact h
      · exact modTeam_memInv h
    · refine modTeam_memInv ?_
      split
      · exact h
      · exact modTeam_memInv h
  · refine modTeam_memInv ?_
    split
    · split
      · exact h
      · exact modTeam_memInv h
    · refine modTeam_memInv ?_
      split
      · exact h
      · exact modTeam_memInv h

theorem reenter_memInv {u i} : MemInv (s.reenter u i) := by
  unfold State.reenter
  split
  · exact modSlice_memInv (areaWrite_memInv h)
  · exact h

theorem restoreTeam_memInv {k u c} : MemInv (s.restoreTeam k u c) := by
  unfold State.restoreTeam
  split
  · exact h
  · exact admitted_memInv
      (foldS_memInv
        (geForget_memInv (reloadTeam_memInv (foldS_memInv (acquire_memInv (l1Fit_memInv _ (.of_mem h (by rfl)))) (fun _ _ h => modCtx_memInv h))))
        (fun _ _ h => reenter_memInv h))

/-! ## Offering teams (R96, R100, R101) -/

theorem restoreHeld_memInv {us t} (e : s.restoreHeld us = some t) : MemInv t := by
  obtain ⟨u, -, hu⟩ := List.exists_of_findSome?_eq_some e
  split at hu
  · cases hu
    exact geHold_memInv h
  · cases hu

theorem placeHeld_memInv {k t} (e : s.placeHeld k = some t) : MemInv t := by
  unfold State.placeHeld at e
  split at e
  case h_1 w hw =>
    cases e
    exact restoreHeld_memInv h hw
  case h_2 =>
    split at e
    · cases e
      exact geHold_memInv h
    · cases e

/-! ## The first dispatch of a task (R46, R64, R75 to R77) -/

/-- The machine after an offer of a team. -/
def Offer.state (o : Offer) (s : State) : State := match o with | .placed t => t | .stop t => t | .noFit => s

theorem startAll_memInv {serial us} : MemInv ((s.startAll serial us).state s) := by
  unfold State.startAll
  split
  · exact h
  · split
    · exact h
    · split
      · exact foldS_memInv h fun _ _ h => startTeam_memInv h
      · exact geHold_memInv h
      · exact abortTask_memInv (geForget_memInv h)

theorem offerNew_memInv {serial} : MemInv ((s.offerNew serial).state s) := by
  unfold State.offerNew
  split
  · exact h
  · split
    · split
      · exact h
      · exact startAll_memInv h
    · split
      · exact h
      · exact startAll_memInv h

theorem offerSaved_memInv {serial u} : MemInv ((s.offerSaved serial u).state s) := by
  unfold State.offerSaved
  split
  · split
    · dsimp only
      split
      · exact h
      · split
        · exact h
        · split
          case h_1 e => exact restoreHeld_memInv h e
          case h_2 => exact foldS_memInv h fun _ _ h => restoreTeam_memInv h
    · split
      · exact h
      · split
        case h_1 e => exact restoreHeld_memInv h e
        case h_2 => exact restoreTeam_memInv h
  · exact h

omit h in
theorem offer_memInv {p : Pass} {f : State → Offer} (h : MemInv p.s) (hf : ∀ s, MemInv s → MemInv ((f s).state s)) : MemInv (p.offer f).s := by
  have hp : MemInv ((f p.s).state p.s) := hf p.s h
  unfold Pass.offer
  split
  · exact h
  · split
    case h_1 e => rwa [e] at hp
    case h_2 => exact h
    case h_3 e => rwa [e] at hp

omit h in
theorem newTeams_memInv {serial} : ∀ (n : Nat) {p : Pass}, MemInv p.s → MemInv (p.newTeams serial n).s
  | 0, _, h => h
  | n + 1, p, h => by
    rw [Pass.newTeams]
    split
    · exact h
    · split
      · exact h
      · exact newTeams_memInv n (offer_memInv h fun _ h => offerNew_memInv h)

theorem offerTask_memInv {serial} : MemInv (s.offerTask serial).s := by
  unfold State.offerTask
  split
  · exact h
  case h_2 k _ =>
    extract_lets whole saved p q short faulted
    have hp : MemInv p.s := List.foldlRecOn (motive := fun p : Pass => MemInv p.s) saved _ h fun p h e _ => by
      refine offer_memInv h fun s h => ?_
      split
      · exact offerSaved_memInv h
      · exact h
    split
    · exact ite_memInv (getD_memInv h fun _ e => placeHeld_memInv h e) h
    · exact newTeams_memInv _ hp

omit h in
theorem get_s {L : Log} {serial c off n} : (L.get serial c off n).2.s = L.s := by
  unfold Log.get
  split
  · rfl
  · dsimp only
    split
    · rfl
    · rfl
    · rfl

omit h in
theorem init_memInv {L : Log} {serial c} (h : MemInv L.s) : MemInv (L.init serial c).s :=
  ((put_logStep L serial c 8 8 0).trans (foldl_logStep _ (fun _ _ => put_logStep ..) _ _)).inv h

theorem openLog_memInv {k} : MemInv (s.openLog k).1 := by
  refine ite_fst_memInv h ?_
  dsimp -zeta only
  extract_lets L n bad L'
  have hL : MemInv ((L.get k.serial geCore 0 8).2.get k.serial geCore 8 8).2.s := by rw [get_s, get_s]; exact h
  have hL' : MemInv L'.s := by
    unfold L'
    split
    · exact init_memInv hL
    · exact hL
  split
  · exact logFault_memInv (ite_memInv h hL')
  · exact ite_fst_memInv (abortTask_memInv h) (modTask_memInv hL')

theorem endEmpty_memInv {serial capx} : MemInv (s.endEmpty serial capx) := modTask_memInv h

theorem dispatchTask_memInv {serial} : MemInv (s.dispatchTask serial).s := by
  unfold State.dispatchTask
  split
  · exact h
  · split
    · exact offerTask_memInv h
    · split
      · exact endEmpty_memInv h
      · split
        · split
          · exact endEmpty_memInv h
          · exact .of_mem h rfl
        · split
          · exact h
          · dsimp only
            split
            · exact openLog_memInv h
            · split
              · exact endEmpty_memInv (openLog_memInv h)
              · exact offerTask_memInv (modTask_memInv (openLog_memInv h))

/-! ## Passes (R74, R100, R103, R104) -/

omit h in
theorem walkReady_memInv : ∀ (ns : List Nat) {s : State}, MemInv s → MemInv (s.walkReady ns).1
  | [], _, h => h
  | _ :: ns, _, h => walkReady_memInv ns (dispatchTask_memInv h)

omit h in
theorem countPasses_memInv : ∀ (ps : List (Nat × Bool)) {s : State}, MemInv s → MemInv (s.countPasses ps)
  | [], _, h => h
  | (_, _) :: ps, _, h => countPasses_memInv ps (ite_memInv (modTask_memInv h) h)

omit h in
theorem giveResvs_memInv {agelim} : ∀ (ns : List Nat) {s : State}, MemInv s → MemInv (s.giveResvs agelim ns)
  | [], _, h => h
  | n :: ns, s, h => by
    rw [State.giveResvs]
    refine giveResvs_memInv ns ?_
    split
    · exact ite_memInv (modTask_memInv h) h
    · exact h

theorem want_memInv {u} : MemInv (s.want u) := by
  unfold State.want
  split
  · exact .of_mem h rfl
  · exact h

omit h in
theorem victims_memInv {k v} : ∀ (n : Nat) {s : State}, MemInv s → MemInv (s.victims k v n)
  | 0, _, h => h
  | n + 1, s, h => by
    rw [State.victims]
    refine ite_memInv h ?_
    dsimp only
    split
    · exact h
    · exact victims_memInv n (want_memInv h)

theorem preempt_memInv : MemInv s.preempt := by
  refine ite_memInv (foldS_memInv h (fun _ _ h => ?_)) h
  split
  · exact victims_memInv _ h
  · exact h

theorem syncResv_memInv : MemInv s.syncResv := setGe_memInv h

theorem dispatchPass_memInv : MemInv s.dispatchPass :=
  ite_memInv h (syncResv_memInv (preempt_memInv (giveResvs_memInv _ (countPasses_memInv _ (walkReady_memInv _ (.of_mem h (by rfl)))))))

theorem plctlWrite_memInv {val} : MemInv (s.plctlWrite val) := ite_memInv h (.of_mem h (by rfl))

/-! ## Pre-emption (R445, R447) -/

theorem haltRequest_memInv {u} : MemInv (s.haltRequest u) := by
  unfold State.haltRequest
  split
  · exact h
  · exact ite_memInv (.of_mem h (by rfl)) (ite_memInv (.of_mem (want_memInv h) (by rfl)) h)

theorem csaAll_memInv {u ps t} (e : s.csaAll u ps = .done t) : MemInv t := (csaAll_memStep u ps e).inv h

theorem contextSave_memInv {u} : MemInv (s.contextSave u) := by
  unfold State.contextSave
  split
  · exact h
  · have hf : MemInv (foldS (fun k s => s.partFlags k) (s.heldKeys u) s) := foldS_memInv h fun _ _ h => partFlags_memInv h
    refine ite_memInv h (ite_memInv (wcDrain_memInv hf) ?_)
    split
    · exact trapEnd_memInv hf
    · exact raiseFault_memInv hf
    case h_3 e => exact .of_mem (foldS_memInv (csaAll_memInv hf e) fun _ _ h => modCtx_memInv h) (by rfl)

/-! ## The end of a team (R484) -/

theorem settleAll_memInv {serial} : MemInv (s.settleAll serial) := by
  unfold State.settleAll
  split
  · exact h
  · exact foldS_memInv h (fun _ _ h => settleLevel_memInv h)

theorem teamEnd_memInv {u} : MemInv (s.teamEnd u) := by
  unfold State.teamEnd
  split
  · exact h
  · refine ite_memInv h (ite_memInv (wcDrain_memInv h) (earlyRelease_memInv (settleAll_memInv (modTask_memInv ?_))))
    split
    · exact podLeave_memInv
        (.of_mem
          (ite_memInv (depart_memInv (foldS_memInv h (fun _ _ h => modCtx_memInv h)))
            (releaseL1_memInv (depart_memInv (foldS_memInv h (fun _ _ h => modCtx_memInv h)))))
          ((by rfl)))
    · exact .of_mem
        (ite_memInv (depart_memInv (foldS_memInv h (fun _ _ h => modCtx_memInv h)))
          (releaseL1_memInv (depart_memInv (foldS_memInv h (fun _ _ h => modCtx_memInv h)))))
        ((by rfl))

/-! ## The end of a task (R485, R486) -/

theorem retire_memInv {k} : MemInv (s.retire k) := by
  refine syncResv_memInv (.of_mem (ite_memInv ?_ (satisfyEdges_memInv ?_)) (by rfl))
  · split
    · exact report_memInv h
    · exact report_memInv h
  · split
    · exact report_memInv h
    · exact report_memInv h

theorem taskEnd_memInv {handle} : MemInv (s.taskEnd handle) := by
  unfold State.taskEnd
  split
  · exact h
  · refine ite_memInv h (ite_memInv (retire_memInv (modTask_memInv (publishTask_memInv h))) ?_)
    split
    · exact retire_memInv (homeWrite_memInv (modTask_memInv (publishTask_memInv h)))
    · exact geHold_memInv (modTask_memInv (publishTask_memInv h))
    · exact retire_memInv (setGe_memInv (modTask_memInv (publishTask_memInv h)))

end

end Sys2Proof.Machine

/-!
PROOFS. Memory stays canonical: storage errors, resets, the host complex, register entries and the passing of cycles.
-/
namespace Sys2Proof.Machine

section
variable {s : State} (h : MemInv s)
include h

/-! ## Walks (R129, R130) -/

theorem wake_memInv {a w} : MemInv (s.wake a w) := by
  unfold State.wake
  split
  · exact modSlice_memInv h
  · exact modCtx_memInv h

theorem keepFault_memInv {w f} : MemInv (s.keepFault w f) := by
  unfold State.keepFault
  split
  · exact modSlice_memInv h
  · exact modCtx_memInv h
  · exact modOp_memInv h
  · exact h

theorem walked_memInv {w} : MemInv (s.walked w) := by
  unfold State.walked
  split
  · exact wake_memInv h
  · exact wake_memInv h
  · exact h

theorem walkOne_memInv {die} : MemInv (s.walkOne die) := by
  unfold State.walkOne
  split
  · exact h
  · refine foldS_memInv ?_ (fun _ _ h => walked_memInv h)
    split
    · exact foldS_memInv (modDie_memInv h) (fun _ _ h => tlbFill_memInv h)
    · exact foldS_memInv (modDie_memInv h) (fun _ _ h => keepFault_memInv h)

/-! ## The answers to a fault (R122, R126, R128) -/

theorem goOn_memInv {a} : MemInv (s.goOn a) := ite_memInv h (wake_memInv h)

theorem geAnswered_memInv {g} : MemInv (s.geAnswered g) := by
  unfold State.geAnswered
  split
  · exact goOn_memInv h
  · exact .of_mem h rfl

theorem answered_memInv {a f xs} : MemInv (s.answered a f xs) := by
  refine goOn_memInv ?_
  split
  · exact modSlice_memInv h
  · exact modCtx_memInv h

theorem leafImages_memInv {asid va} : MemInv (s.leafImages asid va) := by
  unfold State.leafImages
  split
  · exact .of_mem h rfl
  · exact h

theorem retryOne_memInv {f w} : MemInv (s.retryOne f w) := by
  unfold State.retryOne
  split
  · exact answered_memInv h
  · exact answered_memInv h
  · exact modOp_memInv h
  · exact setCell_memInv h
  · exact wake_memInv h
  · split
    · exact areaWrite_memInv (.of_mem h (by rfl))
    · exact h
  · exact geAnswered_memInv h
  · exact .of_mem
      (foldS_memInv (foldS_memInv h (fun _ _ h => ite_memInv (foldS_memInv h (fun _ _ h => wake_memInv h)) h))
        (fun _ _ h => ite_memInv (wake_memInv h) h))
      ((by rfl))

theorem failOne_memInv {f w} : MemInv (s.failOne f w) := by
  unfold State.failOne
  dsimp only
  split
  · exact ite_memInv (answered_memInv h) h
  · exact ite_memInv (answered_memInv h) h
  · exact modOp_memInv h
  · exact setCell_memInv h
  · exact trapEnd_memInv (wake_memInv h)
  · exact .of_mem h rfl
  · exact geAnswered_memInv (.of_mem h (by rfl))
  · exact abortTask_memInv (retryOne_memInv h)

theorem answerFault_memInv {die idx retry} : MemInv (s.answerFault die idx retry) := by
  unfold State.answerFault
  split
  · exact h
  · exact foldS_memInv
      (ite_memInv (leafImages_memInv (setTc_memInv (setTc_memInv (modDie_memInv h)))) (setTc_memInv (setTc_memInv (modDie_memInv h))))
      (fun _ _ h => ite_memInv (retryOne_memInv h) (failOne_memInv h))

/-! ## Invalidations (R125) -/

theorem invalidate_memInv {scope asid npg} : MemInv (s.invalidate scope asid npg) :=
  ite_memInv h (.of_mem (foldS_memInv h (fun _ _ h => wcDrain_memInv h)) (by rfl))

theorem invalDone_memInv : MemInv s.invalDone := by
  unfold State.invalDone
  split
  · exact h
  · exact ite_memInv h
      (ite_memInv (foldS_memInv h (fun _ _ h => wcDrain_memInv h))
        (setTc_memInv (.of_mem (foldS_memInv h (fun _ _ h => l1BackAll_memInv h)) (by rfl))))

/-! ## Storage errors (R455, R456) -/

theorem fenceCore_memInv {c} : MemInv (s.fenceCore c) := foldS_memInv (modCore_memInv h) (fun _ _ h => ite_memInv (want_memInv h) h)

theorem lasting_memInv {die loc} : MemInv (s.lasting die loc) := by
  unfold State.lasting
  dsimp only
  split
  · exact fenceCore_memInv (tell_memInv h)
  · exact fenceCore_memInv (tell_memInv h)
  · exact .of_mem h rfl
  · exact modDie_memInv (tell_memInv h)
  · exact tell_memInv h

theorem countError_memInv {die loc} : MemInv (s.countError die loc) := by
  unfold State.countError
  dsimp only
  split
  · exact ite_memInv (lasting_memInv (modDie_memInv h)) (modDie_memInv h)
  · exact modDie_memInv h

theorem correctedError_memInv {die loc} : MemInv (s.correctedError die loc) := by
  unfold State.correctedError
  split
  · exact countError_memInv h
  · exact h

omit h in
theorem frees_memInv : ∀ (n : Nat) {s : State}, MemInv s → MemInv (s.frees n).2
  | 0, _, h => h
  | n + 1, _, h => frees_memInv n (free_memInv h)

theorem uncorrectable_memInv {die loc} : MemInv (s.uncorrectable die loc) := by
  unfold State.uncorrectable
  dsimp only
  split
  · exact .of_mem h rfl
  · exact .of_mem h rfl
  · exact modDie_memInv (tell_memInv h)
  · exact modCore_memInv (tell_memInv h)
  · exact ite_memInv (tell_memInv h) (modTeam_memInv (scrWrite_memInv (free_memInv (tell_memInv h))))
  · exact modSlice_memInv (free_memInv (tell_memInv h))
  · split
    · exact tell_memInv h
    · exact modSlice_memInv (frees_memInv _ (tell_memInv h))
  · split
    · exact tell_memInv h
    · exact modSlice_memInv (free_memInv (free_memInv (tell_memInv h)))
  · exact modCtx_memInv (tell_memInv h)
  · exact tell_memInv h
  · exact tell_memInv h
  · exact tell_memInv h

/-! ## Features, throttling and the life cycle (R490 to R495) -/

theorem featdrvWrite_memInv {val} : MemInv (s.featdrvWrite val) := ite_memInv h (setGe_memInv h)

theorem throttle_memInv {t} : MemInv (s.throttle t) := ite_memInv (setGe_memInv (setGe_memInv (foldS_memInv h (fun _ _ h => modDie_memInv h)))) (tell_memInv h)

theorem throttleStart_memInv {die} : MemInv (s.throttleStart die) := modDie_memInv h

omit h in
theorem filter_wfFrom (p : Nat × Byte → Bool) : ∀ (m : Mem) (lo : Nat), Mem.wfFrom m lo = true → Mem.wfFrom (m.filter p) lo = true
  | [], _, _ => rfl
  | (a, b) :: m, lo, h => by
    simp only [Mem.wfFrom, Bool.and_eq_true, decide_eq_true_eq] at h
    obtain ⟨⟨hlo, hb⟩, hm⟩ := h
    rw [List.filter_cons]
    split
    · simp only [Mem.wfFrom, Bool.and_eq_true, decide_eq_true_eq]
      exact ⟨⟨hlo, hb⟩, filter_wfFrom p m (a + 1) hm⟩
    · exact filter_wfFrom p m lo (wfFrom_weaken m (a + 1) lo (by omega) hm)

theorem wipe_memInv : MemInv s.wipe := filter_wfFrom _ s.mem 0 h

theorem critical_memInv {die} : MemInv (s.critical die) := wipe_memInv (tell_memInv h)

theorem firmwareLoad_memInv {f} : MemInv (s.firmwareLoad f) := ite_memInv h (ite_memInv (setGe_memInv (modMgmt_memInv (modMgmt_memInv h))) (modMgmt_memInv h))

theorem transition_memInv {life} : MemInv (s.transition life) := ite_memInv (modMgmt_memInv (wipe_memInv h)) h

theorem spdm_memInv {request} : MemInv (s.spdm request) := modMgmt_memInv h

/-! ## Host writes (R10, R279) -/

theorem clearSlots_memInv : MemInv s.clearSlots := .of_mem h rfl

theorem podConfigure_memInv {i} : MemInv (s.podConfigure i) := ite_memInv (.of_mem h (by rfl)) h

theorem geWrite_memInv {off v} : MemInv (s.geWrite off v) :=
  ite_memInv (subaddrWrite_memInv h)
    (ite_memInv (hostdone_memInv h)
      (ite_memInv (tkill_memInv h)
        (ite_memInv (plctlWrite_memInv h)
          (ite_memInv (featdrvWrite_memInv h)
            (ite_memInv (ite_memInv (portWrite_memInv h) (ite_memInv h (setGe_memInv h)))
              (ite_memInv (ite_memInv (clearSlots_memInv (setGe_memInv h)) (setGe_memInv h))
                (ite_memInv (podConfigure_memInv (setGe_memInv h)) (setGe_memInv h))))))))

theorem tscopeWrite_memInv {v} : MemInv (s.tscopeWrite v) := ite_memInv h (invalidate_memInv h)

theorem tcWrite_memInv {off v} : MemInv (s.tcWrite off v) :=
  ite_memInv (tscopeWrite_memInv h) (ite_memInv (ite_memInv (answerFault_memInv h) h) (setTc_memInv h))

theorem registerWrite_memInv {pa val} : MemInv (s.registerWrite pa val) := ite_memInv h (ite_memInv (geWrite_memInv h) (ite_memInv (tcWrite_memInv h) h))

theorem hostAccess_memInv {a} : MemInv (s.hostAccess a) := by
  unfold State.hostAccess
  split
  · exact h
  · exact ite_memInv (homeWrite_memInv h) h

/-! ## Set-up of communicators and hitches (R62, R68, R69) -/

theorem setUp_memInv {q} : MemInv (s.setUp q) := by
  refine ite_memInv h ?_
  dsimp only
  split
  · exact .of_mem h rfl
  · exact ite_memInv (.of_mem h (by rfl)) (foldS_memInv (.of_mem h (by rfl)) (fun _ _ h => geWrite_memInv h))
  · exact hostAccess_memInv (.of_mem h (by rfl))

/-! ## Fetch (R109, R113, R151) -/

theorem codeFill_memInv {c task pa} : MemInv (s.codeFill c task pa) := ite_memInv (modCore_memInv h) h

omit h in
theorem codeHeld_memInv {a} : ∀ (va n : Nat) {s : State}, MemInv s → MemInv (s.codeHeld a va n)
  | _, 0, _, h => h
  | va, n + 1, s, h => by
    rw [State.codeHeld]
    split
    · exact codeHeld_memInv _ n (ite_memInv h (codeFill_memInv h))
    · exact h

/-! ## Readiness -/

theorem rejoined_memInv {u i} : MemInv (s.rejoined u i) := foldS_memInv h (fun _ _ h => ite_memInv h (normalize_memInv h))

/-! ## RESERVE_GRANT (R170) -/

omit h in
theorem handOut_memInv {c} : ∀ (l : List (Nat × Nat)) {s : State}, MemInv s → MemInv (s.handOut c l)
  | [], _, h => h
  | (_, _) :: l, s, h => by
    rw [State.handOut]
    refine ite_memInv (handOut_memInv l h) ?_
    split
    · exact ite_memInv (handOut_memInv l (modSlice_memInv h)) h
    · exact handOut_memInv l h

theorem allocPass_memInv {c} : MemInv (s.allocPass c) := ite_memInv h (handOut_memInv _ (foldS_memInv h (fun _ _ h => ite_memInv (modSlice_memInv h) h)))

theorem reserveGrant_memInv {c} : MemInv (s.reserveGrant c) := by
  refine ite_memInv h ?_
  split
  · exact h
  · refine ite_memInv (modSlice_memInv h) (ite_memInv h ?_)
    split
    · exact want_memInv h
    · exact trapOne_memInv (rejoined_memInv h)

/-! ## STALL_SAMPLE (R471) -/

theorem sampleTake_memInv {c} : MemInv (s.sampleTake c) := by
  unfold State.sampleTake
  dsimp only
  split
  · exact h
  · exact modCore_memInv h

omit h in
theorem sampleCount_memInv {c per} : ∀ (fuel n : Nat) {s : State}, MemInv s → MemInv (s.sampleCount c per fuel n)
  | 0, _, _, h => h
  | fuel + 1, n, s, h => by
    rw [State.sampleCount]
    exact ite_memInv (modCore_memInv h) (sampleCount_memInv fuel _ (modCore_memInv (modDie_memInv (sampleTake_memInv (modDie_memInv h)))))

theorem sampleCycles_memInv {c n} : MemInv (s.sampleCycles c n) := ite_memInv h (modDie_memInv (sampleCount_memInv _ _ h))

theorem stallSample_memInv {c} : MemInv (s.stallSample c) := by
  unfold State.stallSample
  split
  · exact h
  · exact modCore_memInv (ringWrite_memInv h)

/-! ## n cycles of a die -/

theorem elapse_memInv {die n busy} : MemInv (s.elapse die n busy) :=
  ite_memInv (foldS_memInv (modDie_memInv (.of_mem (foldS_memInv h (fun _ _ h => sampleCycles_memInv h)) (by rfl))) (fun _ _ h => countIdle_memInv h))
    (modDie_memInv (.of_mem (foldS_memInv h (fun _ _ h => sampleCycles_memInv h)) (by rfl)))

end

end Sys2Proof.Machine

/-!
PROOFS. Memory stays canonical: the meaning of every instruction and event.
-/
namespace Sys2Proof.Machine

/-- What an outcome leaves has memory in canonical form. -/
def NextInv (o : Result) : Prop := ∀ t, o = .next t → MemInv t

theorem nextInv_next {t : State} (h : MemInv t) : NextInv (.next t) := fun _ e => Host.Outcome.next.inj e ▸ h

theorem nextInv_fault {f : Fault} : NextInv (.fault f) := fun _ e => by cases e

theorem nextInv_ite {c : Prop} [Decidable c] {a b : Result} (ha : NextInv a) (hb : NextInv b) : NextInv (if c then a else b) :=
  iteInduction (fun _ => ha) (fun _ => hb)

theorem issue_nextInv {r : Raw} {s : State} {body : State → State} (h : MemInv s) (hb : MemInv (body s)) : NextInv (issue r s body) :=
  have ht {k c va : Nat} : NextInv (.next (s.trapAll r.x k c va)) := nextInv_next (trapAll_memInv h)
  nextInv_ite nextInv_fault (nextInv_ite ht (nextInv_ite ht (nextInv_ite ht (nextInv_ite ht (nextInv_next hb)))))

theorem hitchGroup_nextInv {s : State} {op : Op} {x : Ext} {f : Nat → Nat → Mask → State → State} (h : MemInv s)
    (hf : ∀ u i m t, MemInv t → MemInv (f u i m t)) : NextInv (issue (.ext op x) s (fun s => eachSlice s (.ext op x) f)) :=
  issue_nextInv h (eachSlice_memInv h hf)

/-- Memory is in canonical form after any instruction or event. -/
theorem exec_nextInv {s : State} (h : MemInv s) : ∀ i, NextInv (exec i s)
  | .nop _ | .nopExt _ => issue_nextInv h (bodyNop_memInv h)
  | .bra _ | .braExt _ => issue_nextInv h (bodyBra_memInv h)
  | .brx _ | .brxExt _ => issue_nextInv h (bodyBrx_memInv h)
  | .call _ | .callExt _ => issue_nextInv h (bodyCall_memInv h)
  | .callx _ | .callxExt _ => issue_nextInv h (bodyCallx_memInv h)
  | .ret _ | .retExt _ => issue_nextInv h (bodyRet_memInv h)
  | .exit _ | .exitExt _ => issue_nextInv h (bodyExit_memInv h)
  | .kill _ | .killExt _ => issue_nextInv h (bodyKill_memInv h)
  | .yield _ | .yieldExt _ => issue_nextInv h (bodyYield_memInv h)
  | .enter _ | .enterExt _ => issue_nextInv h (bodyEnter_memInv h)
  | .leave _ | .leaveExt _ => issue_nextInv h (bodyLeave_memInv h)
  | .plop _ | .plopExt _ => issue_nextInv h (bodyPlop_memInv h)
  | .smov _ | .smovExt _ => issue_nextInv h (bodySmov_memInv h)
  | .sset _ | .ssetExt _ => issue_nextInv h (bodySset_memInv h)
  | .trap _ | .trapExt _ => issue_nextInv h (bodyTrap_memInv h)
  | .rett | .rettH => issue_nextInv h (bodyRett_memInv h)
  | .drainst _ | .drainstExt _ => issue_nextInv h (bodyDrainst_memInv h)
  | .gkill _ | .gkillExt _ => issue_nextInv h (bodyGkill_memInv h)
  | .bkpt _ | .bkptExt _ => issue_nextInv h (bodyBkpt_memInv h)
  | .rrchk _ | .rrchkExt _ => issue_nextInv h (bodyRrchk_memInv h)
  | .trigger _ | .triggerExt _ => issue_nextInv h (bodyTrigger_memInv h)
  | .seqend _ | .seqendExt _ => issue_nextInv h (bodySeqend_memInv h)
  | .mov _ | .movExt _ => issue_nextInv h (bodyMov_memInv h)
  | .kmov _ | .kmovExt _ => issue_nextInv h (bodyKmov_memInv h)
  | .iadd _ | .iaddExt _ | .isub _ | .isubExt _ | .iadd64 _ | .iadd64Ext _ => issue_nextInv h (bodyAddSub_memInv h)
  | .iaddc _ | .iaddcExt _ | .isubb _ | .isubbExt _ => issue_nextInv h (bodyCarry_memInv h)
  | .imul _ | .imulExt _ => issue_nextInv h (bodyImul_memInv h)
  | .imulh _ | .imulhExt _ => issue_nextInv h (bodyImulh_memInv h)
  | .imad _ => issue_nextInv h (bodyImad_memInv h)
  | .imad64 _ => issue_nextInv h (bodyImad64_memInv h)
  | .imin _ | .iminExt _ | .imax _ | .imaxExt _ => issue_nextInv h (bodyMinMax_memInv h)
  | .iabs _ | .iabsExt _ => issue_nextInv h (bodyIabs_memInv h)
  | .and _ | .andExt _ | .or _ | .orExt _ | .xor _ | .xorExt _ | .andn _ | .andnExt _ => issue_nextInv h (bodyLogic_memInv h)
  | .shl _ | .shlExt _ | .shr _ | .shrExt _ | .sar _ | .sarExt _ => issue_nextInv h (bodyShift_memInv h)
  | .shf _ => issue_nextInv h (bodyShf_memInv h)
  | .rot _ | .rotExt _ => issue_nextInv h (bodyRot_memInv h)
  | .bfx _ | .bfxExt _ => issue_nextInv h (bodyBfx_memInv h)
  | .bfi _ => issue_nextInv h (bodyBfi_memInv h)
  | .popc _ | .popcExt _ => issue_nextInv h (bodyPopc_memInv h)
  | .clz _ | .clzExt _ => issue_nextInv h (bodyClz_memInv h)
  | .brev _ | .brevExt _ => issue_nextInv h (bodyBrev_memInv h)
  | .perm _ => issue_nextInv h (bodyPerm_memInv h)
  | .icmp _ | .icmpExt _ => issue_nextInv h (bodyIcmp_memInv h)
  | .isel _ | .iselExt _ => issue_nextInv h (bodyIsel_memInv h)
  | .lea _ => issue_nextInv h (bodyLea_memInv h)
  | .fence _ | .fenceExt _ => issue_nextInv h (bodyFence_memInv h)
  | .bar _ | .barExt _ => issue_nextInv h (bodyBar_memInv h)
  | .bara _ | .baraExt _ => issue_nextInv h (bodyBara_memInv h)
  | .barw _ | .barwExt _ => issue_nextInv h (bodyBarw_memInv h)
  | .barinit _ | .barinitExt _ => issue_nextInv h (bodyBarinit_memInv h)
  | .splice _ | .spliceExt _ => issue_nextInv h (bodySplice_memInv h)
  | .fork _ => issue_nextInv h (bodyFork_memInv h)
  | .rdv _ => issue_nextInv h (bodyRdv_memInv h)
  | .fadd _ | .faddExt _ | .fsub _ | .fsubExt _ | .fmul _ | .fmulExt _ | .ffma _ | .dadd _ | .daddExt _ | .dmul _ | .dmulExt _ | .dfma _ => issue_nextInv h (bodyArith_memInv h)
  | .fmin _ | .fminExt _ | .fmax _ | .fmaxExt _ => issue_nextInv h (bodyFmin_memInv h)
  | .fcmp _ | .fcmpExt _ | .dcmp _ | .dcmpExt _ => issue_nextInv h (bodyFcmp_memInv h)
  | .fclass _ | .fclassExt _ | .fclassRdfl _ => issue_nextInv h (bodyFclass_memInv h)
  | .fscale _ | .fscaleExt _ => issue_nextInv h (bodyFscale_memInv h)
  | .frcp _ | .frcpExt _ | .frsq _ | .frsqExt _ | .fexp2 _ | .fexp2Ext _ | .flog2 _ | .flog2Ext _ | .fsin _ | .fsinExt _ | .fcos _ | .fcosExt _ => issue_nextInv h (bodyTable_memInv h)
  | .fsqrt _ | .fsqrtExt _ => issue_nextInv h (bodyFsqrt_memInv h)
  | .fdiv _ | .fdivExt _ => issue_nextInv h (bodyFdiv_memInv h)
  | .hadd2 _ | .hadd2Ext _ | .hmul2 _ | .hmul2Ext _ | .hfma2 _ => issue_nextInv h (bodyPacked_memInv h)
  | .hmin2 _ | .hmin2Ext _ | .hmax2 _ | .hmax2Ext _ => issue_nextInv h (bodyHmin_memInv h)
  | .fdot _ => issue_nextInv h (bodyFdot_memInv h)
  | .cvt _ => issue_nextInv h (bodyCvt_memInv h)
  | .cvtpk _ | .cvtpkExt _ => issue_nextInv h (bodyCvtpk_memInv h)
  | .qblk _ => issue_nextInv h (bodyQblk_memInv h)
  | .dqblk _ => issue_nextInv h (bodyDqblk_memInv h)
  | .vqdec _ | .vqdecExt _ => issue_nextInv h (bodyVqdec_memInv h)
  | .exphist _ | .exphistExt _ => issue_nextInv h (bodyExphist_memInv h)
  | .srseed _ | .srseedExt _ => issue_nextInv h (bodySrseed_memInv h)
  | .xshf _ | .xshfExt _ => issue_nextInv h (bodyXshf_memInv h)
  | .xbcast _ | .xbcastExt _ => issue_nextInv h (bodyXbcast_memInv h)
  | .xred _ | .xredExt _ => issue_nextInv h (bodyXred_memInv h)
  | .xscan _ | .xscanExt _ => issue_nextInv h (bodyXscan_memInv h)
  | .xdot _ => issue_nextInv h (bodyXdot_memInv h)
  | .xvote _ | .xvoteExt _ => issue_nextInv h (bodyXvote_memInv h)
  | .xmatch _ | .xmatchExt _ => issue_nextInv h (bodyXmatch_memInv h)
  | .ld _ | .ldExt _ => issue_nextInv h (bodyLd_memInv h)
  | .st _ | .stExt _ => issue_nextInv h (bodySt_memInv h)
  | .ldk _ | .ldkExt _ => issue_nextInv h (bodyLdk_memInv h)
  | .atom _ | .atomExt _ | .red _ | .redExt _ => issue_nextInv h (bodyAtom_memInv h)
  | .pref _ | .prefExt _ | .cflush _ | .cflushExt _ | .cinv _ | .cinvExt _ => issue_nextInv h (bodyCache_memInv h)
  | .acp16 _ | .tcopy _ | .tcopyExt _ | .tdump _ | .tdumpExt _ => issue_nextInv h (bodyCopy_memInv h)
  | .awinit _ | .awinitExt _ | .awexp _ | .awexpExt _ | .await _ | .awaitExt _ | .awtest _ | .awtestExt _ => issue_nextInv h (bodyAw_memInv h)
  | .launch _ | .launchExt _ => issue_nextInv h (bodyLaunch_memInv h)
  | .nwait _ | .nwaitT _ | .nwaitExt _ => issue_nextInv h (bodyNwait_memInv h)
  | .hinit _ => hitchGroup_nextInv h fun _ _ _ _ h => hinitOne_memInv h
  | .hjoin _ => hitchGroup_nextInv h fun _ _ _ _ h => hjoinOne_memInv h
  | .hcontrib _ => hitchGroup_nextInv h fun _ _ _ _ h => hcontribOne_memInv h
  | .hwait _ => hitchGroup_nextInv h fun _ _ _ _ h => hwaitOne_memInv h
  | .hquery _ => hitchGroup_nextInv h fun _ _ _ _ h => hqueryOne_memInv h
  | .tcfg _ => issue_nextInv h (bodyTcfg_memInv h)
  | .tld _ | .tst _ => issue_nextInv h (bodyTile_memInv h)
  | .tzero _ => issue_nextInv h (bodyTzero_memInv h)
  | .tzeroA _ => issue_nextInv h (bodyTzeroA_memInv h)
  | .mma _ | .mmav _ | .olapply _ => issue_nextInv h (bodyMat_memInv h)
  | .cbld _ => issue_nextInv h (bodyCbld_memInv h)
  | .aprom _ => issue_nextInv h (bodyAprom_memInv h)
  | .aout _ => issue_nextInv h (bodyAout_memInv h)
  | .asav _ => issue_nextInv h (bodyAsav_memInv h)
  | .arst _ => issue_nextInv h (bodyArst_memInv h)
  | .ahist _ => issue_nextInv h (bodyAhist_memInv h)
  | .stest _ => issue_nextInv h (bodyStest_memInv h)
  | .subaddrWrite _ _ => nextInv_next (subaddrWrite_memInv h)
  | .hostdone _ _ => nextInv_next (awake_memInv h (hostdone_memInv h))
  | .launchPacket _ => nextInv_next (awake_memInv h (launchPacket_memInv h))
  | .launchPortConfigure _ _ => nextInv_next (awake_memInv h (portConfigure_memInv h))
  | .launchPortUnconfigure _ _ => nextInv_next (awake_memInv h (portUnconfigure_memInv h))
  | .taskAccept => nextInv_next (taskAccept_memInv h)
  | .dispatchPass => nextInv_next (dispatchPass_memInv h)
  | .plctlWrite _ => nextInv_next (plctlWrite_memInv h)
  | .throttleStart _ => nextInv_next (throttleStart_memInv h)
  | .invalidateAll | .invalidateAsid _ | .invalidateRange _ _ => nextInv_next (awake_memInv h (invalidate_memInv h))
  | .invalidationComplete => nextInv_next (invalDone_memInv h)
  | .faultRetry _ _ | .faultFail _ _ => nextInv_next (awake_memInv h (answerFault_memInv h))
  | .faultQueueWrite _ => nextInv_next (queueFault_memInv h)
  | .walk _ => nextInv_next (walkOne_memInv h)
  | .reserveGrant _ => nextInv_next (reserveGrant_memInv h)
  | .loadReply _ => nextInv_next (loadReply_memInv h)
  | .storeTranslate _ => nextInv_next (storeTranslate_memInv h)
  | .atomicPerform _ => nextInv_next (atomicPerform_memInv h)
  | .wcAgeDrain _ => nextInv_next (wcAgeDrain_memInv h)
  | .wcDrainAck _ _ => nextInv_next (wcDrainAck_memInv h)
  | .copyCellRead _ => nextInv_next (copyRead_memInv h)
  | .copyCellWrite _ => nextInv_next (copyWrite_memInv h)
  | .copyCellAck _ => nextInv_next (copyAck_memInv h)
  | .matrixOpComplete _ => nextInv_next (matrixComplete_memInv h)
  | .selfTest _ _ _ => nextInv_next (awake_memInv h (selfTest_memInv h))
  | .barrierWatchdog _ _ => nextInv_next (barrierWatchdog_memInv h)
  | .podBarrierComplete _ _ => nextInv_next (podBarrierComplete_memInv h)
  | .cellReceive _ _ => nextInv_next (awake_memInv h (cellReceive_memInv h))
  | .linkUp _ => nextInv_next (awake_memInv h (linkUp_memInv h))
  | .linkDown _ => nextInv_next (awake_memInv h (linkDown_memInv h))
  | .podRequest _ => nextInv_next (podRequest_memInv h)
  | .podResponse _ => nextInv_next (podResponse_memInv h)
  | .spliceMessage _ => nextInv_next (awake_memInv h (spliceMessage_memInv h))
  | .spliceStepTimeout _ _ _ _ _ => nextInv_next (spliceTimeout_memInv h)
  | .hitchContribution _ => nextInv_next (hitchContribution_memInv h)
  | .hitchWatchdog _ _ => nextInv_next (hitchWatchdog_memInv h)
  | .triggerMark _ _ => nextInv_next (triggerMark_memInv h)
  | .exitReleaseComplete _ _ => nextInv_next (exitComplete_memInv h)
  | .haltRequest _ => nextInv_next (haltRequest_memInv h)
  | .haltNestTimeout _ _ => nextInv_next (haltNest_memInv h)
  | .contextSaveComplete _ => nextInv_next (contextSave_memInv h)
  | .teamEnd _ => nextInv_next (teamEnd_memInv h)
  | .taskEnd _ => nextInv_next (taskEnd_memInv h)
  | .tkill _ => nextInv_next (awake_memInv h (tkill_memInv h))
  | .stallSample _ => nextInv_next (stallSample_memInv h)
  | .laneCycleClear => nextInv_next (awake_memInv h (clearSlots_memInv h))
  | .replayGateTimeout _ => nextInv_next (gateTimeout_memInv h)
  | .correctedError _ _ => nextInv_next (awake_memInv h (correctedError_memInv h))
  | .uncorrectableError _ _ => nextInv_next (awake_memInv h (uncorrectable_memInv h))
  | .featdrvWrite _ => nextInv_next (featdrvWrite_memInv h)
  | .throttleOffer _ | .throttleTemperature _ _ => nextInv_next (awake_memInv h (throttle_memInv h))
  | .criticalTemperature _ => nextInv_next (critical_memInv h)
  | .packageReset => nextInv_next (wipe_memInv h)
  | .firmwareLoad _ => nextInv_next (firmwareLoad_memInv h)
  | .toProvisioned | .toDeployed | .toReturned => nextInv_next (transition_memInv h)
  | .getVersion | .getCapabilities | .negotiateAlgorithms | .getDigests | .getCertificate | .challenge => nextInv_next (spdm_memInv h)
  | .getMeasurements => nextInv_next (modMgmt_memInv h)
  | .keyExchange | .finish | .keyUpdate => nextInv_next (modMgmt_memInv (spdm_memInv h))
  | .registerWrite _ _ => nextInv_next (registerWrite_memInv h)
  | .hostMemoryAccess _ => nextInv_next (hostAccess_memInv h)
  | .flowRekey _ _ => nextInv_next (awake_memInv h (flowRekey_memInv h))
  | .tileTransferComplete _ _ => nextInv_next (transferComplete_memInv h)

end Sys2Proof.Machine

/-!
PROOFS. Memory stays canonical: turns of agents, cycles, inputs and the default schedule, and so every step.
-/
namespace Sys2Proof.Machine

theorem andThen_nextInv {o : Result} {f : State → Result} (ho : NextInv o) (hf : ∀ s, MemInv s → NextInv (f s)) : NextInv (andThen o f) := by
  cases o with
  | next t => exact hf t (ho t rfl)
  | _ => exact ho

theorem eachThen_nextInv {α : Type} {f : α → State → Result} (hf : ∀ a s, MemInv s → NextInv (f a s)) :
    ∀ (as : List α) {s : State}, MemInv s → NextInv (eachThen f as s)
  | [], _, h => nextInv_next h
  | a :: as, _, h => andThen_nextInv (hf a _ h) fun _ h => eachThen_nextInv hf as h

section
variable {s : State} (h : MemInv s)
include h

/-! ## The choice of a gang (R21, R178, R179) -/

theorem movePtr_memInv {c p x} : MemInv (s.movePtr c p x) := modCore_memInv h

/-! ## Issue -/

theorem prepare_memInv {offer} : MemInv (s.prepare offer) := foldS_memInv h (fun _ _ h => rejoined_memInv h)

theorem markReady_memInv {die} : MemInv (s.markReady die) := .of_mem h rfl

theorem pass_memInv {die n busy} : MemInv (s.pass die n busy) := markReady_memInv (foldS_memInv (elapse_memInv h) (fun _ _ h => allocPass_memInv h))

theorem withCode_memInv {ins a} : MemInv (s.withCode ins a) := by
  unfold State.withCode
  split
  · exact codeHeld_memInv _ _ h
  · exact codeHeld_memInv _ _ h
  · exact h

theorem keepPipe_memInv {u r} : MemInv (s.keepPipe u r) := by
  unfold State.keepPipe
  split
  · exact ite_memInv (modCore_memInv h) h
  · exact h

omit h in
theorem modSlices_memInv {t : State} {u : Nat} {f : Nat → Slice → Slice} {is : List Nat} (ht : MemInv t) :
    MemInv (foldS (fun i t => t.modSlice u i (f i)) is t) := foldS_memInv ht fun _ _ ht => modSlice_memInv ht

theorem counted_memInv {w a ins} : MemInv (State.counted w a ins s) := by
  have hi : MemInv { s with cur := .idle } := .of_mem h rfl
  have h3 {u : Nat} {is₁ is₂ is₃ : List Nat} {f₁ f₂ f₃ : Nat → Slice → Slice} := modSlices_memInv (u := u) (f := f₃) (is := is₃)
    (modSlices_memInv (u := u) (f := f₂) (is := is₂) (modSlices_memInv (u := u) (f := f₁) (is := is₁) hi))
  unfold State.counted
  dsimp only
  split
  · exact ite_memInv h3 (ite_memInv (addSlots_memInv (keepPipe_memInv h3)) (keepPipe_memInv h3))
  · exact modQuad_memInv (modCtx_memInv (.of_mem h (by rfl)))
  · exact .of_mem h rfl

theorem ctxPend_memInv {k p} : MemInv (s.ctxPend k p) := ite_memInv (modCtx_memInv (sticky_memInv h)) (stopCtx_memInv h)

theorem fetchTrap_memInv {who kind cause va} : MemInv (s.fetchTrap who kind cause va) := by
  refine ite_memInv (foldS_memInv h (fun _ _ h => setWait_memInv h)) (foldS_memInv h (fun _ _ h => ?_))
  split
  · split
    · exact ctxPend_memInv h
    · exact trapOne_memInv h
  · exact trapOne_memInv h

theorem run_nextInv {ins a} : NextInv (s.run ins a) := by
  have hx : NextInv (exec ins { s.withCode ins a with cur := a }) := exec_nextInv (.of_mem (withCode_memInv h) (by rfl)) ins
  unfold State.run
  dsimp only
  split
  case h_1 t e => exact nextInv_next (counted_memInv (hx t e))
  case h_2 => exact hx

theorem act_nextInv : ∀ p, NextInv (s.act p)
  | .none => nextInv_next h
  | .trap .. => nextInv_next (fetchTrap_memInv h)
  | .hold .. => nextInv_next (setWait_memInv (raiseFault_memInv h))
  | .walk .. => nextInv_next (waitWalks_memInv h)
  | .run .. => run_nextInv h

theorem choose_memInv {c p offer took q t} (e : s.choose c p offer took = some (q, t)) : MemInv t := by
  obtain ⟨x, -, hx⟩ := Option.map_eq_some_iff.mp e
  cases hx
  exact movePtr_memInv h

theorem vectorActs_nextInv {c offer took n} : NextInv (s.vectorActs c offer took n).1 := by
  unfold State.vectorActs
  split
  · exact nextInv_next h
  case h_2 p t e =>
    have ht : NextInv (t.act p) := act_nextInv (choose_memInv h e) p
    split
    case h_1 w hw => exact nextInv_next (ht w hw)
    case h_2 => exact ht

theorem coreActs_nextInv {c offer both} : NextInv (s.coreActs c offer both).1 := by
  have hp {t : State} {xs : List Seat} (ht : MemInv t) : MemInv ((t.prepare xs).allocPass c) := allocPass_memInv (prepare_memInv ht)
  have h0 {dues xs : List Seat} : MemInv (((foldS (fun x s => (s.boundary x.team x.slice).getD s) dues s).prepare xs).allocPass c) :=
    hp (foldS_memInv h fun _ _ h => getD_memInv h fun _ e => boundary_memInv h e)
  unfold State.coreActs
  dsimp only
  split
  · exact vectorActs_nextInv h0
  case h_2 p t e =>
    have ht : NextInv (t.act p) := act_nextInv (choose_memInv h0 e) p
    split
    case h_1 w hw =>
      split
      · exact nextInv_next (ht w hw)
      · exact vectorActs_nextInv (hp (ht w hw))
    case h_2 => exact ht

theorem coreTurn_nextInv {c offer both} : NextInv (s.coreTurn c offer both) :=
  andThen_nextInv (coreActs_nextInv h) fun _ h => nextInv_next (pass_memInv h)

theorem ctxActs_nextInv {m c} : NextInv (s.ctxActs m c) := act_nextInv h _

theorem turn_nextInv {a} : NextInv (s.turn a) := by
  refine nextInv_ite (nextInv_next (pass_memInv h)) ?_
  split
  · exact nextInv_next (pass_memInv h)
  · split
    · exact coreTurn_nextInv h
    · exact nextInv_next (pass_memInv h)
  · exact andThen_nextInv (ctxActs_nextInv h) fun _ h => nextInv_next (pass_memInv h)

theorem coreCycle_nextInv {c} : NextInv (s.coreCycle c) := nextInv_ite (nextInv_next (pass_memInv h)) (coreTurn_nextInv h)

omit h in
theorem coresAct_nextInv : ∀ (cs : List CoreId) (busy : List (CoreId × Nat)) {s : State}, MemInv s → NextInv (s.coresAct cs busy).1
  | [], _, _, h => nextInv_next h
  | c :: cs, busy, s, h => by
    have hc : NextInv (s.coreActs c (s.seats c) true).1 := coreActs_nextInv h
    rw [State.coresAct]
    split
    case h_1 t n e => exact coresAct_nextInv cs _ (hc t (congrArg Prod.fst e))
    case h_2 o n hne e =>
      rw [e] at hc
      exact hc

theorem dieCycle_nextInv {die} : NextInv (s.dieCycle die) :=
  nextInv_ite (nextInv_next (pass_memInv h))
    (andThen_nextInv (andThen_nextInv (coresAct_nextInv _ _ h) fun _ h => eachThen_nextInv (fun _ _ h => ctxActs_nextInv h) _ h)
      fun _ h => nextInv_next (pass_memInv h))

/-! ## Inputs -/

theorem dropRdc_memInv {die line} : MemInv (s.dropRdc die line) := modDie_memInv h

theorem input_nextInv (x : Input) : NextInv (s.input x) := by
  refine nextInv_ite (nextInv_next h) ?_
  cases x with
  | event i => exact nextInv_ite (nextInv_next h) (exec_nextInv h i)
  | issue a => exact nextInv_ite (dieCycle_nextInv h) (turn_nextInv h)
  | cycle c => exact nextInv_ite (dieCycle_nextInv h) (coreCycle_nextInv h)
  | tick die n => exact nextInv_ite (dieCycle_nextInv h) (nextInv_next (pass_memInv h))
  | setUp q => exact nextInv_next (setUp_memInv h)
  | farInit asid obj => exact nextInv_next (farInit_memInv h)
  | farJoin pa m => exact nextInv_next (farJoin_memInv h)
  | farDepart pa m => exact nextInv_next (farDepart_memInv h)
  | farRuns pa m runs => exact nextInv_next (farRuns_memInv h)
  | slot l => exact nextInv_next (slot_memInv h)
  | evictL1 c line => exact nextInv_next (l1Drop_memInv h)
  | evictRdc die line => exact nextInv_next (dropRdc_memInv h)
  | evictCode c pa => exact nextInv_next (modCore_memInv h)
  | fetchCode c pa => exact nextInv_next (foldS_memInv h fun _ _ h => codeFill_memInv h)
  | ioTick n => exact nextInv_next (.of_mem h (by rfl))
  | nodeKey n d holds => exact nextInv_next (.of_mem h (by rfl))
  | nodeClass n c v => exact nextInv_next (.of_mem h (by rfl))
  | farPath p n marked => exact nextInv_next (.of_mem h (by rfl))
  | farPod node slot c => exact nextInv_next (.of_mem h (by rfl))
  | package n => exact nextInv_next (.of_mem h (by rfl))

/-! ## The default schedule -/

theorem clean_memInv {c} : MemInv (s.clean c) := ite_memInv h (modCore_memInv (l1BackAll_memInv h))

theorem doWork_nextInv (w : Work) : NextInv (s.doWork w) := by
  cases w with
  | accept => exact nextInv_ite (nextInv_next h) (nextInv_next (taskAccept_memInv h))
  | pass => exact nextInv_next (dispatchPass_memInv h)
  | walk d => exact nextInv_next (walkOne_memInv h)
  | queue d => exact nextInv_next (queueFault_memInv h)
  | throttle d => exact nextInv_next (throttleStart_memInv h)
  | load id => exact nextInv_next (loadReply_memInv h)
  | store id => exact nextInv_next (storeTranslate_memInv h)
  | atom id => exact nextInv_next (atomicPerform_memInv h)
  | podReq id => exact nextInv_next (podRequest_memInv h)
  | podResp id => exact nextInv_next (podResponse_memInv h)
  | cellRead id => exact nextInv_next (copyRead_memInv h)
  | cellWrite id => exact nextInv_next (copyWrite_memInv h)
  | cellAck id => exact nextInv_next (copyAck_memInv h)
  | wcAck c id => exact nextInv_next (wcDrainAck_memInv h)
  | wcAge c => exact nextInv_next (wcAgeDrain_memInv h)
  | reserve c => exact nextInv_next (reserveGrant_memInv h)
  | sample c => exact nextInv_next (stallSample_memInv h)
  | clean c => exact nextInv_next (clean_memInv h)
  | matrix c => exact nextInv_next (matrixComplete_memInv h)
  | transfer c m => exact nextInv_next (transferComplete_memInv h)
  | test d q => exact nextInv_next (selfTest_memInv h)
  | mark u l => exact nextInv_next (triggerMark_memInv h)
  | exited u l => exact nextInv_next (exitComplete_memInv h)
  | podWord b ph => exact nextInv_next (podBarrierComplete_memInv h)
  | barDog u i => exact nextInv_next (barrierWatchdog_memInv h)
  | hitchDog u i => exact nextInv_next (hitchWatchdog_memInv h)
  | nest u i => exact nextInv_next (haltNest_memInv h)
  | gate a => exact nextInv_next (gateTimeout_memInv h)
  | halt u => exact nextInv_next (haltRequest_memInv h)
  | save u => exact nextInv_next (contextSave_memInv h)
  | endTeam u => exact nextInv_next (teamEnd_memInv h)
  | endTask n => exact nextInv_ite (nextInv_next h) (nextInv_next (taskEnd_memInv h))
  | slot l => exact nextInv_next (slot_memInv h)
  | message m => exact nextInv_next (spliceMessage_memInv h)
  | stepLimit f => exact nextInv_next (spliceTimeout_memInv h)
  | contrib id => exact nextInv_next (hitchContribution_memInv h)
  | close pa => exact nextInv_next (retryClose_memInv h)
  | inval => exact nextInv_next (invalDone_memInv h)
  | die d => exact dieCycle_nextInv h
  | ioTime => exact nextInv_next (.of_mem h (by rfl))

theorem default_nextInv : NextInv s.default := by
  unfold State.default
  dsimp only
  split
  · exact doWork_nextInv (.of_mem h (by rfl)) _
  · exact nextInv_next (.of_mem h (by rfl))

theorem advanceOne_nextInv : NextInv s.advanceOne := by
  unfold State.advanceOne
  split
  · exact input_nextInv (.of_mem h (by rfl)) _
  · exact nextInv_ite (default_nextInv h) (nextInv_next h)

end

/-- Settles O60: memory is written by `homeWrite` alone, whose result is canonical, and a reset leaves a part of the list; every operation
that a step is made of keeps the form, so the step does. -/
theorem stepKeepsMemoryCanonical : Obligations.StepKeepsMemoryCanonical := fun _ t h e => advanceOne_nextInv h t e

end Sys2Proof.Machine
